-- ==== Sys2Proof/Word.lean ====
section
/-! DEFINITION. The word types of the Pyrmuir 7 and their plainest arithmetic. -/

namespace Sys2Proof

/-- A scalar or address register, a queue word, a command word (R95). -/
abbrev W64 := BitVec 64
/-- A sequencer or access-unit instruction word (R66). -/
abbrev W32 := BitVec 32
/-- A byte of memory. -/
abbrev Byte := BitVec 8
/-- A vector register or a queue entry, 512 bytes, byte 0 in the low bits (R95, R171). -/
abbrev VWord := BitVec 4096
/-- A mask register, one bit per element (R95). -/
abbrev MWord := BitVec 1024
/-- An address-space identifier (R224). -/
abbrev Asid := BitVec 12

/-- All ones, the value that m0 reads (R95). -/
def MWord.ones : MWord := BitVec.allOnes 1024

/-- The bits `hi` down to `lo` of a natural number, read as a natural number (R6). -/
def bitsOf (x hi lo : Nat) : Nat := (x / 2 ^ lo) % 2 ^ (hi + 1 - lo)

end Sys2Proof
end

