-- ==== Sys2Proof/Syntax.lean ====
section
/-! DEFINITION. The steps of the Pyrmuir 7 as one inductive: the instructions of the sequencer, the access unit and the
vector unit, the engine commands, and the events of the device, the firmware and the host (spec/opcode_table.json). -/

namespace Sys2Proof

/-- Element types (R85, R152 to R159). -/
inductive ElemType where
  | s8 | z8 | s16 | z16 | s32 | z32 | s4 | z4 | e4m3 | e5m2 | t8 | t6 | bf16 | f16 | f32
  deriving DecidableEq, Repr

/-- The issuing units of a bank (R73). -/
inductive UnitId where
  | S | A | V
  deriving DecidableEq, Repr

/-- The engines, numbers 0 to 5 (R8, R48). -/
inductive Eng where
  | mx | cp | kv | xg | sp | wn
  deriving DecidableEq, Repr

/-- Predicates of CMP and CMPI (R128). -/
inductive Pred where
  | eq | ne | lt | ge | ltz | gez
  deriving DecidableEq, Repr

/-- Predicates of VCMP (R186). -/
inductive VPred where
  | eq | ne | lt | le | gt | ge | un
  deriving DecidableEq, Repr

/-- Widths of SEXT and ZEXT (R126) and, with w8, of LDS and STS (R228). -/
inductive Width where
  | w1 | w2 | w4 | w8
  deriving DecidableEq, Repr

/-- Queues that SEND feeds (R134). -/
inductive SendQ where
  | xq | aq | ssq
  deriving DecidableEq, Repr

/-- Queues that RECV drains (R134). -/
inductive RecvQ where
  | cq | rq
  deriving DecidableEq, Repr

/-- Counters that TIME reads (R146). -/
inductive Counter where
  | tcc | dcc | dt
  deriving DecidableEq, Repr

/-- Kinds of RESOLVE (R138). -/
inductive ResolveKind where
  | discard | commit | cond (y : BitVec 4)
  deriving DecidableEq, Repr

/-- The per-bank system registers (R150). -/
inductive SysReg where
  | caps | taskinfo | trapvec | trapcause | trapret | shadowst | rbase
  deriving DecidableEq, Repr

/-- The four rounding modes and RNA (R161). -/
inductive Rm where
  | rne | rtz | rdn | rup | rna
  deriving DecidableEq, Repr

/-- A vector source: a register, or the head of a load queue, read without popping when `peek` (R84, R105). -/
inductive VSrc where
  | reg (n : BitVec 8)
  | lq (n : BitVec 3) (peek : Bool)
  deriving DecidableEq, Repr

/-- A vector destination: a register, or the tail of a store queue (R84, R173). -/
inductive VDst where
  | reg (n : BitVec 8)
  | sq (n : BitVec 3)
  deriving DecidableEq, Repr

/-- The count of a vector shift (R181). -/
inductive ShiftCount where
  | imm (n : BitVec 6)
  | src (b : VSrc)
  deriving DecidableEq, Repr

/-- An index source of R196. -/
inductive IndexSrc where
  | imm (n : BitVec 6)
  | xq
  deriving DecidableEq, Repr

/-- The slice index of a tile move (R214). -/
inductive SliceIdx where
  | imm (n : BitVec 8)
  | xq
  deriving DecidableEq, Repr

/-- Modes of MSET (R189). -/
inductive MSetMode where
  | zero | ones | xq
  deriving DecidableEq, Repr

/-- The destination of a reduction (R209). -/
inductive RedDst where
  | reg (n : BitVec 8)
  | regCq (n : BitVec 8)
  | cq
  deriving DecidableEq, Repr

/-- Operand of VSETMODE (R211). -/
inductive ModeSrc where
  | imm (rm : Rm) (f8sat : Bool)
  | xq
  deriving DecidableEq, Repr

/-- Fields of word 0 that the engines share, and word 7 (R91, R273). -/
structure CmdHdr where
  start  : BitVec 20
  shadow : BitVec 4
  btag   : BitVec 8
  res    : Bool
  done   : W64
  deriving DecidableEq, Repr

/-- Operands of MMS and MMSA (R251). -/
structure MmsArgs where
  tile : BitVec 6
  astr : BitVec 4
  row0 : BitVec 8
  col0 : BitVec 8
  mM1  : BitVec 8
  deriving DecidableEq, Repr

/-- Operands of CPY, CPYC, FILL and CPYF (R274). -/
structure CpArgs where
  dhost   : Bool
  shost   : Bool
  src     : W64
  dst     : W64
  rowsM1  : BitVec 16
  lenM1   : BitVec 32
  dstride : BitVec 32
  sstride : BitVec 32
  opx     : W64
  seq     : BitVec 32
  deriving DecidableEq, Repr

/-- ATTACH and DETACH of KVXL (R358). -/
inductive XlMode where
  | look | attach | detach
  deriving DecidableEq, Repr

/-- Operands of KVAPP (R352, R359). -/
structure KvAppArgs where
  inplace : Bool
  seq     : W64
  layer   : BitVec 8
  nM1     : BitVec 4
  off     : BitVec 16
  ksrc    : W64
  vsrc    : W64
  deriving DecidableEq, Repr

/-- Operands of KVATT (R352, R361). -/
structure KvAttArgs where
  tree   : Bool
  causal : Bool
  score  : Bool
  seq    : W64
  qaddr  : W64
  oaddr  : W64
  layer  : BitVec 8
  head   : BitVec 4
  gM1    : BitVec 4
  rM1    : BitVec 6
  ext    : BitVec 16
  scale  : BitVec 32
  mask   : W64
  deriving DecidableEq, Repr

/-- Operands of KVCMT (R352, R366). -/
structure KvCmtArgs where
  seq     : W64
  ckver   : BitVec 32
  k       : BitVec 4
  adv     : BitVec 32
  path    : W64
  parents : W64
  deriving DecidableEq, Repr

/-- Operands of SPSOFT (R409). -/
structure SpSoftArgs where
  src    : W64
  dst    : W64
  vM1    : BitVec 17
  rowsM1 : BitVec 6
  bf16   : Bool
  invt   : BitVec 32
  deriving DecidableEq, Repr

/-- Operands of SPACC (R409). -/
structure SpAccArgs where
  tree    : W64
  prows   : W64
  qrows   : W64
  out     : W64
  counter : W64
  keyix   : BitVec 8
  nM1     : BitVec 6
  vM1     : BitVec 17
  deriving DecidableEq, Repr

/-- The targets that hold an access table (R339). -/
inductive Target where
  | lpddr (die : Nat) | tier (die : Nat) | scratch (die : Nat) | sram | sysreg (die : Nat)
  | mx (core : Nat) | cp (core : Nat) | kv (core : Nat) | xg (die : Nat) | sp | wn
  deriving DecidableEq, Repr

/-- The steps of the device: one constructor for each row of spec/opcode_table.json. -/
inductive Instr where
  -- sequencer, R123 to R129
  | add (d a b : BitVec 6) | sub (d a b : BitVec 6) | mul (d a b : BitVec 6) | mulh (d a b : BitVec 6)
  | mulhz (d a b : BitVec 6) | div (d a b : BitVec 6) | divz (d a b : BitVec 6) | rem (d a b : BitVec 6)
  | remz (d a b : BitVec 6) | and (d a b : BitVec 6) | or (d a b : BitVec 6) | xor (d a b : BitVec 6)
  | andn (d a b : BitVec 6) | shl (d a b : BitVec 6) | shr (d a b : BitVec 6) | sar (d a b : BitVec 6)
  | min (d a b : BitVec 6) | max (d a b : BitVec 6) | minz (d a b : BitVec 6) | maxz (d a b : BitVec 6)
  | clz (d a : BitVec 6) | ctz (d a : BitVec 6) | popc (d a : BitVec 6)
  | sext (d a : BitVec 6) (w : Width) | zext (d a : BitVec 6) (w : Width) | mov (d a : BitVec 6)
  | cmp (p : Pred) (d : BitVec 4) (a b : BitVec 6) | cmpi (p : Pred) (d : BitVec 4) (a : BitVec 6) (i : BitVec 13)
  | cand (d a b : BitVec 4) | cor (d a b : BitVec 4) | cnot (d a : BitVec 4)
  | addi (d a : BitVec 6) (i : BitVec 13) | andi (d a : BitVec 6) (i : BitVec 13)
  | ori (d a : BitVec 6) (i : BitVec 13) | xori (d a : BitVec 6) (i : BitVec 13)
  | shli (d a : BitVec 6) (n : BitVec 6) | shri (d a : BitVec 6) (n : BitVec 6) | sari (d a : BitVec 6) (n : BitVec 6)
  | liw (d : BitVec 6) (i : BitVec 32) | lih (d : BitVec 6) (i : BitVec 32)
  -- sequencer, R130 to R149
  | br (disp : BitVec 20) | brc (c : BitVec 4) (inv : Bool) (disp : BitVec 20) | call (disp : BitVec 20)
  | brx (a : BitVec 6) | ret (a : BitVec 6) | loopr (d : BitVec 6) (rot : BitVec 7) (disp : BitVec 32)
  | send (q : SendQ) (a : BitVec 6) | recv (d : BitVec 6) (q : RecvQ)
  | push (e : Eng) (x : BitVec 6) (y : BitVec 4) | pop (x : BitVec 6) (e : Eng) (y : BitVec 4)
  | shadow (n : BitVec 3) | resolve (n : BitVec 3) (k : ResolveKind)
  | phase (g : BitVec 2) | fence (g : BitVec 2) | waitc (a b : BitVec 6) | launch (y : BitVec 4) (q a : BitVec 6)
  | halt | yield | time (d : BitVec 6) (f : Counter) | realign (a b : BitVec 6) | tret | nop
  | sysr (d : BitVec 6) (n : SysReg) | sysw (n : SysReg) (a : BitVec 6) | trap (code : BitVec 13)
  -- access unit, R226 to R239, R317, R333
  | aadd (d a b : BitVec 5) | asub (d a b : BitVec 5) | amov (d a : BitVec 5) | aget (d : BitVec 5)
  | aaddi (d a : BitVec 5) (i : BitVec 16) | aaddiA64 (d a : BitVec 5) (i : BitVec 32)
  | ashli (d a : BitVec 5) (n : BitVec 6)
  | ldv (u a : BitVec 5) (q : BitVec 3) (off : BitVec 13) | stv (u a : BitVec 5) (q : BitVec 3) (off : BitVec 13)
  | lds (a : BitVec 5) (w : Width) (sx : Bool) (off : BitVec 13) | sts (a : BitVec 5) (w : Width) (off : BitVec 13)
  | amoadd (a : BitVec 5) (w8 : Bool) | amoxchg (a : BitVec 5) (w8 : Bool) | amocas (a : BitVec 5) (w8 : Bool)
  | amomin (a : BitVec 5) (w8 z : Bool) | amomax (a : BitVec 5) (w8 z : Bool)
  | amoand (a : BitVec 5) (w8 : Bool) | amoor (a : BitVec 5) (w8 : Bool)
  | sdef (st : BitVec 4) (a : BitVec 5) | sset (st : BitVec 4) (w : BitVec 3) (a : BitVec 5)
  | sgo (st : BitVec 4) (target : BitVec 5) | sstop (st : BitVec 4) | sstat (st : BitVec 4)
  | pft (a : BitVec 5) (level : BitVec 2) | tlbsync
  | frz (a l : BitVec 5) (g : BitVec 2) | thw (a l : BitVec 5) (g : BitVec 2)
  -- vector, R176 to R194
  | vadd (d : VDst) (a b : VSrc) (m : BitVec 6) (t : ElemType) | vsub (d : VDst) (a b : VSrc) (m : BitVec 6) (t : ElemType)
  | vmul (d : VDst) (a b : VSrc) (m : BitVec 6) (t : ElemType)
  | vfma (d : VDst) (a b : VSrc) (c : BitVec 8) (m : BitVec 6) (t : ElemType)
  | vfms (d : VDst) (a b : VSrc) (c : BitVec 8) (m : BitVec 6) (t : ElemType)
  | vfnma (d : VDst) (a b : VSrc) (c : BitVec 8) (m : BitVec 6) (t : ElemType)
  | vneg (d : VDst) (a : VSrc) (m : BitVec 6) (t : ElemType) | vabs (d : VDst) (a : VSrc) (m : BitVec 6) (t : ElemType)
  | vmin (d : VDst) (a b : VSrc) (m : BitVec 6) (t : ElemType) | vmax (d : VDst) (a b : VSrc) (m : BitVec 6) (t : ElemType)
  | vadds (d : VDst) (a b : VSrc) (m : BitVec 6) (t : ElemType) | vsubs (d : VDst) (a b : VSrc) (m : BitVec 6) (t : ElemType)
  | vmulh (d : VDst) (a b : VSrc) (m : BitVec 6) (t : ElemType) | vavg (d : VDst) (a b : VSrc) (m : BitVec 6) (t : ElemType)
  | vshl (d : VDst) (a : VSrc) (n : ShiftCount) (m : BitVec 6) (t : ElemType)
  | vshr (d : VDst) (a : VSrc) (n : ShiftCount) (m : BitVec 6) (t : ElemType)
  | vsar (d : VDst) (a : VSrc) (n : ShiftCount) (m : BitVec 6) (t : ElemType)
  | vand (d : VDst) (a b : VSrc) (m : BitVec 6) (t : ElemType) | vor (d : VDst) (a b : VSrc) (m : BitVec 6) (t : ElemType)
  | vxor (d : VDst) (a b : VSrc) (m : BitVec 6) (t : ElemType) | vandn (d : VDst) (a b : VSrc) (m : BitVec 6) (t : ElemType)
  | vnot (d : VDst) (a : VSrc) (m : BitVec 6) (t : ElemType)
  | vclz (d : VDst) (a : VSrc) (m : BitVec 6) (t : ElemType) | vpopc (d : VDst) (a : VSrc) (m : BitVec 6) (t : ElemType)
  | vwadd (d : BitVec 8) (a b : VSrc) (m : BitVec 6) (t : ElemType) (quad : Bool)
  | vwmul (d : BitVec 8) (a b : VSrc) (m : BitVec 6) (t : ElemType) (quad : Bool)
  | vwfma (d : BitVec 8) (a b : VSrc) (m : BitVec 6) (t : ElemType) (quad : Bool)
  | vcmp (d : BitVec 6) (a b : VSrc) (m : BitVec 6) (t : ElemType) (p : VPred)
  | vclass (d : BitVec 6) (a : VSrc) (m : BitVec 6) (t : ElemType) (cls : BitVec 7)
  | mand (d a b : BitVec 6) | mor (d a b : BitVec 6) | mxor (d a b : BitVec 6) | mandn (d a b : BitVec 6)
  | mnot (d a : BitVec 6) | mset (d : BitVec 6) (mode : MSetMode)
  | mpop (a : BitVec 6) (t : ElemType) | mfirst (a : BitVec 6) (t : ElemType) | mmov (d a : BitVec 6)
  | vcvt (d : VDst) (a : VSrc) (m : BitVec 6) (t s : ElemType) (sat : Bool)
  | vcvts (d : VDst) (a : VSrc) (m : BitVec 6) (t s : ElemType)
  | vscale (d : VDst) (a b : VSrc) (m : BitVec 6) (t : ElemType)
  -- vector, R197 to R216
  | vmov (d : VDst) (a : VSrc) (m : BitVec 6) (t : ElemType)
  | vsel (d : VDst) (a b : VSrc) (sel m : BitVec 6) (t : ElemType)
  | vbcast (d : VDst) (a : VSrc) (j : IndexSrc) (m : BitVec 6) (t : ElemType)
  | vsplat (d : VDst) (m : BitVec 6) (t : ElemType)
  | vextr (a : VSrc) (j : IndexSrc) (t : ElemType)
  | vins (d : BitVec 8) (j : IndexSrc) (m : BitVec 6) (t : ElemType)
  | vldi (d : VDst) (i : BitVec 7) (m : BitVec 6) (t : ElemType)
  | vperm (d : VDst) (a b : VSrc) (m : BitVec 6) (t : ElemType)
  | vperme (d : VDst) (a b : VSrc) (c : BitVec 8) (m : BitVec 6) (t : ElemType)
  | vslup (d : VDst) (a b : VSrc) (c : IndexSrc) (m : BitVec 6) (t : ElemType)
  | vsldn (d : VDst) (a b : VSrc) (c : IndexSrc) (m : BitVec 6) (t : ElemType)
  | vrev (d : VDst) (a : VSrc) (m : BitVec 6) (t : ElemType)
  | vcompr (d : VDst) (a : VSrc) (sel : BitVec 6) (t : ElemType) (cq : Bool)
  | vexpnd (d : BitVec 8) (a : VSrc) (m : BitVec 6) (t : ElemType)
  | vzip2 (d a : BitVec 8) (t : ElemType) | vzip3 (d a : BitVec 8) (t : ElemType) | vzip4 (d a : BitVec 8) (t : ElemType)
  | vunzip2 (d a : BitVec 8) (t : ElemType) | vunzip3 (d a : BitVec 8) (t : ElemType) | vunzip4 (d a : BitVec 8) (t : ElemType)
  | vunpk4 (d : VDst) (a : VSrc) (m : BitVec 6) (t : ElemType) (mode : BitVec 2)
  | vpack4 (d : VDst) (a b : VSrc) (m : BitVec 6) (t : ElemType) (inter sat : Bool)
  | vrsum (d : RedDst) (a : VSrc) (m : BitVec 6) (t : ElemType) | vrmax (d : RedDst) (a : VSrc) (m : BitVec 6) (t : ElemType)
  | vrmin (d : RedDst) (a : VSrc) (m : BitVec 6) (t : ElemType) | vramax (d : RedDst) (a : VSrc) (m : BitVec 6) (t : ElemType)
  | vexp2 (d : VDst) (a : VSrc) (m : BitVec 6) | vlog2 (d : VDst) (a : VSrc) (m : BitVec 6)
  | vrcp (d : VDst) (a : VSrc) (m : BitVec 6) | vrsq (d : VDst) (a : VSrc) (m : BitVec 6)
  | vsqrt (d : VDst) (a : VSrc) (m : BitVec 6) | vtanh (d : VDst) (a : VSrc) (m : BitVec 6)
  | vsigm (d : VDst) (a : VSrc) (m : BitVec 6) | vexpm (d : VDst) (a : VSrc) (m : BitVec 6)
  | vsetmode (src : ModeSrc) | vdisc (q : BitVec 3) (countM1 : BitVec 3)
  | vtrd (d : BitVec 8) (tile : BitVec 6) (s : SliceIdx) (m : BitVec 6)
  | vtcd (d : BitVec 8) (tile : BitVec 6) (s : SliceIdx) (m : BitVec 6)
  | vtwr (tile : BitVec 6) (a : BitVec 8) (s : SliceIdx) (m : BitVec 6)
  | vtwc (tile : BitVec 6) (a : BitVec 8) (s : SliceIdx) (m : BitVec 6)
  | tcfg (tile : BitVec 6) | tzero (tile : BitVec 6) | trel (tile : BitVec 6)
  -- events of the banks, the memory system and the firmware
  | lineDispatch (row : Nat) | resultLanding (row : Nat) | loadDataArrival (row id : Nat)
  | streamFetch (row : Nat) (st : BitVec 4) | streamStore (row : Nat) (st : BitVec 4)
  | atomicAtHome (row id : Nat) | movedResend (row id : Nat) | pageWalk (core : Nat) (asid : Asid) (va : Nat)
  | invalidate (core : Nat) (asid : Asid) | ownershipRequest (row : Nat) | queueDeadlock (row : Nat) (u : UnitId)
  | waitcCompletion (row : Nat) | freezeApplication (row : Nat) | collect (holder leaf : Nat) | collectAck (leaf : Nat)
  | bindOp (row : Nat) | preemptOp (row : Nat) | switchOp (row : Nat) | contextSave (row : Nat) | bankSwitch (core : Nat)
  | answerRetry (row : Nat) | answerSkip (row : Nat) | terminate (row : Nat) | engineFaultReport (row : Nat)
  | retirement (row : Nat) | timedCommandStart (row : Nat) (e : Eng) | timedPutArrival (row : Nat) (e : Eng) (id : Nat) (a : W64)
  -- engine commands, R252 to R260, R278 to R281
  | mlw (h : CmdHdr) (wstr : BitVec 4) (ncM1 : BitVec 8) (p8 : Bool) | mswap (h : CmdHdr)
  | mms (h : CmdHdr) (x : MmsArgs) | mmsa (h : CmdHdr) (x : MmsArgs) | mzt (h : CmdHdr) (tile : BitVec 6)
  | mmode (h : CmdHdr) (rm : Rm) (f8sat isat : Bool) | mtcfg (h : CmdHdr) (tile : BitVec 6) (cfg : W64)
  | mstore (h : CmdHdr) (tile : BitVec 6) (conv : Option ElemType) (addr : BitVec 48) (stride : BitVec 32)
  | mloadt (h : CmdHdr) (tile : BitVec 6) (addr : BitVec 48) (stride : BitVec 32)
  | resolveEntry (n : BitVec 3) (keep : Bool)
  | cpy (h : CmdHdr) (x : CpArgs) | cpyc (h : CmdHdr) (x : CpArgs) | fill (h : CmdHdr) (x : CpArgs) | cpyf (h : CmdHdr) (x : CpArgs)
  | followOnEntry (row : Nat) | writePhase (row : Nat)
  -- key-value commands, R358 to R369
  | kvxl (h : CmdHdr) (layout : BitVec 3) (mode : XlMode) (seq : W64) (slot : BitVec 32) (layer : BitVec 8)
  | kvapp (h : CmdHdr) (layout : BitVec 3) (x : KvAppArgs) | kvatt (h : CmdHdr) (layout : BitVec 3) (x : KvAttArgs)
  | kvmask (h : CmdHdr) (parents : W64) (nM1 : BitVec 6) (out : W64)
  | kvckpt (h : CmdHdr) (layout : BitVec 3) (seq : W64) | kvcmt (h : CmdHdr) (layout : BitVec 3) (x : KvCmtArgs)
  | kvsq (h : CmdHdr) (layout : BitVec 3) (all : Bool) (seq nmask : W64)
  | kvscore (h : CmdHdr) (layout : BitVec 3) (seq : W64) (first : BitVec 32) (nM1 : BitVec 16) (src : W64)
  | kvtopk (h : CmdHdr) (layout : BitVec 3) (seq : W64) (lo hi k : BitVec 32) (out : W64)
  | kvcompact (h : CmdHdr) (layout : BitVec 3) (seq : W64) (n : BitVec 32) (list : W64)
  -- exchange, sampling and window commands and their messages
  | xsend (h : CmdHdr) (src : W64) (die chan : BitVec 4) (lenM1 : BitVec 18)
  | xgrant (h : CmdHdr) (sdie chan : BitVec 4) (slots : BitVec 16) | xgrantRevoke (h : CmdHdr) (sdie chan : BitVec 4) (slots : BitVec 16)
  | xrecv (h : CmdHdr) (dst : W64) (sdie chan : BitVec 4) (addf32 : Bool)
  | permit (rdie sdie chan : BitVec 4) (asid : Asid) (slot : BitVec 4)
  | withdraw (rdie sdie chan : BitVec 4) (asid : Asid) (slot : BitVec 4)
  | permitTimeout (row : Nat)
  | spseed (h : CmdHdr) (keyix : BitVec 8) (key : W64) | spsoft (h : CmdHdr) (x : SpSoftArgs)
  | spdraw (h : CmdHdr) (src : W64) (vM1 : BitVec 17) (keyix : BitVec 8) (counter : W64) | spacc (h : CmdHdr) (x : SpAccArgs)
  | wreg (h : CmdHdr) (wid : BitVec 6) (base : W64) (len : BitVec 32)
  | wput (h : CmdHdr) (src : W64) (wid : BitVec 6) (off : BitVec 32) (lenM1 : BitVec 24)
  | wcnt (h : CmdHdr) (wait : Bool) (wid : BitVec 6) (sndEnd : Bool) (target : W64)
  -- system software, registers, host and control die
  | migration (asid : Asid) (va newPa : Nat) (cmp : Bool) | accessTableWrite (t : Target) (i : BitVec 6) (w : W64)
  | doorbell (q : BitVec 4) (tail : BitVec 32) | lnqcfgWrite (q : BitVec 4) (w : W64) | kimgpolWrite (w : W64)
  | dmcfgWrite (die : BitVec 4) (w : W64) | xgcfgWrite (die : BitVec 4) (w : W64)
  | registerWrite (master : BitVec 7) (pa : Nat) (w : Width) (data : W64)
  | bar2Read (off n : Nat) | bar2Write (off : Nat) (bytes : List Byte)
  | aper (seq : BitVec 32) (w1 w2 : W64) | hrgn (seq : BitVec 32) (w1 w2 w3 : W64) | power (seq : BitVec 32) (w1 : W64)
  | clockHoldEnd | sleep (seq : BitVec 32) | wake | keyload (seq : BitVec 32) (w1 w2 : W64) | keyclear (seq : BitVec 32) (w1 : W64)
  | attest (seq : BitVec 32) (w1 w2 : W64) | seal (seq : BitVec 32) (w1 w2 w3 w4 : W64)
  | unseal (seq : BitVec 32) (w1 w2 w3 w4 : W64) | ptmExchange (hostDt : W64) | dtCorrection
  | pairLinkLoss | coldStart | pairLinkTrained | asidRetirement (asid : Asid) | splitShareBound
  -- events that another package, the clock or an engine's own effect brings, kept last
  | schedulingPass | dependenceCheck | splitGangTick (tick : W64) | splitGangStart | realignRequest
  | squash (asid : Asid) (seq : BitVec 32) (tags : W64) | frameMove (asid : Asid) (entry : Nat) (frame : W64) (size : Nat)
  | gangRequired (group : Nat) | putCounted (row id : Nat) (wid : BitVec 6)
  | windowReset (wid : BitVec 6) | putArrival (wid : BitVec 6) (off : BitVec 32) (bytes : List Byte)
  | pairFreezeEntry (asid : Asid) (base len : W64) (group : BitVec 16)
  deriving DecidableEq, Repr

end Sys2Proof
end

