-- ==== Sys2Proof/Machine/Types.lean ====
section
/-! DEFINITION. Codes and sizes of the operand types: element types, widths, engines, predicates. -/

namespace Sys2Proof

/-- Type codes of R85. -/
def ElemType.code : ElemType → Nat
  | .s8 => 0 | .z8 => 1 | .s16 => 2 | .z16 => 3 | .s32 => 4 | .z32 => 5 | .s4 => 6 | .z4 => 7
  | .e4m3 => 8 | .e5m2 => 9 | .t8 => 10 | .t6 => 11 | .bf16 => 12 | .f16 => 13 | .f32 => 14

/-- The type with a code; codes 15 to 31 name none (R85). -/
def ElemType.ofCode : Nat → Option ElemType
  | 0 => some .s8 | 1 => some .z8 | 2 => some .s16 | 3 => some .z16 | 4 => some .s32 | 5 => some .z32
  | 6 => some .s4 | 7 => some .z4 | 8 => some .e4m3 | 9 => some .e5m2 | 10 => some .t8 | 11 => some .t6
  | 12 => some .bf16 | 13 => some .f16 | 14 => some .f32 | _ => none

/-- Element width in bits in a register; a t6 element has an 8-bit slot (R159, R171). -/
def ElemType.width : ElemType → Nat
  | .s4 | .z4 => 4
  | .s8 | .z8 | .e4m3 | .e5m2 | .t8 | .t6 => 8
  | .s16 | .z16 | .bf16 | .f16 => 16
  | .s32 | .z32 | .f32 => 32

/-- Elements of a 512-byte register (R171). -/
def ElemType.count (t : ElemType) : Nat := 4096 / t.width

/-- The integer class, codes 0 to 7 (R175). -/
def ElemType.isInt : ElemType → Bool
  | .s8 | .z8 | .s16 | .z16 | .s32 | .z32 | .s4 | .z4 => true
  | .e4m3 | .e5m2 | .t8 | .t6 | .bf16 | .f16 | .f32 => false

/-- The signed integer types (R152). -/
def ElemType.signed : ElemType → Bool
  | .s8 | .s16 | .s32 | .s4 => true
  | .z8 | .z16 | .z32 | .z4 | .e4m3 | .e5m2 | .t8 | .t6 | .bf16 | .f16 | .f32 => false

/-- The tapered formats (R156). -/
def ElemType.tapered : ElemType → Bool
  | .t8 | .t6 => true
  | .s8 | .z8 | .s16 | .z16 | .s32 | .z32 | .s4 | .z4 | .e4m3 | .e5m2 | .bf16 | .f16 | .f32 => false

/-- The size of an element in bytes where it is not packed below a byte; 1 for the 4-bit types and t6 (R235). -/
def ElemType.bytes (t : ElemType) : Nat := if t.width = 4 then 1 else t.width / 8

/-- The result type of the widening instructions, `quad` or pair (R183). -/
def ElemType.widened : ElemType → Bool → Option ElemType
  | .s4, false => some .s8 | .z4, false => some .z8 | .s4, true => some .s16 | .z4, true => some .z16
  | .s8, false => some .s16 | .z8, false => some .z16 | .s8, true => some .s32 | .z8, true => some .z32
  | .s16, false => some .s32 | .z16, false => some .z32
  | .e4m3, false | .e5m2, false | .t8, false | .t6, false => some .bf16
  | .e4m3, true | .e5m2, true | .t8, true | .t6, true => some .f32
  | .bf16, false | .f16, false => some .f32
  | .s16, true | .z16, true | .bf16, true | .f16, true => none
  | .s32, _ | .z32, _ | .f32, _ => none

/-- Width codes (R86 for SEXT and ZEXT, R228 for LDS and STS). -/
def Width.code : Width → Nat
  | .w1 => 0 | .w2 => 1 | .w4 => 2 | .w8 => 3

/-- The width with a code. -/
def Width.ofCode : Nat → Option Width
  | 0 => some .w1 | 1 => some .w2 | 2 => some .w4 | 3 => some .w8 | _ => none

/-- Width in bytes. -/
def Width.bytes : Width → Nat
  | .w1 => 1 | .w2 => 2 | .w4 => 4 | .w8 => 8

/-- Engine numbers (R48). -/
def Eng.num : Eng → Nat
  | .mx => 0 | .cp => 1 | .kv => 2 | .xg => 3 | .sp => 4 | .wn => 5

/-- The engine with a number; 6 to 63 are unassigned (R83). -/
def Eng.ofNum : Nat → Option Eng
  | 0 => some .mx | 1 => some .cp | 2 => some .kv | 3 => some .xg | 4 => some .sp | 5 => some .wn | _ => none

/-- Predicate codes of CMP (R86). -/
def Pred.code : Pred → Nat
  | .eq => 0 | .ne => 1 | .lt => 2 | .ge => 3 | .ltz => 4 | .gez => 5

/-- The predicate with a code. -/
def Pred.ofCode : Nat → Option Pred
  | 0 => some .eq | 1 => some .ne | 2 => some .lt | 3 => some .ge | 4 => some .ltz | 5 => some .gez | _ => none

/-- Predicate codes of VCMP (R186). -/
def VPred.code : VPred → Nat
  | .eq => 0 | .ne => 1 | .lt => 2 | .le => 3 | .gt => 4 | .ge => 5 | .un => 6

/-- The predicate with a code. -/
def VPred.ofCode : Nat → Option VPred
  | 0 => some .eq | 1 => some .ne | 2 => some .lt | 3 => some .le | 4 => some .gt | 5 => some .ge | 6 => some .un
  | _ => none

/-- Rounding-mode codes (R161). -/
def Rm.code : Rm → Nat
  | .rne => 0 | .rtz => 1 | .rdn => 2 | .rup => 3 | .rna => 4

/-- The mode with a code; 5 to 7 are none. -/
def Rm.ofCode : Nat → Option Rm
  | 0 => some .rne | 1 => some .rtz | 2 => some .rdn | 3 => some .rup | 4 => some .rna | _ => none

/-- System-register numbers (R150). -/
def SysReg.code : SysReg → Nat
  | .caps => 0 | .taskinfo => 1 | .trapvec => 0x10 | .trapcause => 0x11 | .trapret => 0x12 | .shadowst => 0x20
  | .rbase => 0x21

/-- The system register with a number. -/
def SysReg.ofCode : Nat → Option SysReg
  | 0 => some .caps | 1 => some .taskinfo | 0x10 => some .trapvec | 0x11 => some .trapcause | 0x12 => some .trapret
  | 0x20 => some .shadowst | 0x21 => some .rbase | _ => none

/-- The ratio of two widths, as R191 takes it. -/
def widthRatio (a b : Nat) : Nat := max a b / min a b

/-- Registers of a permute's index group (R199). -/
def ElemType.indexGroup (t : ElemType) : Nat := if t.width = 4 then 4 else if t.width = 8 then 2 else 1

/-- Whether two vector sources agree on PEEK, which is one bit of the instruction (R84). -/
def VSrc.peekAgree : VSrc → VSrc → Bool
  | .lq _ p, .lq _ q => p == q
  | .lq _ _, .reg _ => true
  | .reg _, _ => true

/-- Whether a vector source is a register. -/
def VSrc.isReg : VSrc → Bool
  | .reg _ => true
  | .lq _ _ => false

/-- The number of a register source; 0 for a queue. -/
def VSrc.regNum : VSrc → Nat
  | .reg n => n.toNat
  | .lq _ _ => 0

/-- Whether a vector destination is a register. -/
def VDst.isReg : VDst → Bool
  | .reg _ => true
  | .sq _ => false

/-- The number of a register destination; 0 for a queue. -/
def VDst.regNum : VDst → Nat
  | .reg n => n.toNat
  | .sq _ => 0

/-- Whether a finite positive f32 code is above zero (R410). -/
def f32PositiveFinite (x : Nat) : Bool := decide (0 < x) && decide (x < 0x7F800000)

end Sys2Proof
end

