-- ==== Sys2Proof/WellFormed.lean ====
section
/-! DEFINITION. Which operands an instruction may have: the encodings that R84, R85, R94 and the malformed-command rules
accept, and the agents that an event may name. -/

namespace Sys2Proof

/-- Sources, destination and type of VCVT and VCVTS: widths within a factor of 4, aligned groups, and queue forms only for
single registers (R191). -/
def convOk (d : VDst) (a : VSrc) (t s : ElemType) : Bool :=
  let k := widthRatio t.width s.width
  decide (k ≤ 4) &&
    (if s.width < t.width then d.isReg && decide (d.regNum % k = 0)
     else if t.width < s.width then a.isReg && decide (a.regNum % k = 0)
     else true)

/-- Destination of the widening instructions (R183, R185). -/
def widenOk (d : BitVec 8) (a b : VSrc) (t : ElemType) (quad : Bool) : Bool :=
  (t.widened quad).isSome && decide (d.toNat % (if quad then 4 else 2) = 0) && a.peekAgree b

/-- Indices of VPERM and VPERME (R199). -/
def permOk (a b : VSrc) (t : ElemType) : Bool :=
  a.peekAgree b && (b.isReg || decide (t.indexGroup = 1)) && decide (b.regNum % t.indexGroup = 0)

/-- The count operand of a shift agrees with the source on PEEK. -/
def shiftOk (a : VSrc) : ShiftCount → Bool
  | .imm _ => true
  | .src b => a.peekAgree b

/-- What every engine command shares: START, SHADOW and BTAG only where R92 allows them, and the alignment of DONE. -/
def CmdHdr.ok (h : CmdHdr) (start shadow btag : Bool) (doneAlign : Nat) : Bool :=
  (start || h.start == 0) && (if shadow then decide (h.shadow.toNat ≤ 4) else h.shadow == 0) && (btag || h.btag == 0) &&
    decide (h.done.toNat % doneAlign = 0)

/-- A virtual address has bits 63:48 zero (R224). -/
def isVirtual (x : W64) : Bool := decide (x.toNat < 2 ^ 48)

/-- Bytes written by a copy: rows times the row length in destination bytes (R275). -/
def CpArgs.written (x : CpArgs) (size : Nat) : Nat := (x.rowsM1.toNat + 1) * (x.lenM1.toNat + 1) * size

/-- The fields that R275 forbids on every CP command; `size` is the destination size of an element. -/
def CpArgs.ok (h : CmdHdr) (x : CpArgs) (size : Nat) : Bool :=
  h.ok true false true 16 && (x.shost || isVirtual x.src) && (x.dhost || isVirtual x.dst) &&
    (if h.btag == 0 then x.seq == 0 else !x.shost && !x.dhost && decide (x.written size ≤ 65536))

/-- An element type that CPYC accepts: codes 0 to 5 and 8 to 14 without t6 (R279). -/
def cpycType (c : Nat) : Option ElemType :=
  (ElemType.ofCode c).filter fun t => decide (t.width ≠ 4) && t != .t6

/-- The conversion field of CPYC (R279): destination and source types, mode and SAT. -/
def cpycField (w : W64) : Option (ElemType × ElemType × Rm × Bool) :=
  let x := w.toNat
  if x / 2 ^ 20 ≠ 0 ∨ bitsOf x 15 13 ≠ 0 ∨ bitsOf x 7 5 ≠ 0 then none else
  match cpycType (bitsOf x 12 8), cpycType (bitsOf x 4 0), Rm.ofCode (bitsOf x 18 16) with
  | some d, some s, some rm => some (d, s, rm, decide (bitsOf x 19 19 = 1))
  | _, _, _ => none

/-- An output type that MSTORE converts to (R251). -/
def mstoreType : ElemType → Bool
  | .s8 | .s16 | .e4m3 | .e5m2 | .t8 | .bf16 | .f16 => true
  | .z8 | .z16 | .s32 | .z32 | .s4 | .z4 | .t6 | .f32 => false

/-- The fields of a tile configuration word that R216 accepts. -/
def tileCfgOk (w : W64) : Bool :=
  let x := w.toNat
  decide (x / 2 ^ 45 = 0) && decide (bitsOf x 31 21 = 0) &&
    (decide (bitsOf x 20 16 = 14) || decide (bitsOf x 20 16 = 4) || decide (bitsOf x 20 16 = 12))

/-- A die with an exchange (R377). -/
def xgDie (d : BitVec 4) : Bool := decide (1 ≤ d.toNat) && decide (d.toNat ≤ 8)

/-- A row of the timetable. -/
def rowOk (r : Nat) : Bool := decide (r < 72)

/-- A target of an access table (R339): the dies that hold it. -/
def Target.ok : Target → Bool
  | .lpddr d | .tier d => decide (1 ≤ d) && decide (d ≤ 4)
  | .scratch d => decide (5 ≤ d) && decide (d ≤ 8)
  | .sram | .sp | .wn => true
  | .sysreg d => decide (d ≤ 8)
  | .mx c | .cp c => decide (c < 36)
  | .kv c => decide (4 ≤ c) && decide (c < 20)
  | .xg d => decide (1 ≤ d) && decide (d ≤ 8)

/-- The operands that the encodings and the malformed-command rules accept. -/
def Instr.wf : Instr → Bool
  | .sext _ _ w | .zext _ _ w => w != .w8
  | .push _ x _ => decide (x.toNat % 8 = 0)
  | .shadow n => decide (1 ≤ n.toNat) && decide (n.toNat ≤ 4)
  | .resolve n _ => decide (1 ≤ n.toNat) && decide (n.toNat ≤ 4)
  | .lds _ w sx _ => !(sx && w == .w8)
  | .sgo _ t => decide (t.toNat < 18)
  | .pft _ l => decide (l.toNat < 3)
  | .vadd _ a b _ _ | .vsub _ a b _ _ | .vmul _ a b _ _ | .vmin _ a b _ _ | .vmax _ a b _ _
  | .vand _ a b _ _ | .vor _ a b _ _ | .vxor _ a b _ _ | .vandn _ a b _ _
  | .vfma _ a b _ _ _ | .vfms _ a b _ _ _ | .vfnma _ a b _ _ _
  | .vcmp _ a b _ _ _ | .vsel _ a b _ _ _ | .vslup _ a b _ _ _ | .vsldn _ a b _ _ _ => a.peekAgree b
  | .vadds _ a b _ t | .vsubs _ a b _ t | .vmulh _ a b _ t | .vavg _ a b _ t => t.isInt && a.peekAgree b
  | .vshl _ a n _ t | .vshr _ a n _ t | .vsar _ a n _ t => t.isInt && shiftOk a n
  | .vclz _ _ _ t | .vpopc _ _ _ t => t.isInt
  | .vwadd d a b _ t q | .vwmul d a b _ t q | .vwfma d a b _ t q => widenOk d a b t q
  | .vclass _ _ _ t _ => !t.isInt
  | .vcvt d a _ t s sat => convOk d a t s && (!sat || (t.isInt && s.isInt))
  | .vcvts d a _ t s => convOk d a t s
  | .vscale _ a b _ t => !t.isInt && a.peekAgree b
  | .vperm _ a b _ t | .vperme _ a b _ _ t => permOk a b t
  | .vunpk4 _ _ _ t _ => decide (t.width = 4)
  | .vpack4 _ a b _ t _ _ => decide (t.width = 4) && a.peekAgree b
  | .add .. | .sub .. | .mul .. | .mulh .. | .mulhz .. | .div .. | .divz .. | .rem .. | .remz .. | .and .. | .or ..
  | .xor .. | .andn .. | .shl .. | .shr .. | .sar .. | .min .. | .max .. | .minz .. | .maxz .. | .clz .. | .ctz ..
  | .popc .. | .mov .. | .cmp .. | .cmpi .. | .cand .. | .cor .. | .cnot .. | .addi .. | .andi .. | .ori .. | .xori ..
  | .shli .. | .shri .. | .sari .. | .liw .. | .lih .. | .br .. | .brc .. | .call .. | .brx .. | .ret .. | .loopr ..
  | .send .. | .recv .. | .pop .. | .phase .. | .fence .. | .waitc .. | .launch .. | .halt | .yield | .time ..
  | .realign .. | .tret | .nop | .sysr .. | .sysw .. | .trap ..
  | .aadd .. | .asub .. | .amov .. | .aget .. | .aaddi .. | .aaddiA64 .. | .ashli .. | .ldv .. | .stv .. | .sts ..
  | .amoadd .. | .amoxchg .. | .amocas .. | .amomin .. | .amomax .. | .amoand .. | .amoor .. | .sdef .. | .sset ..
  | .sstop .. | .sstat .. | .tlbsync | .frz .. | .thw ..
  | .vneg .. | .vabs .. | .vnot .. | .mand .. | .mor .. | .mxor .. | .mandn .. | .mnot .. | .mset .. | .mpop ..
  | .mfirst .. | .mmov .. | .vmov .. | .vbcast .. | .vsplat .. | .vextr .. | .vins .. | .vldi .. | .vrev .. | .vcompr ..
  | .vexpnd .. | .vzip2 .. | .vzip3 .. | .vzip4 .. | .vunzip2 .. | .vunzip3 .. | .vunzip4 .. | .vrsum .. | .vrmax ..
  | .vrmin .. | .vramax .. | .vexp2 .. | .vlog2 .. | .vrcp .. | .vrsq .. | .vsqrt .. | .vtanh .. | .vsigm .. | .vexpm ..
  | .vsetmode .. | .vdisc .. | .vtrd .. | .vtcd .. | .vtwr .. | .vtwc .. | .tcfg .. | .tzero .. | .trel .. => true
  -- events
  | .lineDispatch r | .resultLanding r | .loadDataArrival r _ | .streamFetch r _ | .streamStore r _ | .atomicAtHome r _
  | .movedResend r _ | .ownershipRequest r | .queueDeadlock r _ | .waitcCompletion r | .freezeApplication r | .bindOp r
  | .preemptOp r | .switchOp r | .contextSave r | .answerRetry r | .answerSkip r | .terminate r | .engineFaultReport r
  | .retirement r | .timedCommandStart r _ | .timedPutArrival r _ _ _ | .followOnEntry r | .writePhase r
  | .permitTimeout r | .putCounted r _ _ => rowOk r
  | .pageWalk c _ _ | .invalidate c _ | .bankSwitch c => decide (c < 36)
  | .collect h _ => decide (h < 44)
  | .gangRequired g => decide (g < 256)
  | .frameMove _ _ f n => decide (f.toNat % 4096 = 0) && decide (n % 4096 = 0) && decide (n ≤ 73728)
  | .collectAck _ | .schedulingPass | .dependenceCheck | .splitGangTick _ | .splitGangStart | .realignRequest
  | .squash .. | .windowReset _ | .putArrival .. | .pairFreezeEntry .. | .migration .. | .doorbell ..
  | .lnqcfgWrite .. | .kimgpolWrite _ | .registerWrite .. | .bar2Read .. | .bar2Write .. | .aper .. | .hrgn .. | .power ..
  | .clockHoldEnd | .sleep _ | .wake | .keyload .. | .keyclear .. | .attest .. | .seal .. | .unseal .. | .ptmExchange _
  | .dtCorrection | .pairLinkLoss | .coldStart | .pairLinkTrained | .asidRetirement _ | .splitShareBound => true
  | .permit r s _ _ _ | .withdraw r s _ _ _ => xgDie r && xgDie s
  | .accessTableWrite t _ _ => t.ok
  | .dmcfgWrite d _ => decide (5 ≤ d.toNat) && decide (d.toNat ≤ 8)
  | .xgcfgWrite d _ => xgDie d
  -- engine commands
  | .resolveEntry n _ => decide (1 ≤ n.toNat) && decide (n.toNat ≤ 4)
  | .mlw h _ nc _ => h.ok true false false 16 && decide (nc.toNat ≤ 127)
  | .mswap h | .mmode h _ _ _ => h.ok true false false 16
  | .mms h _ | .mmsa h _ | .mzt h _ => h.ok true true false 16
  | .mtcfg h _ cfg => h.ok true false false 16 && tileCfgOk cfg
  | .mstore h _ conv addr stride =>
    h.ok true false false 16 && (match conv with | none => true | some t => mstoreType t) &&
      decide (addr.toNat % 64 = 0) && decide (stride.toNat % 64 = 0)
  | .mloadt h _ addr stride => h.ok true false false 16 && decide (addr.toNat % 64 = 0) && decide (stride.toNat % 64 = 0)
  | .cpy h x => CpArgs.ok h x 1 && x.opx == 0
  | .cpyc h x => match cpycField x.opx with
    | none => false
    | some (d, _, _, _) => CpArgs.ok h x d.bytes
  | .fill h x => CpArgs.ok h x 1 && !x.shost && x.src == 0 && x.sstride == 0
  | .cpyf h x => CpArgs.ok h x 1 && decide (x.opx.toNat % 64 = 0)
  | .kvxl h _ mode seq slot layer =>
    h.ok false false false 16 && decide (seq.toNat % 128 = 0) && (mode == .look || (slot == 0 && layer == 0))
  | .kvapp h _ x =>
    h.ok false false true 16 && decide (x.seq.toNat % 128 = 0) && decide (x.ksrc.toNat % 64 = 0) &&
      decide (x.vsrc.toNat % 64 = 0) && decide (h.btag.toNat ≤ 64) &&
      (if h.btag == 0 then !x.inplace
       else x.nM1 == 0 && decide (1 ≤ x.off.toNat) && decide (x.off.toNat ≤ 8))
  | .kvatt h _ x =>
    h.ok false false false 16 && decide (x.seq.toNat % 128 = 0) && decide (x.qaddr.toNat % 64 = 0) &&
      decide (x.oaddr.toNat % 64 = 0) && decide (x.mask.toNat % 64 = 0) &&
      (if x.tree then !x.causal && x.ext == 0 && x.mask != 0 else x.mask == 0)
  | .kvmask h _ _ out => h.ok false false false 16 && decide (out.toNat % 64 = 0)
  | .kvckpt h _ seq => h.ok false false false 16 && decide (seq.toNat % 128 = 0)
  | .kvcmt h _ x =>
    h.ok false false false 16 && decide (x.seq.toNat % 128 = 0) && decide (x.k.toNat ≤ 8) &&
      (if x.k == 0 then x.path == 0 && x.parents == 0 else x.adv == 0 && x.path != 0 && x.parents != 0)
  | .kvsq h _ all seq nmask => h.ok false false false 16 && decide (seq.toNat % 128 = 0) && (!all || nmask == 0)
  | .kvscore h _ seq _ _ src => h.ok false false false 16 && decide (seq.toNat % 128 = 0) && decide (src.toNat % 4 = 0)
  | .kvtopk h _ seq lo hi _ out =>
    h.ok false false false 16 && decide (seq.toNat % 128 = 0) && decide (out.toNat % 4 = 0) && decide (lo.toNat < hi.toNat)
  | .kvcompact h _ seq n list =>
    h.ok false false false 16 && decide (seq.toNat % 128 = 0) && decide (list.toNat % 4 = 0) && n != 0
  | .xsend h src die _ lenM1 =>
    h.ok true false false 16 && isVirtual src && decide (src.toNat % 64 = 0) && xgDie die &&
      decide ((lenM1.toNat + 1) % 64 = 0)
  | .xgrant h sdie _ slots | .xgrantRevoke h sdie _ slots => h.ok false false false 16 && xgDie sdie && slots != 0
  | .xrecv h dst sdie _ _ => h.ok true false false 16 && isVirtual dst && decide (dst.toNat % 64 = 0) && xgDie sdie
  | .spseed h _ _ => h.ok false false false 16
  | .spsoft h x =>
    h.ok false false false 16 && isVirtual h.done && isVirtual x.src && isVirtual x.dst && decide (x.src.toNat % 4 = 0) &&
      decide (x.dst.toNat % 4 = 0) && f32PositiveFinite x.invt.toNat
  | .spdraw h src _ _ _ => h.ok false false false 16 && isVirtual h.done && isVirtual src && decide (src.toNat % 4 = 0)
  | .spacc h x =>
    h.ok false false false 16 && isVirtual h.done && isVirtual x.tree && isVirtual x.prows && isVirtual x.qrows && isVirtual x.out &&
      decide (x.tree.toNat % 64 = 0) && decide (x.prows.toNat % 64 = 0) && decide (x.qrows.toNat % 64 = 0) &&
      decide (x.out.toNat % 64 = 0)
  | .wreg h _ base len =>
    h.ok false false false 64 && decide (base.toNat % 64 = 0) && decide (len.toNat % 64 = 0)
  | .wput h _ _ _ _ => h.ok false false false 64
  | .wcnt h _ _ _ _ => h.ok false false false 64

end Sys2Proof
end

