-- ==== Sys2Proof/Decode.lean ====
section
/-! DEFINITION. The decoder, total on any word: it reads the fields and accepts an instruction when its operands are well
formed and no reserved bit is set, that is, when the encoder below gives the same word again. Then the encoder, from the
same tables (R78 to R92). -/

namespace Sys2Proof

/-- The bits of an S32 word (R78). -/
def packS (op d a b f : Nat) : Nat := op * 2 ^ 25 + d * 2 ^ 19 + a * 2 ^ 13 + b * 2 ^ 7 + f

/-- The bits of an SI word (R78). -/
def packSI (op d a i : Nat) : Nat := op * 2 ^ 25 + d * 2 ^ 19 + a * 2 ^ 13 + i

/-- The bits of an SB word (R79). -/
def packSB (op c inv disp : Nat) : Nat := op * 2 ^ 25 + c * 2 ^ 21 + inv * 2 ^ 20 + disp

/-- The bits of an A32 word (R81). -/
def packA (op d a i : Nat) : Nat := op * 2 ^ 26 + d * 2 ^ 21 + a * 2 ^ 16 + i

/-- The fields of a V64 word (R82). -/
structure VFields where
  opc  : Nat
  vd   : Nat := 0
  va   : Nat := 0
  vb   : Nat := 0
  vc   : Nat := 0
  mask : Nat := 0
  ty   : Nat := 0
  qa   : Bool := false
  qb   : Bool := false
  peek : Bool := false
  qd   : Bool := false
  imm  : Nat := 0
  deriving DecidableEq, Repr

/-- The bits of a V64 word (R82). -/
def VFields.pack (f : VFields) : Nat :=
  f.opc * 2 ^ 54 + f.vd * 2 ^ 46 + f.va * 2 ^ 38 + f.vb * 2 ^ 30 + f.vc * 2 ^ 22 + f.mask * 2 ^ 16 + f.ty * 2 ^ 11 +
    f.qa.toNat * 2 ^ 10 + f.qb.toNat * 2 ^ 9 + f.peek.toNat * 2 ^ 8 + f.qd.toNat * 2 ^ 7 + f.imm

/-- The fields read from a V64 word. -/
def VFields.of (w : Nat) : VFields :=
  ⟨bitsOf w 63 54, bitsOf w 53 46, bitsOf w 45 38, bitsOf w 37 30, bitsOf w 29 22, bitsOf w 21 16, bitsOf w 15 11,
    bitsOf w 10 10 == 1, bitsOf w 9 9 == 1, bitsOf w 8 8 == 1, bitsOf w 7 7 == 1, bitsOf w 6 0⟩

/-- The first source: va, or a load queue when QA is set (R84). -/
def VFields.srcA (f : VFields) : VSrc := if f.qa then .lq (.ofNat 3 f.va) f.peek else .reg (.ofNat 8 f.va)

/-- The second source: vb, or a load queue when QB is set (R84). -/
def VFields.srcB (f : VFields) : VSrc := if f.qb then .lq (.ofNat 3 f.vb) f.peek else .reg (.ofNat 8 f.vb)

/-- The destination: vd, or a store queue when QD is set (R84). -/
def VFields.dst (f : VFields) : VDst := if f.qd then .sq (.ofNat 3 f.vd) else .reg (.ofNat 8 f.vd)

/-- The index source of R196. -/
def VFields.index (f : VFields) : IndexSrc := if 64 ≤ f.imm then .xq else .imm (.ofNat 6 f.imm)

/-- The shift count of R181. -/
def VFields.shift (f : VFields) : ShiftCount := if 64 ≤ f.imm then .imm (.ofNat 6 f.imm) else .src f.srcB

/-- The slice index of R214. -/
def VFields.slice (f : VFields) : SliceIdx := if f.imm % 2 = 1 then .xq else .imm (.ofNat 8 f.vb)

/-- The destination of a reduction (R209). -/
def VFields.red (f : VFields) : Option RedDst :=
  match f.imm % 4 with
  | 0 => some (.reg (.ofNat 8 f.vd))
  | 1 => some (.regCq (.ofNat 8 f.vd))
  | 2 => some .cq
  | _ => none

/-- The field of a source register or queue number, and whether it is a queue. -/
def VSrc.field : VSrc → Nat
  | .reg n => n.toNat
  | .lq n _ => n.toNat

/-- Whether a source reads a load queue. -/
def VSrc.isLq : VSrc → Bool
  | .reg _ => false
  | .lq _ _ => true

/-- Whether a source is a queue that is read without popping. -/
def VSrc.isPeek : VSrc → Bool
  | .reg _ => false
  | .lq _ p => p

/-- The field of a destination register or queue number. -/
def VDst.field : VDst → Nat
  | .reg n => n.toNat
  | .sq n => n.toNat

/-- Whether a destination is a store queue. -/
def VDst.isSq : VDst → Bool
  | .reg _ => false
  | .sq _ => true

/-- imm7 of an index source (R196). -/
def IndexSrc.imm7 : IndexSrc → Nat
  | .imm n => n.toNat
  | .xq => 64

/-- vb of a slice index (R214). -/
def SliceIdx.field : SliceIdx → Nat
  | .imm n => n.toNat
  | .xq => 0

/-- imm7 of a slice index (R214). -/
def SliceIdx.imm7 : SliceIdx → Nat
  | .imm _ => 0
  | .xq => 1

/-- vd of a reduction (R209). -/
def RedDst.field : RedDst → Nat
  | .reg n | .regCq n => n.toNat
  | .cq => 0

/-- imm7 of a reduction (R209). -/
def RedDst.imm7 : RedDst → Nat
  | .reg _ => 0
  | .regCq _ => 1
  | .cq => 2

/-- The fields of an instruction of one source and one destination. -/
def fieldsDA (opc : Nat) (d : VDst) (a : VSrc) (m : BitVec 6) (t : Nat) (imm : Nat) : VFields :=
  { opc, vd := d.field, va := a.field, mask := m.toNat, ty := t, qa := a.isLq, peek := a.isPeek, qd := d.isSq, imm }

/-- The fields of an instruction of two sources and one destination. -/
def fieldsDAB (opc : Nat) (d : VDst) (a b : VSrc) (c : Nat) (m : BitVec 6) (t : Nat) (imm : Nat) : VFields :=
  { opc, vd := d.field, va := a.field, vb := b.field, vc := c, mask := m.toNat, ty := t, qa := a.isLq, qb := b.isLq,
    peek := a.isPeek || b.isPeek, qd := d.isSq, imm }

/-- The fields of a shift (R181). -/
def fieldsShift (opc : Nat) (d : VDst) (a : VSrc) (n : ShiftCount) (m : BitVec 6) (t : Nat) : VFields :=
  match n with
  | .imm k => fieldsDA opc d a m t (64 + k.toNat)
  | .src b => fieldsDAB opc d a b 0 m t 0

/-- The fields of an instruction that writes a vector register from two sources. -/
def fieldsRAB (opc : Nat) (d : Nat) (a b : VSrc) (m : BitVec 6) (t : Nat) (imm : Nat) : VFields :=
  { opc, vd := d, va := a.field, vb := b.field, mask := m.toNat, ty := t, qa := a.isLq, qb := b.isLq,
    peek := a.isPeek || b.isPeek, imm }

/-- The fields of an instruction that writes a register from one source. -/
def fieldsRA (opc : Nat) (d : Nat) (a : VSrc) (m : BitVec 6) (t : Nat) (imm : Nat) : VFields :=
  { opc, vd := d, va := a.field, mask := m.toNat, ty := t, qa := a.isLq, peek := a.isPeek, imm }

/-- The V64 fields of a vector instruction (R90, R177 to R216). -/
def encodeV : Instr → Option VFields
  | .vadd d a b m t => some (fieldsDAB 0x000 d a b 0 m t.code 0)
  | .vsub d a b m t => some (fieldsDAB 0x001 d a b 0 m t.code 0)
  | .vmul d a b m t => some (fieldsDAB 0x002 d a b 0 m t.code 0)
  | .vfma d a b c m t => some (fieldsDAB 0x003 d a b c.toNat m t.code 0)
  | .vfms d a b c m t => some (fieldsDAB 0x004 d a b c.toNat m t.code 0)
  | .vfnma d a b c m t => some (fieldsDAB 0x005 d a b c.toNat m t.code 0)
  | .vneg d a m t => some (fieldsDA 0x006 d a m t.code 0)
  | .vabs d a m t => some (fieldsDA 0x007 d a m t.code 0)
  | .vmin d a b m t => some (fieldsDAB 0x008 d a b 0 m t.code 0)
  | .vmax d a b m t => some (fieldsDAB 0x009 d a b 0 m t.code 0)
  | .vadds d a b m t => some (fieldsDAB 0x00A d a b 0 m t.code 0)
  | .vsubs d a b m t => some (fieldsDAB 0x00B d a b 0 m t.code 0)
  | .vmulh d a b m t => some (fieldsDAB 0x00C d a b 0 m t.code 0)
  | .vavg d a b m t => some (fieldsDAB 0x00D d a b 0 m t.code 0)
  | .vshl d a n m t => some (fieldsShift 0x00E d a n m t.code)
  | .vshr d a n m t => some (fieldsShift 0x00F d a n m t.code)
  | .vsar d a n m t => some (fieldsShift 0x010 d a n m t.code)
  | .vand d a b m t => some (fieldsDAB 0x011 d a b 0 m t.code 0)
  | .vor d a b m t => some (fieldsDAB 0x012 d a b 0 m t.code 0)
  | .vxor d a b m t => some (fieldsDAB 0x013 d a b 0 m t.code 0)
  | .vandn d a b m t => some (fieldsDAB 0x014 d a b 0 m t.code 0)
  | .vnot d a m t => some (fieldsDA 0x015 d a m t.code 0)
  | .vclz d a m t => some (fieldsDA 0x016 d a m t.code 0)
  | .vpopc d a m t => some (fieldsDA 0x017 d a m t.code 0)
  | .vwadd d a b m t q => some (fieldsRAB 0x020 d.toNat a b m t.code q.toNat)
  | .vwmul d a b m t q => some (fieldsRAB 0x021 d.toNat a b m t.code q.toNat)
  | .vwfma d a b m t q => some (fieldsRAB 0x022 d.toNat a b m t.code q.toNat)
  | .vcmp d a b m t p => some (fieldsRAB 0x030 d.toNat a b m t.code p.code)
  | .vclass d a m t cls => some (fieldsRA 0x031 d.toNat a m t.code cls.toNat)
  | .mand d a b => some { opc := 0x032, vd := d.toNat, va := a.toNat, vb := b.toNat }
  | .mor d a b => some { opc := 0x033, vd := d.toNat, va := a.toNat, vb := b.toNat }
  | .mxor d a b => some { opc := 0x034, vd := d.toNat, va := a.toNat, vb := b.toNat }
  | .mandn d a b => some { opc := 0x035, vd := d.toNat, va := a.toNat, vb := b.toNat }
  | .mnot d a => some { opc := 0x036, vd := d.toNat, va := a.toNat }
  | .mset d mode => some { opc := 0x037, vd := d.toNat, imm := match mode with | .zero => 0 | .ones => 1 | .xq => 2 }
  | .mpop a t => some { opc := 0x038, va := a.toNat, ty := t.code }
  | .mfirst a t => some { opc := 0x039, va := a.toNat, ty := t.code }
  | .mmov d a => some { opc := 0x03A, vd := d.toNat, va := a.toNat }
  | .vcvt d a m t s sat => some (fieldsDA 0x040 d a m t.code (s.code + 32 * sat.toNat))
  | .vcvts d a m t s => some (fieldsDA 0x041 d a m t.code s.code)
  | .vscale d a b m t => some (fieldsDAB 0x042 d a b 0 m t.code 0)
  | .vmov d a m t => some (fieldsDA 0x050 d a m t.code 0)
  | .vsel d a b sel m t => some (fieldsDAB 0x051 d a b sel.toNat m t.code 0)
  | .vbcast d a j m t => some (fieldsDA 0x052 d a m t.code j.imm7)
  | .vsplat d m t => some { opc := 0x053, vd := d.field, qd := d.isSq, mask := m.toNat, ty := t.code }
  | .vextr a j t => some { opc := 0x054, va := a.field, qa := a.isLq, peek := a.isPeek, ty := t.code, imm := j.imm7 }
  | .vins d j m t => some { opc := 0x055, vd := d.toNat, mask := m.toNat, ty := t.code, imm := j.imm7 }
  | .vldi d i m t => some { opc := 0x056, vd := d.field, qd := d.isSq, mask := m.toNat, ty := t.code, imm := i.toNat }
  | .vperm d a b m t => some (fieldsDAB 0x060 d a b 0 m t.code 0)
  | .vperme d a b c m t => some (fieldsDAB 0x061 d a b c.toNat m t.code 0)
  | .vslup d a b c m t => some (fieldsDAB 0x062 d a b 0 m t.code c.imm7)
  | .vsldn d a b c m t => some (fieldsDAB 0x063 d a b 0 m t.code c.imm7)
  | .vrev d a m t => some (fieldsDA 0x064 d a m t.code 0)
  | .vcompr d a sel t cq => some (fieldsDA 0x065 d a sel t.code cq.toNat)
  | .vexpnd d a m t => some (fieldsRA 0x066 d.toNat a m t.code 0)
  | .vzip2 d a t => some { opc := 0x070, vd := d.toNat, va := a.toNat, ty := t.code }
  | .vzip3 d a t => some { opc := 0x071, vd := d.toNat, va := a.toNat, ty := t.code }
  | .vzip4 d a t => some { opc := 0x072, vd := d.toNat, va := a.toNat, ty := t.code }
  | .vunzip2 d a t => some { opc := 0x073, vd := d.toNat, va := a.toNat, ty := t.code }
  | .vunzip3 d a t => some { opc := 0x074, vd := d.toNat, va := a.toNat, ty := t.code }
  | .vunzip4 d a t => some { opc := 0x075, vd := d.toNat, va := a.toNat, ty := t.code }
  | .vunpk4 d a m t mode => some (fieldsDA 0x078 d a m t.code mode.toNat)
  | .vpack4 d a b m t inter sat => some (fieldsDAB 0x079 d a b 0 m t.code (inter.toNat + 2 * sat.toNat))
  | .vrsum d a m t => some (fieldsRA 0x080 d.field a m t.code d.imm7)
  | .vrmax d a m t => some (fieldsRA 0x081 d.field a m t.code d.imm7)
  | .vrmin d a m t => some (fieldsRA 0x082 d.field a m t.code d.imm7)
  | .vramax d a m t => some (fieldsRA 0x083 d.field a m t.code d.imm7)
  | .vexp2 d a m => some (fieldsDA 0x090 d a m 14 0)
  | .vlog2 d a m => some (fieldsDA 0x091 d a m 14 0)
  | .vrcp d a m => some (fieldsDA 0x092 d a m 14 0)
  | .vrsq d a m => some (fieldsDA 0x093 d a m 14 0)
  | .vsqrt d a m => some (fieldsDA 0x094 d a m 14 0)
  | .vtanh d a m => some (fieldsDA 0x095 d a m 14 0)
  | .vsigm d a m => some (fieldsDA 0x096 d a m 14 0)
  | .vexpm d a m => some (fieldsDA 0x097 d a m 14 0)
  | .vsetmode src => some { opc := 0x0A0, imm := match src with | .imm rm s => rm.code + 8 * s.toNat | .xq => 64 }
  | .vdisc q n => some { opc := 0x0C0, va := q.toNat, qa := true, imm := n.toNat }
  | .vtrd d t s m => some { opc := 0x0B0, vd := d.toNat, vb := s.field, vc := t.toNat, mask := m.toNat, imm := s.imm7 }
  | .vtcd d t s m => some { opc := 0x0B1, vd := d.toNat, vb := s.field, vc := t.toNat, mask := m.toNat, imm := s.imm7 }
  | .vtwr t a s m => some { opc := 0x0B2, va := a.toNat, vb := s.field, vc := t.toNat, mask := m.toNat, imm := s.imm7 }
  | .vtwc t a s m => some { opc := 0x0B3, va := a.toNat, vb := s.field, vc := t.toNat, mask := m.toNat, imm := s.imm7 }
  | .tcfg t => some { opc := 0x0B4, vc := t.toNat }
  | .tzero t => some { opc := 0x0B5, vc := t.toNat }
  | .trel t => some { opc := 0x0B6, vc := t.toNat }
  | _ => none

/-- The tag and the word of a sequencer instruction (R86, R87). -/
def encodeS : Instr → Option (Nat × Nat)
  | .add d a b => some (1, packS 0x00 d.toNat a.toNat b.toNat 0x00)
  | .sub d a b => some (1, packS 0x00 d.toNat a.toNat b.toNat 0x01)
  | .mul d a b => some (1, packS 0x00 d.toNat a.toNat b.toNat 0x02)
  | .mulh d a b => some (1, packS 0x00 d.toNat a.toNat b.toNat 0x03)
  | .mulhz d a b => some (1, packS 0x00 d.toNat a.toNat b.toNat 0x04)
  | .div d a b => some (1, packS 0x00 d.toNat a.toNat b.toNat 0x05)
  | .divz d a b => some (1, packS 0x00 d.toNat a.toNat b.toNat 0x06)
  | .rem d a b => some (1, packS 0x00 d.toNat a.toNat b.toNat 0x07)
  | .remz d a b => some (1, packS 0x00 d.toNat a.toNat b.toNat 0x08)
  | .and d a b => some (1, packS 0x00 d.toNat a.toNat b.toNat 0x09)
  | .or d a b => some (1, packS 0x00 d.toNat a.toNat b.toNat 0x0A)
  | .xor d a b => some (1, packS 0x00 d.toNat a.toNat b.toNat 0x0B)
  | .andn d a b => some (1, packS 0x00 d.toNat a.toNat b.toNat 0x0C)
  | .shl d a b => some (1, packS 0x00 d.toNat a.toNat b.toNat 0x0D)
  | .shr d a b => some (1, packS 0x00 d.toNat a.toNat b.toNat 0x0E)
  | .sar d a b => some (1, packS 0x00 d.toNat a.toNat b.toNat 0x0F)
  | .min d a b => some (1, packS 0x00 d.toNat a.toNat b.toNat 0x10)
  | .max d a b => some (1, packS 0x00 d.toNat a.toNat b.toNat 0x11)
  | .minz d a b => some (1, packS 0x00 d.toNat a.toNat b.toNat 0x12)
  | .maxz d a b => some (1, packS 0x00 d.toNat a.toNat b.toNat 0x13)
  | .clz d a => some (1, packS 0x01 d.toNat a.toNat 0 0)
  | .ctz d a => some (1, packS 0x01 d.toNat a.toNat 0 1)
  | .popc d a => some (1, packS 0x01 d.toNat a.toNat 0 2)
  | .sext d a w => some (1, packS 0x01 d.toNat a.toNat w.code 3)
  | .zext d a w => some (1, packS 0x01 d.toNat a.toNat w.code 4)
  | .mov d a => some (1, packS 0x01 d.toNat a.toNat 0 5)
  | .cmp p d a b => some (1, packS 0x02 d.toNat a.toNat b.toNat p.code)
  | .cmpi p d a i => some (1, packSI (0x28 + p.code) d.toNat a.toNat i.toNat)
  | .cand d a b => some (1, packS 0x03 d.toNat a.toNat b.toNat 0)
  | .cor d a b => some (1, packS 0x03 d.toNat a.toNat b.toNat 1)
  | .cnot d a => some (1, packS 0x03 d.toNat a.toNat 0 2)
  | .addi d a i => some (1, packSI 0x20 d.toNat a.toNat i.toNat)
  | .andi d a i => some (1, packSI 0x21 d.toNat a.toNat i.toNat)
  | .ori d a i => some (1, packSI 0x22 d.toNat a.toNat i.toNat)
  | .xori d a i => some (1, packSI 0x23 d.toNat a.toNat i.toNat)
  | .shli d a n => some (1, packSI 0x24 d.toNat a.toNat n.toNat)
  | .shri d a n => some (1, packSI 0x25 d.toNat a.toNat n.toNat)
  | .sari d a n => some (1, packSI 0x26 d.toNat a.toNat n.toNat)
  | .liw d i => some (2, packS 0x00 d.toNat 0 0 0 + 2 ^ 32 * i.toNat)
  | .lih d i => some (2, packS 0x01 d.toNat 0 0 0 + 2 ^ 32 * i.toNat)
  | .loopr d rot disp => some (2, packS 0x02 d.toNat 0 0 rot.toNat + 2 ^ 32 * disp.toNat)
  | .br disp => some (1, packSB 0x40 0 0 disp.toNat)
  | .brc c inv disp => some (1, packSB 0x41 c.toNat inv.toNat disp.toNat)
  | .call disp => some (1, packSB 0x42 0 0 disp.toNat)
  | .brx a => some (1, packS 0x18 0 a.toNat 0 0)
  | .ret a => some (1, packS 0x19 0 a.toNat 0 0)
  | .send q a => some (1, packS 0x08 0 a.toNat 0 (match q with | .xq => 0 | .aq => 1 | .ssq => 2))
  | .recv d q => some (1, packS 0x09 d.toNat 0 0 (match q with | .cq => 0 | .rq => 1))
  | .push e x y => some (1, packS 0x0A y.toNat x.toNat e.num 0)
  | .pop x e y => some (1, packS 0x0B x.toNat e.num y.toNat 0)
  | .shadow n => some (1, packS 0x0C 0 0 0 n.toNat)
  | .resolve n k => some (1, match k with
      | .discard => packS 0x0D 0 0 0 n.toNat
      | .commit => packS 0x0D 0 0 0 (8 + n.toNat)
      | .cond y => packS 0x0D 0 0 y.toNat (16 + n.toNat))
  | .phase g => some (1, packS 0x0E 0 0 0 g.toNat)
  | .fence g => some (1, packS 0x0F 0 0 0 g.toNat)
  | .waitc a b => some (1, packS 0x10 0 a.toNat b.toNat 0)
  | .launch y q a => some (1, packS 0x11 y.toNat q.toNat a.toNat 0)
  | .halt => some (1, packS 0x12 0 0 0 0)
  | .yield => some (1, packS 0x13 0 0 0 0)
  | .time d f => some (1, packS 0x14 d.toNat 0 0 (match f with | .tcc => 0 | .dcc => 1 | .dt => 2))
  | .realign a b => some (1, packS 0x15 0 a.toNat b.toNat 0)
  | .tret => some (1, packS 0x16 0 0 0 0)
  | .nop => some (1, packS 0x17 0 0 0 0)
  | .sysr d n => some (1, packSI 0x2E d.toNat 0 n.code)
  | .sysw n a => some (1, packSI 0x2F 0 a.toNat n.code)
  | .trap code => some (1, packSI 0x30 0 0 code.toNat)
  | _ => none

/-- imm16 of LDV and STV (R88). -/
def vecMemImm (q : BitVec 3) (off : BitVec 13) : Nat := q.toNat * 2 ^ 13 + off.toNat

/-- imm16 of an atomic (R88, R229). -/
def amoImm (w8 z : Bool) : Nat := (2 + w8.toNat) * 2 ^ 14 + z.toNat * 2 ^ 13

/-- The tag and the word of an access-unit instruction (R88, R89). -/
def encodeA : Instr → Option (Nat × Nat)
  | .aadd d a b => some (3, packA 0x00 d.toNat a.toNat b.toNat)
  | .asub d a b => some (3, packA 0x01 d.toNat a.toNat b.toNat)
  | .amov d a => some (3, packA 0x02 d.toNat a.toNat 0)
  | .aget d => some (3, packA 0x03 d.toNat 0 0)
  | .aaddi d a i => some (3, packA 0x04 d.toNat a.toNat i.toNat)
  | .aaddiA64 d a i => some (4, packA 0x04 d.toNat a.toNat 0 + 2 ^ 32 * i.toNat)
  | .ashli d a n => some (3, packA 0x05 d.toNat a.toNat n.toNat)
  | .ldv u a q off => some (3, packA 0x08 u.toNat a.toNat (vecMemImm q off))
  | .stv u a q off => some (3, packA 0x09 u.toNat a.toNat (vecMemImm q off))
  | .lds a w sx off => some (3, packA 0x0A 0 a.toNat (w.code * 2 ^ 14 + sx.toNat * 2 ^ 13 + off.toNat))
  | .sts a w off => some (3, packA 0x0B 0 a.toNat (w.code * 2 ^ 14 + off.toNat))
  | .amoadd a w8 => some (3, packA 0x10 0 a.toNat (amoImm w8 false))
  | .amoxchg a w8 => some (3, packA 0x11 0 a.toNat (amoImm w8 false))
  | .amocas a w8 => some (3, packA 0x12 0 a.toNat (amoImm w8 false))
  | .amomin a w8 z => some (3, packA 0x13 0 a.toNat (amoImm w8 z))
  | .amomax a w8 z => some (3, packA 0x14 0 a.toNat (amoImm w8 z))
  | .amoand a w8 => some (3, packA 0x15 0 a.toNat (amoImm w8 false))
  | .amoor a w8 => some (3, packA 0x16 0 a.toNat (amoImm w8 false))
  | .sdef st a => some (3, packA 0x18 st.toNat a.toNat 0)
  | .sset st w a => some (3, packA 0x19 st.toNat a.toNat w.toNat)
  | .sgo st t => some (3, packA 0x1A st.toNat 0 t.toNat)
  | .sstop st => some (3, packA 0x1B st.toNat 0 0)
  | .sstat st => some (3, packA 0x1C st.toNat 0 0)
  | .pft a l => some (3, packA 0x20 0 a.toNat l.toNat)
  | .tlbsync => some (3, packA 0x21 0 0 0)
  | .frz a l g => some (3, packA 0x22 0 a.toNat (g.toNat * 2 ^ 5 + l.toNat))
  | .thw a l g => some (3, packA 0x23 0 a.toNat (g.toNat * 2 ^ 5 + l.toNat))
  | _ => none

/-- The tag and the word of a unit's instruction; engine commands and events have none. -/
def encode (i : Instr) : Option (Nat × Nat) :=
  match encodeS i with
  | some x => some x
  | none => match encodeA i with
    | some x => some x
    | none => (encodeV i).map fun f => (5, f.pack)

/-- The instruction that the fields of a word tagged 0x1 name, reserved bits aside (R86). -/
def rawS32 (w : Nat) : Option Instr :=
  let d6 : BitVec 6 := .ofNat 6 (bitsOf w 24 19)
  let a6 : BitVec 6 := .ofNat 6 (bitsOf w 18 13)
  let b6 : BitVec 6 := .ofNat 6 (bitsOf w 12 7)
  let d4 : BitVec 4 := .ofNat 4 (bitsOf w 24 19)
  let a4 : BitVec 4 := .ofNat 4 (bitsOf w 18 13)
  let b4 : BitVec 4 := .ofNat 4 (bitsOf w 12 7)
  let fn := bitsOf w 6 0
  let i13 : BitVec 13 := .ofNat 13 (bitsOf w 12 0)
  let n6 : BitVec 6 := .ofNat 6 (bitsOf w 12 0)
  let disp : BitVec 20 := .ofNat 20 (bitsOf w 19 0)
  match bitsOf w 31 25 with
  | 0x00 => match fn with
    | 0x00 => some (.add d6 a6 b6) | 0x01 => some (.sub d6 a6 b6) | 0x02 => some (.mul d6 a6 b6)
    | 0x03 => some (.mulh d6 a6 b6) | 0x04 => some (.mulhz d6 a6 b6) | 0x05 => some (.div d6 a6 b6)
    | 0x06 => some (.divz d6 a6 b6) | 0x07 => some (.rem d6 a6 b6) | 0x08 => some (.remz d6 a6 b6)
    | 0x09 => some (.and d6 a6 b6) | 0x0A => some (.or d6 a6 b6) | 0x0B => some (.xor d6 a6 b6)
    | 0x0C => some (.andn d6 a6 b6) | 0x0D => some (.shl d6 a6 b6) | 0x0E => some (.shr d6 a6 b6)
    | 0x0F => some (.sar d6 a6 b6) | 0x10 => some (.min d6 a6 b6) | 0x11 => some (.max d6 a6 b6)
    | 0x12 => some (.minz d6 a6 b6) | 0x13 => some (.maxz d6 a6 b6) | _ => none
  | 0x01 => match fn with
    | 0 => some (.clz d6 a6) | 1 => some (.ctz d6 a6) | 2 => some (.popc d6 a6)
    | 3 => (Width.ofCode (bitsOf w 12 7)).map fun k => .sext d6 a6 k
    | 4 => (Width.ofCode (bitsOf w 12 7)).map fun k => .zext d6 a6 k
    | 5 => some (.mov d6 a6) | _ => none
  | 0x02 => (Pred.ofCode fn).map fun p => .cmp p d4 a6 b6
  | 0x03 => match fn with
    | 0 => some (.cand d4 a4 b4) | 1 => some (.cor d4 a4 b4) | 2 => some (.cnot d4 a4) | _ => none
  | 0x08 => match fn with
    | 0 => some (.send .xq a6) | 1 => some (.send .aq a6) | 2 => some (.send .ssq a6) | _ => none
  | 0x09 => match fn with
    | 0 => some (.recv d6 .cq) | 1 => some (.recv d6 .rq) | _ => none
  | 0x0A => (Eng.ofNum (bitsOf w 12 7)).map fun e => .push e a6 d4
  | 0x0B => (Eng.ofNum (bitsOf w 18 13)).map fun e => .pop d6 e b4
  | 0x0C => some (.shadow (.ofNat 3 fn))
  | 0x0D => match bitsOf w 4 3 with
    | 0 => some (.resolve (.ofNat 3 fn) .discard) | 1 => some (.resolve (.ofNat 3 fn) .commit)
    | 2 => some (.resolve (.ofNat 3 fn) (.cond b4)) | _ => none
  | 0x0E => some (.phase (.ofNat 2 fn))
  | 0x0F => some (.fence (.ofNat 2 fn))
  | 0x10 => some (.waitc a6 b6)
  | 0x11 => some (.launch d4 a6 b6)
  | 0x12 => some .halt
  | 0x13 => some .yield
  | 0x14 => match fn with
    | 0 => some (.time d6 .tcc) | 1 => some (.time d6 .dcc) | 2 => some (.time d6 .dt) | _ => none
  | 0x15 => some (.realign a6 b6)
  | 0x16 => some .tret
  | 0x17 => some .nop
  | 0x18 => some (.brx a6)
  | 0x19 => some (.ret a6)
  | 0x20 => some (.addi d6 a6 i13) | 0x21 => some (.andi d6 a6 i13) | 0x22 => some (.ori d6 a6 i13)
  | 0x23 => some (.xori d6 a6 i13) | 0x24 => some (.shli d6 a6 n6) | 0x25 => some (.shri d6 a6 n6)
  | 0x26 => some (.sari d6 a6 n6)
  | 0x28 => some (.cmpi .eq d4 a6 i13) | 0x29 => some (.cmpi .ne d4 a6 i13) | 0x2A => some (.cmpi .lt d4 a6 i13)
  | 0x2B => some (.cmpi .ge d4 a6 i13) | 0x2C => some (.cmpi .ltz d4 a6 i13) | 0x2D => some (.cmpi .gez d4 a6 i13)
  | 0x2E => (SysReg.ofCode (bitsOf w 12 0)).map fun n => .sysr d6 n
  | 0x2F => (SysReg.ofCode (bitsOf w 12 0)).map fun n => .sysw n a6
  | 0x30 => some (.trap i13)
  | 0x40 => some (.br disp)
  | 0x41 => some (.brc (.ofNat 4 (bitsOf w 24 21)) (bitsOf w 20 20 == 1) disp)
  | 0x42 => some (.call disp)
  | _ => none

/-- The instruction that the fields of a word tagged 0x2 name (R87). -/
def rawS64 (w : Nat) : Option Instr :=
  let d6 : BitVec 6 := .ofNat 6 (bitsOf w 24 19)
  let imm : BitVec 32 := .ofNat 32 (bitsOf w 63 32)
  match bitsOf w 31 25 with
  | 0x00 => some (.liw d6 imm)
  | 0x01 => some (.lih d6 imm)
  | 0x02 => some (.loopr d6 (.ofNat 7 (bitsOf w 6 0)) imm)
  | _ => none

/-- The instruction that the fields of a word tagged 0x3 name (R88). -/
def rawA32 (w : Nat) : Option Instr :=
  let d5 : BitVec 5 := .ofNat 5 (bitsOf w 25 21)
  let a5 : BitVec 5 := .ofNat 5 (bitsOf w 20 16)
  let b5 : BitVec 5 := .ofNat 5 (bitsOf w 4 0)
  let st : BitVec 4 := .ofNat 4 (bitsOf w 25 21)
  let q : BitVec 3 := .ofNat 3 (bitsOf w 15 13)
  let off : BitVec 13 := .ofNat 13 (bitsOf w 12 0)
  let sx := bitsOf w 13 13 == 1
  let w8 := bitsOf w 14 14 == 1
  let g : BitVec 2 := .ofNat 2 (bitsOf w 6 5)
  match bitsOf w 31 26 with
  | 0x00 => some (.aadd d5 a5 b5)
  | 0x01 => some (.asub d5 a5 b5)
  | 0x02 => some (.amov d5 a5)
  | 0x03 => some (.aget d5)
  | 0x04 => some (.aaddi d5 a5 (.ofNat 16 (bitsOf w 15 0)))
  | 0x05 => some (.ashli d5 a5 (.ofNat 6 (bitsOf w 15 0)))
  | 0x08 => some (.ldv d5 a5 q off)
  | 0x09 => some (.stv d5 a5 q off)
  | 0x0A => (Width.ofCode (bitsOf w 15 14)).map fun k => .lds a5 k sx off
  | 0x0B => (Width.ofCode (bitsOf w 15 14)).map fun k => .sts a5 k off
  | 0x10 => some (.amoadd a5 w8)
  | 0x11 => some (.amoxchg a5 w8)
  | 0x12 => some (.amocas a5 w8)
  | 0x13 => some (.amomin a5 w8 sx)
  | 0x14 => some (.amomax a5 w8 sx)
  | 0x15 => some (.amoand a5 w8)
  | 0x16 => some (.amoor a5 w8)
  | 0x18 => some (.sdef st a5)
  | 0x19 => some (.sset st (.ofNat 3 (bitsOf w 15 0)) a5)
  | 0x1A => some (.sgo st b5)
  | 0x1B => some (.sstop st)
  | 0x1C => some (.sstat st)
  | 0x20 => some (.pft a5 (.ofNat 2 (bitsOf w 15 0)))
  | 0x21 => some .tlbsync
  | 0x22 => some (.frz a5 b5 g)
  | 0x23 => some (.thw a5 b5 g)
  | _ => none

/-- The instruction that the fields of a word tagged 0x4 name (R89). -/
def rawA64 (w : Nat) : Option Instr :=
  match bitsOf w 31 26 with
  | 0x04 => some (.aaddiA64 (.ofNat 5 (bitsOf w 25 21)) (.ofNat 5 (bitsOf w 20 16)) (.ofNat 32 (bitsOf w 63 32)))
  | _ => none

/-- The vector instructions at opcodes 0x000 to 0x042, whose type field names a type (R90). -/
def rawVArith (f : VFields) (t : ElemType) : Option Instr :=
  let d := f.dst
  let a := f.srcA
  let b := f.srcB
  let m : BitVec 6 := .ofNat 6 f.mask
  let c : BitVec 8 := .ofNat 8 f.vc
  let d8 : BitVec 8 := .ofNat 8 f.vd
  let q := f.imm % 2 == 1
  match f.opc with
  | 0x000 => some (.vadd d a b m t) | 0x001 => some (.vsub d a b m t) | 0x002 => some (.vmul d a b m t)
  | 0x003 => some (.vfma d a b c m t) | 0x004 => some (.vfms d a b c m t) | 0x005 => some (.vfnma d a b c m t)
  | 0x006 => some (.vneg d a m t) | 0x007 => some (.vabs d a m t)
  | 0x008 => some (.vmin d a b m t) | 0x009 => some (.vmax d a b m t)
  | 0x00A => some (.vadds d a b m t) | 0x00B => some (.vsubs d a b m t)
  | 0x00C => some (.vmulh d a b m t) | 0x00D => some (.vavg d a b m t)
  | 0x00E => some (.vshl d a f.shift m t) | 0x00F => some (.vshr d a f.shift m t) | 0x010 => some (.vsar d a f.shift m t)
  | 0x011 => some (.vand d a b m t) | 0x012 => some (.vor d a b m t) | 0x013 => some (.vxor d a b m t)
  | 0x014 => some (.vandn d a b m t) | 0x015 => some (.vnot d a m t)
  | 0x016 => some (.vclz d a m t) | 0x017 => some (.vpopc d a m t)
  | 0x020 => some (.vwadd d8 a b m t q) | 0x021 => some (.vwmul d8 a b m t q) | 0x022 => some (.vwfma d8 a b m t q)
  | 0x030 => (VPred.ofCode f.imm).map fun p => .vcmp (.ofNat 6 f.vd) a b m t p
  | 0x031 => some (.vclass (.ofNat 6 f.vd) a m t (.ofNat 7 f.imm))
  | 0x038 => some (.mpop (.ofNat 6 f.va) t)
  | 0x039 => some (.mfirst (.ofNat 6 f.va) t)
  | 0x040 => (ElemType.ofCode (f.imm % 32)).map fun s => .vcvt d a m t s (f.imm / 32 % 2 == 1)
  | 0x041 => (ElemType.ofCode (f.imm % 32)).map fun s => .vcvts d a m t s
  | 0x042 => some (.vscale d a b m t)
  | _ => none

/-- The vector instructions at opcodes 0x050 to 0x097 (R90). -/
def rawVMove (f : VFields) (t : ElemType) : Option Instr :=
  let d := f.dst
  let a := f.srcA
  let b := f.srcB
  let m : BitVec 6 := .ofNat 6 f.mask
  let c : BitVec 8 := .ofNat 8 f.vc
  let d8 : BitVec 8 := .ofNat 8 f.vd
  let a8 : BitVec 8 := .ofNat 8 f.va
  match f.opc with
  | 0x050 => some (.vmov d a m t)
  | 0x051 => some (.vsel d a b (.ofNat 6 f.vc) m t)
  | 0x052 => some (.vbcast d a f.index m t)
  | 0x053 => some (.vsplat d m t)
  | 0x054 => some (.vextr a f.index t)
  | 0x055 => some (.vins d8 f.index m t)
  | 0x056 => some (.vldi d (.ofNat 7 f.imm) m t)
  | 0x060 => some (.vperm d a b m t)
  | 0x061 => some (.vperme d a b c m t)
  | 0x062 => some (.vslup d a b f.index m t)
  | 0x063 => some (.vsldn d a b f.index m t)
  | 0x064 => some (.vrev d a m t)
  | 0x065 => some (.vcompr d a m t (f.imm % 2 == 1))
  | 0x066 => some (.vexpnd d8 a m t)
  | 0x070 => some (.vzip2 d8 a8 t) | 0x071 => some (.vzip3 d8 a8 t) | 0x072 => some (.vzip4 d8 a8 t)
  | 0x073 => some (.vunzip2 d8 a8 t) | 0x074 => some (.vunzip3 d8 a8 t) | 0x075 => some (.vunzip4 d8 a8 t)
  | 0x078 => some (.vunpk4 d a m t (.ofNat 2 f.imm))
  | 0x079 => some (.vpack4 d a b m t (f.imm % 2 == 1) (f.imm / 2 % 2 == 1))
  | 0x080 => f.red.map fun r => .vrsum r a m t
  | 0x081 => f.red.map fun r => .vrmax r a m t
  | 0x082 => f.red.map fun r => .vrmin r a m t
  | 0x083 => f.red.map fun r => .vramax r a m t
  | 0x090 => some (.vexp2 d a m) | 0x091 => some (.vlog2 d a m) | 0x092 => some (.vrcp d a m) | 0x093 => some (.vrsq d a m)
  | 0x094 => some (.vsqrt d a m) | 0x095 => some (.vtanh d a m) | 0x096 => some (.vsigm d a m) | 0x097 => some (.vexpm d a m)
  | _ => none

/-- The vector instructions whose type field is zero (R90). -/
def rawVPlain (f : VFields) : Option Instr :=
  let d6 : BitVec 6 := .ofNat 6 f.vd
  let a6 : BitVec 6 := .ofNat 6 f.va
  let b6 : BitVec 6 := .ofNat 6 f.vb
  let m : BitVec 6 := .ofNat 6 f.mask
  let tile : BitVec 6 := .ofNat 6 f.vc
  let d8 : BitVec 8 := .ofNat 8 f.vd
  let a8 : BitVec 8 := .ofNat 8 f.va
  match f.opc with
  | 0x032 => some (.mand d6 a6 b6) | 0x033 => some (.mor d6 a6 b6) | 0x034 => some (.mxor d6 a6 b6)
  | 0x035 => some (.mandn d6 a6 b6) | 0x036 => some (.mnot d6 a6)
  | 0x037 => match f.imm with
    | 0 => some (.mset d6 .zero) | 1 => some (.mset d6 .ones) | 2 => some (.mset d6 .xq) | _ => none
  | 0x03A => some (.mmov d6 a6)
  | 0x0A0 => if 64 ≤ f.imm then some (.vsetmode .xq)
    else (Rm.ofCode (f.imm % 8)).map fun rm => .vsetmode (.imm rm (f.imm / 8 % 2 == 1))
  | 0x0C0 => some (.vdisc (.ofNat 3 f.va) (.ofNat 3 f.imm))
  | 0x0B0 => some (.vtrd d8 tile f.slice m)
  | 0x0B1 => some (.vtcd d8 tile f.slice m)
  | 0x0B2 => some (.vtwr tile a8 f.slice m)
  | 0x0B3 => some (.vtwc tile a8 f.slice m)
  | 0x0B4 => some (.tcfg tile)
  | 0x0B5 => some (.tzero tile)
  | 0x0B6 => some (.trel tile)
  | _ => none

/-- The instruction that the fields of a V64 word name. -/
def rawV64 (w : Nat) : Option Instr :=
  let f := VFields.of w
  match rawVPlain f with
  | some i => some i
  | none => match ElemType.ofCode f.ty with
    | none => none
    | some t => match rawVArith f t with
      | some i => some i
      | none => rawVMove f t

/-- The instruction that the fields of a tagged word name, reserved bits aside. -/
def rawUnit : Nat → Nat → Option Instr
  | 1, w => rawS32 w
  | 2, w => rawS64 w
  | 3, w => rawA32 w
  | 4, w => rawA64 w
  | 5, w => rawV64 w
  | _, _ => none

/-- Decodes a tagged word; none is the illegal-instruction row of R94. -/
def decodeUnit (tag w : Nat) : Option Instr :=
  match rawUnit tag w with
  | none => none
  | some i => if i.wf && (encode i == some (tag, w)) then some i else none

/-- Whether an S32 word is a line ender (R70). -/
def lineEnderS32 (w : Nat) : Bool :=
  [0x12, 0x13, 0x16, 0x18, 0x19, 0x30, 0x40, 0x41, 0x42].contains (bitsOf w 31 25)

/-! ### Engine commands -/

/-- Word 0 of a command (R91): opcode, the shared fields and the FLAGS above RES. -/
def CmdHdr.word0 (h : CmdHdr) (opc flags : Nat) : Nat :=
  opc * 2 ^ 56 + h.start.toNat * 2 ^ 36 + h.shadow.toNat * 2 ^ 32 + h.btag.toNat * 2 ^ 24 + flags + h.res.toNat

/-- The eight words of a command from word 0, words 1 to 6 and DONE. -/
def CmdHdr.words (h : CmdHdr) (opc flags : Nat) (w1 w2 w3 w4 w5 w6 : Nat) : List Nat :=
  [h.word0 opc flags, w1, w2, w3, w4, w5, w6, h.done.toNat]

/-- Words 1 to 6 of a CP command (R274). -/
def CpArgs.words (x : CpArgs) (h : CmdHdr) (opc : Nat) : List Nat :=
  h.words opc (2 * x.shost.toNat + 4 * x.dhost.toNat) x.src.toNat x.dst.toNat
    (x.lenM1.toNat + x.rowsM1.toNat * 2 ^ 32) (x.sstride.toNat + x.dstride.toNat * 2 ^ 32) x.opx.toNat x.seq.toNat

/-- Word 1 of MMS and MMSA (R251). -/
def MmsArgs.word1 (x : MmsArgs) : Nat :=
  x.tile.toNat + x.astr.toNat * 2 ^ 8 + x.row0.toNat * 2 ^ 16 + x.col0.toNat * 2 ^ 24 + x.mM1.toNat * 2 ^ 32

/-- LAYOUT in FLAGS bits 23:21 (R352). -/
def layoutFlags (l : BitVec 3) : Nat := l.toNat * 2 ^ 21

/-- The engine and the eight words of a command (R251, R274, R352, R380, R394, R409). -/
def encodeCmd : Instr → Option (Eng × List Nat)
  | .mlw h st nc p8 => some (.mx, h.words 1 0 (st.toNat + nc.toNat * 2 ^ 8 + p8.toNat * 2 ^ 16) 0 0 0 0 0)
  | .mswap h => some (.mx, h.words 2 0 0 0 0 0 0 0)
  | .mms h x => some (.mx, h.words 3 0 x.word1 0 0 0 0 0)
  | .mmsa h x => some (.mx, h.words 4 0 x.word1 0 0 0 0 0)
  | .mzt h t => some (.mx, h.words 5 0 t.toNat 0 0 0 0 0)
  | .mmode h rm s i => some (.mx, h.words 6 0 (rm.code + 8 * s.toNat + 16 * i.toNat) 0 0 0 0 0)
  | .mtcfg h t c => some (.mx, h.words 7 0 t.toNat c.toNat 0 0 0 0)
  | .mstore h t conv ad st =>
    some (.mx, h.words 8 0 (t.toNat + (match conv with | none => 0 | some ty => ty.code * 2 ^ 8 + 2 ^ 13))
      ad.toNat st.toNat 0 0 0)
  | .mloadt h t ad st => some (.mx, h.words 9 0 t.toNat ad.toNat st.toNat 0 0 0)
  | .cpy h x => some (.cp, x.words h 1)
  | .cpyc h x => some (.cp, x.words h 2)
  | .fill h x => some (.cp, x.words h 3)
  | .cpyf h x => some (.cp, x.words h 4)
  | .kvxl h l mode seq slot layer =>
    some (.kv, h.words 1 (layoutFlags l + (match mode with | .look => 0 | .attach => 2 | .detach => 4)) seq.toNat
      (slot.toNat + layer.toNat * 2 ^ 32) 0 0 0 0)
  | .kvapp h l x =>
    some (.kv, h.words 2 (layoutFlags l + 2 * x.inplace.toNat) x.seq.toNat
      (x.layer.toNat + x.nM1.toNat * 2 ^ 8 + x.off.toNat * 2 ^ 16) x.ksrc.toNat x.vsrc.toNat 0 0)
  | .kvatt h l x =>
    some (.kv, h.words 3 (layoutFlags l + 2 * x.tree.toNat + 4 * x.causal.toNat + 8 * x.score.toNat) x.seq.toNat
      x.qaddr.toNat x.oaddr.toNat
      (x.layer.toNat + x.head.toNat * 2 ^ 8 + x.gM1.toNat * 2 ^ 12 + x.rM1.toNat * 2 ^ 16 + x.ext.toNat * 2 ^ 32)
      x.scale.toNat x.mask.toNat)
  | .kvmask h p n out => some (.kv, h.words 4 0 p.toNat n.toNat out.toNat 0 0 0)
  | .kvckpt h l seq => some (.kv, h.words 5 (layoutFlags l) seq.toNat 0 0 0 0 0)
  | .kvcmt h l x =>
    some (.kv, h.words 6 (layoutFlags l) x.seq.toNat (x.ckver.toNat + x.k.toNat * 2 ^ 32) x.adv.toNat x.path.toNat
      x.parents.toNat 0)
  | .kvsq h l all seq nm => some (.kv, h.words 7 (layoutFlags l + 2 * all.toNat) seq.toNat nm.toNat 0 0 0 0)
  | .kvscore h l seq first n src =>
    some (.kv, h.words 8 (layoutFlags l) seq.toNat (first.toNat + n.toNat * 2 ^ 32) src.toNat 0 0 0)
  | .kvtopk h l seq lo hi k out =>
    some (.kv, h.words 9 (layoutFlags l) seq.toNat (lo.toNat + hi.toNat * 2 ^ 32) k.toNat out.toNat 0 0)
  | .kvcompact h l seq n list => some (.kv, h.words 10 (layoutFlags l) seq.toNat n.toNat list.toNat 0 0 0)
  | .xsend h src die ch len =>
    some (.xg, h.words 1 0 src.toNat (die.toNat + ch.toNat * 2 ^ 8) len.toNat 0 0 0)
  | .xgrant h die ch n => some (.xg, h.words 2 0 (die.toNat + ch.toNat * 2 ^ 8 + n.toNat * 2 ^ 16) 0 0 0 0 0)
  | .xgrantRevoke h die ch n => some (.xg, h.words 2 2 (die.toNat + ch.toNat * 2 ^ 8 + n.toNat * 2 ^ 16) 0 0 0 0 0)
  | .xrecv h dst die ch add => some (.xg, h.words 3 (2 * add.toNat) dst.toNat (die.toNat + ch.toNat * 2 ^ 8) 0 0 0 0)
  | .spseed h k key => some (.sp, h.words 1 0 k.toNat key.toNat 0 0 0 0)
  | .spsoft h x =>
    some (.sp, h.words 2 0 x.src.toNat x.dst.toNat
      (x.vM1.toNat + x.rowsM1.toNat * 2 ^ 24 + (if x.bf16 then 12 else 14) * 2 ^ 32) x.invt.toNat 0 0)
  | .spdraw h src v k c => some (.sp, h.words 3 0 src.toNat (v.toNat + k.toNat * 2 ^ 32) c.toNat 0 0 0)
  | .spacc h x =>
    some (.sp, h.words 4 0 x.tree.toNat x.prows.toNat x.qrows.toNat x.out.toNat x.counter.toNat
      (x.keyix.toNat + x.nM1.toNat * 2 ^ 8 + x.vM1.toNat * 2 ^ 32))
  | .wreg h wid base len => some (.wn, h.words 1 0 wid.toNat base.toNat len.toNat 0 0 0)
  | .wput h src wid off len => some (.wn, h.words 2 0 src.toNat wid.toNat off.toNat len.toNat 0 0)
  | .wcnt h wait wid e target => some (.wn, h.words 3 (2 * wait.toNat) (wid.toNat + e.toNat * 2 ^ 8) target.toNat 0 0 0 0)
  | _ => none

/-- Word `k` of a command. -/
def cmdWord (ws : List Nat) (k : Nat) : Nat := ws.getD k 0

/-- The shared fields of a command (R91). -/
def CmdHdr.of (ws : List Nat) : CmdHdr :=
  let w := cmdWord ws 0
  ⟨.ofNat 20 (bitsOf w 55 36), .ofNat 4 (bitsOf w 35 32), .ofNat 8 (bitsOf w 31 24), bitsOf w 0 0 == 1,
    .ofNat 64 (cmdWord ws 7)⟩

/-- Words 1 to 6 of a CP command (R274). -/
def CpArgs.of (ws : List Nat) : CpArgs :=
  ⟨bitsOf (cmdWord ws 0) 2 2 == 1, bitsOf (cmdWord ws 0) 1 1 == 1, .ofNat 64 (cmdWord ws 1), .ofNat 64 (cmdWord ws 2),
    .ofNat 16 (bitsOf (cmdWord ws 3) 47 32), .ofNat 32 (bitsOf (cmdWord ws 3) 31 0),
    .ofNat 32 (bitsOf (cmdWord ws 4) 63 32), .ofNat 32 (bitsOf (cmdWord ws 4) 31 0), .ofNat 64 (cmdWord ws 5),
    .ofNat 32 (bitsOf (cmdWord ws 6) 31 0)⟩

/-- Word 1 of MMS and MMSA (R251). -/
def MmsArgs.of (w : Nat) : MmsArgs :=
  ⟨.ofNat 6 (bitsOf w 5 0), .ofNat 4 (bitsOf w 11 8), .ofNat 8 (bitsOf w 23 16), .ofNat 8 (bitsOf w 31 24),
    .ofNat 8 (bitsOf w 39 32)⟩

/-- The command that the fields of eight words name, fields that must be zero aside. -/
def rawCmd (e : Eng) (ws : List Nat) : Option Instr :=
  let h := CmdHdr.of ws
  let w0 := cmdWord ws 0
  let w1 := cmdWord ws 1
  let w2 := cmdWord ws 2
  let w3 := cmdWord ws 3
  let w4 := cmdWord ws 4
  let w5 := cmdWord ws 5
  let w6 := cmdWord ws 6
  let tile : BitVec 6 := .ofNat 6 (bitsOf w1 5 0)
  let l : BitVec 3 := .ofNat 3 (bitsOf w0 23 21)
  let q (w : Nat) : W64 := .ofNat 64 w
  let lo32 (w : Nat) : BitVec 32 := .ofNat 32 (bitsOf w 31 0)
  let hi32 (w : Nat) : BitVec 32 := .ofNat 32 (bitsOf w 63 32)
  match e, bitsOf w0 63 56 with
  | .mx, 1 => some (.mlw h (.ofNat 4 (bitsOf w1 3 0)) (.ofNat 8 (bitsOf w1 15 8)) (bitsOf w1 16 16 == 1))
  | .mx, 2 => some (.mswap h)
  | .mx, 3 => some (.mms h (MmsArgs.of w1))
  | .mx, 4 => some (.mmsa h (MmsArgs.of w1))
  | .mx, 5 => some (.mzt h tile)
  | .mx, 6 => (Rm.ofCode (bitsOf w1 2 0)).map fun rm => .mmode h rm (bitsOf w1 3 3 == 1) (bitsOf w1 4 4 == 1)
  | .mx, 7 => some (.mtcfg h tile (q w2))
  | .mx, 8 =>
    if bitsOf w1 13 13 = 1 then
      (ElemType.ofCode (bitsOf w1 12 8)).map fun t => .mstore h tile (some t) (.ofNat 48 (bitsOf w2 47 0)) (lo32 w3)
    else some (.mstore h tile none (.ofNat 48 (bitsOf w2 47 0)) (lo32 w3))
  | .mx, 9 => some (.mloadt h tile (.ofNat 48 (bitsOf w2 47 0)) (lo32 w3))
  | .cp, 1 => some (.cpy h (CpArgs.of ws))
  | .cp, 2 => some (.cpyc h (CpArgs.of ws))
  | .cp, 3 => some (.fill h (CpArgs.of ws))
  | .cp, 4 => some (.cpyf h (CpArgs.of ws))
  | .kv, 1 => match bitsOf w0 2 1 with
    | 0 => some (.kvxl h l .look (q w1) (lo32 w2) (.ofNat 8 (bitsOf w2 39 32)))
    | 1 => some (.kvxl h l .attach (q w1) (lo32 w2) (.ofNat 8 (bitsOf w2 39 32)))
    | 2 => some (.kvxl h l .detach (q w1) (lo32 w2) (.ofNat 8 (bitsOf w2 39 32)))
    | _ => none
  | .kv, 2 => some (.kvapp h l ⟨bitsOf w0 1 1 == 1, q w1, .ofNat 8 (bitsOf w2 7 0), .ofNat 4 (bitsOf w2 11 8),
      .ofNat 16 (bitsOf w2 31 16), q w3, q w4⟩)
  | .kv, 3 => some (.kvatt h l ⟨bitsOf w0 1 1 == 1, bitsOf w0 2 2 == 1, bitsOf w0 3 3 == 1, q w1, q w2, q w3,
      .ofNat 8 (bitsOf w4 7 0), .ofNat 4 (bitsOf w4 11 8), .ofNat 4 (bitsOf w4 15 12), .ofNat 6 (bitsOf w4 21 16),
      .ofNat 16 (bitsOf w4 47 32), lo32 w5, q w6⟩)
  | .kv, 4 => some (.kvmask h (q w1) (.ofNat 6 (bitsOf w2 5 0)) (q w3))
  | .kv, 5 => some (.kvckpt h l (q w1))
  | .kv, 6 => some (.kvcmt h l ⟨q w1, lo32 w2, .ofNat 4 (bitsOf w2 35 32), lo32 w3, q w4, q w5⟩)
  | .kv, 7 => some (.kvsq h l (bitsOf w0 1 1 == 1) (q w1) (q w2))
  | .kv, 8 => some (.kvscore h l (q w1) (lo32 w2) (.ofNat 16 (bitsOf w2 47 32)) (q w3))
  | .kv, 9 => some (.kvtopk h l (q w1) (lo32 w2) (hi32 w2) (lo32 w3) (q w4))
  | .kv, 10 => some (.kvcompact h l (q w1) (lo32 w2) (q w3))
  | .xg, 1 => some (.xsend h (q w1) (.ofNat 4 (bitsOf w2 3 0)) (.ofNat 4 (bitsOf w2 11 8)) (.ofNat 18 (bitsOf w3 17 0)))
  | .xg, 2 =>
    if bitsOf w0 1 1 = 1 then
      some (.xgrantRevoke h (.ofNat 4 (bitsOf w1 3 0)) (.ofNat 4 (bitsOf w1 11 8)) (.ofNat 16 (bitsOf w1 31 16)))
    else some (.xgrant h (.ofNat 4 (bitsOf w1 3 0)) (.ofNat 4 (bitsOf w1 11 8)) (.ofNat 16 (bitsOf w1 31 16)))
  | .xg, 3 => some (.xrecv h (q w1) (.ofNat 4 (bitsOf w2 3 0)) (.ofNat 4 (bitsOf w2 11 8)) (bitsOf w0 1 1 == 1))
  | .sp, 1 => some (.spseed h (.ofNat 8 (bitsOf w1 7 0)) (q w2))
  | .sp, 2 => some (.spsoft h ⟨q w1, q w2, .ofNat 17 (bitsOf w3 16 0), .ofNat 6 (bitsOf w3 29 24),
      bitsOf w3 36 32 == 12, lo32 w4⟩)
  | .sp, 3 => some (.spdraw h (q w1) (.ofNat 17 (bitsOf w2 16 0)) (.ofNat 8 (bitsOf w2 39 32)) (q w3))
  | .sp, 4 => some (.spacc h ⟨q w1, q w2, q w3, q w4, q w5, .ofNat 8 (bitsOf w6 7 0), .ofNat 6 (bitsOf w6 13 8),
      .ofNat 17 (bitsOf w6 48 32)⟩)
  | .wn, 1 => some (.wreg h (.ofNat 6 (bitsOf w1 5 0)) (q w2) (lo32 w3))
  | .wn, 2 => some (.wput h (q w1) (.ofNat 6 (bitsOf w2 5 0)) (lo32 w3) (.ofNat 24 (bitsOf w4 23 0)))
  | .wn, 3 => some (.wcnt h (bitsOf w0 1 1 == 1) (.ofNat 6 (bitsOf w1 5 0)) (bitsOf w1 8 8 == 1) (q w2))
  | _, _ => none

/-- Decodes a command; none is a malformed command (R93 row 4) as far as its own bytes tell. -/
def decodeCmd (e : Eng) (ws : List Nat) : Option Instr :=
  match rawCmd e ws with
  | none => none
  | some i => if i.wf && (encodeCmd i == some (e, ws)) then some i else none

/-- What row 3 of R93 looks at in a command: tiles, streams and a layout that it names, and a configuration word. -/
structure CmdNames where
  tile    : Option Nat
  stream  : Option Nat
  layout  : Option Nat
  cfg     : Option Nat
  deriving DecidableEq, Repr

/-- The resources that a command's bytes name, by its opcode alone (R93 row 3, R251, R352). -/
def cmdNames (e : Eng) (ws : List Nat) : CmdNames :=
  let w0 := cmdWord ws 0
  let w1 := cmdWord ws 1
  let tile := some (bitsOf w1 5 0)
  match e, bitsOf w0 63 56 with
  | .mx, 1 => ⟨none, some (bitsOf w1 3 0), none, none⟩
  | .mx, 3 | .mx, 4 => ⟨tile, some (bitsOf w1 11 8), none, none⟩
  | .mx, 5 | .mx, 8 | .mx, 9 => ⟨tile, none, none, none⟩
  | .mx, 7 => ⟨tile, none, none, some (cmdWord ws 2)⟩
  | .kv, 1 | .kv, 2 | .kv, 3 | .kv, 5 | .kv, 6 | .kv, 7 | .kv, 8 | .kv, 9 | .kv, 10 =>
    ⟨none, none, some (bitsOf w0 23 21), none⟩
  | _, _ => ⟨none, none, none, none⟩

/-- The mask of the opcode-table row of a 32-bit instruction: the bits that the row fixes (log entry 12). -/
def rowMask : Instr → Nat
  | .add .. | .sub .. | .mul .. | .mulh .. | .mulhz .. | .div .. | .divz .. | .rem .. | .remz ..
  | .and .. | .or .. | .xor .. | .andn .. | .shl .. | .shr .. | .sar .. | .min .. | .max .. | .minz ..
  | .maxz .. => 0xFE00007F
  | .clz .. | .ctz .. | .popc .. | .mov .. => 0xFE001FFF
  | .sext .. | .zext .. => 0xFE001E7F
  | .cmp .. => 0xFF800000
  | .cmpi .. => 0xF1800000
  | .cand .. | .cor .. => 0xFF86187F
  | .cnot .. => 0xFF861FFF
  | .addi .. | .andi .. | .ori .. | .xori .. | .shli .. | .shri .. | .sari .. | .brc .. => 0xFE000000
  | .br .. | .call .. => 0xFFF00000
  | .brx .. | .ret .. => 0xFFF81FFF
  | .send .. => 0xFFF81F80
  | .recv .. | .time .. => 0xFE07FF80
  | .push .. | .launch .. => 0xFF80007F
  | .pop .. => 0xFE00187F
  | .shadow .. => 0xFFFFFF80
  | .resolve .. => 0xFFFFF860
  | .phase .. | .fence .. => 0xFFFFFFFC
  | .waitc .. | .realign .. => 0xFFF8007F
  | .halt | .yield | .tret | .nop | .tlbsync => 0xFFFFFFFF
  | .sysr .. => 0xFE07E000
  | .sysw .. => 0xFFF80000
  | .trap .. => 0xFFFFE000
  | .aadd .. | .asub .. => 0xFC00FFE0
  | .amov .. => 0xFC00FFFF
  | .aget .. => 0xFC1FFFFF
  | .aaddi .. | .ldv .. | .stv .. => 0xFC000000
  | .ashli .. => 0xFC00FFC0
  | .lds .. => 0xFFE00000
  | .sts .. => 0xFFE02000
  | .amoadd .. | .amoxchg .. | .amocas .. | .amoand .. | .amoor .. => 0xFFE03FFF
  | .amomin .. | .amomax .. => 0xFFE01FFF
  | .sdef .. => 0xFE00FFFF
  | .sset .. => 0xFE00FFF8
  | .sgo .. => 0xFE1FFFE0
  | .sstop .. | .sstat .. => 0xFE1FFFFF
  | .pft .. => 0xFFE0FFFC
  | .frz .. | .thw .. => 0xFFE0FF80
  | _ => 0

/-- The number of ones among the low `n` bits. -/
def onesIn : Nat → Nat → Nat
  | 0, _ => 0
  | n + 1, x => x % 2 + onesIn n (x / 2)

/-- Whether the row of `i` explains a bare word better than the row of `j`: fewer operand bits set, then more bits fixed
(log entry 12). -/
def rowBetter (w : Nat) (i j : Instr) : Bool :=
  let oi := onesIn 32 w - onesIn 32 (w &&& rowMask i)
  let oj := onesIn 32 w - onesIn 32 (w &&& rowMask j)
  decide (oi < oj) || (decide (oi = oj) && decide (onesIn 32 (rowMask j) < onesIn 32 (rowMask i)))

/-- The reading of a bare 32-bit word: as a sequencer or as an access-unit word, the one whose row explains it better when
both decode (log entry 12). -/
def decode32 (w : Nat) : Option (Nat × Instr) :=
  match decodeUnit 1 w, decodeUnit 3 w with
  | some i, some j => if rowBetter w i j then some (1, i) else some (3, j)
  | some i, none => some (1, i)
  | none, some j => some (3, j)
  | none, none => none

/-- The reading of a bare 64-bit word: as a vector, sequencer or access-unit word (log entry 12). -/
def decode64 (w : Nat) : Option (Nat × Instr) :=
  match decodeUnit 2 w, decodeUnit 4 w, decodeUnit 5 w with
  | some i, _, _ => some (2, i)
  | none, some i, _ => some (4, i)
  | none, none, some i => some (5, i)
  | none, none, none => none

/-- The tag and the instruction of a bare word of the opcode table. -/
def decodeBare (nbits w : Nat) : Option (Nat × Instr) := if nbits ≤ 32 then decode32 w else decode64 w

/-- What the decoder reads from the bits of a row of the opcode table, bit 0 the least significant bit of the first word;
a row that is no unit instruction has no bits. -/
def decodeTableWord (nbits w : Nat) : Option Instr := (decodeBare nbits w).map Prod.snd

end Sys2Proof
end

