-- ==== Sys2Proof/Config.lean ====
section
/-! DEFINITION. What one implementation fixes and the manual does not give: constants with no body. -/

namespace Sys2Proof.Config

/-- Values that the manual leaves open, one fresh value for each number of the counter `State.fresh` (log entry 9). -/
opaque freeWord : Nat → W64

/-- The SHAKE256 digest of 64 bytes that R28, R459, R460 and R461 name; the function is a standard outside the manual
(log entry 10). -/
opaque shake256 : List Byte → List Byte

/-- Falcon-1024 verification of a signature over a digest under a public key (R28, R460); a standard outside the manual
(log entry 10). -/
opaque falconVerify : List Byte → List Byte → List Byte → Bool

/-- Falcon-1024 signature by the device key inside the security block (R461; log entry 10). -/
opaque deviceSign : List Byte → List Byte

/-- AES-256-GCM encryption of R463: key, nonce, additional data and plaintext give ciphertext and 16-byte tag
(log entry 10). -/
opaque gcmSeal : List Byte → List Byte → List Byte → List Byte → List Byte × List Byte

/-- AES-256-GCM decryption of R463: key, nonce, additional data, ciphertext and tag give the plaintext, or nothing when the
tag check fails (log entry 10). -/
opaque gcmOpen : List Byte → List Byte → List Byte → List Byte → List Byte → Option (List Byte)

/-- The 16-byte device identity of R461. -/
opaque devId : List Byte

/-- The fused device sealing root of R463. -/
opaque sealRoot : List Byte

/-- The fused vendor release key of key slot 0 (R460). -/
opaque releaseKey : List Byte

/-- Whether the ROM's check of the signal box firmware passes at cold start (R459). -/
opaque firmwareOk : Bool

/-- Whether the LPDDR channels train at cold start (R452, R466). -/
opaque lpddrOk : Bool

/-- Whether SRAM repair succeeds at cold start (R452, R466). -/
opaque sramOk : Bool

/-- Whether the pair link trains at cold start (R452, R466). -/
opaque pairLinkOk : Bool

/-- The SHAKE256 digest of the running firmware (R461). -/
opaque firmwareDigest : List Byte

/-- The 8-byte check word of a 64-byte unit of a key-value frame, the device's own (R344; log entry 11). -/
opaque checkWord : List Byte → List Byte

/-- The SEC-DED check byte of a 64-bit plane word of a key-value frame, the device's own (R344; log entry 11). -/
opaque checkByte : Nat → Byte

/-- The parity bit of a 64-bit mantissa-plane word of a key-value frame, the device's own (R344; log entry 11). -/
opaque parityBit : Nat → Bool

end Sys2Proof.Config
end

