-- ==== Sys2Proof/Machine/Store.lean ====
section
/-! DEFINITION. A store: a total map from numbers held as a sorted list that never lists the default value, so that equal
maps are equal lists. Memory, register files and tables are stores. -/

namespace Sys2Proof.Machine

/-- A map from numbers, listed by rising key, without entries at the default value. -/
abbrev Store (α : Type) := List (Nat × α)

/-- The value at a key: the listed one, or the default. -/
def Store.get {α : Type} (d : α) : Store α → Nat → α
  | [], _ => d
  | (j, v) :: r, k => if j = k then v else Store.get d r k

/-- The listing with a key removed. -/
def Store.erase {α : Type} : Store α → Nat → Store α
  | [], _ => []
  | (j, v) :: r, k => if j = k then Store.erase r k else (j, v) :: Store.erase r k

/-- The listing with a value placed at a key, in key order. -/
def Store.insert {α : Type} : Store α → Nat → α → Store α
  | [], k, v => [(k, v)]
  | (j, w) :: r, k, v =>
    if k < j then (k, v) :: (j, w) :: r else if j = k then (k, v) :: r else (j, w) :: Store.insert r k v

/-- Writes a value at a key; the default value is never listed. -/
def Store.set {α : Type} [DecidableEq α] (d : α) (m : Store α) (k : Nat) (v : α) : Store α :=
  if v = d then m.erase k else m.insert k v

/-- Keys strictly rising from a bound, and no listed value equal to the default. -/
def Store.wfFrom {α : Type} [DecidableEq α] (d : α) : Nat → Store α → Bool
  | _, [] => true
  | lo, (j, v) :: r => decide (lo ≤ j) && decide (v ≠ d) && Store.wfFrom d (j + 1) r

/-- The canonical form of a store. -/
def Store.wf {α : Type} [DecidableEq α] (d : α) (m : Store α) : Bool := Store.wfFrom d 0 m

/-- Writes a run of values at consecutive keys, the first at the lowest key. -/
def Store.setRun {α : Type} [DecidableEq α] (d : α) (m : Store α) (k : Nat) : List α → Store α
  | [] => m
  | v :: r => Store.setRun d (m.set d k v) (k + 1) r

/-- Reads `n` consecutive values, the first at the lowest key. -/
def Store.getRun {α : Type} (d : α) (m : Store α) (k n : Nat) : List α :=
  (List.range n).map fun i => m.get d (k + i)

/-- A byte an unlisted address reads as (R462 zero-fills each frame; log entry 2). -/
def zeroByte : Byte := 0

/-- Changes every listed value; one that becomes the default is not listed. -/
def Store.mapVal {α : Type} [DecidableEq α] (d : α) (m : Store α) (f : α → α) : Store α :=
  (m.map fun e => (e.1, f e.2)).filter fun e => decide (e.2 ≠ d)

/-- The keys that a store lists. -/
def Store.keys {α : Type} (m : Store α) : List Nat := m.map Prod.fst

/-- A value little-endian as `n` bytes (R6). -/
def toBytes : Nat → Nat → List Byte
  | 0, _ => []
  | n + 1, x => BitVec.ofNat 8 x :: toBytes n (x / 256)

/-- The number that bytes hold, little-endian (R6). -/
def ofBytes : List Byte → Nat
  | [] => 0
  | b :: r => b.toNat + 256 * ofBytes r

/-- A number of `n` bytes at an offset of a record, little-endian (R6). -/
def field (bs : List Byte) (off n : Nat) : Nat := ofBytes ((bs.drop off).take n)

/-- Whether `n` bytes at an offset of a record are zero. -/
def zeroField (bs : List Byte) (off n : Nat) : Bool := ((bs.drop off).take n).all fun b => b == 0

end Sys2Proof.Machine
end

