-- ==== Sys2Proof/Machine/State.lean ====
section
/-! DEFINITION. The state of one Pyrmuir 7 package as plain data, and the state after reset. -/

namespace Sys2Proof.Machine

/-- Why the machine itself stops. A fault of a task is never one of these: it is a next state (R52, R429). -/
inductive Fault where
  /-- Raised by step when an act of the agenda names a bank that the package does not have; safe, since the device has
  72 banks (R49) and no such act exists. -/
  | noSuchBank (row : Nat)
  deriving DecidableEq, Repr

/-- Why a step has no meaning. -/
inductive Refusal where
  /-- Raised by an arm of exec for an instruction that is not modelled yet; safe. -/
  | notModelled (mnemonic : String)
  /-- Raised by step for an event of the agenda whose operands name no agent of the device; safe. -/
  | illFormed
  deriving DecidableEq, Repr

/-- An exact internal value (R160): not a number, an infinity, or (-1)^neg * m * 2^e; m = 0 is a signed zero. -/
inductive XVal where
  | nan
  | inf (neg : Bool)
  | fin (neg : Bool) (m : Nat) (e : Int)
  deriving DecidableEq, Repr

/-- The word queues between the units (R104). -/
inductive WordQ where
  | xq | aq | ssq | cq | rq
  deriving DecidableEq, Repr

/-- An instruction in a unit queue: its tag and word, and the line, lane and RB with which it was dispatched (R72, R110). -/
structure QEntry where
  tag  : BitVec 4
  word : W64
  line : W64
  lane : Nat
  rb   : BitVec 7
  seq  : Nat
  deriving DecidableEq, Repr

/-- An entry of a word queue: reserved by an instruction of a line, of which `line` is the place in dispatch order, and filled once
`val` is present (R106, R107); `err` names an address whose data was uncorrectable (R225). -/
structure WordEntry where
  id  : Nat
  line : Nat
  val : Option W64
  err : Option W64
  deriving DecidableEq, Repr

/-- An entry of a load or store queue, reserved by an instruction of a line, of which `line` is the place in dispatch order, with its
nibble enables (R106, R107, R173); `err` names a load's address whose data was uncorrectable (R225). -/
structure VEntry where
  id  : Nat
  line : Nat
  val : Option VWord
  en  : MWord
  err : Option W64
  deriving DecidableEq, Repr

/-- A result on its way to its place (R97 to R101). -/
inductive Result where
  | sreg (n : BitVec 6) (v : W64)
  | creg (n : BitVec 4) (v : Bool)
  | areg (n : BitVec 5) (v : W64)
  | vreg (phys : Nat) (data en : VWord)
  | mreg (n : BitVec 6) (data en : MWord)
  | word (q : WordQ) (id : Nat) (v : W64)
  | sq (q : BitVec 3) (id : Nat) (data : VWord) (en : MWord)
  | tile (bytes : List (Nat × Byte))
  deriving DecidableEq, Repr

/-- The results of one instruction in flight, with the cycles that remain: one landing-buffer entry (R101). -/
structure InFlight where
  rem : Nat
  res : List Result
  deriving DecidableEq, Repr

/-- Data of an LDV (`q` a load queue) or of an LDS (`q` none: rq) that memory has still to deliver (R227, R228). -/
structure PendLoad where
  id   : Nat
  q    : Option (BitVec 3)
  data : VWord
  err  : Option W64
  deriving DecidableEq, Repr

/-- The atomic operations (R229). -/
inductive AtomicOp where
  | add | xchg | cas | minS | minZ | maxS | maxZ | and | or
  deriving DecidableEq, Repr

/-- An atomic that has issued and not yet executed at its home (R229); `moved` when a home answered moved (R309); the line and lane of its
instruction (R432); `refused` when it has met a fault at its home (R315). -/
structure PendAtomic where
  id    : Nat
  op    : AtomicOp
  w8    : Bool
  va    : Nat
  pa    : Nat
  v     : Nat
  cmp   : Nat
  moved : Bool
  line  : W64
  lane  : Nat
  refused : Bool
  deriving DecidableEq, Repr

/-- A configured tile (R213, R216). -/
structure TileCfg where
  base : Nat
  ty   : ElemType
  rows : Nat
  cols : Nat
  deriving DecidableEq, Repr

/-- The states of a tile (R213). -/
inductive Tile where
  | unconfigured
  | configured (c : TileCfg)
  | absent (c : TileCfg)
  deriving DecidableEq, Repr

/-- An entry being filled by a load stream: the queue entry reserved, the slots fetched so far (R239). -/
structure PartEntry where
  id    : Nat
  data  : VWord
  count : Nat
  err   : Option W64
  deriving DecidableEq, Repr

/-- A stream descriptor and its run (R233 to R239). -/
structure Stream where
  desc   : BitVec 512
  active : Bool
  held   : Bool
  target : BitVec 5
  cause  : BitVec 8
  addr   : W64
  part   : Option PartEntry
  drain  : Option Nat
  deriving DecidableEq, Repr

/-- An element at the array: its code, its scale group and the scale (R236, R242), and whether its data were uncorrectable
(R264). -/
structure Elt where
  code  : Nat
  grp   : Nat
  scale : Option XVal
  bad   : Bool
  deriving DecidableEq, Repr

/-- A chuck plane (R242): `nc` = 0 is empty; `cells` column by column. -/
structure Plane where
  nc    : Nat
  kc    : Nat
  ty    : ElemType
  width : Nat
  cells : List (List Elt)
  deriving DecidableEq, Repr

/-- A live shadow copy (R265). -/
structure ShadowCopy where
  set  : BitVec 4
  tile : BitVec 6
  cfg  : TileCfg
  off  : Nat
  deriving DecidableEq, Repr

/-- Row state of a KVATT: the values m, l and O of R362 as f32 codes. -/
structure KvRow where
  m : BitVec 32
  l : BitVec 32
  o : List (BitVec 32)
  deriving DecidableEq, Repr

/-- How far an entry of an engine queue has come. -/
inductive EntryState where
  | waiting
  | held
  /-- an MX entry under way: the cycle in which it completes, and the one from which the array pipe takes another command's rows (R247, R248) -/
  | running (due taken : Nat)
  /-- the command has run, and its DONE page is awaited (R273) -/
  | ending (status : W64) (words : List W64)
  /-- a tagged copy whose read phase is over (R283) -/
  | staged
  /-- a CPYF whose copy is done and whose follow-on has no place yet (R281) -/
  | following
  /-- a WPUT whose put travels to the other package (R396) -/
  | putting
  /-- a timed put on its way: the stamp, the core cycle of its arrival, the count to add to the stamp, and the die (R118) -/
  | flying (stamp due lat die : Nat)
  /-- an XSEND without a permit, since a cycle (R390) -/
  | permitWait (since : Nat)
  deriving DecidableEq, Repr

/-- An entry of an engine queue: a command of eight words, or a resolve entry of MX (R138, R271). -/
structure EngEntry where
  id      : Nat
  words   : List W64
  resolve : Option (BitVec 3 × Bool)
  tiles   : List (BitVec 6)
  state   : EntryState
  started : Bool
  pos     : Nat
  sub     : Nat
  kept    : List Byte
  rows    : List KvRow
  stage   : List (Nat × Byte)
  /-- what the bytes that the task stored after the PUSH held at the PUSH (R310) -/
  old     : Store (Option Byte)
  flags   : BitVec 64
  /-- the elements that a held command has drawn for the row at which it is held (R263) -/
  drawn   : List Elt
  /-- the follow-on that a CPYF has read at its start (R281) -/
  follow  : List W64
  /-- the ranges lent from its acceptance on (R240) -/
  lent    : List (Int × Int)
  /-- the cycle of its acceptance (R218) -/
  at_     : Nat
  deriving DecidableEq, Repr

/-- The fault record of R432. -/
structure FaultRec where
  cause  : BitVec 8
  src    : BitVec 8
  lane   : BitVec 8
  flags  : BitVec 8
  aux    : BitVec 32
  line   : W64
  addr   : W64
  opc    : BitVec 8
  qpos   : BitVec 8
  start  : BitVec 32
  pos    : W64
  sub    : BitVec 32
  layer  : BitVec 8
  node   : BitVec 8
  stream : BitVec 8
  tcc    : W64
  answer : BitVec 8
  deriving DecidableEq, Repr

/-- The place an S instruction has reached in a wait of its own (R122, R141, R143). -/
inductive SWait where
  | idle
  /-- the release has been made -/
  | released
  /-- the arrival at the barrier has been counted, at this generation -/
  | arrived (gen : Bool)
  /-- freezes are being applied from this leaf address on; the leaves listed are being collected (R320) -/
  | freezing (from_ : Nat) (leaves : List Nat)
  /-- the other package has been sent the entry, and its answer is awaited (R326) -/
  | acking
  /-- a THW's or PHASE's collection is over and only the acquire is left -/
  | frozen
  /-- WAITC has translated its object to this physical address and holds dispatch (R140) -/
  | counting (pa : Nat) (target : W64)
  /-- HALT has issued and has reached this step (R143) -/
  | halting (step : Nat)
  /-- REALIGN awaits the end of this cycle (R117) -/
  | realigning (until_ : Option Nat)
  deriving DecidableEq, Repr

/-- The place an A instruction has reached in a wait of its own (R102). -/
inductive AWait where
  | idle
  /-- TLBSYNC awaits the acknowledgements of these cores (R333) -/
  | invalidating (cores : List Nat)
  /-- THW lowers leaves from this address on and awaits the collection of the leaves listed (R321) -/
  | thawing (from_ : Nat) (leaves : List Nat)
  /-- the other package's answer to a THW is awaited (R326) -/
  | acking
  /-- the other package met a fault at this address, from which it is asked again (R326) -/
  | resending (from_ : Nat)
  /-- SSTOP awaits a store stream (R238) -/
  | stopping (st : BitVec 4)
  deriving DecidableEq, Repr

/-- A store's request for ownership (R304): subpages asked for, and the first that was refused. -/
structure OwnReq where
  subpages : List Nat
  /-- the virtual addresses of the access, one in each page -/
  vas      : List Nat
  /-- the cycle in which it was made -/
  at_      : Nat
  refused  : Option Nat
  deriving DecidableEq, Repr

/-- A pending freeze (R319). -/
structure PendFreeze where
  asid  : Asid
  base  : Nat
  len   : Nat
  group : BitVec 2
  /-- the address from which the other package has still to apply it (R326) -/
  sent  : Nat
  deriving DecidableEq, Repr

/-- The declared counts of a kernel header (R22, R25). -/
structure Decl where
  s : Nat
  c : Nat
  a : Nat
  v : Nat
  m : Nat
  t : Nat
  st : Nat
  dmem : Nat
  acc : Nat
  ngroup : Nat
  nlayout : Nat
  deriving DecidableEq, Repr

/-- The sequencer's control of a bank: program counter and what dispatch awaits (R75, R122). -/
structure Fetch where
  next     : W64
  /-- the entry line has still to be fetched (R27, R77, R113) -/
  entry    : Bool
  /-- the core cycle from which the next line may be dispatched (R75) -/
  ready    : Nat
  deriving DecidableEq, Repr

/-- One context bank (R95) with its task's identity. -/
structure Bank where
  launch  : Nat
  /-- TASKINFO, fixed at the bind (R150) -/
  info    : W64
  tasks   : Nat
  decl    : Decl
  lays    : List (List Byte)
  sregs   : Store W64
  cregs   : Store Bool
  aregs   : Store W64
  vregs   : Store VWord
  mregs   : Store MWord
  streams : Store Stream
  tiles   : Store Tile
  lq      : Store (List VEntry)
  sq      : Store (List VEntry)
  xq      : List WordEntry
  aq      : List WordEntry
  ssq     : List WordEntry
  cq      : List WordEntry
  rq      : List WordEntry
  rb      : BitVec 7
  vmode   : W64
  mxmode  : BitVec 5
  shadows : BitVec 4
  tcc     : W64
  flightS : List InFlight
  flightA : List InFlight
  flightV : List InFlight
  flightQ : List InFlight
  sQueue  : List QEntry
  aQueue  : List QEntry
  vQueue  : List QEntry
  fetch   : Fetch
  trapvec   : W64
  trapcause : W64
  trapret   : W64
  sWait   : SWait
  aWait   : AWait
  stallS  : Nat
  stallA  : Nat
  stallV  : Nat
  stopS   : Bool
  stopA   : Bool
  stopV   : Bool
  walk    : Option Nat
  own     : Option OwnReq
  loads   : List PendLoad
  atomics : List PendAtomic
  pend    : Store (Option Byte)
  /-- unpublished stores over which an atomic of the task has executed: the task reads them no more, and a release publishes them (R230) -/
  under   : Store (Option Byte)
  freezes : List PendFreeze
  acc     : Store Byte
  scratch : Store Byte
  /-- the 64-bit words of the accumulator half that hold an uncorrectable error (R244, R264) -/
  accBad  : Store Bool
  /-- the bytes of the task's scratch that hold an uncorrectable error (R282) -/
  scratchBad : Store Bool
  dirty   : Store Bool
  gone    : Store Bool
  active  : Plane
  standby : Plane
  mxa     : Option (BitVec 4)
  mxw     : Option (BitVec 4)
  copies  : List ShadowCopy
  mx : List EngEntry
  cp : List EngEntry
  kv : List EngEntry
  xg : List EngEntry
  sp : List EngEntry
  wn : List EngEntry
  fifoMx : List W64
  fifoCp : List W64
  fifoKv : List W64
  fifoXg : List W64
  fifoSp : List W64
  fifoWn : List W64
  /-- engines that start no entries of the bank after a fault: bits 0 to 5 by engine, where 3 is XSEND; 6 XGRANT, 7 XRECV
  (R262, R387) -/
  blocked : BitVec 8
  fault   : Option FaultRec
  faults  : List (Eng × FaultRec)
  nextId  : Nat
  nextSeq : Nat
  usedMx  : Bool
  usedXg  : Bool
  /-- entries that the VDISC at the head of V has already popped (R212) -/
  disc    : Nat
  /-- the signal box terminates the task, with this cause; it retires when its started commands have ended (R435) -/
  dying   : Option (BitVec 8)
  deriving DecidableEq, Repr

/-- A TLB entry: a valid leaf (R331). -/
structure TlbEntry where
  asid : Asid
  vbase : Nat
  size  : Nat
  pte   : W64
  deriving DecidableEq, Repr

/-- The owner of a subpage (R303). -/
inductive Owner where
  | task (row : Nat)
  | cmd (row : Nat) (e : Eng) (id : Nat)
  deriving DecidableEq, Repr

/-- The collection of a leaf (R322): who has still to be told, and how many acknowledgements are outstanding. -/
structure Collect where
  leaf    : Nat
  size    : Nat
  holders : List Nat
  outstanding : Nat
  /-- the leaf's count has fallen to zero -/
  thaw : Bool
  deriving DecidableEq, Repr

/-- An entry of the list of checked images (R31). -/
structure ImageEntry where
  asid    : Asid
  base    : Nat
  digest  : List Byte
  checked : Bool
  live    : Nat
  /-- the cycle of its latest check in full -/
  checkAt : Nat
  /-- the freeze counts of the image's pages are raised -/
  frozen  : Bool
  size    : Nat
  /-- an address in each leaf whose count is raised for the image -/
  leaves  : List Nat
  deriving DecidableEq, Repr

/-- A launch queue (R39) with the eligibility of its head launch (R35). -/
structure LaunchQueue where
  base    : BitVec 40
  devfeed : Bool
  en      : Bool
  prio    : BitVec 3
  sizelog : BitVec 4
  tail    : BitVec 32
  sel     : BitVec 32
  head    : BitVec 32
  lastwhy : BitVec 8
  misuse  : Bool
  badbase : Bool
  ovf     : Bool
  freed   : List (BitVec 32)
  sender  : List (BitVec 32 × Asid)
  met     : BitVec 4
  hopeless : Bool
  eligible : Option Nat
  deriving DecidableEq, Repr

/-- A group membership entry of a launch record (R36). -/
structure GroupSpec where
  mode   : BitVec 2
  key    : BitVec 16
  first  : Nat
  stride : Nat
  count  : Nat
  deriving DecidableEq, Repr

/-- A selected launch (R44) and its progress. -/
structure Launch where
  id      : Nat
  queue   : BitVec 4
  slot    : BitVec 32
  gang    : Bool
  pinned  : Bool
  split   : Bool
  asid    : Asid
  image   : Nat
  tasks   : Nat
  pkg1    : Nat
  arg     : W64
  argblk  : W64
  done    : Nat
  groups  : List GroupSpec
  decl    : Decl
  class_  : BitVec 3
  engmask : BitVec 6
  prio    : BitVec 3
  queued  : List Nat
  gidx    : List (Option Nat)
  maps    : List (List Byte)
  retired : Nat
  faulted : Nat
  firstTask : Option Nat
  cause   : BitVec 8
  remote  : Bool
  /-- of a split gang: this package's share is bound, and package 1 has said so -/
  started : Bool
  /-- of a split gang: the other package's share is bound -/
  peer    : Bool
  /-- of a split gang: the tick at which its tasks start -/
  tick    : Option W64
  /-- DT at its selection (R58) -/
  selAt   : Nat
  deriving DecidableEq, Repr

/-- What the signal box keeps for a shared group (R37). -/
structure SharedGroup where
  key      : BitVec 16
  asid     : Asid
  expect   : Nat
  promised : Nat
  joined   : Nat
  left     : Nat
  /-- members that split gangs run on the other package (R55) -/
  away     : Nat
  gidx     : Option Nat
  deriving DecidableEq, Repr

/-- A group-table entry (R54) with its live members and DT at the first arrival at the present barrier (R55, R58). -/
structure Group where
  cmask   : BitVec 36
  level   : BitVec 2
  asid    : Asid
  gang    : Bool
  valid   : Bool
  expect  : BitVec 17
  gen     : Bool
  arrived : BitVec 17
  key     : BitVec 16
  live    : Nat
  since   : Nat
  deriving DecidableEq, Repr

/-- The states of a task that holds a bank, and a free row (R51). -/
inductive TaskState where
  | free | bound | running | waiting | faulted | saving | halting
  deriving DecidableEq, Repr

/-- A timetable row (R59) with the moment of its latest entry into bound (R53). -/
structure Row where
  asid   : Asid
  task   : BitVec 16
  launch : BitVec 16
  prio   : BitVec 3
  gang   : Bool
  pinned : Bool
  hold   : Bool
  resume : Bool
  operr  : Bool
  state  : TaskState
  image  : BitVec 32
  gv     : BitVec 4
  gidx   : BitVec 32
  save   : BitVec 40
  op     : BitVec 2
  halted : Bool
  since  : Nat
  /-- the cycle of the bind OP (R60) -/
  bindAt : Nat
  /-- DT at the preempt OP (R58) -/
  leftAt : Nat
  deriving DecidableEq, Repr

/-- A core: the bank that issues, the bank that last issued, and the cycles left of a switch (R50, R53). -/
structure Core where
  run    : Option Bool
  last   : Option Bool
  switch : Nat
  deriving DecidableEq, Repr

/-- A preempted task (R51): where its context stands and where it may be bound again (R389, R439). -/
structure Preempted where
  launch  : Nat
  task    : Nat
  save    : BitVec 40
  halted  : Bool
  class_  : Option (BitVec 3)
  die     : Option Nat
  core    : Nat
  asid    : Asid
  gidx    : BitVec 32
  gv      : BitVec 4
  /-- DT at the preempt OP (R58) -/
  leftAt  : Nat
  deriving DecidableEq, Repr

/-- States of an exchange slot (R378). -/
inductive SlotState where
  | free | granted | filling | filled | draining
  deriving DecidableEq, Repr

/-- An exchange slot (R377, R378); `order` is its place in permit order. -/
structure XSlot where
  state    : SlotState
  sdie     : BitVec 4
  chan     : BitVec 4
  asid     : Asid
  revoking : Bool
  order    : Nat
  data     : List Byte
  /-- the 128-byte lines of the data that are in error (R387) -/
  bad      : List Nat
  deriving DecidableEq, Repr

/-- A window (R393). -/
structure Window where
  asid : Asid
  base : W64
  len  : BitVec 32
  rcv  : W64
  snd  : W64
  deriving DecidableEq, Repr

/-- An SP key-table entry (R408). -/
structure SpKey where
  key   : W64
  asid  : Asid
  valid : Bool
  deriving DecidableEq, Repr

/-- DEVSTAT (R452). -/
structure DevStat where
  booterr  : BitVec 8
  stage    : BitVec 4
  pairdown : Bool
  pairup   : Bool
  ptmlock  : Bool
  secure   : Bool
  pwr      : BitVec 2
  mboxbusy : Bool
  ready    : Bool
  deriving DecidableEq, Repr

/-- A BAR2 aperture (R451, R454). -/
structure Aperture where
  pkg  : Bool
  base : Nat
  deriving DecidableEq, Repr

/-- A host region (R454, R455). -/
structure HostRegion where
  asid : Asid
  rd   : Bool
  wr   : Bool
  base : Nat
  len  : Nat
  deriving DecidableEq, Repr

/-- A request that the control die has still to take (R117): dies, target count, and the bank that waits. -/
structure RealignReq where
  dies  : BitVec 9
  count : W64
  row   : Nat
  deriving DecidableEq, Repr

/-- A DCC to be set in a coming cycle (R117). -/
structure DccSet where
  at_   : Nat
  dies  : BitVec 9
  count : W64
  row   : Nat
  deriving DecidableEq, Repr

/-- A page that system software backs and the firmware may map (R433). -/
structure Backing where
  asid : Asid
  va   : Nat
  pte  : W64
  deriving DecidableEq, Repr

/-- Sideband messages to the other package (R45, R326, R393, R396). -/
inductive SideMsg where
  | tick (t : W64)
  | shareBound
  | freeze (asid : Asid) (base len : Nat) (group : BitVec 16)
  | thaw (asid : Asid) (base len : Nat)
  /-- an entry of the other package has been applied, or met a fault at an address -/
  | applied
  | refused (cause addr : Nat)
  | windowReset (wid : BitVec 6)
  /-- DT of package 0 (R457) -/
  | dt (t : W64)
  /-- the board limit, for the other package too (R464) -/
  | power (watts : Nat)
  /-- a host write through an aperture of the other package (R451, R458) -/
  | hostWrite (off : Nat) (bytes : List Byte)
  | put (row id : Nat) (wid : BitVec 6) (off : BitVec 32) (bytes : List Byte)
  /-- a put of the other package into this package's window has been counted, or was refused with a cause (R396) -/
  | putCounted (wid : BitVec 6)
  | putRefused (wid : BitVec 6) (cause : Nat)
  deriving DecidableEq, Repr

/-- A page being migrated, from a frame to a frame (R334). -/
structure Moving where
  asid : Asid
  va   : Nat
  frm  : Nat
  dest : Nat
  cmp  : Bool
  deriving DecidableEq, Repr

/-- A move of a key-value frame that the signal box has begun: the block-table entry at `entry` is held at V = 0 until it is rewritten (R346). -/
structure FrameMove where
  asid  : Asid
  entry : Nat
  old   : Nat
  new   : Nat
  size  : Nat
  deriving DecidableEq, Repr

/-- A pair freeze entry from the other package that the next barrier of the group applies, or a thaw of that package (R326). -/
structure PairFreeze where
  asid  : Asid
  base  : Nat
  len   : Nat
  group : BitVec 16
  /-- the barrier has completed, and the leaves below are raised -/
  due   : Bool
  next  : Nat
  /-- the leaves being collected for it -/
  leaves : List Nat
  thaw  : Bool
  deriving DecidableEq, Repr

/-- The acts of the agenda: which agent moves (log entry 8). -/
inductive Act where
  /-- the head instruction of a unit queue of a bank issues -/
  | issue (row : Nat) (u : UnitId)
  /-- an engine starts the entry of this name in a bank's queue, or goes on with it -/
  | engine (row : Nat) (e : Eng) (id : Nat)
  /-- the head instruction of a unit queue, of this number, whose destination queue was full issues after all when a read of the same cycle
  has freed an entry (R106) -/
  | again (row : Nat) (u : UnitId) (seq : Nat)
  /-- the other package's THW reaches this one (R326) -/
  | pairThaw (asid : Asid) (base len : Nat)
  /-- package 0 tells its DT (R457) -/
  | pairDt (t : W64)
  /-- package 0 tells a new board limit (R464) -/
  | pairPower (watts : Nat)
  /-- system software asks the signal box to free a frame from which it has moved a page (R336) -/
  | freeFrame (pa : Nat)
  /-- the host loads bytes through BAR0 (R451) -/
  | hostLoad (off n : Nat)
  /-- an event of the device, the firmware or the host -/
  | event (i : Instr)
  deriving DecidableEq, Repr

/-- One package (R1) with its links to the host and to the other package. -/
structure State where
  dual  : Bool
  pkg   : Bool
  cur   : Nat
  agenda : List Act
  cycle : Nat
  fresh : Nat
  banks : Store Bank
  tt    : Store Row
  core  : Store Core
  gt    : Store Group
  mem   : List Host.Cell
  poison : Store Bool
  /-- the bytes of memory that a store of a task or a copy wrote last, which leave the check words of a key-value frame stale
  (R344) -/
  stale : Store Bool
  hostMem : Store Byte
  coreOv : Store (Store (Option Byte))
  dieOv : Store (Store (Option Byte))
  dir   : Store (List Owner)
  collects : List Collect
  moving : List Moving
  frameMoves : List FrameMove
  /-- frames that system software has asked the signal box to free, whose replicas are being collected (R336) -/
  freeing : List Nat
  tlb   : Store (List TlbEntry)
  access : List (Target × Store W64)
  kimgpol : W64
  images : List ImageEntry
  lnq   : Store LaunchQueue
  launches : List Launch
  shared : List SharedGroup
  preempted : List Preempted
  saves : Store (Option Bank)
  nextLaunch : Nat
  dcc   : Store W64
  dccSets : List DccSet
  realigns : List RealignReq
  dt    : W64
  dtDie : Store W64
  dtAcc : Nat
  /-- nanoseconds by which DT has still to be slewed, and those counted since it was last slewed by one (R457) -/
  slew  : Int
  slewAcc : Nat
  watts : Nat
  clk   : Nat
  hold  : Bool
  dmcfg : Store (BitVec 3)
  kverrpol : Store (Bool × BitVec 32)
  xgcfg : Store Bool
  slots : Store XSlot
  permits : Store (List (Asid × BitVec 4))
  permitOrder : Nat
  win   : Store Window
  spKeys : Store SpKey
  devstat : DevStat
  aper  : Store (Option Aperture)
  hrgn  : Store (Option HostRegion)
  keySlots : Store (List Byte)
  xtsKeys : Store Bool
  /-- the key index of each 64 KiB LPDDR frame, by physical address / 65,536 (R462) -/
  frameKeys : Store (BitVec 12)
  sleepCopy : Option (Store (BitVec 3) × Store (Bool × BitVec 32))
  sealCount : Nat
  sideOut : List SideMsg
  splitTick : Option W64
  pairFreezes : List PairFreeze
  msix  : List Nat
  hostErr : Nat
  hostRead : List (List Byte)
  /-- the 64 KiB frames, of those that the firmware holds outside every address space, that are in use (R470; log entry 7) -/
  framesUsed : Store Bool
  backing : List Backing
  passAt : Nat
  rrQueue : Store (BitVec 4)
  rrBank : Store Nat
  deriving DecidableEq, Repr

/-- No declared resources. -/
def Decl.none : Decl := ⟨0, 0, 0, 0, 0, 0, 0, 0, 0, 0, 0⟩

/-- An empty chuck plane (R242). -/
def Plane.empty : Plane := ⟨0, 0, .s8, 8, []⟩

/-- An inactive stream whose descriptor is all zeros. -/
def Stream.reset : Stream := ⟨0, false, false, 0, 0, 0, Option.none, Option.none⟩

/-- A bank that holds no task: every register, queue and buffer empty or zero (R27, R95). -/
def Bank.reset : Bank where
  launch := 0
  info := 0
  tasks := 0
  decl := Decl.none
  lays := []
  sregs := []
  cregs := []
  aregs := []
  vregs := []
  mregs := []
  streams := []
  tiles := []
  lq := []
  sq := []
  xq := []
  aq := []
  ssq := []
  cq := []
  rq := []
  rb := 0
  vmode := 0
  mxmode := 0
  shadows := 0
  tcc := 0
  flightS := []
  flightA := []
  flightV := []
  flightQ := []
  sQueue := []
  aQueue := []
  vQueue := []
  fetch := ⟨0, false, 0⟩
  trapvec := 0
  trapcause := 0
  trapret := 0
  sWait := .idle
  aWait := .idle
  stallS := 0
  stallA := 0
  stallV := 0
  stopS := false
  stopA := false
  stopV := false
  walk := none
  own := none
  loads := []
  atomics := []
  pend := []
  under := []
  freezes := []
  acc := []
  scratch := []
  accBad := []
  scratchBad := []
  dirty := []
  gone := []
  active := Plane.empty
  standby := Plane.empty
  mxa := none
  mxw := none
  copies := []
  mx := []
  cp := []
  kv := []
  xg := []
  sp := []
  wn := []
  fifoMx := []
  fifoCp := []
  fifoKv := []
  fifoXg := []
  fifoSp := []
  fifoWn := []
  blocked := 0
  fault := none
  faults := []
  nextId := 0
  nextSeq := 0
  usedMx := false
  usedXg := false
  disc := 0
  dying := none

/-- A free timetable row (R59). -/
def Row.reset : Row := ⟨0, 0, 0, 0, false, false, false, false, false, .free, 0, 0, 0, 0, 0, false, 0, 0, 0⟩

/-- A launch queue at reset: everything zero but SIZELOG, which is 1 (R39). -/
def LaunchQueue.reset : LaunchQueue :=
  ⟨0, false, false, 0, 1, 0, 0, 0, 0, false, false, false, [], [], 0, false, none⟩

/-- A free group-table entry (R54). -/
def Group.reset : Group := ⟨0, 0, 0, false, false, 0, false, 0, 0, 0, 0⟩

/-- A core on which no bank has issued (R53). -/
def Core.reset : Core := ⟨none, none, 0⟩

/-- A free exchange slot (R378). -/
def XSlot.reset : XSlot := ⟨.free, 0, 0, 0, false, 0, [], []⟩

/-- A window that is not registered (R393). -/
def Window.reset : Window := ⟨0, 0, 0, 0, 0⟩

/-- The package right after reset, before cold start has run (R466). -/
def State.reset : State where
  dual := false
  pkg := false
  cur := 0
  agenda := [.event .coldStart]
  cycle := 0
  fresh := 0
  banks := []
  tt := []
  core := []
  gt := []
  mem := []
  poison := []
  stale := []
  hostMem := []
  coreOv := []
  dieOv := []
  dir := []
  collects := []
  moving := []
  frameMoves := []
  freeing := []
  tlb := []
  access := []
  kimgpol := 0xFF00
  images := []
  lnq := []
  launches := []
  shared := []
  preempted := []
  saves := []
  nextLaunch := 1
  dcc := []
  dccSets := []
  realigns := []
  dt := 0
  dtDie := []
  dtAcc := 0
  slew := 0
  slewAcc := 0
  watts := 450
  clk := 19
  hold := false
  dmcfg := []
  kverrpol := []
  xgcfg := []
  slots := []
  permits := []
  permitOrder := 0
  win := []
  spKeys := []
  devstat := ⟨0, 0, false, false, false, false, 0, false, false⟩
  aper := []
  hrgn := []
  keySlots := []
  xtsKeys := []
  frameKeys := []
  sleepCopy := none
  sealCount := 0
  sideOut := []
  splitTick := none
  pairFreezes := []
  msix := []
  hostErr := 0
  hostRead := []
  framesUsed := []
  backing := []
  passAt := 0
  rrQueue := []
  rrBank := []

end Sys2Proof.Machine
end

