-- ==== Sys2Proof/Machine/Mem.lean ====
section
/-! DEFINITION. Memory: the physical map, rights, translation, the views of a task, publication and ownership (chapters 10,
14, 15 and 16). -/

namespace Sys2Proof.Machine

/-! ### Banks, rows and the other tables of the state -/

/-- The bank of a row. -/
def State.bank (s : State) (r : Nat) : Bank := s.banks.get Bank.reset r
/-- Writes the bank of a row. -/
def State.setBank (s : State) (r : Nat) (b : Bank) : State := { s with banks := s.banks.set Bank.reset r b }
/-- Changes the bank of a row. -/
def State.modBank (s : State) (r : Nat) (f : Bank → Bank) : State := s.setBank r (f (s.bank r))
/-- The timetable row. -/
def State.row (s : State) (r : Nat) : Row := s.tt.get Row.reset r
/-- Writes a timetable row. -/
def State.setRow (s : State) (r : Nat) (x : Row) : State := { s with tt := s.tt.set Row.reset r x }
/-- Changes a timetable row. -/
def State.modRow (s : State) (r : Nat) (f : Row → Row) : State := s.setRow r (f (s.row r))
/-- The core of a number. -/
def State.coreAt (s : State) (c : Nat) : Core := s.core.get Core.reset c
/-- Writes a core. -/
def State.setCore (s : State) (c : Nat) (x : Core) : State := { s with core := s.core.set Core.reset c x }
/-- The group-table entry of a number. -/
def State.group (s : State) (g : Nat) : Group := s.gt.get Group.reset g
/-- Writes a group-table entry. -/
def State.setGroup (s : State) (g : Nat) (x : Group) : State := { s with gt := s.gt.set Group.reset g x }

/-- The core of a row (R50, R59). -/
def coreOf (row : Nat) : Nat := row / 2
/-- The die of a core (R48). -/
def dieOfCore (c : Nat) : Nat := c / 4
/-- The die of a row. -/
def dieOf (row : Nat) : Nat := dieOfCore (coreOf row)
/-- The sibling row on the same core. -/
def siblingOf (row : Nat) : Nat := if row % 2 = 0 then row + 1 else row - 1
/-- The kinds of core (R48). -/
inductive CoreKind where
  | draft | attention | compute
  deriving DecidableEq, Repr
/-- The kind of a core (R48). -/
def coreKind (c : Nat) : CoreKind := if c < 4 then .draft else if c < 20 then .attention else .compute
/-- The engines of a core as the mask of R48. -/
def engMaskOf (c : Nat) : Nat := match coreKind c with
  | .draft => 0x33 | .attention => 0x3F | .compute => 0x3B
/-- Whether a core has an engine (R48). -/
def engPresent (c : Nat) (e : Eng) : Bool := decide (engMaskOf c / 2 ^ e.num % 2 = 1)

/-! ### The physical map -/

/-- The die of a physical address (R223). -/
def paDie (pa : Nat) : Nat := pa / 2 ^ 48
/-- The offset within the die (R223). -/
def paOff (pa : Nat) : Nat := pa % 2 ^ 48

/-- The kinds of place that a physical address names (R223). -/
inductive Region where
  | lpddr | sram | tier | scratch | sysreg | none
  deriving DecidableEq, Repr

/-- The region of a physical address (R221, R223). -/
def regionOf (s : State) (pa : Nat) : Region :=
  let d := paDie pa
  let o := paOff pa
  if 8 < d then .none
  else if 0x7F0000000000 ≤ o ∧ o ≤ 0x7F0000FFFFFF then .sysreg
  else if o ≤ 0x000FFFFFFFFF ∧ 1 ≤ d ∧ d ≤ 4 then .lpddr
  else if 0x400000000000 ≤ o ∧ o ≤ 0x400000FFFFFF ∧ d = 0 then .sram
  else if 0x400000000000 ≤ o ∧ o ≤ 0x400002FFFFFF ∧ 1 ≤ d ∧ d ≤ 4 then .tier
  else if 0x400000000000 ≤ o ∧ 5 ≤ d ∧ o < 0x400000000000 + 0x400000 * (s.dmcfg.get 0 d).toNat then .scratch
  else .none

/-- The target whose access table checks a physical address (R339). -/
def targetOf (s : State) (pa : Nat) : Option Target :=
  let d := paDie pa
  match regionOf s pa with
  | .lpddr => some (.lpddr d)
  | .sram => some .sram
  | .tier => some (.tier d)
  | .scratch => some (.scratch d)
  | .sysreg => some (.sysreg d)
  | .none => none

/-- Rights that an access-table word can grant (R339). -/
inductive Right where
  | rd | wr | ex | fz
  deriving DecidableEq, Repr

/-- The bit of a right in an access-table word. -/
def Right.bit : Right → Nat
  | .rd => 62 | .wr => 61 | .ex => 60 | .fz => 59

/-- Whether one access-table word grants a right to a master in an address space (R339, R340). -/
def entryGrants (w : W64) (r : Right) (master : Nat) (asid : Asid) : Bool :=
  let x := w.toNat
  decide (bitsOf x 63 63 = 1) && decide (bitsOf x r.bit r.bit = 1) &&
    decide ((master ^^^ bitsOf x 58 52) &&& bitsOf x 51 45 = 0) &&
    (decide (master = 125) || decide (master = 126) ||
      decide ((asid.toNat ^^^ bitsOf x 44 33) &&& bitsOf x 32 21 = 0))

/-- The access table of a target. -/
def State.accessTable (s : State) (t : Target) : Store W64 :=
  match s.access.find? fun p => p.1 == t with
  | some p => p.2
  | none => []

/-- Whether a master holds a right at a target; the signal box, 127, is never checked (R338, R340). -/
def hasRight (s : State) (t : Target) (r : Right) (master : Nat) (asid : Asid) : Bool :=
  decide (master = 127) || (s.accessTable t).any fun e => entryGrants e.2 r master asid

/-- The instance of an engine that serves a core (R271, R339). -/
def engTarget (c : Nat) (e : Eng) : Target :=
  match e with
  | .mx => .mx c | .cp => .cp c | .kv => .kv c | .xg => .xg (dieOfCore c) | .sp => .sp | .wn => .wn

/-! ### Home memory and views -/

/-- The canonical form of memory: addresses strictly rising, and no cell equal to what an unlisted address reads as (log entry 2). -/
def Memory.wf (m : List Host.Cell) : Bool := Store.wf zeroByte m

/-- A byte at its home. -/
def State.home (s : State) (pa : Nat) : Byte := Store.get zeroByte s.mem pa

/-- `n` bytes at their home. -/
def State.homeBytes (s : State) (pa n : Nat) : List Byte := (List.range n).map fun i => s.home (pa + i)

/-- A number of `n` bytes at its home, little-endian. -/
def State.homeNat (s : State) (pa n : Nat) : Nat := ofBytes (s.homeBytes pa n)

/-- The overlay without a byte. -/
def dropByte (m : Store (Option Byte)) (pa : Nat) : Store (Option Byte) := m.set none pa none

/-- The copies of the cores and dies without a byte, which a newer value at the home replaces. -/
def dropByteAll (m : Store (Store (Option Byte))) (pa : Nat) : Store (Store (Option Byte)) :=
  m.keys.foldl (fun m k => m.set [] k (dropByte (m.get [] k) pa)) m

/-- Writes one byte at its home; copies published at a narrower level are replaced, and the byte is sound again. -/
def State.homeWrite (s : State) (pa : Nat) (v : Byte) : State :=
  { s with
    mem := Store.set zeroByte s.mem pa v
    coreOv := dropByteAll s.coreOv pa
    dieOv := dropByteAll s.dieOv pa
    poison := s.poison.set false pa false }

/-- Writes bytes at consecutive home addresses. -/
def State.homeWriteBytes (s : State) (pa : Nat) : List Byte → State
  | [] => s
  | v :: r => State.homeWriteBytes (s.homeWrite pa v) (pa + 1) r

/-- What a row reads of a byte: its own stores, then what was published to its core, to its die, and the home (R295, R296,
R300). -/
def State.view (s : State) (row pa : Nat) : Byte :=
  match (s.bank row).pend.get none pa with
  | some v => v
  | none => match Store.get none (s.coreOv.get [] (coreOf row)) pa with
    | some v => v
    | none => match Store.get none (s.dieOv.get [] (dieOf row)) pa with
      | some v => v
      | none => s.home pa

/-- A store performed and not yet published (R295). -/
def State.pendWrite (s : State) (row pa : Nat) (v : Byte) : State :=
  s.modBank row fun b => { b with pend := b.pend.set none pa (some v) }

/-- Publishes the bytes of an overlay to the homes (R296). -/
def publishHome (s : State) : Store (Option Byte) → State
  | [] => s
  | (pa, some v) :: r => publishHome (s.homeWrite pa v) r
  | (_, none) :: r => publishHome s r

/-- The overlay with the bytes of another on top. -/
def overlay (base : Store (Option Byte)) : Store (Option Byte) → Store (Option Byte)
  | [] => base
  | (pa, v) :: r => overlay (base.set none pa v) r

/-- Publishes bytes at die level: those homed on the die reach the home, the others the die's copy (R296 level 1). -/
def publishDie (s : State) (die : Nat) : Store (Option Byte) → State
  | [] => s
  | (_, none) :: r => publishDie s die r
  | (pa, some v) :: r =>
    if paDie pa = die then publishDie (s.homeWrite pa v) die r
    else
      let ov := Store.set none (s.dieOv.get [] die) pa (some v)
      let cores := s.coreOv.map fun p => if dieOfCore p.1 = die then (p.1, dropByte p.2 pa) else p
      publishDie { s with dieOv := s.dieOv.set [] die ov, coreOv := cores.filter fun p => p.2 ≠ [] } die r

/-- The release of a row at a level: 0 core, 1 die, 2 package, 3 pair; 2 is also system scope (R296, R297). -/
def releaseAt (s : State) (row level : Nat) : State :=
  let c := coreOf row
  let d := dieOf row
  let own := overlay (s.bank row).under (s.bank row).pend
  let s := s.modBank row fun b => { b with pend := [], under := [] }
  match level with
  | 0 => { s with coreOv := s.coreOv.set [] c (overlay (s.coreOv.get [] c) own) }
  | 1 =>
    let all := overlay (s.coreOv.get [] c) own
    let s := { s with coreOv := s.coreOv.set [] c [] }
    publishDie s d all
  | _ =>
    let all := overlay (overlay (s.dieOv.get [] d) (s.coreOv.get [] c)) own
    let s := { s with coreOv := s.coreOv.set [] c [], dieOv := s.dieOv.set [] d [] }
    publishHome s all

/-- The bytes of a physical extent that an overlay holds are written back to the homes. -/
def writeBack (s : State) (pa size : Nat) (ov : Store (Option Byte)) : State :=
  publishHome s (ov.filter fun p => decide (pa ≤ p.1) && decide (p.1 < pa + size))

/-- Copies of an extent that cores and dies hold reach the home (R301; log entry 17). -/
def fetchHome (s : State) (pa n : Nat) : State :=
  let s := s.coreOv.foldl (fun s p => writeBack s pa n p.2) s
  s.dieOv.foldl (fun s p => writeBack s pa n p.2) s

/-! ### Page tables -/

/-- The physical address of an entry of the address-space root table (R327). -/
def rootAddr (asid : Asid) : Nat := 0x400000000000 + 8 * asid.toNat

/-- Whether a table may lie at a physical address: LPDDR or addressable SRAM, the scratch part of die memory included (R223, R328;
log entry 22). -/
def tablePlace (s : State) (pa : Nat) : Bool :=
  match regionOf s pa with
  | .lpddr | .sram | .tier | .scratch => true
  | .sysreg | .none => false

/-- ADDR of an entry, as a physical address (R329). -/
def pteAddr (e : Nat) : Nat := bitsOf e 51 12 * 4096
/-- FCNT of a leaf (R315, R329). -/
def pteFcnt (e : Nat) : Nat := bitsOf e 57 54
/-- A leaf with another FCNT. -/
def pteSetFcnt (e n : Nat) : Nat := e - pteFcnt e * 2 ^ 54 + n * 2 ^ 54

/-- The result of a walk (R330): a leaf with its extent and the place of its entry, or a cause. -/
inductive Walk where
  | leaf (pte : Nat) (vbase size : Nat) (at_ : Nat)
  | bad (cause : Nat)
  deriving DecidableEq, Repr

/-- Whether a pointer entry's fields are as R329 asks, for a next table of `size` bytes. -/
def pointerOk (s : State) (e size : Nat) : Bool :=
  decide (bitsOf e 61 52 = 0) && decide (pteAddr e % size = 0) && tablePlace s (pteAddr e)

/-- Whether a leaf entry's fields are as R329 and R330 ask. -/
def leafOk (s : State) (e size : Nat) : Bool :=
  decide (bitsOf e 52 52 = 0) && decide (pteAddr e % size = 0) &&
    (decide (bitsOf e 58 58 = 0) || (decide (size = 65536) && decide (regionOf s (pteAddr e) = .lpddr)))

/-- The walk of one level from a table on: `bits` are the low bits that a leaf here maps, `idx` the index bits of the level;
the levels below follow (R328, R330). -/
def walkFrom (s : State) (va : Nat) : List (Nat × Nat) → Nat → Walk
  | [], _ => .bad 0x07
  | (bits, idx) :: rest, table =>
    let at_ := table + 8 * (va / 2 ^ bits % 2 ^ idx)
    let e := s.homeNat at_ 8
    if bitsOf e 63 63 = 0 then .bad 0x06
    else if bitsOf e 62 62 = 1 then
      if leafOk s e (2 ^ bits) then .leaf e (va / 2 ^ bits * 2 ^ bits) (2 ^ bits) at_ else .bad 0x07
    else match rest with
      | [] => .bad 0x07
      | (_, idx') :: _ => if pointerOk s e (8 * 2 ^ idx') then walkFrom s va rest (pteAddr e) else .bad 0x07

/-- The walk of a virtual address in an address space (R327 to R330). -/
def walk (s : State) (asid : Asid) (va : Nat) : Walk :=
  let e := s.homeNat (rootAddr asid) 8
  if bitsOf e 63 63 = 0 then .bad 0x06
  else if bitsOf e 62 52 ≠ 0 ∨ bitsOf e 13 0 ≠ 0 ∨ ¬ tablePlace s (bitsOf e 51 14 * 16384) then .bad 0x07
  else walkFrom s va [(37, 11), (26, 11), (16, 10)] (bitsOf e 51 14 * 16384)

/-! ### The TLB -/

/-- Whether a TLB entry maps an address. -/
def TlbEntry.covers (t : TlbEntry) (asid : Asid) (va : Nat) : Bool :=
  t.asid == asid && decide (t.vbase ≤ va) && decide (va < t.vbase + t.size)

/-- The TLB of a core, most recently used first (R331). -/
def State.tlbOf (s : State) (c : Nat) : List TlbEntry := s.tlb.get [] c
/-- Writes the TLB of a core. -/
def State.setTlb (s : State) (c : Nat) (l : List TlbEntry) : State := { s with tlb := s.tlb.set [] c l }
/-- The entry that maps an address. -/
def tlbFind (s : State) (c : Nat) (asid : Asid) (va : Nat) : Option TlbEntry :=
  (s.tlbOf c).find? fun t => t.covers asid va

/-- The TLB with an entry as its most recently used, within 1,024 small and 64 larger leaves (R331). -/
def tlbPut (l : List TlbEntry) (t : TlbEntry) : List TlbEntry :=
  let l := t :: l.filter fun x => !(x.asid == t.asid && x.vbase == t.vbase)
  (l.filter fun x => decide (x.size = 65536)).take 1024 ++ (l.filter fun x => decide (x.size ≠ 65536)).take 64

/-- Enters a leaf in the TLB of a core. -/
def tlbInsert (s : State) (c : Nat) (asid : Asid) (pte vbase size : Nat) : State :=
  s.setTlb c (tlbPut (s.tlbOf c) ⟨asid, vbase, size, .ofNat 64 pte⟩)

/-- Drops the entries of an address space from one core's TLB (R333). -/
def tlbDrop (s : State) (c : Nat) (asid : Asid) : State :=
  s.setTlb c ((s.tlbOf c).filter fun t => t.asid != asid)

/-! ### Checked accesses -/

/-- The kinds of access that R225 checks. -/
inductive Access where
  | read | write | atomic | fetch
  deriving DecidableEq, Repr

/-- The right that an access needs at the target (R339). -/
def Access.right : Access → Right
  | .read => .rd | .write | .atomic => .wr | .fetch => .ex

/-- The bit of the leaf that an access needs (R329). -/
def Access.pteBit : Access → Nat
  | .read => 61 | .write | .atomic => 60 | .fetch => 59

/-- Whether an access writes. -/
def Access.writes : Access → Bool
  | .write | .atomic => true
  | .read | .fetch => false

/-- Where a virtual address leads: the task's scratch, or a physical address. -/
inductive Loc where
  | scratch (off : Nat)
  | phys (pa : Nat) (cmp : Bool)
  deriving DecidableEq, Repr

/-- A stretch of an access within one page. -/
structure Seg where
  va  : Nat
  len : Nat
  loc : Loc
  deriving DecidableEq, Repr

/-- The scratch window of R222. -/
def inScratch (va : Nat) : Bool := decide (0xFF0000000000 ≤ va) && decide (va ≤ 0xFF00017FFFFF)

/-- The answer of a translation. -/
inductive Trans where
  | ok (segs : List Seg)
  /-- the TLB lacks this page, and its walk ends in a leaf (R331) -/
  | miss (va : Nat)
  | bad (cause va : Nat)
  deriving DecidableEq, Repr

/-- The frames that the firmware holds outside every address space (R470; log entry 7). -/
def framePool : Nat := 8192
/-- The physical address of a frame of the pool. -/
def frameAddr (i : Nat) : Nat := 0x0004000C00000000 + 65536 * i
/-- The number of the frame at an address. -/
def frameIndex (pa : Nat) : Nat := (pa - frameAddr 0) / 65536

/-- The offset of the first of `n` bytes from a physical address that lies in an extent. -/
def meets (pa n base len : Nat) : Option Nat := if max pa base < min (pa + n) (base + len) then some (max pa base - pa) else none

/-- The offset of the first of `n` bytes that only the signal box may reach so: the root table when it is written (R327), the frame key
table (R462), a frame that the firmware holds (R470). -/
def boxOnly (s : State) (writes : Bool) (pa n : Nat) : Option Nat :=
  (if writes then meets pa n (rootAddr 0) 32768 else none) <|> meets pa n 0x400000800000 0x600000 <|>
    s.framesUsed.findSome? fun e => meets pa n (frameAddr e.1) 65536

/-- Whether a thaw's collection of the leaf of a physical address is under way: stores wait there instead of faulting on a stale copy of its
count (R322, R324). -/
def thawing (s : State) (pa : Nat) : Bool :=
  s.collects.any fun c => c.thaw && decide (c.outstanding ≠ 0) && decide (c.leaf ≤ pa) && decide (pa < c.leaf + c.size)

/-- The check of R225 row 5 on a leaf for one page; none when it passes. `master` is the accessor (R338). -/
def leafRight (s : State) (master : Nat) (asid : Asid) (k : Access) (pte pa : Nat) : Option Nat :=
  if bitsOf pte k.pteBit k.pteBit = 0 then some 0x07
  else match targetOf s pa with
    | none => some 0x07
    | some t => if hasRight s t k.right master asid then none else some 0x07

/-- The check of R225 row 6 on a leaf. -/
def leafFrozen (s : State) (k : Access) (pte pa : Nat) : Bool := k.writes && decide (pteFcnt pte ≠ 0) && !thawing s pa

/-- The checks of R225 rows 5 and 6 on `n` bytes of one page: none when they pass, else a cause and the offset that it names. -/
def leafCheck (s : State) (master : Nat) (asid : Asid) (k : Access) (pte pa n : Nat) : Option (Nat × Nat) :=
  match leafRight s master asid k pte pa with
  | some c => some (c, 0)
  | none => match boxOnly s k.writes pa n with
    | some i => some (0x07, i)
    | none => if leafFrozen s k pte pa then some (0x08, 0) else none

/-- The stretches of `n` bytes from `va` within 64 KiB pages, as address and length. -/
def pagesOf : Nat → Nat → Nat → List (Nat × Nat)
  | 0, _, _ => []
  | fuel + 1, va, n =>
    if n = 0 then []
    else
      let k := min n (65536 - va % 65536)
      (va, k) :: pagesOf fuel (va + k) (n - k)

/-- The leaf for an address: from the TLB, or from a walk when `walks`. -/
inductive LeafAt where
  | hit (pte vbase : Nat)
  | miss
  | bad (cause : Nat)
  deriving DecidableEq, Repr

/-- Looks an address up for a row: the TLB of its core first; a miss whose walk ends in a leaf is `miss` for an access-unit
instruction, which waits for the walk, and `hit` for fetches and engines (R331). -/
def leafFor (s : State) (row : Nat) (asid : Asid) (walks : Bool) (va : Nat) : LeafAt :=
  match tlbFind s (coreOf row) asid va with
  | some t => .hit t.pte.toNat t.vbase
  | none => match walk s asid va with
    | .bad c => .bad c
    | .leaf pte vbase _ _ => if walks then .hit pte vbase else .miss

/-- Translates and checks the pages of an access, lowest first (R225 rows 3 to 6). -/
def transPages (s : State) (row : Nat) (asid : Asid) (k : Access) (walks : Bool) : List (Nat × Nat) → Trans
  | [] => .ok []
  | (va, n) :: rest =>
    if inScratch va then
      let off := va - 0xFF0000000000
      let dmem := (s.bank row).decl.dmem
      if dmem < off + n then .bad 0x03 (max va (0xFF0000000000 + dmem))
      else match transPages s row asid k walks rest with
        | .ok l => .ok (⟨va, n, .scratch off⟩ :: l)
        | t => t
    else match leafFor s row asid walks va with
      | .bad c => .bad c va
      | .miss => .miss va
      | .hit pte vbase =>
        let pa := pteAddr pte + (va - vbase)
        match leafCheck s row asid k pte pa n with
        | some (c, i) => .bad c (va + i)
        | none => match transPages s row asid k walks rest with
          | .ok l => .ok (⟨va, n, .phys pa (decide (bitsOf pte 58 58 = 1))⟩ :: l)
          | t => t

/-- The checks of R225 rows 1 to 6 on an access of `n` bytes at `ea` with an alignment. -/
def translate (s : State) (row : Nat) (k : Access) (walks : Bool) (ea n align : Nat) : Trans :=
  if 2 ^ 48 ≤ ea then .bad 0x07 ea
  else if ea % align ≠ 0 then .bad 0x0E ea
  else if 2 ^ 48 < ea + n then .bad 0x07 (2 ^ 48)
  else transPages s row (s.row row).asid k walks (pagesOf (n / 65536 + 2) ea n)

/-- Enters the leaves of translated segments in the core's TLB, most recently used first (R331). -/
def tlbTouch (s : State) (row : Nat) : List Seg → State
  | [] => s
  | g :: r =>
    match g.loc with
    | .scratch _ => tlbTouch s row r
    | .phys _ _ =>
      let c := coreOf row
      let asid := (s.row row).asid
      match tlbFind s c asid g.va with
      | some t => tlbTouch (s.setTlb c (tlbPut (s.tlbOf c) t)) row r
      | none => match walk s asid g.va with
        | .leaf pte vbase size _ => tlbTouch (tlbInsert s c asid pte vbase size) row r
        | .bad _ => tlbTouch s row r

/-- Enters the leaves of a range in the core's TLB (R331). -/
def touchRange (s : State) (row va n : Nat) : State :=
  tlbTouch s row (((pagesOf (n / 65536 + 2) va n).filter fun p => !inScratch p.1).map fun p => ⟨p.1, p.2, .phys 0 false⟩)

/-- A byte of a segment, as the row reads it. -/
def locByte (s : State) (row : Nat) (l : Loc) (i : Nat) : Byte :=
  match l with
  | .scratch off => (s.bank row).scratch.get zeroByte (off + i)
  | .phys pa _ => s.view row (pa + i)

/-- The bytes of translated segments, in address order. -/
def segBytes (s : State) (row : Nat) (l : List Seg) : List Byte :=
  l.flatMap fun g => (List.range g.len).map fun i => locByte s row g.loc i

/-- Changes every entry of the six engine queues of a bank. -/
def Bank.mapEngs (b : Bank) (f : EngEntry → EngEntry) : Bank :=
  { b with mx := b.mx.map f, cp := b.cp.map f, kv := b.kv.map f, xg := b.xg.map f, sp := b.sp.map f, wn := b.wn.map f }

/-- The name of a byte of a location among the bytes that engine entries remember. -/
def locKey (l : Loc) (i : Nat) : Nat :=
  match l with
  | .scratch off => 2 ^ 60 + off + i
  | .phys pa _ => pa + i

/-- Remembers, for every entry pushed before, what a byte held that the task now stores to (R310). -/
def keepOld (b : Bank) (key : Nat) (v : Byte) : Bank :=
  b.mapEngs fun x => if x.old.get none key = none then { x with old := x.old.set none key (some v) } else x

/-- A byte that an engine writes: no entry reads an older value of it any more. -/
def dropOld (b : Bank) (key : Nat) : Bank := b.mapEngs fun x => { x with old := x.old.set none key none }

/-- A byte as a command of an engine reads it: with the view that its PUSH released (R310). -/
def engByte (s : State) (row : Nat) (x : EngEntry) (l : Loc) (i : Nat) : Byte :=
  (x.old.get none (locKey l i)).getD (locByte s row l i)

/-- The bytes of translated segments as a command reads them. -/
def engBytes (s : State) (row : Nat) (x : EngEntry) (l : List Seg) : List Byte :=
  l.flatMap fun g => (List.range g.len).map fun i => engByte s row x g.loc i

/-- Whether a byte of memory holds an uncorrectable error; in a compressed page the whole 512-byte sector counts (R225,
R337). -/
def badByte (s : State) (pa : Nat) (cmp : Bool) : Bool :=
  if cmp then s.poison.any fun p => p.2 && decide (p.1 / 512 = pa / 512) else s.poison.get false pa

/-- The virtual address of the first byte of a row's segments that holds an uncorrectable error. -/
def segPoison (s : State) (row : Nat) (l : List Seg) : Option Nat :=
  if s.poison = [] ∧ (s.bank row).scratchBad = [] then none
  else l.findSome? fun g => match g.loc with
    | .scratch off => ((List.range g.len).find? fun i => (s.bank row).scratchBad.get false (off + i)).map fun i => g.va + i
    | .phys pa cmp => ((List.range g.len).find? fun i => badByte s (pa + i) cmp).map fun i => g.va + i

/-- Writes a byte of a task's scratch. -/
def Bank.putScratch (b : Bank) (off : Nat) (v : Byte) : Bank :=
  { b with scratch := b.scratch.set zeroByte off v, scratchBad := b.scratchBad.set false off false }

/-- A task or a copy has stored to a byte: the check words of a key-value frame there are stale (R344). -/
def markStale (s : State) (pa : Nat) : State := { s with stale := s.stale.set false pa true }

/-- Writes one byte of a row's store: its scratch, or a performed store (R222, R295). -/
def locWrite (s : State) (row : Nat) (l : Loc) (i : Nat) (v : Byte) : State :=
  let s := s.modBank row fun b => keepOld b (locKey l i) (locByte s row l i)
  match l with
  | .scratch off => s.modBank row fun b => b.putScratch (off + i) v
  | .phys pa _ => markStale (s.pendWrite row (pa + i) v) (pa + i)

/-- Writes bytes from position `i` of a location; `none` leaves the byte as it is. -/
def locWriteBytes (s : State) (row : Nat) (l : Loc) (i : Nat) : List (Option Byte) → State
  | [] => s
  | none :: r => locWriteBytes s row l (i + 1) r
  | some v :: r => locWriteBytes (locWrite s row l i v) row l (i + 1) r

/-- Performs a store over segments (R227). -/
def segWrite (s : State) (row : Nat) : List Seg → List (Option Byte) → State
  | [], _ => s
  | g :: r, bs => segWrite (locWriteBytes s row g.loc 0 (bs.take g.len)) row r (bs.drop g.len)

/-- Writes one byte for an engine or the device: at the home, or in the task's scratch. -/
def locHomeWrite (s : State) (row : Nat) (l : Loc) (i : Nat) (v : Byte) : State :=
  let s := s.modBank row fun b => dropOld b (locKey l i)
  match l with
  | .scratch off => s.modBank row fun b => b.putScratch (off + i) v
  | .phys pa _ =>
    markStale ((s.modBank row fun b => { b with pend := dropByte b.pend (pa + i), under := dropByte b.under (pa + i) }).homeWrite (pa + i) v) (pa + i)

/-- Writes bytes for an engine from position `i` of a location. -/
def locHomeWriteBytes (s : State) (row : Nat) (l : Loc) (i : Nat) : List Byte → State
  | [] => s
  | v :: r => locHomeWriteBytes (locHomeWrite s row l i v) row l (i + 1) r

/-- Writes bytes for an engine over segments; the command's end publishes them (R305, R310). -/
def segHomeWrite (s : State) (row : Nat) : List Seg → List Byte → State
  | [], _ => s
  | g :: r, bs => segHomeWrite (locHomeWriteBytes s row g.loc 0 (bs.take g.len)) row r (bs.drop g.len)

/-! ### Ownership -/

/-- The owners of a subpage; all act for one row (R303, R306). -/
def State.owners (s : State) (sub : Nat) : List Owner := s.dir.get [] sub

/-- The row that an owner acts for. -/
def Owner.row : Owner → Nat
  | .task r => r
  | .cmd r _ _ => r

/-- Whether a row holds a subpage, in its task's name or a command's (R306). -/
def ownedBy (s : State) (row sub : Nat) : Bool := (s.owners sub).any fun o => decide (o.row = row)

/-- Whether another row holds a subpage. -/
def ownedByOther (s : State) (row sub : Nat) : Bool := (s.owners sub).any fun o => decide (o.row ≠ row)

/-- Adds an owner to a subpage. -/
def addOwner (s : State) (o : Owner) (sub : Nat) : State :=
  let l := s.owners sub
  { s with dir := s.dir.set [] sub (if l.contains o then l else o :: l) }

/-- Adds an owner to subpages. -/
def addOwners (s : State) (o : Owner) : List Nat → State
  | [] => s
  | x :: r => addOwners (addOwner s o x) o r

/-- Ends every ownership that a predicate names (R305). -/
def endOwners (s : State) (p : Owner → Bool) : State :=
  { s with dir := (s.dir.map fun e => (e.1, e.2.filter fun o => !p o)).filter fun e => e.2 ≠ [] }

/-- Ends the ownership of a task's phase (R305). -/
def endPhase (s : State) (row : Nat) : State := endOwners s fun o => o == .task row

/-- The physical subpages that segments touch, outside scratch and system registers (R303, R307). -/
def subpagesOf (s : State) (l : List Seg) : List Nat :=
  (l.flatMap fun g => match g.loc with
    | .scratch _ => []
    | .phys pa _ =>
      if regionOf s pa = .sysreg then []
      else (List.range ((pa + g.len - 1) / 4096 - pa / 4096 + 1)).map fun i => pa / 4096 + i).eraseDups

/-- Whether segments touch a system register. -/
def touchesSysreg (s : State) (l : List Seg) : Bool :=
  l.any fun g => match g.loc with
    | .scratch _ => false
    | .phys pa _ => regionOf s pa == .sysreg

/-- Whether segments lie in system registers (R468). -/
def inSysreg (s : State) (l : List Seg) : Option Nat :=
  match l with
  | [⟨_, _, .phys pa _⟩] => if regionOf s pa = .sysreg then some pa else none
  | _ => none

/-- Whether a frame is being migrated from, or a leaf of it collected: requests wait there (R322, R334). -/
def homeBusy (s : State) (sub : Nat) : Bool :=
  (s.moving.any fun m => decide (m.frm / 65536 = sub / 16)) ||
    (s.collects.any fun c => decide (c.outstanding ≠ 0) && decide (c.leaf ≤ sub * 4096) && decide (sub * 4096 < c.leaf + c.size))

/-- Whether segments overlap an atomic of the task that has still to execute (R230). -/
def meetsAtomic (b : Bank) (l : List Seg) : Bool :=
  l.any fun g => b.atomics.any fun a =>
    let w := if a.w8 then 8 else 4
    decide (locKey g.loc 0 < a.pa + w) && decide (a.pa < locKey g.loc g.len)

/-- Copies of subpages that cores and dies hold reach the home before a new grant, so that stores follow those of earlier grants (R301; log
entry 17). -/
def settle (s : State) (subs : List Nat) : State := subs.foldl (fun s p => fetchHome s (4096 * p) 4096) s

/-- A release that bounds a phase: publication at a level, then the end of the task's ownership (R295, R305). -/
def phaseRelease (s : State) (row level : Nat) : State := endPhase (releaseAt s row level) row

end Sys2Proof.Machine
end

