-- ==== Sys2Proof/Machine/Regs.lean ====
section
/-! DEFINITION. The system registers of the dies, read and written as 8-byte words by the field rules of R7 and R468. -/

namespace Sys2Proof.Machine

/-- Bits `hi` to `lo` of a stored word, with those of `new` where `mask` has them (R468). -/
def mergeBits (old new mask : Nat) : Nat := (old &&& (2 ^ 64 - 1 - mask % 2 ^ 64)) ||| (new &&& mask % 2 ^ 64)

/-- Row codes of the task states (R51). -/
def TaskState.code : TaskState → Nat
  | .free => 0 | .bound => 1 | .running => 2 | .waiting => 3 | .faulted => 4 | .saving => 5 | .halting => 6

/-- A launch queue. -/
def State.queue (s : State) (k : Nat) : LaunchQueue := s.lnq.get LaunchQueue.reset k
/-- Writes a launch queue. -/
def State.setQueue (s : State) (k : Nat) (q : LaunchQueue) : State := { s with lnq := s.lnq.set LaunchQueue.reset k q }
/-- Number of slots of a queue (R39). -/
def LaunchQueue.size (q : LaunchQueue) : Nat := 2 ^ q.sizelog.toNat
/-- Physical address of a slot (R39). -/
def LaunchQueue.slotAddr (q : LaunchQueue) (i : Nat) : Nat := q.base.toNat * 4096 + 256 * (i % q.size)

/-- Whether every slot of a queue lies in LPDDR or addressable SRAM of one die (R39 BADBASE; log entry 22). -/
def slotsOk (s : State) (q : LaunchQueue) : Bool :=
  (List.range q.size).all fun i =>
    let a := q.slotAddr i
    tablePlace s a && tablePlace s (a + 255) && decide (paDie a = paDie (a + 255)) &&
      decide (paDie a = paDie (q.slotAddr 0))

/-- The doorbell: a write of LNQTAIL (R41). -/
def doorbellOp (s : State) (k : Nat) (tail : BitVec 32) : State :=
  let q := s.queue k
  let up := (tail - q.tail).toNat
  if q.devfeed then s.setQueue k { q with misuse := true }
  else if 1 ≤ up ∧ up ≤ q.size ∧ (tail - q.head).toNat ≤ q.size then
    let s := s.setQueue k { q with tail := tail }
    if s.devstat.pwr = 3 then { s with agenda := s.agenda ++ [.event .wake] }
    else { s with agenda := s.agenda ++ [.event .schedulingPass] }
  else s.setQueue k { q with ovf := true }

/-- What is known of the dependences of a queue's head launch is dropped: another record may stand at SEL (R35). -/
def LaunchQueue.forget (q : LaunchQueue) : LaunchQueue := { q with met := 0, hopeless := false, eligible := none }

/-- A write of LNQCFG (R39): PRIO always; SIZELOG and DEVFEED while EN is 0; EN against the slots' places. -/
def lnqcfgPut (s : State) (k v : Nat) : State :=
  let q := s.queue k
  let q := { q with prio := .ofNat 3 (bitsOf v 10 8) }
  let size := bitsOf v 3 0
  let q := if q.en then q else
    { q.forget with
      devfeed := decide (bitsOf v 17 17 = 1), sizelog := if 1 ≤ size ∧ size ≤ 12 then .ofNat 4 size else q.sizelog }
  let want := decide (bitsOf v 16 16 = 1)
  let q := if want && !q.en && !slotsOk s q then { q with badbase := true } else { q with en := want }
  s.setQueue k q

/-- The words of a launch queue (R39). -/
def lnqGet (q : LaunchQueue) (off : Nat) : Nat :=
  match off with
  | 0x00 => q.base.toNat * 4096
  | 0x08 => q.devfeed.toNat * 2 ^ 17 + q.en.toNat * 2 ^ 16 + q.prio.toNat * 2 ^ 8 + q.sizelog.toNat
  | 0x10 => q.tail.toNat
  | 0x18 => q.sel.toNat * 2 ^ 32 + q.head.toNat
  | 0x20 => q.lastwhy.toNat * 2 ^ 8 + q.misuse.toNat * 4 + q.badbase.toNat * 2 + q.ovf.toNat
  | _ => 0

/-- A write of a launch-queue register (R39); `new` and `mask` are the written bits. -/
def lnqPut (s : State) (k off new mask : Nat) : State :=
  let q := s.queue k
  let v := mergeBits (lnqGet q off) new mask
  let w1c := new &&& mask
  match off with
  | 0x00 => if q.en then s else s.setQueue k { q.forget with base := .ofNat 40 (bitsOf v 51 12) }
  | 0x08 => lnqcfgPut s k v
  | 0x10 => if mask % 2 ^ 32 = 0 then s else doorbellOp s k (.ofNat 32 v)
  | 0x20 => s.setQueue k { q with
      misuse := q.misuse && decide (bitsOf w1c 2 2 = 0)
      badbase := q.badbase && decide (bitsOf w1c 1 1 = 0)
      ovf := q.ovf && decide (bitsOf w1c 0 0 = 0) }
  | _ => s

/-- The words of a timetable row (R59). -/
def ttGet (r : Row) (off : Nat) : Nat :=
  match off with
  | 0x00 => r.asid.toNat * 2 ^ 48 + r.task.toNat * 2 ^ 32 + r.launch.toNat * 2 ^ 16 + r.prio.toNat * 2 ^ 13 +
      r.gang.toNat * 2 ^ 12 + r.pinned.toNat * 2 ^ 11 + r.hold.toNat * 2 ^ 10 + r.resume.toNat * 2 ^ 7 +
      r.operr.toNat * 2 ^ 6 + r.state.code
  | 0x08 => r.image.toNat * 2 ^ 16
  | 0x10 => r.gv.toNat * 2 ^ 32 + r.gidx.toNat
  | 0x18 => r.save.toNat * 4096
  | _ => 0

/-- A write of a timetable word by the signal box (R59); the OP in TTCTL acts besides. -/
def ttPut (r : Row) (off v : Nat) : Row :=
  match off with
  | 0x00 => { r with
      asid := .ofNat 12 (bitsOf v 59 48), task := .ofNat 16 (bitsOf v 47 32), launch := .ofNat 16 (bitsOf v 31 16)
      prio := .ofNat 3 (bitsOf v 15 13), gang := decide (bitsOf v 12 12 = 1), pinned := decide (bitsOf v 11 11 = 1)
      hold := decide (bitsOf v 10 10 = 1), op := .ofNat 2 (bitsOf v 9 8), resume := decide (bitsOf v 7 7 = 1) }
  | 0x08 => { r with image := .ofNat 32 (bitsOf v 47 16) }
  | 0x10 => { r with gv := .ofNat 4 (bitsOf v 35 32), gidx := .ofNat 32 (bitsOf v 31 0) }
  | 0x18 => { r with save := .ofNat 40 (bitsOf v 51 12) }
  | _ => r

/-- The words of a group-table entry (R54). -/
def gtGet (g : Group) (off : Nat) : Nat :=
  match off with
  | 0x00 => g.cmask.toNat
  | 0x08 => g.level.toNat * 2 ^ 48 + g.asid.toNat * 2 ^ 36 + g.gang.toNat * 2 ^ 35 + g.valid.toNat * 2 ^ 34 + g.expect.toNat
  | 0x10 => g.gen.toNat * 2 ^ 63 + g.arrived.toNat
  | 0x18 => g.key.toNat
  | _ => 0

/-- A write of a group-table word by the signal box (R54); GTBAR is read-only. -/
def gtPut (g : Group) (off v : Nat) : Group :=
  match off with
  | 0x00 => { g with cmask := .ofNat 36 (bitsOf v 35 0) }
  | 0x08 => { g with level := .ofNat 2 (bitsOf v 49 48), asid := .ofNat 12 (bitsOf v 47 36)
                     gang := decide (bitsOf v 35 35 = 1), valid := decide (bitsOf v 34 34 = 1), expect := .ofNat 17 (bitsOf v 16 0) }
  | 0x18 => { g with key := .ofNat 16 (bitsOf v 15 0) }
  | _ => g

/-- DEVSTAT (R452). -/
def DevStat.word (d : DevStat) : Nat :=
  d.booterr.toNat * 2 ^ 32 + d.stage.toNat * 2 ^ 16 + d.pairdown.toNat * 2 ^ 7 + d.pairup.toNat * 2 ^ 6 +
    d.ptmlock.toNat * 2 ^ 5 + d.secure.toNat * 2 ^ 4 + d.pwr.toNat * 4 + d.mboxbusy.toNat * 2 + d.ready.toNat

/-- A write of DEVSTAT: PAIRDOWN is cleared by 1; WAKE and MBOX act (R452, R453). -/
def devstatPut (s : State) (w1 : Nat) : State :=
  let d := s.devstat
  let d := { d with pairdown := d.pairdown && decide (bitsOf w1 7 7 = 0) }
  let ring := decide (bitsOf w1 22 22 = 1) && d.ready && !d.mboxbusy
  let s := { s with devstat := { d with mboxbusy := d.mboxbusy || ring } }
  if bitsOf w1 23 23 = 1 ∧ s.devstat.pwr = 3 then { s with agenda := s.agenda ++ [.event .wake] } else s

/-- The KIMGPOL value that a write leaves (R30). -/
def kimgpolMask (v : Nat) : Nat := v &&& 0x1FF01

/-- A write of KIMGPOL (R30, R32): ignored while locked; otherwise checked bits go, and entries without a live launch leave. -/
def kimgpolPut (s : State) (v : Nat) : State :=
  if bitsOf s.kimgpol.toNat 16 16 = 1 then s
  else { s with
    kimgpol := .ofNat 64 (kimgpolMask v)
    images := (s.images.filter fun e => decide (e.live ≠ 0) || e.frozen).map fun e => { e with checked := false } }

/-- Whether a task bound on a die's cores declares scratch (R221). -/
def scratchInUse (s : State) (die : Nat) : Bool :=
  (List.range 8).any fun i => decide ((s.row (8 * die + i)).state ≠ .free) && decide ((s.bank (8 * die + i)).decl.dmem ≠ 0)

/-- A die's cache is written back to the homes and holds nothing more. -/
def writeBackDie (s : State) (die : Nat) : State := publishHome { s with dieOv := s.dieOv.set [] die [] } (s.dieOv.get [] die)

/-- A write of DMCFG of a matrix die: an accepted one first writes back and invalidates the die's cache (R221, R377). -/
def dmcfgPut (s : State) (die v : Nat) : State :=
  let scr := v % 8
  if scr = 7 ∨ scratchInUse s die ∨ (scr = 6 ∧ s.xgcfg.get false die) then s
  else
    let s := writeBackDie s die
    { s with dmcfg := s.dmcfg.set 0 die (.ofNat 3 scr) }

/-- The slots of a die that are not free (R377). -/
def slotsUsed (s : State) (die : Nat) : Nat :=
  ((List.range 16).filter fun i => decide ((s.slots.get XSlot.reset (16 * die + i)).state ≠ .free)).length

/-- A write of XGCFG; one that sets EN takes the slots' memory from the die's cache, which it first writes back and invalidates (R377). -/
def xgcfgPut (s : State) (die v : Nat) : State :=
  let on := decide (v % 2 = 1)
  if on && decide (5 ≤ die) && decide (s.dmcfg.get 0 die = 6) then s
  else if !on && decide (slotsUsed s die ≠ 0) then s
  else
    let s := if on && !s.xgcfg.get false die then writeBackDie s die else s
    { s with xgcfg := s.xgcfg.set false die on }

/-- A system register as an 8-byte word (R151, R221, R370, R377); an unlisted offset reads zero. -/
def regGet (s : State) (die off : Nat) : Nat :=
  if die = 0 then
    if off = 0 then s.devstat.word
    else if off = 0x100 then s.kimgpol.toNat
    else if 0x10000 ≤ off ∧ off < 0x10400 then lnqGet (s.queue ((off - 0x10000) / 64)) (off % 64)
    else if 0x20000 ≤ off ∧ off < 0x20900 then ttGet (s.row ((off - 0x20000) / 32)) (off % 32)
    else if 0x30000 ≤ off ∧ off < 0x32000 then gtGet (s.group ((off - 0x30000) / 32)) (off % 32)
    else 0
  else if off = 0x200 ∧ 5 ≤ die then (s.dmcfg.get 0 die).toNat
  else if off = 0x300 ∧ die ≤ 4 then
    let p := s.kverrpol.get (false, 0) die
    p.2.toNat * 2 ^ 16 + p.1.toNat
  else if off = 0x400 then (16 - slotsUsed s die) * 2 ^ 16 + (s.xgcfg.get false die).toNat
  else 0

/-- A write of a system register; `new` under `mask` are the bits written (R468). -/
def regPut (s : State) (master die off new mask : Nat) : State :=
  let v := mergeBits (regGet s die off) new mask
  if die = 0 then
    if off = 0 then devstatPut s (new &&& mask)
    else if off = 0x100 then kimgpolPut s v
    else if 0x10000 ≤ off ∧ off < 0x10400 then lnqPut s ((off - 0x10000) / 64) (off % 64) new mask
    else if 0x20000 ≤ off ∧ off < 0x20900 then
      if master = 127 then s.modRow ((off - 0x20000) / 32) fun r => ttPut r (off % 32) v else s
    else if 0x30000 ≤ off ∧ off < 0x32000 then
      if master = 127 then s.setGroup ((off - 0x30000) / 32) (gtPut (s.group ((off - 0x30000) / 32)) (off % 32) v) else s
    else s
  else if off = 0x200 ∧ 5 ≤ die then dmcfgPut s die v
  else if off = 0x300 ∧ die ≤ 4 then
    { s with kverrpol := s.kverrpol.set (false, 0) die (decide (v % 2 = 1), .ofNat 32 (bitsOf v 47 16)) }
  else if off = 0x400 then xgcfgPut s die v
  else s

/-- `n` bytes of the system registers from a physical address on (R468). -/
def sysRead (s : State) (pa n : Nat) : List Byte :=
  (List.range n).map fun i =>
    let o := paOff (pa + i) - 0x7F0000000000
    BitVec.ofNat 8 (regGet s (paDie (pa + i)) (o / 8 * 8) / 2 ^ (8 * (o % 8)))

/-- Writes up to 8 bytes that lie in one system register (R468). -/
def sysWrite (s : State) (master pa : Nat) (bs : List Byte) : State :=
  let o := paOff pa - 0x7F0000000000
  let sh := 8 * (o % 8)
  regPut s master (paDie pa) (o / 8 * 8) (ofBytes bs * 2 ^ sh) ((2 ^ (8 * bs.length) - 1) * 2 ^ sh)

end Sys2Proof.Machine
end

