-- ==== Sys2Proof/Machine/Ops.lean ====
section
/-! DEFINITION. The shared operations of the three issuing units: registers, data queues, landing of results, stalls,
completion objects, taking a fault, the trap handler's entry and its return (chapters 05, 06 and 23). -/

namespace Sys2Proof.Machine

/-! ### Registers of a bank -/

/-- A scalar register; s0 reads zero (R95). -/
def Bank.sreg (b : Bank) (n : BitVec 6) : W64 := if n = 0 then 0 else b.sregs.get 0 n.toNat
/-- A condition register; c0 reads true (R95). -/
def Bank.creg (b : Bank) (n : BitVec 4) : Bool := if n = 0 then true else b.cregs.get false n.toNat
/-- An address register; a0 reads zero (R95). -/
def Bank.areg (b : Bank) (n : BitVec 5) : W64 := if n = 0 then 0 else b.aregs.get 0 n.toNat
/-- A physical vector register. -/
def Bank.vreg (b : Bank) (n : Nat) : VWord := b.vregs.get 0 n
/-- A mask register; m0 reads all ones (R95). -/
def Bank.mreg (b : Bank) (n : BitVec 6) : MWord := if n = 0 then MWord.ones else b.mregs.get 0 n.toNat

/-- Writes a scalar register; s0 discards (R96). -/
def Bank.setS (b : Bank) (n : BitVec 6) (v : W64) : Bank :=
  if n = 0 then b else { b with sregs := b.sregs.set 0 n.toNat v }
/-- Writes a condition register; c0 discards (R96). -/
def Bank.setC (b : Bank) (n : BitVec 4) (v : Bool) : Bank :=
  if n = 0 then b else { b with cregs := b.cregs.set false n.toNat v }
/-- Writes an address register; a0 discards (R96). -/
def Bank.setA (b : Bank) (n : BitVec 5) (v : W64) : Bank :=
  if n = 0 then b else { b with aregs := b.aregs.set 0 n.toNat v }
/-- Writes the enabled bits of a physical vector register (R172). -/
def Bank.setV (b : Bank) (n : Nat) (data en : VWord) : Bank :=
  { b with vregs := b.vregs.set 0 n ((b.vreg n &&& ~~~en) ||| (data &&& en)) }
/-- Writes the enabled bits of a mask register; m0 discards (R96, R112). -/
def Bank.setM (b : Bank) (n : BitVec 6) (data en : MWord) : Bank :=
  if n = 0 then b else { b with mregs := b.mregs.set 0 n.toNat ((b.mreg n &&& ~~~en) ||| (data &&& en)) }

/-- The physical number of a vector register under a rotating base (R109). -/
def physReg (rb : BitVec 7) (n : Nat) : Nat := if n < 128 then n else 128 + (n - 128 + rb.toNat) % 128

/-! ### Word queues and vector queues -/

/-- Depth of the word queues (R95). -/
def wordDepth : Nat := 16
/-- Depth of the load and store queues (R95). -/
def vecDepth : Nat := 8

/-- A word queue. -/
def Bank.wordQ (b : Bank) : WordQ → List WordEntry
  | .xq => b.xq | .aq => b.aq | .ssq => b.ssq | .cq => b.cq | .rq => b.rq
/-- Writes a word queue. -/
def Bank.setWordQ (b : Bank) (q : WordQ) (l : List WordEntry) : Bank :=
  match q with
  | .xq => { b with xq := l } | .aq => { b with aq := l } | .ssq => { b with ssq := l } | .cq => { b with cq := l }
  | .rq => { b with rq := l }
/-- A load queue. -/
def Bank.loadQ (b : Bank) (q : BitVec 3) : List VEntry := b.lq.get [] q.toNat
/-- Writes a load queue. -/
def Bank.setLoadQ (b : Bank) (q : BitVec 3) (l : List VEntry) : Bank := { b with lq := b.lq.set [] q.toNat l }
/-- A store queue. -/
def Bank.storeQ (b : Bank) (q : BitVec 3) : List VEntry := b.sq.get [] q.toNat
/-- Writes a store queue. -/
def Bank.setStoreQ (b : Bank) (q : BitVec 3) (l : List VEntry) : Bank := { b with sq := b.sq.set [] q.toNat l }

/-- The instruction queue of a unit (R72). -/
def Bank.queue (b : Bank) : UnitId → List QEntry
  | .S => b.sQueue | .A => b.aQueue | .V => b.vQueue
/-- The entry at the head of a unit's queue, or an empty one. -/
def Bank.headEntry (b : Bank) (u : UnitId) : QEntry := (b.queue u).headD ⟨0, 0, 0, 0, 0, 0⟩

/-- The place in dispatch order of the line of the instruction at a unit's head; eight numbers go to each line (R72). -/
def Bank.lineNow (b : Bank) (u : UnitId) : Nat := (b.headEntry u).seq / 8

/-- The unit whose instructions produce into a word queue (R104). -/
def WordQ.producer : WordQ → UnitId
  | .xq | .aq | .ssq => .S
  | .cq => .V
  | .rq => .A
/-- The unit whose instructions read a word queue (R104). -/
def WordQ.reader : WordQ → UnitId
  | .xq => .V
  | .aq | .ssq => .A
  | .cq | .rq => .S

/-- Reserves the tail entry of a word queue and names it (R106). -/
def Bank.reserveWord (b : Bank) (q : WordQ) : Bank :=
  { (b.setWordQ q (b.wordQ q ++ [⟨b.nextId, b.lineNow q.producer, none, none⟩])) with nextId := b.nextId + 1 }
/-- Reserves the tail entry of a load queue for an LDV of a line, or for a stream, whose entries count for every line (R106, R107). -/
def Bank.reserveLoad (b : Bank) (q : BitVec 3) (line : Nat) : Bank :=
  { (b.setLoadQ q (b.loadQ q ++ [⟨b.nextId, line, none, 0, none⟩])) with nextId := b.nextId + 1 }
/-- Reserves the tail entry of a store queue (R106). -/
def Bank.reserveStore (b : Bank) (q : BitVec 3) : Bank :=
  { (b.setStoreQ q (b.storeQ q ++ [⟨b.nextId, b.lineNow .V, none, 0, none⟩])) with nextId := b.nextId + 1 }

/-- Fills the reserved entry of a word queue. -/
def fillWord (l : List WordEntry) (id : Nat) (v : W64) (err : Option W64) : List WordEntry :=
  l.map fun e => if e.id = id then { e with val := some v, err := err } else e
/-- Fills the reserved entry of a vector queue. -/
def fillVec (l : List VEntry) (id : Nat) (v : VWord) (en : MWord) (err : Option W64) : List VEntry :=
  l.map fun e => if e.id = id then { e with val := some v, en := en, err := err } else e

/-- The filled head of a word queue. -/
def headWord : List WordEntry → Option W64
  | [] => none
  | e :: _ => e.val
/-- The filled head of a vector queue. -/
def headVec : List VEntry → Option VEntry
  | [] => none
  | e :: _ => if e.val.isSome then some e else none

/-! ### Results -/

/-- Writes the bytes of a tile result into the accumulator half, whose granules become present and dirty and whose words are sound (R215,
R245). -/
def Bank.writeAcc (b : Bank) : List (Nat × Byte) → Bank
  | [] => b
  | (o, v) :: r =>
    Bank.writeAcc { b with
      acc := b.acc.set zeroByte o v
      accBad := b.accBad.set false (o / 8) false
      dirty := b.dirty.set false (o / 512) true } r

/-- A result reaches its place (R98 to R101, R104). -/
def Bank.land (b : Bank) : Result → Bank
  | .sreg n v => b.setS n v
  | .creg n v => b.setC n v
  | .areg n v => b.setA n v
  | .vreg p data en => b.setV p data en
  | .mreg n data en => b.setM n data en
  | .word q id v => b.setWordQ q (fillWord (b.wordQ q) id v none)
  | .sq q id data en => b.setStoreQ q (fillVec (b.storeQ q) id data en none)
  | .tile bytes => b.writeAcc bytes

/-- Results reach their places in order. -/
def Bank.landAll (b : Bank) (l : List Result) : Bank := l.foldl Bank.land b

/-- Landing-buffer entries after one more cycle. -/
def flightRest (l : List InFlight) : List InFlight :=
  (l.filter fun f => decide (1 < f.rem)).map fun f => { f with rem := f.rem - 1 }
/-- The results that land in that cycle, in issue order (R99). -/
def flightDue (l : List InFlight) : List Result :=
  (l.filter fun f => decide (f.rem ≤ 1)).flatMap InFlight.res

/-- The landing buffer of a unit (R101). -/
def Bank.flight (b : Bank) : UnitId → List InFlight
  | .S => b.flightS | .A => b.flightA | .V => b.flightV
/-- Writes the landing buffer of a unit. -/
def Bank.setFlight (b : Bank) (u : UnitId) (l : List InFlight) : Bank :=
  match u with
  | .S => { b with flightS := l } | .A => { b with flightA := l } | .V => { b with flightV := l }

/-- One advancing cycle of a unit: its due results land (R98). -/
def Bank.advance (b : Bank) (u : UnitId) : Bank :=
  (b.setFlight u (flightRest (b.flight u))).landAll (flightDue (b.flight u))

/-- One core cycle of the results bound for data queues and tiles (R102, R104, R215). -/
def Bank.advanceQ (b : Bank) : Bank :=
  { b with flightQ := flightRest b.flightQ }.landAll (flightDue b.flightQ)

/-- Results of a unit in flight to registers, with a latency (R97). -/
def Bank.send (b : Bank) (u : UnitId) (lat : Nat) (res : List Result) : Bank :=
  if res = [] then b else b.setFlight u (b.flight u ++ [⟨lat, res⟩])
/-- Results in flight to data queues or tiles, counted in core cycles (R104). -/
def Bank.sendQ (b : Bank) (lat : Nat) (res : List Result) : Bank :=
  if res = [] then b else { b with flightQ := b.flightQ ++ [⟨lat, res⟩] }

/-- The unit whose instruction gave a result bound for a data queue or a tile (R104, R215). -/
def Result.source : Result → UnitId
  | .word q _ _ => q.producer
  | .sreg _ _ | .creg _ _ => .S
  | .areg _ _ => .A
  | .vreg .. | .mreg .. | .sq .. | .tile _ => .V

/-- Landing-buffer entries that a unit holds (R101). -/
def Bank.inFlight (b : Bank) (u : UnitId) : Nat :=
  (b.flight u).length + (b.flightQ.filter fun f => f.res.any fun r => r.source == u).length

/-! ### Unit queues -/

/-- Writes the instruction queue of a unit. -/
def Bank.setQueue (b : Bank) (u : UnitId) (l : List QEntry) : Bank :=
  match u with
  | .S => { b with sQueue := l } | .A => { b with aQueue := l } | .V => { b with vQueue := l }
/-- Consecutive stalled cycles of a unit on a queue (R108). -/
def Bank.stall (b : Bank) : UnitId → Nat
  | .S => b.stallS | .A => b.stallA | .V => b.stallV
/-- Writes the stall count of a unit. -/
def Bank.setStall (b : Bank) (u : UnitId) (n : Nat) : Bank :=
  match u with
  | .S => { b with stallS := n } | .A => { b with stallA := n } | .V => { b with stallV := n }
/-- Whether a unit has stopped under a fault (R430). -/
def Bank.stopped (b : Bank) : UnitId → Bool
  | .S => b.stopS | .A => b.stopA | .V => b.stopV
/-- Stops or releases a unit. -/
def Bank.setStop (b : Bank) (u : UnitId) (v : Bool) : Bank :=
  match u with
  | .S => { b with stopS := v } | .A => { b with stopA := v } | .V => { b with stopV := v }

/-- Whether the task's HALT has issued; from then on results in flight count core cycles (R74, R143). -/
def Bank.halting (b : Bank) : Bool :=
  match b.sWait with
  | .halting _ => true
  | .idle | .released | .arrived _ | .freezing _ _ | .acking | .frozen | .counting _ _ | .realigning _ => false

/-- The step of a unit's pipeline in a cycle in which it issues; after HALT the core cycles drive it instead (R98, R143). -/
def Bank.stepUnit (b : Bank) (u : UnitId) : Bank := if b.halting then b else b.advance u

/-- An instruction has issued: it leaves the queue, the unit advances, the stall count ends (R98, R108). -/
def Bank.issued (b : Bank) (u : UnitId) : Bank :=
  ((b.setQueue u (b.queue u).tail).stepUnit u).setStall u 0

/-- Whether a unit's next instruction stays: under a fault the unit stops there (R430); else a queue stall is counted (R108). -/
def Bank.stalled (b : Bank) (u : UnitId) (counts : Bool) : Bank :=
  if b.fault.isSome then b.setStop u true
  else b.setStall u (if counts then b.stall u + 1 else 0)

/-! ### Pending feeds -/

/-- Names of data queues. -/
inductive QName where
  | word (q : WordQ)
  | lq (n : BitVec 3)
  | sq (n : BitVec 3)
  deriving DecidableEq, Repr

/-- The queue that SEND feeds. -/
def sendWordQ : SendQ → WordQ
  | .xq => .xq | .aq => .aq | .ssq => .ssq
/-- The queue that RECV drains. -/
def recvWordQ : RecvQ → WordQ
  | .cq => .cq | .rq => .rq

/-- The store queue that a vector instruction writes, read from QD of its word (R82). -/
def sqOfWord (w : W64) : Option (BitVec 3) :=
  let f := VFields.of w.toNat
  if f.qd then some (.ofNat 3 f.vd) else none

/-- The data queue into which a dispatched instruction produces (R104, R107). -/
def producesInto (i : Instr) (w : W64) : Option QName :=
  match i with
  | .send q _ => some (.word (sendWordQ q))
  | .ldv _ _ q _ => some (.lq q)
  | .lds .. | .sstat _ | .amoadd .. | .amoxchg .. | .amocas .. | .amomin .. | .amomax .. | .amoand .. | .amoor .. =>
    some (.word .rq)
  | .sgo _ t => if t.toNat < 8 then some (.lq (.ofNat 3 t.toNat)) else none
  | .mpop .. | .mfirst .. | .vextr .. => some (.word .cq)
  | .vrsum d _ _ _ | .vrmax d _ _ _ | .vrmin d _ _ _ | .vramax d _ _ _ =>
    match d with
    | .reg _ => none
    | .regCq _ | .cq => some (.word .cq)
  | .vcompr d _ _ _ cq => if cq then some (.word .cq) else if d.isReg then none else (sqOfWord w).map .sq
  | _ => none

/-- Whether a queue entry produces into a data queue once it issues. -/
def QEntry.feeds (e : QEntry) (q : QName) : Bool :=
  (match decodeUnit e.tag.toNat e.word.toNat with
    | none => false
    | some i => producesInto i e.word == some q) ||
    (decide (e.tag = 5) && (match q with | .sq n => sqOfWord e.word == some n | .word _ | .lq _ => false))

/-- The unit whose instructions read a data queue (R104). -/
def QName.reader : QName → UnitId
  | .word q => q.reader
  | .lq _ => .V
  | .sq _ => .A

/-- Whether a dispatched instruction of no later line than the reader's produces into a data queue (R107). -/
def Bank.dispatchedFeed (b : Bank) (q : QName) : Bool :=
  [.S, .A, .V].any fun u => (b.queue u).any fun e => decide (e.seq / 8 ≤ b.lineNow q.reader) && e.feeds q

/-- Whether a data queue that its reader finds empty has a pending feed (R107): an entry reserved by an instruction of no later line, a
dispatched producer, or an active stream. -/
def Bank.pendingFeed (b : Bank) (q : QName) : Bool :=
  (match q with
    | .word w => (b.wordQ w).any fun e => e.val.isNone && decide (e.line ≤ b.lineNow q.reader)
    | .lq n => (b.loadQ n).any fun e => e.val.isNone && decide (e.line ≤ b.lineNow q.reader)
    | .sq n => (b.storeQ n).any fun e => e.val.isNone && decide (e.line ≤ b.lineNow q.reader)) ||
    b.dispatchedFeed q ||
    (match q with
      | .lq n => b.streams.any fun p => p.2.active && decide (p.2.target.toNat = n.toNat)
      | .sq n => b.streams.any fun p => p.2.active && decide (p.2.target.toNat = 8 + n.toNat)
      | .word _ => false)

/-! ### Completion objects -/

/-- A CAUSE and an OPC in the low bits of a status word (R250, R285, R354, R386, R412). -/
def statusOf (opc cause : Nat) : Nat := opc + cause * 256

/-- What the writing of a completion object came to (R273). -/
inductive ObjWrite where
  | done (s : State)
  | fault (cause : Nat)
  deriving DecidableEq, Repr

/-- Writes the status word at offset 8 and adds 1 to the counter at offset 0, at the object's home (R46, R273). -/
def bumpObject (s : State) (row : Nat) (l : List Seg) (status : Nat) : State :=
  let n := ofBytes ((segBytes s row l).take 8)
  segHomeWrite s row l (toBytes 8 ((n + 1) % 2 ^ 64) ++ toBytes 8 status)

/-- Writes the completion object of a command of a row; DONE 0 names none (R273). -/
def writeObject (s : State) (row done status : Nat) : ObjWrite :=
  if done = 0 then .done s
  else match translate s row .write true done 16 16 with
    | .bad c _ => .fault (if c = 0x06 then 0x06 else if c = 0x08 then 0x08 else 0x07)
    | .miss _ => .done s
    | .ok l => .done (bumpObject s row l status)

/-! ### Faults -/

/-- The codes of the record's SRC (R432). -/
def unitSrc : UnitId → Nat
  | .S => 2 | .A => 3 | .V => 4
/-- The code of an engine in the record's SRC (R432). -/
def engSrc (e : Eng) : Nat := 8 + e.num

/-- A record of a cause and an address, other fields zero. -/
def faultOf (cause addr : Nat) : FaultRec where
  cause := .ofNat 8 cause
  src := 0
  lane := 0
  flags := 0
  aux := 0
  line := 0
  addr := .ofNat 64 addr
  opc := 0
  qpos := 0
  start := 0
  pos := 0
  sub := 0
  layer := 0
  node := 0
  stream := 0
  tcc := 0
  answer := 0

/-- The 64 bytes of a fault record (R432). -/
def FaultRec.bytes (f : FaultRec) : List Byte :=
  [f.cause, f.src, f.lane, f.flags] ++ toBytes 4 f.aux.toNat ++ toBytes 8 f.line.toNat ++ toBytes 8 f.addr.toNat ++
    [f.opc, f.qpos, 0, 0] ++ toBytes 4 f.start.toNat ++ toBytes 8 f.pos.toNat ++ toBytes 4 f.sub.toNat ++
    [f.layer, f.node, f.stream, 0] ++ toBytes 8 f.tcc.toNat ++ [f.answer, 0, 0, 0, 0, 0, 0, 0]

/-- Physical address of a row's save area (R59, R432). -/
def saveAddr (s : State) (row : Nat) : Nat := (s.row row).save.toNat * 4096

/-- The queue of an engine in a bank (R271). -/
def Bank.engQ (b : Bank) : Eng → List EngEntry
  | .mx => b.mx | .cp => b.cp | .kv => b.kv | .xg => b.xg | .sp => b.sp | .wn => b.wn
/-- Writes the queue of an engine. -/
def Bank.setEngQ (b : Bank) (e : Eng) (l : List EngEntry) : Bank :=
  match e with
  | .mx => { b with mx := l } | .cp => { b with cp := l } | .kv => { b with kv := l } | .xg => { b with xg := l }
  | .sp => { b with sp := l } | .wn => { b with wn := l }
/-- The result FIFO of an engine in a bank (R272). -/
def Bank.fifo (b : Bank) : Eng → List W64
  | .mx => b.fifoMx | .cp => b.fifoCp | .kv => b.fifoKv | .xg => b.fifoXg | .sp => b.fifoSp | .wn => b.fifoWn
/-- Writes a result FIFO. -/
def Bank.setFifo (b : Bank) (e : Eng) (l : List W64) : Bank :=
  match e with
  | .mx => { b with fifoMx := l } | .cp => { b with fifoCp := l } | .kv => { b with fifoKv := l }
  | .xg => { b with fifoXg := l } | .sp => { b with fifoSp := l } | .wn => { b with fifoWn := l }
/-- Depth of an engine queue per bank (R271). -/
def engDepth : Eng → Nat
  | .mx | .cp => 16 | .kv | .xg | .wn => 8 | .sp => 4
/-- Depth of a result FIFO (R272). -/
def fifoDepth : Nat := 16

/-- The words of an entry as numbers. -/
def EngEntry.nats (x : EngEntry) : List Nat := x.words.map BitVec.toNat
/-- START of an entry (R91). -/
def EngEntry.startAt (x : EngEntry) : Nat := bitsOf (cmdWord x.nats 0) 55 36
/-- OPC of an entry (R91). -/
def EngEntry.opc (x : EngEntry) : Nat := bitsOf (cmdWord x.nats 0) 63 56
/-- DONE of an entry. -/
def EngEntry.done (x : EngEntry) : Nat := cmdWord x.nats 7
/-- RES of an entry. -/
def EngEntry.res (x : EngEntry) : Bool := decide (bitsOf (cmdWord x.nats 0) 0 0 = 1)
/-- Whether an entry is a timed command that has not started (R120). -/
def EngEntry.timedUnstarted (x : EngEntry) : Bool := decide (x.startAt ≠ 0) && !x.started && x.resolve.isNone

/-- The engines in the order of their numbers. -/
def allEngs : List Eng := [.mx, .cp, .kv, .xg, .sp, .wn]

/-- Replaces the entry of a name. -/
def putEntry (x : EngEntry) (l : List EngEntry) : List EngEntry := l.map fun y => if y.id = x.id then x else y

/-- Writes an entry of a row's queue. -/
def setEntry (s : State) (row : Nat) (e : Eng) (x : EngEntry) : State :=
  s.modBank row fun b => b.setEngQ e (putEntry x (b.engQ e))

/-- An entry leaves its queue. -/
def dropEntry (s : State) (row : Nat) (e : Eng) (id : Nat) : State :=
  s.modBank row fun b => b.setEngQ e ((b.engQ e).filter fun y => decide (y.id ≠ id))

/-- The position of an entry in its queue. -/
def queuePos (s : State) (row : Nat) (e : Eng) (id : Nat) : Nat :=
  (((s.bank row).engQ e).takeWhile fun y => decide (y.id ≠ id)).length

/-- The bit of an entry's stream among those that a fault blocks: XG keeps three streams (R382, R387). -/
def blockBit (e : Eng) (opc : Nat) : Nat :=
  match e with
  | .xg => if opc = 2 then 6 else if opc = 3 then 7 else 3
  | .mx | .cp | .kv | .sp | .wn => e.num

/-- Whether an engine starts no entries of a row's stream, after a fault that has not been answered (R262, R387). -/
def Bank.engBlocked (b : Bank) (e : Eng) (opc : Nat) : Bool := b.blocked.getLsbD (blockBit e opc)
/-- The engine starts no further entry of the bank's stream (R262, R387). -/
def Bank.block (b : Bank) (e : Eng) (opc : Nat) : Bank := { b with blocked := b.blocked ||| .ofNat 8 (2 ^ blockBit e opc) }

/-- The branch tag of a KV or CP command (R354, R420), and zero for the others. -/
def EngEntry.node (x : EngEntry) (e : Eng) : BitVec 8 :=
  match e with
  | .cp | .kv => .ofNat 8 (bitsOf (cmdWord x.nats 0) 31 24)
  | .mx | .xg | .sp | .wn => 0

/-- The record of an engine's fault at an entry (R432). -/
def entryFault (s : State) (row : Nat) (e : Eng) (x : EngEntry) (cause addr : Nat) : FaultRec :=
  { faultOf cause addr with
    src := .ofNat 8 (engSrc e), opc := .ofNat 8 x.opc, qpos := .ofNat 8 (queuePos s row e x.id)
    start := .ofNat 32 x.startAt, pos := .ofNat 64 x.pos, node := x.node e }

/-- The record of a fault at an entry's completion object, which is at no place within the command (R273, R432). -/
def objectFault (s : State) (row : Nat) (e : Eng) (x : EngEntry) (cause : Nat) : FaultRec :=
  { entryFault s row e x cause x.done with pos := 0 }

/-- A timed command is dropped (R120, R273, R297): the release is made and the object gets cause 0x0A. A DONE page without translation keeps the
end of the entry waiting, and its fault, like any other of the object, is kept until the one under way has been answered (R429). -/
def dropOne (row : Nat) (e : Eng) (s : State) (x : EngEntry) : State :=
  let s := releaseAt s row 2
  let status := statusOf x.opc 0x0A
  match writeObject s row x.done status with
  | .done s' => dropEntry s' row e x.id
  | .fault c =>
    let f := objectFault s row e x c
    let keep (s : State) (f : FaultRec) : State := s.modBank row fun b => { b.block e x.opc with faults := b.faults ++ [(e, f)] }
    if c = 0x06 then keep (setEntry s row e { x with state := .ending (.ofNat 64 status) [], started := true }) { f with flags := 1 }
    else keep (dropEntry s row e x.id) f

/-- Drops a row's timed commands that have not started, engine by engine (R120). -/
def dropTimed (s : State) (row : Nat) : List Eng → State
  | [] => s
  | e :: r => dropTimed ((((s.bank row).engQ e).filter EngEntry.timedUnstarted).foldl (dropOne row e) s) row r

/-- The core leaves a bank that was issuing (R53). -/
def leaveBank (s : State) (row : Nat) : State :=
  let c := coreOf row
  let k := s.coreAt c
  if k.run = some (decide (row % 2 = 1)) then s.setCore c { k with run := none } else s

/-- TAKING A FAULT (R52, R429 to R433): the bank's timed commands that have not started are dropped (R120); the record is completed with TCC and
MORE and written at the save area before STATE changes; the row waits for cause 0x06 and is faulted
otherwise, or goes on being saved (R443); the core leaves the bank. A second fault of the bank is not taken here: see `unitFault`. -/
def takeFault (s : State) (row : Nat) (stop : UnitId) (f : FaultRec) : State :=
  let s := dropTimed s row allEngs
  let b := s.bank row
  let f := { f with tcc := b.tcc, flags := if b.faults = [] then f.flags else f.flags ||| 8 }
  let s := s.homeWriteBytes (saveAddr s row) f.bytes
  let s := s.modBank row fun b => { (b.setStop stop true) with fault := some f }
  let s := s.modRow row fun r =>
    { r with
      state := if r.state = .saving then .saving else if f.cause = 0x06 then .waiting else .faulted
      halted := r.halted || decide (r.state = .halting) }
  leaveBank s row

/-- The record's fields that name the instruction at the head of a unit (R432). -/
def atHead (b : Bank) (u : UnitId) (f : FaultRec) : FaultRec :=
  let e := b.headEntry u
  { f with src := .ofNat 8 (unitSrc u), lane := .ofNat 8 e.lane, line := e.line }

/-- A fault of the instruction at a unit's head: taken, or, when one is outstanding, only the unit stops (R429, R430). -/
def unitFault (s : State) (u : UnitId) (f : FaultRec) : State :=
  let b := s.bank s.cur
  if b.fault.isSome then s.modBank s.cur fun b => b.setStop u true
  else takeFault s s.cur u (atHead b u f)

/-- Reports a fault of an engine on the pushing bank: taken, or kept with MORE set when one is outstanding (R429); kept while the task is only
bound, since R52 takes none then (log entry 50). -/
def engineFault (s : State) (row : Nat) (e : Eng) (f : FaultRec) : State :=
  let b := s.bank row
  match b.fault with
  | some g =>
    let g := { g with flags := g.flags ||| 8 }
    (s.setBank row { b with faults := b.faults ++ [(e, f)], fault := some g }).homeWriteBytes (saveAddr s row) g.bytes
  | none => if (s.row row).state = .bound then s.setBank row { b with faults := b.faults ++ [(e, f)] } else takeFault s row .S f

/-! ### Issue -/

/-- What an attempt to issue the head of a unit came to. -/
inductive Attempt where
  /-- it issued: its effect on the state, apart from the leaving of the queue -/
  | ok (s : State)
  /-- a stall on an empty or full data queue, which counts towards R108 -/
  | queueStall (s : State)
  /-- an interlock, the landing limit, or a wait of the instruction's own -/
  | wait (s : State)
  /-- a fault precise at the instruction -/
  | trap (s : State) (f : FaultRec)
  deriving DecidableEq, Repr

/-- What an attempt leaves (R98, R102, R108, R429). -/
def conclude (u : UnitId) : Attempt → State
  | .ok s => s.modBank s.cur fun b => b.issued u
  | .queueStall s => s.modBank s.cur fun b => b.stalled u true
  | .wait s => s.modBank s.cur fun b => b.stalled u false
  | .trap s f => unitFault s u f

/-- The bank on whose behalf the current act runs. -/
def State.here (s : State) : Bank := s.bank s.cur

/-- Changes the bank on whose behalf the current act runs. -/
def State.modHere (s : State) (f : Bank → Bank) : State := s.modBank s.cur f

/-- A trap with a cause and no address. -/
def trapWith (s : State) (cause : Nat) : Attempt := .trap s (faultOf cause 0)

/-- Runs an attempt when the registers named are declared, else raises cause 0x03 (R33, R94). -/
def declared (s : State) (ok : Bool) (k : Attempt) : Attempt := if ok then k else trapWith s 0x03

/-- Scalar registers within the declared count (R33). -/
def Bank.hasS (b : Bank) (l : List (BitVec 6)) : Bool := l.all fun n => decide (n.toNat < b.decl.s)
/-- Condition registers within the declared count (R33). -/
def Bank.hasC (b : Bank) (l : List (BitVec 4)) : Bool := l.all fun n => decide (n.toNat < b.decl.c)
/-- Address registers within the declared count (R33). -/
def Bank.hasA (b : Bank) (l : List (BitVec 5)) : Bool := l.all fun n => decide (n.toNat < b.decl.a)
/-- Vector registers, by number before rotation, within the declared count (R33). -/
def Bank.hasV (b : Bank) (l : List Nat) : Bool := l.all fun n => decide (n < b.decl.v)
/-- Mask registers within the declared count (R33). -/
def Bank.hasM (b : Bank) (l : List (BitVec 6)) : Bool := l.all fun n => decide (n.toNat < b.decl.m)

/-- Reads the `n` oldest words of a word queue for an instruction that pops them: it stalls while they are not there and a
feed is pending, traps with cause 0x05 when none is, and with cause 0x0F at bad data (R105, R107, R225). -/
def withWords (s : State) (q : WordQ) (n : Nat) (k : List W64 → Attempt) : Attempt :=
  let l := (s.here.wordQ q).take n
  let vals := l.filterMap WordEntry.val
  if vals.length = n then
    match l.findSome? WordEntry.err with
    | some a => .trap s (faultOf 0x0F a.toNat)
    | none => k vals
  else if s.here.pendingFeed (.word q) then .queueStall s
  else trapWith s 0x05

/-- Pops the `n` oldest words. -/
def Bank.popWords (b : Bank) (q : WordQ) (n : Nat) : Bank := b.setWordQ q ((b.wordQ q).drop n)

/-- Waits for a free entry of a word queue that the instruction will fill (R106). -/
def wordRoom (s : State) (q : WordQ) (k : Attempt) : Attempt :=
  if (s.here.wordQ q).length < wordDepth then k else .queueStall s

/-- Waits while a unit's landing buffers are full; only S can reach the limit (R101). -/
def landingRoom (s : State) (u : UnitId) (k : Attempt) : Attempt :=
  if u = .S ∧ 16 ≤ s.here.inFlight u then .wait s else k

/-- The group-table index of a local group (R54, R59). -/
def groupIndex (s : State) (row : Nat) (g : BitVec 2) : Nat :=
  bitsOf (s.row row).gidx.toNat (8 * g.toNat + 7) (8 * g.toNat)
/-- Whether the task is a member of a declared local group (R33, R38). -/
def memberOf (s : State) (row : Nat) (g : BitVec 2) : Bool :=
  decide (g.toNat < (s.bank row).decl.ngroup) && decide ((s.row row).gv.toNat / 2 ^ g.toNat % 2 = 1)

/-! ### The trap handler -/

/-- TRAPVEC.EN and TRAPCAUSE.INH allow the handler (R148). -/
def Bank.handlerReady (b : Bank) : Bool := decide (b.trapvec.toNat % 2 = 1) && decide (bitsOf b.trapcause.toNat 63 63 = 0)

/-- The line address of a register whose bits 47:5 name a line (R150). -/
def lineOf (x : W64) : Nat := bitsOf x.toNat 47 5 * 32

/-- ENTERING THE HANDLER (R148): TRAPRET names the line after the TRAP's, TRAPCAUSE gets INH, CAUSE 0x12 and the code, and
the handler's line is next. -/
def trapEnter (b : Bank) (line : Nat) (code : BitVec 13) : Bank :=
  { b with
    trapret := .ofNat 64 ((line + 32) % 2 ^ 48)
    trapcause := .ofNat 64 (2 ^ 63 + 0x12 * 2 ^ 16 + code.toNat)
    fetch := { b.fetch with next := .ofNat 64 (lineOf b.trapvec) } }

/-- THE RETURN FROM THE HANDLER (R149): INH is cleared and the next line is TRAPRET's. -/
def trapReturn (b : Bank) : Bank :=
  { b with
    trapcause := b.trapcause &&& 0x7FFFFFFFFFFFFFFF
    fetch := { b.fetch with next := .ofNat 64 (lineOf b.trapret) } }

end Sys2Proof.Machine
end

