-- ==== Sys2Proof/Machine/Freeze.lean ====
section
/-! DEFINITION. Freeze counts: raising, lowering and collecting leaves, and the ranges of FRZ and THW (chapter 15). -/

namespace Sys2Proof.Machine

/-- Whether any subpage of a physical extent has an owner (R320). -/
def extentOwned (s : State) (pa size : Nat) : Bool :=
  s.dir.any fun e => decide (pa / 4096 ≤ e.1) && decide (e.1 < (pa + size) / 4096) && decide (e.2 ≠ [])

/-- Whether a leaf is being collected (R322). -/
def collecting (s : State) (pa : Nat) : Bool := s.collects.any fun c => decide (c.leaf = pa) && decide (c.outstanding ≠ 0)

/-- The replica holders: 36 cores and the cache levels of dies 1 to 8 (R322). -/
def replicaHolders : Nat := 44

/-- Starts the collection of a leaf (R322 steps 1 and 2). Modified copies reach the home at once, so that every load of the leaf returns the
home's value from here on (R316, R322). -/
def startCollect (s : State) (pa size : Nat) (thaw : Bool) : State :=
  let s := fetchHome s pa size
  { s with collects := s.collects ++ [⟨pa, size, List.range replicaHolders, replicaHolders, thaw⟩] }

/-- What visiting a leaf's home came to. -/
inductive LeafStep where
  | wait
  | fault (cause : Nat)
  /-- done: the first address after the leaf, and its physical base when it is being collected -/
  | done (s : State) (next : Nat) (collected : Option Nat)
  deriving DecidableEq, Repr

/-- Writes FCNT into a leaf's entry at its home. -/
def putFcnt (s : State) (at_ pte n : Nat) : State := s.homeWriteBytes at_ (toBytes 8 (pteSetFcnt pte n))

/-- Raises the count of the leaf that maps an address (R320). -/
def raiseLeaf (s : State) (asid : Asid) (va : Nat) : LeafStep :=
  match walk s asid va with
  | .bad c => .fault c
  | .leaf pte vbase size at_ =>
    let pa := pteAddr pte
    if extentOwned s pa size || collecting s pa then .wait
    else if pteFcnt pte = 15 then .fault 0x13
    else
      let s' := putFcnt s at_ pte (pteFcnt pte + 1)
      if pteFcnt pte = 0 then .done (startCollect s' pa size false) (vbase + size) (some pa) else .done s' (vbase + size) none

/-- Lowers the count of the leaf that maps an address (R321). -/
def lowerLeaf (s : State) (asid : Asid) (va : Nat) : LeafStep :=
  match walk s asid va with
  | .bad c => .fault c
  | .leaf pte vbase size at_ =>
    let pa := pteAddr pte
    if collecting s pa then .wait
    else if pteFcnt pte = 0 then .fault 0x13
    else
      let s' := putFcnt s at_ pte (pteFcnt pte - 1)
      if pteFcnt pte = 1 then .done (startCollect s' pa size true) (vbase + size) (some pa) else .done s' (vbase + size) none

/-- Rows 2 and 3 of R318. -/
def freezeRange (base len : Nat) : Option Nat :=
  if base % 65536 ≠ 0 ∨ len % 65536 ≠ 0 then some 0x0E
  else if 2 ^ 48 ≤ base + len - 1 ∨ (base < 0xFF0001800000 ∧ 0xFF0000000000 < base + len) then some 0x07
  else none

/-- Rows 4 and 5 of R318 on one page. -/
def freezePage (s : State) (row va : Nat) : Option Nat :=
  let asid := (s.row row).asid
  match walk s asid va with
  | .bad c => some c
  | .leaf pte vbase _ _ =>
    let pa := pteAddr pte + (va - vbase)
    match regionOf s pa with
    | .lpddr | .sram | .tier =>
      match targetOf s pa with
      | none => some 0x07
      | some t => if hasRight s t .fz row asid then none else some 0x07
    | .scratch | .sysreg | .none => some 0x07

/-- Rows 4 and 5 of R318 on `n` pages from an address on: the first failing page and its cause. -/
def freezePages (s : State) (row : Nat) : Nat → Nat → Option (Nat × Nat)
  | 0, _ => none
  | n + 1, va =>
    match freezePage s row va with
    | some c => some (va, c)
    | none => freezePages s row n (va + 65536)

/-- The first pages of a range within the leaf that holds its first address: how many to check. -/
def pagesInLeaf (s : State) (asid : Asid) (va stop : Nat) : Nat :=
  match walk s asid va with
  | .bad _ => 1
  | .leaf _ vbase size _ => (min stop (vbase + size) - va) / 65536

/-! ### Collection -/

/-- A core's TLB with the frozen copies of a leaf's count cleared (R322 step 3). -/
def clearFrozen (l : List TlbEntry) (pa : Nat) : List TlbEntry :=
  l.map fun t => if pteAddr t.pte.toNat = pa then { t with pte := .ofNat 64 (pteSetFcnt t.pte.toNat 0) } else t

/-- Removes a holder from those that a leaf's collection has still to tell. -/
def tellHolder (s : State) (holder pa : Nat) : State :=
  { s with collects := s.collects.map fun c => if c.leaf = pa then { c with holders := c.holders.filter (· ≠ holder) } else c }

/-- A replica holder writes back and invalidates a leaf's lines (R322 step 3): holders 0 to 35 are the cores, 36 to 43 the
cache levels of dies 1 to 8. -/
def collectAtHolder (s : State) (holder pa : Nat) : State :=
  match s.collects.find? fun c => decide (c.leaf = pa) with
  | none => s
  | some c =>
    if !c.holders.contains holder then s
    else
      let s := if holder < 36 then
          let s := writeBack s pa c.size (s.coreOv.get [] holder)
          s.setTlb holder (clearFrozen (s.tlbOf holder) pa)
        else writeBack s pa c.size (s.dieOv.get [] (holder - 35))
      tellHolder s holder pa

/-- An acknowledgement reaches the home; the last ends the collection (R322 steps 4 and 5). -/
def acknowledge (s : State) (pa : Nat) : State :=
  let f (c : Collect) : Collect :=
    if c.leaf = pa ∧ c.holders.length < c.outstanding then { c with outstanding := c.outstanding - 1 } else c
  { s with collects := (s.collects.map f).filter fun c => decide (c.outstanding ≠ 0) }

/-! ### Pending freezes -/

/-- The first pending freeze of a group (R319). -/
def pendingOf (b : Bank) (g : BitVec 2) : Option PendFreeze := b.freezes.find? fun f => f.group == g

/-- The list with its first entry of a group changed. -/
def modPending (g : BitVec 2) (h : PendFreeze → PendFreeze) : List PendFreeze → List PendFreeze
  | [] => []
  | f :: r => if f.group = g then h f :: r else f :: modPending g h r

/-- The list without its first entry of a group. -/
def dropPending (g : BitVec 2) : List PendFreeze → List PendFreeze
  | [] => []
  | f :: r => if f.group = g then r else f :: dropPending g r

/-- The group that the PHASE at the head of S names. -/
def phaseGroup (b : Bank) : Option (BitVec 2) :=
  let e := b.headEntry .S
  match decodeUnit e.tag.toNat e.word.toNat with
  | some (.phase g) => some g
  | _ => none

/-- Whether a PHASE of a bank is past its release with freezes to apply: a store of the task that needs ownership waits until they are applied,
and then meets the count (R324). -/
def freezesDue (b : Bank) : Bool :=
  match b.sWait, phaseGroup b with
  | .arrived _, some g | .freezing _ _, some g | .acking, some g => (pendingOf b g).isSome
  | _, _ => false

/-- The answer of the other package to a freeze or thaw entry; what it is and when it comes is not the issuing package's,
so it is a free value (log entry 14). -/
inductive PairAnswer where
  | notYet
  | done
  | fault (cause addr : Nat)
  deriving DecidableEq, Repr

/-- Reads a free value as an answer. -/
def pairAnswer (w : W64) : PairAnswer :=
  match w.toNat % 8 with
  | 0 | 1 => .notYet
  | 2 | 3 | 4 => .done
  | 5 => .fault 0x06 (bitsOf w.toNat 47 16 * 65536)
  | 6 => .fault 0x07 (bitsOf w.toNat 47 16 * 65536)
  | _ => .fault 0x13 (bitsOf w.toNat 47 16 * 65536)

/-- The next free value, and the state with the counter advanced (log entry 9). -/
def takeFree (s : State) : W64 × State := (Config.freeWord s.fresh, { s with fresh := s.fresh + 1 })

/-- Marks the freeze entries that the other package sent for a group as due, since its barrier has completed (R326). -/
def pairDue (s : State) (g : Group) : State :=
  { s with pairFreezes := s.pairFreezes.map fun f =>
      if f.group = g.key ∧ f.asid = g.asid ∧ g.level = 3 then { f with due := true } else f }

/-- The list with its first due entry replaced, or removed. -/
def putDue (x : Option PairFreeze) : List PairFreeze → List PairFreeze
  | [] => []
  | f :: r => if f.due then x.toList ++ r else f :: putDue x r

/-- Ends the first due entry of the other package, which is told how it ended. -/
def endPair (s : State) (m : SideMsg) : State := { s with pairFreezes := putDue none s.pairFreezes, sideOut := s.sideOut ++ [m] }

/-- Replaces the first due entry. -/
def putPair (s : State) (f : PairFreeze) : State := { s with pairFreezes := putDue (some f) s.pairFreezes }

/-- Applies one more leaf of the first due entry that the other package sent, or waits for its collections; the end, or the leaf that cannot
be raised or lowered, is told to that package (R320, R321, R326). -/
def pairFreezeStep (s : State) : State :=
  match s.pairFreezes.find? PairFreeze.due with
  | none => s
  | some f =>
    let va := max f.base f.next
    if f.base + f.len ≤ va then (if f.leaves.any (collecting s) then s else endPair s .applied)
    else match if f.thaw then lowerLeaf s f.asid va else raiseLeaf s f.asid va with
      | .wait => s
      | .fault c => endPair s (.refused c va)
      | .done s' n coll => putPair s' { f with next := n, leaves := f.leaves ++ coll.toList }

/-- The other package's THW reaches this one (R326). -/
def pairThaw (s : State) (asid : Asid) (base len : Nat) : State :=
  { s with pairFreezes := s.pairFreezes ++ [⟨asid, base, len, 0, true, 0, [], true⟩] }

end Sys2Proof.Machine
end

