-- ==== Sys2Proof/Machine/Num.lean ====
section
/-! DEFINITION. Exact internal values, the element formats, and rounding (chapter 07). -/

namespace Sys2Proof.Machine

/-! ### Exact values -/

/-- Positive zero. -/
def XVal.zero : XVal := .fin false 0 0

/-- One. -/
def XVal.one : XVal := .fin false 1 0

/-- An integer as an exact value; 0 is +0. -/
def XVal.ofInt (i : Int) : XVal := .fin (decide (i < 0)) i.natAbs 0

/-- Whether a value is a NaN. -/
def XVal.isNan : XVal → Bool
  | .nan => true
  | .inf _ | .fin _ _ _ => false

/-- Whether a value is a zero. -/
def XVal.isZero : XVal → Bool
  | .nan | .inf _ => false
  | .fin _ m _ => m == 0

/-- The sign of a value; NaN has none. -/
def XVal.sign : XVal → Bool
  | .nan => false
  | .inf s => s
  | .fin s _ _ => s

/-- The value with its sign changed. -/
def XVal.neg : XVal → XVal
  | .nan => .nan
  | .inf s => .inf (!s)
  | .fin s m e => .fin (!s) m e

/-- The magnitude. -/
def XVal.abs : XVal → XVal
  | .nan => .nan
  | .inf _ => .inf false
  | .fin _ m e => .fin false m e

/-- The signed significand of a finite value at exponent `e₀ ≤ e`. -/
def scaledInt (s : Bool) (m : Nat) (e e₀ : Int) : Int :=
  let x : Int := (m * 2 ^ (e - e₀).toNat : Nat)
  if s then -x else x

/-- The sign of an exact zero sum of operands with signs `s` and `t` (R178, IEEE 754). -/
def zeroSign (rm : Rm) (s t : Bool) : Bool := if s = t then s else rm == .rdn

/-- The exact sum; `rm` decides only the sign of an exact zero (R178, R179). -/
def XVal.add (rm : Rm) : XVal → XVal → XVal
  | .nan, _ => .nan
  | _, .nan => .nan
  | .inf s, .inf t => if s = t then .inf s else .nan
  | .inf s, .fin _ _ _ => .inf s
  | .fin _ _ _, .inf t => .inf t
  | .fin s m e, .fin t k f =>
    if m = 0 ∧ k = 0 then .fin (zeroSign rm s t) 0 0
    else
      let e₀ := min e f
      let x := scaledInt s m e e₀ + scaledInt t k f e₀
      if x = 0 then .fin (rm == .rdn) 0 0 else .fin (decide (x < 0)) x.natAbs e₀

/-- The exact product (R178). -/
def XVal.mul : XVal → XVal → XVal
  | .nan, _ => .nan
  | _, .nan => .nan
  | .inf s, .inf t => .inf (s != t)
  | .inf s, .fin t k _ => if k = 0 then .nan else .inf (s != t)
  | .fin s m _, .inf t => if m = 0 then .nan else .inf (s != t)
  | .fin s m e, .fin t k f => .fin (s != t) (m * k) (e + f)

/-- The value times a power of two. -/
def XVal.scale (k : Int) : XVal → XVal
  | .nan => .nan
  | .inf s => .inf s
  | .fin s m e => .fin s m (e + k)

/-- floor(log2 |x|) of a finite nonzero significand and exponent. -/
def log2Of (m : Nat) (e : Int) : Int := (m.log2 : Int) + e

/-- The order of two values that are no NaN; zeros are equal. -/
def XVal.cmp : XVal → XVal → Ordering
  | .nan, _ => .eq
  | _, .nan => .eq
  | .inf s, .inf t => if s = t then .eq else if s then .lt else .gt
  | .inf s, .fin _ _ _ => if s then .lt else .gt
  | .fin _ _ _, .inf t => if t then .gt else .lt
  | .fin s m e, .fin t k f =>
    let e₀ := min e f
    compare (scaledInt s m e e₀) (scaledInt t k f e₀)

/-- Less, for values that are no NaN. -/
def XVal.lt (a b : XVal) : Bool := a.cmp b == .lt

/-! ### Rounding -/

/-- Rounds m × 2^-sh to an integer in a mode, for a value of sign `neg` (R161). -/
def roundShift (rm : Rm) (neg : Bool) (m sh : Nat) : Nat :=
  if m.log2 + 1 < sh then (decide (m ≠ 0) && ((rm == .rup && !neg) || (rm == .rdn && neg))).toNat else
  let q := m / 2 ^ sh
  let r := m % 2 ^ sh
  let up := match rm with
    | .rne => decide (2 ^ sh < 2 * r) || (decide (2 * r = 2 ^ sh) && decide (r ≠ 0) && decide (q % 2 = 1))
    | .rna => decide (2 ^ sh ≤ 2 * r) && decide (r ≠ 0)
    | .rtz => false
    | .rup => decide (r ≠ 0) && !neg
    | .rdn => decide (r ≠ 0) && neg
  if up then q + 1 else q

/-- Rounds m × 2^e to an integer count of 2^q. -/
def roundAt (rm : Rm) (neg : Bool) (m : Nat) (e q : Int) : Nat :=
  if q ≤ e then m * 2 ^ (e - q).toNat else roundShift rm neg m (q - e).toNat

/-- A binary format: exponent bits, fraction bits, bias (R154). -/
structure Fmt where
  eb   : Nat
  mb   : Nat
  bias : Int
  deriving DecidableEq, Repr

/-- The binary floating formats (R154). -/
def fmtE4m3 : Fmt := ⟨4, 3, 7⟩
/-- The e5m2 format. -/
def fmtE5m2 : Fmt := ⟨5, 2, 15⟩
/-- The f16 format. -/
def fmtF16 : Fmt := ⟨5, 10, 15⟩
/-- The bf16 format. -/
def fmtBf16 : Fmt := ⟨8, 7, 127⟩
/-- The f32 format. -/
def fmtF32 : Fmt := ⟨8, 23, 127⟩

/-- The code of the sign bit. -/
def Fmt.signBit (f : Fmt) : Nat := 2 ^ (f.eb + f.mb)

/-- The code of +infinity, in a format that has one. -/
def Fmt.infCode (f : Fmt) : Nat := (2 ^ f.eb - 1) * 2 ^ f.mb

/-- The magnitude code to which a finite nonzero value rounds with an exponent that is not bounded above. -/
def Fmt.roundMag (f : Fmt) (rm : Rm) (neg : Bool) (m : Nat) (e : Int) : Nat :=
  let q := max (log2Of m e) (1 - f.bias) - f.mb
  let r := roundAt rm neg m e q
  if r < 2 ^ f.mb then r else (q + f.mb + f.bias).toNat * 2 ^ f.mb + (r - 2 ^ f.mb)

/-- Whether finite overflow goes to infinity rather than to the largest finite value (R164). -/
def overflowToInf (rm : Rm) (neg : Bool) : Bool :=
  match rm with
  | .rne | .rna => true
  | .rtz => false
  | .rup => !neg
  | .rdn => neg

/-- Rounds an exact value to a format with infinities; `sat` is F8SAT, which e5m2 alone obeys (R164). -/
def Fmt.round (f : Fmt) (rm : Rm) (sat : Bool) (nanCode : Nat) : XVal → Nat
  | .nan => nanCode
  | .inf s => s.toNat * f.signBit + f.infCode
  | .fin s m e =>
    if m = 0 then s.toNat * f.signBit
    else
      let mag := f.roundMag rm s m e
      let out :=
        if mag < f.infCode then mag
        else if !sat && overflowToInf rm s then f.infCode else f.infCode - 1
      s.toNat * f.signBit + out

/-- Rounds to e4m3, which has no infinity (R164). -/
def roundE4m3 (rm : Rm) (sat : Bool) : XVal → Nat
  | .nan => 0x7F
  | .inf s => if sat then s.toNat * 128 + 0x7E else 0x7F
  | .fin s m e =>
    if m = 0 then s.toNat * 128
    else
      let mag := fmtE4m3.roundMag rm s m e
      if mag ≤ 0x7E then s.toNat * 128 + mag else if sat then s.toNat * 128 + 0x7E else 0x7F

/-- Decodes a code of a format with infinities (R154, R160). -/
def Fmt.decode (f : Fmt) (c : Nat) : XVal :=
  let s := decide (c / f.signBit % 2 = 1)
  let ef := c / 2 ^ f.mb % 2 ^ f.eb
  let fr := c % 2 ^ f.mb
  if ef = 2 ^ f.eb - 1 then (if fr = 0 then .inf s else .nan)
  else if ef = 0 then .fin s fr (1 - f.bias - f.mb)
  else .fin s (2 ^ f.mb + fr) ((ef : Int) - f.bias - f.mb)

/-- Decodes an e4m3 code (R154). -/
def decodeE4m3 (c : Nat) : XVal :=
  let s := decide (c / 128 % 2 = 1)
  let ef := c / 8 % 16
  let fr := c % 8
  if c % 128 = 127 then .nan else if ef = 0 then .fin s fr (-9) else .fin s (8 + fr) ((ef : Int) - 10)

/-- The length of the run of bits equal to `b` from bit `n - 1` of a magnitude field downwards (R156). -/
def runLength (b : Nat) : Nat → Nat → Nat
  | 0, _ => 0
  | n + 1, x => if x / 2 ^ n % 2 = b then runLength b n x + 1 else 0

/-- Decodes a tapered code of `n` bits (R156). -/
def decodeTapered (n c : Nat) : XVal :=
  let w := n - 1
  let s := decide (c / 2 ^ w % 2 = 1)
  let mag := c % 2 ^ w
  if mag = 0 then (if s then .nan else XVal.zero)
  else
    let b := mag / 2 ^ (w - 1) % 2
    let k := runLength b w mag
    let r : Int := if b = 1 then (k : Int) - 1 else -(k : Int)
    let left := w - (k + 1)
    let e := if left = 0 then 0 else mag / 2 ^ (left - 1) % 2
    let fb := left - 1
    .fin s (2 ^ fb + mag % 2 ^ fb) (2 * r + (e : Int) - (fb : Int))

/-- Rounds a finite nonzero value to a tapered code of `n` bits (R165). -/
def roundTapered (n : Nat) (rm : Rm) (s : Bool) (m : Nat) (e : Int) : Nat :=
  let w := n - 1
  let top : Int := 2 * (w : Int) - 2
  let ex := log2Of m e
  let mag :=
    if top ≤ ex then 2 ^ w - 1
    else if ex < -top then 1
    else
      let r := ex / 2
      let eb := (ex % 2).toNat
      let fb := m.log2
      let (reg, len) := if 0 ≤ r then ((2 ^ (r.toNat + 1) - 1) * 2, r.toNat + 2) else (1, (-r).toNat + 1)
      let bits := (reg * 2 + eb) * 2 ^ fb + (m - 2 ^ fb)
      let tot := len + 1 + fb
      if tot < w then bits * 2 ^ (w - tot) else roundShift rm s bits (tot - w)
  s.toNat * 2 ^ w + mag

/-- Rounds any value to a tapered code (R165). -/
def roundTaperedX (n : Nat) (rm : Rm) : XVal → Nat
  | .nan | .inf _ => 2 ^ (n - 1)
  | .fin s m e => if m = 0 then 0 else roundTapered n rm s m e

/-- The signed reading of a `w`-bit code. -/
def signedOf (w c : Nat) : Int := if c < 2 ^ (w - 1) then (c : Int) else (c : Int) - 2 ^ w

/-- The integer that a code of an integer type holds (R152). -/
def intOf (t : ElemType) (c : Nat) : Int := if t.signed then signedOf t.width c else (c : Int)

/-- The code of an integer modulo 2^w. -/
def wrapTo (w : Nat) (i : Int) : Nat := (i % (2 ^ w : Int)).toNat

/-- The smallest value of an integer type (R152). -/
def intMin (t : ElemType) : Int := if t.signed then -(2 ^ (t.width - 1) : Int) else 0

/-- The largest value of an integer type (R152). -/
def intMax (t : ElemType) : Int := if t.signed then (2 ^ (t.width - 1) : Int) - 1 else (2 ^ t.width : Int) - 1

/-- The integer clamped to the range of a type. -/
def clampTo (t : ElemType) (i : Int) : Int := max (intMin t) (min (intMax t) i)

/-- Decodes an element code (R160). -/
def decodeElem (t : ElemType) (c : Nat) : XVal :=
  match t with
  | .s8 | .z8 | .s16 | .z16 | .s32 | .z32 | .s4 | .z4 => XVal.ofInt (intOf t c)
  | .e4m3 => decodeE4m3 c
  | .e5m2 => fmtE5m2.decode c
  | .t8 => decodeTapered 8 c
  | .t6 => decodeTapered 6 (c % 64)
  | .bf16 => fmtBf16.decode c
  | .f16 => fmtF16.decode c
  | .f32 => fmtF32.decode c

/-- The mode of a rounding: RM and F8SAT (R161). -/
structure Mode where
  rm  : Rm
  sat : Bool
  deriving DecidableEq, Repr

/-- The mode that VMODE or an engine mode word holds (R161, R162). -/
def Mode.of (w : Nat) : Mode := ⟨(Rm.ofCode (w % 8)).getD .rne, decide (w / 8 % 2 = 1)⟩

/-- Rounds to the nearest, ties to even, without saturation: the mode of R163. -/
def Mode.rne : Mode := ⟨.rne, false⟩

/-- The integer nearest to a finite value in a mode (R166). -/
def roundInt (rm : Rm) (s : Bool) (m : Nat) (e : Int) : Int :=
  let r : Int := (roundAt rm s m e 0 : Nat)
  if s then -r else r

/-- Conversion of an exact value to an integer type by rounding and saturation (R166). -/
def toIntSat (t : ElemType) (rm : Rm) : XVal → Nat
  | .nan => 0
  | .inf s => wrapTo t.width (if s then intMin t else intMax t)
  | .fin s m e => wrapTo t.width (clampTo t (roundInt rm s m e))

/-- The integer value of an exact integer. -/
def XVal.toInt : XVal → Int
  | .nan | .inf _ => 0
  | .fin s m e => roundInt .rtz s m e

/-- Rounds an exact value to a floating or tapered type (R164, R165); to an integer type it converts (R166). -/
def roundElem (t : ElemType) (md : Mode) (x : XVal) : Nat :=
  match t with
  | .s8 | .z8 | .s16 | .z16 | .s32 | .z32 | .s4 | .z4 => toIntSat t md.rm x
  | .e4m3 => roundE4m3 md.rm md.sat x
  | .e5m2 => fmtE5m2.round md.rm md.sat 0x7E x
  | .t8 => roundTaperedX 8 md.rm x
  | .t6 => roundTaperedX 6 md.rm x
  | .bf16 => fmtBf16.round md.rm false 0x7FC0 x
  | .f16 => fmtF16.round md.rm false 0x7E00 x
  | .f32 => fmtF32.round md.rm false 0x7FC00000 x

/-- The function fin of R176: rounding for a floating type, the value modulo 2^w for an integer type. -/
def finish (t : ElemType) (md : Mode) (x : XVal) : Nat :=
  if t.isInt then wrapTo t.width x.toInt else roundElem t md x

/-- The canonical NaN code of a floating type, or NaR (R155, R156). -/
def nanCode (t : ElemType) : Nat := roundElem t Mode.rne .nan

/-- The sign bit of a floating code. -/
def signBitOf (t : ElemType) : Nat := if t = .t6 then 32 else 2 ^ (t.width - 1)

/-- Conversion of R166: integer to integer wraps or, when `sat`, clamps. -/
def convElem (s t : ElemType) (md : Mode) (sat : Bool) (c : Nat) : Nat :=
  if s.isInt && t.isInt then
    let i := intOf s c
    wrapTo t.width (if sat && decide (t.width ≤ s.width) then clampTo t i else i)
  else roundElem t md (decodeElem s c)

/-- f32 addition rounded in a mode. -/
def addF32 (rm : Rm) (a b : Nat) : Nat := fmtF32.round rm false 0x7FC00000 ((fmtF32.decode a).add rm (fmtF32.decode b))

/-- f32 multiplication rounded to nearest even. -/
def mulF32 (a b : Nat) : Nat := fmtF32.round .rne false 0x7FC00000 ((fmtF32.decode a).mul (fmtF32.decode b))

/-- An f32 code to nearest even of an exact value. -/
def toF32 (x : XVal) : Nat := fmtF32.round .rne false 0x7FC00000 x

/-! ### Sums -/

/-- The exact sum of values from +0; the sign of a zero sum follows nearest rounding. -/
def sumX (l : List XVal) : XVal := l.foldl (fun a b => a.add .rne b) XVal.zero

/-- floor(log2 |t|) of the nonzero finite terms, the largest (R168). -/
def maxLog2 : List XVal → Option Int
  | [] => none
  | .fin _ m e :: r =>
    if m = 0 then maxLog2 r
    else match maxLog2 r with
      | none => some (log2Of m e)
      | some k => some (max k (log2Of m e))
  | .nan :: r => maxLog2 r
  | .inf _ :: r => maxLog2 r

/-- The term truncated toward zero to a count of 2^q (R168). -/
def truncTerm (q : Int) : XVal → Int
  | .nan | .inf _ => 0
  | .fin s m e =>
    let k : Int := (roundAt .rtz s m e q : Nat)
    if s then -k else k

/-- The chunk sum of R168 as an f32 code. -/
def chunkSum (terms : List XVal) : Nat :=
  let pos := terms.any fun t => t == .inf false
  let neg := terms.any fun t => t == .inf true
  if terms.any XVal.isNan || (pos && neg) then 0x7FC00000
  else if pos then 0x7F800000
  else if neg then 0xFF800000
  else match maxLog2 terms with
    | none => 0
    | some mx =>
      let q := mx - 30
      let s : Int := (terms.map (truncTerm q)).sum
      toF32 (.fin (decide (s < 0)) s.natAbs q)

/-- One level of the reduction tree: the first half combined with the second (R169). -/
def reduceLevel {α : Type} (f : α → α → α) (l : List α) : List α :=
  let h := l.length / 2
  List.zipWith f (l.take h) (l.drop h)

/-- The fixed reduction tree of R169 over 2^k values. -/
def reduceTree {α : Type} (f : α → α → α) : Nat → List α → List α
  | 0, l => l
  | k + 1, l => reduceTree f k (reduceLevel f l)

/-! ### Division and square root, for R362, R415 and R413 -/

/-- The quotient of two finite nonzero values with 96 further bits and a sticky bit. -/
def divX (a b : XVal) : XVal :=
  match a, b with
  | .nan, _ => .nan
  | _, .nan => .nan
  | .inf _, .inf _ => .nan
  | .inf s, .fin t _ _ => .inf (s != t)
  | .fin s _ _, .inf t => .fin (s != t) 0 0
  | .fin s m e, .fin t k f =>
    if k = 0 then (if m = 0 then .nan else .inf (s != t))
    else
      let n := m * 2 ^ (96 + k.log2)
      let q := n / k
      let st := if n % k = 0 then 0 else 1
      .fin (s != t) (2 * q + st) (e - f - (96 + k.log2 : Nat) - 1)

end Sys2Proof.Machine
end

