-- ==== Sys2Proof/Machine/Operands.lean ====
section
/-! DEFINITION. Operands of vector instructions: elements of a register, masks, load-queue heads, words of xq, and the
destinations (R171 to R174, R195, R196). -/

namespace Sys2Proof.Machine

/-! ### Elements -/

/-- Element `i` of width `w` of a 512-byte value (R153, R171). -/
def elemAt (w : Nat) (v : VWord) (i : Nat) : Nat := (v.toNat >>> (w * i)) % 2 ^ w

/-- The elements of a type in a value (R171). -/
def elems (t : ElemType) (v : VWord) : List Nat := (List.range t.count).map (elemAt t.width v)

/-- Elements of width `w`, element 0 lowest, as a number. -/
def packElems (w : Nat) : List Nat → Nat
  | [] => 0
  | x :: r => x % 2 ^ w + 2 ^ w * packElems w r

/-- Elements as a 512-byte value. -/
def ofElems (w : Nat) (l : List Nat) : VWord := .ofNat 4096 (packElems w l)

/-- The bits of the active elements, all ones where active. -/
def enableBits (w : Nat) (act : List Bool) : VWord := ofElems w (act.map fun a => if a then 2 ^ w - 1 else 0)

/-- The nibble enables of a store-queue entry (R173). -/
def enableNibbles (w : Nat) (act : List Bool) : MWord :=
  .ofNat 1024 (packElems (w / 4) (act.map fun a => if a then 2 ^ (w / 4) - 1 else 0))

/-- The mask bits of `n` elements (R172). -/
def activeOf (m : MWord) (n : Nat) : List Bool := (List.range n).map fun i => m.getLsbD i

/-- The code as it stands in a register: t6 clears bits 7:6 (R159). -/
def slotCode (t : ElemType) (c : Nat) : Nat := if t = .t6 then c % 64 else c % 2 ^ t.width

/-! ### Sources -/

/-- The head of a load queue as a reader meets it (R105, R107, R225, R239). -/
inductive LqHead where
  | ready (v : VWord)
  | stall
  | trap (f : FaultRec)
  deriving DecidableEq, Repr

/-- The fault of a stream held while it fills a load queue's next entry (R239). -/
def heldStream (b : Bank) (q : BitVec 3) : Option FaultRec :=
  let head := (b.loadQ q).head?.map VEntry.id
  (b.streams.find? fun p => p.2.held && decide (p.2.target.toNat = q.toNat) && decide (p.2.target.toNat < 8) &&
      (match head with
        | none => true
        | some id => decide (p.2.part.map PartEntry.id = some id))).map fun p =>
    { faultOf p.2.cause.toNat p.2.addr.toNat with flags := 2, pos := .ofNat 64 (bitsOf p.2.desc.toNat 495 448)
                                                  stream := .ofNat 8 p.1 }

/-- What a reader of a load queue meets. -/
def lqHead (b : Bank) (q : BitVec 3) : LqHead :=
  match headVec (b.loadQ q) with
  | some e => match e.err with
    | some a => .trap (faultOf 0x0F a.toNat)
    | none => .ready (e.val.getD 0)
  | none => match heldStream b q with
    | some f => .trap f
    | none => if b.pendingFeed (.lq q) then .stall else .trap (faultOf 0x05 0)

/-- The bits of data that are uncorrectable, as a PEEK reads them: no rule states them, so they are free (log entry 53). -/
def badData (now : Nat) (addr : W64) : VWord :=
  .ofNat 4096 (packElems 64 ((List.range 64).map fun i => (Config.freeWord (2 ^ 80 * (addr.toNat + 1) + 64 * now + i)).toNat))

/-- What a PEEK of a load queue meets: the faults of an entry are raised only where it is popped (R105, R225, R239). -/
def lqPeek (b : Bank) (now : Nat) (q : BitVec 3) : LqHead :=
  match headVec (b.loadQ q) with
  | some e => match e.err with
    | some a => .ready (badData now a)
    | none => .ready (e.val.getD 0)
  | none => if (heldStream b q).isSome || b.pendingFeed (.lq q) then .stall else .trap (faultOf 0x05 0)

/-- Reads a vector source for the instruction at the head of the V unit. -/
def withSrc (s : State) (a : VSrc) (k : VWord → Attempt) : Attempt :=
  let b := s.here
  match a with
  | .reg n => k (b.vreg (physReg (b.headEntry .V).rb n.toNat))
  | .lq q peek => match (if peek then lqPeek b s.cycle q else lqHead b q) with
    | .ready v => k v
    | .stall => .queueStall s
    | .trap f => .trap s f

/-- Reads the `n` oldest words of xq for an instruction that pops them (R174). -/
def withXq (s : State) (n : Nat) (k : List W64 → Attempt) : Attempt := withWords s .xq n k

/-- A load queue loses its head. -/
def popLq (b : Bank) (q : BitVec 3) : Bank := b.setLoadQ q (b.loadQ q).tail

/-- Pops a source once it is read, unless it peeks (R105). -/
def popSrc (b : Bank) : VSrc → Bank
  | .reg _ => b
  | .lq q peek => if peek then b else popLq b q

/-- Pops two sources; one queue named twice is popped once (R105). -/
def popSrcs (b : Bank) (x y : VSrc) : Bank := if x = y then popSrc b x else popSrc (popSrc b x) y

/-- The value of an index source: an immediate or a word of xq (R196). -/
def withIndex (s : State) (j : IndexSrc) (k : Nat → Attempt) : Attempt :=
  match j with
  | .imm n => k n.toNat
  | .xq => withXq s 1 fun l => k (l.headD 0).toNat

/-- Words of xq that an index source pops. -/
def indexPops : IndexSrc → Nat
  | .imm _ => 0
  | .xq => 1

/-! ### Declared operands -/

/-- Register sources within the declared count; queues need none (R33). -/
def Bank.hasSrc (b : Bank) : VSrc → Bool
  | .reg n => b.hasV [n.toNat]
  | .lq _ _ => true

/-- A register destination within the declared count (R33). -/
def Bank.hasDst (b : Bank) : VDst → Bool
  | .reg n => b.hasV [n.toNat]
  | .sq _ => true

/-! ### Destinations -/

/-- Waits for room in a store queue that the instruction will fill (R106). -/
def dstRoom (s : State) (d : VDst) (k : Attempt) : Attempt :=
  match d with
  | .reg _ => k
  | .sq q => if (s.here.storeQ q).length < vecDepth then k else .queueStall s

/-- Waits for room in cq when the instruction will fill an entry (R106). -/
def cqRoom (s : State) (wants : Bool) (k : Attempt) : Attempt :=
  if wants && decide (wordDepth ≤ s.here.cq.length) then .queueStall s else k

/-- A result for registers from name `n` on: the active elements of width `w` (R172). -/
def Bank.putReg (b : Bank) (lat n w : Nat) (vals : List Nat) (act : List Bool) : Bank :=
  b.send .V lat [.vreg (physReg (b.headEntry .V).rb n) (ofElems w vals) (enableBits w act)]

/-- A result for a destination: a register under the mask, or a store-queue entry with its enables (R172, R173). -/
def Bank.putDst (b : Bank) (lat : Nat) (d : VDst) (w : Nat) (vals : List Nat) (act : List Bool) : Bank :=
  match d with
  | .reg n => b.putReg lat n.toNat w vals act
  | .sq q =>
    let data := ofElems w vals &&& enableBits w act
    (b.reserveStore q).sendQ lat [.sq q b.nextId data (enableNibbles w act)]

/-- A word for cq at a latency (R174). -/
def Bank.putCq (b : Bank) (lat : Nat) (v : W64) : Bank := (b.reserveWord .cq).sendQ lat [.word .cq b.nextId v]

/-- A result for a mask register: bits of the active elements (R112, R186). -/
def Bank.putMask (b : Bank) (lat : Nat) (n : BitVec 6) (bits act : List Bool) : Bank :=
  b.send .V lat [.mreg n (.ofNat 1024 (packElems 1 (bits.map Bool.toNat))) (.ofNat 1024 (packElems 1 (act.map Bool.toNat)))]

end Sys2Proof.Machine
end

