-- ==== Sys2Proof/Machine/Streams.lean ====
section
/-! DEFINITION. Streams of the access unit: descriptors, the walk, elements in memory, fetching, storing and drawing
(R233 to R239, R255). -/

namespace Sys2Proof.Machine

/-! ### The descriptor -/

/-- A descriptor's fields (R233). -/
structure SDesc where
  base : Nat
  bklog : Nat
  brlog : Nat
  gsz : Nat
  sfmt : Nat
  rowpad : Bool
  store : Bool
  type : Nat
  e0 : Nat
  e1 : Nat
  e2 : Nat
  e3 : Nat
  s1 : Int
  s2 : Int
  s3 : Int
  sstride : Int
  sbase : Nat
  pos : Nat
  deriving DecidableEq, Repr

/-- Bits of a descriptor word. -/
def descBits (d : BitVec 512) (w hi lo : Nat) : Nat := bitsOf d.toNat (64 * w + hi) (64 * w + lo)

/-- Reads the fields of a descriptor (R233). -/
def SDesc.of (d : BitVec 512) : SDesc where
  base := descBits d 0 47 0
  bklog := descBits d 1 22 19
  brlog := descBits d 1 18 16
  gsz := descBits d 1 15 10
  sfmt := descBits d 1 9 8
  rowpad := decide (descBits d 1 6 6 = 1)
  store := decide (descBits d 1 5 5 = 1)
  type := descBits d 1 4 0
  e0 := descBits d 2 15 0 + 1
  e1 := descBits d 2 31 16 + 1
  e2 := descBits d 2 47 32 + 1
  e3 := descBits d 2 63 48 + 1
  s1 := signedOf 32 (descBits d 3 31 0)
  s2 := signedOf 32 (descBits d 3 63 32)
  s3 := signedOf 32 (descBits d 4 31 0)
  sstride := signedOf 32 (descBits d 4 63 32)
  sbase := descBits d 5 47 0
  pos := descBits d 7 47 0

/-- The fields marked zero in R233. -/
def descZeros (d : BitVec 512) : Bool :=
  decide (descBits d 0 63 48 = 0) && decide (descBits d 1 63 23 = 0) && decide (descBits d 1 7 7 = 0) &&
    decide (descBits d 5 63 48 = 0) && decide (descBits d 6 63 0 = 0) && decide (descBits d 7 63 48 = 0)

/-- The descriptor with another POS. -/
def descSetPos (d : BitVec 512) (p : Nat) : BitVec 512 :=
  .ofNat 512 (d.toNat % 2 ^ 448 + 2 ^ 448 * (p % 2 ^ 48 + 2 ^ 48 * descBits d 7 63 48))

/-- The descriptor with another word (R237). -/
def descSetWord (d : BitVec 512) (w : Nat) (v : W64) : BitVec 512 :=
  .ofNat 512 (d.toNat % 2 ^ (64 * w) + 2 ^ (64 * w) * (v.toNat + 2 ^ 64 * (d.toNat / 2 ^ (64 * (w + 1)))))

/-- The element type of a descriptor. -/
def SDesc.ty (x : SDesc) : ElemType := (ElemType.ofCode x.type).getD .s8
/-- Number of elements of the walk (R234). -/
def SDesc.n (x : SDesc) : Nat := x.e0 * x.e1 * x.e2 * x.e3
/-- Segment length BK (R233). -/
def SDesc.bk (x : SDesc) : Nat := if x.bklog = 0 then x.e0 else 2 ^ x.bklog
/-- Rows per block BR. -/
def SDesc.br (x : SDesc) : Nat := 2 ^ x.brlog
/-- Slots of an entry (R171, R234). -/
def SDesc.slots (x : SDesc) : Nat := x.ty.count
/-- Size of a scale in bytes. -/
def SDesc.scaleSize (x : SDesc) : Nat := if x.sfmt = 3 then 4 else 2
/-- Type of a scale. -/
def SDesc.scaleType (x : SDesc) : ElemType := if x.sfmt = 1 then .bf16 else if x.sfmt = 2 then .f16 else .f32

/-- Cause 0x02 checks of R235. -/
def descIllegal (d : BitVec 512) (target : Nat) : Bool :=
  let x := SDesc.of d
  !descZeros d || decide (15 ≤ x.type) || decide (1 ≤ x.bklog ∧ x.bklog ≤ 3) || decide (x.bklog = 15) ||
    decide (x.e0 % x.bk ≠ 0) || decide (x.e1 % x.br ≠ 0) || (decide (x.ty.width = 4) && decide (x.e0 % 2 ≠ 0)) ||
    (x.ty == .t6 && decide (x.e0 % 4 ≠ 0)) || (x.store && decide (x.sfmt ≠ 0)) ||
    (x.store != decide (8 ≤ target ∧ target < 16))

/-- Cause 0x0E checks of R235. -/
def descMisaligned (d : BitVec 512) : Bool :=
  let x := SDesc.of d
  let z : Int := x.ty.bytes
  let bad (i : Int) (z : Int) : Bool := decide (i % z ≠ 0)
  bad x.base z || bad x.s1 z || bad x.s2 z || bad x.s3 z ||
    (decide (x.sfmt ≠ 0) && (bad x.sbase x.scaleSize || bad x.sstride x.scaleSize))

/-! ### The walk -/

/-- The coordinates of a walk index (R234). -/
structure Coord where
  i0 : Nat
  i1 : Nat
  i2 : Nat
  i3 : Nat
  deriving DecidableEq, Repr

/-- The coordinates of walk index `p` (R234). -/
def SDesc.coord (x : SDesc) (p : Nat) : Coord :=
  let seg := p / x.bk
  let q := seg / x.br
  let b1 := q / (x.e0 / x.bk)
  ⟨q % (x.e0 / x.bk) * x.bk + p % x.bk, b1 % (x.e1 / x.br) * x.br + seg % x.br, b1 / (x.e1 / x.br) % x.e2,
    b1 / (x.e1 / x.br) / x.e2⟩

/-- An address modulo 2^64. -/
def wrapAddr (i : Int) : Nat := wrapTo 64 i

/-- The address of the row of an element (R234). -/
def SDesc.row (x : SDesc) (c : Coord) : Int := x.base + c.i1 * x.s1 + c.i2 * x.s2 + c.i3 * x.s3

/-- Where an element stands in memory: byte address, bytes it touches, and its low bit in the first byte (R153, R159,
R234). -/
structure Place where
  addr  : Nat
  bytes : Nat
  bit   : Nat
  deriving DecidableEq, Repr

/-- The place of walk index `p`. -/
def SDesc.place (x : SDesc) (p : Nat) : Place :=
  let c := x.coord p
  match x.ty with
  | .t6 => ⟨wrapAddr (x.row c + (6 * c.i0 / 8 : Nat)), if 6 * c.i0 % 8 ≤ 2 then 1 else 2, 6 * c.i0 % 8⟩
  | .s4 | .z4 => ⟨wrapAddr (x.row c + (c.i0 / 2 : Nat)), 1, 4 * (c.i0 % 2)⟩
  | t => ⟨wrapAddr (x.row c + (c.i0 * t.bytes : Nat)), t.bytes, 0⟩

/-- Bits of an element in memory (R153, R159). -/
def memBits (t : ElemType) : Nat := if t = .t6 then 6 else t.width

/-- The address of the scale of an element (R236). -/
def SDesc.scaleAddr (x : SDesc) (c : Coord) : Nat :=
  wrapAddr (x.sbase + (c.i1 + x.e1 * (c.i2 + x.e2 * c.i3) : Nat) * x.sstride +
    (c.i0 / (16 * (x.gsz + 1)) * x.scaleSize : Nat))

/-- The number of an element's scale group among all groups (R167, R236). -/
def SDesc.groupNum (x : SDesc) (c : Coord) : Nat :=
  (c.i1 + x.e1 * (c.i2 + x.e2 * c.i3)) * (x.e0 / (16 * (x.gsz + 1)) + 1) + c.i0 / (16 * (x.gsz + 1))

/-- Whether an entry that has taken `count` slots is complete after walk index `p` (R234). -/
def SDesc.entryEnds (x : SDesc) (p count : Nat) : Bool :=
  decide (count = x.slots) || decide (p + 1 = x.n) || (x.rowpad && decide ((p + 1) % x.bk = 0))

/-! ### Elements in memory -/

/-- What the access to an element came to. -/
inductive ElemRead where
  | ok (code : Nat) (err : Option Nat)
  /-- an atomic of the task on its bytes has still to execute (R230) -/
  | wait
  | bad (cause addr : Nat)
  deriving DecidableEq, Repr

/-- The width in which `n` bytes at a system register may be accessed (R468). -/
def sysWidth (pa n : Nat) : Bool := [1, 2, 4, 8].contains n && decide (pa % n = 0)

/-- The element of a place; in a system register, the register's bytes (R225, R230, R468). -/
def readPlace (s : State) (row : Nat) (t : ElemType) (pl : Place) : ElemRead :=
  let align := if t = .t6 then 1 else t.bytes
  match translate s row .read true pl.addr pl.bytes align with
  | .bad c a => .bad c a
  | .miss a => .bad 0x06 a
  | .ok l =>
    if touchesSysreg s l then
      match inSysreg s l with
      | some pa =>
        if sysWidth pa pl.bytes then .ok (ofBytes (sysRead s pa pl.bytes) / 2 ^ pl.bit % 2 ^ memBits t) none else .bad 0x07 pl.addr
      | none => .bad 0x07 pl.addr
    else if meetsAtomic (s.bank row) l then .wait
    else .ok (ofBytes (segBytes s row l) / 2 ^ pl.bit % 2 ^ memBits t) ((segPoison s row l).map fun _ => pl.addr)

/-- An element as a stream draws it, with its scale when the stream feeds a port (R236, R242). -/
inductive Draw where
  | elt (e : Elt) (err : Option Nat)
  | wait
  | bad (cause addr : Nat)
  deriving DecidableEq, Repr

/-- Draws walk index `p` for an engine port. -/
def drawAt (s : State) (row : Nat) (x : SDesc) (p : Nat) : Draw :=
  let c := x.coord p
  match readPlace s row x.ty (x.place p) with
  | .bad k a => .bad k a
  | .wait => .wait
  | .ok code err =>
    if x.sfmt = 0 then .elt ⟨code, x.groupNum c, none, err.isSome⟩ err
    else match readPlace s row x.scaleType ⟨x.scaleAddr c, x.scaleSize, 0⟩ with
      | .bad k a => .bad k a
      | .wait => .wait
      | .ok sc err' => .elt ⟨code, x.groupNum c, some (decodeElem x.scaleType sc), (err <|> err').isSome⟩ (err <|> err')

/-! ### The streams of a bank -/

/-- A stream of a bank. -/
def Bank.stream (b : Bank) (st : Nat) : Stream := b.streams.get Stream.reset st
/-- Writes a stream of a bank. -/
def Bank.setStream (b : Bank) (st : Nat) (x : Stream) : Bank := { b with streams := b.streams.set Stream.reset st x }
/-- Changes a stream of a bank. -/
def Bank.modStream (b : Bank) (st : Nat) (f : Stream → Stream) : Bank := b.setStream st (f (b.stream st))

/-- POS of a stream. -/
def Stream.pos (x : Stream) : Nat := descBits x.desc 7 47 0

/-- A stream advanced to a position; it ends when the walk is over (R238). -/
def Stream.at (x : Stream) (p : Nat) : Stream :=
  let n := (SDesc.of x.desc).n
  { x with desc := descSetPos x.desc p, active := x.active && decide (p < n) }

/-- The stream held by a fault at its position (R239). -/
def Stream.hold (x : Stream) (cause addr : Nat) : Stream :=
  { x with held := true, cause := .ofNat 8 cause, addr := .ofNat 64 addr }

/-- The fault record of a held stream (R239, R432). -/
def streamFault (st : Nat) (x : Stream) : FaultRec :=
  { faultOf x.cause.toNat x.addr.toNat with flags := 2, pos := .ofNat 64 x.pos, stream := .ofNat 8 st }

/-- The fault of a held store stream, which the next access-unit instruction raises (R239). -/
def heldStore (b : Bank) : Option FaultRec :=
  (b.streams.find? fun p => p.2.held && decide (8 ≤ p.2.target.toNat) && decide (p.2.target.toNat < 16)).map fun p =>
    streamFault p.1 p.2

/-- Held streams go on after a retry (R239, R433). -/
def releaseHeld (b : Bank) : Bank :=
  (List.range 16).foldl (fun b st =>
    if (b.stream st).held then b.modStream st fun x => { x with held := false } else b) b

/-! ### Load streams -/

/-- Fetches elements into a partly filled entry until it is complete, or an element faults or has to wait: the entry, the position, the fault,
and whether it is complete (R230, R234, R239). -/
def fillPart (s : State) (row : Nat) (x : SDesc) : Nat → Nat → PartEntry → PartEntry × Nat × Option (Nat × Nat) × Bool
  | 0, p, e => (e, p, none, true)
  | fuel + 1, p, e =>
    match readPlace s row x.ty (x.place p) with
    | .bad c a => (e, p, some (c, a), false)
    | .wait => (e, p, none, false)
    | .ok code err =>
      let data := e.data ||| .ofNat 4096 (code * 2 ^ (x.ty.width * e.count))
      let e := { e with data := data, count := e.count + 1, err := e.err <|> err.map (.ofNat 64) }
      if x.entryEnds p e.count then (e, p + 1, none, true) else fillPart s row x fuel (p + 1) e

/-- The leaves of the elements from one position to another enter the core's TLB (R331). -/
def touchElems (s : State) (row : Nat) (d : SDesc) (p n : Nat) : State :=
  ((List.range (n - p)).flatMap fun i =>
    let pl := d.place (p + i)
    (pagesOf 2 pl.addr pl.bytes).map fun g => g.1 / 65536 * 65536).eraseDups.foldl (fun s va => touchRange s row va 1) s

/-- A load stream fetches one entry and enters it into its queue (R238); a full queue makes it wait. -/
def streamFetch (s : State) (row st : Nat) : State :=
  let b := s.bank row
  let x := b.stream st
  let d := SDesc.of x.desc
  let q : BitVec 3 := .ofNat 3 x.target.toNat
  if !x.active || x.held || decide (8 ≤ x.target.toNat) || decide (d.n ≤ x.pos) then
    s.modBank row fun b => b.modStream st fun x => x.at x.pos
  else if x.part.isNone && decide (vecDepth ≤ (b.loadQ q).length) then s
  else
    let b1 := if x.part.isNone then b.reserveLoad q 0 else b
    let part := x.part.getD ⟨b.nextId, 0, 0, none⟩
    let r := fillPart s row d d.slots x.pos part
    let s := touchElems s row d x.pos r.2.1
    if r.2.2.2 then
      s.setBank row ((b1.setLoadQ q (fillVec (b1.loadQ q) r.1.id r.1.data 0 r.1.err)).modStream st fun x =>
        { x.at r.2.1 with part := none })
    else
      s.setBank row (b1.modStream st fun x =>
        let y := { x.at r.2.1 with part := some r.1 }
        match r.2.2.1 with
        | none => y
        | some f => y.hold f.1 f.2)

/-- SSTOP of a load stream: it stops at once, and the entry that it was filling is dropped (R238). -/
def stopLoad (b : Bank) (st : Nat) : Bank :=
  let x := b.stream st
  let q : BitVec 3 := .ofNat 3 x.target.toNat
  let b := match x.part with
    | none => b
    | some e => b.setLoadQ q ((b.loadQ q).filter fun v => decide (v.id ≠ e.id))
  let back := (x.part.map PartEntry.count).getD 0
  b.modStream st fun x =>
    { x with desc := descSetPos x.desc (x.pos - back), active := false, held := false, part := none, drain := none }

/-! ### Store streams -/

/-- What the store of an element came to. -/
inductive ElemWrite where
  | ok (s : State)
  | wait
  | bad (cause addr : Nat)
  deriving DecidableEq, Repr

/-- The freeze count that the directory holds for an address, met after the TLB's copy (R315). -/
def frozenAt (s : State) (row va : Nat) : Bool :=
  if inScratch va then false
  else match walk s (s.row row).asid va with
    | .leaf pte _ _ _ => decide (pteFcnt pte ≠ 0)
    | .bad _ => false

/-- Asks the directory for the subpages of a store that the row does not hold, in the task's name, and grants them at once when no other row
holds one (R304, R306, R315, R324, R335). -/
def grantTask (s : State) (row : Nat) (segs : List Seg) (va : Nat) : ElemWrite :=
  let subs := subpagesOf s segs
  let need := subs.filter fun p => !ownedBy s row p
  if need.any (homeBusy s) || (decide (need ≠ []) && freezesDue (s.bank row)) then .wait
  else match segs.find? fun g => frozenAt s row g.va with
    | some g => .bad 0x08 g.va
    | none =>
      if subs.any (ownedByOther s row) then .bad 0x09 va
      else .ok (addOwners (tlbTouch (settle s need) row segs) (.task row) subs)

/-- Writes the low bits of an element under a nibble mask into bytes: bit `bit` on, `n` bits. -/
def mergeElem (old : Nat) (bit n code mask : Nat) : Nat :=
  let m := mask % 2 ^ n * 2 ^ bit
  (old &&& (2 ^ 40 - 1 - m)) ||| (code * 2 ^ bit &&& m)

/-- The bit mask of an element from the nibble enables of its slot (R173, R236). -/
def slotMask (t : ElemType) (en : MWord) (slot : Nat) : Nat :=
  match t with
  | .t6 => if en.getLsbD (2 * slot) then 63 else 0
  | t => packElems 4 ((List.range (t.width / 4)).map fun k => if en.getLsbD (t.width / 4 * slot + k) then 15 else 0)

/-- Stores one element, at a system register in a width that it allows (R468); `lent` tells whether an address range is lent (R240). -/
def writePlace (s : State) (row : Nat) (lent : Nat → Nat → Bool) (t : ElemType) (pl : Place) (code mask : Nat) : ElemWrite :=
  let align := if t = .t6 then 1 else t.bytes
  match translate s row .write true pl.addr pl.bytes align with
  | .bad c a => .bad c a
  | .miss a => .bad 0x06 a
  | .ok l =>
    if touchesSysreg s l then
      match inSysreg s l with
      | some pa =>
        let old := ofBytes (sysRead s pa pl.bytes)
        if sysWidth pa pl.bytes then .ok (sysWrite s row pa (toBytes pl.bytes (mergeElem old pl.bit (memBits t) code mask))) else .bad 0x07 pl.addr
      | none => .bad 0x07 pl.addr
    else match grantTask s row l pl.addr with
    | .bad c a => .bad c a
    | .wait => .wait
    | .ok s' =>
      if lent pl.addr pl.bytes then .wait
      else
        let old := ofBytes (segBytes s' row l)
        .ok (segWrite s' row l ((toBytes pl.bytes (mergeElem old pl.bit (memBits t) code mask)).map some))

/-- Elements of the head entry of a store queue, from slot `count` on, written in walk order until the entry ends, an element
waits, or one faults: the state, the position, the slot and the fault (R238, R239). -/
def drainEntry (row : Nat) (lent : Nat → Nat → Bool) (x : SDesc) (e : VEntry) :
    Nat → State → Nat → Nat → State × Nat × Nat × Option (Nat × Nat) × Bool
  | 0, s, p, k => (s, p, k, none, true)
  | fuel + 1, s, p, k =>
    let mask := slotMask x.ty e.en k
    let code := elemAt x.ty.width (e.val.getD 0) k
    let next (s : State) : State × Nat × Nat × Option (Nat × Nat) × Bool :=
      if x.entryEnds p (k + 1) then (s, p + 1, k + 1, none, true) else drainEntry row lent x e fuel s (p + 1) (k + 1)
    if mask = 0 then next s
    else match writePlace s row lent x.ty (x.place p) code mask with
      | .ok s' => next s'
      | .wait => (s, p, k, none, false)
      | .bad c a => (s, p, k, some (c, a), false)

/-- A store stream writes one store-queue entry's enabled elements to memory (R238). -/
def streamStore (s : State) (row st : Nat) (lent : Nat → Nat → Bool) : State :=
  let b := s.bank row
  let x := b.stream st
  let d := SDesc.of x.desc
  let q : BitVec 3 := .ofNat 3 (x.target.toNat - 8)
  if !x.active || x.held || decide (x.target.toNat < 8) || decide (16 ≤ x.target.toNat) then s
  else if x.drain = some 0 || decide (d.n ≤ x.pos) then
    s.setBank row (b.modStream st fun x => { x with active := false, drain := none, part := none })
  else match headVec (b.storeQ q) with
    | none => s
    | some e =>
      let k := (x.part.map PartEntry.count).getD 0
      let r := drainEntry row lent d e d.slots s x.pos k
      if r.2.2.2.2 then
        r.1.modBank row fun b =>
          let y := (b.stream st).at r.2.1
          let left := y.drain.map fun n => n - 1
          let y := { y with part := none, drain := left, active := y.active && decide (left ≠ some 0) }
          (b.setStoreQ q (b.storeQ q).tail).setStream st { y with drain := if y.active then left else none }
      else
        r.1.modBank row fun b =>
          let y := { (b.stream st).at r.2.1 with part := some ⟨e.id, 0, r.2.2.1, none⟩ }
          b.setStream st (match r.2.2.2.1 with
            | none => y
            | some f => y.hold f.1 f.2)

/-- SSTOP of a store stream, and the stop of R143: the entries now in the queue are still written (R238). -/
def stopStore (b : Bank) (st : Nat) : Bank :=
  let x := b.stream st
  let n := (b.storeQ (.ofNat 3 (x.target.toNat - 8))).length
  if x.drain.isSome then b
  else b.setStream st { x with drain := if n = 0 then none else some n, active := x.active && decide (n ≠ 0) }

/-- Whether a stream feeds an engine port or a load queue. -/
def Stream.loads (x : Stream) : Bool := decide (x.target.toNat < 8) || decide (16 ≤ x.target.toNat)

end Sys2Proof.Machine
end

