-- ==== Sys2Proof/Machine/EngineQueues.lean ====
section
/-! DEFINITION. What the sequencer, the access unit and the vector unit meet of the engines: queues, busy tiles and lent
ranges (R91 to R93, R103, R216, R240, R246). -/

namespace Sys2Proof.Machine

/-! ### Tile configurations -/

/-- Size of a tile element in bytes (R213). -/
def tileElemSize (t : ElemType) : Nat := if t = .bf16 then 2 else 4
/-- The configuration of a word of R216. -/
def TileCfg.ofWord (w : Nat) : TileCfg :=
  ⟨bitsOf w 44 32 * 512, (ElemType.ofCode (bitsOf w 20 16)).getD .f32, bitsOf w 7 0 + 1, bitsOf w 15 8 + 1⟩
/-- The word of a configuration (R216). -/
def TileCfg.toWord (c : TileCfg) : Nat := c.base / 512 * 2 ^ 32 + c.ty.code * 2 ^ 16 + (c.cols - 1) * 2 ^ 8 + (c.rows - 1)
/-- Bytes of a tile's extent (R213). -/
def TileCfg.bytes (c : TileCfg) : Nat := c.rows * c.cols * tileElemSize c.ty
/-- The end of a tile's extent (R216). -/
def TileCfg.stop (c : TileCfg) : Nat := c.base + c.bytes
/-- Whether two extents share bytes. -/
def TileCfg.overlaps (a b : TileCfg) : Bool := decide (a.base < b.stop) && decide (b.base < a.stop)
/-- Byte offset of element (r, c) (R213). -/
def TileCfg.at (t : TileCfg) (r c : Nat) : Nat := t.base + (r * t.cols + c) * tileElemSize t.ty

/-- The state of a tile. -/
def Bank.tile (b : Bank) (t : Nat) : Tile := b.tiles.get .unconfigured t
/-- Writes the state of a tile. -/
def Bank.setTile (b : Bank) (t : Nat) (x : Tile) : Bank := { b with tiles := b.tiles.set .unconfigured t x }
/-- The configuration of a configured or absent tile. -/
def Tile.cfg : Tile → Option TileCfg
  | .unconfigured => none
  | .configured c | .absent c => some c

/-- The 512-byte granules of an extent (R245). -/
def granulesOf (c : TileCfg) : List Nat :=
  (List.range ((c.stop - 1) / 512 - c.base / 512 + 1)).map fun i => c.base / 512 + i

/-! ### Entries of the engine queues -/

/-- The command of an entry. -/
def EngEntry.cmd (x : EngEntry) (e : Eng) : Option Instr := decodeCmd e x.nats
/-- SHADOW of an entry. -/
def EngEntry.shadow (x : EngEntry) : Nat := bitsOf (cmdWord x.nats 0) 35 32
/-- BTAG of an entry. -/
def EngEntry.btag (x : EngEntry) : Nat := bitsOf (cmdWord x.nats 0) 31 24
/-- The tile that an MX command names (R246). -/
def EngEntry.tile (x : EngEntry) : Option Nat := if x.resolve.isSome then none else (cmdNames .mx x.nats).tile

/-- Whether MX has accepted and not completed a command that names a tile (R103, R246). -/
def Bank.tileBusy (b : Bank) (t : BitVec 6) : Bool := b.mx.any fun x => x.tiles.contains t

/-- A new entry, accepted in the cycle `now`. -/
def newEntry (id now : Nat) (words : List W64) (resolve : Option (BitVec 3 × Bool)) (tiles : List (BitVec 6)) : EngEntry :=
  ⟨id, words, resolve, tiles, .waiting, false, 0, 0, [], [], [], [], 0, [], [], [], now⟩

/-- Row 3 of R93 beyond the registers: a tile, stream or layout at or beyond the header's counts, or an MTCFG whose end
passes ACC (R33, R251, R352). DEDUCED (log entry 51): the end of an MTCFG of another type than 14, 4 and 12, which row 4 refuses, counts 4 bytes
an element. -/
def cmdUndeclared (b : Bank) (e : Eng) (ws : List Nat) : Bool :=
  let n := cmdNames e ws
  let past (x : Option Nat) (limit : Nat) : Bool := match x with
    | none => false
    | some v => decide (limit ≤ v)
  past n.tile b.decl.t || past n.stream b.decl.st || past n.layout b.decl.nlayout ||
    (match n.cfg with
      | none => false
      | some w => decide (b.decl.acc < (TileCfg.ofWord w).stop))

/-- Row 4 of R93 and the checks that need the task or the core: a malformed command, a START of a task that is not pinned,
more weight columns than the array has, or the core's own die as a peer (R93, R251, R381). -/
def cmdMalformed (s : State) (row : Nat) (e : Eng) (ws : List Nat) : Bool :=
  match decodeCmd e ws with
  | none => true
  | some i =>
    (decide (bitsOf (cmdWord ws 0) 55 36 ≠ 0) && !(s.row row).pinned) ||
      (match i with
        | .mlw _ _ nc _ => coreKind (coreOf row) != .compute && decide (63 < nc.toNat)
        | .xsend _ _ d _ _ | .xgrant _ d _ _ | .xgrantRevoke _ d _ _ | .xrecv _ _ d _ _ => decide (d.toNat = dieOf row)
        | _ => false)

/-! ### Lent ranges -/

/-- The lowest and highest value of `i * stride` for `i` from `lo` to `hi`. -/
def spanOf (lo hi : Nat) (stride : Int) : Int × Int := (min (lo * stride) (hi * stride), max (lo * stride) (hi * stride))

/-- Ranges of the coordinates of elements: i3, i2, block of rows, segment, row in the block, and place in the segment. -/
abbrev Box := List (Nat × Nat)

/-- The boxes that hold what a walk has left after the digits of its position: for each digit those elements that agree before it and are
beyond it there, the position itself among them. -/
def boxesFrom (pre : Box) : List (Nat × Nat) → List Box
  | [] => []
  | [(d, n)] => if d < n then [pre ++ [(d, n - 1)]] else []
  | (d, n) :: r =>
    (if d + 1 < n then [pre ++ (d + 1, n - 1) :: r.map fun x => (0, x.2 - 1)] else []) ++ boxesFrom (pre ++ [(d, d)]) r

/-- The boxes of a stream's elements from POS on. -/
def SDesc.boxes (d : SDesc) : List Box :=
  let c := d.coord d.pos
  boxesFrom [] [(c.i3, d.e3), (c.i2, d.e2), (c.i1 / d.br, d.e1 / d.br), (c.i0 / d.bk, d.e0 / d.bk), (c.i1 % d.br, d.br), (c.i0 % d.bk, d.bk)]

/-- The lowest and highest i0, i1, i2 and i3 of a box. -/
def SDesc.corners (d : SDesc) (b : Box) : List (Nat × Nat) :=
  let g (i : Nat) : Nat × Nat := b.getD i (0, 0)
  [((g 3).1 * d.bk + (g 5).1, (g 3).2 * d.bk + (g 5).2), ((g 2).1 * d.br + (g 4).1, (g 2).2 * d.br + (g 4).2), g 1, g 0]

/-- The sum of two spans. -/
def addSpan (a b : Int × Int) : Int × Int := (a.1 + b.1, a.2 + b.2)

/-- The bytes from the lowest to the highest element of a box. -/
def SDesc.boxSpan (d : SDesc) (b : Box) : Int × Int :=
  let c := d.corners b
  let g (i : Nat) : Nat × Nat := c.getD i (0, 0)
  addSpan (addSpan (spanOf (g 1).1 (g 1).2 d.s1) (spanOf (g 2).1 (g 2).2 d.s2))
    (addSpan (spanOf (g 3).1 (g 3).2 d.s3)
      (d.base + ((g 0).1 * memBits d.ty / 8 : Nat), d.base + ((((g 0).2 + 1) * memBits d.ty + 7) / 8 : Nat) - 1))

/-- The bytes from the lowest to the highest scale of a box's elements. -/
def SDesc.boxScales (d : SDesc) (b : Box) : Int × Int :=
  let c := d.corners b
  let g (i : Nat) : Nat × Nat := c.getD i (0, 0)
  let group (i : Nat) : Int := (i / (16 * (d.gsz + 1)) * d.scaleSize : Nat)
  addSpan (spanOf ((g 1).1 + d.e1 * ((g 2).1 + d.e2 * (g 3).1)) ((g 1).2 + d.e1 * ((g 2).2 + d.e2 * (g 3).2)) d.sstride)
    (d.sbase + group (g 0).1, d.sbase + group (g 0).2 + d.scaleSize - 1)

/-- The interval from the lowest to the highest byte of spans. -/
def hull : List (Int × Int) → List (Int × Int)
  | [] => []
  | x :: r => [r.foldl (fun a b => (min a.1 b.1, max a.2 b.2)) x]

/-- The spans that a stream's element and scale reads touch. -/
def streamSpans (d : SDesc) : List (Int × Int) :=
  if d.n ≤ d.pos then []
  else hull (d.boxes.map d.boxSpan) ++ if d.sfmt = 0 then [] else hull (d.boxes.map d.boxScales)

/-- The span of rows of `len` bytes from an address with a stride. -/
def rowsSpan (addr rows len : Nat) (stride : Int) : Int × Int :=
  let a := spanOf 0 (rows - 1) stride
  (addr + a.1, addr + a.2 + len - 1)

/-- The configuration that a tile will have when a command accepted now starts: that of the last MTCFG of it in the MX queue, or its present
one (R240, R270). -/
def tileAhead (b : Bank) (t : BitVec 6) : Option TileCfg :=
  (b.mx.filterMap fun x => match x.cmd .mx with
    | some (.mtcfg _ u w) => if u = t then some (TileCfg.ofWord w.toNat) else none
    | _ => none).getLast? <|> (b.tile t.toNat).cfg

/-- The spans that a command of MX or CP reads from memory (R240). -/
def cmdSpans (b : Bank) (i : Instr) : List (Int × Int) :=
  match i with
  | .mlw _ st _ _ => streamSpans (SDesc.of (b.stream st.toNat).desc)
  | .mms _ x | .mmsa _ x => streamSpans (SDesc.of (b.stream x.astr.toNat).desc)
  | .mloadt _ t addr stride =>
    match tileAhead b t with
    | none => []
    | some c => [rowsSpan addr.toNat c.rows (c.cols * tileElemSize c.ty) (signedOf 32 stride.toNat)]
  | .cpy _ x | .cpyf _ x =>
    if x.shost then [] else [rowsSpan x.src.toNat (x.rowsM1.toNat + 1) (x.lenM1.toNat + 1) (signedOf 32 x.sstride.toNat)]
  | .cpyc _ x =>
    if x.shost then []
    else
      let size := match cpycField x.opx with
        | some (_, st, _, _) => st.bytes
        | none => 1
      [rowsSpan x.src.toNat (x.rowsM1.toNat + 1) ((x.lenM1.toNat + 1) * size) (signedOf 32 x.sstride.toNat)]
  | _ => []

/-- Whether an entry still lends its source: it has not read its last byte (R240). -/
def EngEntry.lends (x : EngEntry) : Bool :=
  match x.state with
  | .waiting | .held => true
  | .running .. | .ending .. | .staged | .following | .putting | .flying .. | .permitWait _ => false

/-- The ranges lent by a bank's MX and CP commands (R240). -/
def lentSpans (b : Bank) : List (Int × Int) := ((b.mx ++ b.cp).filter EngEntry.lends).flatMap EngEntry.lent

/-- Whether `n` bytes at an address meet a lent range, widened to 128-byte lines (R240). -/
def lentAt (b : Bank) (addr n : Nat) : Bool :=
  (lentSpans b).any fun r => decide (r.1 / 128 * 128 < addr + n) && decide ((addr : Int) < (r.2 / 128 + 1) * 128)

/-! ### Acceptance -/

/-- Accepts a command into an engine's queue: an MX command makes its tile busy, and an MX or CP command lends the ranges that it will read
(R135, R240, R246). -/
def pushEntry (b : Bank) (e : Eng) (words : List W64) (now : Nat) : Bank :=
  let x := newEntry b.nextId now words none []
  let x := if e = .mx then { x with tiles := x.tile.toList.map (.ofNat 6) } else x
  let x := if e = .mx ∨ e = .cp then { x with lent := ((x.cmd e).map (cmdSpans b)).getD [] } else x
  let b := { b with nextId := b.nextId + 1, usedMx := b.usedMx || decide (e = Eng.mx), usedXg := b.usedXg || decide (e = Eng.xg) }
  b.setEngQ e (b.engQ e ++ [x])

/-- Accepts a resolve entry: it makes busy every tile named by a command of its set before it, one that has ended with a live copy among them
(R138, R246). -/
def pushResolve (b : Bank) (n : BitVec 3) (keep : Bool) (now : Nat) : Bank :=
  let tiles := (b.mx.filter fun x => decide (x.shadow = n.toNat) && x.resolve.isNone).flatMap EngEntry.tiles ++
    (b.copies.filter fun c => decide (c.set.toNat = n.toNat)).map ShadowCopy.tile
  { b with nextId := b.nextId + 1, mx := b.mx ++ [newEntry b.nextId now [] (some (n, keep)) tiles.eraseDups] }

end Sys2Proof.Machine
end

