-- ==== Sys2Proof/Machine/Flags.lean ====
section
/-! DEFINITION. The conditions: predicates of CMP, of VCMP, the classes of VCLASS, and the choices of VMIN and VMAX. -/

namespace Sys2Proof.Machine

/-- The predicates of CMP and CMPI; LT and GE are signed, LTZ and GEZ unsigned (R128). -/
def predHolds (p : Pred) (a b : W64) : Bool :=
  match p with
  | .eq => a == b
  | .ne => a != b
  | .lt => a.slt b
  | .ge => !a.slt b
  | .ltz => a.ult b
  | .gez => !a.ult b

/-- The predicates of VCMP on decoded values (R186). -/
def vpredHolds (p : VPred) (a b : XVal) : Bool :=
  let un := a.isNan || b.isNan
  let o := a.cmp b
  match p with
  | .eq => !un && o == .eq
  | .ne => un || o != .eq
  | .lt => !un && o == .lt
  | .le => !un && o != .gt
  | .gt => !un && o == .gt
  | .ge => !un && o != .lt
  | .un => un

/-- The class bit of a value (R187). -/
def classBit : XVal → Nat
  | .nan => 0
  | .inf s => if s then 1 else 6
  | .fin s m _ => if m = 0 then (if s then 3 else 4) else if s then 2 else 5

/-- Order of two values for VMIN and VMAX, where −0 counts as less than +0 (R181). -/
def minmaxLess (a b : XVal) : Bool :=
  match a.cmp b with
  | .lt => true
  | .gt => false
  | .eq => a.isZero && a.sign && !b.sign

/-- The choice of VMIN (`max` false) or VMAX between two codes (R181). -/
def chooseElem (t : ElemType) (mx : Bool) (a b : Nat) : Nat :=
  let x := decodeElem t a
  let y := decodeElem t b
  if x.isNan && y.isNan then nanCode t
  else if x.isNan then b
  else if y.isNan then a
  else if mx then (if minmaxLess x y then b else a)
  else (if minmaxLess y x then b else a)

end Sys2Proof.Machine
end

