-- ==== Sys2Proof/Machine/Seq.lean ====
section
/-! DEFINITION. Sequencer instructions of R123 to R129: integer arithmetic, immediates, comparisons and conditions. -/

namespace Sys2Proof.Machine

/-- The outcome type of a meaning. -/
abbrev Out := Host.Outcome State Fault Refusal

/-- An S instruction that writes one scalar register at a latency from declared registers (R121). -/
def sWrite (s : State) (d : BitVec 6) (regs : List (BitVec 6)) (lat : Nat) (v : Bank → W64) : State :=
  conclude .S (declared s (s.here.hasS (d :: regs))
    (landingRoom s .S (.ok (s.modHere fun b => b.send .S lat [.sreg d (v b)]))))

/-- An S instruction of two scalar sources (R123, R124). -/
def sAlu (s : State) (d a b : BitVec 6) (lat : Nat) (f : W64 → W64 → W64) : Out :=
  .next (sWrite s d [a, b] lat fun k => f (k.sreg a) (k.sreg b))

/-- An S instruction of one scalar source (R125, R126). -/
def sUnary (s : State) (d a : BitVec 6) (f : W64 → W64) : Out := .next (sWrite s d [a] 1 fun k => f (k.sreg a))

/-- Latency of the divides (R97). -/
def divLatency : Nat := 20

/-- The high half of the signed product (R123). -/
def mulhValue (x y : W64) : W64 := .ofInt 64 (x.toInt * y.toInt / 2 ^ 64)
/-- The high half of the unsigned product (R123). -/
def mulhzValue (x y : W64) : W64 := .ofNat 64 (x.toNat * y.toNat / 2 ^ 64)
/-- Signed quotient with the corner cases of R124. -/
def divValue (x y : W64) : W64 := if y = 0 then BitVec.allOnes 64 else .ofInt 64 (x.toInt.tdiv y.toInt)
/-- Unsigned quotient (R124). -/
def divzValue (x y : W64) : W64 := if y = 0 then BitVec.allOnes 64 else .ofNat 64 (x.toNat / y.toNat)
/-- Signed remainder (R124). -/
def remValue (x y : W64) : W64 := if y = 0 then x else .ofInt 64 (x.toInt.tmod y.toInt)
/-- Unsigned remainder (R124). -/
def remzValue (x y : W64) : W64 := if y = 0 then x else .ofNat 64 (x.toNat % y.toNat)
/-- The shift amount s[b][5:0] (R123). -/
def shAmount (y : W64) : Nat := y.toNat % 64

def execAdd (d a b : BitVec 6) (s : State) : Out := sAlu s d a b 1 fun x y => x + y
def execSub (d a b : BitVec 6) (s : State) : Out := sAlu s d a b 1 fun x y => x - y
def execMul (d a b : BitVec 6) (s : State) : Out := sAlu s d a b 1 fun x y => x * y
def execMulh (d a b : BitVec 6) (s : State) : Out := sAlu s d a b 1 mulhValue
def execMulhz (d a b : BitVec 6) (s : State) : Out := sAlu s d a b 1 mulhzValue
def execDiv (d a b : BitVec 6) (s : State) : Out := sAlu s d a b divLatency divValue
def execDivz (d a b : BitVec 6) (s : State) : Out := sAlu s d a b divLatency divzValue
def execRem (d a b : BitVec 6) (s : State) : Out := sAlu s d a b divLatency remValue
def execRemz (d a b : BitVec 6) (s : State) : Out := sAlu s d a b divLatency remzValue
def execAnd (d a b : BitVec 6) (s : State) : Out := sAlu s d a b 1 fun x y => x &&& y
def execOr (d a b : BitVec 6) (s : State) : Out := sAlu s d a b 1 fun x y => x ||| y
def execXor (d a b : BitVec 6) (s : State) : Out := sAlu s d a b 1 fun x y => x ^^^ y
def execAndn (d a b : BitVec 6) (s : State) : Out := sAlu s d a b 1 fun x y => x &&& ~~~y
def execShl (d a b : BitVec 6) (s : State) : Out := sAlu s d a b 1 fun x y => x <<< shAmount y
def execShr (d a b : BitVec 6) (s : State) : Out := sAlu s d a b 1 fun x y => x >>> shAmount y
def execSar (d a b : BitVec 6) (s : State) : Out := sAlu s d a b 1 fun x y => x.sshiftRight (shAmount y)
def execMin (d a b : BitVec 6) (s : State) : Out := sAlu s d a b 1 fun x y => if x.slt y then x else y
def execMax (d a b : BitVec 6) (s : State) : Out := sAlu s d a b 1 fun x y => if x.slt y then y else x
def execMinz (d a b : BitVec 6) (s : State) : Out := sAlu s d a b 1 fun x y => if x.ult y then x else y
def execMaxz (d a b : BitVec 6) (s : State) : Out := sAlu s d a b 1 fun x y => if x.ult y then y else x

/-- Number of trailing zero bits among the low `n` bits. -/
def ctzFrom : Nat → Nat → Nat
  | 0, _ => 0
  | n + 1, x => if x % 2 = 1 then 0 else ctzFrom n (x / 2) + 1

/-- Leading zero bits of a `w`-bit number. -/
def clzOf (w x : Nat) : Nat := if x = 0 then w else w - 1 - x.log2

/-- The low bits that SEXT and ZEXT keep (R126). -/
def lowBits (w : Width) (x : W64) : Nat := x.toNat % 2 ^ (8 * w.bytes)
/-- Sign extension from a width (R126, R228). -/
def signExtend (w : Width) (x : Nat) : W64 := .ofInt 64 (if x < 2 ^ (8 * w.bytes - 1) then (x : Int) else (x : Int) - 2 ^ (8 * w.bytes))

def execClz (d a : BitVec 6) (s : State) : Out := sUnary s d a fun x => .ofNat 64 (clzOf 64 x.toNat)
def execCtz (d a : BitVec 6) (s : State) : Out := sUnary s d a fun x => .ofNat 64 (ctzFrom 64 x.toNat)
def execPopc (d a : BitVec 6) (s : State) : Out := sUnary s d a fun x => .ofNat 64 (onesIn 64 x.toNat)
def execSext (d a : BitVec 6) (w : Width) (s : State) : Out := sUnary s d a fun x => signExtend w (lowBits w x)
def execZext (d a : BitVec 6) (w : Width) (s : State) : Out := sUnary s d a fun x => .ofNat 64 (lowBits w x)
def execMov (d a : BitVec 6) (s : State) : Out := sUnary s d a fun x => x

/-- A 13-bit immediate, sign-extended (R78). -/
def sxImm (i : BitVec 13) : W64 := i.signExtend 64

def execAddi (d a : BitVec 6) (i : BitVec 13) (s : State) : Out := sUnary s d a fun x => x + sxImm i
def execAndi (d a : BitVec 6) (i : BitVec 13) (s : State) : Out := sUnary s d a fun x => x &&& sxImm i
def execOri (d a : BitVec 6) (i : BitVec 13) (s : State) : Out := sUnary s d a fun x => x ||| sxImm i
def execXori (d a : BitVec 6) (i : BitVec 13) (s : State) : Out := sUnary s d a fun x => x ^^^ sxImm i
def execShli (d a n : BitVec 6) (s : State) : Out := sUnary s d a fun x => x <<< n.toNat
def execShri (d a n : BitVec 6) (s : State) : Out := sUnary s d a fun x => x >>> n.toNat
def execSari (d a n : BitVec 6) (s : State) : Out := sUnary s d a fun x => x.sshiftRight n.toNat

/-- LIW: the immediate sign-extended (R127). -/
def execLiw (d : BitVec 6) (i : BitVec 32) (s : State) : Out := .next (sWrite s d [] 1 fun _ => i.signExtend 64)
/-- LIH: the immediate above the register's low half, read at issue (R127). -/
def execLih (d : BitVec 6) (i : BitVec 32) (s : State) : Out :=
  .next (sWrite s d [] 1 fun b => (i.setWidth 64 <<< 32) ||| ((b.sreg d).setWidth 32).setWidth 64)

/-- An S instruction that writes one condition register (R128, R129). -/
def cWrite (s : State) (d : BitVec 4) (sr : List (BitVec 6)) (cr : List (BitVec 4)) (v : Bank → Bool) : Out :=
  .next (conclude .S (declared s (s.here.hasS sr && s.here.hasC (d :: cr))
    (landingRoom s .S (.ok (s.modHere fun b => b.send .S 1 [.creg d (v b)])))))

def execCmp (p : Pred) (d : BitVec 4) (a b : BitVec 6) (s : State) : Out :=
  cWrite s d [a, b] [] fun k => predHolds p (k.sreg a) (k.sreg b)
def execCmpi (p : Pred) (d : BitVec 4) (a : BitVec 6) (imm : BitVec 13) (s : State) : Out :=
  cWrite s d [a] [] fun k => predHolds p (k.sreg a) (sxImm imm)
def execCand (d a b : BitVec 4) (s : State) : Out := cWrite s d [] [a, b] fun k => k.creg a && k.creg b
def execCor (d a b : BitVec 4) (s : State) : Out := cWrite s d [] [a, b] fun k => k.creg a || k.creg b
def execCnot (d a : BitVec 4) (s : State) : Out := cWrite s d [] [a] fun k => !k.creg a

end Sys2Proof.Machine
end

