-- ==== Sys2Proof/Machine/Access.lean ====
section
/-! DEFINITION. Access-unit instructions: address arithmetic, loads and stores, atomics, streams, prefetch, TLBSYNC, FRZ and THW
(chapters 10, 15 and 16). -/

namespace Sys2Proof.Machine

/-- An access-unit instruction's attempt; a held store stream's fault comes first (R239). DEDUCED (log entry 51): it comes before cause 0x03
of the instruction's own resources, and after cause 0x02, which decoding raises (R94). -/
def aIssue (s : State) (k : Attempt) : Out :=
  .next (conclude .A (match heldStore s.here with
    | some f => .trap s f
    | none => k))

/-! ### Address arithmetic -/

/-- An A instruction that writes one address register at latency 1 (R226). -/
def aWrite (s : State) (d : BitVec 5) (regs : List (BitVec 5)) (v : Bank → W64) : Out :=
  aIssue s (declared s (s.here.hasA (d :: regs))
    (landingRoom s .A (.ok (s.modHere fun b => b.send .A 1 [.areg d (v b)]))))

def execAadd (d a b : BitVec 5) (s : State) : Out := aWrite s d [a, b] fun k => k.areg a + k.areg b
def execAsub (d a b : BitVec 5) (s : State) : Out := aWrite s d [a, b] fun k => k.areg a - k.areg b
def execAmov (d a : BitVec 5) (s : State) : Out := aWrite s d [a] fun k => k.areg a
def execAaddi (d a : BitVec 5) (i : BitVec 16) (s : State) : Out := aWrite s d [a] fun k => k.areg a + i.signExtend 64
def execAaddiA64 (d a : BitVec 5) (i : BitVec 32) (s : State) : Out := aWrite s d [a] fun k => k.areg a + i.signExtend 64
def execAshli (d a : BitVec 5) (n : BitVec 6) (s : State) : Out := aWrite s d [a] fun k => k.areg a <<< n.toNat

/-- AGET: pops aq into a register (R226). -/
def execAget (d : BitVec 5) (s : State) : Out :=
  aIssue s (declared s (s.here.hasA [d]) (landingRoom s .A (withWords s .aq 1 fun l =>
    .ok (s.modHere fun b => (b.popWords .aq 1).send .A 1 [.areg d (l.headD 0)]))))

/-! ### Accesses -/

/-- Translates an access of the instruction at the head of A; a TLB miss waits for a walk (R225, R331). -/
def withTrans (s : State) (k : Access) (ea n align : Nat) (cont : State → List Seg → Attempt) : Attempt :=
  match translate s s.cur k false ea n align with
  | .bad c va => .trap s (faultOf c va)
  | .miss va => .wait (s.modHere fun b => { b with walk := some va })
  | .ok l => cont (tlbTouch s s.cur l) l

/-- The first page of a store whose count at the directory is above zero (R315). -/
def segsFrozen (s : State) (row : Nat) (l : List Seg) : Option Nat := (l.find? fun g => frozenAt s row g.va).map Seg.va

/-- The subpages of a store that the task does not yet own (R304). -/
def unowned (s : State) (l : List Seg) : List Nat :=
  (subpagesOf s l).filter fun p => !(s.owners p).contains (.task s.cur)

/-- The first address of an access that lies in a subpage. -/
def refusedAt (l : List Seg) (ea sub : Nat) : Nat :=
  (l.findSome? fun g => match g.loc with
    | .scratch _ => none
    | .phys pa _ => if pa < 4096 * (sub + 1) ∧ 4096 * sub < pa + g.len then some (g.va + (4096 * sub - pa)) else none).getD ea

/-- Rows 6 and 7 of R225 at the directory, and the lent-range stall: the first store to a subpage asks for ownership and
waits for the answer (R240, R304); it does not ask while a PHASE of the task has freezes to apply (R324). -/
def withOwnership (s : State) (ea n : Nat) (l : List Seg) (k : State → Attempt) : Attempt :=
  match segsFrozen s s.cur l with
  | some va => .trap (s.modHere fun b => { b with own := none }) (faultOf 0x08 va)
  | none =>
    let need := unowned s l
    if need = [] then
      let s := s.modHere fun b => { b with own := none }
      if lentAt s.here ea n then .wait s else k s
    else match s.here.own with
      | some r =>
        if let some p := r.refused then .trap (s.modHere fun b => { b with own := none }) (faultOf 0x09 (refusedAt l ea p))
        else .wait (s.modHere fun b => { b with own := some { r with subpages := need } })
      | none =>
        if freezesDue s.here then .wait s
        else .wait (s.modHere fun b => { b with own := some ⟨need, l.map Seg.va, s.cycle, none⟩ })

/-- The effective address of a vector access (R227). -/
def vecAddr (b : Bank) (a : BitVec 5) (off : BitVec 13) : W64 := b.areg a + (off.signExtend 64 <<< 9)
/-- The effective address of a scalar access (R228). -/
def scalarAddr (b : Bank) (a : BitVec 5) (off : BitVec 13) : W64 := b.areg a + off.signExtend 64

/-- The update register of LDV and STV (R227). -/
def updateReg (b : Bank) (u : BitVec 5) (ea : W64) : Bank := if u = 0 then b else b.send .A 1 [.areg u ea]

/-- 512 bytes as a register value, byte 0 lowest (R171). -/
def vwordOf (bs : List Byte) : VWord := .ofNat 4096 (ofBytes bs)

/-- LDV (R227). -/
def execLdv (u a : BitVec 5) (q : BitVec 3) (off : BitVec 13) (s : State) : Out :=
  let ea := vecAddr s.here a off
  aIssue s (declared s (s.here.hasA [u, a]) (landingRoom s .A (
    if vecDepth ≤ (s.here.loadQ q).length then .queueStall s
    else withTrans s .read ea.toNat 512 64 fun s l =>
      if touchesSysreg s l then .trap s (faultOf 0x07 ea.toNat)
      else if meetsAtomic s.here l then .wait s
      else
        let p : PendLoad := ⟨s.here.nextId, some q, vwordOf (segBytes s s.cur l), (segPoison s s.cur l).map fun _ => ea⟩
        .ok (s.modHere fun b => updateReg { b.reserveLoad q (b.lineNow .A) with loads := b.loads ++ [p] } u ea))))

/-- The bytes of a store-queue entry that STV writes: a byte with one enabled nibble keeps the other (R227). -/
def entryBytes (e : VEntry) (old : List Byte) : List (Option Byte) :=
  let x := (e.val.getD 0).toNat
  let en := e.en.toNat
  old.zipIdx.map fun p =>
    let v := x / 256 ^ p.2 % 256
    match en / 4 ^ p.2 % 4 with
    | 0 => none
    | 1 => some (.ofNat 8 (p.1.toNat / 16 * 16 + v % 16))
    | 2 => some (.ofNat 8 (v / 16 * 16 + p.1.toNat % 16))
    | _ => some (.ofNat 8 v)

/-- STV (R227). -/
def execStv (u a : BitVec 5) (q : BitVec 3) (off : BitVec 13) (s : State) : Out :=
  let ea := vecAddr s.here a off
  aIssue s (declared s (s.here.hasA [u, a]) (landingRoom s .A (
    match headVec (s.here.storeQ q) with
    | none => if s.here.pendingFeed (.sq q) then .queueStall s else trapWith s 0x05
    | some e => withTrans s .write ea.toNat 512 64 fun s l =>
      if touchesSysreg s l then .trap s (faultOf 0x07 ea.toNat)
      else withOwnership s ea.toNat 512 l fun s =>
        let s := segWrite s s.cur l (entryBytes e (segBytes s s.cur l))
        .ok (s.modHere fun b => updateReg (b.setStoreQ q (b.storeQ q).tail) u ea))))

/-- LDS (R228, R468). -/
def execLds (a : BitVec 5) (w : Width) (sx : Bool) (off : BitVec 13) (s : State) : Out :=
  let ea := (scalarAddr s.here a off).toNat
  aIssue s (declared s (s.here.hasA [a]) (wordRoom s .rq (
    withTrans s .read ea w.bytes w.bytes fun s l =>
      if meetsAtomic s.here l then .wait s
      else
        let bs := match inSysreg s l with
          | some pa => sysRead s pa w.bytes
          | none => segBytes s s.cur l
        let y := if sx then signExtend w (ofBytes bs) else .ofNat 64 (ofBytes bs)
        let p : PendLoad := ⟨s.here.nextId, none, y.setWidth 4096, (segPoison s s.cur l).map fun _ => .ofNat 64 ea⟩
        .ok (s.modHere fun b => { b.reserveWord .rq with loads := b.loads ++ [p] }))))

/-- STS (R228, R468). -/
def execSts (a : BitVec 5) (w : Width) (off : BitVec 13) (s : State) : Out :=
  let ea := (scalarAddr s.here a off).toNat
  aIssue s (declared s (s.here.hasA [a]) (withWords s .ssq 1 fun x =>
    withTrans s .write ea w.bytes w.bytes fun s l =>
      let bs := toBytes w.bytes (x.headD 0).toNat
      match inSysreg s l with
      | some pa => .ok ((sysWrite s s.cur pa bs).modHere fun b => b.popWords .ssq 1)
      | none => withOwnership s ea w.bytes l fun s =>
        .ok ((segWrite s s.cur l (bs.map some)).modHere fun b => b.popWords .ssq 1)))

/-! ### Atomics -/

/-- An atomic: its rq entry, its words of ssq, the checks, and the request to the home (R229). -/
def atomicIssue (s : State) (op : AtomicOp) (a : BitVec 5) (w8 : Bool) : Out :=
  let ea := (s.here.areg a).toNat
  let w := if w8 then 8 else 4
  let n := if op = .cas then 2 else 1
  aIssue s (declared s (s.here.hasA [a]) (wordRoom s .rq (withWords s .ssq n fun x =>
    withTrans s .atomic ea w w fun s l =>
      match segsFrozen s s.cur l with
      | some va => .trap s (faultOf 0x08 va)
      | none =>
        let m := 2 ^ (8 * w)
        let first := (x.headD 0).toNat % m
        let last := (x.getLastD 0).toNat % m
        let key := match l with
          | g :: _ => locKey g.loc 0
          | [] => 0
        let p : PendAtomic := ⟨s.here.nextId, op, w8, ea, key, last, first, false, (s.here.headEntry .A).line, (s.here.headEntry .A).lane, false⟩
        .ok (s.modHere fun b => { (b.popWords .ssq n).reserveWord .rq with atomics := b.atomics ++ [p] }))))

def execAmoadd (a : BitVec 5) (w8 : Bool) (s : State) : Out := atomicIssue s .add a w8
def execAmoxchg (a : BitVec 5) (w8 : Bool) (s : State) : Out := atomicIssue s .xchg a w8
def execAmocas (a : BitVec 5) (w8 : Bool) (s : State) : Out := atomicIssue s .cas a w8
def execAmomin (a : BitVec 5) (w8 z : Bool) (s : State) : Out := atomicIssue s (if z then .minZ else .minS) a w8
def execAmomax (a : BitVec 5) (w8 z : Bool) (s : State) : Out := atomicIssue s (if z then .maxZ else .maxS) a w8
def execAmoand (a : BitVec 5) (w8 : Bool) (s : State) : Out := atomicIssue s .and a w8
def execAmoor (a : BitVec 5) (w8 : Bool) (s : State) : Out := atomicIssue s .or a w8

/-! ### Streams -/

/-- Stream numbers within the declared count (R33, R237). -/
def Bank.hasSt (b : Bank) (st : BitVec 4) : Bool := decide (st.toNat < b.decl.st)

/-- SDEF: loads the descriptor (R237). -/
def execSdef (st : BitVec 4) (a : BitVec 5) (s : State) : Out :=
  let ea := (s.here.areg a).toNat
  aIssue s (declared s (s.here.hasA [a] && s.here.hasSt st) (
    if (s.here.stream st.toNat).active then trapWith s 0x02
    else withTrans s .read ea 64 64 fun s l =>
      if touchesSysreg s l then .trap s (faultOf 0x07 ea)
      else if meetsAtomic s.here l then .wait s
      else match segPoison s s.cur l with
        | some _ => .trap s (faultOf 0x0F ea)
        | none =>
          let d : BitVec 512 := .ofNat 512 (ofBytes (segBytes s s.cur l))
          .ok (s.modHere fun b => b.modStream st.toNat fun x => { x with desc := d })))

/-- SSET: writes one word of the descriptor (R237). -/
def execSset (st : BitVec 4) (w : BitVec 3) (a : BitVec 5) (s : State) : Out :=
  aIssue s (declared s (s.here.hasA [a] && s.here.hasSt st) (
    if (s.here.stream st.toNat).active then trapWith s 0x02
    else .ok (s.modHere fun b => b.modStream st.toNat fun x => { x with desc := descSetWord x.desc w.toNat (b.areg a) })))

/-- Whether an active stream of a bank feeds a target (R237). -/
def targetFed (b : Bank) (t : BitVec 5) : Bool := b.streams.any fun p => p.2.active && p.2.target == t

/-- The stream started on a target (R238); the binding of a port is its most recent SGO (R255). -/
def startStream (b : Bank) (st : BitVec 4) (t : BitVec 5) : Bank :=
  let b := b.modStream st.toNat fun x =>
    ({ x with active := true, held := false, target := t, part := none, drain := none } : Stream).at x.pos
  if t = 16 then { b with mxa := some st } else if t = 17 then { b with mxw := some st } else b

/-- SGO: the checks of R235 and R237, then the stream is active (R238). -/
def execSgo (st : BitVec 4) (t : BitVec 5) (s : State) : Out :=
  let x := s.here.stream st.toNat
  aIssue s (declared s (s.here.hasSt st) (
    if x.active || targetFed s.here t || descIllegal x.desc t.toNat then trapWith s 0x02
    else if descMisaligned x.desc then trapWith s 0x0E
    else .ok (s.modHere fun b => startStream b st t)))

/-- SSTOP (R238). -/
def execSstop (st : BitVec 4) (s : State) : Out :=
  let x := s.here.stream st.toNat
  aIssue s (declared s (s.here.hasSt st) (
    if !x.active then .ok (s.modHere fun b => { b with aWait := .idle })
    else if x.loads then .ok (s.modHere fun b => stopLoad b st.toNat)
    else
      let s' := s.modHere fun b => { stopStore b st.toNat with aWait := .stopping st }
      if (s'.here.stream st.toNat).active then .wait s' else .ok (s'.modHere fun b => { b with aWait := .idle })))

/-- The word of SSTAT (R238). -/
def sstatWord (x : Stream) : W64 := .ofNat 64 (x.active.toNat * 2 ^ 63 + x.held.toNat * 2 ^ 62 + x.pos)

/-- SSTAT (R238). -/
def execSstat (st : BitVec 4) (s : State) : Out :=
  aIssue s (declared s (s.here.hasSt st) (wordRoom s .rq
    (.ok (s.modHere fun b =>
      (b.reserveWord .rq).sendQ 1 [.word .rq b.nextId (sstatWord (b.stream st.toNat))]))))

/-! ### Prefetch and TLBSYNC -/

/-- PFT: at most the translation of the address enters the TLB; no value changes (R232). -/
def execPft (a : BitVec 5) (_level : BitVec 2) (s : State) : Out :=
  aIssue s (declared s (s.here.hasA [a]) (
    match translate s s.cur .read true (s.here.areg a).toNat 1 1 with
    | .ok l => .ok (tlbTouch s s.cur l)
    | .miss _ | .bad _ _ => .ok s))

/-- TLBSYNC: publishes, then waits until every access unit has dropped the address space (R333). -/
def execTlbsync (s : State) : Out :=
  aIssue s (match s.here.aWait with
    | .invalidating [] => .ok (s.modHere fun b => { b with aWait := .idle })
    | .invalidating (_ :: _) => .wait s
    | .idle | .thawing _ _ | .acking | .resending _ | .stopping _ =>
      if s.here.atomics ≠ [] then .wait s
      else .wait ((releaseAt s s.cur 2).modHere fun b => { b with aWait := .invalidating (List.range 36) }))

/-- A row's TLBSYNC takes a core's acknowledgement (R333). -/
def ackInvalidate (core : Nat) (asid : Asid) (s : State) (row : Nat) : State :=
  match (s.bank row).aWait with
  | .invalidating l =>
    if (s.row row).asid = asid then s.modBank row fun b => { b with aWait := .invalidating (l.filter (· ≠ core)) } else s
  | .idle | .thawing _ _ | .acking | .resending _ | .stopping _ => s

/-- A walk of the address space in flight is not entered: the access asks for it again (R333). -/
def dropWalk (asid : Asid) (s : State) (row : Nat) : State :=
  if (s.row row).asid = asid ∧ (s.bank row).walk ≠ none then s.modBank row fun b => { b with walk := none } else s

/-- An access unit drops the entries of an address space and acknowledges to the rows that wait (R333). -/
def invalidateAt (s : State) (core : Nat) (asid : Asid) : State :=
  let s := tlbDrop s core asid
  let s := dropWalk asid (dropWalk asid s (2 * core)) (2 * core + 1)
  (List.range 72).foldl (ackInvalidate core asid) s

/-! ### FRZ and THW -/

/-- FRZ: the checks of R318, then a pending freeze (R319). -/
def execFrz (a l : BitVec 5) (g : BitVec 2) (s : State) : Out :=
  let b := s.here
  let base := (b.areg a).toNat
  let len := (b.areg l).toNat
  aIssue s (declared s (b.hasA [a, l] && memberOf s s.cur g) (
    if len = 0 then .ok s
    else match freezeRange base len with
      | some c => .trap s (faultOf c base)
      | none => match freezePages s s.cur (len / 65536) base with
        | some (va, c) => .trap s (faultOf c va)
        | none =>
          if 8 ≤ b.freezes.length then trapWith s 0x13
          else .ok (s.modHere fun b => { b with freezes := b.freezes ++ [⟨(s.row s.cur).asid, base, len, g, 0⟩] })))

/-- One more step of THW: the next leaf is lowered, or the collections are awaited (R321, R326). -/
def thawStep (s : State) (base len : Nat) (pair : Bool) (from_ : Nat) (leaves : List Nat) : Attempt :=
  let asid := (s.row s.cur).asid
  let keep (w : AWait) : State := s.modHere fun b => { b with aWait := w }
  let va := max base from_
  if va < base + len then
    match freezePages s s.cur (pagesInLeaf s asid va (base + len)) va with
    | some (v, c) => .trap (keep (.thawing from_ leaves)) (faultOf c v)
    | none => match lowerLeaf s asid va with
      | .wait => .wait (keep (.thawing from_ leaves))
      | .fault c => .trap (keep (.thawing from_ leaves)) (faultOf c va)
      | .done s' next coll =>
        .wait (s'.modHere fun b => { b with aWait := .thawing next (leaves ++ coll.toList) })
  else if leaves.any (collecting s) then .wait (keep (.thawing from_ leaves))
  else if pair then
    .wait { keep .acking with sideOut := s.sideOut ++ [.thaw asid base len] }
  else .ok (keep .idle)

/-- THW: rows 1 to 3 of R318, then leaf by leaf (R321). -/
def execThw (a l : BitVec 5) (g : BitVec 2) (s : State) : Out :=
  let b := s.here
  let base := (b.areg a).toNat
  let len := (b.areg l).toNat
  let pair := s.dual && decide ((s.group (groupIndex s s.cur g)).level = 3)
  aIssue s (declared s (b.hasA [a, l] && memberOf s s.cur g) (
    if len = 0 then .ok s
    else match freezeRange base len with
      | some c => .trap s (faultOf c base)
      | none => match b.aWait with
        | .thawing f leaves => thawStep s base len pair f leaves
        | .acking =>
          match pairAnswer (takeFree s).1 with
          | .notYet => .wait (takeFree s).2
          | .done => .ok ((takeFree s).2.modHere fun b => { b with aWait := .idle })
          | .fault c v => .trap ((takeFree s).2.modHere fun b => { b with aWait := .resending v }) { faultOf c v with flags := 4 }
        | .resending v =>
          .wait { s.modHere fun b => { b with aWait := .acking } with
            sideOut := s.sideOut ++ [.thaw (s.row s.cur).asid v (base + len - v)] }
        | .idle | .invalidating _ | .stopping _ => thawStep s base len pair base []))

end Sys2Proof.Machine
end

