-- ==== Sys2Proof/Machine/Fetch.lean ====
section
/-! DEFINITION. Instruction lines: their form, their fetch and their dispatch (chapter 04). -/

namespace Sys2Proof.Machine

/-! ### The form of a line -/

/-- Word `k` of a line; word 0 is the header (R66). -/
def lineWord (bs : List Byte) (k : Nat) : Nat := ofBytes ((bs.drop (4 * k)).take 4)

/-- The tag of lane `k` (R66). -/
def laneTag (bs : List Byte) (k : Nat) : Nat := bitsOf (lineWord bs 0) (4 * k + 3) (4 * k)

/-- The LAND bit of a line (R67). -/
def lineLands (bs : List Byte) : Bool := decide (lineWord bs 0 % 2 = 1)

/-- check_line of R70 from lane `k` on, `n` line-ending instructions having been met. -/
def lanesOk (bs : List Byte) : Nat → Nat → Nat → Bool
  | 0, _, n => decide (n ≤ 1)
  | fuel + 1, k, n =>
    if 7 < k then decide (n ≤ 1)
    else
      let w := lineWord bs k
      match laneTag bs k with
      | 0 => decide (w = 0) && lanesOk bs fuel (k + 1) n
      | 1 => lanesOk bs fuel (k + 1) (n + (lineEnderS32 w).toNat)
      | 3 => lanesOk bs fuel (k + 1) n
      | 2 => decide (k ≠ 7) && decide (laneTag bs (k + 1) = 12) &&
          lanesOk bs fuel (k + 2) (n + (decide (bitsOf w 31 25 = 2)).toNat)
      | 4 | 5 => decide (k ≠ 7) && decide (laneTag bs (k + 1) = 12) && lanesOk bs fuel (k + 2) n
      | _ => false

/-- Whether a line passes R70. -/
def lineLegal (bs : List Byte) : Bool := decide (bitsOf (lineWord bs 0) 3 1 = 0) && lanesOk bs 8 1 0

/-- The unit of a tag (R68). -/
def unitOfTag : Nat → Option UnitId
  | 1 | 2 => some .S
  | 3 | 4 => some .A
  | 5 => some .V
  | _ => none

/-- The instructions of a legal line from lane `k` on, in lane order, with their numbers (R69, R72, R110). -/
def lineEntries (bs : List Byte) (line : W64) (rb : BitVec 7) : Nat → Nat → Nat → List QEntry
  | 0, _, _ => []
  | fuel + 1, k, n =>
    if 7 < k then []
    else
      let tag := laneTag bs k
      let w := lineWord bs k
      match tag with
      | 1 | 3 => ⟨.ofNat 4 tag, .ofNat 64 w, line, k, rb, n⟩ :: lineEntries bs line rb fuel (k + 1) (n + 1)
      | 2 | 4 | 5 =>
        ⟨.ofNat 4 tag, .ofNat 64 (w + lineWord bs (k + 1) * 2 ^ 32), line, k, rb, n⟩ ::
          lineEntries bs line rb fuel (k + 2) (n + 1)
      | _ => lineEntries bs line rb fuel (k + 1) n

/-- The entries of a list that go to a unit. -/
def entriesFor (u : UnitId) (l : List QEntry) : List QEntry := l.filter fun e => unitOfTag e.tag.toNat == some u

/-! ### Fetch -/

/-- What a fetch came to (R71). -/
inductive Fetched where
  | line (s : State) (bs : List Byte)
  | bad (cause : Nat)
  deriving DecidableEq, Repr

/-- Fetches the 32 bytes of a line for a row (R71). DEDUCED (log entry 51): a line in a page of system registers with the right EX reads the
bytes that memory lists there, and raises no fault. -/
def fetchLine (s : State) (row va : Nat) : Fetched :=
  match translate s row .fetch true va 32 32 with
  | .bad c _ => .bad c
  | .miss _ => .bad 0x06
  | .ok l =>
    match segPoison s row l with
    | some _ => .bad 0x0F
    | none => .line (tlbTouch s row l) (segBytes s row l)

/-- The check of a landing target at an instruction: a fetch fault of the target, or cause 0x0D (R77, R132). -/
def landingFault (s : State) (row va : Nat) : Option Nat :=
  match fetchLine s row va with
  | .bad c => some c
  | .line _ bs => if lineLands bs then none else some 0x0D

/-! ### Dispatch -/

/-- Depth of a unit's instruction queue (R72). -/
def unitDepth : Nat := 32

/-- Whether an entry of the S queue ends its line (R75). -/
def QEntry.endsLine (e : QEntry) : Bool :=
  (decide (e.tag = 1) && lineEnderS32 e.word.toNat) || (decide (e.tag = 2) && decide (bitsOf e.word.toNat 31 25 = 2))

/-- Whether an entry of the S queue holds dispatch until it completes: PHASE, FENCE, WAITC and HALT (R122). -/
def QEntry.holdsDispatch (e : QEntry) : Bool :=
  decide (e.tag = 1) && [0x0E, 0x0F, 0x10, 0x12].contains (bitsOf e.word.toNat 31 25)

/-- Whether the sequencer may dispatch the next line of a bank (R72, R75, R122, R430, R436). -/
def mayDispatch (s : State) (row : Nat) : Bool :=
  let b := s.bank row
  let c := s.coreAt (coreOf row)
  (s.row row).state == .running && b.fault.isNone && decide (c.run = some (decide (row % 2 = 1))) && decide (c.switch = 0) &&
    !s.hold && decide (b.fetch.ready ≤ s.cycle) && !b.sQueue.any fun e => e.endsLine || e.holdsDispatch

/-- Whether an entry of the S queue is HALT. -/
def QEntry.isHalt (e : QEntry) : Bool := decide (e.tag = 1) && decide (bitsOf e.word.toNat 31 25 = 0x12)

/-- The S instructions of a line, with its HALT behind the others, which issue in the normal way before the task is halting (R51, R75; log
entry 15). -/
def haltLast (l : List QEntry) : List QEntry := (l.filter fun e => !e.isHalt) ++ l.filter QEntry.isHalt

/-- Places the instructions of a line in the unit queues (R72). -/
def placeLine (b : Bank) (line : Nat) (l : List QEntry) : Bank :=
  { b with
    sQueue := b.sQueue ++ haltLast (entriesFor .S l)
    aQueue := b.aQueue ++ entriesFor .A l
    vQueue := b.vQueue ++ entriesFor .V l
    nextSeq := b.nextSeq + 8
    fetch := { b.fetch with next := .ofNat 64 ((line + 32) % 2 ^ 48), entry := false } }

/-- Whether the three queues have room for a line (R72). -/
def lineRoom (b : Bank) (l : List QEntry) : Bool :=
  decide (b.sQueue.length + (entriesFor .S l).length ≤ unitDepth) &&
    decide (b.aQueue.length + (entriesFor .A l).length ≤ unitDepth) &&
    decide (b.vQueue.length + (entriesFor .V l).length ≤ unitDepth)

/-- A fault at a line: SRC 1, no lane (R429, R432). -/
def lineFault (s : State) (row cause line : Nat) : State :=
  takeFault s row .S { faultOf cause line with src := 1, line := .ofNat 64 line }

/-- LINE DISPATCH: fetches the next line, checks it (R71, then R70, then the entry's landing bit, R27), and places it whole
or not at all (R72). -/
def dispatchLine (s : State) (row : Nat) : State :=
  if !mayDispatch s row then s
  else
    let b := s.bank row
    let line := b.fetch.next.toNat
    match fetchLine s row line with
    | .bad c => lineFault s row c line
    | .line s bs =>
      if !lineLegal bs then lineFault s row 0x01 line
      else if b.fetch.entry && !lineLands bs then lineFault s row 0x0D line
      else
        let l := lineEntries bs b.fetch.next b.rb 8 1 b.nextSeq
        if lineRoom b l then s.modBank row fun b => placeLine b line l else s

end Sys2Proof.Machine
end

