-- ==== Sys2Proof/Machine/Control.lean ====
section
/-! DEFINITION. Sequencer instructions of R130 to R150: branches, queues, engine commands, synchronisation, launching, time and
traps. -/

namespace Sys2Proof.Machine

/-! ### Branches -/

/-- The address of the line that holds the instruction at the head of S. -/
def sLine (s : State) : Nat := (s.here.headEntry .S).line.toNat

/-- The next line of a bank, which may be dispatched three cycles after this issue (R75). -/
def goTo (b : Bank) (cycle line : Nat) : Bank := { b with fetch := ⟨.ofNat 64 (line % 2 ^ 48), b.fetch.entry, cycle + 3⟩ }

/-- A branch target: a displacement in lines, modulo 2^48 (R130). -/
def branchTarget (line : Nat) (disp : Int) : Nat := wrapTo 48 (line + 32 * disp)

/-- BR: the target line is next (R130). -/
def execBr (disp : BitVec 20) (s : State) : Out :=
  .next (conclude .S (.ok (s.modHere fun b => goTo b s.cycle (branchTarget (sLine s) disp.toInt))))

/-- BRC: the target when the condition differs from the invert bit, else the line after (R130). -/
def execBrc (c : BitVec 4) (inv : Bool) (disp : BitVec 20) (s : State) : Out :=
  .next (conclude .S (declared s (s.here.hasC [c])
    (.ok (s.modHere fun b =>
      goTo b s.cycle (branchTarget (sLine s) (if b.creg c != inv then disp.toInt else 1))))))

/-- CALL: the return line's address goes to s63 (R131). -/
def execCall (disp : BitVec 20) (s : State) : Out :=
  .next (conclude .S (declared s (s.here.hasS [63])
    (landingRoom s .S (.ok (s.modHere fun b =>
      goTo (b.send .S 1 [.sreg 63 (.ofNat 64 (sLine s + 32))]) s.cycle (branchTarget (sLine s) disp.toInt))))))

/-- The checks of R132 on a computed target. -/
def jumpFault (s : State) (x : W64) : Option Nat :=
  if 2 ^ 48 ≤ x.toNat then some 0x07
  else if x.toNat % 32 ≠ 0 then some 0x0E
  else landingFault s s.cur x.toNat

/-- A jump to the address in a register (R132). -/
def jumpTo (s : State) (a : BitVec 6) : Out :=
  .next (conclude .S (declared s (s.here.hasS [a])
    (match jumpFault s (s.here.sreg a) with
      | some c => .trap s (faultOf c (s.here.sreg a).toNat)
      | none => .ok (s.modHere fun b => goTo b s.cycle (b.sreg a).toNat))))

def execBrx (a : BitVec 6) (s : State) : Out := jumpTo s a
def execRet (a : BitVec 6) (s : State) : Out := jumpTo s a

/-- The count that LOOPR leaves (R133). -/
def looprCount (x : W64) : W64 := if x = 0 then 0 else x - 1

/-- LOOPR: count, rotation and branch in one step (R111, R133). The count that decides is the register's as LOOPR reads it. -/
def execLoopr (d : BitVec 6) (rot : BitVec 7) (disp : BitVec 32) (s : State) : Out :=
  .next (conclude .S (declared s (s.here.hasS [d])
    (landingRoom s .S (.ok (s.modHere fun b =>
      let new := looprCount (b.sreg d)
      let b' := { (b.send .S 1 [.sreg d new]) with rb := b.rb + rot }
      goTo b' s.cycle (branchTarget (sLine s) (if new ≠ 0 then disp.toInt else 1)))))))

/-! ### Queues -/

/-- SEND: a reserved entry is filled at latency 1 (R134). -/
def execSend (q : SendQ) (a : BitVec 6) (s : State) : Out :=
  .next (conclude .S (declared s (s.here.hasS [a])
    (landingRoom s .S (wordRoom s (sendWordQ q) (.ok (s.modHere fun b =>
      (b.reserveWord (sendWordQ q)).sendQ 1 [.word (sendWordQ q) b.nextId (b.sreg a)]))))))

/-- RECV: the head of cq or rq goes to a register (R134). -/
def execRecv (d : BitVec 6) (q : RecvQ) (s : State) : Out :=
  .next (conclude .S (declared s (s.here.hasS [d])
    (landingRoom s .S (withWords s (recvWordQ q) 1 fun l =>
      .ok (s.modHere fun b => (b.popWords (recvWordQ q) 1).send .S 1 [.sreg d (l.headD 0)])))))

/-! ### Engine commands -/

/-- The release wait of R122: every access-unit instruction of the preceding set has issued, and every atomic has executed. -/
def releaseReady (b : Bank) : Bool :=
  b.aQueue.all (fun e => decide ((b.headEntry .S).seq < e.seq)) && decide (b.atomics = [])

/-- The eight registers that a PUSH copies. -/
def pushRegs (x : BitVec 6) : List (BitVec 6) := (List.range 8).map fun k => x + .ofNat 6 k

/-- PUSH: rows 1 to 4 of R93, the shadow set, the release wait, and the queue (R135). -/
def execPush (e : Eng) (x : BitVec 6) (y : BitVec 4) (s : State) : Out :=
  let b := s.here
  let ws := (pushRegs x).map b.sreg
  let ns := ws.map BitVec.toNat
  .next (conclude .S (
    if !engPresent (coreOf s.cur) e then trapWith s 0x0C
    else declared s (b.hasS (pushRegs x) && b.hasC [y] && !cmdUndeclared b e ns) (
      if cmdMalformed s s.cur e ns then trapWith s 0x11
      else
        let sh := bitsOf (cmdWord ns 0) 35 32
        if sh ≠ 0 ∧ b.shadows.toNat / 2 ^ (sh - 1) % 2 = 0 then trapWith s 0x11
        else if !releaseReady b then .wait s
        else landingRoom s .S (.ok (s.modHere fun b =>
          if engDepth e ≤ (b.engQ e).length then b.send .S 1 [.creg y true]
          else (pushEntry b e ws s.cycle).send .S 1 [.creg y false])))))

/-- POP: a word of the result FIFO, or the condition that says that there is none (R136). -/
def execPop (x : BitVec 6) (e : Eng) (y : BitVec 4) (s : State) : Out :=
  .next (conclude .S (
    if !engPresent (coreOf s.cur) e then trapWith s 0x0C
    else declared s (s.here.hasS [x] && s.here.hasC [y])
      (landingRoom s .S (.ok (s.modHere fun b =>
        match b.fifo e with
        | [] => b.send .S 1 [.creg y true]
        | w :: r => (b.setFifo e r).send .S 1 [.sreg x w, .creg y false])))))

/-- The mask of a shadow set (R150). -/
def setBit (n : BitVec 3) : BitVec 4 := .ofNat 4 (2 ^ (n.toNat - 1))

/-- SHADOW: the set is open (R137). -/
def execShadow (n : BitVec 3) (s : State) : Out :=
  .next (conclude .S (.ok (s.modHere fun b => { b with shadows := b.shadows ||| setBit n })))

/-- Condition registers that RESOLVE reads. -/
def resolveRegs : ResolveKind → List (BitVec 4)
  | .discard | .commit => []
  | .cond y => [y]

/-- Whether RESOLVE keeps the set's copies (R138). -/
def resolveKeeps (b : Bank) : ResolveKind → Bool
  | .discard => false
  | .commit => true
  | .cond y => b.creg y

/-- RESOLVE: closes an open set and enters a resolve entry into the MX queue, waiting while that is full (R138). -/
def execResolve (n : BitVec 3) (k : ResolveKind) (s : State) : Out :=
  .next (conclude .S (declared s (s.here.hasC (resolveRegs k)) (
    if s.here.shadows &&& setBit n = 0 then .ok s
    else if engDepth .mx ≤ s.here.mx.length then .wait s
    else .ok (s.modHere fun b =>
      { pushResolve b n (resolveKeeps b k) s.cycle with shadows := b.shadows &&& ~~~setBit n }))))

/-! ### Synchronisation -/

/-- The place that an S instruction has reached in its wait. -/
def setSWait (s : State) (w : SWait) : State := s.modHere fun b => { b with sWait := w }

/-- The cache level of a group's releases; pair acts as package (R57, R296). -/
def levelOf (g : Group) : Nat := g.level.toNat

/-- A member arrives at a group's barrier; the last one completes it: GEN toggles, and pair freezes that wait for it are due
(R54, R139, R298, R326). -/
def arrive (s : State) (gi : Nat) : State :=
  let g := s.group gi
  if g.arrived.toNat + 1 = g.expect.toNat then
    pairDue (s.setGroup gi { g with gen := !g.gen, arrived := 0, since := 0 }) g
  else s.setGroup gi { g with arrived := g.arrived + 1, since := if g.arrived = 0 then s.dt.toNat else g.since }

/-- PHASE from its arrival on: the barrier, the freezes of the group, the acquire (R139, R320). -/
def phaseAfter (s : State) (g : BitVec 2) : Attempt :=
  let b := s.here
  match b.sWait with
  | .arrived gen =>
    if (s.group (groupIndex s s.cur g)).gen = gen then .wait s
    else if (pendingOf b g).isSome then .wait (setSWait s (.freezing 0 []))
    else .ok (setSWait s .idle)
  | .frozen => .ok (setSWait s .idle)
  | .idle | .released | .freezing _ _ | .acking | .counting _ _ | .halting _ | .realigning _ => .wait s

/-- PHASE: release, arrival, barrier, pending freezes and acquire (R139, R141). -/
def execPhase (g : BitVec 2) (s : State) : Out :=
  .next (conclude .S (declared s (memberOf s s.cur g) (
    let gi := groupIndex s s.cur g
    if s.here.sWait = .idle then
      if releaseReady s.here then
        let gen := (s.group gi).gen
        let s' := arrive (phaseRelease s s.cur (levelOf (s.group gi))) gi
        phaseAfter (setSWait s' (.arrived gen)) g
      else .wait s
    else phaseAfter s g)))

/-- FENCE: release and acquire at the group's level (R139). -/
def execFence (g : BitVec 2) (s : State) : Out :=
  .next (conclude .S (declared s (memberOf s s.cur g) (
    if releaseReady s.here then .ok (phaseRelease s s.cur (levelOf (s.group (groupIndex s s.cur g)))) else .wait s)))

/-- The counter of a completion object at its home; `key` names the place as `locKey` does (R46, R140). -/
def counterAt (s : State) (row key : Nat) : Nat :=
  if 2 ^ 60 ≤ key then ofBytes (Store.getRun zeroByte (s.bank row).scratch (key - 2 ^ 60) 8)
  else if regionOf s key = .sysreg then ofBytes (sysRead s key 8)
  else s.homeNat key 8

/-- WAITC: the checks, the wait until the preceding access-unit instructions have issued (R102, R122), and the wait until the counter reaches its target (R140); the wait ends by WAITC_COMPLETION. -/
def execWaitc (a t : BitVec 6) (s : State) : Out :=
  let b := s.here
  .next (conclude .S (declared s (b.hasS [a, t]) (
    match b.sWait with
    | .counting _ _ => .wait s
    | .idle | .released | .arrived _ | .freezing _ _ | .acking | .frozen | .halting _ | .realigning _ =>
      let ea := (b.sreg a).toNat
      if ea % 16 ≠ 0 then .trap s (faultOf 0x0E ea)
      else match translate s s.cur .read true ea 8 1 with
        | .bad c v => .trap s (faultOf c v)
        | .miss v => .trap s (faultOf 0x06 v)
        | .ok l =>
          let key := match l with
            | g :: _ => locKey g.loc 0
            | [] => 0
          let s := tlbTouch s s.cur l
          if !releaseReady b then .wait s
          else if (b.sreg t).toNat ≤ counterAt s s.cur key then .ok s
          else .wait (setSWait s (.counting key (b.sreg t))))))

/-- A waiting WAITC completes (R140, R141). -/
def waitcComplete (s : State) (row : Nat) : State :=
  let s := { s with cur := row }
  match s.here.sWait with
  | .counting key t =>
    if (s.row row).state = .running ∧ s.here.fault = none ∧ t.toNat ≤ counterAt s row key then
      conclude .S (.ok (setSWait s .idle))
    else s
  | .idle | .released | .arrived _ | .freezing _ _ | .acking | .frozen | .halting _ | .realigning _ => s

/-! ### Launching -/

/-- The copy of a record into a slot and the advance of TAIL, one step at the control die (R43). -/
def submitRecord (s : State) (k : Nat) (bytes : List Byte) (asid : Asid) : State :=
  let q := s.queue k
  let s := s.homeWriteBytes (q.slotAddr q.tail.toNat) bytes
  let s := s.setQueue k { q with tail := q.tail + 1, sender := q.sender ++ [(q.tail, asid)] }
  { s with agenda := s.agenda ++ [.event .schedulingPass] }

/-- LAUNCH after its release (R43). A record in a page of system registers has cause 0x07 (R468). DEDUCED (log entry 51): a record that holds
uncorrectable data is copied as it stands. -/
def launchAfter (s : State) (y : BitVec 4) (qv av : W64) : Attempt :=
  let q := s.queue (qv.toNat % 16)
  if 16 ≤ qv.toNat then trapWith s 0x02
  else if !q.devfeed || !q.en then trapWith s 0x07
  else if av.toNat % 256 ≠ 0 then .trap s (faultOf 0x0E av.toNat)
  else if (q.tail - q.head).toNat = q.size then .ok (s.modHere fun b => b.send .S 1 [.creg y true])
  else match translate s s.cur .read true av.toNat 256 256 with
    | .bad c v => .trap s (faultOf c v)
    | .miss v => .trap s (faultOf 0x06 v)
    | .ok l =>
      if touchesSysreg s l then .trap s (faultOf 0x07 av.toNat)
      else
      let bytes := segBytes s s.cur l
      let s := submitRecord (tlbTouch s s.cur l) (qv.toNat % 16) bytes (s.row s.cur).asid
      .ok (s.modHere fun b => b.send .S 1 [.creg y false])

/-- LAUNCH: the release at system scope, the checks in their order, and the submission (R43, R142). -/
def execLaunch (y : BitVec 4) (q a : BitVec 6) (s : State) : Out :=
  let b := s.here
  .next (conclude .S (declared s (b.hasS [q, a] && b.hasC [y])
    (landingRoom s .S (if releaseReady b then launchAfter (phaseRelease s s.cur 2) y (b.sreg q) (b.sreg a) else .wait s))))

/-! ### HALT and YIELD -/

/-- The lowest open shadow set. -/
def openSet (b : Bank) : Option (BitVec 3) :=
  ([1, 2, 3, 4].find? fun n => decide (b.shadows.toNat / 2 ^ (n - 1) % 2 = 1)).map (.ofNat 3)

/-- Every result in flight, load and atomic of a bank has reached its place. -/
def nothingInFlight (b : Bank) : Bool :=
  decide (b.flightS = []) && decide (b.flightA = []) && decide (b.flightV = []) && decide (b.flightQ = []) &&
    decide (b.loads = []) && decide (b.atomics = [])

/-- Every data queue empty (R143). -/
def discardQueues (b : Bank) : Bank := { b with lq := [], sq := [], xq := [], aq := [], ssq := [], cq := [], rq := [] }

/-- Stops every active stream as R143 asks. -/
def stopStreams (b : Bank) : Bank :=
  (List.range 16).foldl (fun b st =>
    let x := b.stream st
    if !x.active then b else if x.loads then stopLoad b st else stopStore b st) b

/-- One more step of HALT after its issue (R143): 1 results land; 2 open shadow sets are resolved; 3 streams are told to stop; 4 store
streams write out; 5 the release and the discarding of the queues; 6 the wait for the commands. -/
def haltStep (s : State) (k : Nat) : Attempt :=
  let b := s.here
  let go (s : State) : Attempt := .wait (setSWait s (.halting (k + 1)))
  match heldStore b with
  | some f => .trap s f
  | none =>
    match k with
    | 0 | 1 => if nothingInFlight b then go s else .wait s
    | 2 => match openSet b with
      | none => go s
      | some n =>
        if engDepth .mx ≤ b.mx.length then .wait s
        else .wait (s.modHere fun b => { pushResolve b n false s.cycle with shadows := b.shadows &&& ~~~setBit n })
    | 3 => go (s.modHere stopStreams)
    | 4 => if b.streams.any fun p => p.2.active then .wait s else go s
    | 5 => go ((phaseRelease s s.cur 2).modHere discardQueues)
    | _ => .wait s

/-- HALT: it issues once every A and V instruction up to its line has; from then on the task is halting and issues nothing more, the
core leaves the bank, and the steps of the wait follow one another; it stands behind the other S lanes of its line (R51, R52, R75, R143; log
entry 15). -/
def execHalt (s : State) : Out :=
  .next (conclude .S (
    match s.here.sWait with
    | .halting k => haltStep s k
    | .idle | .released | .arrived _ | .freezing _ _ | .acking | .frozen | .counting _ _ | .realigning _ =>
      if s.here.aQueue = [] ∧ s.here.vQueue = [] then
        .wait (leaveBank ((setSWait s (.halting 1)).modRow s.cur fun r => { r with state := .halting }) s.cur)
      else .wait s))

/-- YIELD: the task is bound again and the core leaves the bank (R144). -/
def execYield (s : State) : Out :=
  let s1 := s.modHere fun b => goTo b s.cycle (sLine s + 32)
  let s2 := s1.modRow s.cur fun r => { r with state := .bound, since := s.cycle }
  .next (conclude .S (.ok (leaveBank s2 s.cur)))

/-! ### Time -/

/-- The value of a counter as a row reads it (R115). -/
def counterValue (s : State) (row : Nat) : Counter → W64
  | .tcc => (s.bank row).tcc
  | .dcc => s.dcc.get 0 (dieOf row)
  | .dt => s.dtDie.get 0 (dieOf row)

/-- TIME (R146). -/
def execTime (d : BitVec 6) (f : Counter) (s : State) : Out := .next (sWrite s d [] 1 fun _ => counterValue s s.cur f)

/-- REALIGN: the request goes to the control die, and S waits until cycle P + 20 has passed (R117). -/
def execRealign (a t : BitVec 6) (s : State) : Out :=
  let b := s.here
  .next (conclude .S (declared s (b.hasS [a, t]) (
    match b.sWait with
    | .realigning none => .wait s
    | .realigning (some p) => if p < s.cycle then .ok (setSWait s .idle) else .wait s
    | .idle | .released | .arrived _ | .freezing _ _ | .acking | .frozen | .counting _ _ | .halting _ =>
      let set := (b.sreg a).toNat
      if !(s.row s.cur).pinned then trapWith s 0x07
      else if set = 0 ∨ 512 ≤ set then trapWith s 0x02
      else
        let s := { s with realigns := s.realigns ++ [⟨.ofNat 9 set, b.sreg t, s.cur⟩] }
        .wait (setSWait s (.realigning none)))))

/-! ### System registers and traps -/

/-- CAPS (R49). -/
def capsValue (s : State) (row : Nat) : Nat :=
  let c := coreOf row
  let cls := match coreKind c with
    | .compute => 1
    | .attention => 2
    | .draft => 4
  let edge := if coreKind c = .compute then 16 else 8
  c * 2 ^ 40 + dieOfCore c * 2 ^ 36 + s.pkg.toNat * 2 ^ 35 + cls * 2 ^ 32 + engMaskOf c * 2 ^ 16 + edge * 2 ^ 8 + row % 2

/-- TASKINFO, as the bind fixes it (R150). -/
def taskInfo (r : Row) : W64 := .ofNat 64 (r.asid.toNat * 2 ^ 48 + r.task.toNat * 2 ^ 32 + r.pinned.toNat * 8 + r.gang.toNat * 4)

/-- The value of a per-bank system register (R150). -/
def sysRegValue (s : State) (row : Nat) (n : SysReg) : W64 :=
  let b := s.bank row
  match n with
  | .caps => .ofNat 64 (capsValue s row)
  | .taskinfo => b.info
  | .trapvec => b.trapvec
  | .trapcause => b.trapcause
  | .trapret => b.trapret
  | .shadowst => b.shadows.setWidth 64
  | .rbase => b.rb.setWidth 64

/-- The bits of TRAPVEC and TRAPRET that can be written (R150). -/
def lineMask : W64 := 0x0000FFFFFFFFFFE0

/-- A write of a per-bank system register; read-only fields ignore it (R7, R145, R150). -/
def putSysReg (b : Bank) (n : SysReg) (v : W64) : Bank :=
  match n with
  | .trapvec => { b with trapvec := v &&& (lineMask ||| 1) }
  | .trapret => { b with trapret := v &&& lineMask }
  | .caps | .taskinfo | .trapcause | .shadowst | .rbase => b

/-- SYSR (R145). -/
def execSysr (d : BitVec 6) (n : SysReg) (s : State) : Out := .next (sWrite s d [] 1 fun _ => sysRegValue s s.cur n)

/-- SYSW (R145). -/
def execSysw (n : SysReg) (a : BitVec 6) (s : State) : Out :=
  .next (conclude .S (declared s (s.here.hasS [a]) (.ok (s.modHere fun b => putSysReg b n (b.sreg a)))))

/-- TRAP: enters the task's handler, or raises cause 0x12 for the firmware (R148). -/
def execTrap (code : BitVec 13) (s : State) : Out :=
  let b := s.here
  .next (conclude .S (
    if b.handlerReady then
      match landingFault s s.cur (lineOf b.trapvec) with
      | some c => .trap s (faultOf c (lineOf b.trapvec))
      | none => .ok (s.modHere fun b => goTo (trapEnter b (sLine s) code) s.cycle (lineOf b.trapvec))
    else .trap s { faultOf 0x12 0 with aux := code.setWidth 32 }))

/-- TRET: the return from the handler (R149). -/
def execTret (s : State) : Out :=
  .next (conclude .S (
    if bitsOf s.here.trapcause.toNat 63 63 = 0 then trapWith s 0x02
    else .ok (s.modHere fun b => goTo (trapReturn b) s.cycle (lineOf b.trapret))))

/-- NOP (R149). -/
def execNop (s : State) : Out := .next (conclude .S (.ok s))

end Sys2Proof.Machine
end

