-- ==== Sys2Proof/Machine/Special.lean ====
section
/-! DEFINITION. The special functions of R170 and R210. A value that is not exact is held to 640 fractional bits with a sticky
bit, so that one rounding to f32 is correct in every mode (log entry 13). -/

namespace Sys2Proof.Machine

/-- Fractional bits of the fixed-point arithmetic below. -/
def prec : Nat := 640

/-- One at the fixed-point precision. -/
def fxOne : Nat := 2 ^ prec

/-- The product of two fixed-point numbers. -/
def fxMul (a b : Nat) : Nat := a * b / fxOne

/-- sum of t^(2k+1) / (2k+1) from the term `p = t^(2k+1)` on; `t2` is t squared. -/
def atanhFrom (t2 : Nat) : Nat → Nat → Nat → Nat
  | 0, _, _ => 0
  | fuel + 1, k, p => p / (2 * k + 1) + atanhFrom t2 fuel (k + 1) (fxMul p t2)

/-- atanh of a fixed-point number of at most 1/3. -/
def fxAtanh (t : Nat) : Nat := atanhFrom (fxMul t t) 210 0 t

/-- The natural logarithm of 2, as 2 atanh(1/3). -/
def fxLn2 : Nat := 2 * fxAtanh (fxOne / 3)

/-- The exponential series from the term `p = y^k / k!` on. -/
def expFrom (y : Nat) : Nat → Nat → Nat → Nat
  | 0, _, _ => 0
  | fuel + 1, k, p => p + expFrom y fuel (k + 1) (fxMul p y / (k + 1))

/-- e^y of a fixed-point number below 1. -/
def fxExp (y : Nat) : Nat := expFrom y 150 0 fxOne

/-- A value m × 2^e that is not exact, with a sticky bit below it. -/
def inexact (s : Bool) (m : Nat) (e : Int) : XVal := .fin s (2 * m + 1) (e - 1)

/-- A magnitude just below 1. -/
def almostOne (s : Bool) : XVal := .fin s (2 ^ 300 - 1) (-300)

/-- A finite value as a fixed-point integer. -/
def fxOf (s : Bool) (m : Nat) (e : Int) : Int :=
  let x : Int := (roundAt .rtz s m e (-(prec : Int)) : Nat)
  if s then -x else x

/-- Whether a finite magnitude is at least 2^k. -/
def atLeastPow (m : Nat) (e k : Int) : Bool := decide (m ≠ 0) && decide (k ≤ log2Of m e)

/-- e^x of a fixed-point number: the significand at the precision, and the exponent of 2. -/
def expOf (x : Int) : Nat × Int :=
  let n := x / (fxLn2 : Int)
  (fxExp (x % (fxLn2 : Int)).toNat, n)

/-- The significand and exponent of `expOf` as a fixed-point number. -/
def fxShift (m : Nat) (n : Int) : Nat := if 0 ≤ n then m * 2 ^ n.toNat else m / 2 ^ (-n).toNat

/-- 2^x (R210). -/
def exp2X : XVal → XVal
  | .nan => .nan
  | .inf s => if s then XVal.zero else .inf false
  | .fin s m e =>
    if m = 0 then XVal.one
    else if atLeastPow m e 10 then (if s then inexact false 1 (-600) else inexact false 1 600)
    else
      let x := fxOf s m e
      let n := x / (fxOne : Int)
      let f := (x % (fxOne : Int)).toNat
      if f = 0 ∧ 0 ≤ e + prec then .fin false 1 n
      else inexact false (fxExp (fxMul f fxLn2)) (n - prec)

/-- log2 x (R210). -/
def log2X : XVal → XVal
  | .nan => .nan
  | .inf s => if s then .nan else .inf false
  | .fin s m e =>
    if m = 0 then .inf true
    else if s then .nan
    else
      let k := m.log2
      let n : Int := (k : Int) + e
      if m = 2 ^ k then XVal.ofInt n
      else
        let t := (m - 2 ^ k) * fxOne / (m + 2 ^ k)
        let l := 2 * fxAtanh t * fxOne / fxLn2
        let v : Int := n * fxOne + l
        inexact (decide (v < 0)) v.natAbs (-(prec : Int))

/-- 1 / x (R210). -/
def rcpX (x : XVal) : XVal := divX XVal.one x

/-- Integer square root of numbers below 4^n, bit by bit. -/
def isqrtFrom (x : Nat) : Nat → Nat → Nat
  | 0, r => r
  | n + 1, r => if (r + 2 ^ n) * (r + 2 ^ n) ≤ x then isqrtFrom x n (r + 2 ^ n) else isqrtFrom x n r

/-- The square root of a number, rounded down. -/
def isqrt (x : Nat) : Nat := isqrtFrom x (x.log2 / 2 + 1) 0

/-- √x (R210). -/
def sqrtX : XVal → XVal
  | .nan => .nan
  | .inf s => if s then .nan else .inf false
  | .fin s m e =>
    if m = 0 then .fin s 0 0
    else if s then .nan
    else
      let (m, e) := if e % 2 = 0 then (m, e) else (2 * m, e - 1)
      let n := m * 2 ^ 128
      let r := isqrt n
      if r * r = n then .fin false r (e / 2 - 64) else inexact false r (e / 2 - 64)

/-- 1 / √x (R210). -/
def rsqrtX : XVal → XVal
  | .nan => .nan
  | .inf s => if s then .nan else XVal.zero
  | .fin s m e =>
    if m = 0 then .inf s
    else if s then .nan
    else
      let (m, e) := if e % 2 = 0 then (m, e) else (2 * m, e - 1)
      let n := 2 ^ 256 / m
      let r := isqrt n
      if r * r * m = 2 ^ 256 then .fin false r (-(e / 2) - 128) else inexact false r (-(e / 2) - 128)

/-- tanh x (R210). -/
def tanhX : XVal → XVal
  | .nan => .nan
  | .inf s => .fin s 1 0
  | .fin s m e =>
    if m = 0 then .fin s 0 0
    else if atLeastPow m e 8 then almostOne s
    else
      let (p, n) := expOf (2 * fxOf false m e)
      let x := fxShift p n
      inexact s ((x - fxOne) * fxOne / (x + fxOne)) (-(prec : Int))

/-- 1 / (1 + e^-x) (R210). -/
def sigmX : XVal → XVal
  | .nan => .nan
  | .inf s => if s then XVal.zero else XVal.one
  | .fin s m e =>
    if m = 0 then .fin false 1 (-1)
    else if atLeastPow m e 8 then (if s then inexact false 1 (-300) else almostOne false)
    else
      let (p, n) := expOf (-(fxOf s m e))
      let x := fxShift p n
      inexact false (fxOne * fxOne / (fxOne + x)) (-(prec : Int))

/-- e^x − 1 (R210). -/
def expm1X : XVal → XVal
  | .nan => .nan
  | .inf s => if s then .fin true 1 0 else .inf false
  | .fin s m e =>
    if m = 0 then .fin s 0 0
    else if atLeastPow m e 8 then (if s then almostOne true else inexact false 1 600)
    else
      let (p, n) := expOf (fxOf s m e)
      let v : Int := (fxShift p n : Int) - (fxOne : Int)
      inexact (decide (v < 0)) v.natAbs (-(prec : Int))

end Sys2Proof.Machine
end

