-- ==== Sys2Proof/Machine/VecArith.lean ====
section
/-! DEFINITION. Vector instructions of chapter 08: arithmetic, logic, shifts, widening, comparisons, masks and conversions. -/

namespace Sys2Proof.Machine

/-! ### Shared forms -/

/-- A vector instruction's attempt. -/
def vIssue (k : Attempt) : Out := .next (conclude .V k)

/-- The rounding mode of VMODE (R161). -/
def Bank.mode (b : Bank) : Mode := Mode.of b.vmode.toNat

/-- Two sources read together (R105). -/
def withSrcs (s : State) (a b : VSrc) (k : VWord → VWord → Attempt) : Attempt :=
  withSrc s a fun x => withSrc s b fun y => k x y

/-- An elementwise instruction of one source (R176). -/
def vMap1 (s : State) (d : VDst) (a : VSrc) (m : BitVec 6) (t : ElemType) (lat : Nat) (f : Mode → Nat → Nat) : Out :=
  let b := s.here
  vIssue (declared s (b.hasDst d && b.hasSrc a && b.hasM [m]) (landingRoom s .V (dstRoom s d (withSrc s a fun x =>
    .ok (s.modHere fun b =>
      (popSrc b a).putDst lat d t.width ((elems t x).map fun c => slotCode t (f b.mode c)) (activeOf (b.mreg m) t.count))))))

/-- An elementwise instruction of two sources (R176). -/
def vMap2 (s : State) (d : VDst) (a b : VSrc) (m : BitVec 6) (t : ElemType) (lat : Nat) (f : Mode → Nat → Nat → Nat) : Out :=
  let k := s.here
  vIssue (declared s (k.hasDst d && k.hasSrc a && k.hasSrc b && k.hasM [m]) (landingRoom s .V (dstRoom s d
    (withSrcs s a b fun x y =>
      .ok (s.modHere fun k =>
        (popSrcs k a b).putDst lat d t.width
          (List.zipWith (fun p q => slotCode t (f k.mode p q)) (elems t x) (elems t y)) (activeOf (k.mreg m) t.count))))))

/-- An elementwise instruction of three sources, the third a register (R176). -/
def vMap3 (s : State) (d : VDst) (a b : VSrc) (c : BitVec 8) (m : BitVec 6) (t : ElemType) (lat : Nat)
    (f : Mode → Nat → Nat → Nat → Nat) : Out :=
  let k := s.here
  vIssue (declared s (k.hasDst d && k.hasSrc a && k.hasSrc b && k.hasV [c.toNat] && k.hasM [m])
    (landingRoom s .V (dstRoom s d (withSrcs s a b fun x y => withSrc s (.reg c) fun z =>
      .ok (s.modHere fun k =>
        (popSrcs k a b).putDst lat d t.width
          (List.zipWith (fun p q => slotCode t (f k.mode p.1 p.2 q)) (List.zip (elems t x) (elems t y)) (elems t z))
          (activeOf (k.mreg m) t.count))))))

/-- Latency of add, subtract: integer 2, floating 4 (R177). -/
def addLat (t : ElemType) : Nat := if t.isInt then 2 else 4

/-- Addition into a type (R176, R178). -/
def elemAdd (t : ElemType) (md : Mode) (x y : Nat) : Nat := finish t md ((decodeElem t x).add md.rm (decodeElem t y))
/-- Subtraction. -/
def elemSub (t : ElemType) (md : Mode) (x y : Nat) : Nat := finish t md ((decodeElem t x).add md.rm (decodeElem t y).neg)
/-- Multiplication. -/
def elemMul (t : ElemType) (md : Mode) (x y : Nat) : Nat := finish t md ((decodeElem t x).mul (decodeElem t y))
/-- A product, negated or not, plus an addend, negated or not, rounded once (R179). -/
def elemFma (t : ElemType) (negP negC : Bool) (md : Mode) (x y z : Nat) : Nat :=
  let p := (decodeElem t x).mul (decodeElem t y)
  let c := decodeElem t z
  finish t md ((if negP then p.neg else p).add md.rm (if negC then c.neg else c))
/-- Negation; nothing is rounded (R180). -/
def elemNeg (t : ElemType) (x : Nat) : Nat := finish t Mode.rne (decodeElem t x).neg
/-- Magnitude (R180). -/
def elemAbs (t : ElemType) (x : Nat) : Nat := finish t Mode.rne (decodeElem t x).abs

def execVadd (d : VDst) (a b : VSrc) (m : BitVec 6) (t : ElemType) (s : State) : Out := vMap2 s d a b m t (addLat t) (elemAdd t)
def execVsub (d : VDst) (a b : VSrc) (m : BitVec 6) (t : ElemType) (s : State) : Out := vMap2 s d a b m t (addLat t) (elemSub t)
def execVmul (d : VDst) (a b : VSrc) (m : BitVec 6) (t : ElemType) (s : State) : Out := vMap2 s d a b m t 4 (elemMul t)
def execVfma (d : VDst) (a b : VSrc) (c : BitVec 8) (m : BitVec 6) (t : ElemType) (s : State) : Out :=
  vMap3 s d a b c m t 5 (elemFma t false false)
def execVfms (d : VDst) (a b : VSrc) (c : BitVec 8) (m : BitVec 6) (t : ElemType) (s : State) : Out :=
  vMap3 s d a b c m t 5 (elemFma t false true)
def execVfnma (d : VDst) (a b : VSrc) (c : BitVec 8) (m : BitVec 6) (t : ElemType) (s : State) : Out :=
  vMap3 s d a b c m t 5 (elemFma t true false)
def execVneg (d : VDst) (a : VSrc) (m : BitVec 6) (t : ElemType) (s : State) : Out := vMap1 s d a m t 2 fun _ x => elemNeg t x
def execVabs (d : VDst) (a : VSrc) (m : BitVec 6) (t : ElemType) (s : State) : Out := vMap1 s d a m t 2 fun _ x => elemAbs t x
def execVmin (d : VDst) (a b : VSrc) (m : BitVec 6) (t : ElemType) (s : State) : Out :=
  vMap2 s d a b m t 2 fun _ x y => chooseElem t false x y
def execVmax (d : VDst) (a b : VSrc) (m : BitVec 6) (t : ElemType) (s : State) : Out :=
  vMap2 s d a b m t 2 fun _ x y => chooseElem t true x y

/-! ### Integer-only instructions (R182) -/

/-- An elementwise integer instruction of two sources on the integers that the codes hold. -/
def intMap2 (s : State) (d : VDst) (a b : VSrc) (m : BitVec 6) (t : ElemType) (lat : Nat) (f : Int → Int → Int) : Out :=
  vMap2 s d a b m t lat fun _ x y => wrapTo t.width (f (intOf t x) (intOf t y))

def execVadds (d : VDst) (a b : VSrc) (m : BitVec 6) (t : ElemType) (s : State) : Out :=
  intMap2 s d a b m t 2 fun x y => clampTo t (x + y)
def execVsubs (d : VDst) (a b : VSrc) (m : BitVec 6) (t : ElemType) (s : State) : Out :=
  intMap2 s d a b m t 2 fun x y => clampTo t (x - y)
def execVmulh (d : VDst) (a b : VSrc) (m : BitVec 6) (t : ElemType) (s : State) : Out :=
  intMap2 s d a b m t 4 fun x y => x * y / 2 ^ t.width
def execVavg (d : VDst) (a b : VSrc) (m : BitVec 6) (t : ElemType) (s : State) : Out :=
  intMap2 s d a b m t 2 fun x y => (x + y + 1) / 2
def execVclz (d : VDst) (a : VSrc) (m : BitVec 6) (t : ElemType) (s : State) : Out :=
  vMap1 s d a m t 2 fun _ x => clzOf t.width x
def execVpopc (d : VDst) (a : VSrc) (m : BitVec 6) (t : ElemType) (s : State) : Out :=
  vMap1 s d a m t 2 fun _ x => onesIn t.width x

/-! ### Shifts (R181) -/

/-- A shift left of a `w`-bit element. -/
def shlElem (w x c : Nat) : Nat := if w ≤ c then 0 else x * 2 ^ c % 2 ^ w
/-- A logical shift right. -/
def shrElem (w x c : Nat) : Nat := if w ≤ c then 0 else x / 2 ^ c
/-- An arithmetic shift right. -/
def sarElem (w x c : Nat) : Nat := wrapTo w (signedOf w x / 2 ^ min c w)

/-- A shift by an immediate or by the elements of a second source. -/
def vShift (s : State) (d : VDst) (a : VSrc) (n : ShiftCount) (m : BitVec 6) (t : ElemType) (f : Nat → Nat → Nat → Nat) : Out :=
  match n with
  | .imm c => vMap1 s d a m t 2 fun _ x => f t.width x c.toNat
  | .src b => vMap2 s d a b m t 2 fun _ x c => f t.width x c

def execVshl (d : VDst) (a : VSrc) (n : ShiftCount) (m : BitVec 6) (t : ElemType) (s : State) : Out := vShift s d a n m t shlElem
def execVshr (d : VDst) (a : VSrc) (n : ShiftCount) (m : BitVec 6) (t : ElemType) (s : State) : Out := vShift s d a n m t shrElem
def execVsar (d : VDst) (a : VSrc) (n : ShiftCount) (m : BitVec 6) (t : ElemType) (s : State) : Out := vShift s d a n m t sarElem

/-! ### Logic on raw bits (R178, R180) -/

def execVand (d : VDst) (a b : VSrc) (m : BitVec 6) (t : ElemType) (s : State) : Out := vMap2 s d a b m t 2 fun _ x y => x &&& y
def execVor (d : VDst) (a b : VSrc) (m : BitVec 6) (t : ElemType) (s : State) : Out := vMap2 s d a b m t 2 fun _ x y => x ||| y
def execVxor (d : VDst) (a b : VSrc) (m : BitVec 6) (t : ElemType) (s : State) : Out := vMap2 s d a b m t 2 fun _ x y => x ^^^ y
def execVandn (d : VDst) (a b : VSrc) (m : BitVec 6) (t : ElemType) (s : State) : Out :=
  vMap2 s d a b m t 2 fun _ x y => x &&& (2 ^ t.width - 1 - y)
def execVnot (d : VDst) (a : VSrc) (m : BitVec 6) (t : ElemType) (s : State) : Out :=
  vMap1 s d a m t 2 fun _ x => 2 ^ t.width - 1 - x

/-! ### Widening (R183 to R185) -/

/-- Every `k`-th member of a list after skipping `c`. -/
def strideFrom {α : Type} (k : Nat) : Nat → List α → List α
  | _, [] => []
  | 0, x :: r => x :: strideFrom k (k - 1) r
  | c + 1, _ :: r => strideFrom k c r

/-- Members `j`, `j + k`, … of a list. -/
def strided {α : Type} (k j : Nat) (l : List α) : List α := strideFrom k j l

/-- The first members of the lists, then the second ones, and so on. -/
def weave {α : Type} : Nat → List (List α) → List α
  | 0, _ => []
  | n + 1, ls => ls.filterMap List.head? ++ weave n (ls.map List.tail)

/-- Results for `k` registers from name `n` on: result `i` goes to register `i mod k` at slot `i div k` (R184, R191). -/
def Bank.putInterleaved (b : Bank) (lat n k w : Nat) (vals : List Nat) (act : List Bool) : Bank :=
  let rb := (b.headEntry .V).rb
  b.send .V lat ((List.range k).map fun j =>
    .vreg (physReg rb (n + j)) (ofElems w (strided k j vals)) (enableBits w (strided k j act)))

/-- The elements that `k` registers from name `n` on hold, element `i` in register `i mod k` at slot `i div k` (R191). -/
def Bank.readInterleaved (b : Bank) (n k : Nat) (t : ElemType) : List Nat :=
  let rb := (b.headEntry .V).rb
  weave t.count ((List.range k).map fun j => elems t (b.vreg (physReg rb (n + j))))

/-- Names `n` to `n + k - 1`. -/
def namesFrom (n k : Nat) : List Nat := (List.range k).map fun j => n + j

/-- A widening instruction: `f` gets the two decoded sources and the decoded old destination (R184). -/
def vWiden (s : State) (d : BitVec 8) (a b : VSrc) (m : BitVec 6) (t : ElemType) (quad : Bool)
    (f : Mode → XVal → XVal → XVal → XVal) : Out :=
  let k := if quad then 4 else 2
  let r := (t.widened quad).getD t
  let bk := s.here
  vIssue (declared s (bk.hasV (namesFrom d.toNat k) && bk.hasSrc a && bk.hasSrc b && bk.hasM [m])
    (landingRoom s .V (withSrcs s a b fun x y =>
      .ok (s.modHere fun bk =>
        let old := (bk.readInterleaved d.toNat k r).map (decodeElem r)
        let xs := List.zip (elems t x) (elems t y)
        let vals := List.zipWith (fun p c => finish r bk.mode (f bk.mode (decodeElem t p.1) (decodeElem t p.2) c)) xs old
        (popSrcs bk a b).putInterleaved 5 d.toNat k r.width vals (activeOf (bk.mreg m) t.count)))))

def execVwadd (d : BitVec 8) (a b : VSrc) (m : BitVec 6) (t : ElemType) (quad : Bool) (s : State) : Out :=
  vWiden s d a b m t quad fun md x y _ => x.add md.rm y
def execVwmul (d : BitVec 8) (a b : VSrc) (m : BitVec 6) (t : ElemType) (quad : Bool) (s : State) : Out :=
  vWiden s d a b m t quad fun _ x y _ => x.mul y
def execVwfma (d : BitVec 8) (a b : VSrc) (m : BitVec 6) (t : ElemType) (quad : Bool) (s : State) : Out :=
  vWiden s d a b m t quad fun md x y c => (x.mul y).add md.rm c

/-! ### Comparison and classes (R186, R187) -/

/-- VCMP: bits of the active elements. -/
def execVcmp (d : BitVec 6) (a b : VSrc) (m : BitVec 6) (t : ElemType) (p : VPred) (s : State) : Out :=
  let k := s.here
  vIssue (declared s (k.hasM [d, m] && k.hasSrc a && k.hasSrc b) (landingRoom s .V (withSrcs s a b fun x y =>
    .ok (s.modHere fun k =>
      (popSrcs k a b).putMask 2 d
        (List.zipWith (fun u v => vpredHolds p (decodeElem t u) (decodeElem t v)) (elems t x) (elems t y))
        (activeOf (k.mreg m) t.count)))))

/-- VCLASS: bits of the active elements. -/
def execVclass (d : BitVec 6) (a : VSrc) (m : BitVec 6) (t : ElemType) (cls : BitVec 7) (s : State) : Out :=
  let k := s.here
  vIssue (declared s (k.hasM [d, m] && k.hasSrc a) (landingRoom s .V (withSrc s a fun x =>
    .ok (s.modHere fun k =>
      (popSrc k a).putMask 2 d ((elems t x).map fun c => cls.getLsbD (classBit (decodeElem t c)))
        (activeOf (k.mreg m) t.count)))))

/-! ### Mask instructions (R188 to R190) -/

/-- An instruction that writes all bits of a mask register. -/
def maskWrite (s : State) (d : BitVec 6) (regs : List (BitVec 6)) (v : Bank → MWord) : Out :=
  vIssue (declared s (s.here.hasM (d :: regs)) (landingRoom s .V
    (.ok (s.modHere fun b => b.send .V 2 [.mreg d (v b) MWord.ones]))))

def execMand (d a b : BitVec 6) (s : State) : Out := maskWrite s d [a, b] fun k => k.mreg a &&& k.mreg b
def execMor (d a b : BitVec 6) (s : State) : Out := maskWrite s d [a, b] fun k => k.mreg a ||| k.mreg b
def execMxor (d a b : BitVec 6) (s : State) : Out := maskWrite s d [a, b] fun k => k.mreg a ^^^ k.mreg b
def execMandn (d a b : BitVec 6) (s : State) : Out := maskWrite s d [a, b] fun k => k.mreg a &&& ~~~k.mreg b
def execMnot (d a : BitVec 6) (s : State) : Out := maskWrite s d [a] fun k => ~~~k.mreg a
def execMmov (d a : BitVec 6) (s : State) : Out := maskWrite s d [a] fun k => k.mreg a

/-- The low `min x 1024` bits set (R189). -/
def tailMask (x : W64) : MWord := .ofNat 1024 (2 ^ min x.toNat 1024 - 1)

/-- MSET (R189). -/
def execMset (d : BitVec 6) (mode : MSetMode) (s : State) : Out :=
  match mode with
  | .zero => maskWrite s d [] fun _ => 0
  | .ones => maskWrite s d [] fun _ => MWord.ones
  | .xq => vIssue (declared s (s.here.hasM [d]) (landingRoom s .V (withXq s 1 fun l =>
      .ok (s.modHere fun b => (b.popWords .xq 1).send .V 2 [.mreg d (tailMask (l.headD 0)) MWord.ones]))))

/-- The bits of a mask that the elements of a type have, as a number (R190). -/
def maskBits (b : Bank) (a : BitVec 6) (t : ElemType) : Nat := (b.mreg a).toNat % 2 ^ t.count

/-- MPOP and MFIRST: a word for cq (R190). -/
def maskToCq (s : State) (a : BitVec 6) (t : ElemType) (f : Nat → W64) : Out :=
  vIssue (declared s (s.here.hasM [a]) (landingRoom s .V (cqRoom s true
    (.ok (s.modHere fun b => b.putCq 2 (f (maskBits b a t)))))))

def execMpop (a : BitVec 6) (t : ElemType) (s : State) : Out := maskToCq s a t fun x => .ofNat 64 (onesIn 1024 x)
def execMfirst (a : BitVec 6) (t : ElemType) (s : State) : Out :=
  maskToCq s a t fun x => if x = 0 then BitVec.allOnes 64 else .ofNat 64 (ctzFrom 1024 x)

/-! ### Conversion (R191 to R194) -/

/-- A conversion between types of any two widths: `f` turns a source code into a result code (R191). -/
def vConvert (s : State) (d : VDst) (a : VSrc) (m : BitVec 6) (t src : ElemType) (words : Nat)
    (f : Mode → List W64 → Nat → Nat) : Out :=
  let k := widthRatio t.width src.width
  let b := s.here
  let wide := decide (src.width < t.width)
  let srcNames := if wide ∨ k = 1 then b.hasSrc a else b.hasV (namesFrom a.regNum k)
  let dstNames := if wide then b.hasV (namesFrom d.regNum k) else b.hasDst d
  let n := max t.count src.count
  vIssue (declared s (srcNames && dstNames && b.hasM [m]) (landingRoom s .V (dstRoom s d (withXq s words fun ws =>
    withSrc s a fun x =>
      .ok (s.modHere fun b =>
        let codes := if wide ∨ k = 1 then elems src x else b.readInterleaved a.regNum k src
        let vals := codes.map fun c => slotCode t (f b.mode ws c)
        let act := activeOf (b.mreg m) n
        let b' := popSrc (b.popWords .xq words) a
        if wide then b'.putInterleaved 4 d.regNum k t.width vals act else b'.putDst 4 d t.width vals act)))))

/-- VCVT (R192). -/
def execVcvt (d : VDst) (a : VSrc) (m : BitVec 6) (t src : ElemType) (sat : Bool) (s : State) : Out :=
  vConvert s d a m t src 0 fun md _ c => convElem src t md sat c

/-- A product with a scale, rounded once (R193). -/
def scaledCode (src t : ElemType) (md : Mode) (w : W64) (c : Nat) : Nat :=
  roundElem t md ((decodeElem src c).mul (fmtF32.decode (w.toNat % 2 ^ 32)))

/-- VCVTS (R193). -/
def execVcvts (d : VDst) (a : VSrc) (m : BitVec 6) (t src : ElemType) (s : State) : Out :=
  vConvert s d a m t src 1 fun md ws c => scaledCode src t md (ws.headD 0) c

/-- The exponent that VSCALE reads from an element (R194). -/
def scaleExp (t : ElemType) (c : Nat) : Int := if t = .t6 then signedOf 6 (c % 64) else signedOf t.width c

/-- VSCALE (R194). -/
def execVscale (d : VDst) (a b : VSrc) (m : BitVec 6) (t : ElemType) (s : State) : Out :=
  vMap2 s d a b m t 4 fun md x e => roundElem t md ((decodeElem t x).scale (scaleExp t e))

end Sys2Proof.Machine
end

