-- ==== Sys2Proof/Machine/VecMove.lean ====
section
/-! DEFINITION. Vector instructions of R195 to R212: moves, permutes, interleaves, nibble packing, reductions, special functions,
VSETMODE and VDISC. -/

namespace Sys2Proof.Machine

/-! ### Moves (R197, R198) -/

def execVmov (d : VDst) (a : VSrc) (m : BitVec 6) (t : ElemType) (s : State) : Out := vMap1 s d a m t 2 fun _ x => x

/-- VSEL: va where the selector is set, vb elsewhere. -/
def execVsel (d : VDst) (a b : VSrc) (sel m : BitVec 6) (t : ElemType) (s : State) : Out :=
  let k := s.here
  vIssue (declared s (k.hasDst d && k.hasSrc a && k.hasSrc b && k.hasM [sel, m]) (landingRoom s .V (dstRoom s d
    (withSrcs s a b fun x y =>
      .ok (s.modHere fun k =>
        let pick := List.zipWith (fun (p : Nat × Nat) c => slotCode t (if c then p.1 else p.2)) (List.zip (elems t x) (elems t y))
          (activeOf (k.mreg sel) t.count)
        (popSrcs k a b).putDst 2 d t.width pick (activeOf (k.mreg m) t.count))))))

/-- Element `j` of a value, or the zero element at or beyond the count (R195). -/
def elemOr0 (t : ElemType) (x : VWord) (j : Nat) : Nat := if j < t.count then slotCode t (elemAt t.width x j) else 0

/-- Every element of a destination set from its index by `f` (R198 to R201). -/
def fromIndex (t : ElemType) (f : Nat → Nat) : List Nat := (List.range t.count).map f

def execVbcast (d : VDst) (a : VSrc) (j : IndexSrc) (m : BitVec 6) (t : ElemType) (s : State) : Out :=
  let b := s.here
  vIssue (declared s (b.hasDst d && b.hasSrc a && b.hasM [m]) (landingRoom s .V (dstRoom s d (withIndex s j fun i =>
    withSrc s a fun x =>
      .ok (s.modHere fun b =>
        (popSrc (b.popWords .xq (indexPops j)) a).putDst 3 d t.width (fromIndex t fun _ => elemOr0 t x i)
          (activeOf (b.mreg m) t.count))))))

def execVsplat (d : VDst) (m : BitVec 6) (t : ElemType) (s : State) : Out :=
  let b := s.here
  vIssue (declared s (b.hasDst d && b.hasM [m]) (landingRoom s .V (dstRoom s d (withXq s 1 fun l =>
    .ok (s.modHere fun b =>
      (b.popWords .xq 1).putDst 2 d t.width (fromIndex t fun _ => slotCode t (l.headD 0).toNat)
        (activeOf (b.mreg m) t.count))))))

/-- A code as a 64-bit word: sign-extended for a signed type (R198, R209). -/
def codeWord (signed : Bool) (w c : Nat) : W64 := if signed then .ofInt 64 (signedOf w c) else .ofNat 64 c

def execVextr (a : VSrc) (j : IndexSrc) (t : ElemType) (s : State) : Out :=
  let b := s.here
  vIssue (declared s (b.hasSrc a) (landingRoom s .V (cqRoom s true (withIndex s j fun i =>
    withSrc s a fun x =>
      .ok (s.modHere fun b =>
        (popSrc (b.popWords .xq (indexPops j)) a).putCq 3 (codeWord t.signed t.width (elemOr0 t x i)))))))

/-- VINS: one element under its mask bit; the words are popped in any case (R198). -/
def execVins (d : BitVec 8) (j : IndexSrc) (m : BitVec 6) (t : ElemType) (s : State) : Out :=
  let b := s.here
  let n := indexPops j + 1
  vIssue (declared s (b.hasV [d.toNat] && b.hasM [m]) (landingRoom s .V (withXq s n fun l =>
    .ok (s.modHere fun b =>
      let i := match j with
        | .imm k => k.toNat
        | .xq => (l.headD 0).toNat
      let v := slotCode t (l.getLastD 0).toNat
      let act := (List.range t.count).map fun k => decide (k = i) && (b.mreg m).getLsbD k
      (b.popWords .xq n).putReg 3 d.toNat t.width (fromIndex t fun _ => v) act))))

def execVldi (d : VDst) (i : BitVec 7) (m : BitVec 6) (t : ElemType) (s : State) : Out :=
  let b := s.here
  vIssue (declared s (b.hasDst d && b.hasM [m]) (landingRoom s .V (dstRoom s d
    (.ok (s.modHere fun b =>
      b.putDst 2 d t.width (fromIndex t fun _ => slotCode t (finish t b.mode (XVal.ofInt i.toInt)))
        (activeOf (b.mreg m) t.count))))))

/-! ### Permutes and slides (R199 to R203) -/

/-- The index type of a permute (R199). -/
def permIndexType (t : ElemType) : ElemType := if t.width = 32 then .z32 else .z16

/-- A permute: `f` gives the element of an index, from the source and the third register. -/
def vPermute (s : State) (d : VDst) (a b : VSrc) (cs : List Nat) (m : BitVec 6) (t : ElemType)
    (f : VWord → Bank → Nat → Nat) : Out :=
  let k := t.indexGroup
  let bk := s.here
  let idx := if k = 1 then bk.hasSrc b else bk.hasV (namesFrom b.regNum k)
  vIssue (declared s (bk.hasDst d && bk.hasSrc a && idx && bk.hasV cs && bk.hasM [m]) (landingRoom s .V (dstRoom s d
    (withSrcs s a b fun x y =>
      .ok (s.modHere fun bk =>
        let it := permIndexType t
        let ix := if k = 1 then elems it y else bk.readInterleaved b.regNum k it
        (popSrcs bk a b).putDst 3 d t.width (ix.map (f x bk)) (activeOf (bk.mreg m) t.count))))))

def execVperm (d : VDst) (a b : VSrc) (m : BitVec 6) (t : ElemType) (s : State) : Out :=
  vPermute s d a b [] m t fun x _ i => elemOr0 t x i

def execVperme (d : VDst) (a b : VSrc) (c : BitVec 8) (m : BitVec 6) (t : ElemType) (s : State) : Out :=
  vPermute s d a b [c.toNat] m t fun x bk i =>
    if i < t.count then elemOr0 t x i else elemOr0 t (bk.vreg (physReg (bk.headEntry .V).rb c.toNat)) (i - t.count)

/-- A slide of one source against another by a count (R200). -/
def vSlide (s : State) (d : VDst) (a b : VSrc) (c : IndexSrc) (m : BitVec 6) (t : ElemType)
    (f : VWord → VWord → Nat → Nat → Nat) : Out :=
  let k := s.here
  vIssue (declared s (k.hasDst d && k.hasSrc a && k.hasSrc b && k.hasM [m]) (landingRoom s .V (dstRoom s d
    (withIndex s c fun n => withSrcs s a b fun x y =>
      .ok (s.modHere fun k =>
        (popSrcs (k.popWords .xq (indexPops c)) a b).putDst 3 d t.width (fromIndex t (f x y (min n t.count)))
          (activeOf (k.mreg m) t.count))))))

def execVslup (d : VDst) (a b : VSrc) (c : IndexSrc) (m : BitVec 6) (t : ElemType) (s : State) : Out :=
  vSlide s d a b c m t fun x y n i => if n ≤ i then elemOr0 t x (i - n) else elemOr0 t y (t.count - n + i)

def execVsldn (d : VDst) (a b : VSrc) (c : IndexSrc) (m : BitVec 6) (t : ElemType) (s : State) : Out :=
  vSlide s d a b c m t fun x y n i => if i + n < t.count then elemOr0 t x (i + n) else elemOr0 t y (i + n - t.count)

def execVrev (d : VDst) (a : VSrc) (m : BitVec 6) (t : ElemType) (s : State) : Out :=
  let b := s.here
  vIssue (declared s (b.hasDst d && b.hasSrc a && b.hasM [m]) (landingRoom s .V (dstRoom s d (withSrc s a fun x =>
    .ok (s.modHere fun b =>
      (popSrc b a).putDst 3 d t.width (fromIndex t fun i => elemOr0 t x (t.count - 1 - i)) (activeOf (b.mreg m) t.count))))))

/-- The selected members of a list, in order. -/
def selected {α : Type} (l : List α) (act : List Bool) : List α := ((l.zip act).filter Prod.snd).map Prod.fst

/-- VCOMPR: the selected elements first, then zero elements; every element is written (R202). -/
def execVcompr (d : VDst) (a : VSrc) (sel : BitVec 6) (t : ElemType) (cq : Bool) (s : State) : Out :=
  let b := s.here
  vIssue (declared s (b.hasDst d && b.hasSrc a && b.hasM [sel]) (landingRoom s .V (dstRoom s d (cqRoom s cq
    (withSrc s a fun x =>
      .ok (s.modHere fun b =>
        let l := (selected (elems t x) (activeOf (b.mreg sel) t.count)).map (slotCode t)
        let vals := l ++ List.replicate (t.count - l.length) 0
        let b' := (popSrc b a).putDst 3 d t.width vals (List.replicate t.count true)
        if cq then b'.putCq 3 (.ofNat 64 l.length) else b'))))))

/-- The list with its members handed out to the active places, in order (R203). -/
def expandOver : List Nat → List Bool → List Nat
  | _, [] => []
  | l, false :: r => 0 :: expandOver l r
  | [], true :: r => 0 :: expandOver [] r
  | x :: l, true :: r => x :: expandOver l r

def execVexpnd (d : BitVec 8) (a : VSrc) (m : BitVec 6) (t : ElemType) (s : State) : Out :=
  let b := s.here
  vIssue (declared s (b.hasV [d.toNat] && b.hasSrc a && b.hasM [m]) (landingRoom s .V (withSrc s a fun x =>
    .ok (s.modHere fun b =>
      let act := activeOf (b.mreg m) t.count
      (popSrc b a).putReg 3 d.toNat t.width (expandOver ((elems t x).map (slotCode t)) act) act))))

/-! ### Interleaves (R204, R205) -/

/-- The `k` registers from name `n` on, each as its elements. -/
def Bank.readGroup (b : Bank) (n k : Nat) (t : ElemType) : List (List Nat) :=
  (List.range k).map fun j => (elems t (b.vreg (physReg (b.headEntry .V).rb (n + j)))).map (slotCode t)

/-- Whole registers from name `n` on. -/
def Bank.putGroup (b : Bank) (lat n w : Nat) (ls : List (List Nat)) : Bank :=
  let rb := (b.headEntry .V).rb
  b.send .V lat (ls.zipIdx.map fun p => .vreg (physReg rb (n + p.2)) (ofElems w p.1) (BitVec.allOnes 4096))

/-- A list cut into stretches of `n`. -/
def cutInto {α : Type} : Nat → Nat → List α → List (List α)
  | 0, _, _ => []
  | k + 1, n, l => l.take n :: cutInto k n (l.drop n)

/-- An interleave or de-interleave of `k` registers: `f` turns the sources' elements into the destinations'. -/
def vZip (s : State) (d a : BitVec 8) (t : ElemType) (k : Nat) (f : List (List Nat) → List (List Nat)) : Out :=
  let b := s.here
  vIssue (declared s (b.hasV (namesFrom d.toNat k) && b.hasV (namesFrom a.toNat k)) (landingRoom s .V
    (.ok (s.modHere fun b => b.putGroup 3 d.toNat t.width (f (b.readGroup a.toNat k t))))))

/-- VZIPk (R205). -/
def zipGroup (k n : Nat) (ls : List (List Nat)) : List (List Nat) := cutInto k n (weave n ls)
/-- VUNZIPk (R205). -/
def unzipGroup (k : Nat) (ls : List (List Nat)) : List (List Nat) := (List.range k).map fun j => strided k j ls.flatten

def execVzip2 (d a : BitVec 8) (t : ElemType) (s : State) : Out := vZip s d a t 2 (zipGroup 2 t.count)
def execVzip3 (d a : BitVec 8) (t : ElemType) (s : State) : Out := vZip s d a t 3 (zipGroup 3 t.count)
def execVzip4 (d a : BitVec 8) (t : ElemType) (s : State) : Out := vZip s d a t 4 (zipGroup 4 t.count)
def execVunzip2 (d a : BitVec 8) (t : ElemType) (s : State) : Out := vZip s d a t 2 (unzipGroup 2)
def execVunzip3 (d a : BitVec 8) (t : ElemType) (s : State) : Out := vZip s d a t 3 (unzipGroup 3)
def execVunzip4 (d a : BitVec 8) (t : ElemType) (s : State) : Out := vZip s d a t 4 (unzipGroup 4)

/-! ### Nibbles (R206, R207) -/

/-- The source nibble of result element `i` (R206). -/
def unpackIndex (mode i : Nat) : Nat :=
  match mode with
  | 0 => i
  | 1 => 512 + i
  | 2 => 2 * i
  | _ => 2 * i + 1

/-- VUNPK4: 512 nibbles widened to 8 bits. -/
def execVunpk4 (d : VDst) (a : VSrc) (m : BitVec 6) (t : ElemType) (mode : BitVec 2) (s : State) : Out :=
  let b := s.here
  vIssue (declared s (b.hasDst d && b.hasSrc a && b.hasM [m]) (landingRoom s .V (dstRoom s d (withSrc s a fun x =>
    .ok (s.modHere fun b =>
      let vals := (List.range 512).map fun i => wrapTo 8 (intOf t (elemAt 4 x (unpackIndex mode.toNat i)))
      (popSrc b a).putDst 3 d 8 vals (activeOf (b.mreg m) 512))))))

/-- A nibble of an 8-bit source, clamped first when `sat` (R207). -/
def packNibble (t : ElemType) (sat : Bool) (c : Nat) : Nat :=
  let i := if t = .s4 then signedOf 8 c else (c : Int)
  wrapTo 4 (if sat then clampTo t i else i)

/-- VPACK4: two registers of 8-bit elements narrowed to one of nibbles. -/
def execVpack4 (d : VDst) (a b : VSrc) (m : BitVec 6) (t : ElemType) (inter sat : Bool) (s : State) : Out :=
  let k := s.here
  vIssue (declared s (k.hasDst d && k.hasSrc a && k.hasSrc b && k.hasM [m]) (landingRoom s .V (dstRoom s d
    (withSrcs s a b fun x y =>
      .ok (s.modHere fun k =>
        let xs := (elems .z8 x).map (packNibble t sat)
        let ys := (elems .z8 y).map (packNibble t sat)
        (popSrcs k a b).putDst 3 d 4 (if inter then weave 512 [xs, ys] else xs ++ ys) (activeOf (k.mreg m) 1024))))))

/-! ### Reductions (R208, R209) -/

/-- A result in element 0 of a register, a word of cq, or both (R209). -/
def Bank.putRed (b : Bank) (d : RedDst) (w code : Nat) (signed : Bool) : Bank :=
  let c := code % 2 ^ w
  let reg (n : BitVec 8) (b : Bank) : Bank :=
    b.send .V 8 [.vreg (physReg (b.headEntry .V).rb n.toNat) (.ofNat 4096 c) (.ofNat 4096 (2 ^ w - 1))]
  match d with
  | .reg n => reg n b
  | .regCq n => (reg n b).putCq 8 (codeWord signed w c)
  | .cq => b.putCq 8 (codeWord signed w c)

/-- Registers that a reduction names as destination. -/
def redRegs : RedDst → List Nat
  | .reg n | .regCq n => [n.toNat]
  | .cq => []

/-- Whether a reduction fills a cq entry. -/
def redCq : RedDst → Bool
  | .reg _ => false
  | .regCq _ | .cq => true

/-- A reduction: `sup` is supplied at masked-off positions, `pre` prepares an element, `f` combines, `w` and `signed` describe
the result (R208). -/
def vReduce (s : State) (d : RedDst) (a : VSrc) (m : BitVec 6) (t : ElemType) (w : Nat) (signed : Bool) (sup : Nat)
    (pre : Nat → Nat) (f : Mode → Nat → Nat → Nat) : Out :=
  let b := s.here
  vIssue (declared s (b.hasV (redRegs d) && b.hasSrc a && b.hasM [m]) (landingRoom s .V (cqRoom s (redCq d)
    (withSrc s a fun x =>
      .ok (s.modHere fun b =>
        let l := List.zipWith (fun c on => if on then pre c else sup) (elems t x) (activeOf (b.mreg m) t.count)
        (popSrc b a).putRed d w ((reduceTree (f b.mode) t.count.log2 l).headD 0) signed)))))

/-- VRSUM: f32 additions for a floating type, the exact sum modulo 2^32 for an integer type. -/
def execVrsum (d : RedDst) (a : VSrc) (m : BitVec 6) (t : ElemType) (s : State) : Out :=
  if t.isInt then
    vReduce s d a m t 32 t.signed 0 (fun c => wrapTo 32 (intOf t c)) fun _ x y => (x + y) % 2 ^ 32
  else vReduce s d a m t 32 false 0x80000000 (fun c => toF32 (decodeElem t c)) fun md x y => addF32 md.rm x y

def execVrmax (d : RedDst) (a : VSrc) (m : BitVec 6) (t : ElemType) (s : State) : Out :=
  vReduce s d a m t t.width t.signed (if t.isInt then wrapTo t.width (intMin t) else nanCode t) (slotCode t)
    fun _ x y => chooseElem t true x y

def execVrmin (d : RedDst) (a : VSrc) (m : BitVec 6) (t : ElemType) (s : State) : Out :=
  vReduce s d a m t t.width t.signed (if t.isInt then wrapTo t.width (intMax t) else nanCode t) (slotCode t)
    fun _ x y => chooseElem t false x y

def execVramax (d : RedDst) (a : VSrc) (m : BitVec 6) (t : ElemType) (s : State) : Out :=
  if t.isInt then vReduce s d a m t t.width false 0 (fun c => (intOf t c).natAbs) fun _ x y => max x y
  else vReduce s d a m t t.width false (nanCode t) (elemAbs t) fun _ x y => chooseElem t true x y

/-! ### Special functions (R170, R210) -/

/-- An f32 function, correctly rounded in VMODE.RM. -/
def vSpecial (s : State) (d : VDst) (a : VSrc) (m : BitVec 6) (f : XVal → XVal) : Out :=
  vMap1 s d a m .f32 12 fun md c => roundElem .f32 md (f (decodeElem .f32 c))

def execVexp2 (d : VDst) (a : VSrc) (m : BitVec 6) (s : State) : Out := vSpecial s d a m exp2X
def execVlog2 (d : VDst) (a : VSrc) (m : BitVec 6) (s : State) : Out := vSpecial s d a m log2X
def execVrcp (d : VDst) (a : VSrc) (m : BitVec 6) (s : State) : Out := vSpecial s d a m rcpX
def execVrsq (d : VDst) (a : VSrc) (m : BitVec 6) (s : State) : Out := vSpecial s d a m rsqrtX
def execVsqrt (d : VDst) (a : VSrc) (m : BitVec 6) (s : State) : Out := vSpecial s d a m sqrtX
def execVtanh (d : VDst) (a : VSrc) (m : BitVec 6) (s : State) : Out := vSpecial s d a m tanhX
def execVsigm (d : VDst) (a : VSrc) (m : BitVec 6) (s : State) : Out := vSpecial s d a m sigmX
def execVexpm (d : VDst) (a : VSrc) (m : BitVec 6) (s : State) : Out := vSpecial s d a m expm1X

/-! ### VSETMODE and VDISC (R211, R212) -/

/-- VMODE of a rounding mode and F8SAT (R161). -/
def vmodeOf (rm : Nat) (sat : Bool) : W64 := .ofNat 64 (rm + 8 * sat.toNat)

def execVsetmode (src : ModeSrc) (s : State) : Out :=
  match src with
  | .imm rm sat => vIssue (.ok (s.modHere fun b => { b with vmode := vmodeOf rm.code sat }))
  | .xq => vIssue (withXq s 1 fun l =>
      .ok (s.modHere fun b =>
        let x := (l.headD 0).toNat
        { b.popWords .xq 1 with vmode := vmodeOf (if x % 8 ≤ 4 then x % 8 else 0) (decide (x / 8 % 2 = 1)) }))

/-- VDISC: one entry a cycle; it issues with the last one, and a trap names the entries that remain (R212). -/
def execVdisc (q : BitVec 3) (countM1 : BitVec 3) (s : State) : Out :=
  let b := s.here
  let left := countM1.toNat + 1 - b.disc
  let trapLeft (f : FaultRec) : Attempt := .trap s { f with aux := .ofNat 32 left }
  vIssue (
    match headVec (b.loadQ q) with
    | some _ =>
      let s' := s.modHere fun b => { popLq b q with disc := if left ≤ 1 then 0 else b.disc + 1 }
      if left ≤ 1 then .ok s' else .wait s'
    | none => match heldStream b q with
      | some f => trapLeft f
      | none => if b.pendingFeed (.lq q) then .queueStall s else trapLeft (faultOf 0x05 0))

end Sys2Proof.Machine
end

