-- ==== Sys2Proof/Machine/Tile.lean ====
section
/-! DEFINITION. Tile instructions of the vector unit: slices, configuration, zeroing, and the restore of absent tiles (R213 to
R219, R245). -/

namespace Sys2Proof.Machine

/-! ### Absent tiles -/

/-- Whether V tile writes are still in flight (R218, R219). -/
def tileWrites (b : Bank) : Bool :=
  b.flightQ.any fun f => f.res.any fun r => match r with
    | .tile _ => true
    | .sreg .. | .creg .. | .areg .. | .vreg .. | .mreg .. | .word .. | .sq .. => false

/-- Offset of the accumulator image in a save area (R438). -/
def imageOffset : Nat := 0x40000

/-- Reads a granule that is not present back from the save area: it is present and clean, and its words in error are so still (R245, R264,
R439). -/
def restoreGranule (s : State) (row g : Nat) : State :=
  if (s.bank row).gone.get false g then
    let pa := saveAddr s row + imageOffset + 512 * g
    let bs := s.homeBytes pa 512
    s.modBank row fun b => { b with
      acc := Store.setRun zeroByte b.acc (512 * g) bs
      accBad := ((List.range 64).filter fun i => (List.range 8).any fun j => s.poison.get false (pa + 8 * i + j)).foldl
        (fun m i => m.set false (64 * g + i) true) b.accBad
      dirty := b.dirty.set false g false
      gone := b.gone.set false g false }
  else s

/-- Restores an absent tile: those of its granules that are not present (R213, R245). -/
def restoreTile (s : State) (row t : Nat) : State :=
  match (s.bank row).tile t with
  | .unconfigured | .configured _ => s
  | .absent c => ((granulesOf c).foldl (fun s g => restoreGranule s row g) s).modBank row fun b => b.setTile t (.configured c)

/-- Restores the granules of an extent that are not present: those that absent tiles share with it, and those of a tile configured over bytes
that a save has written out (R216, R245). -/
def restoreExtent (s : State) (row : Nat) (c : TileCfg) : State :=
  if (s.bank row).gone = [] then s else (granulesOf c).foldl (fun s g => restoreGranule s row g) s

/-- Whether a granule of an extent is not present. -/
def extentGone (b : Bank) (c : TileCfg) : Bool := decide (b.gone ≠ []) && (granulesOf c).any fun g => b.gone.get false g

/-! ### Slices -/

/-- Elements of a register of tile elements (R215). -/
def sliceRegElems (c : TileCfg) : Nat := 512 / tileElemSize c.ty
/-- Length of a slice: a row has `cols` elements, a column `rows` (R215). -/
def sliceLen (col : Bool) (c : TileCfg) : Nat := if col then c.rows else c.cols
/-- Number of slices. -/
def sliceCount (col : Bool) (c : TileCfg) : Nat := if col then c.cols else c.rows
/-- Offset of element `j` of slice `i` (R213, R215). -/
def sliceAt (col : Bool) (c : TileCfg) (i j : Nat) : Nat := if col then c.at j i else c.at i j
/-- Registers of a slice: 1 or 2. -/
def sliceRegs (col : Bool) (c : TileCfg) : Nat := (sliceLen col c + sliceRegElems c - 1) / sliceRegElems c

/-- An element of the accumulator half. -/
def accElem (b : Bank) (size off : Nat) : Nat := ofBytes (Store.getRun zeroByte b.acc off size)

/-- A tile number within the declared count (R33, R217). -/
def Bank.hasT (b : Bank) (t : BitVec 6) : Bool := decide (t.toNat < b.decl.t)

/-- The stalls of R217: while the tile is busy, and while it is absent until it is restored. -/
def withTile (s : State) (t : BitVec 6) (k : Tile → Attempt) : Attempt :=
  if s.here.tileBusy t then .wait s
  else match s.here.tile t.toNat with
    | .absent _ => .wait (restoreTile s s.cur t.toNat)
    | .configured c => if extentGone s.here c then .wait (restoreExtent s s.cur c) else k (.configured c)
    | .unconfigured => k .unconfigured

/-- The slice index, an immediate or a word of xq (R214). -/
def withSlice (s : State) (i : SliceIdx) (k : Nat → Attempt) : Attempt :=
  match i with
  | .imm n => k n.toNat
  | .xq => withXq s 1 fun l => k (l.headD 0).toNat

/-- Words of xq that a slice index pops. -/
def slicePops : SliceIdx → Nat
  | .imm _ => 0
  | .xq => 1

/-- The checks of R217 on a slice move: configured, index in range, second register declared. -/
def sliceChecked (s : State) (col : Bool) (n : BitVec 8) (i : Nat) (x : Tile) (k : TileCfg → Attempt) : Attempt :=
  match x.cfg with
  | none => trapWith s 0x0B
  | some c =>
    if sliceCount col c ≤ i then trapWith s 0x0B
    else if sliceRegs col c = 2 ∧ s.here.decl.v ≤ n.toNat + 1 then trapWith s 0x03
    else k c

/-- Register `r` of a slice read: the elements and the active ones (R215). -/
def sliceReadReg (b : Bank) (col : Bool) (c : TileCfg) (m : MWord) (d i r : Nat) : Bank :=
  let e := sliceRegElems c
  let js := (List.range e).map fun k => e * r + k
  b.putReg 6 (d + r) (8 * tileElemSize c.ty)
    (js.map fun j => if j < sliceLen col c then accElem b (tileElemSize c.ty) (sliceAt col c i j) else 0)
    (js.map fun j => decide (j < sliceLen col c) && m.getLsbD j)

/-- Whether an active element of a slice stands in a word with an uncorrectable error (R264). -/
def sliceBad (b : Bank) (col : Bool) (c : TileCfg) (m : MWord) (i : Nat) : Bool :=
  decide (b.accBad ≠ []) && (List.range (sliceLen col c)).any fun j => m.getLsbD j && b.accBad.get false (sliceAt col c i j / 8)

/-- VTRD and VTCD: one slice into one or two registers (R215). -/
def sliceRead (s : State) (col : Bool) (d : BitVec 8) (t : BitVec 6) (si : SliceIdx) (m : BitVec 6) : Out :=
  vIssue (declared s (s.here.hasV [d.toNat] && s.here.hasM [m] && s.here.hasT t) (landingRoom s .V (withSlice s si fun i =>
    withTile s t fun x => sliceChecked s col d i x fun c =>
      if sliceBad s.here col c (s.here.mreg m) i then trapWith s 0x0F else .ok (s.modHere fun b =>
        (List.range (sliceRegs col c)).foldl (fun b r => sliceReadReg b col c (b.mreg m) d.toNat i r)
          (b.popWords .xq (slicePops si))))))

/-- The bytes of a slice write: the active elements at their offsets (R215). -/
def sliceBytes (b : Bank) (col : Bool) (c : TileCfg) (m : MWord) (a i : Nat) : List (Nat × Byte) :=
  let e := sliceRegElems c
  let rb := (b.headEntry .V).rb
  (List.range (sliceLen col c)).flatMap fun j =>
    if m.getLsbD j then
      let v := elemAt (8 * tileElemSize c.ty) (b.vreg (physReg rb (a + j / e))) (j % e)
      (toBytes (tileElemSize c.ty) v).zipIdx.map fun p => (sliceAt col c i j + p.2, p.1)
    else []

/-- VTWR and VTWC: one or two registers into one slice, 6 core cycles after issue (R215). -/
def sliceWrite (s : State) (col : Bool) (t : BitVec 6) (a : BitVec 8) (si : SliceIdx) (m : BitVec 6) : Out :=
  vIssue (declared s (s.here.hasV [a.toNat] && s.here.hasM [m] && s.here.hasT t) (landingRoom s .V (withSlice s si fun i =>
    withTile s t fun x => sliceChecked s col a i x fun c =>
      .ok (s.modHere fun b =>
        (b.popWords .xq (slicePops si)).sendQ 6 [.tile (sliceBytes b col c (b.mreg m) a.toNat i)]))))

def execVtrd (d : BitVec 8) (t : BitVec 6) (i : SliceIdx) (m : BitVec 6) (s : State) : Out := sliceRead s false d t i m
def execVtcd (d : BitVec 8) (t : BitVec 6) (i : SliceIdx) (m : BitVec 6) (s : State) : Out := sliceRead s true d t i m
def execVtwr (t : BitVec 6) (a : BitVec 8) (i : SliceIdx) (m : BitVec 6) (s : State) : Out := sliceWrite s false t a i m
def execVtwc (t : BitVec 6) (a : BitVec 8) (i : SliceIdx) (m : BitVec 6) (s : State) : Out := sliceWrite s true t a i m

/-! ### Configuration -/

/-- TCFG: a configuration word of xq (R216, R217). -/
def execTcfg (t : BitVec 6) (s : State) : Out :=
  vIssue (declared s (s.here.hasT t) (withXq s 1 fun l => withTile s t fun _ =>
    let w := l.headD 0
    let c := TileCfg.ofWord w.toNat
    if !tileCfgOk w then trapWith s 0x02
    else if s.here.decl.acc < c.stop then trapWith s 0x03
    else .ok (s.modHere fun b => (b.popWords .xq 1).setTile t.toNat (.configured c))))

/-- Zero bytes over an extent. -/
def zeroExtent (c : TileCfg) : List (Nat × Byte) := (List.range c.bytes).map fun i => (c.base + i, 0)

/-- TZERO: a zero element into every element, 6 core cycles after issue (R214, R216). -/
def execTzero (t : BitVec 6) (s : State) : Out :=
  vIssue (declared s (s.here.hasT t) (landingRoom s .V (withTile s t fun x =>
    match x.cfg with
    | none => trapWith s 0x0B
    | some c => .ok (s.modHere fun b => b.sendQ 6 [.tile (zeroExtent c)]))))

/-- TREL: the tile is unconfigured; an absent tile is not restored (R213, R216). -/
def execTrel (t : BitVec 6) (s : State) : Out :=
  vIssue (declared s (s.here.hasT t)
    (if s.here.tileBusy t then .wait s else .ok (s.modHere fun b => b.setTile t.toNat .unconfigured)))

end Sys2Proof.Machine
end

