-- ==== Sys2Proof/Machine/EngineOps.lean ====
section
/-! DEFINITION. What the engines share: the entry that runs, memory as a command reads and writes it, the end of a command, its
hold, and its fault (R262, R271 to R273, R305 to R310). -/

namespace Sys2Proof.Machine

/-! ### Entries -/

/-- The command or resolve entry that an entry stands for. -/
def EngEntry.instr (x : EngEntry) (e : Eng) : Option Instr :=
  match x.resolve with
  | some (n, keep) => some (.resolveEntry n keep)
  | none => x.cmd e

/-- The words that an entry can place in the result FIFO: one for RES, and the result of KVXL, SPDRAW, SPACC or WCNT (R272, R358, R397, R416,
R418). -/
def EngEntry.yields (x : EngEntry) (e : Eng) : Nat :=
  let result : Bool := match x.instr e with
    | some (.kvxl ..) | some (.spdraw ..) | some (.spacc ..) | some (.wcnt ..) => true
    | _ => false
  if x.resolve.isSome then 0 else x.res.toNat + result.toNat

/-- The words that an entry which has begun will still place. -/
def EngEntry.owes (x : EngEntry) (e : Eng) : Nat :=
  match x.state with
  | .waiting => 0
  | .ending _ words => words.length
  | .held | .running .. | .staged | .following | .putting | .flying .. | .permitWait _ => x.yields e

/-- Whether an entry has to wait for room in the result FIFO, where the words of the entries that have begun have theirs already (R250, R272). -/
def Bank.fifoWaits (b : Bank) (e : Eng) (x : EngEntry) : Bool :=
  decide (x.yields e ≠ 0) && decide (fifoDepth < (b.fifo e).length +
    (((b.engQ e).filter fun y => decide (y.id ≠ x.id)).map fun y => y.owes e).sum + x.yields e)

/-! ### Faults and ends -/

/-- An engine meets a fault: it starts no further entry of the bank, and the fault is reported or kept (R262, R429). -/
def raiseEngine (s : State) (row : Nat) (e : Eng) (f : FaultRec) : State :=
  engineFault (s.modBank row fun b => b.block e f.opc.toNat) row e f

/-- An entry is held: it keeps its place and what it has done, and its fault is raised (R263, R282). -/
def holdEntry (s : State) (row : Nat) (e : Eng) (x : EngEntry) (f : FaultRec) : State :=
  raiseEngine (setEntry s row e { x with state := .held }) row e { f with flags := f.flags ||| 1 }

/-- The end of an entry whose object has been written or is refused: its ownership and place end, and its words enter the
result FIFO (R271, R272, R305). -/
def leaveQueue (s : State) (row : Nat) (e : Eng) (x : EngEntry) (words : List W64) : State :=
  let s := endOwners s fun o => o == .cmd row e x.id
  let s := dropEntry s row e x.id
  s.modBank row fun b => b.setFifo e (b.fifo e ++ words)

/-- AN ENTRY ENDS (R250, R273, R305, R310): its stores and those that the PUSH released are published, the completion object
is written, and a cause is raised on the task. A DONE page without translation holds the end. -/
def finishEntry (s : State) (row : Nat) (e : Eng) (x : EngEntry) (status : Nat) (words : List W64) (f : Option FaultRec) : State :=
  let s := releaseAt s row 2
  let raise (s : State) : State := match f with
    | none => s
    | some f => raiseEngine s row e f
  match writeObject s row x.done status with
  | .done s' => raise (leaveQueue s' row e x words)
  | .fault c =>
    let g := objectFault s row e x c
    if c = 0x06 then
      raiseEngine (raise (setEntry s row e { x with state := .ending (.ofNat 64 status) words })) row e { g with flags := 1 }
    else raiseEngine (raise (leaveQueue s row e x words)) row e g

/-- The end of an entry that has begun, whose FIFO word is its status word when RES is set; MX places it only when the command completes (R250,
R272, R274). -/
def endWith (s : State) (row : Nat) (e : Eng) (x : EngEntry) (status : Nat) (f : Option FaultRec) : State :=
  finishEntry s row e x status (if x.res ∧ (e ≠ .mx ∨ f = none) then [.ofNat 64 status] else []) f

/-! ### The entry that runs -/

/-- Runs the entry at the head of the queue of the current row when it stands for the command: it must be free to start or to go
on (R119, R262, R272); an entry whose end was held writes its object now (R273). Otherwise nothing happens. -/
def runHead (s : State) (e : Eng) (i : Instr) (k : State → EngEntry → State) : State :=
  let b := s.here
  match b.engQ e with
  | [] => s
  | x :: _ =>
    if x.instr e ≠ some i || b.engBlocked e x.opc then s
    else match x.state with
      | .ending st ws => finishEntry s s.cur e x st.toNat ws none
      | .waiting => if x.timedUnstarted || b.fifoWaits e x then s else k s x
      | .held | .putting => k s x
      | .running .. | .staged | .following | .permitWait _ | .flying .. => s

/-- Whether the pushing bank may have commands executed at the engine that serves it (R340). -/
def mayExecute (s : State) (row : Nat) (e : Eng) : Bool :=
  hasRight s (engTarget (coreOf row) e) .wr row (s.row row).asid

/-! ### Memory of a command -/

/-- What a command's read came to. -/
inductive EngRead where
  | ok (s : State) (bytes : List Byte) (err : Bool)
  | bad (cause addr : Nat)
  deriving DecidableEq, Repr

/-- Reads `n` bytes for a command, through the TLB of its core (R225, R310, R331); system registers only in a register's widths (R468; log entry
16). -/
def engRead (s : State) (row : Nat) (x : EngEntry) (va n align : Nat) : EngRead :=
  match translate s row .read true va n align with
  | .bad c a => .bad c a
  | .miss a => .bad 0x06 a
  | .ok l =>
    if touchesSysreg s l then
      match inSysreg s l with
      | some pa => if [1, 2, 4, 8].contains n && decide (pa % n = 0) then .ok (tlbTouch s row l) (sysRead s pa n) false else .bad 0x07 va
      | none => .bad 0x07 va
    else .ok (tlbTouch s row l) (engBytes s row x l) (segPoison s row l).isSome

/-- What a command's write came to. -/
inductive EngWrite where
  | ok (s : State)
  | wait
  | bad (cause addr : Nat)
  deriving DecidableEq, Repr

/-- The checks of a command's write of `n` bytes: R225, the count at the directory, the width at a system register, and, when `owns`, the
ownership of what the task does not hold yet, taken in its name (R306, R307, R335, R468). -/
def claim (s : State) (row : Nat) (e : Eng) (owns : Bool) (id : Nat) (va n align : Nat) : EngWrite :=
  match translate s row .write true va n align with
  | .bad c a => .bad c a
  | .miss a => .bad 0x06 a
  | .ok l =>
    match l.find? fun g => frozenAt s row g.va with
    | some g => .bad 0x08 g.va
    | none =>
      let subs := subpagesOf s l
      let need := subs.filter fun p => !(owns && ownedBy s row p)
      if touchesSysreg s l && !((inSysreg s l).any fun pa => sysWidth pa n) then .bad 0x07 va
      else if need.any (homeBusy s) then .wait
      else if owns then
        if subs.any (ownedByOther s row) then .bad 0x09 va
        else .ok (addOwners (settle (tlbTouch s row l) need) (.cmd row e id) subs)
      else .ok (tlbTouch s row l)

/-- The checks of a command's write: CP, MX, XRECV and SP take ownership (R277, R306, R307, R385, R411). -/
def engClaim (s : State) (row : Nat) (e : Eng) (id : Nat) (va n align : Nat) : EngWrite :=
  claim s row e (e == .mx || e == .cp || e == .xg || e == .sp) id va n align

/-- Writes bytes for a command once the checks have passed. -/
def engStore (s : State) (row va : Nat) (bs : List Byte) : State :=
  match translate s row .write true va bs.length 1 with
  | .bad _ _ | .miss _ => s
  | .ok l => match inSysreg s l with
    | some pa => if [1, 2, 4, 8].contains bs.length && decide (pa % bs.length = 0) then sysWrite s row pa bs else s
    | none => segHomeWrite s row l bs

/-- Checks and writes. -/
def engWrite (s : State) (row : Nat) (e : Eng) (id : Nat) (va align : Nat) (bs : List Byte) : EngWrite :=
  match engClaim s row e id va bs.length align with
  | .ok s' => .ok (engStore s' row va bs)
  | .wait => .wait
  | .bad c a => .bad c a

end Sys2Proof.Machine
end

