-- ==== Sys2Proof/Machine/Cp.lean ====
section
/-! DEFINITION. The copy engine: rows, conversion, fill, follow-ons, branch-tagged copies and timed puts (R274 to R286, R455,
R469). -/

namespace Sys2Proof.Machine

/-! ### The fabric (R116) -/

/-- Transfer latencies between dies (R116). -/
def latencyTable : List (List Nat) :=
  [[8, 20, 20, 20, 20, 20, 20, 20, 20], [20, 8, 48, 40, 48, 24, 40, 40, 24], [20, 48, 8, 48, 40, 24, 24, 40, 40],
   [20, 40, 48, 8, 48, 40, 24, 24, 40], [20, 48, 40, 48, 8, 40, 40, 24, 24], [20, 24, 24, 40, 40, 8, 48, 40, 48],
   [20, 40, 24, 24, 40, 48, 8, 48, 40], [20, 40, 40, 24, 24, 40, 48, 8, 48], [20, 24, 40, 40, 24, 48, 40, 48, 8]]

/-- L(i, j) of R116. -/
def latencyOf (i j : Nat) : Nat := (latencyTable.getD i []).getD j 0

/-! ### The shape of a copy -/

/-- What a CP command does to the bytes that it moves. -/
inductive CpKind where
  | copy
  | convert (d s : ElemType) (md : Mode)
  | fill
  deriving DecidableEq, Repr

/-- Bytes of a source element. -/
def CpKind.ssize : CpKind → Nat
  | .copy | .fill => 1
  | .convert _ s _ => s.bytes
/-- Bytes of a destination element. -/
def CpKind.dsize : CpKind → Nat
  | .copy | .fill => 1
  | .convert d _ _ => d.bytes

/-- Number of rows. -/
def cpRows (x : CpArgs) : Nat := x.rowsM1.toNat + 1
/-- Row length in elements. -/
def cpLen (x : CpArgs) : Nat := x.lenM1.toNat + 1
/-- Signed strides of the destination and of the source. -/
def cpDs (x : CpArgs) : Int := signedOf 32 x.dstride.toNat
def cpSs (x : CpArgs) : Int := signedOf 32 x.sstride.toNat

/-- A row's source or destination address, unwrapped. -/
def rowAt (base : W64) (stride : Int) (r : Nat) : Int := base.toNat + r * stride

/-- Lowest and highest byte of a range of rows (R276). -/
def cpSpan (base : W64) (stride : Int) (rows bytes : Nat) : Int × Int :=
  let a := spanOf 0 (rows - 1) stride
  (base.toNat + a.1, base.toNat + a.2 + bytes - 1)

/-- Source and destination overlap, in one address space (R276). -/
def cpOverlaps (x : CpArgs) (k : CpKind) : Bool :=
  match k with
  | .fill => false
  | .copy | .convert _ _ _ =>
    let s := cpSpan x.src (cpSs x) (cpRows x) ((cpLen x) * k.ssize)
    let d := cpSpan x.dst (cpDs x) (cpRows x) ((cpLen x) * k.dsize)
    x.shost == x.dhost && decide (s.1 ≤ d.2) && decide (d.1 ≤ s.2)

/-- A CPYC whose addresses or strides are not multiples of its element sizes (R279). -/
def cpMisaligned (x : CpArgs) (k : CpKind) : Bool :=
  decide (x.src.toNat % k.ssize ≠ 0) || decide (x.dst.toNat % k.dsize ≠ 0) || decide ((cpSs x) % k.ssize ≠ 0) ||
    decide ((cpDs x) % k.dsize ≠ 0)

/-! ### Status (R285) -/

/-- Flags of the status word. -/
def cpCancelled : Nat := 2 ^ 25
def cpTmiss : Nat := 2 ^ 24
def cpDerr : Nat := 2 ^ 23
def cpFollowed : Nat := 2 ^ 22

/-- The status word of a CP command; `pos` counts the rows written in full. -/
def cpStatus (x : EngEntry) (cause : Nat) : Nat := x.pos * 2 ^ 47 + x.flags.toNat % 2 ^ 47 + statusOf x.opc cause

/-- A flag set in an entry. -/
def cpFlag (x : EngEntry) (bit : Nat) : EngEntry := { x with flags := x.flags ||| .ofNat 64 bit }

/-- One more destination line in error, saturating at 32,767; a line counts once. -/
def cpErrLine (x : EngEntry) (line : Nat) : EngEntry :=
  if x.stage = [(line, 0)] then cpFlag x cpDerr
  else
    let n := min 32767 (bitsOf x.flags.toNat 46 32 + 1)
    cpFlag { x with flags := .ofNat 64 (x.flags.toNat % 2 ^ 32 + n * 2 ^ 32), stage := [(line, 0)] } cpDerr

/-- The record of a CP fault (R282, R432). -/
def cpRecord (s : State) (x : EngEntry) (cause addr : Nat) : FaultRec :=
  { entryFault s s.cur .cp x cause addr with sub := .ofNat 32 x.sub, node := .ofNat 8 x.btag }

/-- A CP entry ends with a cause. -/
def cpFail (s : State) (x : EngEntry) (cause addr : Nat) : State :=
  endWith s s.cur .cp x (cpStatus x cause) (some (cpRecord s x cause addr))

/-- A CP entry is held by a translation that is not present, and ends with any other cause (R282). -/
def cpStop (s : State) (x : EngEntry) (cause addr : Nat) : State :=
  if cause = 0x06 then holdEntry s s.cur .cp x (cpRecord s x cause addr) else cpFail s x cause addr

/-! ### Moving bytes -/

/-- A host region that holds `n` bytes at a host address for an address space (R455). -/
def hostOpen (s : State) (asid : Asid) (write : Bool) (addr n : Nat) : Bool :=
  s.hrgn.any fun p => match p.2 with
    | none => false
    | some g => g.asid == asid && (if write then g.wr else g.rd) && decide (g.base ≤ addr) && decide (addr + n ≤ g.base + g.len)

/-- Reads source bytes, of the host or of the task (R277). -/
def cpRead (s : State) (x : EngEntry) (host : Bool) (addr n : Nat) : EngRead :=
  if host then
    if hostOpen s (s.row s.cur).asid false addr n then .ok s (Store.getRun zeroByte s.hostMem addr n) false else .bad 0x07 addr
  else engRead s s.cur x addr n 1

/-- The bytes that a stretch of a row writes, from destination byte `j` of the row on; elements of a line in error become the
canonical NaN, or 0 for an integer type (R278 to R280, R282). -/
def cpBytes (k : CpKind) (opx : W64) (j n : Nat) (src : List Byte) (err : Bool) : List Byte :=
  match k with
  | .copy => src
  | .fill => (List.range n).map fun i => .ofNat 8 (opx.toNat / 256 ^ ((j + i) % 8))
  | .convert d t md =>
    (List.range (n / d.bytes)).flatMap fun i =>
      let c := ofBytes ((src.drop (t.bytes * i)).take t.bytes)
      toBytes d.bytes (if err then (if d.isInt then 0 else nanCode d) else convElem t d md md.sat c)

/-- Marks the 128-byte lines of written bytes, in memory or in the task's scratch, as holding an uncorrectable error (R282, R387). -/
def spoil (s : State) (row va n : Nat) : State :=
  let first := va / 128 * 128
  match translate s row .write true first ((va + n - 1) / 128 * 128 + 128 - first) 1 with
  | .bad _ _ | .miss _ => s
  | .ok l => l.foldl (fun s g => match g.loc with
      | .scratch off => s.modBank row fun b => { b with
          scratchBad := (List.range g.len).foldl (fun m i => m.set false (off + i) true) b.scratchBad }
      | .phys pa _ => (List.range g.len).foldl (fun s i => { s with poison := s.poison.set false (pa + i) true }) s) s

/-- Writes host bytes. -/
def hostWrite (s : State) (addr : Nat) (bs : List Byte) : State := { s with hostMem := Store.setRun zeroByte s.hostMem addr bs }

/-- Writes destination bytes, of the host or of the task; a copy of a line in error is in error, or zeros at the host (R277,
R282). -/
def cpWrite (s : State) (x : EngEntry) (host : Bool) (addr : Nat) (bs : List Byte) (spoiled : Bool) : EngWrite :=
  if host then
    if hostOpen s (s.row s.cur).asid true addr bs.length then
      .ok (hostWrite s addr (if spoiled then bs.map fun _ => zeroByte else bs))
    else .bad 0x07 addr
  else match engWrite s s.cur .cp x.id addr 1 bs with
    | .ok s' => .ok (if spoiled then spoil s' s.cur addr bs.length else s')
    | r => r

/-- Destination bytes that the next stretch of a row covers: up to the end of the row, of the destination's 128-byte line and of
the source's (R276, R282). -/
def cpStretch (x : CpArgs) (k : CpKind) (r j : Nat) : Nat :=
  let left := (cpLen x) * k.dsize - j
  let dva := wrapAddr (rowAt x.dst (cpDs x) r + j)
  let sva := wrapAddr (rowAt x.src (cpSs x) r + (j / k.dsize * k.ssize : Nat))
  let byDst := min left (128 - dva % 128)
  match k with
  | .fill => byDst
  | .copy | .convert _ _ _ => min byDst ((128 - sva % 128) / k.ssize * k.dsize)

/-- What one stretch came to. -/
inductive CpMove where
  | ok (s : State) (x : EngEntry)
  | wait
  | bad (cause addr : Nat)
  deriving DecidableEq, Repr

/-- Moves the stretch at the entry's row and byte (R278). -/
def cpMove (s : State) (x : EngEntry) (c : CpArgs) (k : CpKind) : CpMove :=
  let n := cpStretch c k x.pos x.sub
  let dva := wrapAddr (rowAt c.dst (cpDs c) x.pos + x.sub)
  let sva := wrapAddr (rowAt c.src (cpSs c) x.pos + (x.sub / k.dsize * k.ssize : Nat))
  let src := match k with
    | .fill => EngRead.ok s [] false
    | .copy | .convert _ _ _ => cpRead s x c.shost sva (n / k.dsize * k.ssize)
  match src with
  | .bad a b => .bad a b
  | .ok s bs err =>
    match cpWrite s x c.dhost dva (cpBytes k c.opx x.sub n bs err) (err && k == .copy) with
    | .wait => .wait
    | .bad a b => .bad a b
    | .ok s' =>
      let x := if err then cpErrLine x (dva / 128) else x
      .ok s' (if x.sub + n = (cpLen c) * k.dsize then { x with pos := x.pos + 1, sub := 0 } else { x with sub := x.sub + n })

/-! ### Ends -/

/-- The die that holds a virtual address's place, for the check of a timed arrival. -/
def placeDie (s : State) (row va : Nat) : Nat :=
  if inScratch va then dieOf row
  else match walk s (s.row row).asid va with
    | .leaf pte vbase _ _ => paDie (pteAddr pte + (va - vbase))
    | .bad _ => dieOf row

/-- The 128-byte lines that the rows of a copy take up from an address on (R284). DEDUCED (log entry 54): the lines that leave the source die are
those of the source rows, or those of the destination for a FILL. -/
def cpLines (x : CpArgs) (k : CpKind) : Nat :=
  let lines (base : W64) (stride : Int) (n : Nat) : Nat := ((List.range (cpRows x)).map fun r =>
    let a := wrapAddr (rowAt base stride r)
    (a + n - 1) / 128 - a / 128 + 1).sum
  match k with
  | .fill => lines x.dst (cpDs x) (cpLen x)
  | .copy | .convert _ _ _ => lines x.src (cpSs x) (cpLen x * k.ssize)

/-- The copy of an entry is done: a CPYF still has to enter its follow-on (R281), any other ends. -/
def cpFinish (s : State) (x : EngEntry) : State :=
  if x.opc = 4 then setEntry s s.cur .cp { x with state := .following } else endWith s s.cur .cp x (cpStatus x 0) none

/-- A CP entry whose bytes have left: a timed put arrives at its time (R118, R284). -/
def cpDone (s : State) (x : EngEntry) (c : CpArgs) (k : CpKind) : State :=
  if x.startAt ≠ 0 then
    let i := match k with
      | .fill => dieOf s.cur
      | .copy | .convert _ _ _ => placeDie s s.cur c.src.toNat
    let j := placeDie s s.cur c.dst.toNat
    let lat := latencyOf i j + cpLines c k - 1
    setEntry s s.cur .cp { x with state := .flying (s.dcc.get 0 i).toNat (s.cycle + lat) lat j }
  else cpFinish s x

/-- The stretches of an untagged copy from the entry's place on (R278, R282). -/
def cpLoop (c : CpArgs) (k : CpKind) : Nat → State → EngEntry → State
  | 0, s, x => setEntry s s.cur .cp { x with state := .held }
  | fuel + 1, s, x =>
    if (cpRows c) ≤ x.pos then cpDone s x c k
    else match cpMove s x c k with
      | .ok s' x' => cpLoop c k fuel s' x'
      | .wait => setEntry s s.cur .cp { x with state := .held }
      | .bad a b => cpStop s x a b

/-- Stretches that a copy may take at most. -/
def cpFuel (c : CpArgs) (k : CpKind) : Nat := (cpRows c) * ((cpLen c) * k.dsize + 1) + 1

/-! ### Branch-tagged copies (R282, R283) -/

/-- The checks of a tagged entry on its destination, row by row: the failing row's cause and address (R282). -/
def tagChecks (c : CpArgs) (k : CpKind) (id : Nat) : Nat → State → Nat → EngWrite × Nat
  | 0, s, r => (.ok s, r)
  | n + 1, s, r =>
    match engClaim s s.cur .cp id (wrapAddr (rowAt c.dst (cpDs c) r)) ((cpLen c) * k.dsize) 1 with
    | .ok s' => tagChecks c k id n s' (r + 1)
    | w => (w, r)

/-- The read phase: the staging buffer fills, and nothing is written. `drawn` names the
stretches in error. -/
def tagRead (c : CpArgs) (k : CpKind) : Nat → State → EngEntry → State
  | 0, s, x => setEntry s s.cur .cp { x with state := .held }
  | fuel + 1, s, x =>
    if (cpRows c) ≤ x.pos then setEntry s s.cur .cp { x with state := .staged, pos := 0, sub := 0 }
    else
      let n := cpStretch c k x.pos x.sub
      let sva := wrapAddr (rowAt c.src (cpSs c) x.pos + (x.sub / k.dsize * k.ssize : Nat))
      let src := match k with
        | .fill => EngRead.ok s [] false
        | .copy | .convert _ _ _ => cpRead s x false sva (n / k.dsize * k.ssize)
      match src with
      | .bad a b =>
        if a = 0x06 then cpStop s x a b
        else endWith s s.cur .cp x (cpStatus { x with pos := 0 } a) (some (cpRecord s x a b))
      | .ok s bs err =>
        let dva := wrapAddr (rowAt c.dst (cpDs c) x.pos + x.sub)
        let x := { x with kept := x.kept ++ cpBytes k c.opx x.sub n bs err }
        let x := if err then { x with drawn := x.drawn ++ [⟨dva, n, none, k == .copy⟩] } else x
        tagRead c k fuel s (if x.sub + n = (cpLen c) * k.dsize then { x with pos := x.pos + 1, sub := 0 }
          else { x with sub := x.sub + n })

/-- Rows of staged bytes to the destination. -/
def tagWriteRows (c : CpArgs) (bytes : Nat) : Nat → State → Nat → List Byte → State
  | 0, s, _, _ => s
  | n + 1, s, r, bs =>
    tagWriteRows c bytes n (engStore s s.cur (wrapAddr (rowAt c.dst (cpDs c) r)) (bs.take bytes)) (r + 1) (bs.drop bytes)

/-- The arguments and the kind of a CP command. -/
def cpShape (i : Instr) : Option (CpArgs × CpKind) :=
  match i with
  | .cpy _ x | .cpyf _ x => some (x, .copy)
  | .fill _ x => some (x, .fill)
  | .cpyc _ x => match cpycField x.opx with
    | some (d, t, rm, sat) => some (x, .convert d t ⟨rm, sat⟩)
    | none => none
  | _ => none

/-- Whether a squash cancels an entry: its branch tag and sequence are named and its write phase has not begun. -/
def squashes (x : EngEntry) (seq : BitVec 32) (tags : W64) : Bool :=
  decide (x.btag ≠ 0) && decide (cmdWord x.nats 6 % 2 ^ 32 = seq.toNat) && tags.getLsbD (x.btag - 1) &&
    (match x.state with
      | .waiting | .held | .staged => true
      | .running .. | .ending .. | .following | .putting | .flying .. | .permitWait _ => false)

/-- Whether a squash that cancels an entry arrives in this cycle (R283). -/
def squashArrives (s : State) (row : Nat) (x : EngEntry) : Bool :=
  s.agenda.any fun a => match a with
    | .event (.squash asid seq tags) => asid == (s.row row).asid && squashes x seq tags
    | _ => false

/-- WRITE PHASE: the first staged entry of a row writes its destination, unless a squash of this cycle cancels it (R283). -/
def writePhaseOp (s : State) (row : Nat) : State :=
  let s := { s with cur := row }
  match s.here.cp with
  | [] => s
  | x :: _ =>
    match x.state, (x.cmd .cp).bind cpShape with
    | .staged, some (c, k) =>
      if squashArrives s row x then s else
      let s := tagWriteRows c ((cpLen c) * k.dsize) (cpRows c) s 0 x.kept
      let s := x.drawn.foldl (fun s e => if e.bad then spoil s row e.code e.grp else s) s
      let x := x.drawn.foldl (fun x e => cpErrLine x (e.code / 128)) { x with stage := [] }
      cpDone s { x with pos := (cpRows c), sub := 0, kept := [], drawn := [], state := .held } c k
    | _, _ => s

/-! ### Starting (R469) -/

/-- Whether the places of all rows lie in SRAM of the package (R284). -/
def inSram (s : State) (row : Nat) (base : W64) (stride : Int) (rows bytes : Nat) : Bool :=
  (List.range rows).all fun r =>
    let va := wrapAddr (rowAt base stride r)
    (pagesOf (bytes / 65536 + 2) va bytes).all fun p =>
      inScratch p.1 || (match walk s (s.row row).asid p.1 with
        | .bad _ => false
        | .leaf pte vbase _ _ => match regionOf s (pteAddr pte + (p.1 - vbase)) with
          | .sram | .tier | .scratch => true
          | .lpddr | .sysreg | .none => false)

/-- The checks of a follow-on against the pushing task (R281): rows 1, 3 and 4 of R93, START and SHADOW zero. -/
def followFault (s : State) (ws : List Nat) : Option Nat :=
  if !engPresent (coreOf s.cur) .mx then some 0x0C
  else if cmdUndeclared s.here .mx ws then some 0x03
  else if cmdMalformed s s.cur .mx ws || decide (bitsOf (cmdWord ws 0) 55 32 ≠ 0) then some 0x11
  else none

/-- Words of 8 bytes. -/
def wordsOf : Nat → List Byte → List W64
  | 0, _ => []
  | n + 1, bs => .ofNat 64 (ofBytes (bs.take 8)) :: wordsOf n (bs.drop 8)

/-- The copy of an entry whose start checks have passed, or that goes on. -/
def cpRun (s : State) (x : EngEntry) (c : CpArgs) (k : CpKind) : State :=
  if x.btag = 0 then cpLoop c k (cpFuel c k) s x
  else if x.pos ≠ 0 ∨ x.sub ≠ 0 then tagRead c k (cpFuel c k) s x
  else match tagChecks c k x.id (cpRows c) s 0 with
    | (.ok s', _) => tagRead c k (cpFuel c k) s' x
    | (.wait, _) => s
    | (.bad a b, r) =>
      let off := wrapAddr (b - wrapAddr (rowAt c.dst (cpDs c) r))
      let f := { cpRecord s x a b with pos := .ofNat 64 r, sub := .ofNat 32 off }
      if a = 0x06 then holdEntry s s.cur .cp x f else endWith s s.cur .cp x (cpStatus x a) (some f)

/-- A CP entry that starts or goes on (R276, R282, R469). -/
def cpStart (s : State) (i : Instr) (c : CpArgs) (k : CpKind) : State :=
  runHead s .cp i fun s x =>
    if x.state = .held ∧ (x.pos ≠ 0 ∨ x.sub ≠ 0) then cpRun s x c k
    else if !mayExecute s s.cur .cp then cpFail s x 0x07 0
    else if x.startAt ≠ 0 ∧ (c.shost ∨ c.dhost ∨ !inSram s s.cur c.dst (cpDs c) (cpRows c) ((cpLen c) * k.dsize) ∨
        (k ≠ .fill ∧ !inSram s s.cur c.src (cpSs c) (cpRows c) ((cpLen c) * k.ssize))) then cpFail s x 0x11 0
    else if cpMisaligned c k then cpFail s x 0x0E 0
    else if cpOverlaps c k then cpFail s x 0x11 0
    else if x.opc = 4 ∧ x.follow = [] then
      match engRead s s.cur x c.opx.toNat 64 1 with
      | .bad a b => cpStop s x a b
      | .ok s bs err =>
        let ws := wordsOf 8 bs
        match if err then some 0x0F else followFault s (ws.map BitVec.toNat) with
        | some f => cpFail s x f 0
        | none => cpRun s { x with follow := ws } c k
    else cpRun s x c k

/-- CPY (R278). -/
def execCpy (h : CmdHdr) (x : CpArgs) (s : State) : Out := .next (cpStart s (.cpy h x) x .copy)
/-- FILL (R280). -/
def execFill (h : CmdHdr) (x : CpArgs) (s : State) : Out := .next (cpStart s (.fill h x) x .fill)
/-- CPYF (R281). -/
def execCpyf (h : CmdHdr) (x : CpArgs) (s : State) : Out := .next (cpStart s (.cpyf h x) x .copy)
/-- CPYC (R279). -/
def execCpyc (h : CmdHdr) (x : CpArgs) (s : State) : Out :=
  .next (match cpycField x.opx with
    | none => s
    | some (d, t, rm, sat) => cpStart s (.cpyc h x) x (.convert d t ⟨rm, sat⟩))

/-- WRITE_PHASE (R283). -/
def execWritePhase (row : Nat) (s : State) : Out := .next (writePhaseOp s row)

/-- FOLLOW_ON_ENTRY: the follow-on of a CPYF enters the MX queue when there is room, and the CPYF ends (R281). -/
def execFollowOnEntry (row : Nat) (s : State) : Out :=
  let s := { s with cur := row }
  .next (match s.here.cp with
    | [] => s
    | x :: _ =>
      if x.state = .following ∧ s.here.mx.length < engDepth .mx then
        let s := s.modHere fun b => pushEntry b .mx x.follow s.cycle
        endWith s s.cur .cp x (cpStatus (cpFlag x cpFollowed) 0) none
      else s)

/-! ### Squash (R283) -/

/-- A cancelled entry ends at once with CANCELLED set and CAUSE zero; one that has not begun has no place for a word in the result FIFO (R272;
log entry 52). -/
def cancelEntry (row : Nat) (s : State) (x : EngEntry) : State :=
  let st := cpStatus (cpFlag { x with pos := 0 } cpCancelled) 0
  finishEntry { s with cur := row } row .cp x st (if x.res ∧ x.state ≠ .waiting then [.ofNat 64 st] else []) none

/-- A squash arrives at the CP of every core of the package (R283). -/
def squashOp (s : State) (asid : Asid) (seq : BitVec 32) (tags : W64) : State :=
  (List.range 72).foldl (fun s row =>
    if (s.row row).asid = asid ∧ (s.row row).state ≠ .free then
      (((s.bank row).cp.filter fun x => squashes x seq tags).foldl (cancelEntry row) s)
    else s) s

/-- SQUASH (R283, R365). -/
def execSquash (asid : Asid) (seq : BitVec 32) (tags : W64) (s : State) : Out := .next (squashOp s asid seq tags)

end Sys2Proof.Machine
end

