-- ==== Sys2Proof/Machine/Events.lean ====
section
/-! DEFINITION. Events of the banks and of the memory system: dispatch, landing, arriving data, streams, atomics at their homes,
walks, ownership, freezes, collections, and waits that end (chapters 04 to 07, 10, 14, 15 and 16). -/

namespace Sys2Proof.Machine

/-! ### Dispatch and landing -/

/-- LINE_DISPATCH (R71, R72, R75). -/
def execLineDispatch (row : Nat) (s : State) : Out := .next (dispatchLine s row)

/-- One core cycle of the results on their way: those bound for data queues and tiles, and every result of a halting task (R104,
R143, R215). -/
def landResults (b : Bank) : Bank :=
  let b := b.advanceQ
  if b.halting then ((b.advance .S).advance .A).advance .V else b

/-- RESULT_LANDING (R98, R102, R104). -/
def execResultLanding (row : Nat) (s : State) : Out := .next (s.modBank row landResults)

/-- The data of a load reach the entry reserved for them (R227, R228). -/
def loadArrives (b : Bank) (id : Nat) : Bank :=
  match b.loads.find? fun p => p.id = id with
  | none => b
  | some p =>
    let b := { b with loads := b.loads.filter fun q => q.id ≠ id }
    match p.q with
    | some q => b.setLoadQ q (fillVec (b.loadQ q) id p.data 0 p.err)
    | none => b.setWordQ .rq (fillWord (b.wordQ .rq) id (p.data.setWidth 64) p.err)

/-- LOAD_DATA_ARRIVAL (R227, R228). -/
def execLoadDataArrival (row id : Nat) (s : State) : Out := .next (s.modBank row fun b => loadArrives b id)

/-! ### Streams -/

/-- STREAM_FETCH (R238). -/
def execStreamFetch (row : Nat) (st : BitVec 4) (s : State) : Out := .next (streamFetch s row st.toNat)

/-- STREAM_STORE (R238, R240). -/
def execStreamStore (row : Nat) (st : BitVec 4) (s : State) : Out :=
  .next (streamStore s row st.toNat (lentAt (s.bank row)))

/-! ### Atomics (R229, R308, R309) -/

/-- The value that an atomic leaves for an old value, on `w` bits. -/
def atomicValue (op : AtomicOp) (w old v cmp : Nat) : Nat :=
  match op with
  | .add => (old + v) % 2 ^ w
  | .xchg => v
  | .cas => if old = cmp then v else old
  | .minS => if signedOf w old ≤ signedOf w v then old else v
  | .minZ => min old v
  | .maxS => if signedOf w v ≤ signedOf w old then old else v
  | .maxZ => max old v
  | .and => old &&& v
  | .or => old ||| v

/-- The old value enters rq. -/
def atomicReturns (b : Bank) (a : PendAtomic) (old : Nat) (err : Option W64) : Bank :=
  { b with
    atomics := b.atomics.filter fun x => x.id ≠ a.id
    rq := fillWord b.rq a.id (.ofNat 64 old) err }

/-- Marks the bytes of an atomic as stored to. -/
def markRun (s : State) (pa : Nat) : Nat → State
  | 0 => s
  | n + 1 => markRun (markStale s (pa + n)) pa n

/-- Unpublished stores of a task to bytes that its atomic has written at the home: it reads the atomic's result from then on, and publishes them
with its next release (R230). -/
def Bank.shadow (b : Bank) (pa : Nat) : Nat → Bank
  | 0 => b
  | n + 1 =>
    let b := match b.pend.get none (pa + n) with
      | none => b
      | some v => { b with pend := dropByte b.pend (pa + n), under := b.under.set none (pa + n) (some v) }
    b.shadow pa n

/-- Whether the leaf of an address is compressed (R337). -/
def compressedAt (s : State) (row va : Nat) : Bool :=
  match walk s (s.row row).asid va with
  | .leaf pte _ _ _ => decide (bitsOf pte 58 58 = 1)
  | .bad _ => false

/-- The indivisible step of an atomic at its home (R229). -/
def atomicRuns (s : State) (row : Nat) (a : PendAtomic) : State :=
  let n := if a.w8 then 8 else 4
  let new (old : Nat) : List Byte := toBytes n (atomicValue a.op (8 * n) old a.v a.cmp)
  if 2 ^ 60 ≤ a.pa then
    let off := a.pa - 2 ^ 60
    let old := ofBytes (Store.getRun zeroByte (s.bank row).scratch off n)
    if (List.range n).any fun i => (s.bank row).scratchBad.get false (off + i) then
      s.modBank row fun b => atomicReturns b a old (some (.ofNat 64 a.va))
    else s.modBank row fun b => atomicReturns { b with scratch := Store.setRun zeroByte b.scratch off (new old) } a old none
  else if regionOf s a.pa = .sysreg then
    let old := ofBytes (sysRead s a.pa n)
    (sysWrite s row a.pa (new old)).modBank row fun b => atomicReturns b a old none
  else
    let s := fetchHome s a.pa n
    let old := s.homeNat a.pa n
    let cmp := compressedAt s row a.va
    if (List.range n).any fun i => badByte s (a.pa + i) cmp then
      s.modBank row fun b => atomicReturns b a old (some (.ofNat 64 a.va))
    else
      (markRun (s.homeWriteBytes a.pa (new old)) a.pa n).modBank row fun b => atomicReturns (b.shadow a.pa n) a old none

/-- Replaces a pending atomic. -/
def putAtomic (b : Bank) (a : PendAtomic) : Bank := { b with atomics := b.atomics.map fun x => if x.id = a.id then a else x }

/-- A fault of an atomic that has issued: it stays pending and meets its home again after the answer, as it does when another fault is
outstanding; the atomic of a task that is only bound meets it once the task runs (R52, R315, R429, R432; log entries 33 and 50). -/
def atomicFault (s : State) (row : Nat) (a : PendAtomic) (cause va : Nat) : State :=
  if (s.row row).state = .bound then s
  else
    let s := s.modBank row fun b => putAtomic b { a with refused := true }
    if (s.bank row).fault.isSome then s
    else takeFault s row .A { faultOf cause va with src := 3, lane := .ofNat 8 a.lane, line := a.line }

/-- The oldest atomic of a row meets its home: it waits there during a migration or a collection, is answered moved when the page
has left, faults on a frozen page, or executes (R229, R309, R322, R323). -/
def atomicAtHome (s : State) (row id : Nat) : State :=
  match (s.bank row).atomics with
  | [] => s
  | a :: _ =>
    if a.id ≠ id ∨ a.moved then s
    else if a.pa < 2 ^ 60 ∧ regionOf s a.pa ≠ .sysreg then
      if homeBusy s (a.pa / 4096) then s
      else if frozenAt s row a.va then atomicFault s row a 0x08 a.va
      else atomicRuns s row a
    else atomicRuns s row a

/-- ATOMIC_AT_HOME. -/
def execAtomicAtHome (row id : Nat) (s : State) : Out := .next (atomicAtHome s row id)

/-- An atomic answered moved: the translation is refreshed, the checks are made afresh, and it is sent again (R309, R334). -/
def movedResend (s : State) (row id : Nat) : State :=
  match (s.bank row).atomics.find? fun a => a.id = id with
  | none => s
  | some a =>
    if !a.moved then s
    else
      let s := s.setTlb (coreOf row) ((s.tlbOf (coreOf row)).filter fun t => !t.covers (s.row row).asid a.va)
      let n := if a.w8 then 8 else 4
      match translate s row .atomic true a.va n n with
      | .bad c va => atomicFault s row a c va
      | .miss _ => s
      | .ok l =>
        let key := match l with
          | g :: _ => locKey g.loc 0
          | [] => 0
        (tlbTouch s row l).modBank row fun b => putAtomic b { a with pa := key, moved := false }

/-- MOVED_RESEND. -/
def execMovedResend (row id : Nat) (s : State) : Out := .next (movedResend s row id)

/-! ### Walks, ownership and invalidation -/

/-- A bank whose access waits for a walk of a page goes on. -/
def walkDone (asid : Asid) (va : Nat) (s : State) (row : Nat) : State :=
  if (s.row row).asid = asid ∧ (s.bank row).walk = some va then s.modBank row fun b => { b with walk := none } else s

/-- A walk ends: a valid leaf enters the core's TLB (R330, R331). -/
def pageWalk (s : State) (core : Nat) (asid : Asid) (va : Nat) : State :=
  let s := match walk s asid va with
    | .leaf pte vbase size _ => tlbInsert s core asid pte vbase size
    | .bad _ => s
  walkDone asid va (walkDone asid va s (2 * core)) (2 * core + 1)

/-- PAGE_WALK. -/
def execPageWalk (core : Nat) (asid : Asid) (va : Nat) (s : State) : Out := .next (pageWalk s core asid va)

/-- INVALIDATE (R333). -/
def execInvalidate (core : Nat) (asid : Asid) (s : State) : Out := .next (invalidateAt s core asid)

/-- The directory takes a store's request: it waits at a moving or collected page of which the row holds nothing, goes back to the store when
the page is frozen by now, and is granted whole or refused whole (R304, R316, R322, R334, R335). -/
def ownershipRequest (s : State) (row : Nat) : State :=
  match (s.bank row).own with
  | none => s
  | some r =>
    if r.subpages.any fun p => !ownedBy s row p && homeBusy s p then s
    else if r.vas.any (frozenAt s row) then s.modBank row fun b => { b with own := none }
    else match r.subpages.find? (ownedByOther s row) with
      | some p => s.modBank row fun b => { b with own := some { r with refused := some p } }
      | none => addOwners (settle s (r.subpages.filter fun p => !ownedBy s row p)) (.task row) r.subpages

/-- OWNERSHIP_REQUEST. -/
def execOwnershipRequest (row : Nat) (s : State) : Out := .next (ownershipRequest s row)

/-! ### Waits -/

/-- The cycles after which a stall on a queue is a deadlock (R108). -/
def deadlockLimit : Nat := 65536

/-- The record of a deadlock: a VDISC's AUX is the number of entries still to pop (R212, R432). -/
def deadlockFault (b : Bank) (u : UnitId) : FaultRec :=
  let e := b.headEntry u
  match decodeUnit e.tag.toNat e.word.toNat with
  | some (.vdisc _ n) => { faultOf 0x04 0 with aux := .ofNat 32 (n.toNat + 1 - b.disc) }
  | _ => faultOf 0x04 0

/-- QUEUE_DEADLOCK: cause 0x04, precise at the stalled instruction (R108). -/
def execQueueDeadlock (row : Nat) (u : UnitId) (s : State) : Out :=
  .next (if deadlockLimit < (s.bank row).stall u then
      unitFault ({ s with cur := row }.modBank row fun b => b.setStall u 0) u (deadlockFault (s.bank row) u)
    else s)

/-- WAITC_COMPLETION (R140). -/
def execWaitcCompletion (row : Nat) (s : State) : Out := .next (waitcComplete s row)

/-! ### Freezes (R320, R326) -/

/-- A pending freeze has been applied: the next one of the group follows. -/
def freezeNext (s : State) (g : BitVec 2) : State :=
  s.modHere fun b => { b with freezes := dropPending g b.freezes, sWait := .freezing 0 [] }

/-- One more step of a PHASE that applies freezes: a leaf is raised, its collections are awaited, or the other package is told
(R320, R326). -/
def freezeStep (s : State) (g : BitVec 2) (from_ : Nat) (leaves : List Nat) : State :=
  match pendingOf s.here g with
  | none => setSWait s .frozen
  | some f =>
    let va := max f.base from_
    if va < f.base + f.len then
      match raiseLeaf s f.asid va with
      | .wait => s
      | .fault c => unitFault s .S (faultOf c va)
      | .done s' next coll => setSWait s' (.freezing next (leaves ++ coll.toList))
    else if leaves.any (collecting s) then s
    else if s.dual && decide ((s.group (groupIndex s s.cur g)).level = 3) then
      if s.devstat.pairdown || !s.devstat.pairup then unitFault s .S (faultOf 0x14 f.base)
      else setSWait { s with sideOut := s.sideOut ++
        [.freeze f.asid (max f.base f.sent) (f.base + f.len - max f.base f.sent) (s.group (groupIndex s s.cur g)).key] } .acking
    else freezeNext s g

/-- The answer of the other package to a freeze entry; after a fault the entry is sent again from the leaf named (R326; log entry 14). -/
def freezeAnswer (s : State) (g : BitVec 2) : State :=
  match pairAnswer (takeFree s).1 with
  | .notYet => (takeFree s).2
  | .done => freezeNext (takeFree s).2 g
  | .fault c v =>
    let s := setSWait (takeFree s).2 (.freezing (2 ^ 48) [])
    unitFault (s.modHere fun b => { b with freezes := modPending g (fun f => { f with sent := v }) b.freezes }) .S { faultOf c v with flags := 4 }

/-- FREEZE_APPLICATION (R139, R320). -/
def freezeApplication (s : State) (row : Nat) : State :=
  let s := { s with cur := row }
  if (s.row row).state ≠ .running ∨ s.here.fault.isSome then s
  else match phaseGroup s.here, s.here.sWait with
    | some g, .freezing f l => freezeStep s g f l
    | some g, .acking => freezeAnswer s g
    | _, _ => s

/-- FREEZE_APPLICATION. -/
def execFreezeApplication (row : Nat) (s : State) : Out := .next (freezeApplication s row)

/-- COLLECT (R322 step 3). -/
def execCollect (holder leaf : Nat) (s : State) : Out := .next (collectAtHolder s holder leaf)

/-- COLLECT_ACKNOWLEDGEMENT (R322 steps 4 and 5). -/
def execCollectAck (leaf : Nat) (s : State) : Out := .next (acknowledge s leaf)

/-! ### REALIGN at the control die -/

/-- The control die takes the oldest request: its dies are set 64 cycles later (R117). -/
def takeRealign (s : State) : State :=
  match s.realigns with
  | [] => s
  | r :: rest =>
    let p := s.cycle + 64
    let s := { s with realigns := rest, dccSets := s.dccSets ++ [(⟨p, r.dies, r.count, r.row⟩ : DccSet)] }
    s.modBank r.row fun b => match b.sWait with
      | .realigning none => { b with sWait := .realigning (some (p + 20)) }
      | .realigning (some _) | .idle | .released | .arrived _ | .freezing _ _ | .acking | .frozen | .counting _ _ | .halting _ => b

/-- REALIGN_REQUEST. -/
def execRealignRequest (s : State) : Out := .next (takeRealign s)

end Sys2Proof.Machine
end

