-- ==== Sys2Proof/Machine/KvFrame.lean ====
section
/-! DEFINITION. The key-value cache in memory: layouts, records, the walk, and block frames with their planes, copies and check
words (R342 to R350, R356, R370). -/

namespace Sys2Proof.Machine

/-! ### Results -/

/-- Where in the cache a command stands, for its fault record and status (R354, R356). -/
structure KvAt where
  layer : Nat
  slot  : Nat
  node  : Nat
  deriving DecidableEq, Repr

/-- What a part of a command came to: a value, a wait at a home, or a fault that holds or ends it. -/
inductive KvRes (α : Type) where
  | ok (s : State) (x : EngEntry) (a : α)
  | wait (s : State) (x : EngEntry)
  | stop (s : State) (x : EngEntry) (held : Bool) (cause addr : Nat) (p : KvAt)
  deriving DecidableEq, Repr

/-- One part after another. -/
def KvRes.bind {α β : Type} (r : KvRes α) (k : State → EngEntry → α → KvRes β) : KvRes β :=
  match r with
  | .ok s x a => k s x a
  | .wait s x => .wait s x
  | .stop s x h c a p => .stop s x h c a p

/-- Flags of the status word (R354). -/
def kvDerr : Nat := 2 ^ 23
def kvMzero : Nat := 2 ^ 22
def kvEmpty : Nat := 2 ^ 21

/-- A flag set in an entry. -/
def kvFlag (x : EngEntry) (bit : Nat) : EngEntry := { x with flags := x.flags ||| .ofNat 64 bit }

/-- A cause that ends the command. -/
def kvFail {α : Type} (s : State) (x : EngEntry) (p : KvAt) (cause addr : Nat) : KvRes α := .stop s x false cause addr p

/-- An uncorrectable header, scale, position or word: it holds a KVATT and ends the others (R356). -/
def kvBad {α : Type} (s : State) (x : EngEntry) (p : KvAt) (cause addr : Nat) : KvRes α :=
  .stop s (if cause = 0x0F then kvFlag x kvDerr else x) (decide (x.opc = 3)) cause addr p

/-! ### Plain memory -/

/-- Reads `n` bytes; a translation that is not present holds the command, any other cause ends it (R356, R357). -/
def kvRead (s : State) (x : EngEntry) (p : KvAt) (va n : Nat) : KvRes (List Byte) :=
  match engRead s s.cur x va n 1 with
  | .bad c a => .stop s x (decide (c = 0x06)) c a p
  | .ok s bs err => if err then kvFail s (kvFlag x kvDerr) p 0x0F va else .ok s x bs

/-- The checks of a write (R356, R357). -/
def kvClaim (s : State) (x : EngEntry) (p : KvAt) (owns : Bool) (va n : Nat) : KvRes Unit :=
  match claim s s.cur .kv owns x.id va n 1 with
  | .wait => .wait s x
  | .bad c a => .stop s x (decide (c = 0x06)) c a p
  | .ok s => .ok s x ()

/-- Checks and writes. -/
def kvWrite (s : State) (x : EngEntry) (p : KvAt) (owns : Bool) (va : Nat) (bs : List Byte) : KvRes Unit :=
  (kvClaim s x p owns va bs.length).bind fun s x _ => .ok (engStore s s.cur va bs) x ()

/-! ### Layouts and records -/

/-- A layout record (R342). -/
structure KvLay where
  layers : Nat
  heads  : Nat
  dim    : Nat
  fmt    : ElemType
  frame  : Nat
  sig    : Nat
  deriving DecidableEq, Repr

/-- The layout that a record's bytes give. -/
def KvLay.of (bs : List Byte) : KvLay where
  layers := field bs 4 1 + 1
  heads := field bs 5 1
  dim := 32 * (field bs 6 1 + 1)
  fmt := (ElemType.ofCode (field bs 7 1)).getD .bf16
  frame := field bs 12 4
  sig := field bs 4 8

/-- Mantissa bits of a format (R343). -/
def KvLay.mb (l : KvLay) : Nat := match l.fmt with
  | .e5m2 => 2
  | .bf16 => 7
  | _ => 3
/-- Bits of a code. -/
def KvLay.width (l : KvLay) : Nat := l.fmt.width
/-- High-field bits of a format (R343). -/
def KvLay.hb (l : KvLay) : Nat := l.width - l.mb
/-- Elements of a block. -/
def KvLay.count (l : KvLay) : Nat := 32 * l.heads * l.dim
/-- Offset of the high plane in a frame (R344). -/
def highPlane : Nat := 0x2000
/-- Offset of the mantissa plane in a frame (R344). -/
def KvLay.mantPlane (l : KvLay) : Nat := highPlane + l.count * l.hb / 8
/-- The first element of a head at a slot, `kv` = 0 for keys and 1 for values (R343). -/
def KvLay.elemOf (l : KvLay) (kv s h : Nat) : Nat := ((kv * 16 + s) * l.heads + h) * l.dim

/-- A radix node record (R348). -/
structure KvNode where
  addr  : Nat
  magic : Nat
  refs  : Nat
  start : Nat
  len   : Nat
  cap   : Nat
  nbpl  : Nat
  btab  : Nat
  deriving DecidableEq, Repr

/-- The node that a record's bytes give. -/
def KvNode.of (addr : Nat) (bs : List Byte) : KvNode :=
  ⟨addr, field bs 0 4, field bs 4 2, field bs 8 4, field bs 0xC 4, field bs 0x10 4, field bs 0x14 4, field bs 0x18 8⟩

/-- A sequence record with the nodes of its path (R347, R348). -/
structure KvSeq where
  addr  : Nat
  magic : Nat
  state : Nat
  sig   : Nat
  seqid : Nat
  tver  : Nat
  clen  : Nat
  pcnt  : Nat
  scale : Nat
  sid   : Nat
  score : Nat
  nodes : List KvNode
  deriving DecidableEq, Repr

/-- The node addresses of a path: the first zero entry ends it (R347). -/
def pathOf (bs : List Byte) : List Nat := ((List.range 8).map fun k => field bs (0x40 + 8 * k) 8).takeWhile (· ≠ 0)

/-- The sequence that a record's bytes and the bytes of its nodes give. -/
def KvSeq.of (addr : Nat) (bs : List Byte) : KvSeq where
  addr := addr
  magic := field bs 0 4
  state := field bs 4 1
  sig := field bs 8 8
  seqid := field bs 0x10 4
  tver := field bs 0x14 4
  clen := field bs 0x18 4
  pcnt := field bs 0x1C 4
  scale := field bs 0x28 8
  sid := field bs 0x30 8
  score := field bs 0x38 8
  nodes := (pathOf bs).zipIdx.map fun p => KvNode.of p.1 ((bs.drop (128 + 64 * p.2)).take 64)

/-- The tail node (R347). -/
def KvSeq.tail (q : KvSeq) : KvNode := q.nodes.getLastD ⟨0, 0, 0, 0, 0, 0, 0, 0⟩

/-- Each later node starts where the one before it ends (R348). -/
def pathJoined : Nat → List KvNode → Bool
  | _, [] => true
  | at_, n :: r => decide (n.start = at_) && pathJoined (n.start + n.len) r

/-- The checks of R355 on the records: magics, the layout's signature, the path of R348 and a state that R347 names. -/
def KvSeq.sound (q : KvSeq) (l : KvLay) : Bool :=
  decide (q.magic = 0x5153564B) && decide (q.sig = l.sig) && decide (q.state ≤ 1) && decide (q.nodes ≠ []) &&
    q.nodes.all (fun n => decide (n.magic = 0x444E564B)) && pathJoined 0 q.nodes &&
    decide (q.tail.start + q.tail.len = q.clen)

/-- A block of a node: the place of its table entry, its first slot, and the slot within it (R349). -/
structure KvSlot where
  entry : Nat
  base  : Nat
  sub   : Nat
  deriving DecidableEq, Repr

/-- The walk of R349 over the nodes of a path. -/
def walkNodes (i layer : Nat) : List KvNode → Option KvSlot
  | [] => none
  | n :: r =>
    let lim := if r = [] then n.start + n.cap else n.start + n.len
    if i < lim then
      let b := (i - n.start) / 16
      some ⟨n.btab + 8 * (layer * n.nbpl + b), n.start + 16 * b, (i - n.start) % 16⟩
    else walkNodes i layer r

/-- The walk of R349. -/
def KvSeq.slot (q : KvSeq) (i layer : Nat) : Option KvSlot := walkNodes i layer q.nodes

/-- A block-table entry at an address: the frame, or the hold and the end of R346. -/
def kvEntry (s : State) (x : EngEntry) (p : KvAt) (addr : Nat) : KvRes Nat :=
  (kvRead s x p addr 8).bind fun s x bs =>
    let e := ofBytes bs
    if bitsOf e 63 63 = 0 ∨ bitsOf e 62 62 = 1 then .stop s x true 0x06 addr p
    else if bitsOf e 61 48 ≠ 0 ∨ bitsOf e 11 0 ≠ 0 then kvFail s x p 0x11 addr
    else .ok s x (bitsOf e 47 12 * 4096)

/-! ### Frames: bytes and check words -/

/-- Whether a byte of a location is stale or in error. -/
def unsound (s : State) (l : Loc) (i : Nat) : Bool :=
  match l with
  | .scratch _ => false
  | .phys pa cmp => badByte s (pa + i) cmp || s.stale.get false (pa + i)

/-- Whether any byte of segments is stale or in error. -/
def segUnsound (s : State) (l : List Seg) : Bool :=
  l.any fun g => (List.range g.len).any fun i => unsound s g.loc i

/-- Reads `n` bytes of what a command reads once, at its first start: what an earlier run of the start has read already is kept, and the place
in it is counted in `pos` (R353, R356). -/
def kvOnce (s : State) (x : EngEntry) (p : KvAt) (va n : Nat) : KvRes (List Byte) :=
  if x.pos + n ≤ x.kept.length then .ok s { x with pos := x.pos + n } ((x.kept.drop x.pos).take n)
  else (kvRead s x p va n).bind fun s x bs => .ok s { x with kept := x.kept.take x.pos ++ bs, pos := x.pos + n } bs

/-- `n` bytes of a frame, and whether they hold an uncorrectable error (R344). -/
def kvRaw (s : State) (x : EngEntry) (p : KvAt) (va n : Nat) : KvRes (List Byte × Bool) :=
  match translate s s.cur .read true va n 1 with
  | .bad c a => .stop s x (decide (c = 0x06)) c a p
  | .miss a => .stop s x true 0x06 a p
  | .ok l => .ok s x (engBytes s s.cur x l, segUnsound s l)

/-- Bytes of a frame as they stand. -/
def kvPeek (s : State) (va n : Nat) : List Byte :=
  match translate s s.cur .read true va n 1 with
  | .bad _ _ | .miss _ => []
  | .ok l => segBytes s s.cur l

/-- The bytes of segments are no longer stale. -/
def freshen (s : State) (l : List Seg) : State :=
  l.foldl (fun s g => match g.loc with
    | .scratch _ => s
    | .phys pa _ => { s with stale := s.stale.filter fun e => !(decide (pa ≤ e.1) && decide (e.1 < pa + g.len)) }) s

/-- The engine writes bytes of a frame whose check words it keeps (R344). -/
def kvPut (s : State) (va : Nat) (bs : List Byte) : State :=
  match translate s s.cur .read true va bs.length 1 with
  | .bad _ _ | .miss _ => s
  | .ok l => freshen (segHomeWrite s s.cur l bs) l

/-- Writes one of the eight 64-byte units with its check word (R344). -/
def kvPutUnit (s : State) (f u : Nat) (bs : List Byte) : State :=
  kvPut (kvPut s (f + 64 * u) bs) (f + 0x200 + 8 * u) (Config.checkWord bs)

/-- Writes the units of an area and of its second copy (R344, R345). -/
def kvPutArea (s : State) (f a n : Nat) (bs : List Byte) : State :=
  (List.range n).foldl (fun s i =>
    let w := (bs.drop (64 * i)).take 64
    kvPutUnit (kvPutUnit s f (a + i) w) f (a + n + i) w) s

/-- One unit with its check word: its bytes, and whether they are uncorrectable. -/
def kvUnit (s : State) (x : EngEntry) (p : KvAt) (f u : Nat) : KvRes (List Byte × Bool) :=
  (kvRaw s x p (f + 64 * u) 64).bind fun s x a =>
    (kvRaw s x p (f + 0x200 + 8 * u) 8).bind fun s x c => .ok s x (a.1, a.2 || c.2)

/-- Whether a repair may write `n` bytes of a frame: a KVATT, which writes no frozen page, leaves the bytes as they are where it may not
(R323, R345, R356, R370; log entry 56). -/
def kvMend (s : State) (x : EngEntry) (p : KvAt) (va n : Nat) : KvRes Bool :=
  match kvClaim s x p false va n with
  | .ok s x _ => .ok s x true
  | .wait s x => .wait s x
  | .stop s' y h c a q => if x.opc = 3 then .ok s x false else .stop s' y h c a q

/-- A unit by its copy A, else by its copy B, from which copy A is then rewritten (R345). -/
def kvCopies (s : State) (x : EngEntry) (p : KvAt) (f a b : Nat) : KvRes (List Byte) :=
  (kvUnit s x p f a).bind fun s x r =>
    if !r.2 then .ok s x r.1
    else (kvUnit s x p f b).bind fun s x r =>
      if r.2 then kvBad s x p 0x0F (f + 64 * a)
      else (kvMend s (kvFlag x kvDerr) p f 0x400).bind fun s x w => .ok (if w then kvPutUnit s f a r.1 else s) x r.1

/-- A block header (R345). -/
structure KvHdr where
  magic : Nat
  seqid : Nat
  layer : Nat
  kind  : Nat
  base  : Nat
  vmask : Nat
  smask : Nat
  pmask : Nat
  tags  : List Nat
  tver  : Nat
  deriving DecidableEq, Repr

/-- BMAGIC. -/
def blockMagic : Nat := 0x4B42564B

/-- The header that 64 bytes give; without BMAGIC the frame has not been written and names no slot. -/
def KvHdr.of (bs : List Byte) : KvHdr :=
  if field bs 0 4 = blockMagic then
    ⟨blockMagic, field bs 4 4, field bs 8 1, field bs 9 1, field bs 12 4, field bs 16 2, field bs 18 2, field bs 20 2,
      (List.range 16).map fun i => field bs (24 + i) 1, field bs 40 4⟩
  else ⟨0, 0, 0, 0, 0, 0, 0, 0, List.replicate 16 0, 0⟩

/-- The 64 bytes of a header. -/
def KvHdr.bytes (h : KvHdr) : List Byte :=
  toBytes 4 h.magic ++ toBytes 4 h.seqid ++ toBytes 1 h.layer ++ toBytes 1 h.kind ++ toBytes 2 0 ++ toBytes 4 h.base ++
    toBytes 2 h.vmask ++ toBytes 2 h.smask ++ toBytes 2 h.pmask ++ toBytes 2 0 ++ h.tags.map (BitVec.ofNat 8) ++
    toBytes 4 h.tver ++ List.replicate 20 0

/-- The header of a frame. -/
def kvHeader (s : State) (x : EngEntry) (p : KvAt) (f : Nat) : KvRes KvHdr :=
  (kvCopies s x p f 0 1).bind fun s x bs => .ok s x (KvHdr.of bs)

/-- Writes both copies of a header. -/
def kvPutHeader (s : State) (f : Nat) (h : KvHdr) : State := kvPutArea s f 0 1 h.bytes

/-- Bit `i` of a mask. -/
def maskBit (m i : Nat) : Bool := m.testBit i
/-- A mask with bit `i` set to a value. -/
def maskSet (m i : Nat) (v : Bool) : Nat := (m &&& (0xFFFF - 2 ^ i)) + v.toNat * 2 ^ i

/-- Whether slot `i` is provisional with a tag (R350). -/
def KvHdr.holds (h : KvHdr) (i tag : Nat) : Bool := maskBit h.pmask i && decide (h.tags.getD i 0 = tag)

/-- The position of slot `i` (R344). -/
def kvPosition (s : State) (x : EngEntry) (p : KvAt) (f i : Nat) : KvRes Nat :=
  (kvCopies s x p f 6 7).bind fun s x bs => .ok s x (field bs (4 * i) 4)

/-- Writes the position of slot `i` in both copies of the position area, whose bytes have been read. -/
def kvPutPositions (s : State) (f i : Nat) (bs : List Byte) (v : Nat) : State :=
  kvPutArea s f 6 1 (bs.take (4 * i) ++ toBytes 4 v ++ bs.drop (4 * i + 4))

/-- Writes the position of slot `i` in both copies. -/
def kvPutPosition (s : State) (x : EngEntry) (p : KvAt) (f i v : Nat) : KvRes Unit :=
  (kvCopies s x p f 6 7).bind fun s x bs => .ok (kvPutPositions s f i bs v) x ()

/-- The scale codes of a frame: key scale of head h at index h, value scale at 16 + h (R344). -/
def kvScales (s : State) (x : EngEntry) (p : KvAt) (f : Nat) : KvRes (List Nat) :=
  (kvCopies s x p f 2 4).bind fun s x a => (kvCopies s x p f 3 5).bind fun s x b =>
    .ok s x ((List.range 32).map fun i => field (a ++ b) (4 * i) 4)

/-! ### Planes -/

/-- `n` fields of `w` bits from bit 0 of the first byte on. -/
def unpackBits (w n : Nat) (bs : List Byte) : List Nat :=
  let v := ofBytes bs
  (List.range n).map fun i => v / 2 ^ (w * i) % 2 ^ w

/-- Fields of `w` bits as a number. -/
def packBits (w : Nat) : List Nat → Nat
  | [] => 0
  | c :: r => c % 2 ^ w + 2 ^ w * packBits w r

/-- The 64-bit words that `n` elements from `e` on touch in a plane of `w` bits an element. -/
def wordsAt (w e n : Nat) : List Nat :=
  (List.range ((e * w + n * w - 1) / 64 - e * w / 64 + 1)).map fun i => e * w / 64 + i

/-- Writes the check byte of a high-plane word. -/
def sealHigh (s : State) (f w : Nat) : State :=
  kvPut s (f + 0x400 + w) [Config.checkByte (ofBytes (kvPeek s (f + highPlane + 8 * w) 8))]

/-- Writes the parity bit of a mantissa-plane word. -/
def sealMant (s : State) (l : KvLay) (f w : Nat) : State :=
  let a := f + 0x1C00 + w / 8
  let old := ofBytes (kvPeek s a 1)
  let v := Config.parityBit (ofBytes (kvPeek s (f + l.mantPlane + 8 * w) 8))
  kvPut s a [.ofNat 8 (old - old / 2 ^ (w % 8) % 2 * 2 ^ (w % 8) + v.toNat * 2 ^ (w % 8))]

/-- Writes whole bytes of both planes for elements from `e` on; `e` and the number of codes are multiples of 32 (R343). -/
def kvPutCodes (s : State) (l : KvLay) (f e : Nat) (codes : List Nat) : State :=
  let n := codes.length
  let s := kvPut s (f + highPlane + e * l.hb / 8) (toBytes (n * l.hb / 8) (packBits l.hb (codes.map (· / 2 ^ l.mb))))
  let s := kvPut s (f + l.mantPlane + e * l.mb / 8) (toBytes (n * l.mb / 8) (packBits l.mb codes))
  let s := (wordsAt l.hb e n).foldl (fun s w => sealHigh s f w) s
  (wordsAt l.mb e n).foldl (fun s w => sealMant s l f w) s

/-- The words of a list that are uncorrectable, with the place of a word and of its check byte. -/
def badWords (s : State) (x : EngEntry) (p : KvAt) (data chk : Nat → Nat) : List Nat → KvRes (List Nat)
  | [] => .ok s x []
  | w :: r =>
    (kvRaw s x p (data w) 8).bind fun s x a => (kvRaw s x p (chk w) 1).bind fun s x c =>
      (badWords s x p data chk r).bind fun s x l => .ok s x (if a.2 || c.2 then w :: l else l)

/-- Clears bits of a number that fields of `mb` bits occupy, at the offsets listed. -/
def clearFields (mb : Nat) : Nat → List Nat → Nat
  | v, [] => v
  | v, o :: r => clearFields mb (v - v / 2 ^ o % 2 ^ mb * 2 ^ o) r

/-- Writes the bytes of a stretch that differ from what stands there. -/
def kvPatch (s : State) (va : Nat) (old new : List Byte) : State :=
  (List.range new.length).foldl (fun s i => if old.getD i 0 = new.getD i 0 then s else kvPut s (va + i) [new.getD i 0]) s

/-- Zeroes the high field of element `e`. -/
def zeroHigh (s : State) (l : KvLay) (f e : Nat) : State :=
  let a := f + highPlane + e * l.hb / 64 * 8
  let old := kvPeek s a 16
  let s := kvPatch s a old (toBytes 16 (clearFields l.hb (ofBytes old) [e * l.hb % 64]))
  (wordsAt l.hb e 1).foldl (fun s w => sealHigh s f w) s

/-- A failing parity word under KVERRPOL.ZERO: the mantissas of its elements become zero, a t8 code 0x80 becomes 0x00, and the
words and their parity are written back (R370). -/
def zeroWord (s : State) (l : KvLay) (f w : Nat) : State :=
  let first := 64 * w / l.mb
  let last := min (l.count - 1) ((64 * w + 63) / l.mb)
  let es := (List.range (last + 1 - first)).map fun i => first + i
  let lo := w - 1
  let hi := min (l.count * l.mb / 64 - 1) (w + 1)
  let a := f + l.mantPlane + 8 * lo
  let old := kvPeek s a (8 * (hi + 1 - lo))
  let s := kvPatch s a old (toBytes old.length (clearFields l.mb (ofBytes old) (es.map fun e => e * l.mb - 64 * lo)))
  let s := kvPut s (f + l.mantPlane + 8 * w) (kvPeek s (f + l.mantPlane + 8 * w) 8)
  let s := (List.range (hi + 1 - lo)).foldl (fun s i => sealMant s l f (lo + i)) s
  if l.fmt = .t8 then
    es.foldl (fun s e =>
      let h := ofBytes (kvPeek s (f + highPlane + e * l.hb / 64 * 8) 16) / 2 ^ (e * l.hb % 64) % 2 ^ l.hb
      if h = 16 then zeroHigh s l f e else s) s
  else s

/-- One more parity word zeroed on a die, saturating (R370). -/
def countZeroed (s : State) (die : Nat) : State :=
  let k := s.kverrpol.get (false, 0) die
  { s with kverrpol := s.kverrpol.set (false, 0) die (k.1, if k.2 = 0xFFFFFFFF then k.2 else k.2 + 1) }

/-- Parity errors among the words listed: zeroed and counted, or a fault (R356, R370). -/
def kvParity (s : State) (x : EngEntry) (p : KvAt) (l : KvLay) (f : Nat) : List Nat → KvRes Unit
  | [] => .ok s x ()
  | w :: r =>
    let die := dieOf s.cur
    if (s.kverrpol.get (false, 0) die).1 then
      (kvMend s (kvFlag x kvMzero) p f l.frame).bind fun s x m =>
        kvParity (countZeroed (if m then zeroWord s l f w else s) die) x p l f r
    else kvBad s x p 0x10 (f + l.mantPlane + 8 * w)

/-- The code of element `e` as a command takes it, when its mantissa stands in a failing word: the field is zero, and a t8 code 0x80 becomes
0x00 (R370). -/
def zeroedCode (l : KvLay) (bad : List Nat) (e c : Nat) : Nat :=
  if bad.any (fun w => decide (w ∈ wordsAt l.mb e 1)) then
    let c := c / 2 ^ l.mb * 2 ^ l.mb
    if l.fmt = .t8 ∧ c = 0x80 then 0 else c
  else c

/-- The codes of `n` elements from `e` on, `e` and `n` multiples of 32 (R343, R356). -/
def kvCodes (s : State) (x : EngEntry) (p : KvAt) (l : KvLay) (f e n : Nat) : KvRes (List Nat) :=
  (badWords s x p (fun w => f + highPlane + 8 * w) (fun w => f + 0x400 + w) (wordsAt l.hb e n)).bind fun s x bad =>
    match bad with
    | w :: _ => kvBad s x p 0x0F (f + highPlane + 8 * w)
    | [] =>
      (badWords s x p (fun w => f + l.mantPlane + 8 * w) (fun w => f + 0x1C00 + w / 8) (wordsAt l.mb e n)).bind fun s x bad =>
        (kvParity s x p l f bad).bind fun s x _ =>
          let hs := unpackBits l.hb n (kvPeek s (f + highPlane + e * l.hb / 8) (n * l.hb / 8))
          let ms := unpackBits l.mb n (kvPeek s (f + l.mantPlane + e * l.mb / 8) (n * l.mb / 8))
          .ok s x ((hs.zip ms).zipIdx.map fun c => zeroedCode l bad (e + c.2) (c.1.1 * 2 ^ l.mb + c.1.2))

/-! ### Writing entries -/

/-- The scale codes that SCALETAB gives a layer; 1.0 for bf16, whose table is not read (R347, R359). -/
def tableScales (s : State) (x : EngEntry) (p : KvAt) (l : KvLay) (q : KvSeq) : KvRes (List Nat) :=
  if l.fmt = .bf16 then .ok s x ((List.range 32).map fun i => if i % 16 < l.heads then 0x3F800000 else 0)
  else
    (kvRead s x p (q.scale + 8 * p.layer * l.heads) (8 * l.heads)).bind fun s x bs =>
      .ok s x ((List.range 32).map fun i =>
        if i % 16 < l.heads then field bs (8 * (i % 16) + 4 * (i / 16)) 4 else 0)

/-- A frame about to be written: it may be written whole, its header names the sequence, layer and base, and a frame written for
the first time gets its scales (R345, R356, R359). -/
def kvTouch (s : State) (x : EngEntry) (p : KvAt) (l : KvLay) (q : KvSeq) (f kind base : Nat) : KvRes KvHdr :=
  (kvClaim s x p false f l.frame).bind fun s x _ =>
    (kvHeader s x p f).bind fun s x h =>
      let mine := decide (h.magic = blockMagic) && decide (h.seqid = q.seqid) && decide (h.layer = p.layer)
      let h' := { h with magic := blockMagic, seqid := q.seqid, layer := p.layer, kind := kind, base := base, tver := q.tver }
      if mine then .ok s x h'
      else (tableScales s x p l q).bind fun s x sc =>
        .ok (kvPutArea s f 2 2 (sc.flatMap (toBytes 4))) x h'

/-- Writes the codes of an entry: keys, then values, each of H × dim codes (R343). -/
def kvPutEntry (s : State) (l : KvLay) (f i : Nat) (ks vs : List Nat) : State :=
  kvPutCodes (kvPutCodes s l f (l.elemOf 0 i 0) ks) l f (l.elemOf 1 i 0) vs

/-- The codes of an entry. -/
def kvGetEntry (s : State) (x : EngEntry) (p : KvAt) (l : KvLay) (f i : Nat) : KvRes (List Nat × List Nat) :=
  let n := l.heads * l.dim
  (kvCodes s x p l f (l.elemOf 0 i 0) n).bind fun s x ks =>
    (kvCodes s x p l f (l.elemOf 1 i 0) n).bind fun s x vs => .ok s x (ks, vs)

/-- A bf16 code as stored under a scale (R359). -/
def quantize (l : KvLay) (scale c : Nat) : Nat :=
  if l.fmt = .bf16 then c else roundElem l.fmt ⟨.rne, true⟩ (divX (decodeElem .bf16 c) (decodeElem .f32 scale))

end Sys2Proof.Machine
end

