-- ==== Sys2Proof/Machine/Sp.lean ====
section
/-! DEFINITION. The sampling engine: its key table, draws, probabilities, and the walk of a draft tree (R405 to R418). -/

namespace Sys2Proof.Machine

/-! ### Draws (R413) -/

/-- One round of the draw. -/
def drawRound (key : W64) (x : W64) (r : Nat) : W64 :=
  let x := (x ^^^ (x >>> 31)) * 0xA3B19C5E7F24D66B
  let x := (x ^^^ (x >>> 27)) * 0x8E5D2F71C4A93B17
  x ^^^ (key + .ofNat 64 r * 0x6C0789652F4E1D93)

/-- The counter word of a draw index. -/
def drawCounter (step d sid : Nat) : W64 := .ofNat 64 (step % 2 ^ 32 * 2 ^ 32 + d % 2 ^ 16 * 2 ^ 16 + sid % 2 ^ 16)

/-- The 24-bit value U. -/
def drawValue (key : W64) (step d sid : Nat) : Nat :=
  let x := (List.range 10).foldl (drawRound key) (drawCounter step d sid ^^^ key)
  bitsOf x.toNat 63 40

/-- STEP, DRAW and STREAM of a COUNTER word (R409). -/
def counterStep (w : W64) : Nat := bitsOf w.toNat 63 32
def counterDraw (w : W64) : Nat := bitsOf w.toNat 31 16
def counterStream (w : W64) : Nat := bitsOf w.toNat 15 0

/-! ### Rows of f32 values -/

/-- The codes of `n` elements of `size` bytes. -/
def codesOf (size : Nat) : Nat → List Byte → List Nat
  | 0, _ => []
  | n + 1, bs => ofBytes (bs.take size) :: codesOf size n (bs.drop size)

/-- Whether an f32 code may stand in a row of probabilities: no NaN, no infinity, not negative (R416). -/
def probOk (c : Nat) : Bool :=
  match decodeElem .f32 c with
  | .nan | .inf _ => false
  | .fin s m _ => !s || decide (m = 0)

/-- The running sums of a row (R416). -/
def runSums : Nat → List Nat → List Nat
  | _, [] => []
  | r, x :: l => let r' := addF32 .rne r x; r' :: runSums r' l

/-- The token that marks a draw without a valid row (R416). -/
def noToken : Nat := 0x3FFFF

/-- Whether an f32 code is above another. -/
def f32Above (a b : Nat) : Bool := (decodeElem .f32 b).lt (decodeElem .f32 a)

/-- The token that R416 chooses from a row for a value U, and whether the row was bad. -/
def chooseToken (p : List Nat) (u : Nat) : Nat × Bool :=
  if !p.all probOk then (noToken, true)
  else
    let run := runSums 0 p
    let total := run.getLastD 0
    if (decodeElem .f32 total).isZero then (noToken, true)
    else
      let tau := toF32 ((XVal.fin false u (-24)).mul (decodeElem .f32 total))
      match run.findIdx? fun r => f32Above r tau with
      | some i => (i, false)
      | none =>
        let last := (p.zipIdx.filter fun x => !(decodeElem .f32 x.1).isZero).getLast?
        ((last.map Prod.snd).getD noToken, false)

/-! ### Status and ends (R411, R412) -/

/-- Flags of the status word. -/
def spDerr : Nat := 2 ^ 23
def spBadin : Nat := 2 ^ 22
def spZres : Nat := 2 ^ 21

/-- The status word. -/
def spStatus (x : EngEntry) (value flags cause : Nat) : Nat := value * 2 ^ 32 + flags + statusOf x.opc cause

/-- An SP entry ends with a cause. -/
def spFail (s : State) (x : EngEntry) (cause addr : Nat) : State :=
  let flags := if cause = 0x0F then spDerr else 0
  endWith s s.cur .sp x (spStatus x 0 flags cause) (some { entryFault s s.cur .sp x cause addr with pos := 0 })

/-- An SP entry is held by a translation that is not present and starts again later; any other fault ends it. -/
def spStop (s : State) (x : EngEntry) (cause addr : Nat) : State :=
  if cause = 0x06 then holdEntry s s.cur .sp x { entryFault s s.cur .sp x cause addr with pos := 0 } else spFail s x cause addr

/-- An SP entry completes with its result word, if any, and its status word when RES is set. -/
def spDone (s : State) (x : EngEntry) (value flags : Nat) (word : List W64) : State :=
  let st := spStatus x value flags 0
  finishEntry s s.cur .sp x st (word ++ if x.res then [.ofNat 64 st] else []) none

/-- Runs the head of the SP queue, after the right of R340. -/
def spStart (s : State) (i : Instr) (k : State → EngEntry → State) : State :=
  runHead s .sp i fun s x =>
    if !mayExecute s s.cur .sp then spFail s x 0x07 0
    else k s x

/-- A key-table entry (R408). -/
def State.spKey (s : State) (i : BitVec 8) : SpKey := s.spKeys.get ⟨0, 0, false⟩ i.toNat

/-- Row 1 of R411 for a draw. -/
def withKey (s : State) (x : EngEntry) (i : BitVec 8) (k : W64 → State) : State :=
  let e := s.spKey i
  if !e.valid then spFail s x 0x11 0
  else if e.asid ≠ (s.row s.cur).asid then spFail s x 0x07 0
  else k e.key

/-- Row 2 of R411: the output is checked and owned. -/
def withOutput (s : State) (x : EngEntry) (va n : Nat) (k : State → State) : State :=
  match engClaim s s.cur .sp x.id va n 1 with
  | .wait => s
  | .bad c a => spStop s x c a
  | .ok s => k s

/-- Row 3 of R411: an input is read. -/
def withInput (s : State) (x : EngEntry) (va n : Nat) (k : State → List Byte → State) : State :=
  match engRead s s.cur x va n 1 with
  | .bad c a => spStop s x c a
  | .ok s bs err => if err then spFail s x 0x0F va else k s bs

/-! ### The commands -/

/-- SPSEED (R414). -/
def execSpseed (h : CmdHdr) (keyix : BitVec 8) (key : W64) (s : State) : Out :=
  .next (spStart s (.spseed h keyix key) fun s x =>
    let e := s.spKey keyix
    let asid := (s.row s.cur).asid
    if e.valid && e.asid != asid then spFail s x 0x07 0
    else spDone { s with spKeys := s.spKeys.set ⟨0, 0, false⟩ keyix.toNat ⟨key, asid, true⟩ } x 0 0 [])

/-- exp2f of R362 on an exact value, as an f32 code. -/
def exp2f (x : XVal) : Nat := toF32 (exp2X x)

/-- The f32 quotient, correctly rounded. -/
def divF32 (a b : Nat) : Nat := toF32 (divX (decodeElem .f32 a) (decodeElem .f32 b))

/-- The largest of exact values. -/
def maxX : List XVal → XVal
  | [] => .inf true
  | x :: r => let m := maxX r; if x.lt m then m else x

/-- A row of SPSOFT and whether it was bad (R415). -/
def softRow (t : ElemType) (invt : Nat) (row : List Nat) : List Nat × Bool :=
  let c := mulF32 invt 0x3FB8AA3B
  let xs := row.map (decodeElem t)
  if xs.any (fun x => x.isNan || x == .inf false) || xs.all (· == .inf true) then (row.map fun _ => 0x7FC00000, true)
  else
    let m := maxX xs
    let e := xs.map fun x => exp2f (decodeElem .f32 (mulF32 (toF32 (x.add .rne m.neg)) c))
    let sum := e.foldl (addF32 .rne) 0
    (e.map fun v => divF32 v sum, false)

/-- SPSOFT (R415). -/
def execSpsoft (h : CmdHdr) (a : SpSoftArgs) (s : State) : Out :=
  .next (spStart s (.spsoft h a) fun s x =>
    let v := a.vM1.toNat + 1
    let rows := a.rowsM1.toNat + 1
    let t : ElemType := if a.bf16 then .bf16 else .f32
    withOutput s x a.dst.toNat (rows * v * 4) fun s =>
      withInput s x a.src.toNat (rows * v * t.bytes) fun s bs =>
        let out := (List.range rows).map fun j => softRow t a.invt.toNat (codesOf t.bytes v (bs.drop (j * v * t.bytes)))
        let s := engStore s s.cur a.dst.toNat (out.flatMap fun r => r.1.flatMap (toBytes 4))
        spDone s x rows (if out.any Prod.snd then spBadin else 0) [])

/-- SPDRAW (R416). -/
def execSpdraw (h : CmdHdr) (src : W64) (vM1 : BitVec 17) (keyix : BitVec 8) (counter : W64) (s : State) : Out :=
  .next (spStart s (.spdraw h src vM1 keyix counter) fun s x => withKey s x keyix fun key =>
    withInput s x src.toNat (4 * (vM1.toNat + 1)) fun s bs =>
      let u := drawValue key (counterStep counter) (counterDraw counter) (counterStream counter)
      let r := chooseToken (codesOf 4 (vM1.toNat + 1) bs) u
      spDone s x r.1 (if r.2 then spBadin else 0) [.ofNat 64 (u * 2 ^ 40 + r.1)])

/-! ### SPACC (R405, R406, R417, R418) -/

/-- Depths of the nodes of a parent array: the root's is 1 (R360, R405). -/
def nodeDepths (parents : List Nat) : List Nat :=
  parents.foldl (fun d p => d ++ [if p = 0xFF then 1 else d.getD p 0 + 1]) []

/-- The checks of R405 on a parent array. -/
def rootedTree (parents : List Nat) : Bool :=
  decide (parents.headD 0 = 0xFF) && ((parents.zipIdx.drop 1).all fun p => decide (p.1 < p.2)) &&
    (nodeDepths parents).all fun d => decide (d ≤ 8)

/-- What a walk of the tree gives. -/
structure TreeWalk where
  path  : List Nat
  draws : Nat
  final : Nat
  badin : Bool
  zres  : Bool
  deriving DecidableEq, Repr

/-- The inputs of a walk. -/
structure TreeIn where
  key     : W64
  step    : Nat
  sid     : Nat
  draw    : Nat
  parents : List Nat
  tokens  : List Nat
  prows   : List (List Nat)
  qrows   : List (List Nat)
  deriving DecidableEq, Repr

/-- The value U of the walk's draw number `d`. -/
def TreeIn.u (t : TreeIn) (d : Nat) : Nat := drawValue t.key t.step (t.draw + d) t.sid

/-- The residual of a row after a refused child, and whether it summed to zero (R417). -/
def residual (p q : List Nat) : List Nat × Bool :=
  let r := List.zipWith (fun a b =>
    let x := addF32 .rne a (toF32 (decodeElem .f32 b).neg)
    if (decodeElem .f32 x).lt XVal.zero then 0 else x) p q
  let sum := r.foldl (addF32 .rne) 0
  if (decodeElem .f32 sum).isZero then (p, true) else (r.map fun v => divF32 v sum, false)

/-- What the children of a node came to. -/
inductive ChildTest where
  | accepted (c : Nat)
  | none_
  | bad
  deriving DecidableEq, Repr

/-- Tests the children of a node in order: the outcome, the working row, the draws used, and ZRES (R417). -/
def testChildren (t : TreeIn) : List Nat → List Nat → Nat → Bool → ChildTest × List Nat × Nat × Bool
  | [], p, d, z => (.none_, p, d, z)
  | c :: r, p, d, z =>
    let u := t.u d
    let q := t.qrows.getD c []
    let tok := t.tokens.getD c 0
    if !q.all probOk then (.bad, p, d + 1, z)
    else if ((XVal.fin false u (-24)).mul (decodeElem .f32 (q.getD tok 0))).lt (decodeElem .f32 (p.getD tok 0)) then
      (.accepted c, p, d + 1, z)
    else
      let x := residual p q
      testChildren t r x.1 (d + 1) (z || x.2)

/-- The walk from a node on (R417); `fuel` bounds the depth. -/
def walkTree (t : TreeIn) : Nat → Nat → List Nat → Nat → Bool → TreeWalk
  | 0, _, path, d, z => ⟨path, d, noToken, true, z⟩
  | fuel + 1, cur, path, d, z =>
    let p := t.prows.getD cur []
    if !p.all probOk then ⟨path, d, noToken, true, z⟩
    else
      let kids := (List.range t.parents.length).filter fun i => decide (i ≠ 0) && decide (t.parents.getD i 0 = cur)
      match testChildren t kids p d z with
      | (.bad, _, d, z) => ⟨path, d, noToken, true, z⟩
      | (.accepted c, _, d, z) => walkTree t fuel c (path ++ [c]) d z
      | (.none_, p, d, z) =>
        let f := chooseToken p (t.u d)
        ⟨path, d + 1, f.1, f.2, z⟩

/-- A list filled with zeros to a length. -/
def padTo (n : Nat) (l : List Nat) : List Nat := (l ++ List.replicate n 0).take n

/-- DRAWS of R418, which is 1 to 64. DEDUCED (log entry 54): it is 1 where the walk stops at the root's target row, before any draw. -/
def TreeWalk.drawsUsed (w : TreeWalk) : Nat := max 1 w.draws

/-- The result record of R418. -/
def acceptRecord (t : TreeIn) (w : TreeWalk) : List Byte :=
  (padTo 8 w.path).map (.ofNat 8) ++ [.ofNat 8 w.path.length, .ofNat 8 w.drawsUsed, 0, 0] ++ toBytes 4 w.final ++
    (padTo 8 (w.path.map fun i => t.tokens.getD i 0)).flatMap (toBytes 4) ++ List.replicate 16 0

/-- Rows of a block from their bytes. -/
def rowsOf (v : Nat) : Nat → List Byte → List (List Nat)
  | 0, _ => []
  | n + 1, bs => codesOf 4 v bs :: rowsOf v n (bs.drop (4 * v))

/-- SPACC (R417). -/
def execSpacc (h : CmdHdr) (a : SpAccArgs) (s : State) : Out :=
  .next (spStart s (.spacc h a) fun s x => withKey s x a.keyix fun key =>
    withOutput s x a.out.toNat 64 fun s =>
      let n := a.nM1.toNat + 1
      let v := a.vM1.toNat + 1
      withInput s x a.tree.toNat 320 fun s tree => withInput s x a.prows.toNat (n * v * 4) fun s ps =>
        withInput s x (a.qrows.toNat + 4 * v) ((n - 1) * v * 4) fun s qs =>
          let t : TreeIn := ⟨key, counterStep a.counter, counterStream a.counter, counterDraw a.counter,
            (tree.take n).map BitVec.toNat, codesOf 4 n (tree.drop 64), rowsOf v n ps, [] :: rowsOf v (n - 1) qs⟩
          if !rootedTree t.parents || t.tokens.any fun k => decide (v ≤ k) then spFail s x 0x11 0
          else
            let w := walkTree t 9 0 [0] 0 false
            let s := engStore s s.cur a.out.toNat (acceptRecord t w)
            let flags := (if w.badin then spBadin else 0) + (if w.zres then spZres else 0)
            spDone s x w.path.length flags [.ofNat 64 (w.path.length * 2 ^ 56 + w.drawsUsed * 2 ^ 48 + w.final)])

end Sys2Proof.Machine
end

