-- ==== Sys2Proof/Machine/Kv.lean ====
section
/-! DEFINITION. The key-value commands as lists of steps: append, attention, checkpoint, squash, commit and eviction (R351 to R369,
R371). A command that is held goes on at the step at which it stopped (R356). -/

namespace Sys2Proof.Machine

/-! ### The steps of a command -/

/-- One step of a command: what it does whole, and at which it may be held (R356). -/
inductive KvStep where
  /-- KVXL: the walk of a slot -/
  | look (layer slot : Nat)
  /-- KVXL: one count of a node's REFS, and its freezes (ATTACH) or thaws -/
  | attach (k : Nat) (up : Bool)
  /-- KVAPP: position `j` of the append -/
  | append (j : Nat)
  /-- KVMASK: the object is written -/
  | mask
  /-- examine a frame, and clear the provisional slots of the tags -/
  | clear (layer entry slot : Nat) (siding : Bool) (tags : W64)
  /-- the squash of copies, when the tag set is given, then the record's new fields -/
  | record (squash : Option W64) (fields : List (Nat × List Byte))
  /-- KVCMT: node `n` stands at position `j` of the path or on its siding -/
  | checkNode (layer j n : Nat)
  /-- KVCMT: slot CLEN + j is staged -/
  | checkStaged (layer j : Nat)
  /-- KVCMT: the entry of node `n` becomes slot CLEN + j -/
  | commitNode (layer j n : Nat)
  /-- KVCMT: staged slot CLEN + j is committed -/
  | commitStaged (layer j : Nat)
  /-- KVSCORE: one addition -/
  | score (i v : Nat)
  /-- KVTOPK: the output is written -/
  | topk
  /-- KVCOMPACT: slot `i` of a layer becomes that of slot `s` -/
  | move (layer i s : Nat)
  /-- KVCOMPACT: SCORETAB[i] becomes SCORETAB[s], or +0 -/
  | moveScore (i : Nat) (s : Option Nat)
  /-- KVCOMPACT: a frame of the tail node is rewritten, with `n` slots kept -/
  | rewrite (layer b n : Nat)
  /-- KVATT: the start check of a block's slots -/
  | checkBlock (slots : List Nat)
  /-- KVATT: the start check of a tree node's entry -/
  | checkEntry (n : Nat)
  /-- KVATT: a main-line block -/
  | block (slots : List Nat)
  /-- KVATT: the block of tree nodes -/
  | tree (ns : List Nat)
  /-- KVATT: the output of a row -/
  | output (row : Nat)
  /-- KVATT: the scores of a slot -/
  | addScore (slot : Nat)
  deriving DecidableEq, Repr

/-- What a command has read at its first start and keeps (R353, R356): layout, sequence and operands. -/
structure KvEnv where
  lay  : KvLay
  q    : KvSeq
  opnd : List Byte
  deriving DecidableEq, Repr

/-- The bytes that the record and the nodes take among those kept. -/
def recordBytes : Nat := 640

/-! ### What each command names -/

/-- Layout index and record address of a command; KVMASK has neither (R352). -/
def kvNames : Instr → Option (BitVec 3 × W64)
  | .kvxl _ l _ q _ _ => some (l, q)
  | .kvapp _ l x => some (l, x.seq)
  | .kvatt _ l x => some (l, x.seq)
  | .kvckpt _ l q => some (l, q)
  | .kvcmt _ l x => some (l, x.seq)
  | .kvsq _ l _ q _ => some (l, q)
  | .kvscore _ l q _ _ _ => some (l, q)
  | .kvtopk _ l q _ _ _ _ => some (l, q)
  | .kvcompact _ l q _ _ => some (l, q)
  | _ => none

/-- Visible staged slots of query row `r` (R361). -/
def kvStaged (a : KvAttArgs) (r : Nat) : Nat := if a.causal then min a.ext.toNat (r + 1) else a.ext.toNat

/-- Query rows R × G. -/
def kvRowCount (a : KvAttArgs) : Nat := (a.rM1.toNat + 1) * (a.gM1.toNat + 1)

/-- The start checks of R355 that need no operand buffer. -/
def kvAllowed (b : EngEntry) (l : KvLay) (q : KvSeq) : Instr → Bool
  | .kvxl _ _ m _ _ layer => m != .look || decide (layer.toNat < l.layers)
  | .kvapp _ _ x =>
    let last := q.clen + x.off.toNat + (if b.btag = 0 then x.nM1.toNat else 0) - (if b.btag = 0 then 0 else 1)
    decide (x.layer.toNat < l.layers) && decide (q.state = (if b.btag = 0 then 0 else 1)) &&
      ((decide (b.btag ≠ 0) && !x.inplace) || decide (last < q.tail.start + q.tail.cap))
  | .kvatt _ _ a => decide (a.layer.toNat < l.layers) && decide (a.head.toNat < l.heads) && (!a.tree || decide (q.state = 1))
  | .kvckpt .. | .kvsq .. => true
  | .kvcmt _ _ x =>
    decide (q.state = (if x.k ≠ 0 ∨ x.adv = 0 then 1 else 0)) && decide (x.ckver.toNat = q.tver) &&
      (decide (x.k.toNat + x.adv.toNat = 0) ||
        decide (q.clen + x.k.toNat + x.adv.toNat ≤ q.tail.start + q.tail.cap))
  | .kvscore _ _ _ first n _ => decide (first.toNat + n.toNat + 1 ≤ q.clen)
  | .kvtopk _ _ _ _ hi _ _ => decide (hi.toNat ≤ q.clen)
  | .kvcompact _ _ _ n _ => decide (q.state = 0) && decide (n.toNat ≤ q.clen)
  | _ => true

/-! ### Operand buffers -/

/-- Where a command stands at its first start: the layer and slot that it names; the first slot of an append is known once its record is
(R356, R420). -/
def kvFirstAt (x : EngEntry) (clen : Option Nat) : Instr → KvAt
  | .kvxl _ _ _ _ slot layer => ⟨layer.toNat, slot.toNat, x.btag⟩
  | .kvapp _ _ a => ⟨a.layer.toNat,
      if x.btag ≠ 0 ∧ !a.inplace then (x.btag - 1) % 16
      else (clen.map fun c => c + a.off.toNat - (if x.btag = 0 then 0 else 1)).getD 0, x.btag⟩
  | .kvatt _ _ a => ⟨a.layer.toNat, 0, x.btag⟩
  | .kvscore _ _ _ first _ _ => ⟨0, first.toNat, x.btag⟩
  | _ => ⟨0, 0, x.btag⟩

/-- The operand buffers that a command reads at its first start, one after another (R353, R357). -/
def kvOperands (s : State) (x : EngEntry) (p : KvAt) (l : KvLay) (q : KvSeq) (i : Instr) : KvRes (List Byte) :=
  let two (va n vb m : Nat) : KvRes (List Byte) :=
    (kvOnce s x p va n).bind fun s x a => (kvOnce s x p vb m).bind fun s x b => .ok s x (a ++ b)
  match i with
  | .kvapp _ _ a =>
    let n := 2 * l.heads * l.dim * (a.nM1.toNat + 1)
    two a.ksrc.toNat n a.vsrc.toNat n
  | .kvatt _ _ a =>
    let n := 2 * l.dim * kvRowCount a
    if a.tree then two a.mask.toNat 592 a.qaddr.toNat n else kvOnce s x p a.qaddr.toNat n
  | .kvmask _ pa n _ => kvOnce s x p pa.toNat (n.toNat + 1)
  | .kvcmt _ _ a =>
    if a.k = 0 then .ok s x []
    else (kvOnce s x p a.path.toNat a.k.toNat).bind fun s x path =>
      (kvOnce s x p a.parents.toNat ((path.map BitVec.toNat).foldl max 0 + 1)).bind fun s x par => .ok s x (path ++ par)
  | .kvscore _ _ _ _ n src => kvOnce s x p src.toNat (4 * (n.toNat + 1))
  | .kvtopk _ _ _ lo hi _ _ => kvOnce s x p (q.score + 4 * lo.toNat) (4 * (hi.toNat - lo.toNat))
  | .kvcompact _ _ _ n list => kvOnce s x p list.toNat (4 * n.toNat)
  | _ => .ok s x []

/-! ### Plans -/

/-- The tail node's blocks that hold slots CLEN to CLEN + 7, as the places of their entries and a slot (R365). -/
def tailEntries (q : KvSeq) (layer : Nat) : List (Nat × Nat) :=
  let l := (List.range 8).filterMap fun j =>
    if q.tail.start + q.tail.cap ≤ q.clen + j then none else (q.slot (q.clen + j) layer).map fun k => (k.entry, q.clen + j)
  l.foldr (fun p r => p :: r.filter fun y => y.1 ≠ p.1) []

/-- The steps that examine every frame which may hold provisional entries (R365). -/
def clearSteps (e : KvEnv) (tags : W64) : List KvStep :=
  (List.range e.lay.layers).flatMap fun layer =>
    (tailEntries e.q layer).map (fun p => KvStep.clear layer p.1 p.2 false tags) ++
      (List.range 4).map fun i => KvStep.clear layer (e.q.sid + 8 * (4 * layer + i)) (16 * i) true tags

/-- A 32-bit field of the record. -/
def word32 (off v : Nat) : Nat × List Byte := (off, toBytes 4 v)

/-- The record's new state. -/
def stateField (v : Nat) : Nat × List Byte := (4, toBytes 1 v)

/-- Whether a path of nodes is that of the parent array (R366). -/
def pathMatches (par : List Byte) : Nat → List Nat → Bool
  | _, [] => true
  | parent, n :: r => decide ((par.getD n 0).toNat = parent) && pathMatches par n r

/-- Steps of KVCMT (R366). -/
def commitSteps (e : KvEnv) (a : KvCmtArgs) : Option (List KvStep) :=
  let k := a.k.toNat
  let path := (e.opnd.take k).map BitVec.toNat
  if !path.all (fun n => decide (n < 64)) || !pathMatches (e.opnd.drop k) 0xFF path then none
  else
    let layers := List.range e.lay.layers
    let check := layers.flatMap fun l =>
      (path.zipIdx.map fun p => KvStep.checkNode l p.2 p.1) ++ (List.range a.adv.toNat).map fun j => KvStep.checkStaged l j
    let run := layers.flatMap fun l =>
      (path.zipIdx.map fun p => KvStep.commitNode l p.2 p.1) ++ (List.range a.adv.toNat).map fun j => KvStep.commitStaged l j
    let kept : W64 := path.foldl (fun m n => m ||| .ofNat 64 (2 ^ n)) 0
    let q := e.q
    let clen := q.clen + k + a.adv.toNat
    some (check ++ run ++ clearSteps e (BitVec.allOnes 64) ++
      [.record (some (~~~kept)) [stateField 0, word32 0x18 clen, word32 0x1C (q.pcnt + k + a.adv.toNat)]])

/-- Values strictly rising from a bound. -/
def rising : Nat → List Nat → Bool
  | _, [] => true
  | lo, x :: r => decide (lo ≤ x) && rising (x + 1) r

/-- Words of 4 bytes as numbers. -/
def codes32 (n : Nat) (bs : List Byte) : List Nat := codesOf 4 n bs

/-- Steps of KVCOMPACT (R369). -/
def compactSteps (e : KvEnv) (n : Nat) : Option (List KvStep) :=
  let list := codes32 n e.opnd
  let q := e.q
  let start := q.tail.start
  if !rising 0 list || !list.all (fun s => decide (s < q.clen)) || list.take start ≠ List.range start then none
  else
    let moves := (list.zipIdx.filter fun p => p.1 ≠ p.2).flatMap fun p =>
      ((List.range e.lay.layers).map fun l => KvStep.move l p.2 p.1) ++ [KvStep.moveScore p.2 (some p.1)]
    let zeros := (List.range (q.clen - n)).map fun i => KvStep.moveScore (n + i) none
    let frames := (List.range e.lay.layers).flatMap fun l => (List.range q.tail.nbpl).map fun b => KvStep.rewrite l b n
    some (moves ++ zeros ++ frames ++ [.record none [word32 0x18 n]])

/-- The bits ANC of a row of a mask object (R360). -/
def ancOf (mask : List Byte) (r : Nat) : Nat := field mask (8 + 8 * r) 8
/-- The depth of a node in a mask object (R360). -/
def depthOf (mask : List Byte) (n : Nat) : Nat := field mask (0x208 + n) 1

/-- Slots grouped by block: each group is the slots below a limit that one block holds (R361). -/
def blockGroups (q : KvSeq) (layer : Nat) : List Nat → List (List Nat)
  | [] => []
  | i :: r =>
    match blockGroups q layer r with
    | [] => [[i]]
    | g :: gs =>
      if (q.slot i layer).map KvSlot.entry = (q.slot (g.headD 0) layer).map KvSlot.entry then (i :: g) :: gs
      else [i] :: g :: gs

/-- Steps of KVATT (R361 to R363). -/
def attendSteps (e : KvEnv) (a : KvAttArgs) : Option (List KvStep) :=
  let rows := a.rM1.toNat + 1
  let layer := a.layer.toNat
  let most := (List.range rows).foldl (fun m r => max m (kvStaged a r)) 0
  let slots := List.range (e.q.clen + most)
  if slots.any (fun i => (e.q.slot i layer).isNone) || (a.tree && field e.opnd 0 1 != rows) then none
  else
    let groups := blockGroups e.q layer slots
    let seen := (List.range 64).filter fun n => a.tree && decide (n < rows) &&
      (List.range rows).any fun r => maskBit (ancOf e.opnd r) n
    let trees := if a.tree then [KvStep.tree seen] else []
    let adds := if a.score then slots.map KvStep.addScore else []
    some (groups.map .checkBlock ++ seen.map .checkEntry ++ groups.map .block ++ trees ++
      (List.range (kvRowCount a)).map .output ++ adds)

/-- The steps of a command; none ends it at its start with cause 0x11. -/
def kvPlan (x : EngEntry) (e : KvEnv) : Instr → Option (List KvStep)
  | .kvxl _ _ m _ slot layer =>
    match m with
    | .look => some [.look layer.toNat slot.toNat]
    | .attach => some ((List.range (e.q.nodes.length - 1)).map fun k => .attach k true)
    | .detach => some ((List.range (e.q.nodes.length - 1)).map fun k => .attach k false)
  | .kvapp _ _ a => some ((List.range (if x.btag = 0 then a.nM1.toNat + 1 else 1)).map .append)
  | .kvatt _ _ a => attendSteps e a
  | .kvmask .. => some [.mask]
  | .kvckpt _ _ _ =>
    let tver := (e.q.tver + 1) % 2 ^ 32
    let new := [stateField 1, word32 0x14 tver, word32 0x20 e.q.clen, word32 0x24 tver]
    some (if e.q.state = 1 then clearSteps e (BitVec.allOnes 64) ++ [.record (some (BitVec.allOnes 64)) new]
      else [.record none new])
  | .kvcmt _ _ a => commitSteps e a
  | .kvsq _ _ all _ nmask =>
    some (if all then clearSteps e (BitVec.allOnes 64) ++ [.record (some (BitVec.allOnes 64)) [stateField 0]]
      else clearSteps e nmask ++ [.record (some nmask) []])
  | .kvscore _ _ _ first n _ =>
    some ((codes32 (n.toNat + 1) e.opnd).zipIdx.map fun p => .score (first.toNat + p.2) p.1)
  | .kvtopk .. => some [.topk]
  | .kvcompact _ _ _ n _ => compactSteps e n.toNat
  | _ => none

/-! ### KVXL -/

/-- The walk of a slot as the word of R358. -/
def lookStep (s : State) (x : EngEntry) (e : KvEnv) (layer slot : Nat) : KvRes Unit :=
  let p : KvAt := ⟨layer, slot, 0⟩
  match e.q.slot slot layer with
  | none => .ok s { x with follow := [.ofNat 64 (2 ^ 63)] } ()
  | some k =>
    (kvRead s x p k.entry 8).bind fun s x bs =>
      let w := ofBytes bs
      let base := k.sub * 2 ^ 56 + bitsOf w 47 12 * 4096
      if bitsOf w 63 63 = 0 ∨ bitsOf w 62 62 = 1 then .ok s { x with follow := [.ofNat 64 (2 ^ 62 + base)] } ()
      else if bitsOf w 61 48 ≠ 0 ∨ bitsOf w 11 0 ≠ 0 then kvFail s x p 0x11 k.entry
      else (kvHeader s x p (bitsOf w 47 12 * 4096)).bind fun s x h =>
        let st := if maskBit h.pmask k.sub then 3 else if maskBit h.vmask k.sub then 2 else if maskBit h.smask k.sub then 1 else 0
        .ok s { x with follow := [.ofNat 64 (st * 2 ^ 60 + base)] } ()

/-- The pages of a range. -/
def pagesIn (va n : Nat) : List Nat := (List.range ((va + n - 1) / 65536 - va / 65536 + 1)).map fun i => (va / 65536 + i) * 65536

/-- The frames that a node's block table names. -/
def nodeFrames (s : State) (x : EngEntry) : List (KvAt × Nat) → KvRes (List Nat)
  | [] => .ok s x []
  | (p, a) :: r => (kvEntry s x p a).bind fun s x f => (nodeFrames s x r).bind fun s x l => .ok s x (f :: l)

/-- Table entries of a node, with their layer and slot. -/
def nodeEntries (e : KvEnv) (n : KvNode) : List (KvAt × Nat) :=
  (List.range e.lay.layers).flatMap fun l => (List.range n.nbpl).map fun b =>
    (⟨l, n.start + 16 * b, 0⟩, n.btab + 8 * (l * n.nbpl + b))

/-- One leaf of the pages listed in `stage` is raised or lowered; a page marked 1 is a leaf under collection (R320, R321). -/
def attachLeaves (s : State) (x : EngEntry) (p : KvAt) (up : Bool) : Nat → KvRes Unit
  | 0 => .wait s x
  | fuel + 1 =>
    match x.stage.find? fun e => e.2 = 0 with
    | none => if x.stage.any fun e => collecting s e.1 then .wait s x else .ok s { x with stage := [] } ()
    | some (va, _) =>
      let asid := (s.row s.cur).asid
      match if up then raiseLeaf s asid va else lowerLeaf s asid va with
      | .wait => .wait s x
      | .fault c => .stop s x (decide (c = 0x06)) c va p
      | .done s' next c =>
        let x' := { x with stage := (x.stage.filter fun e => !(decide (e.2 = 0) && decide (va ≤ e.1) && decide (e.1 < next))) ++
          (c.toList.map fun pa => (pa, 1)) }
        attachLeaves s' x' p up fuel

/-- REFS of a node changes at its home, also on a page that the node's sharing has frozen, and its pages are listed when it becomes shared, or
is no longer (R323, R358; log entry 56). -/
def attachStep (s : State) (x : EngEntry) (e : KvEnv) (k : Nat) (up : Bool) : KvRes Unit :=
  let n := e.q.nodes.getD k e.q.tail
  let p : KvAt := ⟨0, n.start, 0⟩
  if x.sub = 1 then
    (attachLeaves s x p up (x.stage.length + 2)).bind fun s x _ => .ok s { x with sub := 0 } ()
  else
    (kvRead s x p n.addr 64).bind fun s x bs =>
      let refs := field bs 4 2
      let new := if up then (refs + 1) % 65536 else (refs + 65535) % 65536
      let shares := if up then decide (new = 2) else decide (new = 1)
      let set (s : State) : State := match translate s s.cur .read true (n.addr + 4) 2 1 with
        | .ok l => segHomeWrite s s.cur l (toBytes 2 new)
        | .bad _ _ | .miss _ => s
      if !shares then .ok (set s) x ()
      else (nodeFrames s x (nodeEntries e n)).bind fun s x fs =>
        let pages := pagesIn n.addr 64 ++ pagesIn n.btab (8 * e.lay.layers * n.nbpl) ++ fs.flatMap fun f => pagesIn f e.lay.frame
        let x := { x with sub := 1, stage := pages.eraseDups.map fun a => (a, 0) }
        (attachLeaves (set s) x p up (x.stage.length + 2)).bind fun s x _ => .ok s { x with sub := 0 } ()

/-! ### KVAPP -/

/-- Row `j` of the source keys (`kv` = 0) or values, as stored codes (R359). -/
def appendCodes (e : KvEnv) (n kv j : Nat) (scales : List Nat) : List Nat :=
  let per := e.lay.heads * e.lay.dim
  let bs := (e.opnd.drop (2 * per * (kv * n + j))).take (2 * per)
  (codesOf 2 per bs).zipIdx.map fun c => quantize e.lay (scales.getD (16 * kv + c.2 / e.lay.dim) 0) c.1

/-- Position `j` of an append (R359). -/
def appendStep (s : State) (x : EngEntry) (e : KvEnv) (a : KvAppArgs) (j : Nat) : KvRes Unit :=
  let tag := x.btag
  let q := e.q
  let t := if tag = 0 then q.clen + a.off.toNat + j else q.clen + a.off.toNat - 1
  let node := tag - 1
  let siding := decide (tag ≠ 0) && !a.inplace
  let p : KvAt := ⟨a.layer.toNat, if siding then node % 16 else t, tag⟩
  let place : Option KvSlot :=
    if siding then some ⟨q.sid + 8 * (4 * p.layer + node / 16), 0, node % 16⟩ else q.slot t p.layer
  match place with
  | none => kvFail s x p 0x11 0
  | some k =>
    (kvEntry s x p k.entry).bind fun s x f =>
      (kvHeader s x p f).bind fun s x h =>
        if a.inplace && maskBit h.pmask k.sub && decide (h.tags.getD k.sub 0 ≠ tag) then kvFail s x p 0x11 0
        else (tableScales s x p e.lay q).bind fun s x sc =>
          (kvTouch s x p e.lay q f (if siding then 2 else 1) k.base).bind fun s x h =>
            let n := a.nM1.toNat + 1
            let s := kvPutEntry s e.lay f k.sub (appendCodes e n 0 j sc) (appendCodes e n 1 j sc)
            let h := if tag = 0 then { h with smask := maskSet h.smask k.sub true }
              else { h with pmask := maskSet h.pmask k.sub true, tags := h.tags.set k.sub tag }
            let s := kvPutHeader s f h
            kvPutPosition s x p f k.sub ((q.pcnt + t - q.clen) % 2 ^ 32)

/-! ### KVMASK -/

/-- ANC and DEPTH of the nodes of a parent array (R360). -/
def maskRows : List Nat → List (Nat × Nat) → Option (List (Nat × Nat))
  | [], acc => some acc
  | p :: r, acc =>
    let i := acc.length
    let row := if p = 0xFF then some (2 ^ i, 1) else if p < i then
      let a := acc.getD p (0, 0)
      some (a.1 ||| 2 ^ i, a.2 + 1) else none
    match row with
    | none => none
    | some (a, d) => if 8 < d then none else maskRows r (acc ++ [(a, d)])

/-- The greatest depth. -/
def maxDepth (l : List (Nat × Nat)) : Nat := l.foldl (fun m r => max m r.2) 0

/-- The mask object of 592 bytes (R360). -/
def maskObject (l : List (Nat × Nat)) : List Byte :=
  let pad (n : Nat) (bs : List Byte) : List Byte := bs ++ List.replicate (n - bs.length) 0
  pad 592 (pad 0x208 (pad 8 [.ofNat 8 l.length, .ofNat 8 (maxDepth l)] ++ l.flatMap fun r => toBytes 8 r.1) ++
    l.map fun r => .ofNat 8 r.2)

/-- The rows that a KVMASK's parents give. -/
def maskOf (opnd : List Byte) : Option (List (Nat × Nat)) := maskRows (opnd.map BitVec.toNat) []

/-! ### Squash, record and commit -/

/-- The header with the provisional slots of the tags cleared (R365). -/
def clearTags (h : KvHdr) (tags : W64) : KvHdr :=
  (List.range 16).foldl (fun h i =>
    let t := h.tags.getD i 0
    if t ≠ 0 ∧ tags.getLsbD (t - 1) then { h with pmask := maskSet h.pmask i false, tags := h.tags.set i 0 } else h) h

/-- One frame of a squash (R365). -/
def clearStep (s : State) (x : EngEntry) (e : KvEnv) (layer entry slot : Nat) (siding : Bool) (tags : W64) : KvRes Unit :=
  let p : KvAt := ⟨layer, slot, 0⟩
  let go (s : State) (x : EngEntry) : KvRes Unit :=
    (kvEntry s x p entry).bind fun s x f =>
      (kvHeader s x p f).bind fun s x h =>
        let h' := clearTags h tags
        if h' = h then .ok s x ()
        else (kvClaim s x p false f e.lay.frame).bind fun s x _ => .ok (kvPutHeader s f { h' with tver := e.q.tver }) x ()
  if siding then
    (kvRead s x p entry 8).bind fun s x bs => if ofBytes bs = 0 then .ok s x () else go s x
  else go s x

/-- Bytes with a field replaced. -/
def putField (bs : List Byte) (f : Nat × List Byte) : List Byte := bs.take f.1 ++ f.2 ++ bs.drop (f.1 + f.2.length)

/-- The last step of the commands that write the record: the copy squash, the tail node's LEN, and the record, written once
(R353, R365, R366, R369). -/
def recordStep (s : State) (x : EngEntry) (e : KvEnv) (squash : Option W64) (fields : List (Nat × List Byte)) : KvRes Unit :=
  let p : KvAt := ⟨0, 0, 0⟩
  let s := match squash with
    | none => s
    | some tags => { squashOp s (s.row s.cur).asid (.ofNat 32 e.q.seqid) tags with cur := s.cur }
  if fields = [] then .ok s x ()
  else
    let tail (s : State) (x : EngEntry) : KvRes Unit :=
      match fields.find? fun f => f.1 = 0x18 with
      | none => .ok s x ()
      | some f => kvWrite s x p false (e.q.tail.addr + 0xC) (toBytes 4 (ofBytes f.2 - e.q.tail.start))
    (kvClaim s x p false e.q.addr 128).bind fun s x _ =>
      (tail s x).bind fun s x _ =>
        kvWrite s x p false e.q.addr (fields.foldl putField (x.kept.take 128))

/-- The frame and slot of slot `i` of a layer. -/
def slotFrame (s : State) (x : EngEntry) (e : KvEnv) (p : KvAt) (i : Nat) : KvRes (Nat × KvSlot) :=
  match e.q.slot i p.layer with
  | none => kvFail s x p 0x11 0
  | some k => (kvEntry s x p k.entry).bind fun s x f => .ok s x (f, k)

/-- The siding frame of a node (R350). -/
def sidingFrame (s : State) (x : EngEntry) (e : KvEnv) (p : KvAt) (n : Nat) : KvRes Nat :=
  kvEntry s x p (e.q.sid + 8 * (4 * p.layer + n / 16))

/-- KVCMT's check of a node of the path (R366). -/
def checkNodeStep (s : State) (x : EngEntry) (e : KvEnv) (layer j n : Nat) : KvRes Unit :=
  let p : KvAt := ⟨layer, e.q.clen + j, n + 1⟩
  (slotFrame s x e p (e.q.clen + j)).bind fun s x t =>
    (kvHeader s x p t.1).bind fun s x h =>
      if h.holds t.2.sub (n + 1) then .ok s x ()
      else (sidingFrame s x e p n).bind fun s x f =>
        (kvHeader s x p f).bind fun s x h => if h.holds (n % 16) (n + 1) then .ok s x () else kvFail s x p 0x11 0

/-- KVCMT's check of a staged slot. -/
def checkStagedStep (s : State) (x : EngEntry) (e : KvEnv) (layer j : Nat) : KvRes Unit :=
  let p : KvAt := ⟨layer, e.q.clen + j, 0⟩
  (slotFrame s x e p (e.q.clen + j)).bind fun s x t =>
    (kvHeader s x p t.1).bind fun s x h => if maskBit h.smask t.2.sub then .ok s x () else kvFail s x p 0x11 0

/-- KVCMT writes a node's entry as a committed slot, without requantising it: what it reads is read before the first write (R366). -/
def commitNodeStep (s : State) (x : EngEntry) (e : KvEnv) (layer j n : Nat) : KvRes Unit :=
  let p : KvAt := ⟨layer, e.q.clen + j, n + 1⟩
  let done (s : State) (x : EngEntry) (f : Nat) (k : KvSlot) (h : KvHdr) (pos : List Byte) : KvRes Unit :=
    let h := { h with
      pmask := maskSet h.pmask k.sub false
      vmask := maskSet h.vmask k.sub true
      tags := h.tags.set k.sub 0 }
    .ok (kvPutPositions (kvPutHeader s f h) f k.sub pos ((e.q.pcnt + j) % 2 ^ 32)) x ()
  (slotFrame s x e p (e.q.clen + j)).bind fun s x t =>
    (kvTouch s x p e.lay e.q t.1 1 t.2.base).bind fun s x h =>
      (kvCopies s x p t.1 6 7).bind fun s x pos =>
        if h.holds t.2.sub (n + 1) then done s x t.1 t.2 h pos
        else (sidingFrame s x e p n).bind fun s x f =>
          (kvHeader s x p f).bind fun s x g =>
            if !g.holds (n % 16) (n + 1) then kvFail s x p 0x11 0
            else (kvGetEntry s x p e.lay f (n % 16)).bind fun s x c =>
              done (kvPutEntry s e.lay t.1 t.2.sub c.1 c.2) x t.1 t.2 h pos

/-- KVCMT commits a staged slot (R366). -/
def commitStagedStep (s : State) (x : EngEntry) (e : KvEnv) (layer j : Nat) : KvRes Unit :=
  let p : KvAt := ⟨layer, e.q.clen + j, 0⟩
  (slotFrame s x e p (e.q.clen + j)).bind fun s x t =>
    (kvTouch s x p e.lay e.q t.1 1 t.2.base).bind fun s x h =>
      .ok (kvPutHeader s t.1 { h with smask := maskSet h.smask t.2.sub false, vmask := maskSet h.vmask t.2.sub true }) x ()

/-! ### Eviction -/

/-- KVSCORE's addition into one slot (R367). -/
def scoreStep (s : State) (x : EngEntry) (e : KvEnv) (i v : Nat) : KvRes Unit :=
  let p : KvAt := ⟨0, i, 0⟩
  (kvRead s x p (e.q.score + 4 * i) 4).bind fun s x bs =>
    kvWrite s x p false (e.q.score + 4 * i) (toBytes 4 (addF32 .rne (ofBytes bs) v))

/-- Whether slot `a` ranks before slot `b`, by their scores (R368). -/
def ranksBefore (a b : Nat × Nat) : Bool :=
  let u := decodeElem .f32 a.1
  let v := decodeElem .f32 b.1
  match u.isNan, v.isNan with
  | true, true => decide (a.2 < b.2)
  | true, false => false
  | false, true => true
  | false, false => if v.lt u then true else if u.lt v then false else decide (a.2 < b.2)

/-- The slots that KVTOPK selects, in increasing order (R368). -/
def topSlots (lo hi k : Nat) (scores : List Byte) : List Nat :=
  let all := (codes32 (hi - lo) scores).zipIdx
  let rank (a : Nat × Nat) : Nat := (all.filter fun b => ranksBefore b a).length
  (all.filter fun a => decide (rank a < k)).map fun a => lo + a.2

/-- KVCOMPACT moves an entry, its position and its VMASK bit (R369). -/
def moveStep (s : State) (x : EngEntry) (e : KvEnv) (layer i from_ : Nat) : KvRes Unit :=
  let ps : KvAt := ⟨layer, from_, 0⟩
  let pd : KvAt := ⟨layer, i, 0⟩
  (slotFrame s x e ps from_).bind fun s x a =>
    (kvHeader s x ps a.1).bind fun s x ha =>
      (kvGetEntry s x ps e.lay a.1 a.2.sub).bind fun s x c =>
        (kvPosition s x ps a.1 a.2.sub).bind fun s x pos =>
          (slotFrame s x e pd i).bind fun s x b =>
            (kvTouch s x pd e.lay e.q b.1 1 b.2.base).bind fun s x hb =>
              let s := kvPutEntry s e.lay b.1 b.2.sub c.1 c.2
              let s := kvPutHeader s b.1 { hb with vmask := maskSet hb.vmask b.2.sub (maskBit ha.vmask a.2.sub) }
              kvPutPosition s x pd b.1 b.2.sub pos

/-- KVCOMPACT moves a score, or clears it (R369). -/
def moveScoreStep (s : State) (x : EngEntry) (e : KvEnv) (i : Nat) (from_ : Option Nat) : KvRes Unit :=
  let p : KvAt := ⟨0, i, 0⟩
  match from_ with
  | none => kvWrite s x p false (e.q.score + 4 * i) (toBytes 4 0)
  | some j => (kvRead s x p (e.q.score + 4 * j) 4).bind fun s x bs => kvWrite s x p false (e.q.score + 4 * i) bs

/-- KVCOMPACT rewrites a frame of the tail node (R369). -/
def rewriteStep (s : State) (x : EngEntry) (e : KvEnv) (layer b n : Nat) : KvRes Unit :=
  let t := e.q.tail
  let base := t.start + 16 * b
  let p : KvAt := ⟨layer, base, 0⟩
  (kvEntry s x p (t.btab + 8 * (layer * t.nbpl + b))).bind fun s x f =>
    (kvTouch s x p e.lay e.q f 1 base).bind fun s x h =>
      .ok (kvPutHeader s f { h with
        vmask := h.vmask % 2 ^ (n - base), smask := 0, pmask := 0, tags := List.replicate 16 0 }) x ()

/-! ### KVATT (R361 to R363) -/

/-- A visible slot or node with its keys and values of the head, decoded. -/
structure KvKey where
  id : Nat
  k  : List XVal
  v  : List XVal
  deriving DecidableEq, Repr

/-- Keys and values of a head at a slot of a frame, each with the scale that stands on it (R362). -/
def kvKey (s : State) (x : EngEntry) (p : KvAt) (l : KvLay) (h f sub id : Nat) : KvRes KvKey :=
  (kvScales s x p f).bind fun s x sc =>
    (kvCodes s x p l f (l.elemOf 0 sub h) l.dim).bind fun s x ks =>
      (kvCodes s x p l f (l.elemOf 1 sub h) l.dim).bind fun s x vs =>
        let on (i : Nat) (c : Nat) : XVal :=
          if l.fmt = .bf16 then decodeElem .bf16 c else (decodeElem l.fmt c).mul (decodeElem .f32 (sc.getD i 0))
        .ok s x ⟨id, ks.map (on h), vs.map (on (16 + h))⟩

/-- Keys of several places: frame, slot within it, name and where it stands. -/
def kvKeys (s : State) (x : EngEntry) (l : KvLay) (h : Nat) : List (KvAt × Nat × Nat × Nat) → KvRes (List KvKey)
  | [] => .ok s x []
  | (p, f, sub, id) :: r =>
    (kvKey s x p l h f sub id).bind fun s x k => (kvKeys s x l h r).bind fun s x ks => .ok s x (k :: ks)

/-- The chunks of 32 products of a query and a key (R362). -/
def dotChunks : Nat → List XVal → List XVal → Nat → Nat
  | 0, _, _, acc => acc
  | fuel + 1, q, k, acc =>
    if q = [] then acc
    else
      let terms := ((q.take 32).zip (k.take 32)).map fun p => p.1.mul p.2
      dotChunks fuel (q.drop 32) (k.drop 32) (addF32 .rne acc (chunkSum terms))

/-- A score s[j] (R362). -/
def scoreOf (scale : Nat) (q : List XVal) (k : KvKey) : Nat :=
  toF32 ((decodeElem .f32 (dotChunks (q.length / 32 + 1) q k.k 0)).mul (decodeElem .f32 scale))

/-- A row before its first block. -/
def KvRow.start (dim : Nat) : KvRow := ⟨0xFF800000, 0, List.replicate dim 0⟩

/-- Whether a row has met a score that is NaN or +inf; l then holds the NaN (R362). -/
def KvRow.isBad (r : KvRow) : Bool := (decodeElem .f32 r.l.toNat).isNan

/-- The exponential of a difference of two f32 codes. -/
def expDiff (a b : Nat) : Nat := exp2f ((decodeElem .f32 a).add .rne (decodeElem .f32 b).neg)

/-- One row over one block with its visible keys (R362, R363). -/
def rowBlock (scale : Nat) (q : List XVal) (ks : List KvKey) (r : KvRow) : KvRow :=
  if ks = [] || r.isBad then r
  else
    let ss := ks.map (scoreOf scale q)
    if ss.any (fun c => let v := decodeElem .f32 c; v.isNan || v == .inf false) then { r with l := 0x7FC00000 }
    else
      let m2 := toF32 (maxX (decodeElem .f32 r.m.toNat :: ss.map (decodeElem .f32)))
      let a := expDiff r.m.toNat m2
      let es := ss.map fun c => expDiff c m2
      let l := es.foldl (fun t c => addF32 .rne t c) (mulF32 r.l.toNat a)
      let ps := es.map fun c => decodeElem .bf16 (roundElem .bf16 Mode.rne (decodeElem .f32 c))
      let o := r.o.zipIdx.map fun y =>
        let c := chunkSum ((ps.zip ks).map fun z => z.1.mul (z.2.v.getD y.2 XVal.zero))
        BitVec.ofNat 32 (addF32 .rne (mulF32 y.1.toNat a) c)
      ⟨.ofNat 32 m2, .ofNat 32 l, o⟩

/-- The operands of a KVATT after its mask. -/
def attQ (e : KvEnv) (a : KvAttArgs) : List Byte := if a.tree then e.opnd.drop 592 else e.opnd

/-- Query row `i` = r × G + g. -/
def queryRow (e : KvEnv) (a : KvAttArgs) (i : Nat) : List XVal :=
  (codesOf 2 e.lay.dim ((attQ e a).drop (2 * e.lay.dim * i))).map (decodeElem .bf16)

/-- Whether main-line slot `j` is visible to query row `i` (R361). -/
def seesSlot (e : KvEnv) (a : KvAttArgs) (i j : Nat) : Bool :=
  decide (j < e.q.clen + kvStaged a (i / (a.gM1.toNat + 1)))

/-- Whether tree node `n` is visible to query row `i` (R361). -/
def seesNode (e : KvEnv) (a : KvAttArgs) (i n : Nat) : Bool := maskBit (ancOf e.opnd (i / (a.gM1.toNat + 1))) n

/-- Every row over one block. -/
def attendBlock (x : EngEntry) (e : KvEnv) (a : KvAttArgs) (sees : Nat → Nat → Bool) (ks : List KvKey) : EngEntry :=
  { x with rows := x.rows.zipIdx.map fun r =>
      rowBlock a.scale.toNat (queryRow e a r.2) (ks.filter fun k => sees r.2 k.id) r.1 }

/-- The frame that holds the slots of a main-line block. -/
def blockFrame (s : State) (x : EngEntry) (e : KvEnv) (layer : Nat) (slots : List Nat) : KvRes Nat :=
  let p : KvAt := ⟨layer, slots.headD 0, 0⟩
  (slotFrame s x e p (slots.headD 0)).bind fun s x t => .ok s x t.1

/-- The slot within its block. -/
def subOf (e : KvEnv) (layer i : Nat) : Nat := ((e.q.slot i layer).map KvSlot.sub).getD 0

/-- KVATT's start check of a block: committed slots have their VMASK bit and staged ones their SMASK bit (R361). -/
def checkBlockStep (s : State) (x : EngEntry) (e : KvEnv) (layer : Nat) (slots : List Nat) : KvRes Unit :=
  let p : KvAt := ⟨layer, slots.headD 0, 0⟩
  (blockFrame s x e layer slots).bind fun s x f =>
    (kvHeader s x p f).bind fun s x h =>
      match slots.find? fun i => !maskBit (if i < e.q.clen then h.vmask else h.smask) (subOf e layer i) with
      | some i => kvFail s x { p with slot := i } 0x11 0
      | none => .ok s x ()

/-- The frame and slot of a tree node's entry, in place or on its siding (R350). -/
def nodePlace (s : State) (x : EngEntry) (e : KvEnv) (layer n : Nat) : KvRes (Nat × Nat) :=
  let i := e.q.clen + depthOf e.opnd n - 1
  let p : KvAt := ⟨layer, i, n + 1⟩
  let side (s : State) (x : EngEntry) : KvRes (Nat × Nat) :=
    let p : KvAt := ⟨layer, n % 16, n + 1⟩
    (sidingFrame s x e p n).bind fun s x f =>
      (kvHeader s x p f).bind fun s x h => if h.holds (n % 16) (n + 1) then .ok s x (f, n % 16) else kvFail s x p 0x11 0
  match e.q.slot i layer with
  | none => side s x
  | some k =>
    (kvEntry s x p k.entry).bind fun s x f =>
      (kvHeader s x p f).bind fun s x h => if h.holds k.sub (n + 1) then .ok s x (f, k.sub) else side s x

/-- The places of tree nodes. -/
def nodePlaces (s : State) (x : EngEntry) (e : KvEnv) (layer : Nat) : List Nat → KvRes (List (KvAt × Nat × Nat × Nat))
  | [] => .ok s x []
  | n :: r =>
    (nodePlace s x e layer n).bind fun s x t =>
      (nodePlaces s x e layer r).bind fun s x l => .ok s x ((⟨layer, t.2, n + 1⟩, t.1, t.2, n) :: l)

/-- Keys of the slots of a main-line block. -/
def blockKeys (s : State) (x : EngEntry) (e : KvEnv) (a : KvAttArgs) (slots : List Nat) : KvRes (List KvKey) :=
  let layer := a.layer.toNat
  (blockFrame s x e layer slots).bind fun s x f =>
    kvKeys s x e.lay a.head.toNat (slots.map fun i => (⟨layer, i, 0⟩, f, subOf e layer i, i))

/-- Whether a query row sees no slot and no node. -/
def seesNothing (e : KvEnv) (a : KvAttArgs) (i : Nat) : Bool :=
  !seesSlot e a i 0 && !(a.tree && (List.range (a.rM1.toNat + 1)).any (seesNode e a i))

/-- The output of a query row is written (R362). -/
def outputStep (s : State) (x : EngEntry) (e : KvEnv) (a : KvAttArgs) (i : Nat) : KvRes Unit :=
  let r := x.rows.getD i (KvRow.start e.lay.dim)
  let out := if seesNothing e a i then r.o.map fun _ => 0
    else if r.isBad then r.o.map fun _ => 0x7FC00000
    else r.o.map fun c => divF32 c.toNat r.l.toNat
  let x := if seesNothing e a i then kvFlag x kvEmpty else x
  kvWrite s x ⟨a.layer.toNat, 0, 0⟩ true (a.oaddr.toNat + 4 * e.lay.dim * i) (out.flatMap (toBytes 4))

/-- The scores of a slot: what every row that sees it adds, in increasing row order (R362). -/
def addScoreStep (s : State) (x : EngEntry) (e : KvEnv) (a : KvAttArgs) (j : Nat) : KvRes Unit :=
  let p : KvAt := ⟨a.layer.toNat, j, 0⟩
  (blockKeys s x e a [j]).bind fun s x ks =>
    (kvRead s x p (e.q.score + 4 * j) 4).bind fun s x bs =>
      let add (t : Nat) (r : KvRow × Nat) : Nat :=
        if !seesSlot e a r.2 j then t
        else
          let w := if r.1.isBad then 0x7FC00000
            else divF32 (expDiff (scoreOf a.scale.toNat (queryRow e a r.2) (ks.headD ⟨0, [], []⟩)) r.1.m.toNat) r.1.l.toNat
          addF32 .rne t w
      kvWrite s x p false (e.q.score + 4 * j) (toBytes 4 (x.rows.zipIdx.foldl add (ofBytes bs)))

/-! ### Running a command -/

/-- The arguments of KVATT and KVAPP, or zeros. -/
def attArgs : Instr → KvAttArgs
  | .kvatt _ _ a => a
  | _ => ⟨false, false, false, 0, 0, 0, 0, 0, 0, 0, 0, 0, 0⟩
/-- The arguments of KVAPP, or zeros. -/
def appArgs : Instr → KvAppArgs
  | .kvapp _ _ a => a
  | _ => ⟨false, 0, 0, 0, 0, 0, 0⟩

/-- One step of a command. -/
def kvStep (s : State) (x : EngEntry) (e : KvEnv) (i : Instr) (k : KvStep) : KvRes Unit :=
  let a := attArgs i
  match k with
  | .look l t => lookStep s x e l t
  | .attach n up => attachStep s x e n up
  | .append j => appendStep s x e (appArgs i) j
  | .mask => match i, maskOf e.opnd with
    | .kvmask _ _ _ out, some l => kvWrite s x ⟨0, 0, 0⟩ true out.toNat (maskObject l)
    | _, _ => kvFail s x ⟨0, 0, 0⟩ 0x11 0
  | .clear l t slot sd tags => clearStep s x e l t slot sd tags
  | .record q f => recordStep s x e q f
  | .checkNode l j n => checkNodeStep s x e l j n
  | .checkStaged l j => checkStagedStep s x e l j
  | .commitNode l j n => commitNodeStep s x e l j n
  | .commitStaged l j => commitStagedStep s x e l j
  | .score t v => scoreStep s x e t v
  | .topk => match i with
    | .kvtopk _ _ _ lo hi n out =>
      let l := topSlots lo.toNat hi.toNat n.toNat e.opnd
      if l = [] then .ok s x () else kvWrite s x ⟨0, 0, 0⟩ true out.toNat (l.flatMap (toBytes 4))
    | _ => .ok s x ()
  | .move l t j => moveStep s x e l t j
  | .moveScore t j => moveScoreStep s x e t j
  | .rewrite l b n => rewriteStep s x e l b n
  | .checkBlock l => checkBlockStep s x e a.layer.toNat l
  | .checkEntry n => (nodePlace s x e a.layer.toNat n).bind fun s x _ => .ok s x ()
  | .block l => (blockKeys s x e a l).bind fun s x ks => .ok s (attendBlock x e a (seesSlot e a) ks) ()
  | .tree ns => (nodePlaces s x e a.layer.toNat ns).bind fun s x l =>
      (kvKeys s x e.lay a.head.toNat l).bind fun s x ks => .ok s (attendBlock x e a (seesNode e a) ks) ()
  | .output r => outputStep s x e a r
  | .addScore j => addScoreStep s x e a j

/-- The steps from the entry's place on; a completed step is never taken again (R356, R363). -/
def kvSteps (e : KvEnv) (i : Instr) : List KvStep → State → EngEntry → KvRes Unit
  | [], s, x => .ok s x ()
  | k :: r, s, x => (kvStep s x e i k).bind fun s x _ => kvSteps e i r s { x with pos := x.pos + 1 }

/-- Whether a step completes a block of KVATT. -/
def KvStep.isBlock : KvStep → Bool
  | .block _ | .tree _ => true
  | _ => false

/-- VALUE of the status word (R354); `ends` says that the command completed. -/
def kvValue (x : EngEntry) (e : KvEnv) (i : Instr) (steps : List KvStep) (ends : Bool) : Nat :=
  match i with
  | .kvatt .. => ((steps.take x.pos).filter KvStep.isBlock).length
  | .kvckpt .. => if ends then (e.q.tver + 1) % 2 ^ 32 else 0
  | .kvcmt _ _ a => if ends then (e.q.clen + a.k.toNat + a.adv.toNat) % 2 ^ 32 else 0
  | .kvcompact _ _ _ n _ => if ends then n.toNat else 0
  | .kvtopk _ _ _ lo hi n _ => if ends then (topSlots lo.toNat hi.toNat n.toNat e.opnd).length else 0
  | .kvmask .. => if ends then ((maskOf e.opnd).map maxDepth).getD 0 else 0
  | _ => 0

/-- A held command keeps the tag of the entry that its fault concerns beside its flags (R354). -/
def kvHeldNode (x : EngEntry) (node : Nat) : EngEntry :=
  { x with flags := .ofNat 64 (x.flags.toNat % 2 ^ 24 + node % 256 * 2 ^ 24) }

/-- The tag that a held command keeps. -/
def kvNodeOf (x : EngEntry) : Nat := bitsOf x.flags.toNat 31 24

/-- The status word (R354). -/
def kvStatus (x : EngEntry) (value node cause : Nat) : Nat :=
  value * 2 ^ 32 + node % 256 * 2 ^ 24 + x.flags.toNat % 2 ^ 24 + statusOf x.opc cause

/-- The record of a KV fault (R356, R432). -/
def kvRecord (s : State) (x : EngEntry) (cause addr : Nat) (p : KvAt) : FaultRec :=
  { entryFault s s.cur .kv x cause addr with
    pos := 0, sub := .ofNat 32 p.slot, layer := .ofNat 8 p.layer, node := .ofNat 8 p.node }

/-- What a run of a command leaves: an end, a hold, or a wait at a home (R354, R356). -/
def kvConclude (i : Instr) (e : KvEnv) (steps : List KvStep) (r : KvRes Unit) : State :=
  let words (x : EngEntry) (st : Nat) : List W64 := x.follow ++ if x.res then [.ofNat 64 st] else []
  match r with
  | .ok s x _ =>
    let st := kvStatus x (kvValue x e i steps true) 0 0
    finishEntry s s.cur .kv x st (words x st) none
  | .wait s x => setEntry s s.cur .kv { x with state := .held }
  | .stop s x held c a p =>
    if held then holdEntry s s.cur .kv (kvHeldNode x p.node) (kvRecord s x c a p)
    else
      let st := kvStatus x (kvValue x e i steps false) p.node c
      finishEntry s s.cur .kv x st (words x st) (some (kvRecord s x c a p))

/-- The records of a path's nodes, 64 bytes each. -/
def readNodes (s : State) (x : EngEntry) (p : KvAt) : List Nat → KvRes (List Byte)
  | [] => .ok s x []
  | a :: r => (kvOnce s x p a 64).bind fun s x b => (readNodes s x p r).bind fun s x l => .ok s x (b ++ l)

/-- The layout that a command of a bank names (R21, R342). -/
def kvLayout (b : Bank) (i : Instr) : KvLay :=
  KvLay.of ((b.lays.getD (((kvNames i).map fun p => p.1.toNat).getD 0) []))

/-- What an entry of a bank keeps, as an environment. -/
def kvEnvOf (b : Bank) (x : EngEntry) (i : Instr) : KvEnv :=
  match kvNames i with
  | none => ⟨kvLayout b i, KvSeq.of 0 [], x.kept⟩
  | some (_, a) => ⟨kvLayout b i, KvSeq.of a.toNat (x.kept.take recordBytes), x.kept.drop recordBytes⟩

/-- The end of the first start: what the command has read is kept, and its steps begin. -/
def kvReady (s : State) (x : EngEntry) (kept : List Byte) (rows : List KvRow) : KvRes Unit :=
  .ok s { x with kept := kept, rows := rows, pos := 0, started := true } ()

/-- The first start: the records are read and checked, then the operands, each of them once (R353, R355, R356). -/
def kvFirst (s : State) (x : EngEntry) (i : Instr) : KvRes Unit :=
  let x := { x with pos := 0 }
  let p := kvFirstAt x none i
  let l := kvLayout s.here i
  match kvNames i with
  | none => (kvOperands s x p l (KvSeq.of 0 []) i).bind fun s x o =>
      if (maskOf o).isNone then kvFail s x p 0x11 0 else kvReady s x o []
  | some (_, a) =>
    (kvOnce s x p a.toNat 128).bind fun s x rec =>
      if field rec 0 4 ≠ 0x5153564B then kvFail s x p 0x11 0
      else (readNodes s x p (pathOf rec)).bind fun s x ns =>
        let bs := rec ++ ns ++ List.replicate (recordBytes - 128 - ns.length) 0
        let q := KvSeq.of a.toNat bs
        let p := kvFirstAt x (some q.clen) i
        if !q.sound l || !kvAllowed x l q i then kvFail s x p 0x11 0
        else (kvOperands s x p l q i).bind fun s x o =>
          let rows := match i with
            | .kvatt _ _ a => List.replicate (kvRowCount a) (KvRow.start l.dim)
            | _ => []
          if (kvPlan x ⟨l, q, o⟩ i).isNone then kvFail s x p 0x11 0 else kvReady s x (bs ++ o) rows

/-- The steps that an entry of a bank still has before it: none before its start is done. -/
def kvStepsOf (b : Bank) (x : EngEntry) (i : Instr) : List KvStep :=
  if x.started then (kvPlan x (kvEnvOf b x i) i).getD [] else []

/-- Whether a bank holds a KVCMT on a record that has begun its steps. -/
def Bank.committing (b : Bank) (seq : W64) : Bool :=
  b.kv.any fun x => x.started && decide (x.pos ≠ 0) && match x.instr .kv with
    | some (.kvcmt _ _ a) => a.seq == seq
    | _ => false

/-- The key of a preempted task's saved bank, and the bank. -/
def savedBank (s : State) (p : Preempted) : Option (Nat × Bank) :=
  match s.homeNat (p.save.toNat * 4096 + 0x4000) 8 with
  | 0 => none
  | key + 1 => (s.saves.get none key).map fun b => (key, b)

/-- The banks of an address space's tasks, those of preempted tasks among them; `but` is left out. -/
def banksOf (s : State) (asid : Asid) (but : Option Nat) : List Bank :=
  (((List.range 72).filter fun row => decide (some row ≠ but) && (s.row row).asid == asid).map fun row => s.bank row) ++
    (s.preempted.filter fun p => p.asid == asid).filterMap fun p => (savedBank s p).map Prod.snd

/-- Whether a KVCMT has to wait for another one on its record that has begun (R371). -/
def commitWaits (s : State) (a : KvCmtArgs) : Bool :=
  (banksOf s (s.row s.cur).asid (some s.cur)).any fun b => b.committing a.seq

/-- The block-table entries that a started command names, by their addresses: those of its path's nodes and of its sidings (R349, R350). -/
def Bank.kvTable (b : Bank) (x : EngEntry) : List Nat :=
  match x.instr .kv with
  | some i =>
    if !x.started || (kvNames i).isNone then []
    else
      let e := kvEnvOf b x i
      e.q.nodes.flatMap (fun n => (nodeEntries e n).map Prod.snd) ++
        if e.q.sid = 0 then [] else (List.range (4 * e.lay.layers)).map fun k => e.q.sid + 8 * k
  | none => []

/-- Whether another command has closed or lengthened a KVCMT's sequence, at the CKVER that it names, since it read the record (R371; log
entry 57). -/
def commitLost (s : State) (x : EngEntry) (a : KvCmtArgs) : Bool :=
  let new := kvPeek s a.seq.toNat 0x1C
  decide (new.length = 0x1C) && decide (field new 0x14 4 = field x.kept 0x14 4) &&
    (decide (field new 0x18 4 ≠ field x.kept 0x18 4) || decide (field new 4 1 ≠ field x.kept 4 1))

/-- The steps of an entry from its place on; of the KVCMTs on a record, the first to begin goes first (R356, R371). -/
def kvGo (s : State) (x : EngEntry) (i : Instr) : KvRes Unit :=
  let run := kvSteps (kvEnvOf s.here x i) i ((kvStepsOf s.here x i).drop x.pos) s x
  match i with
  | .kvcmt _ _ a =>
    if x.pos ≠ 0 then run
    else if commitWaits s a then .wait s x
    else if commitLost s x a then kvFail s x (kvFirstAt x none i) 0x11 0
    else run
  | _ => run

/-- Concludes a run at the place where the entry stands. -/
def kvEnd (i : Instr) (r : KvRes Unit) : State :=
  match r with
  | .ok s x _ | .wait s x | .stop s x .. => kvConclude i (kvEnvOf s.here x i) (kvStepsOf s.here x i) r

/-- A KV entry that starts or goes on (R353, R356). -/
def kvStart (s : State) (i : Instr) : State :=
  runHead s .kv i fun s x =>
    if x.started then kvEnd i (kvGo s x i)
    else if x.kept = [] ∧ !mayExecute s s.cur .kv then kvEnd i (kvFail s x (kvFirstAt x none i) 0x07 0)
    else kvEnd i ((kvFirst s x i).bind fun s x _ => kvGo s x i)

/-- KVXL (R358). -/
def execKvxl (h : CmdHdr) (layout : BitVec 3) (mode : XlMode) (seq : W64) (slot : BitVec 32) (layer : BitVec 8) (s : State) : Out :=
  .next (kvStart s (.kvxl h layout mode seq slot layer))
/-- KVAPP (R359). -/
def execKvapp (h : CmdHdr) (layout : BitVec 3) (x : KvAppArgs) (s : State) : Out := .next (kvStart s (.kvapp h layout x))
/-- KVATT (R361 to R363). -/
def execKvatt (h : CmdHdr) (layout : BitVec 3) (x : KvAttArgs) (s : State) : Out := .next (kvStart s (.kvatt h layout x))
/-- KVMASK (R360). -/
def execKvmask (h : CmdHdr) (parents : W64) (nM1 : BitVec 6) (out : W64) (s : State) : Out :=
  .next (kvStart s (.kvmask h parents nM1 out))
/-- KVCKPT (R364). -/
def execKvckpt (h : CmdHdr) (layout : BitVec 3) (seq : W64) (s : State) : Out := .next (kvStart s (.kvckpt h layout seq))
/-- KVCMT (R366). -/
def execKvcmt (h : CmdHdr) (layout : BitVec 3) (x : KvCmtArgs) (s : State) : Out := .next (kvStart s (.kvcmt h layout x))
/-- KVSQ (R365). -/
def execKvsq (h : CmdHdr) (layout : BitVec 3) (all : Bool) (seq nmask : W64) (s : State) : Out :=
  .next (kvStart s (.kvsq h layout all seq nmask))
/-- KVSCORE (R367). -/
def execKvscore (h : CmdHdr) (layout : BitVec 3) (seq : W64) (first : BitVec 32) (nM1 : BitVec 16) (src : W64) (s : State) : Out :=
  .next (kvStart s (.kvscore h layout seq first nM1 src))
/-- KVTOPK (R368). -/
def execKvtopk (h : CmdHdr) (layout : BitVec 3) (seq : W64) (lo hi k : BitVec 32) (out : W64) (s : State) : Out :=
  .next (kvStart s (.kvtopk h layout seq lo hi k out))
/-- KVCOMPACT (R369). -/
def execKvcompact (h : CmdHdr) (layout : BitVec 3) (seq : W64) (n : BitVec 32) (list : W64) (s : State) : Out :=
  .next (kvStart s (.kvcompact h layout seq n list))

end Sys2Proof.Machine
end

