-- ==== Sys2Proof/Machine/Mx.lean ====
section
/-! DEFINITION. The matrix engine: planes, passes, tiles, shadow copies and resolve entries (chapter 11). -/

namespace Sys2Proof.Machine

/-! ### Geometry and types (R241, R243) -/

/-- Rows of a chuck plane at a pass width (R241). -/
def planeDepth (big : Bool) (width : Nat) : Nat :=
  let k := if width = 4 then 128 else if width = 8 then 64 else 32
  if big then 2 * k else k
/-- Columns of a chuck plane at a pass width (R241). -/
def planeCols (big : Bool) (width : Nat) : Nat :=
  let n := if width = 16 then 32 else 64
  if big then 2 * n else n
/-- Whether a row's core has the compute array. -/
def bigArray (row : Nat) : Bool := coreKind (coreOf row) == .compute
/-- Widths that the array takes. -/
def passWidth (w : Nat) : Bool := decide (w = 4) || decide (w = 8) || decide (w = 16)

/-- The integer chunk of R243: both operands integer and neither scaled. -/
def integerChunk (a w : ElemType) (scaled : Bool) : Bool := a.isInt && w.isInt && !scaled

/-! ### Status (R250) -/

/-- SHORT, DERR, SHADOWED and the count of rows in error, as an entry's flags keep them. -/
def mxShort : Nat := 2 ^ 24
def mxDerr : Nat := 2 ^ 23
def mxShadowed : Nat := 2 ^ 22
/-- The flags with a bit set. -/
def EngEntry.flag (x : EngEntry) (bit : Nat) : EngEntry := { x with flags := x.flags ||| .ofNat 64 bit }
/-- One more row in error, saturating at 65,535. -/
def EngEntry.errRow (x : EngEntry) : EngEntry :=
  let n := min 65535 (bitsOf x.flags.toNat 47 32 + 1)
  { x with flags := .ofNat 64 (x.flags.toNat % 2 ^ 32 + n * 2 ^ 32 ||| mxDerr) }
/-- The status word of an MX command; `sub` counts the rows written. -/
def mxStatus (x : EngEntry) (cause : Nat) : Nat := x.sub * 2 ^ 48 + x.flags.toNat % 2 ^ 48 + statusOf x.opc cause

/-- An MX entry completes. -/
def mxDone (s : State) (x : EngEntry) : State := endWith s s.cur .mx x (mxStatus x 0) none
/-- An MX entry ends with a fault (R262). -/
def mxFail (s : State) (x : EngEntry) (cause addr : Nat) : State :=
  endWith s s.cur .mx x (mxStatus x cause) (some (entryFault s s.cur .mx x cause addr))
/-- An MX entry is held by a translation that is not present, and ends with any other fault (R262, R263). -/
def mxStop (s : State) (x : EngEntry) (cause addr : Nat) : State :=
  if cause = 0x06 then holdEntry s s.cur .mx x (entryFault s s.cur .mx x cause addr) else mxFail s x cause addr

/-! ### Starting -/

/-- The bytes that a tile's entry names: its extent now, and for an MTCFG also the one that it sets. -/
def namedExtents (b : Bank) (x : EngEntry) : List TileCfg :=
  x.tiles.filterMap (fun t => (b.tile t.toNat).cfg) ++
    match x.cmd .mx with
    | some (.mtcfg _ _ w) => [TileCfg.ofWord w.toNat]
    | _ => []

/-- Whether two entries name overlapping tile bytes (R247). -/
def namesOverlap (b : Bank) (x y : EngEntry) : Bool :=
  x.tiles.any y.tiles.contains || (namedExtents b x).any fun c => (namedExtents b y).any c.overlaps

/-- Whether an entry is an MMS or MMSA. -/
def EngEntry.isArray (x : EngEntry) : Bool := x.resolve.isNone && (decide (x.opc = 3) || decide (x.opc = 4))

/-- Whether an array command has rows left that the array pipe has not taken (R247, R248). -/
def EngEntry.rowsLeft (x : EngEntry) (now : Nat) : Bool :=
  x.isArray && match x.state with
    | .running _ taken => decide (now < taken)
    | .ending .. => false
    | .waiting | .held | .staged | .following | .putting | .flying .. | .permitWait _ => true

/-- Whether an array command of a bank keeps the array pipe of its core. -/
def pipeTaken (b : Bank) (now : Nat) : Bool := b.mx.any fun x => x.isArray && match x.state with
  | .running _ taken => decide (now < taken)
  | .waiting | .held | .ending .. | .staged | .following | .putting | .flying .. | .permitWait _ => false

/-- The shadow set of an entry: that of a command or of a resolve entry; 0 is none. -/
def EngEntry.set_ (x : EngEntry) : Nat := match x.resolve with
  | some (n, _) => n.toNat
  | none => x.shadow

/-- Whether a V tile write that issued before an entry's acceptance is still in flight (R218). -/
def tileWritesBefore (s : State) (b : Bank) (x : EngEntry) : Bool :=
  decide (x.tiles ≠ []) && b.flightQ.any fun f => decide (s.cycle + f.rem < x.at_ + 6) && f.res.any fun r => match r with
    | .tile _ => true
    | .sreg .. | .creg .. | .areg .. | .vreg .. | .mreg .. | .word .. | .sq .. => false

/-- THE START CONDITIONS OF R247, with that of R218: an array command waits for the array pipe, which both banks of the core share. -/
def mxReady (s : State) (row : Nat) (x : EngEntry) : Bool :=
  let b := s.bank row
  let before := b.mx.takeWhile fun y => decide (y.id ≠ x.id)
  let left (y : EngEntry) : Bool := y.rowsLeft s.cycle
  !tileWritesBefore s b x &&
    if x.resolve.isSome then before.all fun y => decide (y.set_ ≠ x.set_)
    else match x.cmd .mx with
      | some (.mlw ..) => before.all fun y => decide (y.opc ≠ 1)
      | some (.mswap _) => before.all fun y => decide (y.opc ≠ 1) && !left y
      | some (.mms _ a) | some (.mmsa _ a) =>
        before.all (fun y => !left y && (y.isArray || y.resolve.isSome || !namesOverlap b x y)) && !pipeTaken (s.bank (row ^^^ 1)) s.cycle &&
          decide (b.active.nc ≠ 0) &&
          (decide (x.shadow = 0) || (b.copies.any fun c => decide (c.set.toNat = x.shadow) && c.tile == a.tile) ||
            before.all fun y => !namesOverlap b x y)
      | some (.mmode ..) => true
      | _ => before.all fun y => !namesOverlap b x y

/-- The oldest unstarted entry of a bank (R247). -/
def mxNext (b : Bank) : Option EngEntry := b.mx.find? fun x => x.state == .waiting

/-- Whether an MX entry has something to do now: it has run its time, it goes on after a hold, or it may start (R247, R248, R262, R263). -/
def mxDue (s : State) (row : Nat) (x : EngEntry) : Bool :=
  let b := s.bank row
  match x.state with
  | .running due _ => decide (due ≤ s.cycle)
  | .held | .ending .. => !b.engBlocked .mx x.opc
  | .waiting => !b.engBlocked .mx x.opc && decide (mxNext b = some x) && !x.timedUnstarted && !b.fifoWaits .mx x && mxReady s row x
  | .staged | .following | .putting | .flying .. | .permitWait _ => false

/-- Runs the first entry of the present bank that stands for the command and has something to do: it ends after its time, its end or its held
work goes on, or it starts, where the right of R340 is held. -/
def mxStart (s : State) (i : Instr) (k : State → EngEntry → State) : State :=
  match s.here.mx.find? fun x => decide (x.instr .mx = some i) && mxDue s s.cur x with
  | none => s
  | some x => match x.state with
    | .running _ _ => mxDone s x
    | .ending st ws => finishEntry s s.cur .mx x st.toNat ws none
    | .held => k s x
    | _ => if !mayExecute s s.cur .mx then mxFail s x 0x07 0 else k s x

/-- An entry whose work is done completes in the cycle `due`; the array pipe is free from the cycle `taken` on (R247, R248). -/
def mxFinish (s : State) (x : EngEntry) (due taken : Nat) : State :=
  if due ≤ s.cycle then mxDone s x else setEntry s s.cur .mx { x with state := .running due taken }

/-- `n` divided by `k`, rounded up. -/
def ceilDiv (n k : Nat) : Nat := (n + k - 1) / k

/-- The configuration of a tile, whose bytes are restored where they are not present (R245, R261 row 1). -/
def mxTile (s : State) (x : EngEntry) (t : BitVec 6) (k : State → TileCfg → State) : State :=
  let s := restoreTile s s.cur t.toNat
  match (s.here.tile t.toNat).cfg with
  | none => mxFail s x 0x0B 0
  | some c => k (restoreExtent s s.cur c) c

/-! ### Shadow copies (R265 to R267) -/

/-- The bytes of a live copy in whole granules. -/
def ShadowCopy.stop (c : ShadowCopy) : Nat := c.off + (c.cfg.bytes + 511) / 512 * 512

/-- The copy of a set for a tile. -/
def copyOf (b : Bank) (set t : Nat) : Option ShadowCopy :=
  b.copies.find? fun c => decide (c.set.toNat = set) && decide (c.tile.toNat = t)

/-- The first place in the pool where `n` bytes fit: first fit over the pool's start and the ends of the live copies (R265). -/
def poolFit (b : Bank) (n : Nat) : Option Nat :=
  let start := (b.decl.acc + 511) / 512 * 512
  let fits (o : Nat) : Bool :=
    decide (o + n ≤ 4194304) && b.copies.all fun c => decide (c.stop ≤ o) || decide (o + n ≤ c.off)
  ((start :: (b.copies.map ShadowCopy.stop)).mergeSort (· ≤ ·)).find? fits

/-- Bytes copied from one place of a bank's half to another; a word that takes a byte from a word in error is in error (R264). -/
def copyAcc (b : Bank) (from_ to_ n : Nat) : Bank :=
  let b' := b.writeAcc ((List.range n).map fun i => (to_ + i, b.acc.get zeroByte (from_ + i)))
  let bad := (List.range n).filter fun i => b.accBad.get false ((from_ + i) / 8)
  if b.accBad = [] then b' else { b' with accBad := bad.foldl (fun m i => m.set false ((to_ + i) / 8) true) b'.accBad }

/-- A new copy of a tile for a set, its bytes copied from the main bytes or zero (R256, R265). -/
def makeCopy (s : State) (set : Nat) (t : BitVec 6) (c : TileCfg) (zero : Bool) : Option (State × ShadowCopy) :=
  let b := s.here
  if 16 ≤ b.copies.length then none
  else match poolFit b ((c.bytes + 511) / 512 * 512) with
    | none => none
    | some off =>
      let n : ShadowCopy := ⟨.ofNat 4 set, t, c, off⟩
      let s := restoreExtent (s.modHere fun b => { b with copies := b.copies ++ [n] }) s.cur { c with base := off }
      some (s.modHere fun b => if zero then b.writeAcc (zeroExtent { c with base := off }) else copyAcc b c.base off c.bytes, n)

/-- Whether another set's copy of the tile is live (R266). -/
def shadowConflict (b : Bank) (set t : Nat) : Bool :=
  decide (set ≠ 0) && b.copies.any fun c => decide (c.tile.toNat = t) && decide (c.set.toNat ≠ set)

/-- The extent that a command of a set works on: the tile, or the set's copy, made when there is none (R261 rows 5 and 6,
R265); a live copy keeps the configuration with which it was made (log entry 19). -/
def workExtent (s : State) (x : EngEntry) (t : BitVec 6) (c : TileCfg) (zero : Bool) (k : State → EngEntry → TileCfg → State) :
    State :=
  let set := x.shadow
  if shadowConflict s.here set t.toNat then mxFail s x 0x11 0
  else if set = 0 then k s x c
  else match copyOf s.here set t.toNat with
    | some n => k s (x.flag mxShadowed) { n.cfg with base := n.off }
    | none => match makeCopy s set t c zero with
      | none => mxFail s x 0x03 0
      | some (s, n) => k s (x.flag mxShadowed) { c with base := n.off }

/-! ### Draws (R255) -/

/-- How a run of draws ended: complete, waiting for an element, or met a fault with its cause and address. -/
inductive DrawEnd where
  | complete
  | waits
  | stopped (cause addr : Nat)
  deriving DecidableEq, Repr

/-- The zero element that an inactive stream gives (R255 case 4). -/
def zeroElt (d : SDesc) (k : Nat) : Elt := ⟨0, 2 ^ 80 + k, if d.sfmt = 0 then none else some XVal.one, false⟩

/-- The ports of the matrix engine by their target numbers: activations, and weights (R237). -/
def mxaPort : BitVec 5 := 16
def mxwPort : BitVec 5 := 17

/-- The stream bound to a port by its most recent SGO (R255). -/
def boundTo (b : Bank) (port : BitVec 5) : Nat := ((if port = mxaPort then b.mxa else b.mxw).getD 0).toNat

/-- Draws `n` more elements from the stream bound to a port onto a reversed list: the state, the elements, whether a zero element stood in for
one, and the end. A stream that is active on another target delivers nothing to the port (R255). -/
def drawElts (row : Nat) (port : BitVec 5) : Nat → State → List Elt → Bool → State × List Elt × Bool × DrawEnd
  | 0, s, acc, sh => (s, acc, sh, .complete)
  | n + 1, s, acc, sh =>
    let st := boundTo (s.bank row) port
    let x := (s.bank row).stream st
    let d := SDesc.of x.desc
    if !x.active || decide (d.n ≤ x.pos) then drawElts row port n s (zeroElt d n :: acc) true
    else if x.target ≠ port then (s, acc, sh, .waits)
    else if x.held then (s, acc, sh, .stopped x.cause.toNat x.addr.toNat)
    else match drawAt s row d x.pos with
      | .elt e _ => drawElts row port n (s.modBank row fun b => b.modStream st fun y => y.at (x.pos + 1)) (e :: acc) sh
      | .wait => (s, acc, sh, .waits)
      | .bad c a => (s.modBank row fun b => b.modStream st fun y => y.hold c a, acc, sh, .stopped c a)

/-- The leaves of the elements that a bound stream has drawn from a position on enter the core's TLB (R331). -/
def touchDrawn (s : State) (row : Nat) (port : BitVec 5) (p : Nat) : State :=
  let x := (s.bank row).stream (boundTo (s.bank row) port)
  touchElems s row (SDesc.of x.desc) p x.pos

/-- Elements drawn for an entry from a port, and their leaves touched. -/
def drawFor (s : State) (port : BitVec 5) (n : Nat) (x : EngEntry) : State × List Elt × Bool × DrawEnd :=
  let p := (s.here.stream (boundTo s.here port)).pos
  let r := drawElts s.cur port (n - x.drawn.length) s x.drawn.reverse false
  (touchDrawn r.1 s.cur port p, r.2)

/-- 512-byte port entries that hold `n` elements of a stream's walk (R234, R248). -/
def portEntries (d : SDesc) (n : Nat) : Nat :=
  if d.rowpad then n / d.bk * ceilDiv d.bk d.slots + ceilDiv (n % d.bk) d.slots else ceilDiv n d.slots

/-- An entry waits for an element at its port (R255 case 2). -/
def mxWaits (s : State) (x : EngEntry) : State := setEntry s s.cur .mx { x with state := .held }

/-- An entry stops at a draw that met a fault; the record names the stream (R239, R263). -/
def stopAtStream (s : State) (x : EngEntry) (port : BitVec 5) (cause addr : Nat) : State :=
  let st := boundTo s.here port
  let f := { entryFault s s.cur .mx x cause addr with
    flags := 2, pos := .ofNat 64 (s.here.stream st).pos, stream := .ofNat 8 st }
  if cause = 0x06 then holdEntry s s.cur .mx x f
  else endWith s s.cur .mx x (mxStatus x cause) (some f)

/-! ### What an entry fixes at its start (R249) -/

/-- Keeps the mode word and the operand's width, type and scales, as the start of an entry finds them. -/
def EngEntry.fixes (x : EngEntry) (mode width : Nat) (ty : ElemType) (scaled : Bool) : EngEntry :=
  { x with stage := [(mode, .ofNat 8 ty.code), (2 * width + scaled.toNat, 0)] }
/-- The mode word that an entry keeps. -/
def EngEntry.fixedMode (x : EngEntry) : Nat := (x.stage.getD 0 (0, 0)).1
/-- The operand type that an entry keeps. -/
def EngEntry.fixedType (x : EngEntry) : ElemType := (ElemType.ofCode (x.stage.getD 0 (0, 0)).2.toNat).getD .s8
/-- The width that an entry keeps. -/
def EngEntry.fixedWidth (x : EngEntry) : Nat := (x.stage.getD 1 (0, 0)).1 / 2
/-- Whether the operand carried scales. -/
def EngEntry.fixedScaled (x : EngEntry) : Bool := decide ((x.stage.getD 1 (0, 0)).1 % 2 = 1)

/-! ### MLW and MSWAP -/

/-- The columns of `kc` cells each. -/
def chunksOf (kc : Nat) : Nat → List Elt → List (List Elt)
  | 0, _ => []
  | n + 1, l => l.take kc :: chunksOf kc n (l.drop kc)

/-- MLW from its draws on (R252). -/
def mlwRun (s : State) (x : EngEntry) (nc : Nat) : State :=
  let width := x.fixedWidth
  let kc := planeDepth (bigArray s.cur) width
  let r := drawFor s mxwPort (kc * nc) x
  let n := portEntries (SDesc.of (s.here.stream (boundTo s.here mxwPort)).desc) (kc * nc - x.drawn.length)
  let x := { x with drawn := r.2.1.reverse }
  let x := if r.2.2.1 then x.flag mxShort else x
  match r.2.2.2 with
  | .stopped c a => stopAtStream r.1 x mxwPort c a
  | .waits => mxWaits r.1 x
  | .complete =>
    let cells := chunksOf kc nc x.drawn
    let x := { (if x.drawn.any Elt.bad then x.flag mxDerr else x) with drawn := [] }
    mxFinish (r.1.modHere fun b => { b with standby := ⟨nc, kc, x.fixedType, width, cells⟩ }) x (s.cycle + (n - 1) + 8) 0

/-- MLW: the checks of R261 and the load of the standby plane (R252). -/
def execMlw (h : CmdHdr) (wstr : BitVec 4) (ncM1 : BitVec 8) (p8 : Bool) (s : State) : Out :=
  .next (mxStart s (.mlw h wstr ncM1 p8) fun s x =>
    let d := SDesc.of (s.here.stream wstr.toNat).desc
    let width := if p8 then 8 else d.ty.width
    let nc := ncM1.toNat + 1
    if x.state = .held then mlwRun s x nc
    else if s.here.mxw ≠ some wstr then mxFail s x 0x11 0
    else if planeCols (bigArray s.cur) width < nc ∨ !passWidth width then mxFail s x 0x11 0
    else if p8 && decide (d.ty.width ≠ 4) then mxFail s x 0x11 0
    else mlwRun s (x.fixes 0 width d.ty false) nc)

/-- MSWAP: the planes are exchanged (R253). -/
def execMswap (h : CmdHdr) (s : State) : Out :=
  .next (mxStart s (.mswap h) fun s x => mxDone (s.modHere fun b => { b with active := b.standby, standby := b.active }) x)

/-! ### Chunks (R167, R168) -/

/-- An activation and a weight that meet at one position of K. -/
structure Pair where
  a : Elt
  w : Elt
  deriving DecidableEq, Repr

/-- Whether two neighbouring positions lie in one segment (R167). -/
def sameSegment (p q : Pair) : Bool :=
  (p.a.scale.isNone || decide (p.a.grp = q.a.grp)) && (p.w.scale.isNone || decide (p.w.grp = q.w.grp))

/-- The exact product at a position. -/
def pairProduct (ta tw : ElemType) (p : Pair) : XVal := (decodeElem ta p.a.code).mul (decodeElem tw p.w.code)

/-- A term with the scales of the operands that carry one. -/
def scaledTerm (p : Pair) (x : XVal) : XVal :=
  let x := match p.a.scale with
    | none => x
    | some k => x.mul k
  match p.w.scale with
  | none => x
  | some k => x.mul k

/-- The terms of scaled operands: one for each segment, the exact sum of its products times its scales. -/
def segmentTerms (ta tw : ElemType) : List Pair → Option (Pair × XVal) → List XVal
  | [], none => []
  | [], some (p, x) => [scaledTerm p x]
  | q :: r, none => segmentTerms ta tw r (some (q, pairProduct ta tw q))
  | q :: r, some (p, x) =>
    if sameSegment p q then segmentTerms ta tw r (some (q, x.add .rne (pairProduct ta tw q)))
    else scaledTerm p x :: segmentTerms ta tw r (some (q, pairProduct ta tw q))

/-- The terms of a chunk: the products themselves when neither operand is scaled (R167). -/
def chunkTerms (ta tw : ElemType) (scaled : Bool) (l : List Pair) : List XVal :=
  if scaled then segmentTerms ta tw l none else l.map (pairProduct ta tw)

/-- The exact sum of an integer chunk. -/
def intChunk (ta tw : ElemType) (l : List Pair) : Int := (l.map fun p => intOf ta p.a.code * intOf tw p.w.code).sum

/-- The s32 code that an integer update leaves: saturated or wrapped (R168). -/
def s32Update (isat : Bool) (v : Int) : Nat := wrapTo 32 (if isat then clampTo .s32 v else v)

/-- The tile element after a chunk: `old` is what MMSA adds to (R168, R254). -/
def tileUpdate (ty : ElemType) (md : Mode) (isat : Bool) (old : Option Nat) (fc : Nat) (ic : Int) : Nat :=
  match ty, old with
  | .s32, none => s32Update isat ic
  | .s32, some o => s32Update isat (intOf .s32 o + ic)
  | .bf16, none => roundElem .bf16 md (decodeElem .f32 fc)
  | .bf16, some o => roundElem .bf16 md ((decodeElem .bf16 o).add md.rm (decodeElem .f32 fc))
  | _, none => fc
  | _, some o => addF32 .rne o fc

/-! ### MMS and MMSA -/

/-- What a pass works with. -/
structure Pass where
  cfg   : TileCfg
  row0  : Nat
  col0  : Nat
  /-- the cycles of its completion and of the array pipe's next row (R248) -/
  due   : Nat
  taken : Nat
  ta    : ElemType
  ascaled : Bool
  add   : Bool
  md    : Mode
  isat  : Bool
  deriving DecidableEq, Repr

/-- Whether the plane carries scales (R242). -/
def Plane.scaled (p : Plane) : Bool := p.cells.any fun c => c.any fun e => e.scale.isSome

/-- Whether an element of the accumulator half stands in a word with an uncorrectable error (R264). -/
def accErr (b : Bank) (off : Nat) : Bool := b.accBad.get false (off / 8)

/-- The bytes of one row of a pass and whether the row was in error (R254, R264): none when it is not written. -/
def passRow (b : Bank) (k : Pass) (i : Nat) (a : List Elt) : Option (List (Nat × Byte)) × Bool :=
  let p := b.active
  let off (j : Nat) : Nat := k.cfg.at (k.row0 + i) (k.col0 + j)
  let js := List.range p.nc
  let err := a.any Elt.bad || p.cells.any (fun c => c.any Elt.bad) || (k.add && js.any fun j => accErr b (off j))
  let z := tileElemSize k.cfg.ty
  let int := integerChunk k.ta p.ty (k.ascaled || p.scaled)
  let val (j : Nat) (col : List Elt) : Nat :=
    let l := List.zipWith Pair.mk a col
    let old := if k.add then some (accElem b z (off j)) else none
    if int then tileUpdate k.cfg.ty k.md k.isat old 0 (intChunk k.ta p.ty l)
    else tileUpdate k.cfg.ty k.md k.isat old (chunkSum (chunkTerms k.ta p.ty (k.ascaled || p.scaled) l)) 0
  let put (v : Nat × Nat) : List (Nat × Byte) := (toBytes z v.2).zipIdx.map fun q => (off v.1 + q.2, q.1)
  if err then
    if k.cfg.ty = .s32 then (none, true) else (some (js.flatMap fun j => put (j, nanCode k.cfg.ty)), true)
  else (some ((List.zip js p.cells).flatMap fun v => put (v.1, val v.1 v.2)), false)

/-- The rows of a pass from the entry's row on (R254, R263). -/
def passRows (k : Pass) : Nat → State → EngEntry → State
  | 0, s, x => mxFinish s x k.due k.taken
  | n + 1, s, x =>
    let r := drawFor s mxaPort s.here.active.kc x
    let s := r.1
    let x := { x with drawn := r.2.1.reverse }
    let x := if r.2.2.1 then x.flag mxShort else x
    match r.2.2.2 with
    | .stopped c a => stopAtStream s x mxaPort c a
    | .waits => mxWaits s x
    | .complete =>
      let w := passRow s.here k x.pos x.drawn
      let x := if w.2 then x.errRow else x
      let x := { x with drawn := [], pos := x.pos + 1, sub := x.sub + w.1.isSome.toNat }
      passRows k n (match w.1 with
        | none => s
        | some bytes => s.modHere fun b => b.writeAcc bytes) x

/-- Cycles from a row's entry into the array to its landing: D of R241. -/
def landDelay (row : Nat) : Nat := if bigArray row then 136 else 72

/-- MMS and MMSA: the checks of R261, the copy of R265, and the rows (R254), with the times of R248. -/
def passRun (s : State) (i : Instr) (a : MmsArgs) (add : Bool) : State :=
  mxStart s i fun s x => mxTile s x a.tile fun s c =>
      let p := s.here.active
      let d := SDesc.of (s.here.stream a.astr.toNat).desc
      let m := a.mM1.toNat + 1
      let held := decide (x.state = .held)
      let x := if held then x else x.fixes s.here.mxmode.toNat d.ty.width d.ty (decide (d.sfmt ≠ 0))
      let int := integerChunk d.ty p.ty (decide (d.sfmt ≠ 0) || p.scaled)
      let pass (c : TileCfg) (copying : Nat) : Pass :=
        let taken := s.cycle + copying + (m - x.pos)
        ⟨c, a.row0.toNat, a.col0.toNat, taken - 1 + landDelay s.cur, taken, x.fixedType, x.fixedScaled, add, Mode.of x.fixedMode,
          decide (bitsOf x.fixedMode 4 4 = 1)⟩
      if held then
        let c := match copyOf s.here x.shadow a.tile.toNat with
          | some n => if x.shadow = 0 then c else { n.cfg with base := n.off }
          | none => c
        passRows (pass c 0) (m - x.pos) s x
      else if s.here.mxa ≠ some a.astr then mxFail s x 0x11 0
      else if c.rows < a.row0.toNat + m ∨ c.cols < a.col0.toNat + p.nc ∨ planeCols (bigArray s.cur) d.ty.width < p.nc then
        mxFail s x 0x11 0
      else if p.width ≠ d.ty.width ∨ (if int then c.ty ≠ .s32 else c.ty = .s32) then mxFail s x 0x11 0
      else
        let copying := if x.shadow = 0 ∨ (copyOf s.here x.shadow a.tile.toNat).isSome then 0 else ceilDiv c.bytes 1024
        workExtent s x a.tile c false fun s x c => passRows (pass c copying) m s x

def execMms (h : CmdHdr) (a : MmsArgs) (s : State) : Out := .next (passRun s (.mms h a) a false)
def execMmsa (h : CmdHdr) (a : MmsArgs) (s : State) : Out := .next (passRun s (.mmsa h a) a true)

/-! ### Tiles, modes and memory -/

/-- MZT: zero elements into the tile, or into the set's copy (R256). -/
def execMzt (h : CmdHdr) (tile : BitVec 6) (s : State) : Out :=
  .next (mxStart s (.mzt h tile) fun s x => mxTile s x tile fun s c => workExtent s x tile c true fun s x c =>
    mxFinish (s.modHere fun b => b.writeAcc (zeroExtent c)) x (s.cycle + (max 1 (ceilDiv c.bytes 2048) - 1)) 0)

/-- MMODE: the bank's engine mode word (R257). -/
def execMmode (h : CmdHdr) (rm : Rm) (f8sat isat : Bool) (s : State) : Out :=
  .next (mxStart s (.mmode h rm f8sat isat) fun s x =>
    mxDone (s.modHere fun b => { b with mxmode := .ofNat 5 (rm.code + 8 * f8sat.toNat + 16 * isat.toNat) }) x)

/-- MTCFG: the tile takes a configuration, unless a copy of it is live (R258, R266). -/
def execMtcfg (h : CmdHdr) (tile : BitVec 6) (cfg : W64) (s : State) : Out :=
  .next (mxStart s (.mtcfg h tile cfg) fun s x =>
    let s := restoreTile s s.cur tile.toNat
    if s.here.copies.any fun c => c.tile == tile then mxFail s x 0x11 0
    else mxDone (s.modHere fun b => b.setTile tile.toNat (.configured (TileCfg.ofWord cfg.toNat))) x)

/-- The conversions that MSTORE allows (R259). -/
def mstoreAllowed (t o : ElemType) : Bool :=
  match t, o with
  | .f32, .bf16 | .f32, .f16 | .f32, .e4m3 | .f32, .e5m2 | .f32, .t8 => true
  | .bf16, .e4m3 | .bf16, .e5m2 | .bf16, .t8 => true
  | .s32, .s8 | .s32, .s16 => true
  | _, _ => false

/-- An element as MSTORE writes it: converted, or the canonical NaN or 0 for one in error (R259, R264). -/
def mstoreElem (b : Bank) (md : Mode) (t o : ElemType) (off : Nat) : Nat :=
  if accErr b off then (if o.isInt then 0 else nanCode o)
  else
    let c := accElem b (tileElemSize t) off
    if t = o then c else convElem t o md true c

/-- The bytes of tile row `r` as MSTORE writes them. -/
def mstoreRow (b : Bank) (md : Mode) (c : TileCfg) (o : ElemType) (r : Nat) : List Byte :=
  (List.range c.cols).flatMap fun j => toBytes o.bytes (mstoreElem b md c.ty o (c.at r j))

/-- The address of a tile row in memory. -/
def tileRowAddr (addr : BitVec 48) (stride : BitVec 32) (r : Nat) : Nat := wrapAddr (addr.toNat + r * signedOf 32 stride.toNat)

/-- Cycles that an MSTORE or MLOADT takes for `n` tile rows (R248). -/
def rowCycles (c : TileCfg) (n : Nat) : Nat := n * if c.cols * tileElemSize c.ty ≤ 512 then 1 else 2

/-- The rows of an MSTORE from the entry's row on, which completes in the cycle `due` (R259). -/
def mstoreRows (c : TileCfg) (o : ElemType) (addr : BitVec 48) (stride : BitVec 32) (due : Nat) : Nat → State → EngEntry → State
  | 0, s, x => mxFinish s x due 0
  | n + 1, s, x =>
    let va := tileRowAddr addr stride x.pos
    match engWrite s s.cur .mx x.id va 1 (mstoreRow s.here (Mode.of x.fixedMode) c o x.pos) with
    | .wait => setEntry s s.cur .mx { x with state := .held }
    | .bad k a => mxStop s x k a
    | .ok s' =>
      let x := if (List.range c.cols).any fun j => accErr s.here (c.at x.pos j) then x.errRow else x
      mstoreRows c o addr stride due n s' { x with pos := x.pos + 1, sub := x.sub + 1 }

/-- MSTORE (R259). -/
def execMstore (h : CmdHdr) (tile : BitVec 6) (conv : Option ElemType) (addr : BitVec 48) (stride : BitVec 32) (s : State) : Out :=
  .next (mxStart s (.mstore h tile conv addr stride) fun s x => mxTile s x tile fun s c =>
    let o := conv.getD c.ty
    let x := if x.state = .held then x else x.fixes s.here.mxmode.toNat 0 c.ty false
    if conv.isSome && !mstoreAllowed c.ty o then mxFail s x 0x11 0
    else mstoreRows c o addr stride (s.cycle + (rowCycles c (c.rows - x.pos) - 1)) (c.rows - x.pos) s x)

/-- The bytes that a row of an MLOADT writes into the tile: none for an s32 row in error (R260, R264). -/
def mloadtRow (c : TileCfg) (r : Nat) (bytes : List Byte) (err : Bool) : Option (List (Nat × Byte)) :=
  let bs := if err then (List.range c.cols).flatMap fun _ => toBytes (tileElemSize c.ty) (nanCode c.ty) else bytes
  if err ∧ c.ty = .s32 then none else some (bs.zipIdx.map fun p => (c.at r 0 + p.2, p.1))

/-- The rows of an MLOADT from the entry's row on, which completes in the cycle `due` (R260). -/
def mloadtRows (c : TileCfg) (addr : BitVec 48) (stride : BitVec 32) (due : Nat) : Nat → State → EngEntry → State
  | 0, s, x => mxFinish s x due 0
  | n + 1, s, x =>
    match engRead s s.cur x (tileRowAddr addr stride x.pos) (c.cols * tileElemSize c.ty) 1 with
    | .bad k a => mxStop s x k a
    | .ok s bytes err =>
      let w := mloadtRow c x.pos bytes err
      let x := if err then x.errRow else x
      mloadtRows c addr stride due n (match w with
        | none => s
        | some l => s.modHere fun b => b.writeAcc l) { x with pos := x.pos + 1, sub := x.sub + w.isSome.toNat }

/-- MLOADT (R260). -/
def execMloadt (h : CmdHdr) (tile : BitVec 6) (addr : BitVec 48) (stride : BitVec 32) (s : State) : Out :=
  .next (mxStart s (.mloadt h tile addr stride) fun s x => mxTile s x tile fun s c =>
    mloadtRows c addr stride (s.cycle + (rowCycles c (c.rows - x.pos) - 1)) (c.rows - x.pos) s x)

/-! ### Resolve entries (R267) -/

/-- A live copy over its tile's main bytes, which are restored first where they are not present (R245, R267). -/
def commitCopy (s : State) (c : ShadowCopy) : State :=
  (restoreExtent s s.cur c.cfg).modHere fun b => copyAcc b c.off c.cfg.base c.cfg.bytes

/-- The live copies of a set. -/
def copiesOf (b : Bank) (n : BitVec 3) : List ShadowCopy := b.copies.filter fun c => decide (c.set.toNat = n.toNat)

/-- A resolve entry completes: no copy of its set remains (R267). -/
def resolveDone (s : State) (x : EngEntry) (n : BitVec 3) : State :=
  dropEntry (s.modHere fun b => { b with copies := b.copies.filter fun c => !decide (c.set.toNat = n.toNat) }) s.cur .mx x.id

/-- A resolve entry: the set's copies are kept over the main bytes or only freed, and the entry completes after the time of R248 (R267). -/
def execResolveEntry (n : BitVec 3) (keep : Bool) (s : State) : Out :=
  .next (match s.here.mx.find? fun x => decide (x.instr .mx = some (.resolveEntry n keep)) && mxDue s s.cur x with
    | none => s
    | some x => match x.state with
      | .running _ _ => resolveDone s x n
      | _ =>
        let l := copiesOf s.here n
        let s := if keep then l.foldl commitCopy s else s
        let due := s.cycle + if keep then max 1 (ceilDiv (l.map fun c => c.cfg.bytes).sum 1024) - 1 else 0
        if due ≤ s.cycle then resolveDone s x n else setEntry s s.cur .mx { x with state := .running due 0 })

end Sys2Proof.Machine
end

