-- ==== Sys2Proof/Machine/Fw.lean ====
section
/-! DEFINITION. What the signal box's firmware does with memory: pages, frames of its own, reads and completion objects (R35, R46,
R327 to R330, R433, R470). -/

namespace Sys2Proof.Machine

/-! ### Frames of the firmware (R470; log entry 7) -/

/-- Whether `n` frames from one on are free. -/
def framesFree (s : State) (i n : Nat) : Bool :=
  decide (i + n ≤ framePool) && !s.framesUsed.any fun e => decide (i ≤ e.1) && decide (e.1 < i + n)

/-- The first of `n` contiguous free frames. -/
def findFrames (s : State) (n : Nat) : Option Nat := (0 :: s.framesUsed.map fun e => e.1 + 1).find? fun i => framesFree s i n

/-- Memory of an extent reads zero, and is sound (R462). -/
def zeroMem (s : State) (pa n : Nat) : State :=
  let out (k : Nat) : Bool := !(decide (pa ≤ k) && decide (k < pa + n))
  { s with
    mem := s.mem.filter fun e => out e.1
    poison := s.poison.filter fun e => out e.1
    stale := s.stale.filter fun e => out e.1 }

/-- Takes `n` contiguous frames, zeroed: the new state and the physical address (R470). -/
def allocFrames (s : State) (n : Nat) : Option (State × Nat) :=
  (findFrames s n).map fun i =>
    ((zeroMem { s with framesUsed := Store.setRun false s.framesUsed i (List.replicate n true) } (frameAddr i) (65536 * n)), frameAddr i)

/-- Frees `n` frames from an address on. -/
def freeFrames (s : State) (pa n : Nat) : State :=
  { s with framesUsed := Store.setRun false s.framesUsed (frameIndex pa) (List.replicate n false) }

/-! ### Providing a page (R330, R433) -/

/-- Writes a leaf for an address below a table, making the tables that are missing. -/
def mapFrom (va pte : Nat) : List (Nat × Nat) → State → Nat → State
  | [], s, _ => s
  | (bits, idx) :: rest, s, table =>
    let at_ := table + 8 * (va / 2 ^ bits % 2 ^ idx)
    if rest = [] then s.homeWriteBytes at_ (toBytes 8 pte)
    else
      let e := s.homeNat at_ 8
      if bitsOf e 63 63 = 1 then
        if bitsOf e 62 62 = 1 then s else mapFrom va pte rest s (pteAddr e)
      else match allocFrames s 1 with
        | none => s
        | some (s, f) => mapFrom va pte rest (s.homeWriteBytes at_ (toBytes 8 (2 ^ 63 + f))) f

/-- Enters a leaf into the page tables of an address space. -/
def mapPage (s : State) (asid : Asid) (va pte : Nat) : State :=
  let levels := [(37, 11), (26, 11), (16, 10)]
  let e := s.homeNat (rootAddr asid) 8
  if bitsOf e 63 63 = 1 then mapFrom va pte levels s (bitsOf e 51 14 * 16384)
  else match allocFrames s 1 with
    | none => s
    | some (s, f) => mapFrom va pte levels (s.homeWriteBytes (rootAddr asid) (toBytes 8 (2 ^ 63 + f))) f

/-- Whether a frame of a physical address lies in LPDDR (R223). -/
def inLpddr (pa : Nat) : Bool := decide (1 ≤ paDie pa) && decide (paDie pa ≤ 4) && decide (paOff pa ≤ 0x000FFFFFFFFF)

/-- The signal box gives `n` frames to an address space: the key of the address space is drawn at its first allocation, and the frames of LPDDR
take its key index (R462). -/
def keyFrames (s : State) (asid : Asid) (pa n : Nat) : State :=
  { s with
    xtsKeys := s.xtsKeys.set false asid.toNat true
    frameKeys := if inLpddr pa then Store.setRun 0 s.frameKeys (pa / 65536) (List.replicate n asid) else s.frameKeys }

/-- Provides the page of an address where it has no valid translation and the address space has backing: a frame allocated anew, which is zero
(R330, R433, R462). -/
def providePage (s : State) (asid : Asid) (va : Nat) : State :=
  match walk s asid va with
  | .leaf .. => s
  | .bad c =>
    if c ≠ 0x06 then s
    else match s.backing.find? fun b => b.asid == asid && decide (b.va / 65536 = va / 65536) with
      | none => s
      | some b =>
        let pa := pteAddr b.pte.toNat
        mapPage (zeroMem (keyFrames s asid pa 1) pa 65536) asid va b.pte.toNat

/-- Provides the pages of a range. -/
def provide (s : State) (asid : Asid) (va n : Nat) : State :=
  (pagesOf (n / 65536 + 2) va n).foldl (fun s p => providePage s asid p.1) s

/-- Whether every page of a range has a leaf with a right; `bit` is its bit in the leaf (R329). -/
def reachable (s : State) (asid : Asid) (bit va n : Nat) : Bool :=
  decide (va + n ≤ 2 ^ 48) && (pagesOf (n / 65536 + 2) va n).all fun p => match walk s asid p.1 with
    | .bad _ => false
    | .leaf pte _ _ _ => decide (bitsOf pte bit bit = 1)

/-- The physical address of a virtual one. -/
def physOf (s : State) (asid : Asid) (va : Nat) : Option Nat :=
  match walk s asid va with
  | .bad _ => none
  | .leaf pte vbase _ _ => some (pteAddr pte + (va - vbase))

/-- Bytes of a range at their homes, or in a system register (R468). -/
def fwBytes (s : State) (asid : Asid) (va n : Nat) : List Byte :=
  (pagesOf (n / 65536 + 2) va n).flatMap fun p => match physOf s asid p.1 with
    | none => List.replicate p.2 0
    | some pa => if regionOf s pa = .sysreg then sysRead s pa p.2 else s.homeBytes pa p.2

/-- Writes bytes of a range at their homes. -/
def fwWrite (s : State) (asid : Asid) (va : Nat) (bs : List Byte) : State :=
  ((pagesOf (bs.length / 65536 + 2) va bs.length).foldl (fun r p => match physOf r.1 asid p.1 with
    | none => (r.1, r.2.drop p.2)
    | some pa => (r.1.homeWriteBytes pa (r.2.take p.2), r.2.drop p.2)) (s, bs)).1

/-- What the signal box reads of an address space: it first provides the pages; none where a byte has no translation or no read
right (R29, R35). -/
def fwRead (s : State) (asid : Asid) (va n : Nat) : State × Option (List Byte) :=
  let s := provide s asid va n
  (s, if reachable s asid 61 va n then some (fwBytes s asid va n) else none)

/-- Writes a launch's status word and adds 1 to the counter at the home; none where DONE cannot be written (R44, R46). -/
def launchObject (s : State) (asid : Asid) (done status : Nat) : Option State :=
  let s := provide s asid done 16
  if !reachable s asid 60 done 16 then none
  else
    let n := ofBytes (fwBytes s asid done 8)
    some (fwWrite s asid done (toBytes 8 ((n + 1) % 2 ^ 64) ++ toBytes 8 status))

/-- Sends an MSI-X vector (R456). -/
def sendMsix (s : State) (v : Nat) : State := { s with msix := s.msix ++ [v] }

/-- Appends an event to the agenda. -/
def later (s : State) (i : Instr) : State := { s with agenda := s.agenda ++ [.event i] }

/-- Core cycles as nanoseconds at the present core clock, of which `clk` is in tenths of a gigahertz (R464). -/
def nanosOf (s : State) (cycles : Nat) : Nat := cycles * 10 / s.clk

end Sys2Proof.Machine
end

