-- ==== Sys2Proof/Machine/Launching.lean ====
section
/-! DEFINITION. Launch records, their dependences and checks, kernel images and their checks, selection, refusal and completion
(chapters 02 and 03). -/

namespace Sys2Proof.Machine

/-! ### Slots of a queue (R40) -/

/-- HEAD moves over freed slots in order. -/
def advanceHead : Nat → LaunchQueue → LaunchQueue
  | 0, q => q
  | n + 1, q =>
    if q.freed.contains q.head then advanceHead n { q with head := q.head + 1, freed := q.freed.filter (· ≠ q.head) } else q

/-- A slot is freed when its launch completes or is refused (R40). -/
def freeSlot (s : State) (k : Nat) (slot : BitVec 32) : State :=
  let q := s.queue k
  let q := { q with freed := q.freed ++ [slot], sender := q.sender.filter fun p => p.1 ≠ slot }
  s.setQueue k (advanceHead (q.freed.length + 1) q)

/-- The 256 bytes of the head launch's record. -/
def headRecord (s : State) (k : Nat) : List Byte :=
  let q := s.queue k
  s.homeBytes (q.slotAddr q.sel.toNat) 256

/-- Whether a queue has a head launch that may be selected (R39, R40). -/
def hasHead (s : State) (k : Nat) : Bool := (s.queue k).en && decide ((s.queue k).sel ≠ (s.queue k).tail)

/-! ### Dependences (R35, R42, R47) -/

/-- Examines dependence entry `j` of a queue's head launch. -/
def checkDep (k : Nat) (asid : Asid) (rcd : List Byte) (s : State) (j : Nat) : State :=
  let q := s.queue k
  let obj := field rcd (0x30 + 16 * j) 8
  if obj = 0 ∨ q.met.getLsbD j then s
  else
    let (s, r) := fwRead s asid obj 8
    match r with
    | none => s.setQueue k { q with hopeless := true }
    | some bs =>
      if field rcd (0x38 + 16 * j) 8 ≤ ofBytes bs then s.setQueue k { q with met := q.met ||| .ofNat 4 (2 ^ j) } else s

/-- Whether every used entry of a record is met. -/
def depsMet (q : LaunchQueue) (rcd : List Byte) : Bool :=
  (List.range 4).all fun j => decide (field rcd (0x30 + 16 * j) 8 = 0) || q.met.getLsbD j

/-- Examines the head launch of a queue; entries that were met stay met, whether one can never be met is judged anew, and the moment at
which the launch becomes eligible is kept (R35, R47, R60). -/
def checkHead (s : State) (k : Nat) : State :=
  if !hasHead s k then s
  else
    let rcd := headRecord s k
    let asid : Asid := .ofNat 12 (field rcd 6 2)
    let s := if (s.queue k).hopeless then s.setQueue k { s.queue k with hopeless := false } else s
    let s := (List.range 4).foldl (checkDep k asid rcd) s
    let q := s.queue k
    if q.hopeless || depsMet q rcd then (if q.eligible.isNone then s.setQueue k { q with eligible := some s.dt.toNat } else s)
    else if q.eligible.isSome then s.setQueue k { q with eligible := none }
    else s

/-- DEPENDENCE_CHECK: every head launch is examined (R42). -/
def dependenceCheck (s : State) : State := (List.range 16).foldl checkHead s

/-! ### Fields of a record (R34 to R36) -/

/-- A group entry of a record. -/
def groupSpec (rcd : List Byte) (j : Nat) : GroupSpec :=
  let o := 0x70 + 16 * j
  ⟨.ofNat 2 (field rcd o 1), .ofNat 16 (field rcd (o + 2) 2), field rcd (o + 4) 2, field rcd (o + 6) 2, field rcd (o + 8) 8⟩

/-- The limits of R36 on a group entry. -/
def groupOk (rcd : List Byte) (tasks j : Nat) : Bool :=
  let o := 0x70 + 16 * j
  let g := groupSpec rcd j
  let low := field rcd o 1 < 4 && field rcd (o + 1) 1 = 0
  low && match g.mode with
    | 0 => zeroField rcd (o + 2) 14
    | 1 => decide (g.key = 0) && decide (1 ≤ g.stride) && decide (1 ≤ g.count) && decide (g.count ≤ tasks) &&
        decide (g.first + (g.count - 1) * g.stride < tasks)
    | 2 => zeroField rcd (o + 2) 6 && decide (g.count % 8 = 0)
    | _ => decide (g.key ≠ 0) && zeroField rcd (o + 4) 4 && decide (1 ≤ g.count) && decide (g.count ≤ 65536)

/-- The limits of R34 to R36 on a record; `ngroup` is that of the image's header when it can be read (R44 reason 16). DEDUCED (log entry
49): a SPLIT record is refused while PAIRDOWN reads 1, also when the link is trained again. -/
def recordOk (s : State) (rcd : List Byte) (ngroup : Option Nat) : Bool :=
  let flags := field rcd 4 2
  let tasks := field rcd 0x10 4
  let split := decide (flags / 4 % 2 = 1)
  let pkg1 := field rcd 0x14 2
  decide (field rcd 0 4 = 0x48434E4C) && decide (flags < 8) && decide (field rcd 6 2 < 4096) &&
    decide (field rcd 8 8 % 65536 = 0) && decide (1 ≤ tasks) && decide (tasks ≤ 65536) && zeroField rcd 0x16 2 &&
    (if split then decide (1 ≤ pkg1) && decide (pkg1 < tasks) && decide (flags % 2 = 1) && s.dual && !s.pkg &&
        s.devstat.pairup && !s.devstat.pairdown
      else decide (pkg1 = 0)) &&
    decide (field rcd 0x28 8 % 16 = 0) && (List.range 4).all (fun j => decide (field rcd (0x30 + 16 * j) 8 % 16 = 0)) &&
    (List.range 4).all (fun j => if ngroup.getD 4 ≤ j then zeroField rcd (0x70 + 16 * j) 16 else groupOk rcd tasks j) &&
    zeroField rcd 0xB0 80

/-! ### Kernel images (R25 to R29) -/

/-- The declared counts of a header (R25). -/
def declOf (h : List Byte) : Decl where
  s := field h 0x20 1
  c := field h 0x21 1
  a := field h 0x22 1
  v := field h 0x24 2
  m := field h 0x23 1
  t := field h 0x26 1
  st := field h 0x27 1
  dmem := field h 0x28 4
  acc := field h 0x2C 4
  ngroup := field h 0x30 1
  nlayout := field h 0x33 1

/-- Numbers of group, stream, tile and layout entries. -/
def tableCounts (h : List Byte) : Nat × Nat × Nat × Nat := (field h 0x30 1, field h 0x31 1, field h 0x32 1, field h 0x33 1)

/-- Sequence 1 of R29: magic, version and zero fields. -/
def headerZeros (h : List Byte) : Bool :=
  decide (field h 0 4 = 0x4B584C52) && decide (field h 4 2 = 1) && decide (field h 6 2 < 4) && decide (field h 0x34 1 < 64) &&
    decide (field h 0x35 1 < 8) && zeroField h 0x36 2 && zeroField h 0x60 32

/-- Sequence 2 of R29: counts, sizes and offsets. DEDUCED (log entry 49): KSIZE other than SIGOFF + 1,288 with a signature, and a nonzero SIGOFF
without one, have reason 2. -/
def headerLimits (h : List Byte) : Bool :=
  let d := declOf h
  let (ng, ns, nt, nl) := tableCounts h
  let size := field h 8 4
  let sig := field h 0x3C 4
  decide (1 ≤ d.s ∧ d.s ≤ 64 ∧ 1 ≤ d.c ∧ d.c ≤ 16 ∧ 3 ≤ d.a ∧ d.a ≤ 32 ∧ 1 ≤ d.m ∧ d.m ≤ 64) &&
    decide (1 ≤ d.v ∧ (d.v ≤ 128 ∨ d.v = 256) ∧ d.t ≤ 64 ∧ d.st ≤ 16) &&
    decide (d.dmem ≤ 25165824 ∧ d.dmem % 65536 = 0 ∧ d.acc ≤ 4194304 ∧ d.acc % 512 = 0) &&
    decide (ng ≤ 4 ∧ ns ≤ 16 ∧ nt ≤ 64 ∧ nl ≤ 8) &&
    decide (field h 0xC 4 % 32 = 0 ∧ 32 ≤ field h 0x10 4 ∧ field h 0x10 4 % 32 = 0 ∧ field h 0x14 4 % 65536 = 0) &&
    decide (field h 0x1C 4 % 32 = 0 ∧ field h 0x1C 4 < field h 0x10 4 ∧ field h 0x38 4 % 8 = 0) &&
    decide (128 ≤ size ∧ field h 0xC 4 + field h 0x10 4 ≤ size ∧ field h 0x14 4 + field h 0x18 4 ≤ size) &&
    decide (field h 0x38 4 + 8 * (ng + ns + nt + nl) ≤ size) &&
    (if field h 6 2 % 2 = 1 then decide (size = sig + 1288) else decide (sig = 0))

/-- The entry of a number in the entry tables (R26). -/
def tableEntry (tab : List Byte) (i : Nat) : List Byte := (tab.drop (8 * i)).take 8

/-- Sequence 3 of R29 on the entries. -/
def entryZeros (h tab : List Byte) : Bool :=
  let (ng, ns, nt, nl) := tableCounts h
  (List.range ng).all (fun i => let e := tableEntry tab i; decide (field e 1 1 < 2) && zeroField e 2 6) &&
    (List.range ns).all (fun i => zeroField (tableEntry tab (ng + i)) 1 3) &&
    (List.range nt).all (fun i => zeroField (tableEntry tab (ng + ns + i)) 6 2) &&
    (List.range nl).all (fun i => zeroField (tableEntry tab (ng + ns + nt + i)) 1 3)

/-- The configuration of a tile entry (R23, R26). -/
def tileEntry (e : List Byte) : TileCfg :=
  ⟨512 * field e 4 2, (ElemType.ofCode (field e 1 1)).getD .f32, field e 2 1 + 1, field e 3 1 + 1⟩

/-- Bytes of a tile entry's extent. -/
def tileEntryEnd (e : List Byte) : Nat :=
  let c := tileEntry e
  c.base + c.rows * c.cols * (if c.ty = .bf16 then 2 else 4)

/-- Sequence 4 of R29 on the entries. DEDUCED (log entry 49): a layout entry whose byte 0 is not its place among the layout entries has reason
2. -/
def entryLimits (h tab : List Byte) : Bool :=
  let (ng, ns, nt, nl) := tableCounts h
  let d := declOf h
  let data := field h 0x14 4
  let size := field h 8 4
  (List.range ng).all (fun i => decide (field (tableEntry tab i) 0 1 = i)) &&
    (List.range ns).all (fun i =>
      let e := tableEntry tab (ng + i)
      decide (field e 0 1 < d.st ∧ field e 4 4 % 64 = 0 ∧ data + field e 4 4 + 64 ≤ size)) &&
    (List.range nt).all (fun i =>
      let e := tableEntry tab (ng + ns + i)
      decide (field e 0 1 < d.t) && [14, 4, 12].contains (field e 1 1) && decide (tileEntryEnd e ≤ d.acc)) &&
    (List.range nl).all (fun i =>
      let e := tableEntry tab (ng + ns + nt + i)
      decide (field e 0 1 = i ∧ field e 4 4 % 32 = 0 ∧ data + field e 4 4 + 32 ≤ size))

/-- The limits of a layout record (R24, R342). -/
def layoutOk (r : List Byte) : Bool :=
  let dim := 32 * (field r 6 1 + 1)
  let size := if field r 7 1 = 12 then 2 else 1
  let pay := 32 * field r 5 1 * dim * size
  decide (field r 0 4 = 0x54564C4B) && decide (1 ≤ field r 5 1 ∧ field r 5 1 ≤ 16 ∧ field r 6 1 ≤ 7) &&
    [8, 9, 10, 12].contains (field r 7 1) && decide (field r 8 4 = pay ∧ pay ≤ 65536) &&
    decide (field r 12 4 = (8192 + pay + 4095) / 4096 * 4096)

/-- What a check by the firmware came to: a value, or a reason to refuse. -/
inductive Fw (α : Type) where
  | ok (s : State) (a : α)
  | no (s : State) (reason : Nat)
  deriving DecidableEq, Repr

/-- One check after another. -/
def Fw.bind {α β : Type} (r : Fw α) (k : State → α → Fw β) : Fw β :=
  match r with
  | .ok s a => k s a
  | .no s n => .no s n

/-- Reads bytes that a check needs; reason 17 where it cannot (R29). -/
def fwNeed (s : State) (asid : Asid) (va n : Nat) : Fw (List Byte) :=
  match fwRead s asid va n with
  | (s, some bs) => .ok s bs
  | (s, none) => .no s 17

/-- A check with its reason. -/
def fwCheck (s : State) (ok : Bool) (reason : Nat) : Fw Unit := if ok then .ok s () else .no s reason

/-- The layout records that the entries name, in order; one that does not fit in the image reads as empty. -/
def readLayouts (asid : Asid) (base : Nat) (h tab : List Byte) : List Nat → State → Fw (List (List Byte))
  | [], s => .ok s []
  | i :: r, s =>
    let (ng, ns, nt, _) := tableCounts h
    let off := field h 0x14 4 + field (tableEntry tab (ng + ns + nt + i)) 4 4
    if field h 8 4 < off + 32 then (readLayouts asid base h tab r s).bind fun s l => .ok s ([] :: l)
    else (fwNeed s asid (base + off) 32).bind fun s b => (readLayouts asid base h tab r s).bind fun s l => .ok s (b :: l)

/-- The key of a key slot; slot 0 holds the vendor release key (R460). -/
def State.keyOf (s : State) (i : Nat) : List Byte := if i = 0 then Config.releaseKey else s.keySlots.get [] i

/-- Whether a signature block's form is that of R28 and its signature verifies. DEDUCED (log entry 49): a block of another form, and a slot
without a key, have reason 4. -/
def signatureOk (s : State) (img : List Byte) (blk : List Byte) : Bool :=
  let n := field blk 6 2
  let slot := field blk 4 1
  decide (field blk 0 4 = 0x4749534B) && decide (slot < 8 ∧ field blk 5 1 = 0 ∧ 1 ≤ n ∧ n ≤ 1280) && zeroField blk (8 + n) (1280 - n) &&
    decide (s.keyOf slot ≠ []) && Config.falconVerify (s.keyOf slot) (Config.shake256 img) ((blk.drop 8).take n)

/-- The checks of reasons 1 to 5 (R29). DEDUCED (log entry 49): the layout records are read before the zero bytes of sequence 3 are judged. -/
def imageCheck (s : State) (asid : Asid) (base : Nat) (h : List Byte) : Fw Unit :=
  let (ng, ns, nt, nl) := tableCounts h
  (fwCheck s (headerZeros h) 1).bind fun s _ =>
    (fwCheck s (headerLimits h) 2).bind fun s _ =>
      (fwNeed s asid (base + field h 0x38 4) (8 * (ng + ns + nt + nl))).bind fun s tab =>
        (readLayouts asid base h tab (List.range nl) s).bind fun s lays =>
          (fwCheck s (entryZeros h tab && lays.all fun r => zeroField r 16 16) 1).bind fun s _ =>
            (fwCheck s (entryLimits h tab && lays.all layoutOk) 2).bind fun s _ =>
              if field h 6 2 % 2 = 0 then fwCheck s (decide (s.kimgpol.toNat % 2 = 0)) 3
              else
                let sig := field h 0x3C 4
                (fwNeed s asid base sig).bind fun s img =>
                  (fwNeed s asid (base + sig) 1288).bind fun s blk =>
                    (fwCheck s (signatureOk s img blk) 4).bind fun s _ =>
                      fwCheck s (decide (bitsOf s.kimgpol.toNat 15 8 / 2 ^ field blk 4 1 % 2 = 1)) 5

/-- Whether a core runs kernels of a class mask and an engine mask (R48). -/
def coreFits (class_ : BitVec 3) (engmask : BitVec 6) (c : Nat) : Bool :=
  let bit := match coreKind c with
    | .compute => 0
    | .attention => 1
    | .draft => 2
  class_.getLsbD bit && decide (engmask.toNat &&& engMaskOf c = engmask.toNat)

/-- Reasons 6 to 8, which every launch meets (R29, R31). -/
def launchFits (h tab rcd : List Byte) : Nat :=
  let ng := (tableCounts h).1
  let flags := field rcd 4 2
  if !(List.range 36).any (coreFits (.ofNat 3 (field h 0x35 1)) (.ofNat 6 (field h 0x34 1))) then 6
  else if flags % 2 = 0 ∧ (List.range ng).any fun i => decide (field (tableEntry tab i) 1 1 % 2 = 1) then 7
  else if field h 6 2 / 2 % 2 = 1 ∧ flags / 2 % 2 = 0 then 8
  else 0

/-! ### The list of checked images (R31, R32) -/

/-- The entry of an image. DEDUCED (log entry 49): an image is known by address space and base. -/
def State.image (s : State) (asid : Asid) (base : Nat) : Option ImageEntry :=
  s.images.find? fun e => e.asid == asid && decide (e.base = base)

/-- Replaces an entry. -/
def putImage (s : State) (e : ImageEntry) : State :=
  { s with images := s.images.map fun x => if x.asid = e.asid ∧ x.base = e.base then e else x }

/-- The leaves of a range: an address in each. -/
def leavesOf (s : State) (asid : Asid) : Nat → Nat → Nat → List Nat
  | 0, _, _ => []
  | fuel + 1, va, stop =>
    if stop ≤ va then []
    else match walk s asid va with
      | .bad _ => leavesOf s asid fuel (va + 65536) stop
      | .leaf _ vbase size _ => va :: leavesOf s asid fuel (vbase + size) stop

/-- The leaves of an image's pages, once its pages have been provided. -/
def imageLeaves (s : State) (asid : Asid) (base size : Nat) : List Nat := leavesOf s asid (size / 65536 + 2) base (base + size)

/-- Raises or lowers leaves, one after another; none when one has to wait (R320, R321). -/
def moveLeaves (asid : Asid) (up : Bool) : List Nat → State → Option State
  | [], s => some s
  | va :: r, s =>
    match if up then raiseLeaf s asid va else lowerLeaf s asid va with
    | .wait => none
    | .fault _ => moveLeaves asid up r s
    | .done s _ _ => moveLeaves asid up r s

/-- The pages of images without a live launch are thawed; an entry whose bit is clear leaves the list (R31, R32). -/
def thawImages (s : State) : State :=
  s.images.foldl (fun s e =>
    if e.live ≠ 0 ∨ !e.frozen then s
    else match moveLeaves e.asid false e.leaves s with
      | none => s
      | some s =>
        let s := putImage s { e with frozen := false, leaves := [] }
        if e.checked then s else { s with images := s.images.filter fun x => !(x.asid == e.asid && decide (x.base = e.base)) }) s

/-- Room for one more image on the list of 64: the entry that was checked least recently leaves it; none when every entry has a live
launch (R31). -/
def imageRoom (s : State) : Option State :=
  if s.images.length < 64 then some s
  else
    let idle := s.images.filter fun e => decide (e.live = 0) && !e.frozen
    match idle with
    | [] => none
    | e :: r =>
      let oldest := r.foldl (fun m x => if x.checkAt < m.checkAt then x else m) e
      some { s with images := s.images.filter (· ≠ oldest) }

/-- The digest by which an image is compared (R31). DEDUCED (log entry 49): it covers all KSIZE bytes. -/
def imageDigest (s : State) (asid : Asid) (base size : Nat) : List Byte := Config.shake256 (fwBytes s asid base size)

/-! ### Refusal and completion (R29, R44, R46) -/

/-- A launch is refused: the object, LASTWHY, the slot and the vector. DEDUCED (log entry 49): the object of a record whose DONE is not a
multiple of 16, or whose ASID has a bit above bit 11 set, is written at DONE in the address space of ASID's bits 11:0. -/
def refuseLaunch (s : State) (k : Nat) (rcd : List Byte) (reason : Nat) : State :=
  let asid : Asid := .ofNat 12 (field rcd 6 2)
  let q := s.queue k
  let (s, why) := if reason = 18 then (s, 18) else match launchObject s asid (field rcd 0x28 8) reason with
    | some s => (s, reason)
    | none => (s, 18)
  let s := s.setQueue k { s.queue k with
    sel := q.sel + 1, lastwhy := .ofNat 8 why, met := 0, hopeless := false, eligible := none }
  later (sendMsix (freeSlot s k q.sel) k) .schedulingPass

/-- The status word of a launch that ends (R46). -/
def launchStatus (l : Launch) : Nat :=
  l.firstTask.getD 0 * 2 ^ 32 + min l.faulted 65535 * 2 ^ 16 + l.cause.toNat * 2 ^ 8

/-- A launch completes: its object is written, its image is let go, and its slot is freed (R31, R44, R46, R456); of a share that
another package's queue launched, only the record here ends (log entry 21). -/
def completeLaunch (s : State) (l : Launch) : State :=
  let k := l.queue.toNat
  if l.remote then later { s with launches := s.launches.filter fun x => x.id ≠ l.id } .schedulingPass
  else
    let s := match launchObject s l.asid l.done (launchStatus l) with
      | some s => s
      | none => s.setQueue k { s.queue k with lastwhy := 18 }
    let s := match s.image l.asid l.image with
      | some e => putImage s { e with live := e.live - 1 }
      | none => s
    let s := thawImages { s with launches := s.launches.filter fun x => x.id ≠ l.id }
    later (later (sendMsix (freeSlot s k l.slot) k) .dependenceCheck) .schedulingPass

/-! ### Record checks (R44) -/

/-- Whether dependence objects and bitmaps of a record can be read (reason 17). -/
def objectsReadable (s : State) (asid : Asid) (rcd : List Byte) : State × Bool :=
  let tasks := field rcd 0x10 4
  let ranges := (List.range 4).filterMap (fun j =>
      let a := field rcd (0x30 + 16 * j) 8
      if a = 0 then none else some (a, 16)) ++
    (List.range 4).filterMap fun j =>
      let g := groupSpec rcd j
      if g.mode = 2 then some (g.count, (tasks + 7) / 8) else none
  ranges.foldl (fun r p => let (s, x) := fwRead r.1 asid p.1 p.2; (s, r.2 && x.isSome)) (s, true)

/-- Tasks of a DMEM that one die's scratch serves. -/
def scratchPlaces (s : State) (die dmem : Nat) : Nat :=
  if dmem = 0 then 8 else if die < 5 then 0 else 0x400000 * (s.dmcfg.get 0 die).toNat / dmem

/-- Tasks of a gang that an idle package holds (reason 19). -/
def gangPlaces (s : State) (class_ : BitVec 3) (engmask : BitVec 6) (dmem : Nat) (pinned : Bool) : Nat :=
  ((List.range 9).map fun die =>
    let cores := ((List.range 4).filter fun i => coreFits class_ engmask (4 * die + i)).length
    min (if pinned then cores else 2 * cores) (scratchPlaces s die dmem)).sum

/-- What the signal box keeps for a shared group. -/
def State.sharedGroup (s : State) (key : BitVec 16) (asid : Asid) : Option SharedGroup :=
  s.shared.find? fun g => g.key == key && g.asid == asid

/-- The shared groups that a record names, each once. -/
def sharedSpecs (rcd : List Byte) : List GroupSpec :=
  (((List.range 4).map (groupSpec rcd)).filter fun g => g.mode == 3).eraseDups

/-- Reason 20 on group entry `j` of a record of `tasks` tasks, whose own entries of one KEY agree (log entry 49). -/
def sharedOk (s : State) (asid : Asid) (rcd : List Byte) (tasks j : Nat) : Bool :=
  let g := groupSpec rcd j
  g.mode != 3 || ((sharedSpecs rcd).all fun x => x.key != g.key || decide (x.count = g.count)) &&
    match s.sharedGroup g.key asid with
    | none => decide (tasks ≤ g.count)
    | some x => decide (x.expect = g.count ∧ x.promised + tasks ≤ x.expect)

/-- A selected launch joins its shared groups, its tasks once for each (R37). -/
def promise (s : State) (asid : Asid) (rcd : List Byte) (tasks : Nat) : State :=
  (sharedSpecs rcd).foldl (fun s g =>
    match s.sharedGroup g.key asid with
      | none => { s with shared := s.shared ++ [⟨g.key, asid, g.count, tasks, 0, 0, 0, none⟩] }
      | some x => { s with shared := s.shared.map fun y =>
          if y.key = x.key ∧ y.asid = x.asid then { y with promised := y.promised + tasks } else y }) s

/-- Reads what the binding of R27 reads besides: the initial stream descriptors and the layout records (R29, reason 17). -/
def bindingNeeds (asid : Asid) (base : Nat) (h tab : List Byte) : List Nat → State → Fw Unit
  | [], s => .ok s ()
  | i :: r, s =>
    let (ng, ns, nt, nl) := tableCounts h
    let n := if i < ns then 64 else 32
    let k := if i < ns then ng + i else ng + nt + i
    if ns + nl ≤ i then .ok s ()
    else (fwNeed s asid (base + field h 0x14 4 + field (tableEntry tab k) 4 4) n).bind fun s _ => bindingNeeds asid base h tab r s

/-- The checks of a head launch, in their order: those of the record (R44), then those of the image (R29), and last whether the bytes that
only the binding reads can be read; the answer says besides whether the image was checked in full. -/
def headChecks (s : State) (k : Nat) (rcd : List Byte) : Fw (List Byte × Bool) :=
  let asid : Asid := .ofNat 12 (field rcd 6 2)
  let base := field rcd 8 8
  let tasks := field rcd 0x10 4
  let flags := field rcd 4 2
  let q := s.queue k
  let (s, hdr) := fwRead s asid base 128
  (fwCheck s (recordOk s rcd (hdr.map fun h => field h 0x30 1)) 16).bind fun s _ =>
    let (s, ok) := objectsReadable s asid rcd
    (fwCheck s (ok && hdr.isSome) 17).bind fun s _ =>
      let h := hdr.getD []
      let done := field rcd 0x28 8
      let s := provide s asid done 16
      (fwCheck s (reachable s asid 60 done 16) 18).bind fun s _ =>
        (fwCheck s (!(q.sender.any fun p => p.1 == q.sel && p.2 != asid)) 22).bind fun s _ =>
          let share := if flags / 4 % 2 = 1 then max (field rcd 0x14 2) (tasks - field rcd 0x14 2) else tasks
          let places := gangPlaces s (.ofNat 3 (field h 0x35 1)) (.ofNat 6 (field h 0x34 1)) (field h 0x28 4) (decide (flags / 2 % 2 = 1))
          (fwCheck s (decide (flags % 2 = 0 ∨ share ≤ places)) 19).bind fun s _ =>
            (fwCheck s ((List.range 4).all (sharedOk s asid rcd tasks)) 20).bind fun s _ =>
              let known := match s.image asid base with
                | some e => e.checked && (decide (e.live ≠ 0) || e.digest == imageDigest s asid base (field h 8 4))
                | none => false
              (if known then .ok s () else imageCheck s asid base h).bind fun s _ =>
                let (ng, ns, nt, nl) := tableCounts h
                (fwNeed s asid (base + field h 0x38 4) (8 * (ng + ns + nt + nl))).bind fun s tab =>
                  let r := launchFits h tab rcd
                  (fwCheck s (decide (r = 0)) r).bind fun s _ =>
                    (bindingNeeds asid base h tab (List.range (ns + nl)) s).bind fun s _ => .ok s (h, !known)

/-- The image's entry takes one more live launch, `full` when it has been checked in full: its pages are provided and frozen when this is
the first (R31); none while the launch has to wait. -/
def holdImage (s : State) (asid : Asid) (base size : Nat) (full : Bool) : Option State :=
  let s := provide s asid base size
  let leaves := imageLeaves s asid base size
  match s.image asid base with
  | some e =>
    let dig := imageDigest s asid base size
    let e := { e with
      live := e.live + 1, checked := true, checkAt := if full then s.cycle else e.checkAt
      digest := if e.live = 0 then dig else e.digest, size := size }
    if e.frozen then some (putImage s e)
    else (moveLeaves asid true leaves s).map fun s => putImage s { e with frozen := true, leaves := leaves }
  | none => match imageRoom s with
    | none => none
    | some s =>
      let e : ImageEntry := ⟨asid, base, imageDigest s asid base size, true, 1, s.cycle, true, size, leaves⟩
      (moveLeaves asid true leaves s).map fun s => { s with images := s.images ++ [e] }

/-- The bitmaps of a record's groups. -/
def groupMaps (s : State) (asid : Asid) (rcd : List Byte) : List (List Byte) :=
  (List.range 4).map fun j =>
    let g := groupSpec rcd j
    if g.mode = 2 then fwBytes s asid g.count ((field rcd 0x10 4 + 7) / 8) else []

/-- The launch that a record and a header give, selected at a priority (R44, R61). -/
def newLaunch (s : State) (k : Nat) (rcd h : List Byte) (prio : Nat) : Launch :=
  let q := s.queue k
  let flags := field rcd 4 2
  let tasks := field rcd 0x10 4
  let split := decide (flags / 4 % 2 = 1)
  let own := if split then field rcd 0x14 2 else tasks
  { id := s.nextLaunch, queue := .ofNat 4 k, slot := q.sel, gang := decide (flags % 2 = 1), pinned := decide (flags / 2 % 2 = 1)
    split := split, asid := .ofNat 12 (field rcd 6 2), image := field rcd 8 8, tasks := tasks, pkg1 := field rcd 0x14 2
    arg := .ofNat 64 (field rcd 0x18 8), argblk := .ofNat 64 (field rcd 0x20 8), done := field rcd 0x28 8
    groups := (List.range 4).map (groupSpec rcd), decl := declOf h, class_ := .ofNat 3 (field h 0x35 1)
    engmask := .ofNat 6 (field h 0x34 1), prio := .ofNat 3 prio, queued := List.range own, gidx := [none, none, none, none]
    maps := groupMaps s (.ofNat 12 (field rcd 6 2)) rcd, retired := 0, faulted := 0, firstTask := none, cause := 0
    remote := false, started := false, peer := false, tick := none, selAt := s.dt.toNat }

/-- The queue last selected at a priority (R60 step 2). -/
def tookTurn (s : State) (k prio : Nat) : State := { s with rrQueue := s.rrQueue.set 15 prio (.ofNat 4 k) }

/-- The head launch of a queue is selected at a priority, or refused, which is the queue's turn as well; it waits while its image has no place on the list or its
pages are being collected (R29, R31, R44). -/
def selectHead (s : State) (k prio : Nat) : State :=
  let rcd := headRecord s k
  match headChecks s k rcd with
  | .no s reason => tookTurn (refuseLaunch s k rcd reason) k prio
  | .ok s (h, full) =>
    let l := newLaunch s k rcd h prio
    match holdImage s l.asid l.image (field h 8 4) full with
    | none => s
    | some s =>
      let s := promise s l.asid rcd l.tasks
      let q := s.queue k
      let s := s.setQueue k { q with sel := q.sel + 1, met := 0, hopeless := false, eligible := none }
      tookTurn { s with launches := s.launches ++ [l], nextLaunch := s.nextLaunch + 1 } k prio

end Sys2Proof.Machine
end

