-- ==== Sys2Proof/Machine/SaveArea.lean ====
section
/-! DEFINITION. The save area of a task: its layout, what a save writes and what a bind reads back (R245, R268, R286, R389, R411,
R438 to R441). -/

namespace Sys2Proof.Machine

/-! ### The layout (R438) -/

/-- Bytes of a save area before the scratch. -/
def areaBase : Nat := 4456448
/-- The 64 KiB frames of a save area (R470). -/
def areaFrames (dmem : Nat) : Nat := 68 + dmem / 65536
/-- Offset of the task's scratch. -/
def scratchOffset : Nat := 0x440000
/-- Bytes of the parts before the accumulator image. -/
def frontBytes : Nat := 0x40000

/-- Writes numbers of `n` bytes at a step from an address on; a place reads zero before, so a zero is not written. -/
def putAll (pa step n : Nat) (s : State) (l : List (Nat × Nat)) : State :=
  l.foldl (fun s e => if e.2 = 0 then s else s.homeWriteBytes (pa + step * e.1) (toBytes n e.2)) s

/-- The members of a list with their places. -/
def placed {α : Type} (l : List α) (f : α → Nat) : List (Nat × Nat) := (l.zipIdx).map fun p => (p.2, f p.1)

/-- The word queues in the order of R438. -/
def wordQueues : List WordQ := [.xq, .aq, .ssq, .cq, .rq]

/-- The mask of the streams that a predicate names. -/
def streamMask (b : Bank) (p : Stream → Bool) : Nat := (b.streams.map fun e => if p e.2 then 2 ^ e.1 else 0).sum

/-- The last control word: RB, the open shadow sets and c0 to c15. -/
def controlWord (b : Bank) : Nat :=
  b.rb.toNat + b.shadows.toNat * 2 ^ 8 + ((List.range 16).map fun i => if b.creg (.ofNat 4 i) then 2 ^ (16 + i) else 0).sum

/-- The 64 bytes from 0x40 on. -/
def controlWords (b : Bank) : List Nat :=
  [b.fetch.next.toNat, b.tcc.toNat, b.vmode.toNat, b.mxmode.toNat, b.trapvec.toNat, b.trapcause.toNat, b.trapret.toNat, controlWord b]

/-- The words of a pending freeze. -/
def freezeWords (f : PendFreeze) : List Nat := [f.base, f.len, 2 ^ 63 + f.group.toNat, 0]

/-- The word of a tile in the save area. -/
def tileWord (t : Tile) : Nat :=
  match t.cfg with
  | none => 0
  | some c => 2 ^ 63 + c.toWord

/-- Writes the parts of a save area before the accumulator image, but for the fault record, and the scratch (R438). -/
def writeFront (pa key : Nat) (b : Bank) (s : State) : State :=
  let s := putAll (pa + 0x40) 8 8 s (placed (controlWords b) id)
  let s := putAll (pa + 0x80) 4 4 s
    [(0, streamMask b Stream.active + 2 ^ 16 * streamMask b Stream.held)]
  let s := putAll (pa + 0x200) 8 8 s (b.sregs.map fun e => (e.1, e.2.toNat))
  let s := putAll (pa + 0x400) 8 8 s (b.aregs.map fun e => (e.1, e.2.toNat))
  let s := putAll (pa + 0x500) 8 8 s (placed (b.freezes.flatMap freezeWords) id)
  let s := putAll (pa + 0x600) 64 64 s (b.streams.map fun e => (e.1, e.2.desc.toNat))
  let s := putAll (pa + 0xA00) 8 8 s (b.tiles.map fun e => (e.1, tileWord e.2))
  let s := wordQueues.zipIdx.foldl (fun s q =>
    putAll (pa + 0xC00 + 128 * q.2) 8 8 s (placed (b.wordQ q.1) fun e => (e.val.getD 0).toNat)) s
  let s := putAll (pa + 0xE80) 1 1 s (placed wordQueues fun q => (b.wordQ q).length)
  let s := putAll (pa + 0x1000) 128 128 s (b.mregs.map fun e => (e.1, e.2.toNat))
  let s := allEngs.foldl (fun s e => putAll (pa + 0x3000 + 128 * e.num) 8 8 s (placed (b.fifo e) BitVec.toNat)) s
  let s := putAll (pa + 0x3300) 1 1 s (placed allEngs fun e => (b.fifo e).length)
  let s := putAll (pa + 0x4000) 8 8 s [(0, key + 1)]
  let s := (List.range 8).foldl (fun s q =>
    putAll (pa + 0x10000 + 4096 * q) 512 512 s (placed (b.loadQ (.ofNat 3 q)) fun e => (e.val.getD 0).toNat)) s
  let s := (List.range 8).foldl (fun s q =>
    putAll (pa + 0x18000 + 4096 * q) 512 512 s (placed (b.storeQ (.ofNat 3 q)) fun e => (e.val.getD 0).toNat)) s
  let s := putAll (pa + 0x20000) 512 512 s (b.vregs.map fun e => (e.1, e.2.toNat))
  putAll (pa + scratchOffset) 1 1 s (b.scratch.map fun e => (e.1, e.2.toNat))

/-! ### The accumulator image (R245, R268, R439) -/

/-- The extent of a live copy in the bank's half. -/
def copyExtent (c : ShadowCopy) : TileCfg := { c.cfg with base := c.off }

/-- The granules that a save writes out when they are dirty: those of configured tiles and live copies. -/
def keptGranules (b : Bank) : List Nat :=
  ((b.tiles.flatMap fun e => match e.2 with
      | .configured c => granulesOf c
      | .unconfigured | .absent _ => []) ++ b.copies.flatMap fun c => granulesOf (copyExtent c)).eraseDups

/-- The granules that absent tiles name besides. -/
def absentGranules (b : Bank) : List Nat :=
  b.tiles.flatMap fun e => match e.2 with
    | .absent c => granulesOf c
    | .unconfigured | .configured _ => []

/-- The granules that hold something. -/
def heldGranules (b : Bank) : List Nat := (b.acc.keys.map (· / 512) ++ b.dirty.keys).eraseDups

/-- The dirty granules that a save does not keep: after a restore their bytes are not stated. -/
def lostGranules (b : Bank) : List Nat := (heldGranules b).filter fun g => !(keptGranules b).contains g && b.dirty.get false g

/-- 512 bytes that are not stated (log entry 9). -/
def freeGranule (fresh : Nat) : List Byte := (List.range 64).flatMap fun i => toBytes 8 (Config.freeWord (fresh + i)).toNat

/-- The half of the store as a save leaves it: free bytes where a granule is lost, nothing elsewhere. -/
def leftAcc : List Nat → Nat → Store Byte → Store Byte
  | [], _, a => a
  | g :: r, fresh, a => leftAcc r (fresh + 64) (Store.setRun zeroByte a (512 * g) (freeGranule fresh))

/-- Marks 8 bytes as holding an uncorrectable error. -/
def spoilWord (pa : Nat) (s : State) (w : Nat) : State :=
  (List.range 8).foldl (fun s i => { s with poison := s.poison.set false (pa + 8 * w + i) true }) s

/-- Writes a granule to the image at an address; its words in error stay so there (R264). -/
def saveGranule (b : Bank) (image : Nat) (s : State) (g : Nat) : State :=
  ((List.range 64).filter fun i => b.accBad.get false (64 * g + i)).foldl (fun s i => spoilWord image s (64 * g + i))
    (s.homeWriteBytes (image + 512 * g) (Store.getRun zeroByte b.acc (512 * g) 512))

/-- Writes the dirty granules that are kept to the image; the tiles become absent and the granules whose bytes the image holds are no longer
present (R245). -/
def saveTiles (s : State) (row : Nat) : State :=
  let b := s.bank row
  let lost := lostGranules b
  let s := ((keptGranules b).filter fun g => b.dirty.get false g).foldl (saveGranule b (saveAddr s row + imageOffset)) s
  let gone := ((heldGranules b ++ keptGranules b ++ absentGranules b ++ b.gone.keys).filter fun g => !lost.contains g).foldl
    (fun (m : Store Bool) g => m.set false g true) []
  let tiles := b.tiles.map fun e => (e.1, match e.2 with
    | .configured c => .absent c
    | x => x)
  { s.setBank row { b with acc := leftAcc lost s.fresh [], accBad := [], dirty := [], gone := gone, tiles := tiles } with
    fresh := s.fresh + 64 * lost.length }

/-- Live copies are restored before MX starts an entry (R268). -/
def restoreCopies (s : State) (row : Nat) : State :=
  ((s.bank row).copies.flatMap fun c => granulesOf (copyExtent c)).foldl (fun s g => restoreGranule s row g) s

/-! ### Engine entries at a save (R286, R389, R411) -/

/-- An entry as if it had not started. -/
def EngEntry.unstarted (x : EngEntry) : EngEntry :=
  { x with state := .waiting, started := false, pos := 0, sub := 0, kept := [], rows := [], stage := [], flags := 0, drawn := [], follow := [] }

/-- An entry as a save keeps it: a tagged copy before its write phase, a held SP command and an XSEND without a permit are saved
as unstarted. -/
def EngEntry.saved (x : EngEntry) (e : Eng) : EngEntry :=
  match x.state with
  | .permitWait _ => x.unstarted
  | .waiting | .held =>
    if (e == .cp && decide (x.btag ≠ 0)) || e == .sp then x.unstarted else x
  | .running .. | .ending .. | .staged | .following | .putting | .flying .. => x

/-- Changes every entry of the six queues, with its engine. -/
def Bank.mapEngine (b : Bank) (f : Eng → EngEntry → EngEntry) : Bank :=
  allEngs.foldl (fun b e => b.setEngQ e ((b.engQ e).map (f e))) b

/-! ### Reading a save area -/

/-- The bytes of an extent that are not zero, by offset. -/
def extentBytes (s : State) (pa n : Nat) : Store Byte :=
  (s.mem.filter fun e => decide (pa ≤ e.1) && decide (e.1 < pa + n)).map fun e => (e.1 - pa, e.2)

/-- A number of `n` bytes at an offset. -/
def numAt (img : Store Byte) (off n : Nat) : Nat := ofBytes (Store.getRun zeroByte img off n)

/-- A register file of `n` registers. -/
def fileOf {α : Type} [DecidableEq α] (d : α) (n : Nat) (f : Nat → α) : Store α :=
  (List.range n).foldl (fun m i => m.set d i (f i)) []

/-- Entries of a word queue with the saved words; those that were not filled stay so. -/
def readWords (img : Store Byte) (off : Nat) (l : List WordEntry) : List WordEntry :=
  l.zipIdx.map fun p => { p.1 with val := p.1.val.map fun _ => .ofNat 64 (numAt img (off + 8 * p.2) 8) }

/-- Entries of a vector queue with the saved data. -/
def readVecs (img : Store Byte) (off : Nat) (l : List VEntry) : List VEntry :=
  l.zipIdx.map fun p => { p.1 with val := p.1.val.map fun _ => .ofNat 4096 (numAt img (off + 512 * p.2) 512) }

/-- The pending freezes of a save area; how far the other package has applied them comes with the bank. -/
def readFreezes (img : Store Byte) (asid : Asid) (old : List PendFreeze) : List PendFreeze :=
  (List.range 8).filterMap fun i =>
    let w := numAt img (0x510 + 32 * i) 8
    if bitsOf w 63 63 = 1 then
      some ⟨asid, numAt img (0x500 + 32 * i) 8, numAt img (0x508 + 32 * i) 8, .ofNat 2 w, ((old[i]?).map PendFreeze.sent).getD 0⟩
    else none

/-- The tile of a saved word. -/
def readTile (w : Nat) : Tile := if bitsOf w 63 63 = 1 then .absent (TileCfg.ofWord (w % 2 ^ 63)) else .unconfigured

/-- The registers, the control words, the streams, the tiles and the queues of a bank from a save area (R438); what is the device's
own comes with the bank. -/
def readFront (img : Store Byte) (asid : Asid) (scratch : Store Byte) (b : Bank) : Bank :=
  let ctl (i : Nat) : Nat := numAt img (0x40 + 8 * i) 8
  let b := { b with
    fetch := { b.fetch with next := .ofNat 64 (ctl 0) }
    tcc := .ofNat 64 (ctl 1), vmode := .ofNat 64 (ctl 2), mxmode := .ofNat 5 (ctl 3)
    trapvec := .ofNat 64 (ctl 4), trapcause := .ofNat 64 (ctl 5), trapret := .ofNat 64 (ctl 6)
    rb := .ofNat 7 (ctl 7), shadows := .ofNat 4 (bitsOf (ctl 7) 11 8)
    cregs := fileOf false 16 fun i => decide (i ≠ 0) && decide (bitsOf (ctl 7) (16 + i) (16 + i) = 1)
    sregs := fileOf 0 64 fun i => if i = 0 then 0 else .ofNat 64 (numAt img (0x200 + 8 * i) 8)
    aregs := fileOf 0 32 fun i => if i = 0 then 0 else .ofNat 64 (numAt img (0x400 + 8 * i) 8)
    mregs := fileOf 0 64 fun i => if i = 0 then 0 else .ofNat 1024 (numAt img (0x1000 + 128 * i) 128)
    vregs := fileOf 0 256 fun i => .ofNat 4096 (numAt img (0x20000 + 512 * i) 512)
    freezes := readFreezes img asid b.freezes
    streams := fileOf Stream.reset 16 fun i => { b.stream i with
      desc := .ofNat 512 (numAt img (0x600 + 64 * i) 64)
      active := decide (bitsOf (numAt img 0x80 4) i i = 1), held := decide (bitsOf (numAt img 0x80 4) (16 + i) (16 + i) = 1) }
    tiles := fileOf .unconfigured 64 fun i => readTile (numAt img (0xA00 + 8 * i) 8)
    lq := fileOf [] 8 fun q => readVecs img (0x10000 + 4096 * q) (b.loadQ (.ofNat 3 q))
    sq := fileOf [] 8 fun q => readVecs img (0x18000 + 4096 * q) (b.storeQ (.ofNat 3 q))
    scratch := scratch }
  let b := wordQueues.zipIdx.foldl (fun b q => b.setWordQ q.1 (readWords img (0xC00 + 128 * q.2) (b.wordQ q.1))) b
  allEngs.foldl (fun b e =>
    b.setFifo e ((b.fifo e).zipIdx.map fun p => .ofNat 64 (numAt img (0x3000 + 128 * e.num + 8 * p.2) 8))) b

end Sys2Proof.Machine
end

