-- ==== Sys2Proof/Machine/Xg.lean ====
section
/-! DEFINITION. The exchange: slots, permits, XSEND, XGRANT and XRECV, and the arrival of timed puts (R377 to R392). -/

namespace Sys2Proof.Machine

/-! ### Slots and permits -/

/-- A slot of a die. -/
def State.slot (s : State) (die i : Nat) : XSlot := s.slots.get XSlot.reset (16 * die + i)
/-- Writes a slot. -/
def State.setSlot (s : State) (die i : Nat) (x : XSlot) : State := { s with slots := s.slots.set XSlot.reset (16 * die + i) x }
/-- The key of a permit FIFO of a sender die: the receiving die and the channel (R379). -/
def permitKey (sdie rdie chan : Nat) : Nat := (16 * sdie + rdie) * 16 + chan
/-- A permit FIFO. -/
def State.permitQ (s : State) (sdie rdie chan : Nat) : List (Asid × BitVec 4) := s.permits.get [] (permitKey sdie rdie chan)
/-- Writes a permit FIFO. -/
def State.setPermitQ (s : State) (sdie rdie chan : Nat) (l : List (Asid × BitVec 4)) : State :=
  { s with permits := s.permits.set [] (permitKey sdie rdie chan) l }

/-- Whether a slot belongs to a sender die, channel and address space (R378). -/
def XSlot.belongs (x : XSlot) (sdie chan : BitVec 4) (asid : Asid) : Bool :=
  x.state != .free && x.sdie == sdie && x.chan == chan && x.asid == asid

/-- A permit arrives at the sender die (R379): it enters its FIFO, and its slot takes its place in permit order. -/
def permitOp (s : State) (rdie sdie chan : BitVec 4) (asid : Asid) (slot : BitVec 4) : State :=
  let x := s.slot rdie.toNat slot.toNat
  let s := s.setSlot rdie.toNat slot.toNat { x with order := s.permitOrder }
  { s.setPermitQ sdie.toNat rdie.toNat chan.toNat (s.permitQ sdie.toNat rdie.toNat chan.toNat ++ [(asid, slot)]) with
    permitOrder := s.permitOrder + 1 }

/-- PERMIT. -/
def execPermit (rdie sdie chan : BitVec 4) (asid : Asid) (slot : BitVec 4) (s : State) : Out :=
  .next (permitOp s rdie sdie chan asid slot)

/-- A withdraw at the sender die: the permit is removed and the slot freed, or the slot is marked revoking (R378, R383). -/
def withdrawOp (s : State) (rdie sdie chan : BitVec 4) (asid : Asid) (slot : BitVec 4) : State :=
  let q := s.permitQ sdie.toNat rdie.toNat chan.toNat
  if q.contains (asid, slot) then
    (s.setPermitQ sdie.toNat rdie.toNat chan.toNat (q.filter (· ≠ (asid, slot)))).setSlot rdie.toNat slot.toNat XSlot.reset
  else s.setSlot rdie.toNat slot.toNat { s.slot rdie.toNat slot.toNat with revoking := true }

/-- WITHDRAW. -/
def execWithdraw (rdie sdie chan : BitVec 4) (asid : Asid) (slot : BitVec 4) (s : State) : Out :=
  .next (withdrawOp s rdie sdie chan asid slot)

/-- The messages of a die and channel that are still on their way. -/
def messagesFlying (s : State) (rdie : Nat) (sdie chan : BitVec 4) : Bool :=
  s.agenda.any fun a => match a with
    | .event (.permit r d c _ _) | .event (.withdraw r d c _ _) => decide (r.toNat = rdie) && d == sdie && c == chan
    | _ => false

/-- Sends a message to a die (R63): it is an act of the agenda. -/
def sendEvent (s : State) (i : Instr) : State := { s with agenda := s.agenda ++ [.event i] }

/-! ### Entries of the three streams (R382) -/

/-- The oldest entry of a stream, by its opcode. -/
def streamHead (b : Bank) (opc : Nat) : Option EngEntry := b.xg.find? fun x => decide (x.opc = opc)

/-- Flags of the status word (R386). -/
def xgTmiss : Nat := 2 ^ 24
def xgDerr : Nat := 2 ^ 23

/-- The status word of XG and WN: `sub` is VALUE, `pos` the slot (R386). -/
def xgStatus (x : EngEntry) (cause : Nat) : Nat :=
  x.sub % 2 ^ 32 * 2 ^ 32 + x.pos % 16 * 2 ^ 28 + x.flags.toNat % 2 ^ 28 + statusOf x.opc cause

/-- The record of an XG or WN fault: the command is named, no position within it (R387, R432). -/
def xgRecord (s : State) (e : Eng) (x : EngEntry) (cause addr : Nat) : FaultRec :=
  { entryFault s s.cur e x cause addr with pos := 0 }

/-- An XG or WN entry ends with a cause (R387). -/
def xgFail (s : State) (e : Eng) (x : EngEntry) (cause addr : Nat) : State :=
  endWith s s.cur e x (xgStatus x cause) (some (xgRecord s e x cause addr))

/-- An XG or WN entry is held by a translation that is not present, and ends with any other cause. -/
def xgStop (s : State) (e : Eng) (x : EngEntry) (cause addr : Nat) : State :=
  if cause = 0x06 then holdEntry s s.cur e x (xgRecord s e x cause addr) else xgFail s e x cause addr

/-- Runs the oldest entry of a stream when it stands for the command: R340, then XGCFG.EN (R377), when it starts. -/
def xgStart (s : State) (opc : Nat) (i : Instr) (k : State → EngEntry → State) : State :=
  let b := s.here
  match streamHead b opc with
  | none => s
  | some x =>
    if x.instr .xg ≠ some i || b.engBlocked .xg opc then s
    else match x.state with
      | .ending st ws => finishEntry s s.cur .xg x st.toNat ws none
      | .waiting =>
        if x.timedUnstarted || b.fifoWaits .xg x then s
        else if !mayExecute s s.cur .xg then xgFail s .xg x 0x07 0
        else if !s.xgcfg.get false (dieOf s.cur) then xgFail s .xg x 0x11 0
        else k s x
      | .held | .permitWait _ | .putting => k s x
      | .running .. | .staged | .following | .flying .. => s

/-! ### XGRANT (R383) -/

/-- Grants the slots of a mask in increasing order: the state, the number granted, and whether one could not be. -/
def grantSlots (die : Nat) (sdie chan : BitVec 4) (asid : Asid) : List Nat → State → Nat → State × Nat × Bool
  | [], s, n => (s, n, true)
  | i :: r, s, n =>
    let other := (List.range 16).any fun j =>
      let y := s.slot die j
      y.state != .free && y.sdie == sdie && y.chan == chan && y.asid != asid
    if (s.slot die i).state ≠ .free ∨ other then (s, n, false)
    else
      let s := s.setSlot die i ⟨.granted, sdie, chan, asid, false, s.permitOrder, [], []⟩
      grantSlots die sdie chan asid r (sendEvent s (.permit (.ofNat 4 die) sdie chan asid (.ofNat 4 i))) (n + 1)

/-- Withdraws the slots of a mask in increasing order. -/
def withdrawSlots (die : Nat) (sdie chan : BitVec 4) (asid : Asid) : List Nat → State → Nat → State × Nat × Bool
  | [], s, n => (s, n, true)
  | i :: r, s, n =>
    if !(s.slot die i).belongs sdie chan asid then (s, n, false)
    else withdrawSlots die sdie chan asid r (sendEvent s (.withdraw (.ofNat 4 die) sdie chan asid (.ofNat 4 i))) (n + 1)

/-- The slots that a mask names. -/
def maskSlots (m : BitVec 16) : List Nat := (List.range 16).filter fun i => m.getLsbD i

/-- XGRANT: the slots change and its messages leave; it ends when every message has arrived. -/
def grantRun (s : State) (i : Instr) (revoke : Bool) (sdie chan : BitVec 4) (slots : BitVec 16) : State :=
  xgStart s 2 i fun s x =>
    let die := dieOf s.cur
    let asid := (s.row s.cur).asid
    if x.state = .putting then
      if messagesFlying s die sdie chan then s else endWith s s.cur .xg x (xgStatus x 0) none
    else
      let r := if revoke then withdrawSlots die sdie chan asid (maskSlots slots) s 0
        else grantSlots die sdie chan asid (maskSlots slots) s 0
      let x := { x with sub := r.2.1 }
      if r.2.2 then setEntry r.1 s.cur .xg { x with state := .putting } else xgFail r.1 .xg x 0x11 0

def execXgrant (h : CmdHdr) (sdie chan : BitVec 4) (slots : BitVec 16) (s : State) : Out :=
  .next (grantRun s (.xgrant h sdie chan slots) false sdie chan slots)
def execXgrantRevoke (h : CmdHdr) (sdie chan : BitVec 4) (slots : BitVec 16) (s : State) : Out :=
  .next (grantRun s (.xgrantRevoke h sdie chan slots) true sdie chan slots)

/-! ### XSEND (R384) -/

/-- The lines of 128 bytes of a source that hold an uncorrectable error (R387). -/
def badLines (s : State) (row va n : Nat) : List Nat :=
  match translate s row .read true va n 64 with
  | .bad _ _ | .miss _ => []
  | .ok l => if s.poison = [] ∧ (s.bank row).scratchBad = [] then [] else
    (List.range ((n + 127) / 128)).filter fun k => (segPoison s row (l.map fun g => restrict g (va + 128 * k) 128)).isSome
where
  /-- The part of a segment within a range of addresses. -/
  restrict (g : Seg) (lo n : Nat) : Seg :=
    let a := max g.va lo
    let z := min (g.va + g.len) (lo + n)
    ⟨a, z - a, match g.loc with
      | .scratch off => .scratch (off + (a - g.va))
      | .phys pa c => .phys (pa + (a - g.va)) c⟩

/-- Flits of a transfer on the narrowest link of its route (R391): 256 bytes on the ring, 128 through the control die. -/
def flitsOf (i j n : Nat) : Nat :=
  let ring := latencyOf i j = 8 ∨ latencyOf i j = 24 ∨ (latencyOf i j = 48)
  let size := if ring then 256 else 128
  (n + size - 1) / size

/-- XSEND with its permit: the slot fills; a timed one arrives later (R384, R391). -/
def sendSlot (s : State) (x : EngEntry) (die chan slot : BitVec 4) (bytes : List Byte) (bad : List Nat) : State :=
  let i := dieOf s.cur
  let j := die.toNat
  let n := bytes.length
  let s := s.setPermitQ i j chan.toNat (s.permitQ i j chan.toNat).tail
  let y := { s.slot j slot.toNat with data := bytes, bad := bad, state := .filled }
  let x := { x with sub := n, pos := slot.toNat }
  let x := if bad = [] then x else { x with flags := x.flags ||| .ofNat 64 xgDerr }
  if x.startAt = 0 then endWith (s.setSlot j slot.toNat y) s.cur .xg x (xgStatus x 0) none
  else
    let lat := latencyOf i j + flitsOf i j n - 1
    setEntry (s.setSlot j slot.toNat { y with state := .filling }) s.cur .xg
      { x with state := .flying (s.dcc.get 0 i).toNat (s.cycle + lat) lat j }

/-- Whether every byte of a range lies on a die (R391). -/
def liesOnDie (s : State) (row va n die : Nat) : Bool := (pagesOf (n / 65536 + 2) va n).all fun p => decide (placeDie s row p.1 = die)

/-- XSEND: the check of the source, the wait for a permit of the task's address space, the transfer (R384, R390, R391). -/
def execXsend (h : CmdHdr) (src : W64) (die chan : BitVec 4) (lenM1 : BitVec 18) (s : State) : Out :=
  .next (xgStart s 1 (.xsend h src die chan lenM1) fun s x =>
    let n := lenM1.toNat + 1
    let own := dieOf s.cur
    if x.startAt ≠ 0 ∧ (!inSram s s.cur src 0 1 n ∨ !liesOnDie s s.cur src.toNat n own) then xgFail s .xg x 0x11 0
    else match engRead s s.cur x src.toNat n 1 with
      | .bad c a => xgStop s .xg x c a
      | .ok s bytes _ =>
        match s.permitQ own die.toNat chan.toNat with
        | (asid, slot) :: _ =>
          if asid = (s.row s.cur).asid then sendSlot s x die chan slot bytes (badLines s s.cur src.toNat n)
          else waitPermit s x
        | [] => waitPermit s x)
where
  /-- The entry waits for a permit from this cycle on. -/
  waitPermit (s : State) (x : EngEntry) : State :=
    match x.state with
    | .permitWait _ => s
    | _ => setEntry s s.cur .xg { x with state := .permitWait s.cycle }

/-- Cycles that an XSEND waits for a permit (R390). -/
def permitLimit : Nat := 16777216

/-- PERMIT_TIMEOUT: an XSEND of a row that has waited its bound for a permit ends with cause 0x04 (R390). -/
def execPermitTimeout (row : Nat) (s : State) : Out :=
  let s := { s with cur := row }
  .next (match streamHead s.here 1 with
    | none => s
    | some x => match x.state with
      | .permitWait since => if since + permitLimit ≤ s.cycle then xgFail s .xg x 0x04 0 else s
      | _ => s)

/-! ### XRECV (R385) -/

/-- The oldest granted slot of a channel of a die, in permit order; a slot that an XRECV is draining is that XRECV's own (R378, R392). -/
def oldestSlot (s : State) (die : Nat) (sdie chan : BitVec 4) (asid : Asid) : Option Nat :=
  (List.range 16).foldl (fun best i =>
    if !(s.slot die i).belongs sdie chan asid || (s.slot die i).state == .draining then best
    else match best with
      | none => some i
      | some j => if (s.slot die i).order < (s.slot die j).order then some i else some j) none

/-- The bytes that XRECV writes: the slot's, or the f32 sums with the destination's; a sum of a line in error is the canonical
NaN (R385, R387). -/
def recvBytes (old : List Byte) (y : XSlot) (add : Bool) : List Byte :=
  if add then
    (List.range (y.data.length / 4)).flatMap fun i =>
      let at4 (l : List Byte) : Nat := ofBytes ((l.drop (4 * i)).take 4)
      toBytes 4 (if y.bad.contains (4 * i / 128) then 0x7FC00000 else addF32 .rne (at4 old) (at4 y.data))
  else y.data

/-- The slot is drained: granted again with a new permit, or free when it is revoking (R378). -/
def drainSlot (s : State) (die i : Nat) : State :=
  let y := s.slot die i
  if y.revoking then s.setSlot die i XSlot.reset
  else sendEvent (s.setSlot die i { y with state := .granted, data := [], bad := [], order := s.permitOrder })
    (.permit (.ofNat 4 die) y.sdie y.chan y.asid (.ofNat 4 i))

/-- The slot that an XRECV drains: the one that it holds, or the oldest of its channel once it is filled (R385). -/
def recvSlot (s : State) (x : EngEntry) (die : Nat) (sdie chan : BitVec 4) (asid : Asid) : Option Nat :=
  if x.state = .held then some x.pos
  else (oldestSlot s die sdie chan asid).filter fun i => (s.slot die i).state == .filled

/-- XRECV: waits for the oldest slot of the channel to be filled, checks and writes the destination, and drains the slot. -/
def execXrecv (h : CmdHdr) (dst : W64) (sdie chan : BitVec 4) (addf32 : Bool) (s : State) : Out :=
  .next (xgStart s 3 (.xrecv h dst sdie chan addf32) fun s x =>
    let die := dieOf s.cur
    match recvSlot s x die sdie chan (s.row s.cur).asid with
    | none => s
    | some i =>
        let y := s.slot die i
        let n := y.data.length
        let x := { x with pos := i }
        match engClaim s s.cur .xg x.id dst.toNat n 1 with
        | .wait => s
        | .bad c a => xgStop (s.setSlot die i { y with state := if c = 0x06 then .draining else .filled }) .xg x c a
        | .ok s =>
          let old := match translate s s.cur .write true dst.toNat n 1 with
            | .ok l => segBytes s s.cur l
            | .miss _ | .bad _ _ => []
          let s := engStore s s.cur dst.toNat (recvBytes old y addf32)
          let s := if addf32 then s else y.bad.foldl (fun s k => spoil s s.cur (dst.toNat + 128 * k) (min 128 (n - 128 * k))) s
          let x := { x with sub := n, flags := if y.bad = [] then x.flags else x.flags ||| .ofNat 64 xgDerr }
          endWith (drainSlot s die i) s.cur .xg x (xgStatus x 0) none)

/-! ### Timed puts (R118, R284, R391) -/

/-- Whether an arrival at count `a` is on time (R118). -/
def onTime (stamp lat : Nat) (a : W64) : Bool := decide ((stamp + lat) % 2 ^ 64 = a.toNat)

/-- TIMED_PUT_ARRIVAL: the receiver compares its count with the stamp; the data is delivered either way, and a mismatch raises
cause 0x0A (R118). -/
def execTimedPutArrival (row : Nat) (e : Eng) (id : Nat) (a : W64) (s : State) : Out :=
  let s := { s with cur := row }
  .next (match (s.here.engQ e).find? fun x => decide (x.id = id) with
    | none => s
    | some x => match x.state with
      | .flying stamp _ lat die =>
        let ok := onTime stamp lat a
        let x := if ok then x else { x with flags := x.flags ||| .ofNat 64 xgTmiss }
        if e = .xg then
          let y := s.slot die x.pos
          let s := s.setSlot die x.pos { y with state := .filled }
          endWith s row e x (xgStatus x 0) (if ok then none else some (xgRecord s e x 0x0A 0))
        else if x.opc = 4 then
          cpFinish (if ok then s else raiseEngine s row e (cpRecord s x 0x0A 0)) x
        else endWith s row e x (cpStatus x 0) (if ok then none else some (cpRecord s x 0x0A 0))
      | _ => s)

end Sys2Proof.Machine
end

