-- ==== Sys2Proof/Machine/Wn.lean ====
section
/-! DEFINITION. Windows of the package pair: WREG, WPUT, WCNT and the puts that arrive (R393 to R397). -/

namespace Sys2Proof.Machine

/-- A window of the table. -/
def State.window (s : State) (w : BitVec 6) : Window := s.win.get Window.reset w.toNat
/-- Writes a window. -/
def State.setWindow (s : State) (w : BitVec 6) (x : Window) : State := { s with win := s.win.set Window.reset w.toNat x }

/-- Whether the other package can be reached (R396, R458). -/
def pairReady (s : State) : Bool := s.dual && s.devstat.pairup && !s.devstat.pairdown

/-- Runs the head of the WN queue; the right of R340 is checked when it starts. -/
def wnStart (s : State) (i : Instr) (k : State → EngEntry → State) : State :=
  runHead s .wn i fun s x =>
    if x.state = .waiting ∧ !mayExecute s s.cur .wn then xgFail s .wn x 0x07 0 else k s x

/-! ### WREG (R395) -/

/-- The checks of a window's range as stores, R225 rows 1 and 3 to 6. -/
def windowFault (s : State) (base n : Nat) : Option (Nat × Nat) :=
  match translate s s.cur .write true base n 64 with
  | .bad c a => some (c, a)
  | .miss a => some (0x06, a)
  | .ok l => (l.find? fun g => frozenAt s s.cur g.va).map fun g => (0x08, g.va)

/-- A window's sideband message: the other package resets SND of the same number (R393). -/
def sendReset (s : State) (w : BitVec 6) : State :=
  if s.dual then { s with sideOut := s.sideOut ++ [.windowReset w] } else s

/-- WREG: registers a window, or with length 0 unregisters it. -/
def execWreg (h : CmdHdr) (wid : BitVec 6) (base : W64) (len : BitVec 32) (s : State) : Out :=
  .next (wnStart s (.wreg h wid base len) fun s x =>
    let w := s.window wid
    let done (s : State) : State :=
      let x := { x with sub := len.toNat }
      endWith (sendReset s wid) s.cur .wn x (xgStatus x 0) none
    if len = 0 then done (s.setWindow wid { w with len := 0, rcv := 0 })
    else if w.len ≠ 0 then xgFail s .wn x 0x14 0
    else match windowFault s base.toNat len.toNat with
      | some (c, a) => xgStop s .wn x c a
      | none => done (s.setWindow wid { w with asid := (s.row s.cur).asid, base := base, len := len, rcv := 0 }))

/-! ### WPUT (R396) -/

/-- The other package's answer to a put; it is not this package's, so it is a free value (log entry 14). -/
inductive PutAnswer where
  | notYet
  | counted
  | refused (cause : Nat)
  deriving DecidableEq, Repr

/-- Reads a free value as an answer. -/
def putAnswer (w : W64) : PutAnswer :=
  match w.toNat % 8 with
  | 0 | 1 | 2 => .notYet
  | 3 | 4 => .counted
  | 5 => .refused 0x14
  | 6 => .refused 0x07
  | _ => .refused 0x08

/-- A put has been counted by the other package: SND rises by 1 and the WPUT ends (R396). -/
def putCountedOp (s : State) (row id : Nat) (wid : BitVec 6) : State :=
  let s := { s with cur := row }
  match s.here.wn.find? fun x => decide (x.id = id) with
  | none => s
  | some x =>
    if x.state = .putting then
      let w := s.window wid
      let moved := match x.instr .wn with
        | some (.wput _ _ _ _ lenM1) => lenM1.toNat + 1
        | _ => 0
      endWith (s.setWindow wid { w with snd := w.snd + 1 }) row .wn x (xgStatus { x with sub := moved } 0) none
    else s

/-- PUT_COUNTED. -/
def execPutCounted (row id : Nat) (wid : BitVec 6) (s : State) : Out := .next (putCountedOp s row id wid)

/-- WPUT: reads the source, sends the put, and awaits the other package. -/
def execWput (h : CmdHdr) (src : W64) (wid : BitVec 6) (off : BitVec 32) (lenM1 : BitVec 24) (s : State) : Out :=
  .next (wnStart s (.wput h src wid off lenM1) fun s x =>
    if !pairReady s then xgFail s .wn x 0x14 0
    else if x.state = .putting then
      let r := takeFree s
      match putAnswer r.1 with
      | .notYet => r.2
      | .counted => putCountedOp r.2 s.cur x.id wid
      | .refused c => xgFail r.2 .wn x c 0
    else match engRead s s.cur x src.toNat (lenM1.toNat + 1) 1 with
      | .bad c a => xgStop s .wn x c a
      | .ok s bytes err =>
        let x := { x with state := .putting }
        let x := if err then { x with flags := x.flags ||| .ofNat 64 xgDerr } else x
        { setEntry s s.cur .wn x with sideOut := s.sideOut ++ [.put s.cur x.id wid off bytes] })

/-! ### Puts that arrive (R393, R396) -/

/-- What the check of a put came to: its physical segments, or the cause with which it is refused. -/
inductive PutCheck where
  | ok (l : List (Nat × Nat))
  | refused (cause : Nat)
  deriving DecidableEq, Repr

/-- The physical segments of a window's range, where every byte may be written by master 125 (R340, R396). -/
def putSegs (s : State) (asid : Asid) : List (Nat × Nat) → PutCheck
  | [] => .ok []
  | (va, n) :: r =>
    match walk s asid va with
    | .bad _ => .refused 0x07
    | .leaf pte vbase _ _ =>
      let pa := pteAddr pte + (va - vbase)
      let may := match targetOf s pa with
        | none => false
        | some t => hasRight s t .wr 125 asid && (boxOnly s true pa n).isNone
      if !may then .refused 0x07
      else if pteFcnt pte ≠ 0 then .refused 0x08
      else match putSegs s asid r with
        | .ok l => .ok ((pa, n) :: l)
        | .refused c => .refused c

/-- Writes the bytes of a put at their homes. -/
def putBytes (s : State) : List (Nat × Nat) → List Byte → State
  | [], _ => s
  | (pa, n) :: r, bs => putBytes (s.homeWriteBytes pa (bs.take n)) r (bs.drop n)

/-- The check of a put as a whole: the window, its length, and its pages (R396). -/
def putCheck (s : State) (w : Window) (off n : Nat) : PutCheck :=
  if s.devstat.pwr = 3 ∨ w.len = 0 ∨ w.len.toNat < off + n then .refused 0x14
  else putSegs s w.asid (pagesOf (n / 65536 + 2) (w.base.toNat + off) n)

/-- PUT_ARRIVAL: a put is checked as a whole before any byte is written; an accepted one is written and counted, and the sending package is told
of either (R393, R396). -/
def execPutArrival (wid : BitVec 6) (off : BitVec 32) (bytes : List Byte) (s : State) : Out :=
  let w := s.window wid
  .next (match putCheck s w off.toNat bytes.length with
    | .refused c => { s with sideOut := s.sideOut ++ [.putRefused wid c] }
    | .ok l =>
      let s := (putBytes s l bytes).setWindow wid { w with rcv := w.rcv + 1 }
      { s with sideOut := s.sideOut ++ [.putCounted wid] })

/-- WINDOW_RESET: the other package's WREG resets SND of its number (R393). -/
def execWindowReset (wid : BitVec 6) (s : State) : Out := .next (s.setWindow wid { s.window wid with snd := 0 })

/-! ### WCNT (R397) -/

/-- WCNT: the counter of an end goes into the result FIFO, at once or when it has reached its target. -/
def execWcnt (h : CmdHdr) (wait : Bool) (wid : BitVec 6) (sndEnd : Bool) (target : W64) (s : State) : Out :=
  .next (wnStart s (.wcnt h wait wid sndEnd target) fun s x =>
    let w := s.window wid
    let v := if sndEnd then w.snd else w.rcv
    let status : W64 := .ofNat 64 (xgStatus x 0)
    let words := if x.res then [v, status] else [v]
    if sndEnd && !pairReady s then xgFail s .wn x 0x14 0
    else if wait && decide (v.toNat < target.toNat) then s
    else finishEntry s s.cur .wn x status.toNat words none)

end Sys2Proof.Machine
end

