-- ==== Sys2Proof/Machine/Tasks.lean ====
section
/-! DEFINITION. The life of a task: bind, switch, pre-emption and save, the answers to a fault, termination and retirement
(R27, R51 to R56, R59, R429 to R443). -/

namespace Sys2Proof.Machine

/-! ### Groups of a row (R54 to R56) -/

/-- The group-table entries that GV and GIDX map, each once: two local groups may share one (R37). -/
def mappedGroups (gv : BitVec 4) (gidx : BitVec 32) : List Nat :=
  (((List.range 4).filter fun j => gv.getLsbD j).map fun j => bitsOf gidx.toNat (8 * j + 7) (8 * j)).eraseDups

/-- The group-table entries that a row maps. -/
def rowGroups (r : Row) : List Nat := mappedGroups r.gv r.gidx

/-- The cores on which a group has a member bound. -/
def cmaskOf (s : State) (g : Nat) : BitVec 36 :=
  (List.range 72).foldl (fun m row =>
    if (s.row row).state ≠ .free ∧ (rowGroups (s.row row)).contains g then m ||| .ofNat 36 (2 ^ coreOf row) else m) 0

/-- CMASK follows binding and unbinding (R56). -/
def refreshMasks (s : State) (l : List Nat) : State :=
  l.foldl (fun s g => s.setGroup g { s.group g with cmask := cmaskOf s g }) s

/-- Changes what is kept for the shared group of a table entry. -/
def modShared (s : State) (x : Group) (f : SharedGroup → SharedGroup) : State :=
  { s with shared := s.shared.map fun y => if y.key = x.key ∧ y.asid = x.asid then f y else y }

/-- A member joins a shared group at its first bind (R37). -/
def joinGroup (s : State) (g : Nat) : State :=
  if (s.group g).key = 0 then s else modShared s (s.group g) fun y => { y with joined := y.joined + 1 }

/-- A member retires: its own group's entry is freed with the last of them, a shared one when all have joined and retired
(R37, R55, R442). -/
def leaveGroup (s : State) (g : Nat) : State :=
  let x := s.group g
  let s := s.setGroup g (if x.key = 0 ∧ x.live + 1 = x.expect.toNat then Group.reset else { x with live := x.live + 1 })
  if x.key = 0 then s
  else
    let s := modShared s x fun y => { y with left := y.left + 1 }
    match s.sharedGroup x.key x.asid with
    | none => s
    | some y =>
      if y.joined + y.away = y.expect ∧ y.left + y.away = y.expect then
        { s.setGroup g Group.reset with shared := s.shared.filter fun z => !(z.key == x.key && z.asid == x.asid) }
      else s

/-- A member waits at its barrier no more: ARRIVED, which counts those that wait, falls, and its PHASE has not been executed (R54, R58,
R435; log entry 23). -/
def withdraw (s : State) (row : Nat) : State :=
  match (s.bank row).sWait, phaseGroup (s.bank row) with
  | .arrived gen, some k =>
    let gi := groupIndex s row k
    let g := s.group gi
    if gen == g.gen then
      (s.setGroup gi { g with arrived := g.arrived - 1, since := if g.arrived = 1 then 0 else g.since }).modBank row fun b =>
        { b with sWait := .idle }
    else s
  | _, _ => s

/-! ### Bind (R27, R59, R434, R440) -/

/-- Tasks of a launch that this package runs (R45). -/
def Launch.own (l : Launch) : Nat := if !l.split then l.tasks else if l.remote then l.tasks - l.pkg1 else l.pkg1

/-- A launch by its name. -/
def State.launchOf (s : State) (id : Nat) : Option Launch := s.launches.find? fun l => l.id = id
/-- Replaces a launch. -/
def putLaunch (s : State) (l : Launch) : State := { s with launches := s.launches.map fun x => if x.id = l.id then l else x }

/-- The launch that a row names (R59). -/
def rowLaunch (s : State) (r : Row) : Option Launch :=
  s.launches.find? fun l =>
    decide (l.queue.toNat = r.launch.toNat / 4096) && decide (l.slot.toNat % 4096 = r.launch.toNat % 4096) && l.asid == r.asid &&
      decide (l.image / 65536 = r.image.toNat)

/-- The initial descriptors of an image's streams (R26). -/
def entryStreams (s : State) (l : Launch) (h tab : List Byte) : Store Stream :=
  let (ng, ns, _, _) := tableCounts h
  (List.range ns).foldl (fun m i =>
    let e := tableEntry tab (ng + i)
    let d := fwBytes s l.asid (l.image + field h 0x14 4 + field e 4 4) 64
    m.set Stream.reset (field e 0 1) { Stream.reset with desc := .ofNat 512 (ofBytes d) }) []

/-- The tiles that an image configures (R26). -/
def entryTiles (h tab : List Byte) : Store Tile :=
  let (ng, ns, nt, _) := tableCounts h
  (List.range nt).foldl (fun m i =>
    let e := tableEntry tab (ng + ns + i)
    m.set .unconfigured (field e 0 1) (.configured (tileEntry e))) []

/-- The layout records of an image, in order (R26). -/
def entryLayouts (s : State) (l : Launch) (h tab : List Byte) : List (List Byte) :=
  let (ng, ns, nt, nl) := tableCounts h
  (List.range nl).map fun i =>
    fwBytes s l.asid (l.image + field h 0x14 4 + field (tableEntry tab (ng + ns + nt + i)) 4 4) 32

/-- THE STATE AT ENTRY (R27): task index, task count, argument, the data section and the argument block; the streams and tiles of
the image; everything else zero, unconfigured or empty. -/
def entryBank (s : State) (l : Launch) (task : Nat) : Bank :=
  let h := fwBytes s l.asid l.image 128
  let (ng, ns, nt, nl) := tableCounts h
  let tab := fwBytes s l.asid (l.image + field h 0x38 4) (8 * (ng + ns + nt + nl))
  let b := { Bank.reset with
    launch := l.id
    tasks := l.tasks
    decl := declOf h
    lays := entryLayouts s l h tab
    streams := entryStreams s l h tab
    tiles := entryTiles h tab
    fetch := ⟨.ofNat 64 (l.image + field h 0xC 4 + field h 0x1C 4), true, s.cycle + 1⟩ }
  let b := ((b.setS 1 (.ofNat 64 task)).setS 2 (.ofNat 64 l.tasks)).setS 3 l.arg
  (b.setA 1 (.ofNat 64 (l.image + field h 0x14 4))).setA 2 l.argblk

/-- Whether a bind OP is accepted (R59). -/
def bindAccepted (s : State) (row : Nat) : Bool :=
  let r := s.row row
  let o := s.row (siblingOf row)
  r.state == .free && (o.state == .free || (!o.pinned && !r.pinned))

/-- An OP that is not accepted changes nothing but OPERR (R59). -/
def opError (s : State) (row : Nat) : State := s.modRow row fun r => { r with operr := true, op := 0 }

/-- Streams that a row of ours cannot hold while it owns a bank are named by their saved key: 1000 + key is no row. -/
def savedRow (key : Nat) : Nat := 1000 + key

/-- Gives what the commands of one row own to another name (R311). -/
def renameOwners (s : State) (from_ to_ : Nat) : State :=
  { s with dir := s.dir.map fun e => (e.1, e.2.map fun o => match o with
      | .cmd r g i => if r = from_ then .cmd to_ g i else o
      | .task _ => o) }

/-- The units go on after an answer: nothing is outstanding, held streams go on, and only the engines that keep a fault start nothing
(R429, R433). -/
def resumeUnits (b : Bank) : Bank :=
  releaseHeld { b with
    fault := none, stopS := false, stopA := false, stopV := false
    blocked := b.faults.foldl (fun m p => m ||| .ofNat 8 (2 ^ blockBit p.1 p.2.opc.toNat)) 0 }

/-- A skip: the TRAP leaves the S queue and the next line is the one after its own (R433). -/
def skipTrap (b : Bank) : Bank :=
  let line := (b.headEntry .S).line
  { b with sQueue := b.sQueue.tail, fetch := { b.fetch with next := .ofNat 64 ((line.toNat + 32) % 2 ^ 48) } }

/-- A task becomes bound, or halting when it was halting, and may fetch from a cycle on (R52, R53). -/
def makeBoundAt (ready : Nat) (s : State) (row : Nat) : State :=
  let s := s.modRow row fun r => { r with state := if r.halted then .halting else .bound, halted := false, since := s.cycle }
  s.modBank row fun b => { b with fetch := { b.fetch with ready := max b.fetch.ready ready } }

/-- A task that may issue again fetches first in the cycle after it becomes bound (R53). -/
def makeBound (s : State) (row : Nat) : State := makeBoundAt (s.cycle + 1) s row

/-- A restored task acts on its fault record (R434). -/
def applyRecord (s : State) (row : Nat) : State :=
  match (s.bank row).fault with
  | none => makeBound s row
  | some f =>
    match (s.home (saveAddr s row + 56)).toNat with
    | 1 => makeBound (s.modBank row resumeUnits) row
    | 2 => makeBound (s.modBank row fun b => resumeUnits (skipTrap b)) row
    | _ => (s.homeWriteBytes (saveAddr s row) f.bytes).modRow row fun r =>
        { r with state := if f.cause = 0x06 then .waiting else .faulted }

/-- Loads the state that a save wrote (R440). -/
def restoreBank (s : State) (row : Nat) : State :=
  let pa := saveAddr s row
  match s.homeNat (pa + 0x4000) 8 with
  | 0 => s
  | key + 1 =>
    match s.saves.get none key with
    | none => s
    | some b =>
      let b := readFront (extentBytes s pa frontBytes) (s.row row).asid (extentBytes s (pa + scratchOffset) b.decl.dmem) b
      let s := renameOwners { s.setBank row b with saves := s.saves.set none key none } (savedRow key) row
      restoreCopies { s with preempted := s.preempted.filter fun p => p.save ≠ (s.row row).save } row

/-- BIND_OP (R27, R52, R59, R434, R440). -/
def bindOp (s : State) (row : Nat) : State :=
  let r := s.row row
  if !bindAccepted s row then opError s row
  else
    let s := s.modRow row fun r => { r with operr := false, op := 0, halted := false, bindAt := s.cycle }
    let was := (s.preempted.find? fun p => p.save = r.save).map Preempted.halted
    let s :=
      if r.resume then
        applyRecord ((restoreBank s row).modRow row fun r => { r with halted := was.getD false, state := .bound }) row
      else match rowLaunch s r with
        | none => makeBound s row
        | some l => makeBound ((rowGroups r).foldl joinGroup (s.setBank row (entryBank s l r.task.toNat))) row
    let s := if r.hold && (s.row row).state == .bound then s.modRow row fun r => { r with state := .waiting } else s
    refreshMasks (s.modBank row fun b => { b with info := taskInfo r }) (rowGroups r)

/-- BIND_OP. -/
def execBindOp (row : Nat) (s : State) : Out := .next (bindOp s row)

/-! ### Switch (R53, R59) -/

/-- SWITCH_OP: the core leaves the sibling at its next line boundary (R52, R53, R59). -/
def switchOp (s : State) (row : Nat) : State :=
  let o := siblingOf row
  if (s.row row).state == .bound && (s.row o).state == .running && !(s.row o).pinned then
    let s := s.modRow row fun r => { r with operr := false, op := 0 }
    leaveBank (s.modRow o fun r => { r with state := .bound, since := s.cycle }) o
  else opError s row

/-- SWITCH_OP. -/
def execSwitchOp (row : Nat) (s : State) : Out := .next (switchOp s row)

/-- Whether a bank may be selected: its task is bound (R53). -/
def mayIssue (s : State) (row : Nat) : Bool := (s.row row).state == .bound

/-- The bank that an idle core selects: the one that entered bound earlier, bank 0 in a tie (R53). -/
def nextBank (s : State) (core : Nat) : Option Bool :=
  match mayIssue s (2 * core), mayIssue s (2 * core + 1) with
  | false, false => none
  | true, false => some false
  | false, true => some true
  | true, true => some (decide ((s.row (2 * core + 1)).since < (s.row (2 * core)).since))

/-- Cycles of a switch (R53). -/
def switchCost : Nat := 8

/-- BANK_SWITCH: an idle core selects a bank and pays for another than the last (R53). -/
def bankSwitch (s : State) (core : Nat) : State :=
  let k := s.coreAt core
  match k.run, nextBank s core with
  | none, some bank =>
    let row := 2 * core + bank.toNat
    let s := s.modRow row fun r => { r with state := if r.state = .bound then .running else r.state }
    s.setCore core ⟨some bank, some bank, if k.last = some (!bank) then switchCost else 0⟩
  | _, _ => s

/-- BANK_SWITCH. -/
def execBankSwitch (core : Nat) (s : State) : Out := .next (bankSwitch s core)

/-! ### Pre-emption and the save (R436 to R439, R443) -/

/-- PREEMPT_OP (R52, R59, R436). -/
def preemptOp (s : State) (row : Nat) : State :=
  let r := s.row row
  let ok := match r.state with
    | .bound | .running | .waiting | .faulted | .halting => !r.pinned
    | .free | .saving => false
  if ok then
    leaveBank (s.modRow row fun r =>
      { r with
        state := .saving, halted := r.halted || decide (r.state = .halting), operr := false, op := 0, leftAt := s.dt.toNat }) row
  else opError s row

/-- PREEMPT_OP. -/
def execPreemptOp (row : Nat) (s : State) : Out := .next (preemptOp s row)

/-- Whether an entry has started and has to end before a save or a termination: neither held by a fault nor before its first effect
(R286, R389, R411, R436). -/
def EngEntry.drains (x : EngEntry) (b : Bank) (e : Eng) : Bool :=
  let saved := (e == .cp && decide (x.btag ≠ 0)) || e == .sp
  match x.state with
  | .running .. | .staged | .putting | .flying .. => true
  | .following => decide (b.mx.length < engDepth .mx)
  | .ending .. => !b.engBlocked e x.opc
  | .held => !saved && !b.engBlocked e x.opc
  | .waiting => !saved && (x.started || decide (x.pos ≠ 0) || decide (x.sub ≠ 0))
  | .permitWait _ => false

/-- Whether no entry of a bank has to end first. -/
def drained (b : Bank) : Bool := allEngs.all fun e => !(b.engQ e).any fun x => x.drains b e

/-- Whether atomics that have issued are not awaited: there is none, or the oldest met a fault at its home. -/
def atomicsSettled (b : Bank) : Bool :=
  match b.atomics with
  | [] => true
  | a :: _ => a.refused

/-- Whether the save may be made (R219, R436 steps 3 to 5, R437). -/
def saveReady (s : State) (b : Bank) : Bool :=
  drained b && !tileWrites b && decide (b.loads = []) && atomicsSettled b &&
    (match b.aWait with
      | .idle | .acking | .resending _ => true
      | .thawing _ l => !l.any (collecting s)
      | .invalidating _ | .stopping _ => b.stopA) &&
    (match b.sWait with
      | .realigning _ => b.stopS
      | .idle | .released | .arrived _ | .freezing _ _ | .acking | .frozen | .counting _ _ | .halting _ => true)

/-- The kind of a core as a bit of CORECLASS (R25). -/
def kindBit (c : Nat) : BitVec 3 := match coreKind c with
  | .compute => 1 | .attention => 2 | .draft => 4

/-- CONTEXT_SAVE: once the bank is drained, the release, the save area and the freeing of the row (R268, R311, R436 to R439). -/
def contextSave (s : State) (row : Nat) : State :=
  if (s.row row).state ≠ .saving ∨ !saveReady s (s.bank row) then s
  else
    let r := s.row row
    let pa := saveAddr s row
    let s := endPhase (releaseAt s row 2) row
    let s := s.modBank row fun b =>
      { b.mapEngine (fun e x => x.saved e) with own := none, walk := none, stallS := 0, stallA := 0, stallV := 0 }
    let s := saveTiles s row
    let b := s.bank row
    let key := (s.saves.keys.foldl max 0) + 1
    let s := writeFront pa key b (zeroMem (zeroMem s pa frontBytes) (pa + scratchOffset) b.decl.dmem)
    let s := s.homeWriteBytes pa (b.fault.getD (faultOf 0x20 0)).bytes
    let s := renameOwners { s with saves := s.saves.set none key (some b) } row (savedRow key)
    let p : Preempted :=
      { launch := b.launch, task := r.task.toNat, save := r.save, halted := r.halted
        class_ := if b.usedMx then some (kindBit (coreOf row)) else none
        die := if b.usedXg then some (dieOf row) else none
        core := coreOf row, asid := r.asid, gidx := r.gidx, gv := r.gv, leftAt := r.leftAt }
    let s := (s.setBank row Bank.reset).modRow row fun r => { r with state := .free, halted := false }
    later (refreshMasks { s with preempted := s.preempted ++ [p] } (rowGroups r)) .schedulingPass

/-- CONTEXT_SAVE. -/
def execContextSave (row : Nat) (s : State) : Out := .next (contextSave s row)

/-! ### Answers (R433) -/

/-- Whether a row awaits an answer. -/
def awaitsAnswer (s : State) (row : Nat) : Bool :=
  let st := (s.row row).state
  (st == .waiting || st == .faulted) && (s.bank row).fault.isSome && (s.bank row).dying.isNone

/-- Writes ANSWER into the record (R432). -/
def putAnswerByte (s : State) (row : Nat) (v : Byte) : State := s.homeWriteBytes (saveAddr s row + 56) [v]

/-- ANSWER_RETRY: for a missing page the firmware provides it first (R433). -/
def answerRetry (s : State) (row : Nat) : State :=
  if !awaitsAnswer s row then s
  else
    let s := match (s.bank row).fault with
      | some f => if f.cause = 0x06 then providePage s (s.row row).asid f.addr.toNat else s
      | none => s
    makeBound ((putAnswerByte s row 1).modBank row resumeUnits) row

/-- ANSWER_RETRY. -/
def execAnswerRetry (row : Nat) (s : State) : Out := .next (answerRetry s row)

/-- ANSWER_SKIP: only a software trap may be skipped (R433). -/
def answerSkip (s : State) (row : Nat) : State :=
  if awaitsAnswer s row && decide ((s.bank row).fault.map FaultRec.cause = some 0x12) then
    makeBound ((putAnswerByte s row 2).modBank row fun b => resumeUnits (skipTrap b)) row
  else s

/-- ANSWER_SKIP. -/
def execAnswerSkip (row : Nat) (s : State) : Out := .next (answerSkip s row)

/-- ENGINE_FAULT_REPORT: an engine reports the fault it has kept, once none is outstanding and the task is not merely bound (R429, R52; log
entry 50). -/
def engineFaultReport (s : State) (row : Nat) : State :=
  let b := s.bank row
  match b.fault, b.faults with
  | none, (_, f) :: r => if (s.row row).state = .bound then s else takeFault (s.setBank row { b with faults := r }) row .S f
  | _, _ => s

/-- ENGINE_FAULT_REPORT. -/
def execEngineFaultReport (row : Nat) (s : State) : Out := .next (engineFaultReport s row)

/-! ### Termination (R435) -/

/-- The cause with which a held entry of an engine ends: that of the engine's own fault, else the task's. -/
def heldCause (b : Bank) (e : Eng) (cause : Nat) : Nat :=
  match b.fault with
  | some f => if f.src.toNat = engSrc e then f.cause.toNat else kept
  | none => kept
where
  /-- The cause of a fault that the engine keeps. -/
  kept : Nat := ((b.faults.find? fun p => p.1 == e).map fun p => p.2.cause.toNat).getD cause

/-- The status word of a held entry that ends with a cause (R250, R285, R354, R386, R412). -/
def heldStatus (s : State) (row : Nat) (e : Eng) (x : EngEntry) (cause : Nat) : Nat :=
  match e with
  | .mx => mxStatus x cause
  | .cp => cpStatus (if x.btag = 0 then x else { x with pos := 0 }) cause
  | .xg | .wn => xgStatus x cause
  | .sp => spStatus x 0 0 cause
  | .kv =>
    let b := s.bank row
    match x.instr .kv with
    | none => statusOf x.opc cause
    | some i => kvStatus x (kvValue x (kvEnvOf b x i) i (kvStepsOf b x i) false) (kvNodeOf x) cause

/-- An entry ends at a termination: its stores and those that the PUSH released are published, its object is written where the firmware can
provide its page, and it leaves its queue (R297, R310, R435). -/
def endObject (row : Nat) (e : Eng) (s : State) (x : EngEntry) (status : Nat) : State :=
  let s := releaseAt s row 2
  let s := if x.done = 0 then s else provide s (s.row row).asid x.done 16
  leaveQueue (match writeObject s row x.done status with
    | .done s' => s'
    | .fault _ => s) row e x []

/-- A held XRECV that ends leaves its slot filled, with its data intact (R378, R385). -/
def slotBack (s : State) (row : Nat) (e : Eng) (x : EngEntry) : State :=
  let die := dieOf row
  if e = .xg ∧ x.opc = 3 ∧ x.state = .held ∧ (s.slot die x.pos).state = .draining then
    s.setSlot die x.pos { s.slot die x.pos with state := .filled }
  else s

/-- One entry at a termination: a started one drains, a held one ends with its cause, a CPYF whose copy is done ends with its
follow-on, and any other ends without effect (R281, R435). -/
def endAtTermination (row cause : Nat) (e : Eng) (s : State) (x : EngEntry) : State :=
  let b := s.bank row
  if x.resolve.isSome then (if x.drains b e then s else dropEntry s row e x.id)
  else match x.state with
    | .following =>
      let f := newEntry b.nextId s.cycle x.follow none []
      let s := s.modBank row fun b => { b with nextId := b.nextId + 1 }
      endObject row .mx (endObject row e s x (cpStatus (cpFlag x cpFollowed) 0)) f (statusOf f.opc cause)
    | .held => if x.drains b e then s else endObject row e (slotBack s row e x) x (heldStatus s row e x (heldCause b e cause))
    | .ending st _ => if x.drains b e then s else endObject row e s x st.toNat
    | .waiting | .permitWait _ => if x.drains b e then s else endObject row e s x (statusOf x.opc cause)
    | .running .. | .staged | .putting | .flying .. => s

/-- The launch counts a task that the signal box terminates; the first gives FIRSTTASK and CAUSE (R46, R435). -/
def countFaulted (s : State) (id task : Nat) (cause : BitVec 8) : State :=
  match s.launchOf id with
  | none => s
  | some l => putLaunch s { l with
      faulted := l.faulted + 1, firstTask := l.firstTask <|> some task, cause := if l.firstTask.isNone then cause else l.cause }

/-- Steps 1 to 3 of R435 on a row: unissued instructions go, and the engine entries end or drain. -/
def endWork (s : State) (row : Nat) (cause : BitVec 8) : State :=
  let s := (withdraw s row).modBank row fun b => { b with
    sQueue := [], aQueue := [], vQueue := [], sWait := .idle, aWait := .idle, loads := [], walk := none, own := none
    atomics := if atomicsSettled b then [] else b.atomics
    streams := b.streams.mapVal Stream.reset fun x => { x with active := false, held := false, part := none, drain := none }
    dying := some cause }
  allEngs.foldl (fun s e => ((s.bank row).engQ e).foldl (endAtTermination row cause.toNat e) s) s

/-- TERMINATE: the launch counts the task, and its work ends; the task retires when its entries have (R46, R435). -/
def terminate (s : State) (row : Nat) : State :=
  if !awaitsAnswer s row then s
  else
    let cause := ((s.bank row).fault.map FaultRec.cause).getD 0
    endWork (countFaulted s (s.bank row).launch (s.row row).task.toNat cause) row cause

/-- TERMINATE. -/
def execTerminate (row : Nat) (s : State) : Out := .next (terminate s row)

/-! ### Retirement (R46, R442) -/

/-- The launch counts a task that has retired; it completes with its last task. The object of a split gang also waits for the tasks of the
other package (R45, R46; log entry 21). -/
def countRetired (s : State) (id : Nat) : State :=
  match s.launchOf id with
  | none => s
  | some l =>
    let l := { l with retired := l.retired + 1 }
    if l.retired = l.own ∧ (!l.split ∨ l.remote) then completeLaunch s l else later (putLaunch s l) .schedulingPass

/-- What a bank holds once its task has retired: registers, descriptors and tiles stay until the next bind sets them (R27); the result
FIFOs, the pending freezes, the scratch and whatever was under way end (R442). -/
def Bank.retired (b : Bank) : Bank :=
  { b with
    fifoMx := [], fifoCp := [], fifoKv := [], fifoXg := [], fifoSp := [], fifoWn := []
    freezes := [], scratch := [], scratchBad := [], sQueue := [], aQueue := [], vQueue := [], sWait := .idle, aWait := .idle
    stallS := 0, stallA := 0, stallV := 0, stopS := false, stopA := false, stopV := false
    walk := none, own := none, loads := [], atomics := [], copies := [], blocked := 0, fault := none, faults := [], dying := none
    streams := b.streams.mapVal Stream.reset fun x => { x with active := false, held := false, part := none, drain := none } }

/-- A task retires: its row, its groups, its scratch, its save area and what it owns are free (R37, R55, R442, R470). -/
def retireRow (s : State) (row : Nat) : State :=
  let b := s.bank row
  let r := s.row row
  let s := endOwners s fun o => decide (o.row = row)
  let s := leaveBank (freeFrames s (saveAddr s row) (areaFrames b.decl.dmem)) row
  let s := (s.setBank row b.retired).modRow row fun r => { r with state := .free, halted := false }
  let s := refreshMasks ((rowGroups r).foldl leaveGroup s) (rowGroups r)
  countRetired s b.launch

/-- Whether HALT has only the ends of the commands to await (R143). -/
def haltDone (b : Bank) : Bool :=
  match b.sWait with
  | .halting k => decide (6 ≤ k)
  | .idle | .released | .arrived _ | .freezing _ _ | .acking | .frozen | .counting _ _ | .realigning _ => false

/-- Whether every command of a bank has ended. -/
def commandsEnded (b : Bank) : Bool := allEngs.all fun e => decide (b.engQ e = [])

/-- RETIREMENT (R435 steps 4 and 5, R442). -/
def retirement (s : State) (row : Nat) : State :=
  let b := s.bank row
  match b.dying with
  | some _ =>
    if commandsEnded b && decide (b.atomics = []) then retireRow (endPhase (releaseAt s row 2) row) row else s
  | none =>
    if (s.row row).state == .halting && haltDone b && commandsEnded b && b.fault.isNone && decide (b.faults = []) then
      retireRow s row
    else s

/-- RETIREMENT. -/
def execRetirement (row : Nat) (s : State) : Out := .next (retirement s row)

/-! ### Preempted tasks (R52, R434, R435, R443) -/

/-- A preempted task is terminated: its saved entries end as at a termination, with no engine that could drain one, the release is made,
and it retires (R52, R435). A task whose termination had begun before the pre-emption is counted already. It stands under the name of
its saved bank meanwhile. -/
def terminateSaved (s : State) (p : Preempted) (cause : BitVec 8) : State :=
  match savedBank s p with
  | none => s
  | some (key, b) =>
    let row := savedRow key
    let s := { s with saves := s.saves.set none key none, preempted := s.preempted.filter fun q => q.save ≠ p.save }
    let s := (s.setBank row { b with blocked := 0xFF, atomics := [], fault := some (b.fault.getD (faultOf cause.toNat 0)) }).setRow row
      { Row.reset with asid := p.asid, task := .ofNat 16 p.task, save := p.save, gidx := p.gidx, gv := p.gv, state := .faulted }
    let s := endWork (if b.dying.isSome then s else countFaulted s p.launch p.task cause) row (b.dying.getD cause)
    let s := retireRow (releaseAt s row 2) row
    (s.setBank row Bank.reset).setRow row Row.reset

/-- Whether the firmware answers a fault of a bank with retry: a missing page that is present by now or has backing; a block-table entry that
is present by now, or that the signal box's own move holds (R346, R433). -/
def willRetry (s : State) (asid : Asid) (b : Bank) (f : FaultRec) : Bool :=
  let va := f.addr.toNat
  f.cause == 0x06 && (match walk s asid va with
    | .leaf .. => f.src.toNat != engSrc .kv || !(b.kv.any fun x => decide (va ∈ b.kvTable x)) ||
        decide (bitsOf (ofBytes (fwBytes s asid va 8)) 63 62 = 2) || s.frameMoves.any fun m => physOf s asid va == some m.entry
    | .bad c => decide (c = 0x06) && s.backing.any fun b => b.asid == asid && decide (b.va / 65536 = va / 65536))

/-- The firmware answers the fault that a preempted task keeps: ANSWER is written into the save area, or the task is terminated (R433, R434,
R443). -/
def answerSaved (s : State) (p : Preempted) : State :=
  match savedBank s p with
  | none => s
  | some (_, b) => match b.fault with
    | none => s
    | some f =>
      let at_ := p.save.toNat * 4096 + 56
      if s.home at_ ≠ 0 then s
      else if b.dying.isNone && willRetry s p.asid b f then (providePage s p.asid f.addr.toNat).homeWriteBytes at_ [1]
      else terminateSaved s p f.cause

end Sys2Proof.Machine
end

