-- ==== Sys2Proof/Machine/Sched.lean ====
section
/-! DEFINITION. The scheduling pass of the firmware: placement, groups, selection, pre-emption and fairness; split gangs; timed starts
and frames that move (R44, R45, R54 to R62, R119, R346). -/

namespace Sys2Proof.Machine

/-! ### Placement (R56, R59, R60 step 4, R439) -/

/-- The rows and the scratch that a placement finds taken. -/
structure Room where
  taken  : List Nat
  pinned : List Nat
  used   : Store Nat
  deriving DecidableEq, Repr

/-- Takes a row with scratch. -/
def Room.take (r : Room) (row : Nat) (pinned : Bool) (dmem : Nat) : Room where
  taken := row :: r.taken
  pinned := if pinned then row :: r.pinned else r.pinned
  used := r.used.set 0 (dieOf row) (r.used.get 0 (dieOf row) + dmem)

/-- What is taken on the package when the rows of a list count as free. -/
def roomOf (s : State) (free : List Nat) : Room :=
  (List.range 72).foldl (fun r row =>
    if (s.row row).state = .free ∨ free.contains row then r
    else r.take row (s.row row).pinned (s.bank row).decl.dmem) ⟨[], [], []⟩

/-- Bytes of a die's scratch (R221). -/
def scratchSize (s : State) (die : Nat) : Nat := if die < 5 then 0 else 0x400000 * (s.dmcfg.get 0 die).toNat

/-- Where a preempted task may be bound again (R56, R389, R439). -/
def resumeFits (s : State) (p : Preempted) (core : Nat) : Bool :=
  (match p.class_ with
    | none => true
    | some k => k == kindBit core) &&
    (match p.die with
      | none => true
      | some d => decide (d = dieOfCore core)) &&
    ((List.range 4).filter fun j => p.gv.getLsbD j).all fun j =>
      match (s.group (bitsOf p.gidx.toNat (8 * j + 7) (8 * j))).level.toNat with
      | 0 => decide (p.core = core)
      | 1 => decide (dieOfCore p.core = dieOfCore core)
      | _ => true

/-- Whether a task of a launch may be bound on a row. -/
def fits (s : State) (r : Room) (l : Launch) (p : Option Preempted) (row : Nat) : Bool :=
  let c := coreOf row
  !r.taken.contains row && !r.pinned.contains (siblingOf row) && !(l.pinned && r.taken.contains (siblingOf row)) &&
    coreFits l.class_ l.engmask c &&
    (decide (l.decl.dmem = 0) || decide (r.used.get 0 (dieOf row) + l.decl.dmem ≤ scratchSize s (dieOf row))) &&
    (match p with
      | none => true
      | some p => resumeFits s p c)

/-- The order of placement: bank 0 of the cores, lowest first, then bank 1 (R60 step 4). -/
def rowOrder : List Nat := ((List.range 36).map fun c => 2 * c) ++ (List.range 36).map fun c => 2 * c + 1

/-- A task that a launch has still to bind: its index, and its saved state when it was pre-empted. -/
structure Pending where
  task : Nat
  pre  : Option Preempted
  deriving DecidableEq, Repr

/-- The tasks that a launch has still to bind, preempted ones first, in index order (R60 step 4). -/
def pendingTasks (s : State) (l : Launch) : List Pending :=
  (((s.preempted.filter fun p => p.launch = l.id).mergeSort fun a b => a.task ≤ b.task).map fun p => ⟨p.task, some p⟩) ++
    l.queued.map fun t => ⟨t, none⟩

/-- Places tasks in order until one has no place. -/
def placeTasks (s : State) (l : Launch) : List Pending → Room → List (Pending × Nat)
  | [], _ => []
  | t :: rest, r =>
    match rowOrder.find? (fits s r l t.pre) with
    | none => []
    | some row => (t, row) :: placeTasks s l rest (r.take row l.pinned l.decl.dmem)

/-- Whether a task of a launch is being saved. -/
def saving (s : State) (l : Launch) : Bool :=
  (List.range 72).any fun row => (s.row row).state == .saving && decide ((s.bank row).launch = l.id)

/-- The places that a launch gets when the rows of a list count as free: every task or none for a gang, which also waits until all its
saves are done (R60 steps 3 and 5). -/
def placement (s : State) (l : Launch) (free : List Nat) : List (Pending × Nat) :=
  let ts := pendingTasks s l
  let ps := placeTasks s l ts (roomOf s free)
  if l.gang && (decide (ps.length ≠ ts.length) || saving s l) then [] else ps

/-! ### Groups (R36, R54 to R57) -/

/-- Whether a task is a member of a launch's local group (R36). -/
def isMember (l : Launch) (j t : Nat) : Bool :=
  match l.groups[j]? with
  | none => false
  | some g => match g.mode with
    | 0 | 3 => true
    | 1 => decide (g.first ≤ t) && decide ((t - g.first) % g.stride = 0) && decide ((t - g.first) / g.stride < g.count)
    | _ => (((l.maps.getD j []).getD (t / 8) 0).getLsbD (t % 8))

/-- The tasks of a launch that this package runs (R45). -/
def ownTasks (l : Launch) : List Nat := (List.range l.own).map fun t => if l.split && l.remote then t + l.pkg1 else t

/-- The tasks of a launch that the other package runs (R45). -/
def Launch.others (l : Launch) : Nat := l.tasks - l.own

/-- Members of a group on this package (R55). -/
def expectOf (l : Launch) (j : Nat) : Nat :=
  match l.groups[j]? with
  | none => 0
  | some g => if g.mode = 3 then g.count - l.others else ((ownTasks l).filter (isMember l j)).length

/-- LEVEL of a group at its allocation, from the rows of the gang's members (R56). -/
def levelFor (l : Launch) (j : Nat) (rows : List (Pending × Nat)) : BitVec 2 :=
  let cores := (rows.filter fun p => isMember l j p.1.task).map fun p => coreOf p.2
  let one (l : List Nat) : Bool := l.all fun x => l.all fun y => decide (x = y)
  let both := (List.range l.tasks).any (fun t => decide (t < l.pkg1) && isMember l j t) &&
    (List.range l.tasks).any fun t => decide (l.pkg1 ≤ t) && isMember l j t
  if l.split && both then 3
  else if (match l.groups[j]? with
    | some g => g.mode == 3
    | none => false) || !l.gang then 2
  else if one cores then 0
  else if one (cores.map dieOfCore) then 1
  else 2

/-- Allocates the entry of a local group, or takes the shared group's, whose EXPECT leaves out the members that a split gang runs on the
other package; none when no entry is free (R37, R55). The members of a shared group belong to one gang launch when it expects no others
(R54). -/
def allocGroup (rows : List (Pending × Nat)) (s : State) (l : Launch) (j : Nat) : Option (State × Launch) :=
  let put (g : Nat) : Launch := { l with gidx := l.gidx.set j (some g) }
  let g := l.groups.getD j ⟨0, 0, 0, 0, 0⟩
  let kept := if g.mode = 3 then (s.sharedGroup g.key l.asid).bind SharedGroup.gidx else none
  let first := !((l.groups.take j).any fun x => x.mode == 3 && x.key == g.key)
  match kept with
  | some k =>
    let x := s.group k
    some (if first then modShared (s.setGroup k { x with expect := x.expect - .ofNat 17 l.others }) x fun y =>
        { y with away := y.away + l.others }
      else s, put k)
  | none =>
    let n := expectOf l j
    if n = 0 then some (s, l)
    else match (List.range 256).find? fun k => !(s.group k).valid with
      | none => none
      | some k =>
        let x : Group :=
          { Group.reset with
            level := levelFor l j rows, asid := l.asid, gang := l.gang && (g.mode != 3 || decide (g.count = l.tasks)), valid := true, expect := .ofNat 17 n
            key := if g.mode = 3 then g.key else 0 }
        let s := s.setGroup k x
        some (if g.mode = 3 then modShared s x fun y => { y with gidx := some k, away := y.away + l.others } else s, put k)

/-- Allocates the local groups of a launch when its first task is bound (R55). -/
def allocGroups (rows : List (Pending × Nat)) (s : State) (l : Launch) : Option (State × Launch) :=
  if l.queued.length ≠ l.own then some (s, l)
  else (List.range l.decl.ngroup).foldl (fun r j => r.bind fun p => allocGroup rows p.1 p.2 j) (some (s, l))

/-- GV of a task. -/
def groupMask (l : Launch) (t : Nat) : Nat :=
  ((List.range l.decl.ngroup).map fun j => if (l.gidx.getD j none).isSome && isMember l j t then 2 ^ j else 0).sum
/-- GIDX of a launch. -/
def groupIndexes (l : Launch) : Nat := ((List.range 4).map fun j => (l.gidx.getD j none).getD 0 * 2 ^ (8 * j)).sum

/-! ### Binding (R59, R470) -/

/-- Whether DT has reached a tick that has been named (R45). -/
def ticked (s : State) (t : Option W64) : Bool := t.any fun t => decide (t.toNat ≤ s.dt.toNat)

/-- Writes a task's row and its bind OP; none when no save area can be allocated. -/
def bindTask (s : State) (l : Launch) (p : Pending) (row : Nat) : Option State :=
  let area := match p.pre with
    | some q => some (s, q.save.toNat * 4096)
    | none => (allocFrames s (areaFrames l.decl.dmem)).map fun (a : State × Nat) => (keyFrames a.1 l.asid a.2 (areaFrames l.decl.dmem), a.2)
  area.map fun a =>
    let s := a.1.modRow row fun r => { r with
      asid := l.asid, task := .ofNat 16 p.task, launch := .ofNat 16 (l.queue.toNat * 4096 + l.slot.toNat % 4096)
      prio := l.prio, gang := l.gang, pinned := l.pinned, hold := l.split && !ticked s l.tick, resume := p.pre.isSome
      image := .ofNat 32 (l.image / 65536), gv := .ofNat 4 (groupMask l p.task), gidx := .ofNat 32 (groupIndexes l)
      save := .ofNat 40 (a.2 / 4096), op := 1 }
    bindOp s row

/-- Binds tasks one after another; for a gang, all or none. -/
def bindTasks (l : Launch) : List (Pending × Nat) → State → Option State
  | [], s => some s
  | (p, row) :: rest, s =>
    match bindTask s l p row with
    | none => if l.gang then none else some s
    | some s => bindTasks l rest (match s.launchOf l.id with
        | none => s
        | some m => putLaunch s { m with queued := m.queued.filter (· ≠ p.task) })

/-- Names the start tick of a split gang once both shares are bound: package 0's DT plus 50 µs (R45). -/
def nameTick (s : State) (l : Launch) : State :=
  let t : W64 := s.dt + 50000
  { putLaunch s { l with started := true, tick := some t } with sideOut := s.sideOut ++ [.tick t] }

/-- A split gang whose share is bound: package 1 says so, package 0 names the tick once package 1 has (R45). -/
def shareDone (s : State) (l : Launch) : State :=
  if !l.split || l.started then s
  else if s.pkg then { putLaunch s { l with started := true } with sideOut := s.sideOut ++ [.shareBound] }
  else if l.peer then nameTick s l
  else s

/-- Serves a selected launch: places and binds what it can, and leaves everything as it is when that is nothing (R60 steps 3 and 4). -/
def serveLaunch (s : State) (id : Nat) : State :=
  match s.launchOf id with
  | none => s
  | some l =>
    let rows := placement s l []
    if rows = [] then s
    else match allocGroups rows s l with
      | none => s
      | some (s', l') => match bindTasks l' rows (putLaunch s' l') with
        | none => s
        | some s'' => match s''.launchOf id with
          | some m =>
            if pendingTasks s'' m = pendingTasks s l then s
            else if pendingTasks s'' m = [] then shareDone s'' m else s''
          | none => s''

/-! ### Pre-emption (R60 step 5) -/

/-- Rows whose save is under way; their banks and scratch will be free (log entry 20). -/
def savingRows (s : State) : List Nat := (List.range 72).filter fun row => (s.row row).state == .saving

/-- Whether a row's task may be pre-empted for a launch of a priority. -/
def mayPreempt (s : State) (prio : BitVec 3) (row : Nat) : Bool :=
  let r := s.row row
  !r.pinned && decide (r.prio.toNat < prio.toNat) && (s.bank row).dying.isNone &&
    (match r.state with
      | .bound | .running | .waiting | .faulted | .halting => true
      | .free | .saving => false)

/-- The candidates, lowest priority first, and the most recently bound first among equals. -/
def candidates (s : State) (prio : BitVec 3) : List Nat :=
  ((List.range 72).filter (mayPreempt s prio)).mergeSort fun a b =>
    decide ((s.row a).prio.toNat < (s.row b).prio.toNat) ||
      (decide ((s.row a).prio = (s.row b).prio) && decide ((s.row b).bindAt ≤ (s.row a).bindAt))

/-- What a candidate takes with it: a gang task, every task of its gang that a preempt OP meets (R60 step 5). -/
def withGang (s : State) (row : Nat) : List Nat :=
  if (s.row row).gang then
    (List.range 72).filter fun k =>
      decide ((s.bank k).launch = (s.bank row).launch) && (s.bank k).dying.isNone && (s.row k).state != .free && (s.row k).state != .saving
  else [row]

/-- Whether a launch could bind its next task, or for a gang every task, with the rows of a list free. -/
def enough (s : State) (l : Launch) (free : List Nat) : Bool := decide (placement s l free ≠ [])

/-- Takes candidates until they suffice; none when they do not. -/
def takeCandidates (s : State) (l : Launch) : List Nat → List Nat → Option (List Nat)
  | [], _ => none
  | c :: rest, taken =>
    let taken := if taken.contains c then taken else taken ++ withGang s c
    if enough s l (taken ++ savingRows s) then some taken else takeCandidates s l rest taken

/-- Pre-empts for a launch that has a task without a place. -/
def preemptFor (s : State) (id : Nat) : State :=
  match s.launchOf id with
  | none => s
  | some l =>
    if pendingTasks s l = [] || enough s l (savingRows s) then s
    else match takeCandidates s l (candidates s l.prio) [] with
      | none => s
      | some rows => rows.foldl (fun s row => preemptOp (s.modRow row fun r => { r with op := 2 }) row) s

/-! ### Selection and fairness (R60 steps 1, 2 and 6) -/

/-- The effective priority of a queue's head launch: PRIO and one for every full 2 ms since it became eligible, at most 7. -/
def effectivePrio (s : State) (q : LaunchQueue) : Nat :=
  match q.eligible with
  | none => 0
  | some t => min 7 (q.prio.toNat + (s.dt.toNat - t) / 2000000)

/-- Queues with an eligible head launch, in the order in which the pass considers them (R60 step 2). -/
def selectionOrder (s : State) : List Nat :=
  let heads := (List.range 16).filter fun k => hasHead s k && (s.queue k).eligible.isSome
  let turn (k : Nat) : Nat := (k + 15 - (s.rrQueue.get 15 (effectivePrio s (s.queue k))).toNat) % 16
  heads.mergeSort fun a b =>
    decide (effectivePrio s (s.queue b) < effectivePrio s (s.queue a)) ||
      (decide (effectivePrio s (s.queue a) = effectivePrio s (s.queue b)) && decide (turn a ≤ turn b))

/-- Selects, or refuses, the first head launch that need not wait for its image; another pass then follows. -/
def selectFirst : List Nat → State → State
  | [], s => s
  | k :: rest, s =>
    let s' := selectHead s k (effectivePrio s (s.queue k))
    if (s'.queue k).sel = (s.queue k).sel then selectFirst rest s' else later s' .schedulingPass

/-- The selected launches with tasks to bind, by priority, the earlier selected first among equals. -/
def waitingLaunches (s : State) : List Launch :=
  (s.launches.filter fun l => pendingTasks s l ≠ []).mergeSort fun a b =>
    decide (b.prio.toNat < a.prio.toNat) || (decide (a.prio = b.prio) && decide (a.id ≤ b.id))

/-- Serves the launches in order; free banks are held for a gang that waits, against lower priorities (R60 step 3). DEDUCED (log entry 50):
every free bank is held so, also one whose core the gang cannot use. -/
def serveAll : List Launch → Nat → State → State
  | [], _, s => s
  | l :: rest, floor, s =>
    if l.prio.toNat < floor then serveAll rest floor s
    else
      let s := preemptFor (serveLaunch s l.id) l.id
      let left := match s.launchOf l.id with
        | none => false
        | some m => decide (pendingTasks s m ≠ [])
      serveAll rest (if l.gang && left then max floor l.prio.toNat else floor) s

/-- The highest priority of a gang that waits. -/
def gangFloor (s : State) : Nat := ((waitingLaunches s).filter fun l => l.gang).foldl (fun m l => max m l.prio.toNat) 0

/-- Whether no selected launch has a usable free bank (R60 step 2). -/
def noneUsable (s : State) : Bool :=
  (waitingLaunches s).all fun l => decide (l.prio.toNat < gangFloor s) || decide (placement s l [] = [])

/-- Fairness between the banks of a core: a switch OP after 1 ms (R60 step 6). -/
def fairness (s : State) : State :=
  (List.range 72).foldl (fun s row =>
    let o := s.row (siblingOf row)
    if (s.row row).state == .bound && o.state == .running && !o.pinned && decide (1000000 ≤ nanosOf s (s.cycle - (s.row row).since)) then
      switchOp (s.modRow row fun r => { r with op := 3 }) row
    else s) s

/-! ### The end of a split gang (R45, R46; log entry 21) -/

/-- What package 1 tells of the tasks of its share, which no rule carries over the link: a free value says whether they have all retired, how
many the firmware there terminated, and the first of them with its cause. -/
def shareAnswer (l : Launch) (w : W64) : Option Launch :=
  let n := min (bitsOf w.toNat 23 8) l.others
  let first := l.pkg1 + bitsOf w.toNat 39 24 % l.others
  if w.toNat % 2 = 0 then none
  else if n = 0 then some l
  else if l.firstTask.isSome ∧ bitsOf w.toNat 1 1 = 0 then some { l with faulted := l.faulted + n }
  else some { l with faulted := l.faulted + n, firstTask := some first, cause := .ofNat 8 (bitsOf w.toNat 47 40) }

/-- The split gangs of this package's queues whose own share has retired complete once the other share has (R46). -/
def shareEnds (s : State) : State :=
  (s.launches.filter fun l => l.split && !l.remote && decide (l.retired = l.own)).foldl (fun s l =>
    match shareAnswer l (takeFree s).1 with
    | none => (takeFree s).2
    | some l => completeLaunch (takeFree s).2 l) s

/-- SCHEDULING_PASS (R60): head launches are examined, images thawed, answers given; then selection, the selected launches in their order, and
fairness. The signal box selects no launch before READY (R465). -/
def schedulingPass (s : State) : State :=
  if !s.devstat.ready then s
  else
  let s := thawImages (dependenceCheck { s with passAt := s.dt.toNat + 9999 })
  let s := shareEnds s
  let s := s.preempted.foldl answerSaved s
  let s := if noneUsable s then selectFirst (selectionOrder s) s else s
  fairness (serveAll (waitingLaunches s) 0 s)

/-- SCHEDULING_PASS. -/
def execSchedulingPass (s : State) : Out := .next (schedulingPass s)

/-- DEPENDENCE_CHECK (R42). -/
def execDependenceCheck (s : State) : Out := .next (dependenceCheck s)

/-! ### Gang required (R58) -/

/-- Whether a bank's task, of these groups, waits at a group's present barrier. -/
def waitsAt (s : State) (b : Bank) (gv : BitVec 4) (gidx : BitVec 32) (g : Nat) : Bool :=
  match b.sWait, phaseGroup b with
  | .arrived gen, some k =>
    decide (bitsOf gidx.toNat (8 * k.toNat + 7) (8 * k.toNat) = g) && (gen == (s.group g).gen) && (mappedGroups gv gidx).contains g
  | _, _ => false

/-- Rows that wait at a group's present barrier. -/
def waitersOf (s : State) (g : Nat) : List Nat :=
  (List.range 72).filter fun row =>
    (s.row row).state != .free && waitsAt s (s.bank row) (s.row row).gv (s.row row).gidx g

/-- Whether a member of a group has stayed queued or preempted since a moment, in DT (R51, R58): a preempted task, or one that is being saved,
since its preempt OP; a queued one since its launch was selected. -/
def unboundSince (s : State) (g t : Nat) : Bool :=
  (s.preempted.any fun p => decide (p.leftAt ≤ t) && (mappedGroups p.gv p.gidx).contains g) ||
    ((List.range 72).any fun row =>
      (s.row row).state == .saving && decide ((s.row row).leftAt ≤ t) && (rowGroups (s.row row)).contains g) ||
    s.launches.any fun l => decide (l.selAt ≤ t) && (List.range 4).any fun j =>
      decide (l.gidx.getD j none = some g) && l.queued.any (isMember l j)

/-- Whether a barrier has been incomplete for 1 ms in which some member held no bank (R58). -/
def gangMissing (s : State) (g : Nat) : Bool :=
  let x := s.group g
  x.valid && !x.gang && decide (x.arrived ≠ 0) && decide (1000000 ≤ s.dt.toNat - x.since) && unboundSince s g x.since

/-- The fault of a row that waits: taken where the task runs or is being saved; a task that is only bound meets it once it runs (R52). -/
def requireRow (s : State) (row : Nat) : State :=
  if (s.bank row).fault.isSome || !((s.row row).state == .running || (s.row row).state == .saving) then s
  else unitFault { withdraw s row with cur := row } .S (faultOf 0x15 0)

/-- The fault of a preempted task that waits: it is kept with the saved task, whose arrival is withdrawn (R51, R58). -/
def requireSaved (g : Nat) (s : State) (p : Preempted) : State :=
  match savedBank s p with
  | none => s
  | some (key, b) =>
    if b.fault.isSome || !waitsAt s b p.gv p.gidx g then s
    else
      let f := { atHead b .S (faultOf 0x15 0) with tcc := b.tcc }
      let x := s.group g
      let s := s.setGroup g { x with arrived := x.arrived - 1, since := if x.arrived = 1 then 0 else x.since }
      let s := { s with saves := s.saves.set none key (some { b with fault := some f, sWait := .idle, stopS := true }) }
      s.homeWriteBytes (p.save.toNat * 4096) f.bytes

/-- GANG_REQUIRED: cause 0x15 at the PHASE of every member that waits (R58). -/
def gangRequired (s : State) (g : Nat) : State :=
  if !gangMissing s g then s
  else s.preempted.foldl (requireSaved g) ((waitersOf s g).foldl requireRow s)

/-- GANG_REQUIRED. -/
def execGangRequired (group : Nat) (s : State) : Out := .next (gangRequired s group)

/-! ### Split gangs (R45) -/

/-- SPLIT_SHARE_BOUND: package 0 learns that package 1 has bound its share of the oldest split gang of which it did not know so. -/
def splitShareBound (s : State) : State :=
  match s.launches.find? fun l => l.split && !l.remote && !l.peer with
  | none => s
  | some l =>
    let s' := putLaunch s { l with peer := true }
    if pendingTasks s l = [] then nameTick s' { l with peer := true } else s'

/-- SPLIT_SHARE_BOUND. -/
def execSplitShareBound (s : State) : Out := .next (splitShareBound s)

/-- SPLIT_GANG_TICK: the tick of the oldest split gang of package 0 that awaits one; with none known here, that of the rows held without a
launch (R45; log entry 21). -/
def splitGangTick (s : State) (tick : W64) : State :=
  match s.launches.find? fun l => l.split && l.remote && l.tick.isNone with
  | none => { s with splitTick := some tick }
  | some l => putLaunch s { l with tick := some tick }

/-- SPLIT_GANG_TICK. -/
def execSplitGangTick (tick : W64) (s : State) : Out := .next (splitGangTick s tick)

/-- Whether a row is held for its split gang's tick. -/
def heldForTick (s : State) (row : Nat) : Bool :=
  let r := s.row row
  r.state == .waiting && r.hold && (s.bank row).fault.isNone

/-- The tick for which a row is held: its launch's, or for a row without a launch here the package's. -/
def tickOf (s : State) (row : Nat) : Option W64 :=
  match s.launchOf (s.bank row).launch with
  | some l => l.tick
  | none => s.splitTick

/-- Whether a row is held for a tick that DT has reached. -/
def startsNow (s : State) (row : Nat) : Bool := heldForTick s row && ticked s (tickOf s row)

/-- SPLIT_GANG_START: at their tick held tasks are bound, and may fetch in that cycle (R45, R52). -/
def splitGangStart (s : State) : State := ((List.range 72).filter (startsNow s)).foldl (makeBoundAt s.cycle) s

/-- SPLIT_GANG_START. -/
def execSplitGangStart (s : State) : Out := .next (splitGangStart s)

/-! ### Timed commands (R119, R120, R269, R284, R391) -/

/-- Whether the first element that a port draws is at hand: an inactive stream gives zeros (R255, R269). -/
def elementReady (s : State) (row : Nat) (port : BitVec 5) : Bool :=
  let x := (s.bank row).stream (boundTo (s.bank row) port)
  let d := SDesc.of x.desc
  if !x.active || decide (d.n ≤ x.pos) then true
  else !x.held && x.target == port && (match drawAt s row d x.pos with
    | .elt .. => true
    | .wait | .bad .. => false)

/-- Whether a tile is there for a timed command, and its shadow copy. -/
def tileReady (b : Bank) (x : EngEntry) (t : BitVec 6) : Bool :=
  (match b.tile t.toNat with
    | .absent _ => false
    | .unconfigured | .configured _ => true) &&
    (decide (x.shadow = 0) || (copyOf b x.shadow t.toNat).isSome)

/-- Whether the operands of a timed command are present in its cycle (R119, R269, R391). -/
def operandsReady (s : State) (row : Nat) (e : Eng) (x : EngEntry) : Bool :=
  let b := s.bank row
  let asid := (s.row row).asid
  match x.instr e with
  | some (.mlw ..) => elementReady s row mxwPort
  | some (.mms _ a) | some (.mmsa _ a) => elementReady s row mxaPort && tileReady b x a.tile
  | some (.mstore _ t _ _ _) => tileReady b { x with words := [] } t
  | some (.xsend _ _ die chan _) => ((s.permitQ (dieOf row) die.toNat chan.toNat).headD (0, 0)).1 == asid &&
      decide (s.permitQ (dieOf row) die.toNat chan.toNat ≠ [])
  | some (.xrecv _ _ sdie chan _) => (recvSlot s x (dieOf row) sdie chan asid).isSome
  | _ => true

/-- The oldest unstarted entry that an engine could start: XG keeps three streams (R382). -/
def headOf (b : Bank) (e : Eng) (x : EngEntry) : Option EngEntry :=
  match e with
  | .xg => streamHead b x.opc
  | .mx => mxNext b
  | .cp | .kv | .sp | .wn => (b.engQ e).head?

/-- The timed entries of an engine that are due at the present TCC, or late. -/
def dueEntries (b : Bank) (e : Eng) : List EngEntry := (b.engQ e).filter fun x => x.timedUnstarted && decide (x.startAt ≤ b.tcc.toNat)

/-- A timed command starts in its cycle, or does nothing and raises cause 0x0A (R119). -/
def startTimed (row : Nat) (e : Eng) (s : State) (x : EngEntry) : State :=
  let b := s.bank row
  let now := decide (b.tcc.toNat = x.startAt) && decide ((headOf b e x).map EngEntry.id = some x.id) && !b.fifoWaits e x &&
    !(e == .mx && !mxReady s row x) && operandsReady s row e x
  if now then setEntry s row e { x with started := true }
  else finishEntry s row e x (statusOf x.opc 0x0A) [] (some (entryFault s row e x 0x0A 0))

/-- TIMED_COMMAND_START (R119); a fault that one of them raises drops the others (R120). -/
def timedCommandStart (s : State) (row : Nat) (e : Eng) : State :=
  (dueEntries (s.bank row) e).foldl (fun s x =>
    if (((s.bank row).engQ e).any fun y => decide (y.id = x.id)) then startTimed row e s x else s) s

/-- TIMED_COMMAND_START. -/
def execTimedCommandStart (row : Nat) (e : Eng) (s : State) : Out := .next (timedCommandStart s row e)

/-! ### Frames that move (R346) -/

/-- Copies of the marks on a range's bytes: sound or not, stale or not. -/
def copyMarks (asid : Asid) (from_ to_ : Nat) (s : State) (i : Nat) : State :=
  match physOf s asid (from_ + i), physOf s asid (to_ + i) with
  | some a, some b => { s with
      poison := s.poison.set false b (s.poison.get false a), stale := s.stale.set false b (s.stale.get false a) }
  | _, _ => s

/-- Whether a started command of an address space names the entry that stands at a home address (R346). -/
def frameNamed (s : State) (asid : Asid) (entry : Nat) : Bool :=
  (banksOf s asid none).any fun b => b.kv.any fun x => (b.kvTable x).any fun va => physOf s asid va == some entry

/-- FRAME_MOVE: the signal box begins to move a key-value frame whose entry is present and that no started command names: it holds the entry at
V = 0 (R346). -/
def frameMove (s : State) (asid : Asid) (entry : Nat) (frame : W64) (size : Nat) : State :=
  let e := s.homeNat entry 8
  if bitsOf e 63 62 ≠ 2 ∨ frameNamed s asid entry then s
  else { s.homeWriteBytes entry (toBytes 8 (e % 2 ^ 63)) with
    frameMoves := s.frameMoves ++ [⟨asid, entry, bitsOf e 47 12 * 4096, bitsOf frame.toNat 47 12 * 4096, size⟩] }

/-- The end of a move: the frame is copied to its new place and the entry rewritten, with V set and the new address (R346). -/
def endMove (s : State) (m : FrameMove) : State :=
  let s := (List.range m.size).foldl (copyMarks m.asid m.old m.new) (fwWrite s m.asid m.new (fwBytes s m.asid m.old m.size))
  { s.homeWriteBytes m.entry (toBytes 8 (2 ^ 63 + m.new)) with frameMoves := s.frameMoves.erase m }

/-- FRAME_MOVE. -/
def execFrameMove (asid : Asid) (entry : Nat) (frame : W64) (size : Nat) (s : State) : Out :=
  .next (frameMove s asid entry frame size)

end Sys2Proof.Machine
end

