-- ==== Sys2Proof/Machine/System.lean ====
section
/-! DEFINITION. Migration, access tables, register writes, the host's BARs, the mailbox commands, power, sleep, bring-up and the pair
link (R30 to R32, R39, R221, R334 to R341, R377, R450 to R468). -/

namespace Sys2Proof.Machine

/-! ### Migration (R334 to R336) -/

/-- An address after the bytes of a 64 KiB frame have moved. -/
def movedTo (a b x : Nat) : Nat := if a ≤ x ∧ x < a + 65536 then x - a + b else x

/-- A listing with the values of one frame in the place of another's. -/
def moveFrame {α : Type} [DecidableEq α] (d : α) (m : Store α) (a b : Nat) : Store α :=
  let kept := m.filter fun e => !(decide (b ≤ e.1) && decide (e.1 < b + 65536))
  (m.filter fun e => decide (a ≤ e.1) && decide (e.1 < a + 65536)).foldl (fun r e => r.set d (movedTo a b e.1) e.2) kept

/-- What a bank knows by physical address follows the page: the older bytes that entries read, the counter that WAITC watches; waiting
atomics are answered moved, and a waiting ownership request asks again (R309, R334, R335). -/
def bankMoved (a b : Nat) (k : Bank) : Bank :=
  let k := k.mapEngs fun x => { x with old := moveFrame none x.old a b }
  { k with
    atomics := k.atomics.map fun p => { p with moved := p.moved || decide (a ≤ p.pa ∧ p.pa < a + 65536) }
    own := if k.own.any fun r => r.subpages.any fun p => decide (p / 16 = a / 65536) then none else k.own
    sWait := match k.sWait with
      | .counting pa t => .counting (movedTo a b pa) t
      | x => x }

/-- The shootdown of an address space (R333, R334). -/
def shootdown (s : State) (asid : Asid) : State :=
  (List.range 72).foldl (fun s row => dropWalk asid s row) ((List.range 36).foldl (fun s c => tlbDrop s c asid) s)

/-- The indexes of the entries of a table that memory lists. -/
def listedEntries (s : State) (table n : Nat) : List Nat :=
  ((s.mem.filter fun e => decide (table ≤ e.1) && decide (e.1 < table + 8 * n)).map fun e => (e.1 - table) / 8).eraseDups

/-- The 64 KiB leaves below a table that map a frame: their virtual pages and the places of their entries. -/
def leavesTo (s : State) (pa : Nat) : List (Nat × Nat) → Nat → Nat → List (Nat × Nat)
  | [], _, _ => []
  | (bits, idx) :: rest, table, va =>
    (listedEntries s table (2 ^ idx)).flatMap fun i =>
      let e := s.homeNat (table + 8 * i) 8
      let va := va + i * 2 ^ bits
      if bitsOf e 63 63 = 0 then []
      else if bitsOf e 62 62 = 1 then (if bits = 16 ∧ pteAddr e = pa then [(va, table + 8 * i)] else [])
      else leavesTo s pa rest (pteAddr e) va

/-- A leaf that maps a frame: its address space, its page, and the place of its entry. -/
structure FrameLeaf where
  asid : Asid
  va   : Nat
  at_  : Nat
  deriving DecidableEq, Repr

/-- The leaves of every address space that map a frame (R334 step 4). -/
def frameLeaves (s : State) (pa : Nat) : List FrameLeaf :=
  (listedEntries s 0x400000000000 4096).flatMap fun i =>
    let e := s.homeNat (0x400000000000 + 8 * i) 8
    if bitsOf e 63 63 = 0 then []
    else (leavesTo s pa [(37, 11), (26, 11), (16, 10)] (bitsOf e 51 14 * 16384) 0).map fun p => ⟨.ofNat 12 i, p.1, p.2⟩

/-- Changes the entries of leaves, and shoots their address spaces down (R333). -/
def editLeaves (s : State) (l : List FrameLeaf) (f : Nat → Nat) : State :=
  let s := (l.map FrameLeaf.at_).eraseDups.foldl (fun s a => s.homeWriteBytes a (toBytes 8 (f (s.homeNat a 8)))) s
  (l.map FrameLeaf.asid).eraseDups.foldl shootdown s

/-- The marks of a frame that leaves the compressed form: every byte of a sector that holds an error counts as bad (R337). -/
def spreadBad (p : Store Bool) (frm : Nat) : Store Bool :=
  ((List.range 128).filter fun k => p.any fun e => decide (e.1 / 512 = frm / 512 + k)).foldl (fun m k =>
    Store.setRun false m (frm + 512 * k) (List.replicate 512 true)) p

/-- Frees a 64 KiB frame, where it is one of the firmware's. -/
def freePoolFrame (s : State) (pa : Nat) : State :=
  if frameAddr 0 ≤ pa ∧ pa < frameAddr framePool then freeFrames s pa 1 else s

/-- Marks a 64 KiB frame as in use, where it is one of the firmware's. -/
def takePoolFrame (s : State) (pa : Nat) : State :=
  if frameAddr 0 ≤ pa ∧ pa < frameAddr framePool then { s with framesUsed := s.framesUsed.set false (frameIndex pa) true } else s

/-- Steps 2 to 5 of a migration: the contents move, the leaves are rewritten, the shootdowns are made, and the frame is free. -/
def cutOver (s : State) (m : Moving) (leaves : List FrameLeaf) : State :=
  let s := fetchHome s m.frm 65536
  let was := leaves.any fun l => decide (bitsOf (s.homeNat l.at_ 8) 58 58 = 1)
  let s := { s with
    mem := moveFrame zeroByte s.mem m.frm m.dest
    frameKeys := if inLpddr m.dest then s.frameKeys.set 0 (m.dest / 65536) m.asid else s.frameKeys
    poison := moveFrame false (if was && !m.cmp then spreadBad s.poison m.frm else s.poison) m.frm m.dest
    stale := moveFrame false s.stale m.frm m.dest
    moving := s.moving.filter fun x => x ≠ m }
  let s := (List.range 72).foldl (fun s row => s.modBank row (bankMoved m.frm m.dest)) s
  let s := { s with saves := s.saves.mapVal none fun x => x.map (bankMoved m.frm m.dest) }
  let s := editLeaves s leaves fun pte =>
    pte % 2 ^ 12 + m.dest + 2 ^ 54 * pteFcnt pte + (if m.cmp then 2 ^ 58 else 0) + bitsOf pte 61 59 * 2 ^ 59 + 2 ^ 62 + 2 ^ 63
  freePoolFrame (takePoolFrame s m.dest) m.frm

/-- System software asks for a frame to be freed: the signal box collects its replicas, and allocates it to nothing before then (R336). -/
def freeFrame (s : State) (pa : Nat) : State :=
  if pa % 65536 ≠ 0 ∨ s.freeing.contains pa then s
  else { (if collecting s pa then s else startCollect s pa 65536 false) with freeing := s.freeing ++ [pa] }

/-- The frame is free once every replica of it is collected (R336). -/
def endFree (s : State) (pa : Nat) : State :=
  if collecting s pa then s else { freePoolFrame s pa with freeing := s.freeing.filter (· ≠ pa) }

/-- Whether a frame may hold a migrated page: LPDDR or addressable SRAM but for the root table and the frame key table, compressed only in
LPDDR (R334, R337, R462). -/
def frameFor (s : State) (pa : Nat) (cmp : Bool) : Bool :=
  decide (pa % 65536 = 0) && (meets pa 65536 (rootAddr 0) 32768).isNone && (meets pa 65536 0x400000800000 0x600000).isNone && (match regionOf s pa with
    | .lpddr => true
    | .sram | .tier => !cmp
    | .scratch | .sysreg | .none => false)

/-- Whether a registered window pins a page (R395). -/
def pinnedPage (s : State) (asid : Asid) (va : Nat) : Bool :=
  s.win.any fun e => decide (e.2.len ≠ 0) && e.2.asid == asid && decide (e.2.base.toNat < va + 65536) &&
    decide (va < e.2.base.toNat + e.2.len.toNat)

/-- MIGRATION: the page is marked moving, waits until no subpage has an owner, and moves (R334). -/
def migration (s : State) (asid : Asid) (va newPa : Nat) (cmp : Bool) : State :=
  match walk s asid va with
  | .bad _ => s
  | .leaf pte vbase size _ =>
    let frm := pteAddr pte
    let m : Moving := ⟨asid, vbase, frm, newPa, cmp⟩
    let leaves := frameLeaves s frm
    if size ≠ 65536 ∨ !frameFor s frm false ∨ !frameFor s newPa cmp ∨ frm = newPa ∨ leaves.any (fun l => pinnedPage s l.asid l.va) then s
    else
      let s := if s.moving.contains m then s
        else { editLeaves s leaves fun e => e - bitsOf e 53 53 * 2 ^ 53 + 2 ^ 53 with moving := s.moving ++ [m] }
      if extentOwned s frm 65536 || collecting s frm then s else cutOver s m leaves

/-- MIGRATION. -/
def execMigration (asid : Asid) (va newPa : Nat) (cmp : Bool) (s : State) : Out := .next (migration s asid va newPa cmp)

/-! ### Access tables and registers -/

/-- ACCESS_TABLE_WRITE (R341). -/
def accessTableWrite (s : State) (t : Target) (i : BitVec 6) (w : W64) : State :=
  let tab := (s.accessTable t).set 0 i.toNat w
  { s with access := (s.access.filter fun p => !(p.1 == t)) ++ if tab = [] then [] else [(t, tab)] }

/-- ACCESS_TABLE_WRITE. -/
def execAccessTableWrite (t : Target) (i : BitVec 6) (w : W64) (s : State) : Out := .next (accessTableWrite s t i w)

/-- DOORBELL (R41). -/
def execDoorbell (q : BitVec 4) (tail : BitVec 32) (s : State) : Out := .next (doorbellOp s q.toNat tail)
/-- LNQCFG_WRITE (R39). -/
def execLnqcfgWrite (q : BitVec 4) (w : W64) (s : State) : Out := .next (lnqPut s q.toNat 0x08 w.toNat (2 ^ 64 - 1))
/-- KIMGPOL_WRITE (R30, R32). -/
def execKimgpolWrite (w : W64) (s : State) : Out := .next (kimgpolPut s w.toNat)
/-- DMCFG_WRITE (R221). -/
def execDmcfgWrite (die : BitVec 4) (w : W64) (s : State) : Out := .next (dmcfgPut s die.toNat w.toNat)
/-- XGCFG_WRITE (R377). -/
def execXgcfgWrite (die : BitVec 4) (w : W64) (s : State) : Out := .next (xgcfgPut s die.toNat w.toNat)

/-- The OP in a write of TTCTL acts on its row (R59). -/
def rowOp (s : State) (row : Nat) : State :=
  match (s.row row).op.toNat with
  | 1 => bindOp s row
  | 2 => preemptOp s row
  | 3 => switchOp s row
  | _ => s

/-- A host access that the device refuses (R451). -/
def abort (s : State) : State := { s with hostErr := s.hostErr + 1 }

/-- REGISTER_WRITE: a write of 1, 2, 4 or 8 bytes to a system register, by the host or the signal box (R340, R451, R468). -/
def registerWrite (s : State) (master : BitVec 7) (pa : Nat) (w : Width) (data : W64) : State :=
  let m := master.toNat
  let off := paOff pa - 0x7F0000000000
  if regionOf s pa ≠ .sysreg ∨ pa % w.bytes ≠ 0 then s
  else if !hasRight s (.sysreg (paDie pa)) .wr m 0 then (if m = 126 then abort s else s)
  else
    let s := sysWrite s m pa (toBytes w.bytes data.toNat)
    if m = 127 ∧ paDie pa = 0 ∧ 0x20000 ≤ off ∧ off < 0x20900 ∧ off % 32 < 8 then rowOp s ((off - 0x20000) / 32) else s

/-- REGISTER_WRITE. -/
def execRegisterWrite (master : BitVec 7) (pa : Nat) (w : Width) (data : W64) (s : State) : Out :=
  .next (registerWrite s master pa w data)

/-! ### BAR2 (R312, R323, R451) -/

/-- Where a BAR2 offset leads. -/
inductive BarPlace where
  | here (pa : Nat)
  | other
  | closed
  deriving DecidableEq, Repr

/-- The place of a BAR2 offset: aperture 0 is package 0's control-die SRAM, the others are as APER placed them; package 1 is reached through
package 0 (R1, R451, R458). -/
def barPlace (s : State) (off : Nat) : BarPlace :=
  let at_ (pkg : Bool) (pa : Nat) : BarPlace :=
    if pkg && !s.dual then .closed else if pkg = s.pkg then .here pa else .other
  if off / 2 ^ 30 = 0 then at_ false (0x400000000000 + off)
  else if 64 ≤ off / 2 ^ 30 then .closed
  else match s.aper.get none (off / 2 ^ 30) with
    | none => .closed
    | some a => at_ a.pkg (a.base + off % 2 ^ 30)

/-- Whether the host may reach `n` bytes of this package: in one region, with the target's right, none of them the signal box's own
(R327, R338, R340, R451, R462). -/
def barOk (s : State) (off pa n : Nat) (r : Right) : Bool :=
  let place := regionOf s pa
  (s.devstat.pwr ≠ 3 || decide (off / 2 ^ 30 = 0)) && decide (off % 2 ^ 30 + n ≤ 2 ^ 30) && place != .none &&
    place == regionOf s (pa + n - 1) && decide (paDie pa = paDie (pa + n - 1)) &&
    (boxOnly s (r == .wr) pa n).isNone &&
    (match targetOf s pa with
      | none => false
      | some t => hasRight s t r 126 0)

/-- What an access of the host came to that this package does not answer: bytes of the other package, which are not this package's to state
(log entry 14). -/
def otherRead (s : State) (n : Nat) : State :=
  { s with
    fresh := s.fresh + n
    hostRead := s.hostRead ++ [(List.range n).map fun i => (Config.freeWord (s.fresh + i)).setWidth 8] }

/-- A host load of a system register: 1, 2, 4 or 8 bytes, aligned, with the right RD (R340, R468). -/
def hostSysRead (s : State) (pa n : Nat) : State :=
  if [1, 2, 4, 8].contains n && decide (pa % n = 0) && hasRight s (.sysreg (paDie pa)) .rd 126 0 then
    { s with hostRead := s.hostRead ++ [sysRead s pa n] }
  else abort s

/-- A HOST LOAD THROUGH BAR0: the control-die registers of package 0, and from offset 0x100_0000 on those of package 1, which read zero where
there is none (R151, R451). -/
def bar0Read (s : State) (off n : Nat) : State :=
  let pkg := decide (0x1000000 ≤ off)
  if 0x2000000 < off + n then abort s
  else if pkg && !s.dual then { s with hostRead := s.hostRead ++ [List.replicate n 0] }
  else if pkg = s.pkg then hostSysRead s (0x7F0000000000 + off % 0x1000000) n
  else otherRead s n

/-- Whether a leaf below a table is frozen and meets a physical extent. -/
def frozenBelow (s : State) (pa n : Nat) : List (Nat × Nat) → Nat → Bool
  | [], _ => false
  | (bits, idx) :: rest, table =>
    (listedEntries s table (2 ^ idx)).any fun i =>
      let e := s.homeNat (table + 8 * i) 8
      if bitsOf e 63 63 = 0 then false
      else if bitsOf e 62 62 = 1 then
        decide (pteFcnt e ≠ 0) && decide (pteAddr e < pa + n) && decide (pa < pteAddr e + 2 ^ bits)
      else frozenBelow s pa n rest (pteAddr e)

/-- Whether a physical extent lies in a frozen page of some address space (R315, R323). -/
def frozenPhys (s : State) (pa n : Nat) : Bool :=
  (listedEntries s 0x400000000000 4096).any fun i =>
    let e := s.homeNat (0x400000000000 + 8 * i) 8
    decide (bitsOf e 63 63 = 1) && frozenBelow s pa n [(37, 11), (26, 11), (16, 10)] (bitsOf e 51 14 * 16384)

/-- BAR2_READ: memory's bytes, or a completer abort; bytes of the other package are not this package's (R451; log entry 14). -/
def bar2Read (s : State) (off n : Nat) : State :=
  match barPlace s off with
  | .closed => abort s
  | .other => otherRead s n
  | .here pa =>
    if !barOk s off pa n .rd then abort s
    else if regionOf s pa = .sysreg then hostSysRead s pa n
    else { s with hostRead := s.hostRead ++ [s.homeBytes pa n] }

/-- BAR2_READ. -/
def execBar2Read (off n : Nat) (s : State) : Out := .next (bar2Read s off n)

/-- BAR2_WRITE: memory is written, or the write is dropped with an abort; one for the other package crosses the pair link (R323, R451, R458). -/
def bar2Write (s : State) (off : Nat) (bytes : List Byte) : State :=
  match barPlace s off with
  | .closed => abort s
  | .other => { s with sideOut := s.sideOut ++ [.hostWrite off bytes] }
  | .here pa =>
    if !barOk s off pa bytes.length .wr then abort s
    else if regionOf s pa = .sysreg then
      if [1, 2, 4, 8].contains bytes.length && decide (pa % bytes.length = 0) then sysWrite s 126 pa bytes else abort s
    else if frozenPhys s pa bytes.length then abort s
    else s.homeWriteBytes pa bytes

/-- BAR2_WRITE. -/
def execBar2Write (off : Nat) (bytes : List Byte) (s : State) : Out := .next (bar2Write s off bytes)

/-! ### The mailbox (R453, R454) -/

/-- Physical address of the mailbox record (R453). -/
def mailboxAt : Nat := 0x400000FF0000

/-- A command is done: word 6 takes STATUS and SEQ, MBOXBUSY is cleared, and vector 16 is sent (R453). -/
def mailboxDone (s : State) (seq : BitVec 32) (status : Nat) : State :=
  let s := s.homeWriteBytes (mailboxAt + 48) (toBytes 8 (status + seq.toNat * 2 ^ 32))
  sendMsix { s with devstat := { s.devstat with mboxbusy := false } } 16

/-- Whether every bit of a word outside a mask is zero. -/
def onlyBits (w : W64) (mask : Nat) : Bool := decide (w.toNat &&& mask = w.toNat)

/-- APER: places or removes an aperture. -/
def aperOp (s : State) (seq : BitVec 32) (w1 w2 : W64) : State :=
  let i := bitsOf w1.toNat 5 0
  let pkg := decide (bitsOf w1.toNat 8 8 = 1)
  if !onlyBits w1 (2 ^ 63 + 0x13F) ∨ i = 0 ∨ w2.toNat % 2 ^ 30 ≠ 0 ∨ 2 ^ 52 ≤ w2.toNat ∨ (pkg && !s.dual) then mailboxDone s seq 2
  else
    let x := if bitsOf w1.toNat 63 63 = 1 then some ⟨pkg, w2.toNat⟩ else none
    mailboxDone { s with aper := s.aper.set none i x } seq 0

/-- APER. -/
def execAper (seq : BitVec 32) (w1 w2 : W64) (s : State) : Out := .next (aperOp s seq w1 w2)

/-- HRGN: opens or closes a host region (R455). -/
def hrgnOp (s : State) (seq : BitVec 32) (w1 w2 w3 : W64) : State :=
  let n := w1.toNat
  if !onlyBits w1 (2 ^ 63 + 0x30FFF000F) ∨ w2.toNat % 4096 ≠ 0 ∨ w3.toNat % 4096 ≠ 0 then mailboxDone s seq 2
  else
    let x : Option HostRegion :=
      if bitsOf n 63 63 = 1 then
        some ⟨.ofNat 12 (bitsOf n 27 16), decide (bitsOf n 32 32 = 1), decide (bitsOf n 33 33 = 1), w2.toNat, w3.toNat⟩
      else none
    mailboxDone { s with hrgn := s.hrgn.set none (bitsOf n 3 0) x } seq 0

/-- HRGN. -/
def execHrgn (seq : BitVec 32) (w1 w2 w3 : W64) (s : State) : Out := .next (hrgnOp s seq w1 w2 w3)

/-- The core clock at a board limit, in tenths of a gigahertz (R464). -/
def clockAt (watts : Nat) : Nat :=
  if 450 ≤ watts then 19 else if 420 ≤ watts then 18 else if 385 ≤ watts then 17 else if 350 ≤ watts then 16
  else if 305 ≤ watts then 15 else if 250 ≤ watts then 14 else if 220 ≤ watts then 13 else if 195 ≤ watts then 12
  else if 170 ≤ watts then 11 else 10

/-- The limit, and a hold of the core clocks when the clock changes (R464). -/
def setPower (s : State) (w : Nat) : State :=
  { s with watts := w, clk := clockAt w, hold := s.hold || decide (clockAt w ≠ s.clk) }

/-- POWER: the limit of this package, and of the other one (R464, R467). -/
def powerOp (s : State) (seq : BitVec 32) (w1 : W64) : State :=
  let w := w1.toNat
  if w < 150 ∨ 450 < w then mailboxDone s seq 2
  else if s.devstat.pwr ≠ 1 then mailboxDone s seq 3
  else
    let s := if s.dual && !s.pkg then { s with sideOut := s.sideOut ++ [.power w] } else s
    mailboxDone (setPower s w) seq 0

/-- POWER. -/
def execPower (seq : BitVec 32) (w1 : W64) (s : State) : Out := .next (powerOp s seq w1)

/-- CLOCK_HOLD_END: every die resumes together (R464). -/
def execClockHoldEnd (s : State) : Out := .next { s with hold := false }

/-! ### Key slots, attestation and sealing (R460, R461, R463) -/

/-- A change of a key slot acts on the list of checked images as a KIMGPOL write does (R32, R460). -/
def recheckImages (s : State) : State :=
  { s with images := (s.images.filter fun e => decide (e.live ≠ 0) || e.frozen).map fun e => { e with checked := false } }

/-- Whether `n` bytes from a physical address lie in one place of memory. -/
def inMemory (s : State) (pa n : Nat) : Bool :=
  (match regionOf s pa with
    | .lpddr | .sram | .tier | .scratch => true
    | .sysreg | .none => false) && regionOf s pa == regionOf s (pa + n - 1) && decide (paDie pa = paDie (pa + n - 1))

/-- KEYLOAD: a public key enters a slot when its signature verifies under slot 1, or slot 0 while slot 1 is empty (R460). -/
def keyloadOp (s : State) (seq : BitVec 32) (w1 w2 : W64) : State :=
  let slot := w1.toNat
  let len := s.homeNat (w2.toNat + 1794) 2
  if slot = 0 ∨ 8 ≤ slot ∨ !inMemory s w2.toNat 1796 ∨ len = 0 ∨ 1280 < len ∨ !inMemory s w2.toNat (1796 + len) then mailboxDone s seq 2
  else if bitsOf s.kimgpol.toNat 16 16 = 1 then mailboxDone s seq 3
  else
    let key := s.homeBytes w2.toNat 1793
    let under := if s.keyOf 1 = [] then s.keyOf 0 else s.keyOf 1
    if Config.falconVerify under (Config.shake256 (BitVec.ofNat 8 slot :: key)) (s.homeBytes (w2.toNat + 1796) len) then
      mailboxDone (recheckImages { s with keySlots := s.keySlots.set [] slot key }) seq 0
    else mailboxDone s seq 4

/-- KEYLOAD. -/
def execKeyload (seq : BitVec 32) (w1 w2 : W64) (s : State) : Out := .next (keyloadOp s seq w1 w2)

/-- KEYCLEAR: empties a slot (R454, R460). -/
def keyclearOp (s : State) (seq : BitVec 32) (w1 : W64) : State :=
  if w1 = 0 ∨ 8 ≤ w1.toNat then mailboxDone s seq 2
  else if bitsOf s.kimgpol.toNat 16 16 = 1 then mailboxDone s seq 3
  else mailboxDone (recheckImages { s with keySlots := s.keySlots.set [] w1.toNat [] }) seq 0

/-- KEYCLEAR. -/
def execKeyclear (seq : BitVec 32) (w1 : W64) (s : State) : Out := .next (keyclearOp s seq w1)

/-- `n` bytes of a list, with zeros after its end. -/
def fixedBytes (n : Nat) (l : List Byte) : List Byte := (l ++ List.replicate n 0).take n

/-- The report of R461 without its signature: bytes 0 to 647. -/
def reportBytes (s : State) (nonce : List Byte) : List Byte :=
  toBytes 4 0x54544154 ++ fixedBytes 16 Config.devId ++ toBytes 4 (if s.dual then 2 else 1) ++ toBytes 8 s.dt.toNat ++
    fixedBytes 32 nonce ++ fixedBytes 64 Config.firmwareDigest ++ toBytes 8 s.kimgpol.toNat ++
    (List.range 8).flatMap fun i => fixedBytes 64 (if s.keyOf i = [] then [] else Config.shake256 (s.keyOf i))

/-- ATTEST: the signed report (R461). -/
def attestOp (s : State) (seq : BitVec 32) (w1 w2 : W64) : State :=
  if !inMemory s w1.toNat 32 || !inMemory s w2.toNat 2048 then mailboxDone s seq 2
  else
    let body := reportBytes s (s.homeBytes w1.toNat 32)
    let sig := (Config.deviceSign (Config.shake256 body)).take 1280
    mailboxDone (s.homeWriteBytes w2.toNat (fixedBytes 2048 (body ++ toBytes 2 sig.length ++ sig))) seq 0

/-- ATTEST. -/
def execAttest (seq : BitVec 32) (w1 w2 : W64) (s : State) : Out := .next (attestOp s seq w1 w2)

/-- The key of sealed blocks of an address space (R463). -/
def sealKey (asid : Nat) : List Byte := (Config.shake256 (Config.sealRoot ++ toBytes 2 asid)).take 32

/-- Whether `n` bytes of a host address lie in one open region of an address space (R455, R463). -/
def hostRange (s : State) (asid : Asid) (write : Bool) (addr n : Nat) : Bool :=
  s.hrgn.any fun e => match e.2 with
    | none => false
    | some r => r.asid == asid && (if write then r.wr else r.rd) && decide (r.base ≤ addr) && decide (addr + n ≤ r.base + r.len)

/-- Whether a length can be sealed. -/
def sealLength (n : Nat) : Bool := decide (n % 4096 = 0) && decide (4096 ≤ n) && decide (n ≤ 1048576)

/-- The header of a sealed block (R463). -/
def sealHeader (asid n : Nat) (nonce : List Byte) : List Byte :=
  fixedBytes 64 (toBytes 4 0x4C414553 ++ toBytes 4 asid ++ toBytes 8 n ++ nonce)

/-- SEAL: a range is encrypted into a block in a host region (R463). -/
def sealOp (s : State) (seq : BitVec 32) (w1 w2 w3 w4 : W64) : State :=
  let asid : Asid := .ofNat 12 w1.toNat
  let n := w3.toNat
  if 4096 ≤ w1.toNat ∨ !sealLength n ∨ !hostRange s asid true w4.toNat (80 + n) then mailboxDone s seq 2
  else match fwRead s asid w2.toNat n with
    | (_, none) => mailboxDone s seq 2
    | (s', some plain) =>
      let nonce := toBytes 8 (Config.freeWord s'.fresh).toNat ++ toBytes 4 s'.sealCount
      let head := sealHeader asid.toNat n nonce
      let c := Config.gcmSeal (sealKey asid.toNat) nonce head plain
      let block := head ++ fixedBytes n c.1 ++ fixedBytes 16 c.2
      mailboxDone { s' with
        fresh := s'.fresh + 1, sealCount := s'.sealCount + 1
        hostMem := Store.setRun zeroByte s'.hostMem w4.toNat block } seq 0

/-- SEAL. -/
def execSeal (seq : BitVec 32) (w1 w2 w3 w4 : W64) (s : State) : Out := .next (sealOp s seq w1 w2 w3 w4)

/-- The signal box makes the check words of a range anew (R344, R463). -/
def freshenRange (asid : Asid) (va : Nat) (s : State) (i : Nat) : State :=
  match physOf s asid (va + i) with
  | none => s
  | some pa => { s with stale := s.stale.set false pa false }

/-- UNSEAL: checks and decrypts a sealed block into device memory (R463). -/
def unsealOp (s : State) (seq : BitVec 32) (w1 w2 w3 w4 : W64) : State :=
  let asid : Asid := .ofNat 12 w1.toNat
  let n := w4.toNat
  let s' := provide s asid w3.toNat n
  if 4096 ≤ w1.toNat ∨ !sealLength n ∨ !hostRange s asid false w2.toNat (80 + n) ∨ !reachable s' asid 60 w3.toNat n then
    mailboxDone s seq 2
  else
    let block := Store.getRun zeroByte s.hostMem w2.toNat (80 + n)
    let head := block.take 64
    let sound := decide (field head 0 4 = 0x4C414553) && decide (field head 4 4 = asid.toNat) && decide (field head 8 8 = n)
    match if sound then Config.gcmOpen (sealKey asid.toNat) ((head.drop 16).take 12) head ((block.drop 64).take n) (block.drop (64 + n)) else none with
    | none => mailboxDone s seq 4
    | some plain =>
      mailboxDone ((List.range n).foldl (freshenRange asid w3.toNat) (fwWrite s' asid w3.toNat (fixedBytes n plain))) seq 0

/-- UNSEAL. -/
def execUnseal (seq : BitVec 32) (w1 w2 w3 w4 : W64) (s : State) : Out := .next (unsealOp s seq w1 w2 w3 w4)

/-! ### Sleep and wake (R465, R467) -/

/-- Whether a launch queue in SRAM of dies 1 to 8 holds a record whose slot has not been freed. -/
def queueInSram (s : State) : Bool :=
  (List.range 16).any fun k =>
    let q := s.queue k
    let pa := q.base.toNat * 4096
    decide (q.tail ≠ q.head) && decide (1 ≤ paDie pa) && (match regionOf s pa with
      | .tier | .scratch => true
      | .lpddr | .sram | .sysreg | .none => false)

/-- Whether SLEEP is accepted (R465). -/
def sleepAccepted (s : State) : Bool :=
  s.devstat.pwr == 1 && ((List.range 72).all fun row => (s.row row).state == .free) && decide (s.launches = []) && !queueInSram s

/-- The 64 KiB pages of an address space whose frames lie in key-value tier SRAM, below a table. -/
def tierPages (s : State) : List (Nat × Nat) → Nat → Nat → List Nat
  | [], _, _ => []
  | (bits, idx) :: rest, table, va =>
    (listedEntries s table (2 ^ idx)).flatMap fun i =>
      let e := s.homeNat (table + 8 * i) 8
      let va := va + i * 2 ^ bits
      if bitsOf e 63 63 = 0 then []
      else if bitsOf e 62 62 = 1 then (if regionOf s (pteAddr e) = .tier ∧ bits = 16 then [va] else [])
      else tierPages s rest (pteAddr e) va

/-- Moves one page to a frame of LPDDR. -/
def pageToLpddr (asid : Asid) (s : State) (va : Nat) : State :=
  match allocFrames s 1 with
  | none => s
  | some (s', f) => migration s' asid va f false

/-- Moves every page of key-value tier SRAM that a valid leaf maps to LPDDR. -/
def emptyTier (s : State) : State :=
  (listedEntries s 0x400000000000 4096).foldl (fun s i =>
    let e := s.homeNat (0x400000000000 + 8 * i) 8
    if bitsOf e 63 63 = 0 then s
    else (tierPages s [(37, 11), (26, 11), (16, 10)] (bitsOf e 51 14 * 16384) 0).foldl (pageToLpddr (.ofNat 12 i)) s) s

/-- Whether a window's pages lie in key-value tier SRAM. -/
def windowInTier (s : State) (w : Window) : Bool :=
  decide (w.len ≠ 0) && (pagesOf (w.len.toNat / 65536 + 2) w.base.toNat w.len.toNat).any fun p =>
    match physOf s w.asid p.1 with
    | none => false
    | some pa => regionOf s pa == .tier

/-- Unregisters a window whose pages are in the tier (R465). -/
def dropWindow (s : State) (i : Nat) : State :=
  if windowInTier s (s.window (.ofNat 6 i)) then
    sendReset (s.setWindow (.ofNat 6 i) { s.window (.ofNat 6 i) with len := 0, rcv := 0 }) (.ofNat 6 i)
  else s

/-- Whether a physical address keeps its contents through sleep: LPDDR and control-die SRAM. -/
def retained (pa : Nat) : Bool := decide (paDie pa = 0) || decide (paOff pa ≤ 0x000FFFFFFFFF)

/-- Dies 1 to 8 are without power: their SRAM, slots, caches and registers are lost (R465). -/
def powerOff (s : State) : State :=
  { s with
    mem := s.mem.filter fun e => retained e.1
    poison := s.poison.filter fun e => retained e.1
    stale := s.stale.filter fun e => retained e.1
    tlb := [], coreOv := [], dieOv := []
    slots := [], permits := [], xgcfg := [], dmcfg := [], kverrpol := [] }

/-- SLEEP: refused in the present state, or entered (R465, R467). -/
def sleepOp (s : State) (seq : BitVec 32) : State :=
  if !sleepAccepted s then mailboxDone s seq 3
  else
    let s := sendMsix { s with devstat := { s.devstat with pwr := 2, ready := false } } 16
    let s := (List.range 64).foldl dropWindow s
    let s := emptyTier s
    let s := s.coreOv.foldl (fun s p => publishHome s p.2) s
    let s := s.dieOv.foldl (fun s p => publishHome s p.2) s
    let s := powerOff { s with sleepCopy := some (s.dmcfg, s.kverrpol) }
    sendMsix (mailboxDone { s with devstat := { s.devstat with pwr := 3 } } seq 0) 16

/-- SLEEP. -/
def execSleep (seq : BitVec 32) (s : State) : Out := .next (sleepOp s seq)

/-- WAKE: the dies are restored, DCCs continue from the control die's, and READY is set (R465, R466). -/
def wakeOp (s : State) : State :=
  if s.devstat.pwr ≠ 3 then s
  else
    let c := s.sleepCopy.getD ([], [])
    let s := { s with
      dmcfg := c.1, kverrpol := c.2, sleepCopy := none
      dcc := (List.range 9).foldl (fun m k => m.set 0 k (s.dcc.get 0 0)) s.dcc
      devstat := { s.devstat with pwr := 1, ready := true, stage := 7 } }
    later (sendMsix s 16) .schedulingPass

/-- WAKE. -/
def execWake (s : State) : Out := .next (wakeOp s)

/-! ### Time (R115, R457) -/

/-- PTM_EXCHANGE: from now on DT is slewed towards the host's time; PTMLOCK says whether the exchange found it within 1 µs (R457). -/
def ptmExchange (s : State) (host : W64) : State :=
  let d : Int := host.toNat - s.dt.toNat
  { s with slew := d, devstat := { s.devstat with ptmlock := decide (d.natAbs ≤ 1000) } }

/-- PTM_EXCHANGE. -/
def execPtmExchange (hostDt : W64) (s : State) : Out := .next (ptmExchange s hostDt)

/-- Package 1 takes DT from package 0, towards which it is slewed (R457; log entry 42). -/
def pairDt (s : State) (t : W64) : State := { s with slew := t.toNat - s.dt.toNat }

/-- DT_CORRECTION: the copies follow the control die's DT, and none runs backwards; package 0 tells package 1 its DT (R115, R457). -/
def execDtCorrection (s : State) : Out :=
  let s := if s.dual && !s.pkg then { s with sideOut := s.sideOut ++ [.dt s.dt] } else s
  .next { s with dtDie := (List.range 9).foldl (fun m k => if (m.get 0 k).toNat ≤ s.dt.toNat then m.set 0 k s.dt else m) s.dtDie }

/-! ### The pair link (R326, R458) -/

/-- PAIR_LINK_LOSS: the link has been down for more than 100 ms; vector 16 tells of a change of PAIRUP (R456, R458). -/
def execPairLinkLoss (s : State) : Out :=
  .next (if !s.dual then s
    else
      let t := { s with devstat := { s.devstat with pairdown := true, pairup := false } }
      if s.devstat.pairup then sendMsix t 16 else t)

/-- PAIR_LINK_TRAINED: the link is up again. -/
def execPairLinkTrained (s : State) : Out :=
  .next (if s.dual && !s.devstat.pairup then sendMsix { s with devstat := { s.devstat with pairup := true } } 16 else s)

/-- PAIR_FREEZE_ENTRY: an entry of the other package awaits the next completion of the group's barrier here (R326). -/
def execPairFreezeEntry (asid : Asid) (base len : W64) (group : BitVec 16) (s : State) : Out :=
  .next { s with pairFreezes := s.pairFreezes ++ [⟨asid, base.toNat, len.toNat, group, false, 0, [], false⟩] }

/-! ### Cold start and the retirement of an address space (R30, R37, R389, R459 to R462, R466) -/

/-- COLD_START: the stages in order; one that fails sets BOOTERR and stops, but for the pair link, without which package 0 comes up alone, as a
single package, and package 1, which reads its firmware over it, does not (R459, R466). SRAM holds zeros, LPDDR is left as it is, and the access
tables are the signal box's to write. -/
def coldStartOp (s : State) : State :=
  let s' := { State.reset with
    dual := s.dual, pkg := s.pkg, cur := s.cur, agenda := s.agenda, cycle := s.cycle, fresh := s.fresh, hostMem := s.hostMem
    backing := s.backing, hostErr := s.hostErr, hostRead := s.hostRead, sideOut := s.sideOut, msix := s.msix
    mem := s.mem.filter fun e => decide (paOff e.1 ≤ 0x000FFFFFFFFF) }
  let fails (code : BitVec 8) (stage : BitVec 4) (secure : Bool) : State :=
    { s' with devstat := { s'.devstat with booterr := code, stage := stage, secure := secure } }
  let pair := s.dual && Config.pairLinkOk
  if s.dual && s.pkg && !pair then fails 4 3 false
  else if !Config.firmwareOk then fails 1 1 false
  else if !Config.lpddrOk then fails 2 2 true
  else if !Config.sramOk then fails 3 5 true
  else
    sendMsix { s' with
      dual := pair
      devstat := { s'.devstat with
        booterr := if s.dual && !pair then 4 else 0, secure := true, stage := 7, ready := true, pwr := 1, pairup := pair } } 16

/-- COLD_START. -/
def execColdStart (s : State) : Out := .next (coldStartOp s)

/-- Whether a task of an address space is bound or preempted on a die (R389). -/
def asidOnDie (s : State) (asid : Asid) (die : Nat) : Bool :=
  ((List.range 8).any fun i => (s.row (8 * die + i)).asid == asid && (s.row (8 * die + i)).state != .free) ||
    s.preempted.any fun p => decide (p.core / 4 = die) && p.asid == asid

/-- Frees the slots of an address space on a die, and the permits for them at the senders (R379, R389). -/
def clearSlots (asid : Asid) (s : State) (die : Nat) : State :=
  if asidOnDie s asid die then s
  else
    let s := { s with permits := (s.permits.map fun e =>
      (e.1, if e.1 / 16 % 16 = die then e.2.filter fun p => !(p.1 == asid) else e.2)).filter fun e => e.2 ≠ [] }
    (List.range 16).foldl (fun s i => if (s.slot die i).asid = asid then s.setSlot die i XSlot.reset else s) s

/-- ASID_RETIREMENT: shared groups, SP keys, exchange slots and the XTS key of the address space end (R37, R389, R408, R462). -/
def asidRetirement (s : State) (asid : Asid) : State :=
  let s := (s.shared.filter fun g => g.asid == asid).foldl (fun s g => match g.gidx with
    | none => s
    | some k => s.setGroup k Group.reset) s
  let s := { s with
    shared := s.shared.filter fun g => !(g.asid == asid)
    spKeys := s.spKeys.map fun e => if e.2.asid = asid then (e.1, { e.2 with valid := false }) else e
    xtsKeys := s.xtsKeys.set false asid.toNat false }
  (List.range 9).foldl (clearSlots asid) s

/-- ASID_RETIREMENT. -/
def execAsidRetirement (asid : Asid) (s : State) : Out := .next (asidRetirement s asid)

/-! ### Serving the mailbox (R453, R454) -/

/-- Number of operand words of a command; none for an unknown one. -/
def commandWords (cmd : Nat) : Option Nat :=
  match cmd with
  | 1 => some 2 | 2 => some 3 | 3 => some 1 | 4 => some 0 | 5 => some 2 | 6 => some 1 | 7 => some 2 | 8 => some 4 | 9 => some 4
  | _ => none

/-- The signal box serves the command of the mailbox record: an unknown one ends with STATUS 1, and one with an operand word that it does
not have ends with STATUS 2 when that word is not zero. -/
def serveMailbox (s : State) : State :=
  let w (i : Nat) : W64 := .ofNat 64 (s.homeNat (mailboxAt + 8 * i) 8)
  let seq : BitVec 32 := .ofNat 32 (bitsOf (w 0).toNat 63 32)
  match commandWords ((w 0).toNat % 256) with
  | none => mailboxDone s seq 1
  | some n =>
    if ((List.range 5).drop n).any fun i => decide (w (i + 1) ≠ 0) then mailboxDone s seq 2
    else match (w 0).toNat % 256 with
      | 1 => aperOp s seq (w 1) (w 2)
      | 2 => hrgnOp s seq (w 1) (w 2) (w 3)
      | 3 => powerOp s seq (w 1)
      | 4 => sleepOp s seq
      | 5 => keyloadOp s seq (w 1) (w 2)
      | 6 => keyclearOp s seq (w 1)
      | 7 => attestOp s seq (w 1) (w 2)
      | 8 => sealOp s seq (w 1) (w 2) (w 3) (w 4)
      | _ => unsealOp s seq (w 1) (w 2) (w 3) (w 4)

end Sys2Proof.Machine
end

