-- ==== Sys2Proof/Machine/Dispatch.lean ====
section
/-! DEFINITION. One arm for each instruction. -/

namespace Sys2Proof.Machine

/-- The effect of an instruction, a command or an event on the state. -/
def exec (i : Instr) (s : State) : Host.Outcome State Fault Refusal :=
  match i with
  | .add d a b => Sys2Proof.Machine.execAdd d a b s
  | .sub d a b => Sys2Proof.Machine.execSub d a b s
  | .mul d a b => Sys2Proof.Machine.execMul d a b s
  | .mulh d a b => Sys2Proof.Machine.execMulh d a b s
  | .mulhz d a b => Sys2Proof.Machine.execMulhz d a b s
  | .div d a b => Sys2Proof.Machine.execDiv d a b s
  | .divz d a b => Sys2Proof.Machine.execDivz d a b s
  | .rem d a b => Sys2Proof.Machine.execRem d a b s
  | .remz d a b => Sys2Proof.Machine.execRemz d a b s
  | .and d a b => Sys2Proof.Machine.execAnd d a b s
  | .or d a b => Sys2Proof.Machine.execOr d a b s
  | .xor d a b => Sys2Proof.Machine.execXor d a b s
  | .andn d a b => Sys2Proof.Machine.execAndn d a b s
  | .shl d a b => Sys2Proof.Machine.execShl d a b s
  | .shr d a b => Sys2Proof.Machine.execShr d a b s
  | .sar d a b => Sys2Proof.Machine.execSar d a b s
  | .min d a b => Sys2Proof.Machine.execMin d a b s
  | .max d a b => Sys2Proof.Machine.execMax d a b s
  | .minz d a b => Sys2Proof.Machine.execMinz d a b s
  | .maxz d a b => Sys2Proof.Machine.execMaxz d a b s
  | .clz d a => Sys2Proof.Machine.execClz d a s
  | .ctz d a => Sys2Proof.Machine.execCtz d a s
  | .popc d a => Sys2Proof.Machine.execPopc d a s
  | .sext d a w => Sys2Proof.Machine.execSext d a w s
  | .zext d a w => Sys2Proof.Machine.execZext d a w s
  | .mov d a => Sys2Proof.Machine.execMov d a s
  | .cmp p d a b => Sys2Proof.Machine.execCmp p d a b s
  | .cmpi p d a xi => Sys2Proof.Machine.execCmpi p d a xi s
  | .cand d a b => Sys2Proof.Machine.execCand d a b s
  | .cor d a b => Sys2Proof.Machine.execCor d a b s
  | .cnot d a => Sys2Proof.Machine.execCnot d a s
  | .addi d a xi => Sys2Proof.Machine.execAddi d a xi s
  | .andi d a xi => Sys2Proof.Machine.execAndi d a xi s
  | .ori d a xi => Sys2Proof.Machine.execOri d a xi s
  | .xori d a xi => Sys2Proof.Machine.execXori d a xi s
  | .shli d a n => Sys2Proof.Machine.execShli d a n s
  | .shri d a n => Sys2Proof.Machine.execShri d a n s
  | .sari d a n => Sys2Proof.Machine.execSari d a n s
  | .liw d xi => Sys2Proof.Machine.execLiw d xi s
  | .lih d xi => Sys2Proof.Machine.execLih d xi s
  | .br disp => Sys2Proof.Machine.execBr disp s
  | .brc c inv disp => Sys2Proof.Machine.execBrc c inv disp s
  | .call disp => Sys2Proof.Machine.execCall disp s
  | .brx a => Sys2Proof.Machine.execBrx a s
  | .ret a => Sys2Proof.Machine.execRet a s
  | .loopr d rot disp => Sys2Proof.Machine.execLoopr d rot disp s
  | .send q a => Sys2Proof.Machine.execSend q a s
  | .recv d q => Sys2Proof.Machine.execRecv d q s
  | .push e x y => Sys2Proof.Machine.execPush e x y s
  | .pop x e y => Sys2Proof.Machine.execPop x e y s
  | .shadow n => Sys2Proof.Machine.execShadow n s
  | .resolve n k => Sys2Proof.Machine.execResolve n k s
  | .phase g => Sys2Proof.Machine.execPhase g s
  | .fence g => Sys2Proof.Machine.execFence g s
  | .waitc a b => Sys2Proof.Machine.execWaitc a b s
  | .launch y q a => Sys2Proof.Machine.execLaunch y q a s
  | .halt => Sys2Proof.Machine.execHalt s
  | .yield => Sys2Proof.Machine.execYield s
  | .time d f => Sys2Proof.Machine.execTime d f s
  | .realign a b => Sys2Proof.Machine.execRealign a b s
  | .tret => Sys2Proof.Machine.execTret s
  | .nop => Sys2Proof.Machine.execNop s
  | .sysr d n => Sys2Proof.Machine.execSysr d n s
  | .sysw n a => Sys2Proof.Machine.execSysw n a s
  | .trap code => Sys2Proof.Machine.execTrap code s
  | .aadd d a b => Sys2Proof.Machine.execAadd d a b s
  | .asub d a b => Sys2Proof.Machine.execAsub d a b s
  | .amov d a => Sys2Proof.Machine.execAmov d a s
  | .aget d => Sys2Proof.Machine.execAget d s
  | .aaddi d a xi => Sys2Proof.Machine.execAaddi d a xi s
  | .aaddiA64 d a xi => Sys2Proof.Machine.execAaddiA64 d a xi s
  | .ashli d a n => Sys2Proof.Machine.execAshli d a n s
  | .ldv u a q off => Sys2Proof.Machine.execLdv u a q off s
  | .stv u a q off => Sys2Proof.Machine.execStv u a q off s
  | .lds a w sx off => Sys2Proof.Machine.execLds a w sx off s
  | .sts a w off => Sys2Proof.Machine.execSts a w off s
  | .amoadd a w8 => Sys2Proof.Machine.execAmoadd a w8 s
  | .amoxchg a w8 => Sys2Proof.Machine.execAmoxchg a w8 s
  | .amocas a w8 => Sys2Proof.Machine.execAmocas a w8 s
  | .amomin a w8 z => Sys2Proof.Machine.execAmomin a w8 z s
  | .amomax a w8 z => Sys2Proof.Machine.execAmomax a w8 z s
  | .amoand a w8 => Sys2Proof.Machine.execAmoand a w8 s
  | .amoor a w8 => Sys2Proof.Machine.execAmoor a w8 s
  | .sdef st a => Sys2Proof.Machine.execSdef st a s
  | .sset st w a => Sys2Proof.Machine.execSset st w a s
  | .sgo st target => Sys2Proof.Machine.execSgo st target s
  | .sstop st => Sys2Proof.Machine.execSstop st s
  | .sstat st => Sys2Proof.Machine.execSstat st s
  | .pft a level => Sys2Proof.Machine.execPft a level s
  | .tlbsync => Sys2Proof.Machine.execTlbsync s
  | .frz a l g => Sys2Proof.Machine.execFrz a l g s
  | .thw a l g => Sys2Proof.Machine.execThw a l g s
  | .vadd d a b m t => Sys2Proof.Machine.execVadd d a b m t s
  | .vsub d a b m t => Sys2Proof.Machine.execVsub d a b m t s
  | .vmul d a b m t => Sys2Proof.Machine.execVmul d a b m t s
  | .vfma d a b c m t => Sys2Proof.Machine.execVfma d a b c m t s
  | .vfms d a b c m t => Sys2Proof.Machine.execVfms d a b c m t s
  | .vfnma d a b c m t => Sys2Proof.Machine.execVfnma d a b c m t s
  | .vneg d a m t => Sys2Proof.Machine.execVneg d a m t s
  | .vabs d a m t => Sys2Proof.Machine.execVabs d a m t s
  | .vmin d a b m t => Sys2Proof.Machine.execVmin d a b m t s
  | .vmax d a b m t => Sys2Proof.Machine.execVmax d a b m t s
  | .vadds d a b m t => Sys2Proof.Machine.execVadds d a b m t s
  | .vsubs d a b m t => Sys2Proof.Machine.execVsubs d a b m t s
  | .vmulh d a b m t => Sys2Proof.Machine.execVmulh d a b m t s
  | .vavg d a b m t => Sys2Proof.Machine.execVavg d a b m t s
  | .vshl d a n m t => Sys2Proof.Machine.execVshl d a n m t s
  | .vshr d a n m t => Sys2Proof.Machine.execVshr d a n m t s
  | .vsar d a n m t => Sys2Proof.Machine.execVsar d a n m t s
  | .vand d a b m t => Sys2Proof.Machine.execVand d a b m t s
  | .vor d a b m t => Sys2Proof.Machine.execVor d a b m t s
  | .vxor d a b m t => Sys2Proof.Machine.execVxor d a b m t s
  | .vandn d a b m t => Sys2Proof.Machine.execVandn d a b m t s
  | .vnot d a m t => Sys2Proof.Machine.execVnot d a m t s
  | .vclz d a m t => Sys2Proof.Machine.execVclz d a m t s
  | .vpopc d a m t => Sys2Proof.Machine.execVpopc d a m t s
  | .vwadd d a b m t quad => Sys2Proof.Machine.execVwadd d a b m t quad s
  | .vwmul d a b m t quad => Sys2Proof.Machine.execVwmul d a b m t quad s
  | .vwfma d a b m t quad => Sys2Proof.Machine.execVwfma d a b m t quad s
  | .vcmp d a b m t p => Sys2Proof.Machine.execVcmp d a b m t p s
  | .vclass d a m t cls => Sys2Proof.Machine.execVclass d a m t cls s
  | .mand d a b => Sys2Proof.Machine.execMand d a b s
  | .mor d a b => Sys2Proof.Machine.execMor d a b s
  | .mxor d a b => Sys2Proof.Machine.execMxor d a b s
  | .mandn d a b => Sys2Proof.Machine.execMandn d a b s
  | .mnot d a => Sys2Proof.Machine.execMnot d a s
  | .mset d mode => Sys2Proof.Machine.execMset d mode s
  | .mpop a t => Sys2Proof.Machine.execMpop a t s
  | .mfirst a t => Sys2Proof.Machine.execMfirst a t s
  | .mmov d a => Sys2Proof.Machine.execMmov d a s
  | .vcvt d a m t xs sat => Sys2Proof.Machine.execVcvt d a m t xs sat s
  | .vcvts d a m t xs => Sys2Proof.Machine.execVcvts d a m t xs s
  | .vscale d a b m t => Sys2Proof.Machine.execVscale d a b m t s
  | .vmov d a m t => Sys2Proof.Machine.execVmov d a m t s
  | .vsel d a b sel m t => Sys2Proof.Machine.execVsel d a b sel m t s
  | .vbcast d a j m t => Sys2Proof.Machine.execVbcast d a j m t s
  | .vsplat d m t => Sys2Proof.Machine.execVsplat d m t s
  | .vextr a j t => Sys2Proof.Machine.execVextr a j t s
  | .vins d j m t => Sys2Proof.Machine.execVins d j m t s
  | .vldi d xi m t => Sys2Proof.Machine.execVldi d xi m t s
  | .vperm d a b m t => Sys2Proof.Machine.execVperm d a b m t s
  | .vperme d a b c m t => Sys2Proof.Machine.execVperme d a b c m t s
  | .vslup d a b c m t => Sys2Proof.Machine.execVslup d a b c m t s
  | .vsldn d a b c m t => Sys2Proof.Machine.execVsldn d a b c m t s
  | .vrev d a m t => Sys2Proof.Machine.execVrev d a m t s
  | .vcompr d a sel t cq => Sys2Proof.Machine.execVcompr d a sel t cq s
  | .vexpnd d a m t => Sys2Proof.Machine.execVexpnd d a m t s
  | .vzip2 d a t => Sys2Proof.Machine.execVzip2 d a t s
  | .vzip3 d a t => Sys2Proof.Machine.execVzip3 d a t s
  | .vzip4 d a t => Sys2Proof.Machine.execVzip4 d a t s
  | .vunzip2 d a t => Sys2Proof.Machine.execVunzip2 d a t s
  | .vunzip3 d a t => Sys2Proof.Machine.execVunzip3 d a t s
  | .vunzip4 d a t => Sys2Proof.Machine.execVunzip4 d a t s
  | .vunpk4 d a m t mode => Sys2Proof.Machine.execVunpk4 d a m t mode s
  | .vpack4 d a b m t inter sat => Sys2Proof.Machine.execVpack4 d a b m t inter sat s
  | .vrsum d a m t => Sys2Proof.Machine.execVrsum d a m t s
  | .vrmax d a m t => Sys2Proof.Machine.execVrmax d a m t s
  | .vrmin d a m t => Sys2Proof.Machine.execVrmin d a m t s
  | .vramax d a m t => Sys2Proof.Machine.execVramax d a m t s
  | .vexp2 d a m => Sys2Proof.Machine.execVexp2 d a m s
  | .vlog2 d a m => Sys2Proof.Machine.execVlog2 d a m s
  | .vrcp d a m => Sys2Proof.Machine.execVrcp d a m s
  | .vrsq d a m => Sys2Proof.Machine.execVrsq d a m s
  | .vsqrt d a m => Sys2Proof.Machine.execVsqrt d a m s
  | .vtanh d a m => Sys2Proof.Machine.execVtanh d a m s
  | .vsigm d a m => Sys2Proof.Machine.execVsigm d a m s
  | .vexpm d a m => Sys2Proof.Machine.execVexpm d a m s
  | .vsetmode src => Sys2Proof.Machine.execVsetmode src s
  | .vdisc q countM1 => Sys2Proof.Machine.execVdisc q countM1 s
  | .vtrd d tile xs m => Sys2Proof.Machine.execVtrd d tile xs m s
  | .vtcd d tile xs m => Sys2Proof.Machine.execVtcd d tile xs m s
  | .vtwr tile a xs m => Sys2Proof.Machine.execVtwr tile a xs m s
  | .vtwc tile a xs m => Sys2Proof.Machine.execVtwc tile a xs m s
  | .tcfg tile => Sys2Proof.Machine.execTcfg tile s
  | .tzero tile => Sys2Proof.Machine.execTzero tile s
  | .trel tile => Sys2Proof.Machine.execTrel tile s
  | .lineDispatch row => Sys2Proof.Machine.execLineDispatch row s
  | .resultLanding row => Sys2Proof.Machine.execResultLanding row s
  | .loadDataArrival row id => Sys2Proof.Machine.execLoadDataArrival row id s
  | .streamFetch row st => Sys2Proof.Machine.execStreamFetch row st s
  | .streamStore row st => Sys2Proof.Machine.execStreamStore row st s
  | .atomicAtHome row id => Sys2Proof.Machine.execAtomicAtHome row id s
  | .movedResend row id => Sys2Proof.Machine.execMovedResend row id s
  | .pageWalk core asid va => Sys2Proof.Machine.execPageWalk core asid va s
  | .invalidate core asid => Sys2Proof.Machine.execInvalidate core asid s
  | .ownershipRequest row => Sys2Proof.Machine.execOwnershipRequest row s
  | .queueDeadlock row u => Sys2Proof.Machine.execQueueDeadlock row u s
  | .waitcCompletion row => Sys2Proof.Machine.execWaitcCompletion row s
  | .freezeApplication row => Sys2Proof.Machine.execFreezeApplication row s
  | .collect holder leaf => Sys2Proof.Machine.execCollect holder leaf s
  | .collectAck leaf => Sys2Proof.Machine.execCollectAck leaf s
  | .bindOp row => Sys2Proof.Machine.execBindOp row s
  | .preemptOp row => Sys2Proof.Machine.execPreemptOp row s
  | .switchOp row => Sys2Proof.Machine.execSwitchOp row s
  | .contextSave row => Sys2Proof.Machine.execContextSave row s
  | .bankSwitch core => Sys2Proof.Machine.execBankSwitch core s
  | .answerRetry row => Sys2Proof.Machine.execAnswerRetry row s
  | .answerSkip row => Sys2Proof.Machine.execAnswerSkip row s
  | .terminate row => Sys2Proof.Machine.execTerminate row s
  | .engineFaultReport row => Sys2Proof.Machine.execEngineFaultReport row s
  | .retirement row => Sys2Proof.Machine.execRetirement row s
  | .timedCommandStart row e => Sys2Proof.Machine.execTimedCommandStart row e s
  | .timedPutArrival row e id a => Sys2Proof.Machine.execTimedPutArrival row e id a s
  | .mlw h wstr ncM1 p8 => Sys2Proof.Machine.execMlw h wstr ncM1 p8 s
  | .mswap h => Sys2Proof.Machine.execMswap h s
  | .mms h x => Sys2Proof.Machine.execMms h x s
  | .mmsa h x => Sys2Proof.Machine.execMmsa h x s
  | .mzt h tile => Sys2Proof.Machine.execMzt h tile s
  | .mmode h rm f8sat isat => Sys2Proof.Machine.execMmode h rm f8sat isat s
  | .mtcfg h tile cfg => Sys2Proof.Machine.execMtcfg h tile cfg s
  | .mstore h tile conv addr stride => Sys2Proof.Machine.execMstore h tile conv addr stride s
  | .mloadt h tile addr stride => Sys2Proof.Machine.execMloadt h tile addr stride s
  | .resolveEntry n keep => Sys2Proof.Machine.execResolveEntry n keep s
  | .cpy h x => Sys2Proof.Machine.execCpy h x s
  | .cpyc h x => Sys2Proof.Machine.execCpyc h x s
  | .fill h x => Sys2Proof.Machine.execFill h x s
  | .cpyf h x => Sys2Proof.Machine.execCpyf h x s
  | .followOnEntry row => Sys2Proof.Machine.execFollowOnEntry row s
  | .writePhase row => Sys2Proof.Machine.execWritePhase row s
  | .kvxl h layout mode seq slot layer => Sys2Proof.Machine.execKvxl h layout mode seq slot layer s
  | .kvapp h layout x => Sys2Proof.Machine.execKvapp h layout x s
  | .kvatt h layout x => Sys2Proof.Machine.execKvatt h layout x s
  | .kvmask h parents nM1 out => Sys2Proof.Machine.execKvmask h parents nM1 out s
  | .kvckpt h layout seq => Sys2Proof.Machine.execKvckpt h layout seq s
  | .kvcmt h layout x => Sys2Proof.Machine.execKvcmt h layout x s
  | .kvsq h layout all seq nmask => Sys2Proof.Machine.execKvsq h layout all seq nmask s
  | .kvscore h layout seq first nM1 src => Sys2Proof.Machine.execKvscore h layout seq first nM1 src s
  | .kvtopk h layout seq lo hi k out => Sys2Proof.Machine.execKvtopk h layout seq lo hi k out s
  | .kvcompact h layout seq n list => Sys2Proof.Machine.execKvcompact h layout seq n list s
  | .xsend h src die chan lenM1 => Sys2Proof.Machine.execXsend h src die chan lenM1 s
  | .xgrant h sdie chan slots => Sys2Proof.Machine.execXgrant h sdie chan slots s
  | .xgrantRevoke h sdie chan slots => Sys2Proof.Machine.execXgrantRevoke h sdie chan slots s
  | .xrecv h dst sdie chan addf32 => Sys2Proof.Machine.execXrecv h dst sdie chan addf32 s
  | .permit rdie sdie chan asid slot => Sys2Proof.Machine.execPermit rdie sdie chan asid slot s
  | .withdraw rdie sdie chan asid slot => Sys2Proof.Machine.execWithdraw rdie sdie chan asid slot s
  | .permitTimeout row => Sys2Proof.Machine.execPermitTimeout row s
  | .spseed h keyix key => Sys2Proof.Machine.execSpseed h keyix key s
  | .spsoft h x => Sys2Proof.Machine.execSpsoft h x s
  | .spdraw h src vM1 keyix counter => Sys2Proof.Machine.execSpdraw h src vM1 keyix counter s
  | .spacc h x => Sys2Proof.Machine.execSpacc h x s
  | .wreg h wid base len => Sys2Proof.Machine.execWreg h wid base len s
  | .wput h src wid off lenM1 => Sys2Proof.Machine.execWput h src wid off lenM1 s
  | .wcnt h wait wid sndEnd target => Sys2Proof.Machine.execWcnt h wait wid sndEnd target s
  | .migration asid va newPa cmp => Sys2Proof.Machine.execMigration asid va newPa cmp s
  | .accessTableWrite t xi w => Sys2Proof.Machine.execAccessTableWrite t xi w s
  | .doorbell q tail => Sys2Proof.Machine.execDoorbell q tail s
  | .lnqcfgWrite q w => Sys2Proof.Machine.execLnqcfgWrite q w s
  | .kimgpolWrite w => Sys2Proof.Machine.execKimgpolWrite w s
  | .dmcfgWrite die w => Sys2Proof.Machine.execDmcfgWrite die w s
  | .xgcfgWrite die w => Sys2Proof.Machine.execXgcfgWrite die w s
  | .registerWrite master pa w data => Sys2Proof.Machine.execRegisterWrite master pa w data s
  | .bar2Read off n => Sys2Proof.Machine.execBar2Read off n s
  | .bar2Write off bytes => Sys2Proof.Machine.execBar2Write off bytes s
  | .aper seq w1 w2 => Sys2Proof.Machine.execAper seq w1 w2 s
  | .hrgn seq w1 w2 w3 => Sys2Proof.Machine.execHrgn seq w1 w2 w3 s
  | .power seq w1 => Sys2Proof.Machine.execPower seq w1 s
  | .clockHoldEnd => Sys2Proof.Machine.execClockHoldEnd s
  | .sleep seq => Sys2Proof.Machine.execSleep seq s
  | .wake => Sys2Proof.Machine.execWake s
  | .keyload seq w1 w2 => Sys2Proof.Machine.execKeyload seq w1 w2 s
  | .keyclear seq w1 => Sys2Proof.Machine.execKeyclear seq w1 s
  | .attest seq w1 w2 => Sys2Proof.Machine.execAttest seq w1 w2 s
  | .seal seq w1 w2 w3 w4 => Sys2Proof.Machine.execSeal seq w1 w2 w3 w4 s
  | .unseal seq w1 w2 w3 w4 => Sys2Proof.Machine.execUnseal seq w1 w2 w3 w4 s
  | .ptmExchange hostDt => Sys2Proof.Machine.execPtmExchange hostDt s
  | .dtCorrection => Sys2Proof.Machine.execDtCorrection s
  | .pairLinkLoss => Sys2Proof.Machine.execPairLinkLoss s
  | .coldStart => Sys2Proof.Machine.execColdStart s
  | .pairLinkTrained => Sys2Proof.Machine.execPairLinkTrained s
  | .asidRetirement asid => Sys2Proof.Machine.execAsidRetirement asid s
  | .splitShareBound => Sys2Proof.Machine.execSplitShareBound s
  | .schedulingPass => Sys2Proof.Machine.execSchedulingPass s
  | .dependenceCheck => Sys2Proof.Machine.execDependenceCheck s
  | .splitGangTick tick => Sys2Proof.Machine.execSplitGangTick tick s
  | .splitGangStart => Sys2Proof.Machine.execSplitGangStart s
  | .realignRequest => Sys2Proof.Machine.execRealignRequest s
  | .squash asid seq tags => Sys2Proof.Machine.execSquash asid seq tags s
  | .frameMove asid entry frame size => Sys2Proof.Machine.execFrameMove asid entry frame size s
  | .gangRequired group => Sys2Proof.Machine.execGangRequired group s
  | .putCounted row id wid => Sys2Proof.Machine.execPutCounted row id wid s
  | .windowReset wid => Sys2Proof.Machine.execWindowReset wid s
  | .putArrival wid off bytes => Sys2Proof.Machine.execPutArrival wid off bytes s
  | .pairFreezeEntry asid base len group => Sys2Proof.Machine.execPairFreezeEntry asid base len group s

end Sys2Proof.Machine
end

