-- ==== Sys2Proof/Machine/Plan.lean ====
section
/-! DEFINITION. What the step runs next: the instruction or command of an act, and the acts of a core cycle (log entry 8). -/

namespace Sys2Proof.Machine

/-- What an act of issuing or starting finds. -/
inductive Due where
  | nothing
  | illegal
  | run (i : Instr)
  deriving DecidableEq, Repr

/-! ### Who may issue (R50, R51, R143, R430, R437) -/

/-- Whether a bank is the one from which its core issues (R50, R53). -/
def hasCore (s : State) (row : Nat) : Bool :=
  let c := s.coreAt (coreOf row)
  decide (c.run = some (decide (row % 2 = 1))) && decide (c.switch = 0)

/-- Whether the A unit of a bank that is being saved finishes a wait of its own (R437). -/
def finishesWait (b : Bank) : Bool :=
  match b.aWait with
  | .invalidating _ | .stopping _ => true
  | .idle | .thawing _ _ | .acking | .resending _ => false

/-- Whether the S unit of a bank that is being saved finishes a REALIGN (R437). -/
def finishesRealign (b : Bank) : Bool :=
  match b.sWait with
  | .realigning _ => true
  | .idle | .released | .arrived _ | .freezing _ _ | .acking | .frozen | .counting _ _ | .halting _ => false

/-- Whether a unit of a bank may issue now: the running bank's units; a halting task's S unit; under a fault the units that have not stopped,
of the bank that last issued on the core, until the core issues from the other bank (R50, R430); a wait that a save completes. -/
def unitMayIssue (s : State) (row : Nat) (u : UnitId) : Bool :=
  let b := s.bank row
  match (s.row row).state with
  | .running => hasCore s row
  | .halting => b.fault.isNone && u == .S
  | .waiting | .faulted => b.fault.isSome && b.dying.isNone && decide ((s.coreAt (coreOf row)).run = none) &&
      decide ((s.coreAt (coreOf row)).last = some (decide (row % 2 = 1)))
  | .saving => (u == .A && finishesWait b) || (u == .S && finishesRealign b)
  | .free | .bound => false

/-- The instruction at the head of a unit of a row, decoded as it issues (R73, R94). -/
def issueOf (s : State) (row : Nat) (u : UnitId) : Due :=
  let b := s.bank row
  match b.queue u with
  | [] => .nothing
  | e :: _ =>
    if b.stopped u || !unitMayIssue s row u then .nothing
    else match decodeUnit e.tag.toNat e.word.toNat with
      | none => .illegal
      | some i => .run i

/-! ### What an engine does next (R119, R262, R271, R436) -/

/-- Whether a bank's entry may start or go on: all of them while the task lives, only those that have started while it is saved or
terminated. -/
def entryMayRun (s : State) (row : Nat) (e : Eng) (x : EngEntry) : Bool :=
  match (s.row row).state with
  | .free => false
  | .saving => x.drains (s.bank row) e
  | .bound | .running | .waiting | .faulted | .halting => (s.bank row).dying.isNone || x.drains (s.bank row) e

/-- The command that an engine runs for an entry of a row's queue; a copy between its phases has events of its own (R281, R283). -/
def engineOf (s : State) (row : Nat) (e : Eng) (id : Nat) : Due :=
  match ((s.bank row).engQ e).find? fun x => decide (x.id = id) with
  | none => .nothing
  | some x =>
    if !entryMayRun s row e x then .nothing
    else match x.state with
      | .staged => .run (.writePhase row)
      | .following => .run (.followOnEntry row)
      | .flying .. => .nothing
      | .waiting | .held | .running .. | .ending .. | .putting | .permitWait _ =>
        match x.instr e with
        | none => .nothing
        | some i => .run i

/-- Whether an entry that has begun goes on in this cycle; a timed one is due to start in it. -/
def goesOn (s : State) (row : Nat) (e : Eng) (x : EngEntry) : Bool :=
  entryMayRun s row e x && match x.state with
    | .running due _ => decide (due ≤ s.cycle)
    | .held | .ending .. | .putting | .permitWait _ | .following => true
    | .staged | .flying .. => false
    | .waiting => x.started || (x.timedUnstarted && decide ((s.bank row).tcc.toNat = x.startAt))

/-- The unstarted entries of a bank that stand first in their order at an engine: XG keeps three streams (R247, R271, R382). -/
def firstEntries (b : Bank) (e : Eng) : List EngEntry :=
  match e with
  | .xg => [1, 2, 3].filterMap (streamHead b)
  | .mx => (mxNext b).toList
  | .cp | .kv | .sp | .wn => (b.engQ e).head?.toList

/-- The entry of a bank that an engine could take now: XG gives its streams turns (R119, R262, R271, R272). -/
def takeable (s : State) (row : Nat) (e : Eng) : Option EngEntry :=
  let b := s.bank row
  let l := (firstEntries b e).filter fun x => decide (x.state = .waiting) && !x.timedUnstarted && !x.started && !b.engBlocked e x.opc &&
    !b.fifoWaits e x && entryMayRun s row e x && (e != .mx || mxReady s row x)
  l[s.cycle % l.length]?

/-- The number of an engine among those of its kind: MX, CP and KV stand in a core, XG on a die, SP and WN serve the package (R271). -/
def engineInst (e : Eng) (row : Nat) : Nat :=
  match e with
  | .mx | .cp | .kv => coreOf row
  | .xg => dieOf row
  | .sp | .wn => 0

/-- An engine's key among all engines. -/
def engineKey (e : Eng) (row : Nat) : Nat := 64 * e.num + engineInst e row

/-- The bank that an engine takes an entry from: the first after that of its latest start, in turn (R247, R271, R353, R382, R408). -/
def turnOf (next : Nat) (rows : List Nat) : Option Nat := (rows.find? fun row => decide (next ≤ row)) <|> rows.head?

/-- The starts of a cycle, one at each engine: the engine, the bank and the entry. -/
def engineStarts (s : State) (rows : List Nat) : List (Eng × Nat × Nat) :=
  allEngs.flatMap fun e =>
    let l := (rows.filter fun row => decide ((s.bank row).engQ e ≠ [])).filterMap fun row => (takeable s row e).map fun x => (row, x.id)
    ((l.map fun p => engineInst e p.1).eraseDups).filterMap fun i =>
      let mine := l.filter fun p => decide (engineInst e p.1 = i)
      (turnOf (s.rrBank.get 0 (64 * e.num + i)) (mine.map Prod.fst)).bind fun row =>
        (mine.find? fun p => decide (p.1 = row)).map fun p => (e, row, p.2)

/-- The turns after the starts of a cycle. -/
def afterTurns (m : Store Nat) (l : List (Eng × Nat × Nat)) : Store Nat :=
  l.foldl (fun m p => m.set 0 (engineKey p.1 p.2.1) (p.2.1 + 1)) m

/-! ### The firmware's answers (R433) -/

/-- The answer to a row that awaits one: retry, or termination (R433). -/
def answerActs (s : State) (row : Nat) : List Act :=
  if !awaitsAnswer s row then []
  else match (s.bank row).fault with
    | none => []
    | some f =>
      if (allUnits.any fun u => !(s.bank row).stopped u && decide ((s.bank row).queue u ≠ [])) && decide ((s.coreAt (coreOf row)).run = none)
      then []
      else [.event (if willRetry s (s.row row).asid (s.bank row) f then .answerRetry row else .terminate row)]
where
  /-- The three units, in the order in which faults of one cycle are recorded (R429). -/
  allUnits : List UnitId := [.S, .A, .V]

/-! ### The acts of a cycle -/

/-- The units of a bank that issue, S before A before V (R429). -/
def issueActs (s : State) (row : Nat) : List Act :=
  (answerActs.allUnits.filter fun u => decide ((s.bank row).queue u ≠ []) && !(s.bank row).stopped u && unitMayIssue s row u).map fun u =>
    .issue row u

/-- Whether the destination queue of the instruction at a unit's head is full (R106). -/
def headFull (b : Bank) (u : UnitId) : Bool :=
  let e := b.headEntry u
  match (decodeUnit e.tag.toNat e.word.toNat).bind fun i => producesInto i e.word with
  | none => false
  | some (.word q) => decide (wordDepth ≤ (b.wordQ q).length)
  | some (.lq n) => decide (vecDepth ≤ (b.loadQ n).length)
  | some (.sq n) => decide (vecDepth ≤ (b.storeQ n).length)

/-- The units whose destination queue is full try again when the others have issued (R106). -/
def againActs (s : State) (row : Nat) : List Act :=
  (issueActs s row).filterMap fun
    | .issue row u => if headFull (s.bank row) u then some (.again row u ((s.bank row).headEntry u).seq) else none
    | _ => none

/-- The arrival of a timed put that is due (R118). -/
def arrivalOf (s : State) (row : Nat) (e : Eng) (x : EngEntry) : Option Act :=
  match x.state with
  | .flying _ due _ die => if due ≤ s.cycle then some (.event (.timedPutArrival row e x.id (s.dcc.get 0 die))) else none
  | .waiting | .held | .running .. | .ending .. | .staged | .following | .putting | .permitWait _ => none

/-- The engine acts of a bank: timed starts first, then the arrivals of its puts, then its entries that go on (R118, R119). -/
def engineActs (s : State) (row : Nat) : List Act :=
  let b := s.bank row
  (allEngs.filter fun e => decide (b.engQ e ≠ [])).flatMap fun e =>
    (if dueEntries b e = [] then [] else [.event (.timedCommandStart row e)]) ++ (b.engQ e).filterMap (arrivalOf s row e) ++
      ((b.engQ e).filter (goesOn s row e)).map fun x => .engine row e x.id

/-- The write phases of a bank's tagged copies, which come after every squash that leaves in the cycle (R283). -/
def stagedActs (s : State) (row : Nat) : List Act :=
  ((s.bank row).cp.filter fun x => x.state == .staged).map fun x => .engine row .cp x.id

/-- The stream acts of a bank; a save completes only what an SSTOP waits for (R238, R437). -/
def streamActs (s : State) (row : Nat) : List Act :=
  let b := s.bank row
  if (s.row row).state == .saving && !finishesWait b then []
  else (b.streams.filter fun p => p.2.active && !p.2.held).filterMap fun p =>
    let t := p.2.target.toNat
    if t < 8 then (if (b.loadQ (.ofNat 3 t)).length < vecDepth ∨ p.2.part.isSome then some (.event (.streamFetch row (.ofNat 4 p.1))) else none)
    else if t < 16 then some (.event (.streamStore row (.ofNat 4 p.1)))
    else none

/-- Whether a row's request for ownership can be taken: it has not been refused, and it asks for no moving or collected page (R322, R334). -/
def requestDue (s : State) (row : Nat) : Bool :=
  match (s.bank row).own with
  | none => false
  | some r => r.refused.isNone && !(r.subpages.any fun p => !ownedBy s row p && homeBusy s p)

/-- The home die of a row's request, and its moment of arrival. -/
def requestHome (s : State) (row : Nat) : Nat := ((s.bank row).own.map fun r => r.subpages.headD 0 / 2 ^ 36).getD 0

/-- The requests for ownership that the directories take in a cycle: each one, in order of arrival, and by core and bank among those that
arrived together (R304). -/
def ownershipActs (s : State) (rows : List Nat) : List Act :=
  let at_ (row : Nat) : Nat := ((s.bank row).own.map OwnReq.at_).getD 0
  let due := (rows.filter (requestDue s)).mergeSort fun a b => at_ a < at_ b || (at_ a == at_ b && decide (a ≤ b))
  (due.foldl (fun l row => if l.any fun k => decide (requestHome s k = requestHome s row) then l else l ++ [row]) []).map fun row =>
    .event (.ownershipRequest row)

/-- The memory acts of a bank: walks, atomics, arriving loads, invalidations. -/
def memoryActs (s : State) (row : Nat) : List Act :=
  let b := s.bank row
  let asid := (s.row row).asid
  (match b.walk with
    | none => []
    | some va => [.event (.pageWalk (coreOf row) asid va)]) ++
    (match b.atomics with
      | [] => []
      | a :: _ => [.event (if a.moved then .movedResend row a.id else .atomicAtHome row a.id)]) ++
    (match b.aWait with
      | .invalidating l => l.map fun c => .event (.invalidate c asid)
      | .idle | .thawing _ _ | .acking | .resending _ | .stopping _ => []) ++
    b.loads.map fun p => .event (.loadDataArrival row p.id)

/-- The waits of a bank's instructions that may end: freezes, WAITC, deadlocks. -/
def unitWaitActs (s : State) (row : Nat) : List Act :=
  let b := s.bank row
  (match b.sWait with
    | .freezing _ _ | .acking => [.event (.freezeApplication row)]
    | .counting _ _ => [.event (.waitcCompletion row)]
    | .idle | .released | .arrived _ | .frozen | .halting _ | .realigning _ => []) ++
    (answerActs.allUnits.filter fun u => decide (deadlockLimit ≤ b.stall u)).map fun u => .event (.queueDeadlock row u)

/-- An engine's kept fault, a save, a retirement, an answer. -/
def waitActs (s : State) (row : Nat) : List Act :=
  let b := s.bank row
  (if b.fault.isNone && decide (b.faults ≠ []) && (s.row row).state != .bound then [.event (.engineFaultReport row)] else []) ++
    (if (s.row row).state == .saving then [.event (.contextSave row)] else []) ++
    (if b.dying.isSome || haltDone b then [.event (.retirement row)] else []) ++ answerActs s row

/-- Permit waits that have lasted their bound (R390). -/
def timeoutActs (s : State) (row : Nat) : List Act :=
  match (streamHead (s.bank row) 1).map EngEntry.state with
  | some (.permitWait since) => if since + permitLimit ≤ s.cycle then [.event (.permitTimeout row)] else []
  | _ => []

/-- Results that land at the end of a cycle, those of instructions that issue in it among them (R98, R104). -/
def landingActs (s : State) (row : Nat) : List Act :=
  let b := s.bank row
  if b.flightQ ≠ [] ∨ b.sQueue ≠ [] ∨ b.aQueue ≠ [] ∨ b.vQueue ≠ [] then [.event (.resultLanding row)] else []

/-- Whether a bank of a core still has a unit that a fault has not stopped (R430). -/
def faultDraining (s : State) (core : Nat) : Bool :=
  [2 * core, 2 * core + 1].any fun row =>
    (((s.row row).state == .waiting) || ((s.row row).state == .faulted)) && decide (issueActs s row ≠ [])

/-- Idle cores that select a bank. DEDUCED (log entry 50): after a fault, the other units of the faulting bank first run dry (R53, R430). -/
def idleCores (s : State) : List Nat :=
  (List.range 36).filter fun c => decide ((s.coreAt c).run = none) && (nextBank s c).isSome && !faultDraining s c

/-- Idle cores select a bank (R53). -/
def switchActs (s : State) : List Act := (idleCores s).map fun c => .event (.bankSwitch c)

/-- The collections under way: each holder is told and acknowledges (R322). -/
def collectActs (s : State) : List Act :=
  s.collects.flatMap fun c =>
    (c.holders.map fun h => .event (.collect h c.leaf)) ++ List.replicate c.outstanding (.event (.collectAck c.leaf))

/-- The rows whose tasks hold a bank. -/
def liveRows (s : State) : List Nat := (List.range 72).filter fun row => decide ((s.row row).state ≠ .free)

/-- The scheduling pass is due: 10 µs have passed, or a fault has reached the firmware (R42, R60). -/
def passDue (s : State) (rows : List Nat) : Bool :=
  s.devstat.ready && (decide (s.passAt ≤ s.dt.toNat) || rows.any fun row => answerActs s row ≠ [])

/-- The acts of a core cycle. A split gang's tick, then the banks that idle cores select, come first, so that a line is fetched in the cycle in
which its bank is selected without a switch (R45, R53). Faults of one cycle are recorded in the order line fetch, S, A, V, engines (R429),
and tasks ask for ownership before engine commands (R304). Results land after that, and the firmware's pass comes last, so that a task's
own event precedes an OP (R59). -/
def plan (s : State) : List Act :=
  if s.hold then [.event .clockHoldEnd]
  else
    let rows := liveRows s
    let timed := rows.any (startsNow s)
    let s1 := if timed then splitGangStart s else s
    let switches := switchActs s1
    let s2 := (idleCores s1).foldl bankSwitch s1
    (if timed then [.event .splitGangStart] else []) ++
      (if s.realigns = [] then [] else [.event .realignRequest]) ++
      switches ++
      ((rows.filter (mayDispatch s2)).map fun row => .event (.lineDispatch row)) ++
      rows.flatMap (issueActs s) ++ rows.flatMap (againActs s) ++ ownershipActs s rows ++ rows.flatMap (memoryActs s) ++ rows.flatMap (unitWaitActs s) ++
      rows.flatMap (engineActs s) ++ ((engineStarts s rows).map fun p => .engine p.2.1 p.1 p.2.2) ++ rows.flatMap (stagedActs s) ++ rows.flatMap (timeoutActs s) ++ rows.flatMap (streamActs s) ++
      collectActs s ++ rows.flatMap (waitActs s) ++ rows.flatMap (landingActs s) ++
      (if passDue s rows then [.event .schedulingPass, .event .dtCorrection] else [])

/-! ### The next core cycle -/

/-- Whether DT is slewed by one nanosecond in a cycle that counts `n`: after every 20,000, which are 50 ppm (R457). -/
def slewStep (s : State) (n : Nat) : Int := if 1 ≤ n ∧ 20000 ≤ s.slewAcc + n then s.slew.sign else 0

/-- DT after one more core cycle of 10 / `clk` nanoseconds; a die's copy that is ahead of it is slowed (R115, R457, R464). -/
def advanceDt (s : State) : State :=
  let n := (s.dtAcc + 10) / s.clk
  let d := slewStep s n
  { s with
    dt := s.dt + .ofNat 64 (n + d).toNat
    dtAcc := (s.dtAcc + 10) % s.clk
    slew := s.slew - d
    slewAcc := if 1 ≤ n ∧ 20000 ≤ s.slewAcc + n then s.slewAcc + n - 20000 else s.slewAcc + n
    dtDie := (List.range 9).foldl (fun m k =>
      m.set 0 k (m.get 0 k + .ofNat 64 (if s.dt.toNat < (m.get 0 k).toNat then n - 1 else n))) s.dtDie }

/-- The DCCs after one more cycle; those that a REALIGN sets in it take its count (R114, R117). -/
def advanceDcc (s : State) : State :=
  let up := (List.range 9).foldl (fun m k => m.set 0 k (m.get 0 k + 1)) s.dcc
  let now := s.dccSets.filter fun d => decide (d.at_ ≤ s.cycle)
  { s with
    dcc := now.foldl (fun m d => (List.range 9).foldl (fun m k => if d.dies.getLsbD k then m.set 0 k d.count else m) m) up
    dccSets := s.dccSets.filter fun d => !decide (d.at_ ≤ s.cycle) }

/-- Whether a task's TCC advances: it issues and its entry line has been fetched, or it is halting (R113). -/
def tccRuns (s : State) (row : Nat) : Bool :=
  match (s.row row).state with
  | .running => hasCore s row && !(s.bank row).fetch.entry
  | .halting => (s.bank row).fault.isNone
  | .free | .bound | .waiting | .faulted | .saving => false

/-- The TCCs after one more cycle (R113). -/
def advanceTcc (s : State) : State :=
  (liveRows s).foldl (fun s row => if tccRuns s row then s.modBank row fun b => { b with tcc := b.tcc + 1 } else s) s

/-- A switch under way has one cycle less to go (R53). -/
def advanceSwitches (s : State) : State :=
  { s with core := s.core.mapVal Core.reset fun c => { c with switch := c.switch - 1 } }

/-- What the control die does besides in a cycle: the mailbox, migrations, freezes of the other package, gangs that are incomplete. -/
def controlDie (s : State) : State :=
  let s := if s.devstat.mboxbusy && s.devstat.ready then serveMailbox s else s
  let s := s.moving.foldl (fun s m => migration s m.asid m.va m.dest m.cmp) s
  let s := s.freeing.foldl endFree (pairFreezeStep (s.frameMoves.foldl endMove s))
  ((List.range 256).filter (gangMissing s)).foldl gangRequired s

/-- THE NEXT CORE CYCLE: the counters advance, the acts of the cycle are listed and the engines' turns pass on; during a hold of the clocks only DT runs (R464). -/
def tick (s : State) : State :=
  let s := advanceDt s
  if s.hold then { s with agenda := plan s }
  else
    let s := advanceTcc s
    let s := controlDie (advanceSwitches (advanceDcc { s with cycle := s.cycle + 1 }))
    { s with agenda := s.agenda ++ plan s, rrBank := afterTurns s.rrBank (engineStarts s (liveRows s)) }

end Sys2Proof.Machine
end

