-- ==== Sys2Proof/Machine/Step.lean ====
section
/-! DEFINITION. One step of the package: the next act of the agenda, or the next core cycle when the agenda is empty. -/

namespace Sys2Proof.Machine

/-- Runs an act for a row (log entry 8). -/
def runAct (s : State) (a : Act) : Host.Outcome State Fault Refusal :=
  match a with
  | .event i => if i.wf then exec i s else .refused .illFormed
  | .hostLoad off n => .next (bar0Read s off n)
  | .pairThaw asid base len => .next (pairThaw s asid base len)
  | .pairDt t => .next (pairDt s t)
  | .pairPower w => .next (setPower s w)
  | .freeFrame pa => .next (freeFrame s pa)
  | .issue row u =>
    if 72 ≤ row then .fault (.noSuchBank row)
    else match issueOf s row u with
      | .nothing => .next s
      | .illegal => .next (unitFault { s with cur := row } u (faultOf 0x02 0))
      | .run i => exec i { s with cur := row }
  | .again row u seq =>
    if 72 ≤ row then .fault (.noSuchBank row)
    else if ((s.bank row).headEntry u).seq ≠ seq ∨ headFull (s.bank row) u then .next s
    else match issueOf s row u with
      | .nothing | .illegal => .next s
      | .run i => exec i { s with cur := row }
  | .engine row e id =>
    if 72 ≤ row then .fault (.noSuchBank row)
    else match engineOf s row e id with
      | .nothing | .illegal => .next s
      | .run i => exec i { s with cur := row }

/-- One step. -/
def step (s : State) : Host.Outcome State Fault Refusal :=
  match s.agenda with
  | [] => .next (tick s)
  | a :: rest => runAct { s with agenda := rest } a

/-- The declared counts of a task that may name every register, stream, tile, group and layout (log entry 8). -/
def Decl.all : Decl := ⟨64, 16, 32, 256, 64, 64, 16, 0, 4194304, 4, 8⟩

/-- A bank whose unit `u` holds one instruction. -/
def Bank.holding (b : Bank) (u : UnitId) (tag w : Nat) : Bank :=
  { b.setQueue u [⟨.ofNat 4 tag, .ofNat 64 w, 0, 1, 0, 0⟩] with decl := Decl.all, fault := none, stopS := false, stopA := false, stopV := false }

/-- The state with an instruction word placed where the next step issues it: the row of `cur` runs a task that declares every
resource, and the word, with the tag of its reading, is the first of its unit's queue and the next act of the agenda (log
entries 8 and 12). -/
def State.withFetchWord (s : State) (nbits w : Nat) : State :=
  match decodeBare nbits w with
  | none => s
  | some (tag, _) =>
    match unitOfTag tag with
    | none => s
    | some u =>
      let s := s.modBank s.cur fun b => b.holding u tag w
      let s := s.modRow s.cur fun r => { r with state := .running }
      let s := s.setCore (coreOf s.cur) ⟨some (decide (s.cur % 2 = 1)), some (decide (s.cur % 2 = 1)), 0⟩
      { s with agenda := .issue s.cur u :: s.agenda }

end Sys2Proof.Machine
end

