-- ==== Sys2Proof/Safety/Issue.lean ====
section
/-! DEFINITION. The terms in which statements about one issue are made: when a unit can issue, and how little an issue changes. -/

namespace Sys2Proof

open Machine

/-- The two states differ at most in the bank of the present act, which is `b` afterwards: every other bank, the timetable,
memory, the caches and every register of the device are as before. -/
def OnlyBank (s t : State) (b : Bank) : Prop :=
  t = { s with banks := t.banks } ∧ ∀ r, t.bank r = if r = s.cur then b else s.bank r

/-- An instruction answers a next state that differs in the present bank only, which is `b` afterwards. -/
def IssuesTo (i : Instr) (s : State) (b : Bank) : Prop := ∃ t, exec i s = .next t ∧ OnlyBank s t b

/-- A unit of the present bank is free to issue an instruction that sends a result: the task's HALT has not issued (R74), and a
landing-buffer entry is free, which only S can lack (R101). -/
def CanIssue (s : State) (u : UnitId) : Prop := s.here.halting = false ∧ (u = .S → s.here.inFlight u < 16)

/-- The bank after a unit has issued the instruction at its head and nothing else has happened: what a NOP there leaves. The
results that were due have landed. -/
def Passed (s : State) (u : UnitId) : Bank := s.here.issued u

/-- The bank with results of a unit that land after `n` further issues of that unit (R98). -/
def WithFlight (b : Bank) (u : UnitId) (n : Nat) (res : List Result) : Bank := b.setFlight u (b.flight u ++ [⟨n, res⟩])

end Sys2Proof
end

