-- ==== Sys2Proof/Safety/Scalar.lean ====
section
/-! DEFINITION. The results of the sequencer's register instructions as chapter 06 states them, written without the machine's own
operations. -/

namespace Sys2Proof

open Machine

/-- The widths of SEXT and ZEXT in bits (R126). -/
def widthBits : Width → Nat
  | .w1 => 8 | .w2 => 16 | .w4 => 32 | .w8 => 64

/-- The bits of a word, most significant first. -/
def bitsDown (x : W64) : List Bool := (List.range 64).map fun k => x.getLsbD (63 - k)
/-- The bits of a word, least significant first. -/
def bitsUp (x : W64) : List Bool := (List.range 64).map fun k => x.getLsbD k

/-- Destination, sources and result of the S instructions that write one scalar register at latency 1 from scalar registers and
immediates (R123, R125, R126, R127); `x` reads a register. -/
def scalarResult (x : BitVec 6 → W64) : Instr → Option (BitVec 6 × List (BitVec 6) × W64)
  | .add d a b => some (d, [a, b], .ofNat 64 ((x a).toNat + (x b).toNat))
  | .sub d a b => some (d, [a, b], .ofInt 64 ((x a).toNat - (x b).toNat))
  | .mul d a b => some (d, [a, b], .ofNat 64 ((x a).toNat * (x b).toNat))
  | .mulh d a b => some (d, [a, b], .ofNat 64 (((x a).signExtend 128 * (x b).signExtend 128).toNat / 2 ^ 64))
  | .mulhz d a b => some (d, [a, b], .ofNat 64 (((x a).setWidth 128 * (x b).setWidth 128).toNat / 2 ^ 64))
  | .and d a b => some (d, [a, b], x a &&& x b)
  | .or d a b => some (d, [a, b], x a ||| x b)
  | .xor d a b => some (d, [a, b], x a ^^^ x b)
  | .andn d a b => some (d, [a, b], x a &&& ~~~x b)
  | .shl d a b => some (d, [a, b], .ofNat 64 ((x a).toNat * 2 ^ ((x b).toNat % 64)))
  | .shr d a b => some (d, [a, b], .ofNat 64 ((x a).toNat / 2 ^ ((x b).toNat % 64)))
  | .sar d a b => some (d, [a, b], .ofInt 64 ((x a).toInt / 2 ^ ((x b).toNat % 64)))
  | .min d a b => some (d, [a, b], .ofInt 64 (min (x a).toInt (x b).toInt))
  | .max d a b => some (d, [a, b], .ofInt 64 (max (x a).toInt (x b).toInt))
  | .minz d a b => some (d, [a, b], .ofNat 64 (min (x a).toNat (x b).toNat))
  | .maxz d a b => some (d, [a, b], .ofNat 64 (max (x a).toNat (x b).toNat))
  | .clz d a => some (d, [a], .ofNat 64 ((bitsDown (x a)).takeWhile fun b => !b).length)
  | .ctz d a => some (d, [a], .ofNat 64 ((bitsUp (x a)).takeWhile fun b => !b).length)
  | .popc d a => some (d, [a], .ofNat 64 ((bitsUp (x a)).count true))
  | .sext d a w => some (d, [a], ((x a).setWidth (widthBits w)).signExtend 64)
  | .zext d a w => some (d, [a], ((x a).setWidth (widthBits w)).setWidth 64)
  | .mov d a => some (d, [a], x a)
  | .addi d a i => some (d, [a], .ofInt 64 ((x a).toNat + i.toInt))
  | .andi d a i => some (d, [a], x a &&& .ofInt 64 i.toInt)
  | .ori d a i => some (d, [a], x a ||| .ofInt 64 i.toInt)
  | .xori d a i => some (d, [a], x a ^^^ .ofInt 64 i.toInt)
  | .shli d a n => some (d, [a], .ofNat 64 ((x a).toNat * 2 ^ n.toNat))
  | .shri d a n => some (d, [a], .ofNat 64 ((x a).toNat / 2 ^ n.toNat))
  | .sari d a n => some (d, [a], .ofInt 64 ((x a).toInt / 2 ^ n.toNat))
  | .liw d i => some (d, [], .ofInt 64 i.toInt)
  | .lih d i => some (d, [], i ++ (x d).setWidth 32)
  | _ => none

/-- Destination, sources and result of the divides and remainders, with the corner cases of R124's table; `x` reads a register. -/
def divResult (x : BitVec 6 → W64) : Instr → Option (BitVec 6 × List (BitVec 6) × W64)
  | .div d a b => some (d, [a, b],
      if x b = 0 then 0xFFFFFFFFFFFFFFFF
      else if x a = 0x8000000000000000 ∧ x b = 0xFFFFFFFFFFFFFFFF then 0x8000000000000000
      else .ofInt 64 ((x a).toInt.tdiv (x b).toInt))
  | .divz d a b => some (d, [a, b], if x b = 0 then 0xFFFFFFFFFFFFFFFF else .ofNat 64 ((x a).toNat / (x b).toNat))
  | .rem d a b => some (d, [a, b],
      if x b = 0 then x a
      else if x a = 0x8000000000000000 ∧ x b = 0xFFFFFFFFFFFFFFFF then 0
      else .ofInt 64 ((x a).toInt.tmod (x b).toInt))
  | .remz d a b => some (d, [a, b], if x b = 0 then x a else .ofNat 64 ((x a).toNat % (x b).toNat))
  | _ => none

/-- Destination, scalar sources, condition sources and result of the S instructions that write a condition register (R128, R129);
`x` and `c` read registers. -/
def conditionResult (x : BitVec 6 → W64) (c : BitVec 4 → Bool) :
    Instr → Option (BitVec 4 × List (BitVec 6) × List (BitVec 4) × Bool)
  | .cmp p d a b => some (d, [a, b], [], holds p (x a) (x b))
  | .cmpi p d a i => some (d, [a], [], holds p (x a) (.ofInt 64 i.toInt))
  | .cand d a b => some (d, [], [a, b], decide (c a = true ∧ c b = true))
  | .cor d a b => some (d, [], [a, b], decide (c a = true ∨ c b = true))
  | .cnot d a => some (d, [], [a], decide (c a = false))
  | _ => none
where
  /-- The table of R128. -/
  holds (p : Pred) (a b : W64) : Bool :=
    match p with
    | .eq => decide (a = b)
    | .ne => decide (a ≠ b)
    | .lt => decide (a.toInt < b.toInt)
    | .ge => decide (b.toInt ≤ a.toInt)
    | .ltz => decide (a.toNat < b.toNat)
    | .gez => decide (b.toNat ≤ a.toNat)

/-- The value of a counter for the present bank (R113 to R115). -/
def counterRead (s : State) : Counter → W64
  | .tcc => s.here.tcc
  | .dcc => s.dcc.get 0 (s.cur / 8)
  | .dt => s.dtDie.get 0 (s.cur / 8)

/-- The value that SYSR reads, field by field from bit 63 down (R49, R150). -/
def systemRegister (s : State) : SysReg → W64
  | .caps =>
    let c := s.cur / 2
    let kind : BitVec 3 × BitVec 8 × BitVec 8 := if c < 4 then (4, 0x33, 8) else if c < 20 then (2, 0x3F, 8) else (1, 0x3B, 16)
    ((0 : BitVec 16) ++ BitVec.ofNat 8 c ++ BitVec.ofNat 4 (c / 4) ++ BitVec.ofBool s.pkg ++ kind.1 ++ (0 : BitVec 8) ++ kind.2.1 ++
      kind.2.2 ++ (0 : BitVec 7) ++ BitVec.ofNat 1 s.cur : BitVec 64)
  | .taskinfo => s.here.info
  | .trapvec => s.here.trapvec
  | .trapcause => s.here.trapcause
  | .trapret => s.here.trapret
  | .shadowst => ((0 : BitVec 60) ++ s.here.shadows : BitVec 64)
  | .rbase => ((0 : BitVec 57) ++ s.here.rb : BitVec 64)

end Sys2Proof
end

