-- ==== Sys2Proof/Safety/Control.lean ====
section
/-! DEFINITION. Terms for statements about the sequencer's control instructions. -/

namespace Sys2Proof

open Machine

/-- line(X): the address of the line that holds the instruction at the head of S (R130). -/
def lineX (s : State) : Int := (s.here.headEntry .S).line.toNat

/-- The address `n` lines on, modulo 2^48 (R130). -/
def linesOn (s : State) (n : Int) : W64 := .ofInt 64 ((lineX s + 32 * n) % 2 ^ 48)

/-- The present bank with another next line, which dispatch reaches three cycles later (R75). -/
def nextLine (s : State) (line : W64) : Bank := { s.here with fetch := ⟨line, s.here.fetch.entry, s.cycle + 3⟩ }

/-- A record of a cause and an address; the issuing unit and its line are added when it is taken (R432). -/
def causeAt (cause : Nat) (addr : W64) : FaultRec := faultOf cause addr.toNat

/-- The instruction takes a fault: the state is that of `takeFault` for the unit, precise at the instruction (R429). -/
def TrapsWith (i : Instr) (s : State) (u : UnitId) (f : FaultRec) : Prop := exec i s = .next (unitFault s u f)

/-- The S32 word of an opcode and its fields (R78). -/
def s32Word (op sd sa sb fn : Nat) : Nat := op * 2 ^ 25 + sd * 2 ^ 19 + sa * 2 ^ 13 + sb * 2 ^ 7 + fn

/-- The eight registers from `x` on (R135). -/
def eightFrom (x : BitVec 6) : List (BitVec 6) := [x, x + 1, x + 2, x + 3, x + 4, x + 5, x + 6, x + 7]

/-- Whether shadow set `n` is open (R137, R150). -/
def setOpen (b : Bank) (n : Nat) : Prop := b.shadows.getLsbD (n - 1) = true

end Sys2Proof
end

