-- ==== Sys2Proof/Safety/Access.lean ====
section
/-! DEFINITION. Terms for statements about the access unit: effective addresses, the checks of R225, the bytes of an access, what a
store leaves. -/

namespace Sys2Proof

open Machine

/-- No store stream is held by a fault, which the next access-unit instruction would raise first (R239). -/
def NoHeldStore (s : State) : Prop := heldStore s.here = none

/-- An instruction answers a next state that differs from `r` in the present bank only. -/
def IssuesFrom (i : Instr) (s r : State) (b : Bank) : Prop := ∃ t, exec i s = .next t ∧ OnlyBank r t b

/-- The package after the leaves of an access have entered the core's TLB (R331). -/
def Touched (s : State) (l : List Seg) : State := tlbTouch s s.cur l

/-- The head of a word queue is the word `w`, and `r` is behind it. -/
def wordHead (s : State) (q : WordQ) (w : W64) (r : List WordEntry) : Prop :=
  ∃ e, s.here.wordQ q = e :: r ∧ e.val = some w ∧ e.err = none

/-! ### Address arithmetic -/

/-- The address-arithmetic instructions of R226 but AGET: destination, sources, value. -/
def addressResult (b : Bank) : Instr → Option (BitVec 5 × List (BitVec 5) × W64)
  | .aadd d x y => some (d, [x, y], b.areg x + b.areg y)
  | .asub d x y => some (d, [x, y], b.areg x - b.areg y)
  | .amov d x => some (d, [x], b.areg x)
  | .aaddi d x i => some (d, [x], b.areg x + .ofInt 64 i.toInt)
  | .aaddiA64 d x i => some (d, [x], b.areg x + .ofInt 64 i.toInt)
  | .ashli d x n => some (d, [x], .ofNat 64 (b.areg x).toNat * .ofNat 64 (2 ^ n.toNat))
  | _ => none

/-! ### Accesses -/

/-- The effective address of LDV and STV (R227). -/
def vectorAt (s : State) (a : BitVec 5) (off : BitVec 13) : W64 := .ofInt 64 ((s.here.areg a).toNat + 512 * off.toInt)
/-- The effective address of LDS and STS (R228). -/
def scalarAt (s : State) (a : BitVec 5) (off : BitVec 13) : W64 := .ofInt 64 ((s.here.areg a).toNat + off.toInt)

/-- The operation, the address register and the width in bytes of an atomic (R229). -/
def atomicOf : Instr → Option (AtomicOp × BitVec 5 × Bool)
  | .amoadd a w8 => some (.add, a, w8)
  | .amoxchg a w8 => some (.xchg, a, w8)
  | .amocas a w8 => some (.cas, a, w8)
  | .amomin a w8 z => some (if z then .minZ else .minS, a, w8)
  | .amomax a w8 z => some (if z then .maxZ else .maxS, a, w8)
  | .amoand a w8 => some (.and, a, w8)
  | .amoor a w8 => some (.or, a, w8)
  | _ => none

/-- What an access-unit instruction touches: kind, address, bytes, alignment (R227 to R229, R237). -/
def accessOf (s : State) : Instr → Option (Access × Nat × Nat × Nat)
  | .ldv _ a _ off => some (.read, (vectorAt s a off).toNat, 512, 64)
  | .stv _ a _ off => some (.write, (vectorAt s a off).toNat, 512, 64)
  | .lds a w _ off => some (.read, (scalarAt s a off).toNat, w.bytes, w.bytes)
  | .sts a w off => some (.write, (scalarAt s a off).toNat, w.bytes, w.bytes)
  | .sdef _ a => some (.read, (s.here.areg a).toNat, 64, 64)
  | i => match atomicOf i with
    | some (_, a, w8) => some (.atomic, (s.here.areg a).toNat, if w8 then 8 else 4, if w8 then 8 else 4)
    | none => none

/-- What comes before the checks of R225: declared registers, room in the queue that is filled, words in the queue that is drained. -/
def accessReady (s : State) : Instr → Prop
  | .ldv u a q _ => s.here.hasA [u, a] = true ∧ (s.here.loadQ q).length < 8
  | .stv u a q _ => s.here.hasA [u, a] = true ∧ ∃ e r, s.here.storeQ q = e :: r ∧ e.val.isSome = true
  | .lds a _ _ _ => s.here.hasA [a] = true ∧ s.here.rq.length < 16
  | .sts a _ _ => s.here.hasA [a] = true ∧ ∃ x r, wordHead s .ssq x r
  | .sdef st a => s.here.hasA [a] = true ∧ st.toNat < s.here.decl.st ∧ (s.here.stream st.toNat).active = false
  | i => match atomicOf i with
    | some (op, a, _) => s.here.hasA [a] = true ∧ s.here.rq.length < 16 ∧
        if op = .cas then ∃ e f r x y, s.here.ssq = e :: f :: r ∧ e.val = some x ∧ e.err = none ∧ f.val = some y ∧ f.err = none
        else ∃ x r, wordHead s .ssq x r
    | none => False

/-- The spot of a byte: the task's scratch or a physical address. -/
def spot (l : Loc) (i : Nat) : Bool × Nat :=
  match l with
  | .scratch o => (true, o + i)
  | .phys pa _ => (false, pa + i)

/-- Where byte `j` of a translated access stands. -/
def spotOf : List Seg → Nat → Option (Bool × Nat)
  | [], _ => none
  | g :: r, j => if j < g.len then some (spot g.loc j) else spotOf r (j - g.len)

/-- What a row reads at a spot. -/
def readSpot (s : State) (row : Nat) (p : Bool × Nat) : Byte :=
  if p.1 then (s.bank row).scratch.get 0 p.2 else s.view row p.2

/-- Byte `j` of a number, least significant first (R6). -/
def byteOf (x j : Nat) : Byte := .ofNat 8 (x / 256 ^ j)

/-- A bank with the bytes of memory and scratch that its task has stored, and with what its queued commands remember of the bytes before
(R295, R310). -/
def OnlyStores (b c : Bank) : Prop :=
  c = { b with pend := c.pend, scratch := c.scratch, scratchBad := c.scratchBad, mx := c.mx, cp := c.cp, kv := c.kv, xg := c.xg, sp := c.sp, wn := c.wn } ∧
    ∀ e : Eng, (c.engQ e).map (fun x => { x with old := [] }) = (b.engQ e).map fun x => { x with old := [] }

/-- The bytes `put j`, where there are any, have been stored at the spots of an access, and no other byte has changed for the row. -/
def Stored (s t : State) (row : Nat) (l : List Seg) (n : Nat) (put : Nat → Option Byte) : Prop :=
  (∀ p, (∀ j < n, put j ≠ none → spotOf l j ≠ some p) → readSpot t row p = readSpot s row p) ∧
    ∀ j < n, ∀ p v, put j = some v → spotOf l j = some p → (∀ k < n, j < k → put k ≠ none → spotOf l k ≠ some p) →
      readSpot t row p = v

/-- The bytes that STV writes: a nibble whose enable is clear stays as it was (R227). -/
def nibbleMerge (s : State) (l : List Seg) (e : VEntry) (j : Nat) : Option Byte :=
  let x := byteOf (e.val.getD 0).toNat j
  let lo := e.en.getLsbD (2 * j)
  let hi := e.en.getLsbD (2 * j + 1)
  let old := ((spotOf l j).map (readSpot s s.cur)).getD 0
  if lo = false ∧ hi = false then none
  else some ((if hi then x.extractLsb' 4 4 else old.extractLsb' 4 4) ++ (if lo then x.extractLsb' 0 4 else old.extractLsb' 0 4))

/-- The results of R229's table on `w` bits. -/
def atomicNew (op : AtomicOp) (w : Nat) (old v cmp : BitVec w) : BitVec w :=
  match op with
  | .add => old + v
  | .xchg => v
  | .cas => if old = cmp then v else old
  | .minS => if old.sle v then old else v
  | .minZ => if old.ule v then old else v
  | .maxS => if old.sle v then v else old
  | .maxZ => if old.ule v then v else old
  | .and => old &&& v
  | .or => old ||| v

/-! ### Streams -/

/-- Word `k` of a descriptor (R233). -/
def descWord (d : BitVec 512) (k : Nat) : W64 := d.extractLsb' (64 * k) 64

/-- Stream `st` of a bank is `x`, and nothing else in the bank is touched. -/
def WithStream (b : Bank) (st : BitVec 4) (x : Stream) : Bank := b.setStream st.toNat x

/-- An entry of a walk takes `k` slots from index `p` on: it is complete with the last one and not before (R234). -/
def EntryOf (d : SDesc) (p k : Nat) : Prop :=
  0 < k ∧ k ≤ d.slots ∧ d.entryEnds (p + k - 1) k = true ∧ ∀ j, 0 < j → j < k → d.entryEnds (p + j - 1) j = false

/-- Slots `0` to `k - 1` of a value hold `code`, and the others are zero. -/
def holdsCodes (w : Nat) (v : VWord) (k : Nat) (code : Nat → Nat) : Prop :=
  ∀ j, w * (j + 1) ≤ 4096 → elemAt w v j = if j < k then code j % 2 ^ w else 0

/-! ### Freeze and thaw -/

/-- A range that rows 2 and 3 of R318 let through. -/
def rangeLegal (base len : Nat) : Prop :=
  base % 65536 = 0 ∧ len % 65536 = 0 ∧ base + len ≤ 2 ^ 48 ∧ ¬ (base < 0xFF0001800000 ∧ 0xFF0000000000 < base + len)

/-- A page that rows 4 and 5 of R318 let through for a row: mapped to LPDDR or SRAM whose access table grants the freeze right. -/
def pageFreezable (s : State) (row va : Nat) : Prop :=
  ∃ pte base size at_ t, walk s (s.row row).asid va = .leaf pte base size at_ ∧
    regionOf s (pteAddr pte + (va - base)) ∈ [Region.lpddr, .sram, .tier] ∧ targetOf s (pteAddr pte + (va - base)) = some t ∧
    hasRight s t .fz row (s.row row).asid = true

/-- The leaf whose entry stands at `at_` with another freeze count; where `coll` says so its bytes are brought home and a collection of its
extent begins at the 36 cores and the eight dies, a thawing one when the count has fallen to zero (R320 to R322). -/
def leafCounted (s : State) (pte size at_ count : Nat) (coll : Bool) : State :=
  let t := s.homeWriteBytes at_ (toBytes 8 (pte - pteFcnt pte * 2 ^ 54 + count * 2 ^ 54))
  if coll then
    { fetchHome t (pteAddr pte) size with collects := t.collects ++ [⟨pteAddr pte, size, List.range 44, 44, decide (count = 0)⟩] }
  else t

end Sys2Proof
end

