-- ==== Sys2Proof/Safety/Tasks.lean ====
section
/-! DEFINITION. Terms for statements about tasks: how little of the package an act of one row changes. -/

namespace Sys2Proof

open Machine

/-- A core after it has left a bank: idle when that bank was issuing, and otherwise as it was (R53). -/
def leftBy (k : Core) (row : Nat) : Core := if k.run = some (decide (row % 2 = 1)) then { k with run := none } else k

/-- The two states differ at most in a row's bank, which is `b` afterwards, in its timetable row, which is `x` afterwards, and in that
the row's core has left the bank: every other bank, row and core is as before. -/
def OnlyTask (s t : State) (row : Nat) (b : Bank) (x : Row) : Prop :=
  t = { s with banks := t.banks, tt := t.tt, core := t.core } ∧ (∀ r, t.bank r = if r = row then b else s.bank r) ∧
  (∀ r, t.row r = if r = row then x else s.row r) ∧
  ∀ c, t.coreAt c = if c = coreOf row then leftBy (s.coreAt c) row else s.coreAt c

/-- The same, of a row whose core does not leave its bank. -/
def OnlyRow (s t : State) (row : Nat) (b : Bank) (x : Row) : Prop :=
  t = { s with banks := t.banks, tt := t.tt } ∧ (∀ r, t.bank r = if r = row then b else s.bank r) ∧
  ∀ r, t.row r = if r = row then x else s.row r

/-- No entry of a bank's engine queues is left (R143, R435). -/
def noCommands (b : Bank) : Prop := ∀ e, b.engQ e = []

/-- The record that the device completes for a fault of a bank: TCC is the task's, and MORE says that an engine keeps another (R432). -/
def recordOf (b : Bank) (f : FaultRec) : FaultRec := { f with tcc := b.tcc, flags := if b.faults = [] then f.flags else f.flags ||| 8 }

/-- A bank without timed commands that have not started (R120). -/
def noTimedCommands (b : Bank) : Prop := ∀ e, ∀ x ∈ b.engQ e, x.timedUnstarted = false

/-- A row awaits the answer to the fault `f` (R433). -/
def Awaits (s : State) (row : Nat) (f : FaultRec) : Prop :=
  ((s.row row).state = .waiting ∨ (s.row row).state = .faulted) ∧ (s.bank row).fault = some f ∧ (s.bank row).dying = none

/-- A row that may issue again: bound, or halting when the fault took it there, from this cycle on (R52, R433). -/
def boundAgain (s : State) (x : Row) : Row := { x with state := if x.halted then .halting else .bound, halted := false, since := s.cycle }

/-- A bank whose units go on: dispatch from the next cycle on (R75). -/
def dispatchNext (s : State) (b : Bank) : Bank := { b with fetch := { b.fetch with ready := max b.fetch.ready (s.cycle + 1) } }

/-- The sequencer may dispatch the next line of a row: the task runs without a fault, its core issues from its bank and no switch or
clock change is under way, the line may be dispatched in this cycle, and no line ender and no holding instruction waits (R72, R75, R122). -/
def Dispatches (s : State) (row : Nat) : Prop :=
  (s.row row).state = .running ∧ (s.bank row).fault = none ∧ (s.coreAt (coreOf row)).run = some (decide (row % 2 = 1)) ∧
  (s.coreAt (coreOf row)).switch = 0 ∧ s.hold = false ∧ (s.bank row).fetch.ready ≤ s.cycle ∧
  ∀ e ∈ (s.bank row).sQueue, e.endsLine = false ∧ e.holdsDispatch = false

/-- The record of a fault at a line (R432). -/
def lineRecord (cause line : Nat) : FaultRec := { causeAt cause (.ofNat 64 line) with src := 1, line := .ofNat 64 line }

end Sys2Proof
end

