-- ==== Sys2Proof/Safety/Engines.lean ====
section
/-! DEFINITION. Terms for statements about engine commands: the entry that may start, and what the end of a command leaves. -/

namespace Sys2Proof

open Machine

/-- Entry `x` heads the present row's queue at an engine, stands for the command and may start: the stream is not blocked by a fault,
the entry is no timed command before its cycle, and a command with RES has room in the result FIFO (R119, R262, R272). -/
def Starts (s : State) (e : Eng) (i : Instr) (x : EngEntry) : Prop :=
  (s.here.engQ e).head? = some x ∧ x.instr e = some i ∧ s.here.engBlocked e x.opc = false ∧ x.state = .waiting ∧
  x.timedUnstarted = false ∧ s.here.fifoWaits e x = false

/-- The entry may start and its bank may have commands executed at the engine (R340). -/
def StartsAllowed (s : State) (e : Eng) (i : Instr) (x : EngEntry) : Prop := Starts s e i x ∧ mayExecute s s.cur e = true

/-- Entry `x` is the first of the present bank's MX entries that stands for the command and has something to do in this cycle (R247, R248,
R262). -/
def MxServes (s : State) (i : Instr) (x : EngEntry) : Prop :=
  s.here.mx.find? (fun y => decide (y.instr .mx = some i) && mxDue s s.cur y) = some x

/-- It may start, and its bank may have commands executed at the engine (R247, R340). -/
def MxStarts (s : State) (i : Instr) (x : EngEntry) : Prop :=
  MxServes s i x ∧ x.state = .waiting ∧ mayExecute s s.cur .mx = true

/-- The bank after an entry has left its queue and its words have entered the result FIFO (R271, R272). -/
def leftQueue (b : Bank) (e : Eng) (x : EngEntry) (words : List W64) : Bank :=
  let c := b.setEngQ e ((b.engQ e).filter fun y => decide (y.id ≠ x.id))
  c.setFifo e (c.fifo e ++ words)

/-- The state `t` is what the end of entry `x` of row `row` makes of `p`: the stores of the row are published at system scope, the
completion object named by DONE, if any, gets the status and counts, the entry's ownership ends, the entry leaves the queue, and its
words enter the result FIFO; nothing else changes (R250, R271 to R273, R305, R310). -/
def EndOf (p t : State) (row : Nat) (e : Eng) (x : EngEntry) (status : Nat) (words : List W64) : Prop :=
  ∃ q, writeObject (releaseAt p row 2) row x.done status = .done q ∧
    t = { q with banks := t.banks, dir := (endOwners q fun o => o == .cmd row e x.id).dir } ∧
    ∀ k, t.bank k = if k = row then leftQueue (q.bank row) e x words else q.bank k

/-- The command answers a next state: its effect has made `p` of the state, and entry `x` has ended there. Asked where the completion
object can be written, which is always so of a command that names none. -/
def EndsAt (i : Instr) (s p : State) (e : Eng) (x : EngEntry) (status : Nat) (words : List W64) : Prop :=
  (∃ q, writeObject (releaseAt p s.cur 2) s.cur x.done status = .done q) →
    ∃ t, exec i s = .next t ∧ EndOf p t s.cur e x status words

/-- The word that a command of MX or CP places in the result FIFO when RES is set (R250, R272). -/
def resWord (x : EngEntry) (status : Nat) : List W64 := if x.res then [.ofNat 64 status] else []

/-- An MX command ends without a cause. -/
def MxEnds (i : Instr) (s p : State) (x : EngEntry) : Prop := EndsAt i s p .mx x (mxStatus x 0) (resWord x (mxStatus x 0))

/-- An MX command ends with a cause at its start (R261, R262). -/
def MxFails (i : Instr) (s p : State) (x : EngEntry) (cause : Nat) : Prop := exec i s = .next (mxFail p x cause 0)

/-- A command's work has made `p` of the state, and it completes in the cycle `due`: at once when that has come, else it keeps its place until
then, and the array pipe is free from `taken` on (R247, R248). -/
def MxTimed (i : Instr) (s p : State) (x : EngEntry) (due taken : Nat) : Prop :=
  (due ≤ p.cycle → exec i s = .next (mxDone p x)) ∧
  (p.cycle < due → exec i s = .next (setEntry p p.cur .mx { x with state := .running due taken }))

/-- An entry for the command whose cycle has come completes with what its work left (R248). -/
def MxCompletes (i : Instr) : Prop := ∀ (s : State) (x : EngEntry) (due taken : Nat), MxServes s i x → x.state = .running due taken →
  exec i s = .next (mxDone s x)

/-- Row `y` of a pass drawn and written: the state and the entry after it, where every draw gives an element (R254, R255). -/
def PassRowDone (k : Pass) (s : State) (x : EngEntry) (p : State) (y : EngEntry) : Prop :=
  let r := drawFor s mxaPort s.here.active.kc x
  let z := if r.2.2.1 then x.flag mxShort else x
  let w := passRow r.1.here k x.pos r.2.1.reverse
  r.2.2.2 = .complete ∧ p = (match w.1 with
    | none => r.1
    | some bytes => r.1.modHere fun b => b.writeAcc bytes) ∧
  y = { (if w.2 then EngEntry.errRow { z with drawn := r.2.1.reverse } else z) with
    drawn := [], pos := x.pos + 1, sub := x.sub + w.1.isSome.toNat }

/-- `n` rows of a pass, one after the other. -/
def PassDone (k : Pass) : Nat → State → EngEntry → State → EngEntry → Prop
  | 0, s, x, p, y => p = s ∧ y = x
  | n + 1, s, x, p, y => ∃ q z, PassRowDone k s x q z ∧ PassDone k n q z p y

/-- The extent that a command of a set works on is `c`, in state `p`, for entry `y`: the tile itself, the set's live copy, or a copy
that is made now (R265). -/
def WorksOn (s : State) (x : EngEntry) (t : BitVec 6) (c : TileCfg) (zero : Bool) (p : State) (y : EngEntry) (d : TileCfg) : Prop :=
  shadowConflict s.here x.shadow t.toNat = false ∧
  ((x.shadow = 0 ∧ p = s ∧ y = x ∧ d = c) ∨
   (x.shadow ≠ 0 ∧ y = x.flag mxShadowed ∧
     ((∃ n, copyOf s.here x.shadow t.toNat = some n ∧ p = s ∧ d = { n.cfg with base := n.off }) ∨
      (copyOf s.here x.shadow t.toNat = none ∧ ∃ n, makeCopy s x.shadow t c zero = some (p, n) ∧ d = { c with base := n.off }))))

/-- `n` tile rows of an MSTORE written, one after the other, where no write meets a fault or waits; elements are converted in the mode that
the start has fixed (R249, R259). -/
def RowsStored (c : TileCfg) (o : ElemType) (addr : BitVec 48) (stride : BitVec 32) : Nat → State → EngEntry → State → EngEntry → Prop
  | 0, s, x, p, y => p = s ∧ y = x
  | n + 1, s, x, p, y => ∃ q, engWrite s s.cur .mx x.id (tileRowAddr addr stride x.pos) 1 (mstoreRow s.here (Mode.of x.fixedMode) c o x.pos) = .ok q ∧
    let z := if (List.range c.cols).any fun j => accErr s.here (c.at x.pos j) then x.errRow else x
    RowsStored c o addr stride n q { z with pos := x.pos + 1, sub := x.sub + 1 } p y

/-- `n` tile rows of an MLOADT read into the tile, one after the other, where no read meets a fault (R260). -/
def RowsLoaded (c : TileCfg) (addr : BitVec 48) (stride : BitVec 32) : Nat → State → EngEntry → State → EngEntry → Prop
  | 0, s, x, p, y => p = s ∧ y = x
  | n + 1, s, x, p, y => ∃ q bytes err,
    engRead s s.cur x (tileRowAddr addr stride x.pos) (c.cols * tileElemSize c.ty) 1 = .ok q bytes err ∧
    let z := if err then x.errRow else x
    let w := mloadtRow c x.pos bytes err
    RowsLoaded c addr stride n (match w with
      | none => q
      | some l => q.modHere fun b => b.writeAcc l) { z with pos := x.pos + 1, sub := x.sub + w.isSome.toNat } p y

/-- The state with a tile restored, and its bytes brought back where they are not present, and the tile's configuration (R245). -/
def TileOf (s : State) (t : BitVec 6) (r : State) (c : TileCfg) : Prop :=
  let q := restoreTile s s.cur t.toNat
  (q.here.tile t.toNat).cfg = some c ∧ r = restoreExtent q q.cur c

/-- The tile is not configured (R261 row 1). -/
def NoTile (s : State) (t : BitVec 6) : Prop := ((restoreTile s s.cur t.toNat).here.tile t.toNat).cfg = none

end Sys2Proof
end

