-- ==== Sys2Proof/Safety/Copies.lean ====
section
/-! DEFINITION. Terms for statements about the copy engine: its forms, and copies as sequences of stretches. -/

namespace Sys2Proof

open Machine

/-- A command of the copy engine, its operands and what it does to the bytes (R278 to R281). -/
def CpForm (i : Instr) (c : CpArgs) (k : CpKind) : Prop :=
  (∃ h, i = .cpy h c ∧ k = .copy) ∨ (∃ h, i = .fill h c ∧ k = .fill) ∨ (∃ h, i = .cpyf h c ∧ k = .copy) ∨
  ∃ h d t rm sat, i = .cpyc h c ∧ cpycField c.opx = some (d, t, rm, sat) ∧ k = .convert d t ⟨rm, sat⟩

/-- Source and destination of the stretch at the entry's row and byte (R274). -/
def stretchSrc (x : EngEntry) (c : CpArgs) (k : CpKind) : Nat :=
  wrapAddr (rowAt c.src (cpSs c) x.pos + (x.sub / k.dsize * k.ssize : Nat))
def stretchDst (x : EngEntry) (c : CpArgs) : Nat := wrapAddr (rowAt c.dst (cpDs c) x.pos + x.sub)

/-- The entry after the stretch at its row and byte. -/
def pastStretch (x : EngEntry) (c : CpArgs) (k : CpKind) : EngEntry :=
  let n := cpStretch c k x.pos x.sub
  if x.sub + n = cpLen c * k.dsize then { x with pos := x.pos + 1, sub := 0 } else { x with sub := x.sub + n }

/-- `n` stretches moved, one after the other (R278). -/
def CpMoved (c : CpArgs) (k : CpKind) : Nat → State → EngEntry → State → EngEntry → Prop
  | 0, s, x, p, y => p = s ∧ y = x
  | n + 1, s, x, p, y => x.pos < cpRows c ∧ ∃ q z, cpMove s x c k = .ok q z ∧ CpMoved c k n q z p y

/-- `n` stretches read into the staging buffer, none of them in error (R283). -/
def CpFilled (c : CpArgs) (k : CpKind) : Nat → State → EngEntry → State → EngEntry → Prop
  | 0, s, x, p, y => p = s ∧ y = x
  | n + 1, s, x, p, y => x.pos < cpRows c ∧ ∃ q bs,
    (match k with
      | .fill => EngRead.ok s [] false
      | .copy | .convert _ _ _ => engRead s s.cur x (stretchSrc x c k) (cpStretch c k x.pos x.sub / k.dsize * k.ssize) 1) = .ok q bs false ∧
    CpFilled c k n q (pastStretch { x with kept := x.kept ++ cpBytes k c.opx x.sub (cpStretch c k x.pos x.sub) bs false } c k) p y

/-- The checks at the start of a copy, beyond the right of R340: a timed copy lies in SRAM, addresses fit the element sizes, and source and
destination do not overlap (R276, R279, R284). -/
def CpLegal (s : State) (x : EngEntry) (c : CpArgs) (k : CpKind) : Prop :=
  (x.startAt ≠ 0 → c.shost = false ∧ c.dhost = false ∧ inSram s s.cur c.dst (cpDs c) (cpRows c) (cpLen c * k.dsize) = true ∧
    (k ≠ .fill → inSram s s.cur c.src (cpSs c) (cpRows c) (cpLen c * k.ssize) = true)) ∧
  cpMisaligned c k = false ∧ cpOverlaps c k = false

/-- A squash cancels an entry of the row's queue (R283). -/
def Squashed (s : State) (asid : Asid) (seq : BitVec 32) (tags : W64) (row : Nat) (x : EngEntry) : Prop :=
  (s.row row).asid = asid ∧ (s.row row).state ≠ .free ∧ x ∈ (s.bank row).cp ∧ squashes x seq tags = true

end Sys2Proof
end

