-- ==== Sys2Proof/Safety/Exchange.lean ====
section
/-! DEFINITION. Terms for statements about the exchange and the sampler: when an entry of a stream starts, and what a grant and a drained
slot leave. -/

namespace Sys2Proof

open Machine

/-- The oldest entry of a stream of the exchange stands for the command and may start (R119, R272, R382, R387). -/
def XgStarts (s : State) (opc : Nat) (i : Instr) (x : EngEntry) : Prop :=
  streamHead s.here opc = some x ∧ x.instr .xg = some i ∧ s.here.engBlocked .xg opc = false ∧ x.state = .waiting ∧
  x.timedUnstarted = false ∧ s.here.fifoWaits .xg x = false

/-- Besides, the bank has the right of R340 and the die's exchange is enabled (R377). -/
def XgAllowed (s : State) (opc : Nat) (i : Instr) (x : EngEntry) : Prop :=
  XgStarts s opc i x ∧ mayExecute s s.cur .xg = true ∧ s.xgcfg.get false (dieOf s.cur) = true

/-- The stream's oldest entry goes on: it is held, or it waits for what it has asked for. -/
def XgGoesOn (s : State) (opc : Nat) (i : Instr) (x : EngEntry) : Prop :=
  streamHead s.here opc = some x ∧ x.instr .xg = some i ∧ s.here.engBlocked .xg opc = false ∧
  (x.state = .held ∨ x.state = .putting ∨ ∃ c, x.state = .permitWait c)

/-- The state that differs in slots and in messages on their way only. -/
def OnlySlots (s t : State) : Prop := t = { s with slots := t.slots, agenda := t.agenda }

/-- An XG command ends without a cause. -/
def XgEnds (i : Instr) (s p : State) (x : EngEntry) : Prop := EndsAt i s p .xg x (xgStatus x 0) (resWord x (xgStatus x 0))

/-- A sampler command ends: its result words, then its status word when RES is set (R411, R412). -/
def SpEnds (i : Instr) (s p : State) (x : EngEntry) (value flags : Nat) (words : List W64) : Prop :=
  EndsAt i s p .sp x (spStatus x value flags 0) (words ++ resWord x (spStatus x value flags 0))

end Sys2Proof
end

