-- ==== Sys2Proof/Safety/Memory.lean ====
section
/-! DEFINITION. Terms for statements about memory: what a task reads, which parts of the package a publication touches. -/

namespace Sys2Proof

open Machine

/-- The two states differ at most in memory at its homes, in the copies that cores and dies hold, and in which bytes are sound. -/
def OnlyMemory (s t : State) : Prop :=
  t = { s with mem := t.mem, coreOv := t.coreOv, dieOv := t.dieOv, poison := t.poison }

/-- A die's cache has been written back to the homes and holds nothing more; memory has not changed otherwise (R221, R377). -/
def WrittenBack (s t : State) (die : Nat) : Prop :=
  let cache : Store (Option Byte) := s.dieOv.get [] die
  OnlyMemory s t ∧ t.dieOv.get [] die = [] ∧ ((cache.map Prod.fst).Nodup → ∀ pa, t.home pa = (Store.get none cache pa).getD (s.home pa))

end Sys2Proof
end

