-- ==== Sys2Proof/Safety/Host.lean ====
section
/-! DEFINITION. Terms for statements about the host's commands: how a mailbox command is answered. -/

namespace Sys2Proof

open Machine

/-- A mailbox command whose effect leaves state `p` is answered: word 6 of the record takes STATUS and SEQ, MBOXBUSY is cleared, vector 16 is
sent, and nothing else changes (R453). -/
def Answered (i : Instr) (s p : State) (seq : BitVec 32) (status : Nat) : Prop :=
  ∃ t, exec i s = .next t ∧
    OnlyMemory { p with devstat := { p.devstat with mboxbusy := false }, msix := p.msix ++ [16] } t ∧
    ∀ a, t.home a =
      if 0x400000FF0030 ≤ a ∧ a < 0x400000FF0038 then byteOf (status + seq.toNat * 2 ^ 32) (a - 0x400000FF0030) else p.home a

end Sys2Proof
end

