-- ==== Sys2Proof/Safety/KeyValue.lean ====
section
/-! DEFINITION. Terms for statements about key-value commands: the commands, when one starts, and the words of its end. -/

namespace Sys2Proof

open Machine

/-- The ten commands of the key-value engine (R352). -/
def isKv : Instr → Bool
  | .kvxl .. | .kvapp .. | .kvatt .. | .kvmask .. | .kvckpt .. | .kvcmt .. | .kvsq .. | .kvscore .. | .kvtopk .. | .kvcompact .. => true
  | _ => false

/-- A KV entry that starts: nothing has been read yet (R272, R353). -/
def KvFresh (s : State) (i : Instr) (x : EngEntry) : Prop := Starts s .kv i x ∧ x.started = false ∧ x.kept = []

/-- The words that a KV command places in the result FIFO: its own, then its status word when RES is set (R358). -/
def kvWordsOf (x : EngEntry) (status : Nat) : List W64 := x.follow ++ if x.res then [.ofNat 64 status] else []

/-- A KV command is held by a fault, and keeps the tag of the entry that the fault concerns, or ends with it (R354, R356). -/
def kvStopped (q : State) (z : EngEntry) (i : Instr) (held : Bool) (c a : Nat) (w : KvAt) : State :=
  let st := kvStatus z (kvValue z (kvEnvOf q.here z i) i (kvStepsOf q.here z i) false) w.node c
  if held then holdEntry q q.cur .kv (kvHeldNode z w.node) (kvRecord q z c a w)
  else finishEntry q q.cur .kv z st (kvWordsOf z st) (some (kvRecord q z c a w))

end Sys2Proof
end

