-- ==== Sys2Proof/Safety/Vector.lean ====
section
/-! DEFINITION. Terms for statements about the vector unit: what its sources give, where its results go, and the results of the
elementwise instructions as chapter 08 states them. -/

namespace Sys2Proof

open Machine

/-- The number of a vector register after rotation by the RB with which the instruction was dispatched (R109, R110). -/
def physical (s : State) (n : Nat) : Nat := if n < 128 then n else 128 + (n - 128 + (s.here.headEntry .V).rb.toNat) % 128

/-- What a vector source gives: a register, or the filled head of a load queue whose data are sound (R105, R174, R225). -/
def sourceValue (s : State) : VSrc → Option VWord
  | .reg n => some (s.here.vreg (physical s n.toNat))
  | .lq q _ => match s.here.loadQ q with
    | [] => none
    | e :: _ => if e.err = none then e.val else none

/-- The bank after the sources have been popped: a queue named without PEEK loses its head, once (R105). -/
def Popped (b : Bank) (srcs : List VSrc) : Bank :=
  srcs.eraseDups.foldl (fun b a => match a with
    | .reg _ => b
    | .lq q peek => if peek then b else b.setLoadQ q (b.loadQ q).tail) b

/-- Whether a destination can take a result: a declared register, or a store queue that is not full (R33, R106). -/
def canTake (s : State) : VDst → Prop
  | .reg n => n.toNat < s.here.decl.v
  | .sq q => (s.here.storeQ q).length < 8

/-- The bank `c` with a result of the V unit on its way: to the enabled bits of a register, or to the tail of a store queue with its
nibble enables, at latency `lat` (R98, R172, R173). -/
def Sending (c : Bank) (lat : Nat) (d : VDst) (data en : VWord) (nib : MWord) : Bank :=
  match d with
  | .reg n => WithFlight c .V lat [.vreg (physReg (c.headEntry .V).rb n.toNat) data en]
  | .sq q => { c.reserveStore q with flightQ := c.flightQ ++ [⟨lat, [.sq q c.nextId data nib]⟩] }

/-- The bank `c` after the issue of an instruction with such a result. -/
def ResultTo (c : Bank) (lat : Nat) (d : VDst) (data en : VWord) (nib : MWord) : Bank := (Sending c lat d data en nib).issued .V

/-- The value, enables and nibble enables of a result of width `w` whose active elements are those of `act`: each active element of the
value is as `f` says, every bit of an active element is enabled and no other bit, and a masked-off element of a store-queue entry holds
zero (R172, R173). -/
def Carries (d : VDst) (w n : Nat) (act : Nat → Bool) (f : Nat → Nat) (data en : VWord) (nib : MWord) : Prop :=
  (∀ j < n, act j = true → elemAt w data j = f j) ∧
  (d.isReg = false → ∀ j < n, act j = false → elemAt w data j = 0) ∧
  (∀ j < n, ∀ k < w, en.getLsbD (w * j + k) = act j) ∧
  (∀ j < n, ∀ k < w / 4, nib.getLsbD (w / 4 * j + k) = act j)

/-- An instruction issues and sends such a result to `d`. -/
def SendsTo (i : Instr) (s : State) (c : Bank) (lat : Nat) (d : VDst) (w n : Nat) (act : Nat → Bool) (f : Nat → Nat) : Prop :=
  ∃ data en nib, IssuesTo i s (ResultTo c lat d data en nib) ∧ Carries d w n act f data en nib

/-- An elementwise instruction (R176): destination, sources, mask, type, latency, and the result of an element from the mode and the
elements of the sources. -/
structure Elementwise where
  d    : VDst
  srcs : List VSrc
  m    : BitVec 6
  t    : ElemType
  lat  : Nat
  f    : Mode → List Nat → Nat

/-- The bits of an element that a register keeps: six of a t6 slot (R159). -/
def keptBits (t : ElemType) : Nat := if t = .t6 then 6 else t.width

/-- dec (R160). -/
abbrev dec := decodeElem

/-- The bits of an element. -/
def bitsOfElem (t : ElemType) (x : Nat) : BitVec t.width := .ofNat t.width x

/-- The choice of VMIN or VMAX between two operands (R181). -/
def chosen (t : ElemType) (mx : Bool) (x y : Nat) : Nat :=
  if t.isInt then (if mx then (if intOf t x < intOf t y then y else x) else if intOf t y < intOf t x then y else x)
  else match (dec t x).isNan, (dec t y).isNan with
    | true, true => nanCode t
    | true, false => y
    | false, true => x
    | false, false =>
      let below (p q : XVal) : Bool := p.cmp q == .lt || (p.cmp q == .eq && p.isZero && p.sign && !q.sign)
      if mx then (if below (dec t x) (dec t y) then y else x) else if below (dec t y) (dec t x) then y else x

/-- The source of a shift count (R181). -/
def countSrcs : ShiftCount → List VSrc
  | .imm _ => []
  | .src b => [b]
/-- The count of a shift (R181). -/
def countFrom : ShiftCount → List Nat → Nat
  | .imm n, _ => n.toNat
  | .src _, l => l.headD 0

/-- The elementwise instructions of R177 to R182, R194 and R197. An integer result is taken modulo 2^w, a floating one rounded once in
VMODE. -/
def elementwise : Instr → Option Elementwise
  | .vadd d a b m t => some ⟨d, [a, b], m, t, if t.isInt then 2 else 4, two fun md x y =>
      if t.isInt then wrap t (intOf t x + intOf t y) else roundElem t md ((dec t x).add md.rm (dec t y))⟩
  | .vsub d a b m t => some ⟨d, [a, b], m, t, if t.isInt then 2 else 4, two fun md x y =>
      if t.isInt then wrap t (intOf t x - intOf t y) else roundElem t md ((dec t x).add md.rm (dec t y).neg)⟩
  | .vmul d a b m t => some ⟨d, [a, b], m, t, 4, two fun md x y =>
      if t.isInt then wrap t (intOf t x * intOf t y) else roundElem t md ((dec t x).mul (dec t y))⟩
  | .vfma d a b c m t => some ⟨d, [a, b, .reg c], m, t, 5, three fun md x y z =>
      if t.isInt then wrap t (intOf t x * intOf t y + intOf t z)
      else roundElem t md (((dec t x).mul (dec t y)).add md.rm (dec t z))⟩
  | .vfms d a b c m t => some ⟨d, [a, b, .reg c], m, t, 5, three fun md x y z =>
      if t.isInt then wrap t (intOf t x * intOf t y - intOf t z)
      else roundElem t md (((dec t x).mul (dec t y)).add md.rm (dec t z).neg)⟩
  | .vfnma d a b c m t => some ⟨d, [a, b, .reg c], m, t, 5, three fun md x y z =>
      if t.isInt then wrap t (-(intOf t x * intOf t y) + intOf t z)
      else roundElem t md (((dec t x).mul (dec t y)).neg.add md.rm (dec t z))⟩
  | .vneg d a m t => some ⟨d, [a], m, t, 2, one fun _ x =>
      if t.isInt then wrap t (-intOf t x) else roundElem t Mode.rne (dec t x).neg⟩
  | .vabs d a m t => some ⟨d, [a], m, t, 2, one fun _ x =>
      if t.isInt then wrap t |intOf t x| else roundElem t Mode.rne (dec t x).abs⟩
  | .vmin d a b m t => some ⟨d, [a, b], m, t, 2, two fun _ x y => chosen t false x y⟩
  | .vmax d a b m t => some ⟨d, [a, b], m, t, 2, two fun _ x y => chosen t true x y⟩
  | .vadds d a b m t => some ⟨d, [a, b], m, t, 2, two fun _ x y =>
      wrap t (max (intMin t) (min (intMax t) (intOf t x + intOf t y)))⟩
  | .vsubs d a b m t => some ⟨d, [a, b], m, t, 2, two fun _ x y =>
      wrap t (max (intMin t) (min (intMax t) (intOf t x - intOf t y)))⟩
  | .vmulh d a b m t => some ⟨d, [a, b], m, t, 4, two fun _ x y => wrap t (intOf t x * intOf t y / 2 ^ t.width)⟩
  | .vavg d a b m t => some ⟨d, [a, b], m, t, 2, two fun _ x y => wrap t ((intOf t x + intOf t y + 1) / 2)⟩
  | .vshl d a n m t => some ⟨d, a :: countSrcs n, m, t, 2, fun _ l =>
      (bitsOfElem t (l.headD 0) <<< countFrom n l.tail).toNat⟩
  | .vshr d a n m t => some ⟨d, a :: countSrcs n, m, t, 2, fun _ l =>
      (bitsOfElem t (l.headD 0) >>> countFrom n l.tail).toNat⟩
  | .vsar d a n m t => some ⟨d, a :: countSrcs n, m, t, 2, fun _ l =>
      ((bitsOfElem t (l.headD 0)).sshiftRight (countFrom n l.tail)).toNat⟩
  | .vand d a b m t => some ⟨d, [a, b], m, t, 2, two fun _ x y => (bitsOfElem t x &&& bitsOfElem t y).toNat⟩
  | .vor d a b m t => some ⟨d, [a, b], m, t, 2, two fun _ x y => (bitsOfElem t x ||| bitsOfElem t y).toNat⟩
  | .vxor d a b m t => some ⟨d, [a, b], m, t, 2, two fun _ x y => (bitsOfElem t x ^^^ bitsOfElem t y).toNat⟩
  | .vandn d a b m t => some ⟨d, [a, b], m, t, 2, two fun _ x y => (bitsOfElem t x &&& ~~~bitsOfElem t y).toNat⟩
  | .vnot d a m t => some ⟨d, [a], m, t, 2, one fun _ x => (~~~bitsOfElem t x).toNat⟩
  | .vclz d a m t => some ⟨d, [a], m, t, 2, one fun _ x =>
      (((List.range t.width).map fun k => x.testBit (t.width - 1 - k)).takeWhile fun b => !b).length⟩
  | .vpopc d a m t => some ⟨d, [a], m, t, 2, one fun _ x => ((List.range t.width).map fun k => x.testBit k).count true⟩
  | .vmov d a m t => some ⟨d, [a], m, t, 2, one fun _ x => x⟩
  | .vscale d a b m t => some ⟨d, [a, b], m, t, 4, two fun md x y =>
      roundElem t md ((dec t x).scale (signedOf (keptBits t) (y % 2 ^ keptBits t)))⟩
  | .vexp2 d a m => some ⟨d, [a], m, .f32, 12, one fun md x => roundElem .f32 md (exp2X (dec .f32 x))⟩
  | .vlog2 d a m => some ⟨d, [a], m, .f32, 12, one fun md x => roundElem .f32 md (log2X (dec .f32 x))⟩
  | .vrcp d a m => some ⟨d, [a], m, .f32, 12, one fun md x => roundElem .f32 md (rcpX (dec .f32 x))⟩
  | .vrsq d a m => some ⟨d, [a], m, .f32, 12, one fun md x => roundElem .f32 md (rsqrtX (dec .f32 x))⟩
  | .vsqrt d a m => some ⟨d, [a], m, .f32, 12, one fun md x => roundElem .f32 md (sqrtX (dec .f32 x))⟩
  | .vtanh d a m => some ⟨d, [a], m, .f32, 12, one fun md x => roundElem .f32 md (tanhX (dec .f32 x))⟩
  | .vsigm d a m => some ⟨d, [a], m, .f32, 12, one fun md x => roundElem .f32 md (sigmX (dec .f32 x))⟩
  | .vexpm d a m => some ⟨d, [a], m, .f32, 12, one fun md x => roundElem .f32 md (expm1X (dec .f32 x))⟩
  | _ => none
where
  /-- An integer modulo 2^w as a code. -/
  wrap (t : ElemType) (x : Int) : Nat := (BitVec.ofInt t.width x).toNat
  one (f : Mode → Nat → Nat) (md : Mode) (l : List Nat) : Nat := f md (l.headD 0)
  two (f : Mode → Nat → Nat → Nat) (md : Mode) (l : List Nat) : Nat := f md (l.headD 0) (l.tail.headD 0)
  three (f : Mode → Nat → Nat → Nat → Nat) (md : Mode) (l : List Nat) : Nat :=
    f md (l.headD 0) (l.tail.headD 0) (l.tail.tail.headD 0)

/-- Every operand of a vector instruction is declared, its sources give the values `vals`, and its destination can take a result
(R33, R105, R106). -/
def Ready (s : State) (d : VDst) (srcs : List VSrc) (m : BitVec 6) (vals : List VWord) : Prop :=
  CanIssue s .V ∧ canTake s d ∧ m.toNat < s.here.decl.m ∧ (∀ a ∈ srcs, s.here.hasSrc a = true) ∧
    srcs.map (sourceValue s) = vals.map some

/-- The mask bits of an instruction (R172). -/
def governs (s : State) (m : BitVec 6) (j : Nat) : Bool := (s.here.mreg m).getLsbD j


/-! ### Groups of registers -/

/-- Element `e` of the `k` registers from name `n` on, in the order of R184 and R191. -/
def groupElem (s : State) (w n k e : Nat) : Nat := elemAt w (s.here.vreg (physical s (n + e % k))) (e / k)

/-- Registers named from `n` on, `k` of them, all declared (R33, R109). -/
def declares (s : State) (n k : Nat) : Prop := ∀ j < k, n + j < s.here.decl.v

/-- The bank `c` after the issue, with one result for `k` registers from name `n` on: `data j` under `en j` to register `n + j`. -/
def GroupTo (s : State) (c : Bank) (lat n k : Nat) (data en : Nat → VWord) : Bank :=
  Bank.issued (WithFlight c .V lat ((List.range k).map fun j => .vreg (physical s (n + j)) (data j) (en j))) .V

/-- An instruction issues and sends `count` results of width `w` to `k` registers: result `e` goes to slot `e div k` of register
`e mod k` when `act e`, and no other bit is enabled (R184). -/
def SendsToGroup (i : Instr) (s : State) (c : Bank) (lat n k w count : Nat) (act : Nat → Bool) (f : Nat → Nat) : Prop :=
  ∃ data en : Nat → VWord, IssuesTo i s (GroupTo s c lat n k data en) ∧
    (∀ e < count, act e = true → elemAt w (data (e % k)) (e / k) = f e) ∧
    (∀ e < count, ∀ q < w, (en (e % k)).getLsbD (w * (e / k) + q) = act e)

/-- The widening instructions (R183, R184): names, result type and the exact result; `r` is the result type and `o` the element of
the destination that VWFMA adds. -/
structure Widening where
  d    : BitVec 8
  a    : VSrc
  b    : VSrc
  m    : BitVec 6
  t    : ElemType
  quad : Bool
  int  : Int → Int → Int → Int
  flt  : Rm → XVal → XVal → XVal → XVal

/-- The widening instructions. -/
def widening : Instr → Option Widening
  | .vwadd d a b m t q => some ⟨d, a, b, m, t, q, fun x y _ => x + y, fun rm x y _ => x.add rm y⟩
  | .vwmul d a b m t q => some ⟨d, a, b, m, t, q, fun x y _ => x * y, fun _ x y _ => x.mul y⟩
  | .vwfma d a b m t q => some ⟨d, a, b, m, t, q, fun x y o => x * y + o, fun rm x y o => (x.mul y).add rm o⟩
  | _ => none

/-- The register that a widening result is read in (R183). -/
def Widening.result (x : Widening) (r : ElemType) (md : Mode) (p q o : Nat) : Nat :=
  if r.isInt then (BitVec.ofInt r.width (x.int (intOf x.t p) (intOf x.t q) (intOf r o))).toNat
  else roundElem r md (x.flt md.rm (dec x.t p) (dec x.t q) (dec r o))

/-! ### Masks and words for cq -/

/-- The bank `c` after the issue, with a result for a mask register on its way: the bits `en` of it (R112, R186). -/
def MaskTo (c : Bank) (d : BitVec 6) (bits en : MWord) : Bank := Bank.issued (WithFlight c .V 2 [.mreg d bits en]) .V

/-- The bank `c` after the issue, with a reserved entry of cq that a word fills at latency `lat` (R106, R174). -/
def CqTo (c : Bank) (lat : Nat) (w : W64) : Bank :=
  Bank.issued { c.reserveWord .cq with flightQ := c.flightQ ++ [⟨lat, [.word .cq c.nextId w]⟩] } .V

/-- The word that heads xq, filled and sound, and the entries behind it (R107, R174, R225). -/
def xqHead (s : State) (w : W64) (rest : List WordEntry) : Prop :=
  ∃ e, s.here.xq = e :: rest ∧ e.val = some w ∧ e.err = none

/-- The mask instructions whose result is a function of mask registers (R188, R189): destination, registers read, result. -/
def maskLogic (b : Bank) : Instr → Option (BitVec 6 × List (BitVec 6) × MWord)
  | .mand d x y => some (d, [x, y], b.mreg x &&& b.mreg y)
  | .mor d x y => some (d, [x, y], b.mreg x ||| b.mreg y)
  | .mxor d x y => some (d, [x, y], b.mreg x ^^^ b.mreg y)
  | .mandn d x y => some (d, [x, y], b.mreg x &&& ~~~b.mreg y)
  | .mnot d x => some (d, [x], ~~~b.mreg x)
  | .mmov d x => some (d, [x], b.mreg x)
  | .mset d .zero => some (d, [], 0)
  | .mset d .ones => some (d, [], BitVec.allOnes 1024)
  | _ => none

/-- A predicate of VCMP on two elements (R186). -/
def compares (p : VPred) (t : ElemType) (x y : Nat) : Bool :=
  let nan := (dec t x).isNan || (dec t y).isNan
  let order := (dec t x).cmp (dec t y)
  match p with
  | .un => nan
  | .ne => nan || order != .eq
  | .eq => !nan && order == .eq
  | .lt => !nan && order == .lt
  | .gt => !nan && order == .gt
  | .le => !nan && (order == .lt || order == .eq)
  | .ge => !nan && (order == .gt || order == .eq)

/-- The class bit of a value (R187). -/
def classOf (x : XVal) : Nat :=
  if x.isNan then 0
  else if x = .inf true then 1
  else if x = .inf false then 6
  else if x.isZero then (if x.sign then 3 else 4)
  else if x.sign then 2 else 5

/-! ### Raw elements -/

/-- Element `j` of a value as a moved element, or the zero element beyond the last one (R195). -/
def rawElem (t : ElemType) (v : VWord) (j : Nat) : Nat := if j < t.count then elemAt t.width v j % 2 ^ keptBits t else 0

/-- An index source that gives `j`, and the bank once it has been read (R196). -/
def indexGives (s : State) (x : IndexSrc) (j : Nat) (c : Bank) : Prop :=
  match x with
  | .imm n => j = n.toNat ∧ c = s.here
  | .xq => ∃ w r, xqHead s w r ∧ j = w.toNat ∧ c = { s.here with xq := r }

/-- A word of a signed or unsigned element (R198, R209). -/
def elemWord (signed : Bool) (w x : Nat) : W64 := if signed then (BitVec.ofNat w x).signExtend 64 else (BitVec.ofNat w x).setWidth 64

/-! ### Reductions -/

/-- The fixed tree of R169 over `2^k` values: at each level value `i` is combined with value `i + n/2`. -/
def treeOf {β : Type} (f : β → β → β) : Nat → (Nat → β) → β
  | 0, x => x 0
  | k + 1, x => treeOf f k fun i => f (x i) (x (i + 2 ^ k))

/-- The result of a reduction of the elements `x` of type `t` (R208): its width in bits, whether it is signed, and its bits; `act` are the
active positions. -/
def reduction (md : Mode) (t : ElemType) (x : Nat → Nat) (act : Nat → Bool) : Instr → Option (Nat × Bool × Nat)
  | .vrsum .. => some (32, t.signed,
      if t.isInt then
        (BitVec.ofInt 32 ((List.range t.count).map fun j => if act j then intOf t (x j) else 0).sum).toNat
      else tree (fun p q => addF32 md.rm p q) fun j => if act j then toF32 (dec t (x j)) else 0x80000000)
  | .vrmax .. => some (t.width, t.signed,
      tree (chosen t true) fun j => if act j then x j % 2 ^ keptBits t
        else if t.isInt then (BitVec.ofInt t.width (intMin t)).toNat else nanCode t)
  | .vrmin .. => some (t.width, t.signed,
      tree (chosen t false) fun j => if act j then x j % 2 ^ keptBits t
        else if t.isInt then (BitVec.ofInt t.width (intMax t)).toNat else nanCode t)
  | .vramax .. => some (t.width, false,
      if t.isInt then tree max fun j => if act j then (intOf t (x j)).natAbs else 0
      else tree (chosen t true) fun j => if act j then roundElem t Mode.rne (dec t (x j)).abs else nanCode t)
  | _ => none
where
  tree (f : Nat → Nat → Nat) (y : Nat → Nat) : Nat := treeOf f t.count.log2 y

/-- The bank `c` after the issue of a reduction with result `r` of width `w`: element 0 of the register, a word for cq, or both
(R209). -/
def ReductionTo (s : State) (c : Bank) (d : RedDst) (w : Nat) (signed : Bool) (r : Nat) : Bank :=
  let first (n : BitVec 8) : Bank := WithFlight c .V 8 [.vreg (physical s n.toNat) (.ofNat 4096 r) (.ofNat 4096 (2 ^ w - 1))]
  match d with
  | .reg n => (first n).issued .V
  | .regCq n => CqTo (first n) 8 (elemWord signed w r)
  | .cq => CqTo c 8 (elemWord signed w r)

/-- Whether the destinations of a reduction can take it: a declared register, room in cq (R33, R106, R209). -/
def reductionRoom (s : State) : RedDst → Prop
  | .reg n => n.toNat < s.here.decl.v
  | .regCq n => n.toNat < s.here.decl.v ∧ s.here.cq.length < 16
  | .cq => s.here.cq.length < 16

/-! ### Tiles -/

/-- A slice index that gives `i`, and the bank once it has been read (R214). -/
def sliceGives (s : State) (x : SliceIdx) (i : Nat) (c : Bank) : Prop :=
  match x with
  | .imm n => i = n.toNat ∧ c = s.here
  | .xq => ∃ w r, xqHead s w r ∧ i = w.toNat ∧ c = { s.here with xq := r }

/-- Bytes of an element of a tile type (R213). -/
def tileSize (t : ElemType) : Nat := if t = .bf16 then 2 else 4
/-- The offset in the half of element `j` of row `i`, or of column `i` (R213, R215). -/
def sliceOffset (col : Bool) (c : TileCfg) (i j : Nat) : Nat :=
  c.base + (if col then j * c.cols + i else i * c.cols + j) * tileSize c.ty
/-- The length of a row or a column, and how many there are (R215). -/
def lengthOf (col : Bool) (c : TileCfg) : Nat := if col then c.rows else c.cols
/-- How many rows or columns there are. -/
def slicesOf (col : Bool) (c : TileCfg) : Nat := if col then c.cols else c.rows
/-- Registers of a slice (R215). -/
def registersOf (col : Bool) (c : TileCfg) : Nat := (lengthOf col c + 512 / tileSize c.ty - 1) / (512 / tileSize c.ty)
/-- An element of the accumulator half: its bytes, least significant first (R213). -/
def halfElem (b : Bank) (c : TileCfg) (off : Nat) : Nat :=
  if c.ty = .bf16 then (b.acc.get 0 off).toNat + 256 * (b.acc.get 0 (off + 1)).toNat
  else (b.acc.get 0 off).toNat + 256 * (b.acc.get 0 (off + 1)).toNat + 65536 * (b.acc.get 0 (off + 2)).toNat +
    16777216 * (b.acc.get 0 (off + 3)).toNat

/-- Every granule of an extent is present in the accumulator half (R245). -/
def present (b : Bank) (c : TileCfg) : Prop := ∀ g ∈ granulesOf c, b.gone.get false g = false

/-- The tile is configured as `c`, present, and no command of MX that names it is outstanding (R103, R213, R217, R245). -/
def tileReady (s : State) (t : BitVec 6) (c : TileCfg) : Prop :=
  t.toNat < s.here.decl.t ∧ (∀ x ∈ s.here.mx, t ∉ x.tiles) ∧ s.here.tile t.toNat = .configured c ∧ present s.here c

/-- The tile instructions that move a slice (R214): whether it is a column, whether it is written, tile, register, index, mask. -/
def sliceMove : Instr → Option (Bool × Bool × BitVec 6 × BitVec 8 × SliceIdx × BitVec 6)
  | .vtrd d t i m => some (false, false, t, d, i, m)
  | .vtcd d t i m => some (true, false, t, d, i, m)
  | .vtwr t a i m => some (false, true, t, a, i, m)
  | .vtwc t a i m => some (true, true, t, a, i, m)
  | _ => none

/-- The configuration that a word of R216 names. -/
def configOf (w : W64) : TileCfg :=
  ⟨(w.toNat / 2 ^ 32 % 2 ^ 13) * 512, if w.toNat / 2 ^ 16 % 32 = 4 then .s32 else if w.toNat / 2 ^ 16 % 32 = 12 then .bf16 else .f32,
    w.toNat % 256 + 1, w.toNat / 256 % 256 + 1⟩
/-- Whether a word of R216 is legal: its zero fields and its type. -/
def configLegal (w : W64) : Prop :=
  w.toNat / 2 ^ 45 = 0 ∧ w.toNat / 2 ^ 21 % 2 ^ 11 = 0 ∧ w.toNat / 2 ^ 16 % 32 ∈ [4, 12, 14]

end Sys2Proof
end

