-- ==== Sys2Proof/Safety/Operands.lean ====
section
/-! DEFINITION. Terms for statements about the operands of every unit instruction: the registers that it names, and what it needs of the data
queues before it issues. -/

namespace Sys2Proof

open Machine

/-! ### The registers that an instruction names (R33) -/

/-- The names of an instruction's registers, tiles, stream descriptors and groups. -/
structure Names where
  s  : List (BitVec 6) := []
  c  : List (BitVec 4) := []
  a  : List (BitVec 5) := []
  v  : List Nat := []
  m  : List (BitVec 6) := []
  t  : List (BitVec 6) := []
  st : List (BitVec 4) := []
  g  : List (BitVec 2) := []
  deriving DecidableEq, Repr

/-- Whether every name is within the counts that the task's kernel declares, and its task a member of every group (R33, R38). -/
def Names.within (n : Names) (s : State) : Bool :=
  let d := s.here.decl
  n.s.all (fun x => decide (x.toNat < d.s)) && n.c.all (fun x => decide (x.toNat < d.c)) && n.a.all (fun x => decide (x.toNat < d.a)) &&
    n.v.all (fun x => decide (x < d.v)) && n.m.all (fun x => decide (x.toNat < d.m)) && n.t.all (fun x => decide (x.toNat < d.t)) &&
    n.st.all (fun x => decide (x.toNat < d.st)) && n.g.all (memberOf s s.cur)

/-- The register that a source names. -/
def srcNames : VSrc → List Nat
  | .reg n => [n.toNat]
  | .lq _ _ => []
/-- The register that a destination names. -/
def dstNames : VDst → List Nat
  | .reg n => [n.toNat]
  | .sq _ => []
/-- `k` registers from a name on. -/
def groupNames (n k : Nat) : List Nat := (List.range k).map (n + ·)
/-- The registers of a source of `k` registers. -/
def sourceNames (k : Nat) (a : VSrc) : List Nat :=
  match a with
  | .reg n => groupNames n.toNat k
  | .lq _ _ => []

/-- The registers of a destination of `k` registers. -/
def targetNames (k : Nat) (d : VDst) : List Nat :=
  match d with
  | .reg n => groupNames n.toNat k
  | .sq _ => []
/-- The register that a reduction writes. -/
def redNames : RedDst → List Nat
  | .reg n | .regCq n => [n.toNat]
  | .cq => []

/-- The names of a vector instruction whose operands are a destination, sources and masks. -/
def vecNames (d : VDst) (srcs : List VSrc) (m : List (BitVec 6)) : Names := { v := dstNames d ++ srcs.flatMap srcNames, m := m }

/-- The unit and the names of the unit instructions that name any; PUSH and POP, whose other checks come first, are not among them. -/
def namesOf (i : Instr) : Option (UnitId × Names) :=
  match scalarResult (fun _ => 0) i, conditionResult (fun _ => 0) (fun _ => false) i, divResult (fun _ => 0) i,
      addressResult Bank.reset i, elementwise i, widening i with
  | some (d, src, _), _, _, _, _, _ => some (.S, { s := d :: src })
  | _, some (d, sr, cr, _), _, _, _, _ => some (.S, { s := sr, c := d :: cr })
  | _, _, some (d, src, _), _, _, _ => some (.S, { s := d :: src })
  | _, _, _, some (d, src, _), _, _ => some (.A, { a := d :: src })
  | _, _, _, _, some e, _ => some (.V, vecNames e.d e.srcs [e.m])
  | _, _, _, _, _, some x =>
    some (.V, { v := groupNames x.d.toNat (if x.quad then 4 else 2) ++ srcNames x.a ++ srcNames x.b, m := [x.m] })
  | _, _, _, _, _, _ => match i with
    | .brc c _ _ => some (.S, { c := [c] })
    | .call _ => some (.S, { s := [63] })
    | .brx a | .ret a | .send _ a | .sysw _ a => some (.S, { s := [a] })
    | .loopr d _ _ | .recv d _ | .time d _ | .sysr d _ => some (.S, { s := [d] })
    | .resolve _ (.cond y) => some (.S, { c := [y] })
    | .phase g | .fence g => some (.S, { g := [g] })
    | .waitc a b | .realign a b => some (.S, { s := [a, b] })
    | .launch y q a => some (.S, { s := [q, a], c := [y] })
    | .aget d => some (.A, { a := [d] })
    | .ldv u a _ _ | .stv u a _ _ => some (.A, { a := [u, a] })
    | .lds a _ _ _ | .sts a _ _ | .amoadd a _ | .amoxchg a _ | .amocas a _ | .amomin a _ _ | .amomax a _ _ | .amoand a _
    | .amoor a _ | .pft a _ => some (.A, { a := [a] })
    | .sdef st a | .sset st _ a => some (.A, { a := [a], st := [st] })
    | .sgo st _ | .sstop st | .sstat st => some (.A, { st := [st] })
    | .frz a l g | .thw a l g => some (.A, { a := [a, l], g := [g] })
    | .vcmp d a b m _ _ => some (.V, { v := srcNames a ++ srcNames b, m := [d, m] })
    | .vclass d a m _ _ => some (.V, { v := srcNames a, m := [d, m] })
    | .mand d a b | .mor d a b | .mxor d a b | .mandn d a b => some (.V, { m := [d, a, b] })
    | .mnot d a | .mmov d a => some (.V, { m := [d, a] })
    | .mset d _ => some (.V, { m := [d] })
    | .mpop a _ | .mfirst a _ => some (.V, { m := [a] })
    | .vcvt d a m t u _ | .vcvts d a m t u => some (.V,
        if t.width = u.width then vecNames d [a] [m]
        else if u.width < t.width then { v := targetNames (t.width / u.width) d ++ srcNames a, m := [m] }
        else { v := dstNames d ++ sourceNames (u.width / t.width) a, m := [m] })
    | .vsel d a b sel m _ => some (.V, vecNames d [a, b] [sel, m])
    | .vbcast d a _ m _ | .vrev d a m _ | .vcompr d a m _ _ | .vunpk4 d a m _ _ => some (.V, vecNames d [a] [m])
    | .vsplat d m _ | .vldi d _ m _ => some (.V, vecNames d [] [m])
    | .vextr a _ _ => some (.V, { v := srcNames a })
    | .vins d _ m _ => some (.V, { v := [d.toNat], m := [m] })
    | .vperm d a b m t => some (.V, { v := dstNames d ++ srcNames a ++ sourceNames t.indexGroup b, m := [m] })
    | .vperme d a b c m t => some (.V, { v := dstNames d ++ srcNames a ++ sourceNames t.indexGroup b ++ [c.toNat], m := [m] })
    | .vslup d a b _ m _ | .vsldn d a b _ m _ | .vpack4 d a b m _ _ _ => some (.V, vecNames d [a, b] [m])
    | .vexpnd d a m _ => some (.V, { v := d.toNat :: srcNames a, m := [m] })
    | .vzip2 d a _ | .vunzip2 d a _ => some (.V, { v := groupNames d.toNat 2 ++ groupNames a.toNat 2 })
    | .vzip3 d a _ | .vunzip3 d a _ => some (.V, { v := groupNames d.toNat 3 ++ groupNames a.toNat 3 })
    | .vzip4 d a _ | .vunzip4 d a _ => some (.V, { v := groupNames d.toNat 4 ++ groupNames a.toNat 4 })
    | .vrsum d a m _ | .vrmax d a m _ | .vrmin d a m _ | .vramax d a m _ => some (.V, { v := redNames d ++ srcNames a, m := [m] })
    | .vtrd d t _ m | .vtcd d t _ m => some (.V, { v := [d.toNat], m := [m], t := [t] })
    | .vtwr t a _ m | .vtwc t a _ m => some (.V, { v := [a.toNat], m := [m], t := [t] })
    | .tcfg t | .tzero t | .trel t => some (.V, { t := [t] })
    | _ => none

/-! ### What an instruction needs of the data queues (R104 to R107) -/

/-- One need of an instruction of the access or the vector unit. -/
inductive Need where
  /-- room for an entry at the tail of a store queue -/
  | store (q : BitVec 3)
  /-- room for an entry at the tail of a load queue -/
  | load (q : BitVec 3)
  /-- room for a word at the tail of a word queue -/
  | room (q : WordQ)
  /-- the `n` oldest words of a word queue -/
  | words (q : WordQ) (n : Nat)
  /-- the oldest entry of a store queue -/
  | head (q : BitVec 3)
  /-- the value of a vector source -/
  | src (a : VSrc)
  deriving DecidableEq, Repr

/-- The oldest entry of a vector queue, once it is filled. -/
def filledHead (l : List VEntry) : Option VEntry := l.head?.filter fun e => e.val.isSome

/-- Whether the `n` oldest words of a queue have come. -/
def wordsCome (l : List WordEntry) (n : Nat) : Prop := n ≤ l.length ∧ ∀ e ∈ l.take n, e.val.isSome = true

/-- The need is met. -/
def Need.met (s : State) : Need → Prop
  | .store q => (s.here.storeQ q).length < 8
  | .load q => (s.here.loadQ q).length < 8
  | .room q => (s.here.wordQ q).length < 16
  | .words q n => wordsCome (s.here.wordQ q) n ∧ ∀ e ∈ (s.here.wordQ q).take n, e.err = none
  | .head q => (filledHead (s.here.storeQ q)).isSome = true
  | .src (.reg _) => True
  | .src (.lq q peek) => ∃ e, filledHead (s.here.loadQ q) = some e ∧ (peek = true ∨ e.err = none)

/-- The instruction waits for the need: a queue is full, or what it reads has not come and a feed is pending; a PEEK raises no fault of a
held stream (R105 to R107, R239). -/
def Need.waits (s : State) : Need → Prop
  | .store q => 8 ≤ (s.here.storeQ q).length
  | .load q => 8 ≤ (s.here.loadQ q).length
  | .room q => 16 ≤ (s.here.wordQ q).length
  | .words q n => ¬ wordsCome (s.here.wordQ q) n ∧ s.here.pendingFeed (.word q) = true
  | .head q => filledHead (s.here.storeQ q) = none ∧ s.here.pendingFeed (.sq q) = true
  | .src (.reg _) => False
  | .src (.lq q peek) => filledHead (s.here.loadQ q) = none ∧
      if peek then heldStream s.here q ≠ none ∨ s.here.pendingFeed (.lq q) = true
      else heldStream s.here q = none ∧ s.here.pendingFeed (.lq q) = true

/-- The fault that the need raises: cause 0x05 where no feed is pending, 0x0F at uncorrectable data that would be popped, and the fault of a
stream held in the entry (R105, R107, R225, R239). -/
def Need.fault (s : State) : Need → FaultRec → Prop
  | .store _, _ | .load _, _ | .room _, _ | .src (.reg _), _ => False
  | .words q n, f =>
    (wordsCome (s.here.wordQ q) n ∧ ∃ l e r x, (s.here.wordQ q).take n = l ++ e :: r ∧ (∀ d ∈ l, d.err = none) ∧ e.err = some x ∧
      f = causeAt 0x0F x) ∨
    (¬ wordsCome (s.here.wordQ q) n ∧ s.here.pendingFeed (.word q) = false ∧ f = causeAt 0x05 0)
  | .head q, f => filledHead (s.here.storeQ q) = none ∧ s.here.pendingFeed (.sq q) = false ∧ f = causeAt 0x05 0
  | .src (.lq q peek), f =>
    (∃ e x, filledHead (s.here.loadQ q) = some e ∧ peek = false ∧ e.err = some x ∧ f = causeAt 0x0F x) ∨
    (filledHead (s.here.loadQ q) = none ∧ peek = false ∧ heldStream s.here q = some f) ∨
    (filledHead (s.here.loadQ q) = none ∧ heldStream s.here q = none ∧ s.here.pendingFeed (.lq q) = false ∧ f = causeAt 0x05 0)

/-- The needs of a destination. -/
def dstNeeds : VDst → List Need
  | .reg _ => []
  | .sq q => [.store q]
/-- The needs of an index. -/
def idxNeeds : IndexSrc → List Need
  | .imm _ => []
  | .xq => [.words .xq 1]

/-- The needs of the access and vector instructions that wait for data queues, in the order in which they are judged; VDISC has a statement of
its own. -/
def needsOf (i : Instr) : Option (List Need) :=
  match elementwise i, widening i with
  | some e, _ => some (dstNeeds e.d ++ e.srcs.map .src)
  | _, some x => some [.src x.a, .src x.b]
  | _, _ => match i with
    | .aget _ => some [.words .aq 1]
    | .ldv _ _ q _ => some [.load q]
    | .stv _ _ q _ => some [.head q]
    | .lds .. | .sstat _ => some [.room .rq]
    | .sts .. => some [.words .ssq 1]
    | .amoadd .. | .amoxchg .. | .amomin .. | .amomax .. | .amoand .. | .amoor .. => some [.room .rq, .words .ssq 1]
    | .amocas .. => some [.room .rq, .words .ssq 2]
    | .vcmp _ a b _ _ _ => some [.src a, .src b]
    | .vclass _ a _ _ _ | .vexpnd _ a _ _ => some [.src a]
    | .mset _ .xq | .vsetmode .xq | .tcfg _ | .vtrd _ _ .xq _ | .vtcd _ _ .xq _ | .vtwr _ _ .xq _ | .vtwc _ _ .xq _ =>
      some [.words .xq 1]
    | .mpop .. | .mfirst .. => some [.room .cq]
    | .vcvt d a .. | .vrev d a .. | .vunpk4 d a .. => some (dstNeeds d ++ [.src a])
    | .vcvts d a .. => some (dstNeeds d ++ [.words .xq 1, .src a])
    | .vsel d a b .. | .vperm d a b .. | .vperme d a b .. | .vpack4 d a b .. => some (dstNeeds d ++ [.src a, .src b])
    | .vbcast d a x _ _ => some (dstNeeds d ++ idxNeeds x ++ [.src a])
    | .vsplat d .. => some (dstNeeds d ++ [.words .xq 1])
    | .vextr a x _ => some (.room .cq :: idxNeeds x ++ [.src a])
    | .vins _ (.imm _) _ _ => some [.words .xq 1]
    | .vins _ .xq _ _ => some [.words .xq 2]
    | .vldi d .. => some (dstNeeds d)
    | .vslup d a b x _ _ | .vsldn d a b x _ _ => some (dstNeeds d ++ idxNeeds x ++ [.src a, .src b])
    | .vcompr d a _ _ cq => some (dstNeeds d ++ (if cq then [.room .cq] else []) ++ [.src a])
    | .vrsum d a _ _ | .vrmax d a _ _ | .vrmin d a _ _ | .vramax d a _ _ => some ((match d with
        | .reg _ => []
        | .regCq _ | .cq => [.room .cq]) ++ [.src a])
    | _ => none

/-- The unit of an instruction of which `needsOf` speaks. -/
def needUnit : Instr → UnitId
  | .aget _ | .ldv .. | .stv .. | .lds .. | .sstat _ | .sts .. | .amoadd .. | .amoxchg .. | .amomin .. | .amomax .. | .amoand .. | .amoor ..
  | .amocas .. => .A
  | _ => .V

end Sys2Proof
end

