-- ==== Sys2Proof/Certificates/Slice0/Obligations.lean ====
section
/-! DEFINITION. The statements for the provers. Each formalises rules of spec/ for every state in which its hypotheses hold. -/

open Sys2Proof Sys2Proof.Machine

/-! ## The sequencer -/

/-- R123, R125, R126, R127, R121: the integer, immediate and unary instructions and LIW and LIH write the table's result into their
destination, visible to the next S instruction; s0 discards; nothing else in the package changes but that the unit passes. One for which
no landing-buffer entry is free waits (R101). -/
def Obligations.ScalarInstructions : Prop :=
  ∀ (i : Instr) (s : State) (d : BitVec 6) (src : List (BitVec 6)) (v : W64),
    scalarResult s.here.sreg i = some (d, src, v) → s.here.hasS (d :: src) = true →
      (CanIssue s .S → IssuesTo i s ((Passed s .S).setS d v)) ∧
      (16 ≤ s.here.inFlight .S → IssuesTo i s (s.here.stalled .S false))

/-- R124 whole: quotients and remainders with their corner cases, at latency 20; no division raises a fault; a divide for which no
landing-buffer entry is free waits (R101). -/
def Obligations.Division : Prop :=
  (∀ (i : Instr) (s : State) (d : BitVec 6) (src : List (BitVec 6)) (v : W64),
    divResult s.here.sreg i = some (d, src, v) → s.here.hasS (d :: src) = true →
      (CanIssue s .S → IssuesTo i s (WithFlight (Passed s .S) .S 19 [.sreg d v])) ∧
      (16 ≤ s.here.inFlight .S → IssuesTo i s (s.here.stalled .S false))) ∧
  (∀ x y : W64, y ≠ 0 → x = BitVec.ofInt 64 (x.toInt.tdiv y.toInt) * y + BitVec.ofInt 64 (x.toInt.tmod y.toInt))

/-- R128, R129: comparisons and condition logic write their condition register; c0 discards. One for which no landing-buffer entry is free
waits (R101). -/
def Obligations.Conditions : Prop :=
  ∀ (i : Instr) (s : State) (d : BitVec 4) (sr : List (BitVec 6)) (cr : List (BitVec 4)) (v : Bool),
    conditionResult s.here.sreg s.here.creg i = some (d, sr, cr, v) → s.here.hasS sr = true → s.here.hasC (d :: cr) = true →
      (CanIssue s .S → IssuesTo i s ((Passed s .S).setC d v)) ∧
      (16 ≤ s.here.inFlight .S → IssuesTo i s (s.here.stalled .S false))

/-- R96, R95, R33, R94: what a register reads after a write to one of its file; register 0 of each file discards the write and reads as its
constant, and no other register changes. An instruction that names a register, a tile, a stream or a group beyond the counts that its kernel
declares raises cause 0x03, whatever its operands are. -/
def Obligations.RegisterFiles : Prop :=
  (∀ (i : Instr) (s : State) (u : UnitId) (n : Names), namesOf i = some (u, n) → i.wf = true → n.within s = false →
    (u = .A → NoHeldStore s) → TrapsWith i s u (causeAt 0x03 0)) ∧
  ∀ b : Bank,
    (∀ n k v, (b.setS n v).sreg k = if k = n ∧ n ≠ 0 then v else b.sreg k) ∧
    (∀ n k v, (b.setC n v).creg k = if k = n ∧ n ≠ 0 then v else b.creg k) ∧
    (∀ n k v, (b.setA n v).areg k = if k = n ∧ n ≠ 0 then v else b.areg k) ∧
    (∀ n k data en j, ((b.setM n data en).mreg k).getLsbD j =
      if k = n ∧ n ≠ 0 ∧ en.getLsbD j then data.getLsbD j else (b.mreg k).getLsbD j) ∧
    (∀ n k data en j, ((b.setV n data en).vreg k).getLsbD j =
      if k = n ∧ en.getLsbD j then data.getLsbD j else (b.vreg k).getLsbD j) ∧
    (∀ v, b.setS 0 v = b) ∧ (∀ v, b.setC 0 v = b) ∧ (∀ v, b.setA 0 v = b) ∧ (∀ d e, b.setM 0 d e = b) ∧
    b.sreg 0 = 0 ∧ b.creg 0 = true ∧ b.areg 0 = 0 ∧ (∀ j < 1024, (b.mreg 0).getLsbD j = true)

/-- R98, R99: a result in a landing buffer comes one issue of its unit nearer to its place at each issue, and reaches it at the last
one, after every result that was sent before it. -/
def Obligations.ResultsLand : Prop :=
  ∀ (b : Bank) (u : UnitId) (n : Nat) (res : List Result), b.halting = false →
    (WithFlight b u n res).issued u = if n ≤ 1 then (b.issued u).landAll res else WithFlight (b.issued u) u (n - 1) res

/-- R130, R131, R75: BR and CALL always and BRC when its condition differs from its invert bit send the next line to the target,
modulo 2^48; BRC otherwise sends it to the line after. CALL leaves the address of the line after in s63. Each answers a next state that
differs in the present bank only. -/
def Obligations.Branches : Prop :=
  ∀ s : State,
    (∀ d : BitVec 20, ∃ t, exec (.br d) s = .next t ∧ OnlyBank s t ((nextLine s (linesOn s d.toInt)).issued .S)) ∧
    (∀ (c : BitVec 4) (inv : Bool) (d : BitVec 20), s.here.hasC [c] = true → ∃ t, exec (.brc c inv d) s = .next t ∧
      OnlyBank s t ((nextLine s (linesOn s (if (s.here.creg c ^^ inv) = true then d.toInt else 1))).issued .S)) ∧
    (∀ d : BitVec 20, CanIssue s .S → s.here.hasS [63] = true → ∃ t, exec (.call d) s = .next t ∧
      OnlyBank s t (((nextLine s (linesOn s d.toInt)).issued .S).setS 63 (.ofInt 64 (lineX s + 32))))

/-- R132: BRX and RET go to the address in the register, after the checks of its table in their order. -/
def Obligations.ComputedJumps : Prop :=
  ∀ (i : Instr) (s : State) (a : BitVec 6), i = .brx a ∨ i = .ret a → s.here.hasS [a] = true →
    let x := s.here.sreg a
    (2 ^ 48 ≤ x.toNat → TrapsWith i s .S (causeAt 0x07 x)) ∧
    (x.toNat < 2 ^ 48 → x.toNat % 32 ≠ 0 → TrapsWith i s .S (causeAt 0x0E x)) ∧
    (x.toNat < 2 ^ 48 → x.toNat % 32 = 0 →
      (∀ c, fetchLine s s.cur x.toNat = .bad c → TrapsWith i s .S (causeAt c x)) ∧
      (∀ s' bs, fetchLine s s.cur x.toNat = .line s' bs →
        (lineLands bs = false → TrapsWith i s .S (causeAt 0x0D x)) ∧
        (lineLands bs = true → IssuesTo i s ((nextLine s x).issued .S))))

/-- R133 whole, with its encoding: LOOPR counts down, rotates RB in any case, and branches while the new count is not zero. -/
def Obligations.Loopr : Prop :=
  (∀ (d : BitVec 6) (rot : BitVec 7) (disp : BitVec 32),
    decodeUnit 2 (disp.toNat * 2 ^ 32 + s32Word 0x02 d.toNat 0 0 rot.toNat) = some (.loopr d rot disp)) ∧
  ∀ (d : BitVec 6) (rot : BitVec 7) (disp : BitVec 32) (s : State), CanIssue s .S → s.here.hasS [d] = true →
    let old := s.here.sreg d
    let new := if old = 0 then 0 else old - 1
    ∃ t, exec (.loopr d rot disp) s = .next t ∧ OnlyBank s t
      (({ nextLine s (linesOn s (if new ≠ 0 then disp.toInt else 1)) with
          rb := .ofNat 7 ((s.here.rb.toNat + rot.toNat) % 128) }.issued .S).setS d new)

/-- R134, R104, R105, R106, R107: SEND reserves the tail of its queue and sends its word there; RECV pops the head of its queue into a
register; both stall where the rules say so, and RECV on an empty queue without a pending feed takes the queue-unbound trap. An instruction of
the access or the vector unit waits for the first of its queues that is full, or empty with a pending feed, and traps at the first that is empty
without one or holds uncorrectable data that it would pop; a PEEK pops nothing and raises no fault of an entry. -/
def Obligations.DataQueues : Prop :=
  (∀ (i : Instr) (s : State) (l r : List Need) (x : Need), needsOf i = some (l ++ x :: r) → i.wf = true →
    (∀ u n, namesOf i = some (u, n) → n.within s = true) → (needUnit i = .A → NoHeldStore s) → (∀ y ∈ l, y.met s) →
      (x.waits s → IssuesTo i s (s.here.stalled (needUnit i) true)) ∧ ∀ f, x.fault s f → TrapsWith i s (needUnit i) f) ∧
  ∀ s : State, CanIssue s .S →
    (∀ q a, s.here.hasS [a] = true →
      ((s.here.wordQ (sendWordQ q)).length < 16 →
        IssuesTo (.send q a) s
          (Bank.issued { (s.here.setWordQ (sendWordQ q)
              (s.here.wordQ (sendWordQ q) ++ [⟨s.here.nextId, s.here.lineNow .S, none, none⟩])) with
            nextId := s.here.nextId + 1
            flightQ := s.here.flightQ ++ [⟨1, [.word (sendWordQ q) s.here.nextId (s.here.sreg a)]⟩] } .S)) ∧
      (16 ≤ (s.here.wordQ (sendWordQ q)).length → IssuesTo (.send q a) s (s.here.stalled .S true))) ∧
    (∀ d q, s.here.hasS [d] = true →
      (∀ e r w, s.here.wordQ (recvWordQ q) = e :: r → e.val = some w → e.err = none →
        IssuesTo (.recv d q) s (((s.here.setWordQ (recvWordQ q) r).issued .S).setS d w)) ∧
      (∀ e r w x, s.here.wordQ (recvWordQ q) = e :: r → e.val = some w → e.err = some x →
        TrapsWith (.recv d q) s .S (causeAt 0x0F x)) ∧
      ((s.here.wordQ (recvWordQ q)).head?.bind WordEntry.val = none → s.here.pendingFeed (.word (recvWordQ q)) = true →
        IssuesTo (.recv d q) s (s.here.stalled .S true)) ∧
      ((s.here.wordQ (recvWordQ q)).head?.bind WordEntry.val = none → s.here.pendingFeed (.word (recvWordQ q)) = false →
        TrapsWith (.recv d q) s .S (causeAt 0x05 0)))

/-- R135, R93, R136: what PUSH and POP leave, in the order of the checks: a fault leaves the queue as it is, a full queue sets cY,
and an accepted command is the last entry of its queue, its eight words those of the registers; POP takes the oldest word of the
FIFO, or sets cY. -/
def Obligations.EngineQueues : Prop :=
  ∀ (s : State) (e : Eng), CanIssue s .S →
    (engPresent (s.cur / 2) e = false → (∀ x y, TrapsWith (.push e x y) s .S (causeAt 0x0C 0)) ∧
      ∀ x y, TrapsWith (.pop x e y) s .S (causeAt 0x0C 0)) ∧
    (engPresent (s.cur / 2) e = true →
      (∀ x y, s.here.hasS (eightFrom x) = true → s.here.hasC [y] = true →
        let ws := (eightFrom x).map s.here.sreg
        let ns := ws.map BitVec.toNat
        let set := bitsOf (cmdWord ns 0) 35 32
        (cmdUndeclared s.here e ns = true → TrapsWith (.push e x y) s .S (causeAt 0x03 0)) ∧
        (cmdUndeclared s.here e ns = false → cmdMalformed s s.cur e ns = true → TrapsWith (.push e x y) s .S (causeAt 0x11 0)) ∧
        (cmdUndeclared s.here e ns = false → cmdMalformed s s.cur e ns = false → set ≠ 0 → ¬ setOpen s.here set →
          TrapsWith (.push e x y) s .S (causeAt 0x11 0)) ∧
        (cmdUndeclared s.here e ns = false → cmdMalformed s s.cur e ns = false → (set = 0 ∨ setOpen s.here set) →
          releaseReady s.here = true →
            (engDepth e ≤ (s.here.engQ e).length → IssuesTo (.push e x y) s ((Passed s .S).setC y true)) ∧
            ((s.here.engQ e).length < engDepth e →
              IssuesTo (.push e x y) s (((pushEntry s.here e ws s.cycle).issued .S).setC y false) ∧
              ∃ n, (pushEntry s.here e ws s.cycle).engQ e = s.here.engQ e ++ [n] ∧ n.words = ws ∧ n.state = .waiting ∧ n.started = false))) ∧
      (∀ x y, s.here.hasS [x] = true → s.here.hasC [y] = true →
        (s.here.fifo e = [] → IssuesTo (.pop x e y) s ((Passed s .S).setC y true)) ∧
        (∀ w r, s.here.fifo e = w :: r →
          IssuesTo (.pop x e y) s ((((s.here.setFifo e r).issued .S).setS x w).setC y false))))

/-- R137, R138: SHADOW opens a set; RESOLVE of a closed set changes nothing, waits while the MX queue is full, and otherwise closes
the set and enters a resolve entry that keeps the set's copies for a commit or when c[Y] is 1. -/
def Obligations.ShadowSets : Prop :=
  ∀ (s : State) (n : BitVec 3), 1 ≤ n.toNat → n.toNat ≤ 4 → s.here.halting = false →
    IssuesTo (.shadow n) s (Bank.issued { s.here with shadows := s.here.shadows ||| ((1 : BitVec 4) <<< (n.toNat - 1)) } .S) ∧
    ∀ k, s.here.hasC (resolveRegs k) = true →
      (¬ setOpen s.here n.toNat → IssuesTo (.resolve n k) s (Passed s .S)) ∧
      (setOpen s.here n.toNat → 16 ≤ s.here.mx.length → IssuesTo (.resolve n k) s (s.here.stalled .S false)) ∧
      (setOpen s.here n.toNat → s.here.mx.length < 16 →
        let keep := match k with
          | .discard => false
          | .commit => true
          | .cond y => s.here.creg y
        IssuesTo (.resolve n k) s
          (Bank.issued { pushResolve s.here n keep s.cycle with shadows := s.here.shadows &&& ~~~((1 : BitVec 4) <<< (n.toNat - 1)) } .S) ∧
        ∃ x, (pushResolve s.here n keep s.cycle).mx = s.here.mx ++ [x] ∧ x.resolve = some (n, keep) ∧ x.state = .waiting)

/-- R115, R146, R145, R150, R49: TIME reads the counter of the bank or of its die; SYSR reads a system register's fields; SYSW
changes the writable fields of TRAPVEC and TRAPRET and nothing else. -/
def Obligations.CountersAndSystemRegisters : Prop :=
  ∀ s : State, s.cur < 72 →
    (∀ d, CanIssue s .S → s.here.hasS [d] = true →
      (∀ f, IssuesTo (.time d f) s ((Passed s .S).setS d (counterRead s f))) ∧
      (∀ n, IssuesTo (.sysr d n) s ((Passed s .S).setS d (systemRegister s n)))) ∧
    (∀ n a, s.here.hasS [a] = true →
      IssuesTo (.sysw n a) s
        (match n with
          | .trapvec => Bank.issued { s.here with trapvec := s.here.sreg a &&& 0x0000FFFFFFFFFFE1 } .S
          | .trapret => Bank.issued { s.here with trapret := s.here.sreg a &&& 0x0000FFFFFFFFFFE0 } .S
          | .caps | .taskinfo | .trapcause | .shadowst | .rbase => Passed s .S))

/-- R148: TRAP enters the task's handler when TRAPVEC.EN is 1 and TRAPCAUSE.INH is 0, after the landing check of its line, and
otherwise raises cause 0x12 with the code in the record. -/
def Obligations.TrapEntry : Prop :=
  ∀ (s : State) (code : BitVec 13),
    let handler : W64 := s.here.trapvec &&& 0x0000FFFFFFFFFFE0
    let allowed := s.here.trapvec.getLsbD 0 = true ∧ s.here.trapcause.getLsbD 63 = false
    (allowed → ∀ s' bs, fetchLine s s.cur handler.toNat = .line s' bs → lineLands bs = true →
      IssuesTo (.trap code) s
        (Bank.issued { nextLine s handler with
          trapret := linesOn s 1
          trapcause := (1 : BitVec 1) ++ (0 : BitVec 39) ++ (0x12 : BitVec 8) ++ (0 : BitVec 3) ++ code } .S)) ∧
    (allowed → ∀ s' bs, fetchLine s s.cur handler.toNat = .line s' bs → lineLands bs = false →
      TrapsWith (.trap code) s .S (causeAt 0x0D handler)) ∧
    (allowed → ∀ c, fetchLine s s.cur handler.toNat = .bad c → TrapsWith (.trap code) s .S (causeAt c handler)) ∧
    (¬ allowed → TrapsWith (.trap code) s .S { causeAt 0x12 0 with aux := code.setWidth 32 })

/-- R149 whole, with its encodings: TRET clears INH and returns to TRAPRET's line without a landing check, or raises cause 0x02 while
INH is 0; NOP takes an issue slot and changes nothing. -/
def Obligations.TrapReturnAndNop : Prop :=
  decodeUnit 1 (s32Word 0x16 0 0 0 0) = some .tret ∧ decodeUnit 1 (s32Word 0x17 0 0 0 0) = some .nop ∧
  (∀ x, x < 2 ^ 32 → x / 2 ^ 25 = 0x16 ∨ x / 2 ^ 25 = 0x17 → x % 2 ^ 25 ≠ 0 → decodeUnit 1 x = none) ∧
  ∀ s : State,
    (s.here.trapcause.getLsbD 63 = true →
      IssuesTo .tret s
        (Bank.issued { nextLine s (s.here.trapret &&& 0x0000FFFFFFFFFFE0) with
          trapcause := s.here.trapcause &&& 0x7FFFFFFFFFFFFFFF } .S)) ∧
    (s.here.trapcause.getLsbD 63 = false → TrapsWith .tret s .S (causeAt 0x02 0)) ∧
    IssuesTo .nop s (Passed s .S)

/-- R139, R141, R122: FENCE of a member releases at the group's level once the release wait is over. PHASE releases, counts its arrival
once, toggles GEN with the last arrival, and completes when GEN has changed; until then it waits in its place. A group that is not
declared, or of which the task is no member, raises cause 0x03. -/
def Obligations.PhaseAndFence : Prop :=
  ∀ (s : State) (g : BitVec 2),
    let gi := groupIndex s s.cur g
    let e := s.group gi
    (memberOf s s.cur g = false → TrapsWith (.phase g) s .S (causeAt 0x03 0) ∧ TrapsWith (.fence g) s .S (causeAt 0x03 0)) ∧
    (memberOf s s.cur g = true → releaseReady s.here = true →
      let r := phaseRelease s s.cur e.level.toNat
      (∃ t, exec (.fence g) s = .next t ∧ OnlyBank r t (r.here.issued .S)) ∧
      (s.here.sWait = .idle → e.arrived.toNat + 1 ≠ e.expect.toNat →
        ∃ t, exec (.phase g) s = .next t ∧ (t.group gi).arrived = e.arrived + 1 ∧ (t.group gi).gen = e.gen ∧
          t.here.sWait = .arrived e.gen ∧ t.here.sQueue = s.here.sQueue ∧ t.here.pend = [] ∧ t.mem = r.mem) ∧
      (s.here.sWait = .idle → e.arrived.toNat + 1 = e.expect.toNat → pendingOf s.here g = none →
        ∃ t, exec (.phase g) s = .next t ∧ (t.group gi).arrived = 0 ∧ (t.group gi).gen = !e.gen ∧
          t.here.sWait = .idle ∧ t.here.sQueue = s.here.sQueue.tail ∧ t.here.pend = [] ∧ t.mem = r.mem)) ∧
    (memberOf s s.cur g = true → ∀ gen, s.here.sWait = .arrived gen →
      (e.gen = gen → IssuesTo (.phase g) s (s.here.stalled .S false)) ∧
      (e.gen ≠ gen → pendingOf s.here g = none → IssuesTo (.phase g) s (Bank.issued { s.here with sWait := .idle } .S)))

/-! ## The vector unit -/

/-- R172 to R182, R194, R197, R198, R210, R170: an elementwise instruction issues and sends to its destination, at its latency, the
table's result of each active element of its sources; masked-off elements are not written; its queue sources are popped. -/
def Obligations.VectorElementwise : Prop :=
  ∀ (i : Instr) (s : State) (e : Elementwise) (vals : List VWord),
    elementwise i = some e → i.wf = true → Ready s e.d e.srcs e.m vals →
      SendsTo i s (Popped s.here e.srcs) e.lat e.d e.t.width e.t.count (governs s e.m)
        (fun j => e.f s.here.mode (vals.map fun v => elemAt e.t.width v j) % 2 ^ keptBits e.t)

/-- R183, R184: the widening instructions send element `e` of the result to slot `e div k` of register `e mod k` of their group. -/
def Obligations.WideningInstructions : Prop :=
  ∀ (i : Instr) (s : State) (x : Widening) (r : ElemType) (v w : VWord),
    widening i = some x → x.t.widened x.quad = some r →
    let k := if x.quad then 4 else 2
    CanIssue s .V → declares s x.d.toNat k → x.m.toNat < s.here.decl.m → s.here.hasSrc x.a = true → s.here.hasSrc x.b = true →
    sourceValue s x.a = some v → sourceValue s x.b = some w →
      SendsToGroup i s (Popped s.here [x.a, x.b]) 5 x.d.toNat k r.width x.t.count (governs s x.m)
        (fun e => x.result r s.here.mode (elemAt x.t.width v e) (elemAt x.t.width w e) (groupElem s r.width x.d.toNat k e) %
          2 ^ r.width)

/-- R186, R187, R112: VCMP and VCLASS send to their mask register the bit of each active element; the bits of masked-off elements and
those at or above the element count are not written. -/
def Obligations.ComparisonsAndClasses : Prop :=
  ∀ (s : State) (d m : BitVec 6) (a : VSrc) (t : ElemType) (v : VWord), CanIssue s .V → s.here.hasM [d, m] = true →
    s.here.hasSrc a = true → sourceValue s a = some v →
    (∀ cls, ∃ bits en, IssuesTo (.vclass d a m t cls) s (MaskTo (Popped s.here [a]) d bits en) ∧
      ∀ j < 1024, en.getLsbD j = (decide (j < t.count) && governs s m j) ∧
        (en.getLsbD j = true → bits.getLsbD j = cls.getLsbD (classOf (dec t (elemAt t.width v j))))) ∧
    (∀ b w p, s.here.hasSrc b = true → sourceValue s b = some w →
      ∃ bits en, IssuesTo (.vcmp d a b m t p) s (MaskTo (Popped s.here [a, b]) d bits en) ∧
        ∀ j < 1024, en.getLsbD j = (decide (j < t.count) && governs s m j) ∧
          (en.getLsbD j = true → bits.getLsbD j = compares p t (elemAt t.width v j) (elemAt t.width w j)))

/-- R188 to R190: the mask instructions send all 1,024 bits of their result, MSET from xq the tail mask of the word that it pops, and
MPOP and MFIRST send to cq the count and the lowest place of the set bits below the element count. -/
def Obligations.MaskInstructions : Prop :=
  ∀ s : State, CanIssue s .V →
    (∀ i d src v, maskLogic s.here i = some (d, src, v) → s.here.hasM (d :: src) = true →
      IssuesTo i s (MaskTo s.here d v (BitVec.allOnes 1024))) ∧
    (∀ d w r, s.here.hasM [d] = true → xqHead s w r →
      ∃ v, IssuesTo (.mset d .xq) s (MaskTo { s.here with xq := r } d v (BitVec.allOnes 1024)) ∧
        ∀ j < 1024, v.getLsbD j = decide (j < w.toNat)) ∧
    (∀ a t, s.here.hasM [a] = true → s.here.cq.length < 16 →
      let set := (List.range t.count).filter fun j => (s.here.mreg a).getLsbD j
      IssuesTo (.mpop a t) s (CqTo s.here 2 (.ofNat 64 set.length)) ∧
      IssuesTo (.mfirst a t) s (CqTo s.here 2 (match set with
        | [] => 0xFFFFFFFFFFFFFFFF
        | j :: _ => .ofNat 64 j)))

/-- R191 to R193: VCVT and VCVTS convert each active logical element, between single registers, from one register to a group, or from a
group to one register; VCVTS multiplies by the f32 that it pops from xq. -/
def Obligations.Conversions : Prop :=
  ∀ (s : State) (i : Instr) (d : VDst) (a : VSrc) (m : BitVec 6) (t src : ElemType) (c : Bank) (f : Nat → Nat) (v : VWord),
    i.wf = true →
    ((∃ sat, i = .vcvt d a m t src sat ∧ c = s.here ∧ f = fun x => convElem src t s.here.mode sat x) ∨
      (i = .vcvts d a m t src ∧ ∃ w r, xqHead s w r ∧ c = { s.here with xq := r } ∧
        f = fun x => roundElem t s.here.mode ((dec src x).mul (dec .f32 (w.toNat % 2 ^ 32))))) →
    CanIssue s .V → m.toNat < s.here.decl.m → canTake s d → s.here.hasSrc a = true → sourceValue s a = some v →
    (t.width = src.width →
      SendsTo i s (Popped c [a]) 4 d t.width t.count (governs s m) fun e => f (elemAt src.width v e) % 2 ^ keptBits t) ∧
    (src.width < t.width → ∀ n, d = .reg n → declares s n.toNat (t.width / src.width) →
      SendsToGroup i s (Popped c [a]) 4 n.toNat (t.width / src.width) t.width src.count (governs s m) fun e =>
        f (elemAt src.width v e) % 2 ^ keptBits t) ∧
    (t.width < src.width → ∀ n, a = .reg n → declares s n.toNat (src.width / t.width) →
      SendsTo i s c 4 d t.width t.count (governs s m) fun e =>
        f (groupElem s src.width n.toNat (src.width / t.width) e) % 2 ^ keptBits t)

/-- R195 to R198: the moves of raw elements. -/
def Obligations.Moves : Prop :=
  ∀ s : State, CanIssue s .V →
    (∀ d a b sel m t v w, canTake s d → s.here.hasM [sel, m] = true → s.here.hasSrc a = true → s.here.hasSrc b = true →
      sourceValue s a = some v → sourceValue s b = some w →
        SendsTo (.vsel d a b sel m t) s (Popped s.here [a, b]) 2 d t.width t.count (governs s m)
          fun j => rawElem t (if governs s sel j then v else w) j) ∧
    (∀ d a x m t v j c, canTake s d → s.here.hasM [m] = true → s.here.hasSrc a = true → sourceValue s a = some v →
      indexGives s x j c →
        SendsTo (.vbcast d a x m t) s (Popped c [a]) 3 d t.width t.count (governs s m) fun _ => rawElem t v j) ∧
    (∀ d m t w r, canTake s d → s.here.hasM [m] = true → xqHead s w r →
      SendsTo (.vsplat d m t) s { s.here with xq := r } 2 d t.width t.count (governs s m) fun _ => w.toNat % 2 ^ keptBits t) ∧
    (∀ a x t v j c, s.here.hasSrc a = true → sourceValue s a = some v → s.here.cq.length < 16 → indexGives s x j c →
      IssuesTo (.vextr a x t) s (CqTo (Popped c [a]) 3 (elemWord t.signed t.width (rawElem t v j)))) ∧
    (∀ d x m t j c w r, d.toNat < s.here.decl.v → s.here.hasM [m] = true → indexGives s x j c →
      (∃ e, c.xq = e :: r ∧ e.val = some w ∧ e.err = none) →
        SendsTo (.vins d x m t) s { c with xq := r } 3 (.reg d) t.width t.count (fun e => decide (e = j) && governs s m e)
          fun _ => w.toNat % 2 ^ keptBits t) ∧
    (∀ d n m t, canTake s d → s.here.hasM [m] = true →
      SendsTo (.vldi d n m t) s s.here 2 d t.width t.count (governs s m) fun _ =>
        (if t.isInt then (BitVec.ofInt t.width n.toInt).toNat else roundElem t s.here.mode (XVal.ofInt n.toInt)) % 2 ^ keptBits t)

/-- R199 to R203: permutes, slides, the reversal, VCOMPR and VEXPND. -/
def Obligations.Permutes : Prop :=
  ∀ (s : State) (a : VSrc) (v : VWord) (t : ElemType), CanIssue s .V → s.here.hasSrc a = true → sourceValue s a = some v →
    (∀ d m, canTake s d → s.here.hasM [m] = true →
      (∀ b, 1 < t.indexGroup → ∀ n, b = VSrc.reg n → declares s n.toNat t.indexGroup →
        let at_ := groupElem s 16 n.toNat t.indexGroup
        SendsTo (.vperm d a b m t) s (Popped s.here [a, b]) 3 d t.width t.count (governs s m) (fun j => rawElem t v (at_ j)) ∧
        ∀ c, s.here.hasSrc (.reg c) = true → ∀ y, sourceValue s (.reg c) = some y →
          SendsTo (.vperme d a b c m t) s (Popped s.here [a, b]) 3 d t.width t.count (governs s m)
            fun j => if at_ j < t.count then rawElem t v (at_ j) else rawElem t y (at_ j - t.count)) ∧
      (∀ b w, s.here.hasSrc b = true → sourceValue s b = some w →
        (t.indexGroup = 1 →
          let at_ := elemAt (if t.width = 32 then 32 else 16) w
          SendsTo (.vperm d a b m t) s (Popped s.here [a, b]) 3 d t.width t.count (governs s m) (fun j => rawElem t v (at_ j)) ∧
          ∀ c, s.here.hasSrc (.reg c) = true → ∀ y, sourceValue s (.reg c) = some y →
            SendsTo (.vperme d a b c m t) s (Popped s.here [a, b]) 3 d t.width t.count (governs s m)
              fun j => if at_ j < t.count then rawElem t v (at_ j) else rawElem t y (at_ j - t.count)) ∧
        ∀ x count k, indexGives s x count k →
          let c := min count t.count
          SendsTo (.vslup d a b x m t) s (Popped k [a, b]) 3 d t.width t.count (governs s m)
            (fun j => if c ≤ j then rawElem t v (j - c) else rawElem t w (t.count - c + j)) ∧
          SendsTo (.vsldn d a b x m t) s (Popped k [a, b]) 3 d t.width t.count (governs s m)
            (fun j => if j + c < t.count then rawElem t v (j + c) else rawElem t w (j + c - t.count))) ∧
      SendsTo (.vrev d a m t) s (Popped s.here [a]) 3 d t.width t.count (governs s m) (fun j => rawElem t v (t.count - 1 - j)) ∧
      (let chosen := (List.range t.count).filter (governs s m)
       let packed := fun j => match chosen[j]? with
         | some q => rawElem t v q
         | none => 0
       SendsTo (.vcompr d a m t false) s (Popped s.here [a]) 3 d t.width t.count (fun _ => true) packed ∧
       (s.here.cq.length < 16 → ∃ data en nib, Carries d t.width t.count (fun _ => true) packed data en nib ∧
         IssuesTo (.vcompr d a m t true) s (CqTo (Sending (Popped s.here [a]) 3 d data en nib) 3 (.ofNat 64 chosen.length))))) ∧
    (∀ d m, d.toNat < s.here.decl.v → s.here.hasM [m] = true →
      SendsTo (.vexpnd d a m t) s (Popped s.here [a]) 3 (.reg d) t.width t.count (governs s m)
        fun j => rawElem t v ((List.range j).filter (governs s m)).length)

/-- R204, R205: element `p` of the `k` registers from `vd` on, taken in order, of the interleaves and the de-interleaves. -/
def Obligations.Interleaves : Prop :=
  ∀ (s : State) (d a : BitVec 8) (t : ElemType) (k : Nat) (zip unzip : Instr), CanIssue s .V →
    ((k = 2 ∧ zip = .vzip2 d a t ∧ unzip = .vunzip2 d a t) ∨ (k = 3 ∧ zip = .vzip3 d a t ∧ unzip = .vunzip3 d a t) ∨
      (k = 4 ∧ zip = .vzip4 d a t ∧ unzip = .vunzip4 d a t)) →
    declares s d.toNat k → declares s a.toNat k →
    let source := fun j i => rawElem t (s.here.vreg (physical s (a.toNat + j))) i
    (∃ data, IssuesTo zip s (GroupTo s s.here 3 d.toNat k data fun _ => BitVec.allOnes 4096) ∧
      ∀ j < k, ∀ i < t.count, elemAt t.width (data ((k * i + j) / t.count)) ((k * i + j) % t.count) = source j i) ∧
    (∃ data, IssuesTo unzip s (GroupTo s s.here 3 d.toNat k data fun _ => BitVec.allOnes 4096) ∧
      ∀ j < k, ∀ i < t.count, elemAt t.width (data j) i = source ((k * i + j) / t.count) ((k * i + j) % t.count))

/-- R206, R207: VUNPK4 widens the nibbles of its mode, and VPACK4 narrows two registers to nibbles. -/
def Obligations.Nibbles : Prop :=
  ∀ (s : State) (d : VDst) (a : VSrc) (m : BitVec 6) (t : ElemType) (v : VWord), CanIssue s .V → canTake s d →
    s.here.hasM [m] = true → s.here.hasSrc a = true → sourceValue s a = some v → t = .s4 ∨ t = .z4 →
    (∀ mode : BitVec 2, SendsTo (.vunpk4 d a m t mode) s (Popped s.here [a]) 3 d 8 512 (governs s m) fun j =>
      let x := BitVec.ofNat 4 (elemAt 4 v ([j, 512 + j, 2 * j, 2 * j + 1].getD mode.toNat 0))
      if t = .s4 then (x.signExtend 8).toNat else x.toNat) ∧
    (∀ b w inter sat, s.here.hasSrc b = true → sourceValue s b = some w →
      SendsTo (.vpack4 d a b m t inter sat) s (Popped s.here [a, b]) 3 d 4 1024 (governs s m) fun j =>
        let x := if inter then elemAt 8 (if j % 2 = 0 then v else w) (j / 2) else elemAt 8 (if j < 512 then v else w) (j % 512)
        let y : Int := if t = .s4 then (BitVec.ofNat 8 x).toInt else x
        (BitVec.ofInt 4 (if sat then (if t = .s4 then max (-8) (min 7 y) else min 15 y) else y)).toNat)

/-- R169, R208, R209: a reduction combines the active elements, and the table's value at the other positions, in the fixed tree and
sends the result to element 0 of a register, to cq, or to both. -/
def Obligations.Reductions : Prop :=
  ∀ (s : State) (i : Instr) (d : RedDst) (a : VSrc) (m : BitVec 6) (t : ElemType) (v : VWord) (w : Nat) (signed : Bool) (r : Nat),
    (i = .vrsum d a m t ∨ i = .vrmax d a m t ∨ i = .vrmin d a m t ∨ i = .vramax d a m t) →
    reduction s.here.mode t (elemAt t.width v) (governs s m) i = some (w, signed, r) →
    CanIssue s .V → s.here.hasM [m] = true → s.here.hasSrc a = true → sourceValue s a = some v →
    reductionRoom s d → IssuesTo i s (ReductionTo s (Popped s.here [a]) d w signed (r % 2 ^ w))

/-- R211, R212: VSETMODE writes VMODE, and VDISC pops one entry of its load queue in each cycle and issues with the last one; a trap on a
queue without a feed names the entries that remain. -/
def Obligations.VectorControl : Prop :=
  ∀ s : State,
    (∀ rm sat, IssuesTo (.vsetmode (.imm rm sat)) s
      (Bank.issued { s.here with vmode := (0 : BitVec 60) ++ BitVec.ofBool sat ++ BitVec.ofNat 3 rm.code } .V)) ∧
    (∀ w r, xqHead s w r → IssuesTo (.vsetmode .xq) s
      (Bank.issued { s.here with
        xq := r
        vmode := (0 : BitVec 60) ++ w.extractLsb' 3 1 ++ (if (w.setWidth 3).toNat ≤ 4 then w.setWidth 3 else 0) } .V)) ∧
    (∀ q n, s.here.disc ≤ n.toNat →
      (∀ e r, s.here.loadQ q = e :: r → e.val.isSome = true →
        (s.here.disc = n.toNat → IssuesTo (.vdisc q n) s (Bank.issued { s.here.setLoadQ q r with disc := 0 } .V)) ∧
        (s.here.disc < n.toNat →
          IssuesTo (.vdisc q n) s (Bank.stalled { s.here.setLoadQ q r with disc := s.here.disc + 1 } .V false))) ∧
      ((s.here.loadQ q).head?.bind VEntry.val = none → heldStream s.here q = none →
        (s.here.pendingFeed (.lq q) = true → IssuesTo (.vdisc q n) s (s.here.stalled .V true)) ∧
        (s.here.pendingFeed (.lq q) = false →
          TrapsWith (.vdisc q n) s .V { causeAt 0x05 0 with aux := .ofNat 32 (n.toNat + 1 - s.here.disc) })))

/-- R213, R215, R217: a slice move reads the active elements of its row or column into its registers at latency 6, or writes them to the
tile six core cycles after its issue. -/
def Obligations.TileSlices : Prop :=
  ∀ (s : State) (i : Instr) (col wr : Bool) (t m : BitVec 6) (n : BitVec 8) (x : SliceIdx) (c : TileCfg) (j : Nat) (k : Bank),
    sliceMove i = some (col, wr, t, n, x, m) → CanIssue s .V → s.here.hasM [m] = true → tileReady s t c → sliceGives s x j k →
    j < slicesOf col c → n.toNat < s.here.decl.v → n.toNat + registersOf col c ≤ s.here.decl.v →
    registersOf col c ≤ 2 → c.ty = .f32 ∨ c.ty = .s32 ∨ c.ty = .bf16 →
    let size := tileSize c.ty
    let e := 512 / size
    (wr = false → s.here.accBad = [] →
      ∃ data en : Nat → VWord,
        IssuesTo i s (Bank.issued { k with
          flightV := k.flightV ++ (List.range (registersOf col c)).map fun r =>
            ⟨6, [.vreg (physical s (n.toNat + r)) (data r) (en r)]⟩ } .V) ∧
        (∀ q < lengthOf col c, governs s m q = true →
          elemAt (8 * size) (data (q / e)) (q % e) = halfElem s.here c (sliceOffset col c j q)) ∧
        ∀ q < registersOf col c * e, ∀ b < 8 * size,
          (en (q / e)).getLsbD (8 * size * (q % e) + b) = (decide (q < lengthOf col c) && governs s m q)) ∧
    (wr = true →
      ∃ bytes : List (Nat × Byte),
        IssuesTo i s (Bank.issued { k with flightQ := k.flightQ ++ [⟨6, [.tile bytes]⟩] } .V) ∧
        ∀ (o : Nat) (v : Byte), (o, v) ∈ bytes ↔
          ∃ q < lengthOf col c, governs s m q = true ∧ ∃ b < size, o = sliceOffset col c j q + b ∧
            v = .ofNat 8 (elemAt (8 * size) (s.here.vreg (physical s (n.toNat + q / e))) (q % e) / 256 ^ b))

/-- R213, R216, R217: TCFG configures a tile, TZERO writes zero to each of its elements, TREL makes it unconfigured; the faults of
R217. An instruction of an absent tile waits while the tile is restored. -/
def Obligations.TileConfiguration : Prop :=
  ∀ (s : State) (t : BitVec 6), t.toNat < s.here.decl.t → (∀ x ∈ s.here.mx, t ∉ x.tiles) →
    IssuesTo (.trel t) s ((s.here.setTile t.toNat .unconfigured).issued .V) ∧
    (∀ c, s.here.tile t.toNat = .absent c →
      (CanIssue s .V → exec (.tzero t) s = .next (conclude .V (.wait (restoreTile s s.cur t.toNat)))) ∧
      ∀ w r, xqHead s w r → exec (.tcfg t) s = .next (conclude .V (.wait (restoreTile s s.cur t.toNat)))) ∧
    ((∀ c, s.here.tile t.toNat ≠ .absent c) → (∀ c, s.here.tile t.toNat = .configured c → present s.here c) →
      (∀ w r, xqHead s w r →
        (¬ configLegal w → TrapsWith (.tcfg t) s .V (causeAt 0x02 0)) ∧
        (configLegal w →
          let c := configOf w
          let stop := c.base + c.rows * c.cols * tileSize c.ty
          (s.here.decl.acc < stop → TrapsWith (.tcfg t) s .V (causeAt 0x03 0)) ∧
          (stop ≤ s.here.decl.acc →
            IssuesTo (.tcfg t) s ((Bank.setTile { s.here with xq := r } t.toNat (.configured c)).issued .V)))) ∧
      (CanIssue s .V →
        (s.here.tile t.toNat = .unconfigured → TrapsWith (.tzero t) s .V (causeAt 0x0B 0)) ∧
        ∀ c, s.here.tile t.toNat = .configured c →
          ∃ bytes : List (Nat × Byte),
            IssuesTo (.tzero t) s (Bank.issued { s.here with flightQ := s.here.flightQ ++ [⟨6, [.tile bytes]⟩] } .V) ∧
            ∀ o v, (o, v) ∈ bytes ↔ v = 0 ∧ c.base ≤ o ∧ o < c.base + c.rows * c.cols * tileSize c.ty))

/-! ## The access unit -/

/-- R226, R96: address arithmetic modulo 2^64 at latency 1; a0 discards; AGET pops aq. -/
def Obligations.AddressArithmetic : Prop :=
  ∀ s : State, CanIssue s .A → NoHeldStore s →
    (∀ i d src v, addressResult s.here i = some (d, src, v) → s.here.hasA (d :: src) = true →
      IssuesTo i s ((Passed s .A).setA d v)) ∧
    ∀ d, s.here.hasA [d] = true →
      (∀ w r, wordHead s .aq w r → IssuesTo (.aget d) s ((Bank.issued { s.here with aq := r } .A).setA d w)) ∧
      (s.here.aq.head?.bind WordEntry.val = none → s.here.pendingFeed (.word .aq) = true → IssuesTo (.aget d) s (s.here.stalled .A true)) ∧
      (s.here.aq.head?.bind WordEntry.val = none → s.here.pendingFeed (.word .aq) = false → TrapsWith (.aget d) s .A (causeAt 0x05 0))

/-- R225, R331, R239: an access that fails a check faults at the address of the check, and one whose page the TLB lacks waits for a walk;
the rows of the table in their order, for an access within one page; entering leaves in the TLB changes nothing else. -/
def Obligations.AccessChecks : Prop :=
  (∀ (i : Instr) (s : State) (k : Access) (ea n al : Nat), accessOf s i = some (k, ea, n, al) → accessReady s i →
    (NoHeldStore s →
      (∀ c va, translate s s.cur k false ea n al = .bad c va → TrapsWith i s .A (causeAt c (.ofNat 64 va))) ∧
      ∀ va, translate s s.cur k false ea n al = .miss va →
        IssuesTo i s (Bank.stalled { s.here with walk := some va } .A false)) ∧
    ∀ f, heldStore s.here = some f → TrapsWith i s .A f) ∧
  (∀ (s : State) (row : Nat) (k : Access) (w : Bool) (ea n al : Nat),
    (2 ^ 48 ≤ ea → translate s row k w ea n al = .bad 0x07 ea) ∧
    (ea < 2 ^ 48 → ea % al ≠ 0 → translate s row k w ea n al = .bad 0x0E ea) ∧
    (ea < 2 ^ 48 → ea % al = 0 → 0 < n → ea % 65536 + n ≤ 65536 →
      (inScratch ea = true → translate s row k w ea n al =
        if (s.bank row).decl.dmem < ea - 0xFF0000000000 + n then .bad 0x03 (max ea (0xFF0000000000 + (s.bank row).decl.dmem))
        else .ok [⟨ea, n, .scratch (ea - 0xFF0000000000)⟩]) ∧
      (inScratch ea = false →
        (∀ c, leafFor s row (s.row row).asid w ea = .bad c → translate s row k w ea n al = .bad c ea) ∧
        ∀ pte base, leafFor s row (s.row row).asid w ea = .hit pte base →
          let pa := pteAddr pte + (ea - base)
          (pte.testBit k.pteBit = false ∨ targetOf s pa = none ∨
              (∃ t, targetOf s pa = some t ∧ hasRight s t k.right row (s.row row).asid = false) →
            translate s row k w ea n al = .bad 0x07 ea) ∧
          (∀ t, pte.testBit k.pteBit = true → targetOf s pa = some t → hasRight s t k.right row (s.row row).asid = true →
            (∀ j, boxOnly s k.writes pa n = some j → translate s row k w ea n al = .bad 0x07 (ea + j)) ∧
            (boxOnly s k.writes pa n = none →
              (k.writes = true → pteFcnt pte ≠ 0 → thawing s pa = false → translate s row k w ea n al = .bad 0x08 ea) ∧
              ((k.writes = true → pteFcnt pte = 0 ∨ thawing s pa = true) →
                translate s row k w ea n al = .ok [⟨ea, n, .phys pa (pte.testBit 58)⟩])))))) ∧
  ∀ (s : State) (l : List Seg), ∃ tlb, Touched s l = { s with tlb := tlb }

/-- R227, R228, R230, R468, R225: LDV and LDS reserve an entry, read the bytes of their address as the task's view holds them at issue,
and write LDV's update register; the data enter the entry when they arrive; a load that meets an atomic of the task waits. -/
def Obligations.Loads : Prop :=
  (∀ (s : State) (l : List Seg), NoHeldStore s →
    (∀ u a q off, accessReady s (.ldv u a q off) → translate s s.cur .read false (vectorAt s a off).toNat 512 64 = .ok l →
      (meetsAtomic s.here l = true → touchesSysreg s l = false →
        IssuesFrom (.ldv u a q off) s (Touched s l) (s.here.stalled .A false)) ∧
      (meetsAtomic s.here l = false → touchesSysreg s l = false → s.here.halting = false → ∃ data : VWord,
        IssuesFrom (.ldv u a q off) s (Touched s l)
          ((Bank.issued { s.here.reserveLoad q (s.here.lineNow .A) with
            loads := s.here.loads ++ [⟨s.here.nextId, some q, data, (segPoison s s.cur l).map fun _ => vectorAt s a off⟩] } .A).setA u (vectorAt s a off)) ∧
        ∀ j < 512, ∀ p, spotOf l j = some p → byteOf data.toNat j = readSpot s s.cur p)) ∧
    (∀ a w sx off, accessReady s (.lds a w sx off) →
      translate s s.cur .read false (scalarAt s a off).toNat w.bytes w.bytes = .ok l →
      (meetsAtomic s.here l = true → IssuesFrom (.lds a w sx off) s (Touched s l) (s.here.stalled .A false)) ∧
      (meetsAtomic s.here l = false → ∃ x : Nat,
        IssuesFrom (.lds a w sx off) s (Touched s l)
          (Bank.issued { s.here.reserveWord .rq with
            loads := s.here.loads ++ [⟨s.here.nextId, none,
              (if sx then BitVec.ofInt 64 (signedOf (8 * w.bytes) x) else BitVec.ofNat 64 x).setWidth 4096,
              (segPoison s s.cur l).map fun _ => scalarAt s a off⟩] } .A) ∧
        x < 256 ^ w.bytes ∧
        (inSysreg s l = none → ∀ j < w.bytes, ∀ p, spotOf l j = some p → byteOf x j = readSpot s s.cur p) ∧
        ∀ pa, inSysreg s l = some pa → ∀ j < w.bytes, byteOf x j = byteOf (regGet s (paDie (pa + j))
          ((paOff (pa + j) - 0x7F0000000000) / 8 * 8)) ((paOff (pa + j) - 0x7F0000000000) % 8)))) ∧
  ∀ (s : State) (row id : Nat) (p : PendLoad) (l r : List PendLoad), (s.bank row).loads = l ++ p :: r → p.id = id →
    (∀ x ∈ l ++ r, x.id ≠ id) →
      exec (.loadDataArrival row id) s = .next (s.modBank row fun b =>
        match p.q with
        | some q => Bank.setLoadQ { b with loads := l ++ r } q ((b.loadQ q).map fun e =>
            if e.id = id then { e with val := some p.data, en := 0, err := p.err } else e)
        | none => { b with loads := l ++ r
                           rq := b.rq.map fun e => if e.id = id then { e with val := some (p.data.setWidth 64), err := p.err } else e })

/-- R227, R228, R295, R304, R315, R324: STV and STS pop their entry and write it, nibble by nibble for STV, at the bytes of their address and
nowhere else, seen by the storing task only; a first store to a subpage asks for ownership and waits, and does not ask while a PHASE of the
task has freezes to apply; a store to a frozen page, one that
ownership is refused, and one that meets a lent range do not write. -/
def Obligations.Stores : Prop :=
  ∀ (s : State) (l : List Seg) (i : Instr) (ea n : Nat) (put : Nat → Option Byte) (after : Bank → Bank), NoHeldStore s →
    accessReady s i → s.here.halting = false → accessOf s i = some (.write, ea, n, if n = 512 then 64 else n) →
    translate s s.cur .write false ea n (if n = 512 then 64 else n) = .ok l →
    ((∃ u a q off e r, i = .stv u a q off ∧ s.here.storeQ q = e :: r ∧ put = nibbleMerge s l e ∧
        after = fun b => ((b.setStoreQ q r).issued .A).setA u (vectorAt s a off)) ∨
      ∃ a w off x r, i = .sts a w off ∧ wordHead s .ssq x r ∧ (put = fun j => some (byteOf x.toNat j)) ∧
        after = fun b => Bank.issued { b with ssq := r } .A) →
    (touchesSysreg s l = false →
    (∀ va, segsFrozen s s.cur l = some va →
      exec i s = .next (unitFault ((Touched s l).modHere fun b => { b with own := none }) .A (causeAt 0x08 (.ofNat 64 va)))) ∧
    (segsFrozen s s.cur l = none →
      (unowned s l ≠ [] →
        (∀ r p, s.here.own = some r → r.refused = some p →
          exec i s = .next (unitFault ((Touched s l).modHere fun b => { b with own := none }) .A
            (causeAt 0x09 (.ofNat 64 (refusedAt l ea p))))) ∧
        (∀ r, s.here.own = some r → r.refused = none →
          IssuesFrom i s (Touched s l) (Bank.stalled { s.here with own := some { r with subpages := unowned s l } } .A false)) ∧
        (s.here.own = none → freezesDue s.here = true → IssuesFrom i s (Touched s l) (Bank.stalled s.here .A false)) ∧
        (s.here.own = none → freezesDue s.here = false → IssuesFrom i s (Touched s l)
          (Bank.stalled { s.here with own := some ⟨unowned s l, l.map Seg.va, s.cycle, none⟩ } .A false))) ∧
      (unowned s l = [] → lentAt { s.here with own := none } ea n = true →
        IssuesFrom i s (Touched s l) (Bank.stalled { s.here with own := none } .A false)) ∧
      (unowned s l = [] → lentAt { s.here with own := none } ea n = false → ∃ t b stale,
        exec i s = .next t ∧ OnlyBank { Touched s l with stale := stale } t (after b) ∧ OnlyStores { s.here with own := none } b ∧
          Stored s t s.cur l n put))) ∧
    ∀ a w off x r pa, i = .sts a w off → wordHead s .ssq x r → inSysreg s l = some pa → ∃ t,
      exec i s = .next t ∧ OnlyBank (sysWrite (Touched s l) s.cur pa ((List.range w.bytes).map (byteOf x.toNat))) t
        (Bank.issued { s.here with ssq := r } .A)

/-- R229, R230, R309, R315, R334: an atomic pops its words and reserves its rq entry; at its home, when it is the oldest, it replaces the
bytes by the table's value as one step and fills the entry with the old value; on a frozen page it faults, during a migration or a
collection it waits, and an atomic answered moved is translated afresh. Copies that cores and dies hold reach the home first (log entry 17:
the model's choice). -/
def Obligations.Atomics : Prop :=
  (∀ (i : Instr) (s : State) (op : AtomicOp) (a : BitVec 5) (w8 : Bool) (l : List Seg), atomicOf i = some (op, a, w8) →
    NoHeldStore s → accessReady s i →
    translate s s.cur .atomic false (s.here.areg a).toNat (if w8 then 8 else 4) (if w8 then 8 else 4) = .ok l →
    (∀ va, segsFrozen s s.cur l = some va → exec i s = .next (unitFault (Touched s l) .A (causeAt 0x08 (.ofNat 64 va)))) ∧
    (segsFrozen s s.cur l = none →
      let n := if op = .cas then 2 else 1
      ∃ key v cmp, IssuesFrom i s (Touched s l) (Bank.issued { s.here with
          ssq := s.here.ssq.drop n
          rq := s.here.rq ++ [⟨s.here.nextId, s.here.lineNow .A, none, none⟩]
          nextId := s.here.nextId + 1
          atomics := s.here.atomics ++
            [⟨s.here.nextId, op, w8, (s.here.areg a).toNat, key, v, cmp, false, (s.here.headEntry .A).line, (s.here.headEntry .A).lane,
              false⟩] } .A) ∧
        (∀ p, spotOf l 0 = some p → key = if p.1 then 2 ^ 60 + p.2 else p.2) ∧
        (∀ e, s.here.ssq[n - 1]? = some e → ∀ x, e.val = some x → v = x.toNat % 2 ^ (if w8 then 64 else 32)) ∧
        ∀ e, s.here.ssq[0]? = some e → ∀ x, e.val = some x → cmp = x.toNat % 2 ^ (if w8 then 64 else 32))) ∧
  (∀ (s : State) (row : Nat) (a : PendAtomic) (rest : List PendAtomic), (s.bank row).atomics = a :: rest → a.moved = false →
    let n := if a.w8 then 8 else 4
    a.v < 256 ^ n → a.cmp < 256 ^ n →
    let fresh (old : Nat) : Nat := (atomicNew a.op (8 * n) (.ofNat _ old) (.ofNat _ a.v) (.ofNat _ a.cmp)).toNat
    let returned (b : Bank) (old : Nat) : Bank := { b with
      atomics := (s.bank row).atomics.filter fun x => x.id ≠ a.id
      rq := (s.bank row).rq.map fun e => if e.id = a.id then { e with val := some (.ofNat 64 old), err := none } else e }
    (a.pa < 2 ^ 60 → regionOf s a.pa ≠ .sysreg →
      (homeBusy s (a.pa / 4096) = true → exec (.atomicAtHome row a.id) s = .next s) ∧
      (homeBusy s (a.pa / 4096) = false → frozenAt s row a.va = true → (s.bank row).fault = none →
        exec (.atomicAtHome row a.id) s = .next (if (s.row row).state = .bound then s
          else takeFault (s.modBank row fun b => putAtomic b { a with refused := true }) row .A
            { causeAt 0x08 (.ofNat 64 a.va) with src := 3, lane := .ofNat 8 a.lane, line := a.line })) ∧
      (homeBusy s (a.pa / 4096) = false → frozenAt s row a.va = false →
        let r := fetchHome s a.pa n
        let old := r.homeNat a.pa n
        let inside (x : Nat) : Prop := a.pa ≤ x ∧ x < a.pa + n
        ((∃ i < n, badByte r (a.pa + i) (compressedAt r row a.va) = true) →
          exec (.atomicAtHome row a.id) s = .next (r.modBank row fun b => { b with
            atomics := b.atomics.filter fun x => x.id ≠ a.id
            rq := b.rq.map fun e => if e.id = a.id then { e with val := some (.ofNat 64 old), err := some (.ofNat 64 a.va) } else e })) ∧
        ((∀ i < n, badByte r (a.pa + i) (compressedAt r row a.va) = false) → ∃ t b,
          exec (.atomicAtHome row a.id) s = .next t ∧
          (∀ x, t.home x = if inside x then byteOf (fresh old) (x - a.pa) else r.home x) ∧
          t.bank row = returned b old ∧ b = { s.bank row with pend := b.pend, under := b.under } ∧
          (∀ x, b.pend.get none x = if inside x then none else (s.bank row).pend.get none x) ∧
          (∀ x, b.under.get none x =
            if inside x ∧ (s.bank row).pend.get none x ≠ none then (s.bank row).pend.get none x else (s.bank row).under.get none x) ∧
          ∀ k, k ≠ row → t.bank k = s.bank k))) ∧
    (2 ^ 60 ≤ a.pa → (∀ i < n, (s.bank row).scratchBad.get false (a.pa - 2 ^ 60 + i) = false) → ∃ t old,
      exec (.atomicAtHome row a.id) s = .next t ∧ (∀ j < n, byteOf old j = readSpot s row (true, a.pa - 2 ^ 60 + j)) ∧ old < 256 ^ n ∧
      (∀ x, readSpot t row (true, x) =
        if a.pa - 2 ^ 60 ≤ x ∧ x < a.pa - 2 ^ 60 + n then byteOf (fresh old) (x - (a.pa - 2 ^ 60)) else readSpot s row (true, x)) ∧
      t.bank row = returned { s.bank row with scratch := (t.bank row).scratch } old ∧ t = { s with banks := t.banks } ∧
      ∀ k, k ≠ row → t.bank k = s.bank k)) ∧
  ∀ (s : State) (row : Nat) (a : PendAtomic) (l r : List PendAtomic), (s.bank row).atomics = l ++ a :: r → (∀ x ∈ l, x.id ≠ a.id) →
    (∀ x ∈ r, x.id ≠ a.id) → a.moved = true →
    let s' := s.setTlb (coreOf row) ((s.tlbOf (coreOf row)).filter fun t => !t.covers (s.row row).asid a.va)
    let n := if a.w8 then 8 else 4
    (∀ c va, translate s' row .atomic true a.va n n = .bad c va → (s.bank row).fault = none →
      exec (.movedResend row a.id) s = .next (if (s.row row).state = .bound then s'
        else takeFault (s'.modBank row fun b => putAtomic b { a with refused := true }) row .A
          { causeAt c (.ofNat 64 va) with src := 3, lane := .ofNat 8 a.lane, line := a.line })) ∧
    ∀ segs p, translate s' row .atomic true a.va n n = .ok segs → spotOf segs 0 = some p → ∃ t,
      exec (.movedResend row a.id) s = .next t ∧ t = { s with banks := t.banks, tlb := t.tlb } ∧
      t.bank row = { s.bank row with
        atomics := l ++ { a with pa := if p.1 then 2 ^ 60 + p.2 else p.2, moved := false } :: r } ∧
      ∀ k, k ≠ row → t.bank k = s.bank k

/-- R237, R238: SDEF loads a descriptor, SSET writes one of its words, both only while the stream is inactive; SGO starts a stream at POS
on a target that no other stream feeds; SSTOP ends a load stream at its first element that was not delivered, and a store stream when
what was queued has been written; SSTAT places the status word in rq. -/
def Obligations.Streams : Prop :=
  ∀ (s : State) (st : BitVec 4), NoHeldStore s → st.toNat < s.here.decl.st →
    let x := s.here.stream st.toNat
    (∀ a, s.here.hasA [a] = true →
      (x.active = true → TrapsWith (.sdef st a) s .A (causeAt 0x02 0) ∧ ∀ w, TrapsWith (.sset st w a) s .A (causeAt 0x02 0)) ∧
      (x.active = false →
        (∀ l, translate s s.cur .read false (s.here.areg a).toNat 64 64 = .ok l → touchesSysreg s l = false →
          meetsAtomic s.here l = false →
          (∀ va, segPoison s s.cur l = some va → exec (.sdef st a) s = .next (unitFault (Touched s l) .A (causeAt 0x0F (s.here.areg a)))) ∧
          (segPoison s s.cur l = none → ∃ d : BitVec 512,
            IssuesFrom (.sdef st a) s (Touched s l) (Bank.issued (WithStream s.here st { x with desc := d }) .A) ∧
            ∀ j < 64, ∀ p, spotOf l j = some p → byteOf d.toNat j = readSpot s s.cur p)) ∧
        ∀ w, ∃ d : BitVec 512, IssuesTo (.sset st w a) s (Bank.issued (WithStream s.here st { x with desc := d }) .A) ∧
          ∀ k < 8, descWord d k = if k = w.toNat then s.here.areg a else descWord x.desc k)) ∧
    (∀ t,
      (x.active = true ∨ targetFed s.here t = true ∨ descIllegal x.desc t.toNat = true → TrapsWith (.sgo st t) s .A (causeAt 0x02 0)) ∧
      (x.active = false → targetFed s.here t = false → descIllegal x.desc t.toNat = false →
        (descMisaligned x.desc = true → TrapsWith (.sgo st t) s .A (causeAt 0x0E 0)) ∧
        (descMisaligned x.desc = false →
          let c := WithStream s.here st { x with
            active := decide (x.pos < (SDesc.of x.desc).n), held := false, target := t, part := none, drain := none }
          IssuesTo (.sgo st t) s (Bank.issued { c with
            mxa := if t = 16 then some st else s.here.mxa
            mxw := if t = 17 then some st else s.here.mxw } .A)))) ∧
    (x.active = false → IssuesTo (.sstop st) s (Bank.issued { s.here with aWait := .idle } .A)) ∧
    (x.active = true → x.loads = true → IssuesTo (.sstop st) s (Bank.issued (match x.part with
      | none => WithStream s.here st { x with active := false, held := false, drain := none }
      | some e => WithStream (s.here.setLoadQ (x.target.setWidth 3) ((s.here.loadQ (x.target.setWidth 3)).filter fun v => decide (v.id ≠ e.id))) st
          { x with desc := descSetPos x.desc (x.pos - e.count), active := false, held := false, part := none, drain := none }) .A)) ∧
    (x.active = true → x.loads = false → x.drain = none →
      let n := (s.here.storeQ ((x.target - 8).setWidth 3)).length
      (n = 0 → IssuesTo (.sstop st) s (Bank.issued { WithStream s.here st { x with active := false } with aWait := .idle } .A)) ∧
      (n ≠ 0 → IssuesTo (.sstop st) s
        (Bank.stalled { WithStream s.here st { x with drain := some n } with aWait := .stopping st } .A false))) ∧
    (s.here.rq.length < 16 → IssuesTo (.sstat st) s (Bank.issued { s.here with
      rq := s.here.rq ++ [⟨s.here.nextId, s.here.lineNow .A, none, none⟩]
      nextId := s.here.nextId + 1
      flightQ := s.here.flightQ ++ [⟨1, [.word .rq s.here.nextId
        (BitVec.ofBool x.active ++ BitVec.ofBool x.held ++ (0 : BitVec 14) ++ BitVec.ofNat 48 x.pos)]⟩] } .A))

/-- R234, R238, R239: a load stream fetches the elements of its next entry from their places and enters it into its queue, is held at the
element that faults, or waits at one that meets an atomic of its task; a store stream writes the enabled elements of the oldest entry at their places, in walk order, and pops it. -/
def Obligations.StreamElements : Prop :=
  ∀ (s : State) (row : Nat) (st : BitVec 4),
    let b := s.bank row
    let x := b.stream st.toNat
    let d := SDesc.of x.desc
    x.active = true → x.held = false → x.pos < d.n →
    (x.target.toNat < 8 → x.part = none →
      let q := x.target.setWidth 3
      let touched (k : Nat) := touchElems s row d x.pos (x.pos + k)
      (∀ k, ∃ tlb, touched k = { s with tlb := tlb }) ∧
      ((b.loadQ q).length < 8 →
        ∀ code : Nat → Nat,
          (∀ k, EntryOf d x.pos k → (∀ j < k, readPlace s row d.ty (d.place (x.pos + j)) = .ok (code j) none) → ∃ v : VWord,
            holdsCodes d.ty.width v k code ∧
            exec (.streamFetch row st) s = .next ((touched k).setBank row (WithStream
              { (b.setLoadQ q (((b.loadQ q).map fun e => if e.id = b.nextId then ⟨e.id, e.line, some v, 0, none⟩ else e) ++
                  [⟨b.nextId, 0, some v, 0, none⟩])) with nextId := b.nextId + 1 } st
              { x with desc := descSetPos x.desc (x.pos + k), active := decide (x.pos + k < d.n) }))) ∧
          ∀ k, (∀ j < k, readPlace s row d.ty (d.place (x.pos + j)) = .ok (code j) none) → k < d.slots →
            (∀ j < k, d.entryEnds (x.pos + j) (j + 1) = false) → ∃ v, (∀ j < k, elemAt d.ty.width v j = code j) ∧
            let y : Stream := { x with
              desc := descSetPos x.desc (x.pos + k), active := decide (x.pos + k < d.n), part := some ⟨b.nextId, v, k, none⟩ }
            (∀ c va, readPlace s row d.ty (d.place (x.pos + k)) = .bad c va →
              exec (.streamFetch row st) s = .next ((touched k).setBank row (WithStream (b.reserveLoad q 0) st
                { y with held := true, cause := .ofNat 8 c, addr := .ofNat 64 va }))) ∧
            (readPlace s row d.ty (d.place (x.pos + k)) = .wait →
              exec (.streamFetch row st) s = .next ((touched k).setBank row (WithStream (b.reserveLoad q 0) st y)))) ∧
      (8 ≤ (b.loadQ q).length → exec (.streamFetch row st) s = .next s)) ∧
    (8 ≤ x.target.toNat → x.target.toNat < 16 → x.part = none → x.drain = none →
      let q := (x.target - 8).setWidth 3
      ∀ (e : VEntry) (r : List VEntry) (v : VWord) (k : Nat) (u : Nat → State), b.storeQ q = e :: r → e.val = some v → EntryOf d x.pos k →
        u 0 = s →
        (∀ j < k, let mask := slotMask d.ty e.en j
          (mask = 0 → u (j + 1) = u j) ∧
          (mask ≠ 0 → writePlace (u j) row (lentAt b) d.ty (d.place (x.pos + j)) (elemAt d.ty.width v j) mask = .ok (u (j + 1)))) →
        exec (.streamStore row st) s = .next ((u k).modBank row fun c => WithStream (c.setStoreQ q (c.storeQ q).tail) st
          (Stream.at { c.stream st.toNat with part := none, drain := none } (x.pos + k))))

/-- R232, R331, R333: a prefetch changes translations at most; TLBSYNC publishes at package level and waits for the 36 acknowledgements; an
access unit that is told drops every leaf of the address space and the walks in flight, and acknowledges; a walk that ends in a leaf enters
it. -/
def Obligations.TranslationsInTheTlb : Prop :=
  (∀ (s : State) (a : BitVec 5) (lv : BitVec 2), NoHeldStore s → s.here.hasA [a] = true →
    (∀ l, translate s s.cur .read true (s.here.areg a).toNat 1 1 = .ok l → IssuesFrom (.pft a lv) s (Touched s l) (Passed s .A)) ∧
    ((∀ l, translate s s.cur .read true (s.here.areg a).toNat 1 1 ≠ .ok l) → IssuesTo (.pft a lv) s (Passed s .A))) ∧
  (∀ s : State, NoHeldStore s →
    ((∀ l, s.here.aWait ≠ .invalidating l) →
      (s.here.atomics ≠ [] → IssuesTo .tlbsync s (s.here.stalled .A false)) ∧
      (s.here.atomics = [] →
        let r := releaseAt s s.cur 2
        IssuesFrom .tlbsync s r (Bank.stalled { r.here with aWait := .invalidating (List.range 36) } .A false))) ∧
    (∀ c l, s.here.aWait = .invalidating (c :: l) → IssuesTo .tlbsync s (s.here.stalled .A false)) ∧
    (s.here.aWait = .invalidating [] → IssuesTo .tlbsync s (Bank.issued { s.here with aWait := .idle } .A))) ∧
  (∀ (s : State) (core : Nat) (asid : Asid), ∃ t, exec (.invalidate core asid) s = .next t ∧
    t = { s with tlb := t.tlb, banks := t.banks } ∧
    (∀ c, t.tlbOf c = if c = core then (s.tlbOf c).filter fun x => x.asid != asid else s.tlbOf c) ∧
    ∀ r < 72, t.bank r = { s.bank r with
      walk := if r / 2 = core ∧ (s.row r).asid = asid then none else (s.bank r).walk
      aWait := match (s.bank r).aWait with
        | .invalidating l => .invalidating (if (s.row r).asid = asid then l.filter (· ≠ core) else l)
        | w => w }) ∧
  ∀ (s : State) (core : Nat) (asid : Asid) (va : Nat), ∃ t, exec (.pageWalk core asid va) s = .next t ∧
    t = { s with tlb := t.tlb, banks := t.banks } ∧
    (∀ pte base size at_, walk s asid va = .leaf pte base size at_ → ∀ c,
      t.tlbOf c = if c = core then tlbPut (s.tlbOf c) ⟨asid, base, size, .ofNat 64 pte⟩ else s.tlbOf c) ∧
    (∀ c, walk s asid va = .bad c → t.tlb = s.tlb) ∧
    ∀ r, t.bank r = { s.bank r with
      walk := if r / 2 = core ∧ (s.row r).asid = asid ∧ (s.bank r).walk = some va then none else (s.bank r).walk }

/-- R318 to R322: FRZ records a pending freeze of a legal range all of whose pages pass, or faults; THW lowers the leaves of its range one
after the other and ends when none is being collected; a PHASE raises the leaves of its pending freezes in order; a holder writes back and
acknowledges. -/
def Obligations.Freezing : Prop :=
  (∀ (s : State) (a l : BitVec 5) (g : BitVec 2), NoHeldStore s → s.here.hasA [a, l] = true → memberOf s s.cur g = true →
    let base := (s.here.areg a).toNat
    let len := (s.here.areg l).toNat
    let done := fun t => IssuesTo (.frz a l g) s t
    (len = 0 → done (Passed s .A) ∧ IssuesTo (.thw a l g) s (Passed s .A)) ∧
    (len ≠ 0 →
      (base % 65536 ≠ 0 ∨ len % 65536 ≠ 0 →
        TrapsWith (.frz a l g) s .A (causeAt 0x0E (.ofNat 64 base)) ∧ TrapsWith (.thw a l g) s .A (causeAt 0x0E (.ofNat 64 base))) ∧
      (base % 65536 = 0 → len % 65536 = 0 → ¬ rangeLegal base len →
        TrapsWith (.frz a l g) s .A (causeAt 0x07 (.ofNat 64 base)) ∧ TrapsWith (.thw a l g) s .A (causeAt 0x07 (.ofNat 64 base))) ∧
      (rangeLegal base len → (∀ k < len / 65536, pageFreezable s s.cur (base + 65536 * k)) →
        (8 ≤ s.here.freezes.length → TrapsWith (.frz a l g) s .A (causeAt 0x13 0)) ∧
        (s.here.freezes.length < 8 → done (Bank.issued { s.here with
          freezes := s.here.freezes ++ [⟨(s.row s.cur).asid, base, len, g, 0⟩] } .A))) ∧
      (rangeLegal base len → ∀ k < len / 65536, (∀ j < k, pageFreezable s s.cur (base + 65536 * j)) →
        ¬ pageFreezable s s.cur (base + 65536 * k) → ∃ c, TrapsWith (.frz a l g) s .A (causeAt c (.ofNat 64 (base + 65536 * k))) ∧
          (c = 0x06 ∨ c = 0x07)) ∧
      (rangeLegal base len → ∀ from_ leaves, (s.here.aWait = .thawing from_ leaves ∨ (s.here.aWait = .idle ∧ from_ = base ∧ leaves = [])) →
        base ≤ from_ →
        (from_ < base + len → ∀ pte vbase size at_, walk s (s.row s.cur).asid from_ = .leaf pte vbase size at_ →
          (∀ k < (min (base + len) (vbase + size) - from_) / 65536, pageFreezable s s.cur (from_ + 65536 * k)) →
          (collecting s (pteAddr pte) = true →
            IssuesTo (.thw a l g) s (Bank.stalled { s.here with aWait := .thawing from_ leaves } .A false)) ∧
          (collecting s (pteAddr pte) = false → 1 ≤ pteFcnt pte →
            let r := leafCounted s pte size at_ (pteFcnt pte - 1) (pteFcnt pte = 1)
            IssuesFrom (.thw a l g) s r (Bank.stalled { s.here with
              aWait := .thawing (vbase + size) (leaves ++ if pteFcnt pte = 1 then [pteAddr pte] else []) } .A false)) ∧
          (collecting s (pteAddr pte) = false → pteFcnt pte = 0 →
            exec (.thw a l g) s = .next (unitFault (s.modHere fun b => { b with aWait := .thawing from_ leaves }) .A
              (causeAt 0x13 (.ofNat 64 from_))))) ∧
        (base + len ≤ from_ →
          (leaves.any (collecting s) = true →
            IssuesTo (.thw a l g) s (Bank.stalled { s.here with aWait := .thawing from_ leaves } .A false)) ∧
          (leaves.any (collecting s) = false → s.dual = false ∨ (s.group (groupIndex s s.cur g)).level ≠ 3 →
            IssuesTo (.thw a l g) s (Bank.issued { s.here with aWait := .idle } .A)))))) ∧
  (∀ (s : State) (row : Nat) (g : BitVec 2) (f : PendFreeze) (from_ : Nat) (leaves : List Nat), (s.row row).state = .running →
    (s.bank row).fault = none → phaseGroup (s.bank row) = some g → (s.bank row).sWait = .freezing from_ leaves →
    pendingOf (s.bank row) g = some f → f.base ≤ from_ →
    let r := { s with cur := row }
    (from_ < f.base + f.len → ∀ pte vbase size at_, walk s f.asid from_ = .leaf pte vbase size at_ →
      (extentOwned s (pteAddr pte) size = true ∨ collecting s (pteAddr pte) = true → exec (.freezeApplication row) s = .next r) ∧
      (extentOwned s (pteAddr pte) size = false → collecting s (pteAddr pte) = false →
        (pteFcnt pte = 15 → exec (.freezeApplication row) s = .next (unitFault r .S (causeAt 0x13 (.ofNat 64 from_)))) ∧
        (pteFcnt pte < 15 → exec (.freezeApplication row) s =
          .next ((leafCounted r pte size at_ (pteFcnt pte + 1) (pteFcnt pte = 0)).modBank row fun b => { b with
            sWait := .freezing (vbase + size) (leaves ++ if pteFcnt pte = 0 then [pteAddr pte] else []) })))) ∧
    (f.base + f.len ≤ from_ → s.dual = false ∨ (s.group (groupIndex s row g)).level ≠ 3 →
      (leaves.any (collecting s) = true → exec (.freezeApplication row) s = .next r) ∧
      (leaves.any (collecting s) = false → exec (.freezeApplication row) s = .next (r.modBank row fun b => { b with
        freezes := dropPending g b.freezes, sWait := .freezing 0 [] })))) ∧
  (∀ (s : State) (holder : Nat) (c : Collect) (l r : List Collect), s.collects = l ++ c :: r → (∀ x ∈ l ++ r, x.leaf ≠ c.leaf) →
    holder ∈ c.holders → ∃ t, exec (.collect holder c.leaf) s = .next t ∧
      t.collects = l ++ { c with holders := c.holders.filter (· ≠ holder) } :: r ∧
      (∀ x, x < c.leaf ∨ c.leaf + c.size ≤ x → t.home x = s.home x) ∧ t.banks = s.banks ∧ t.tt = s.tt) ∧
  ∀ (s : State) (c : Collect) (l r : List Collect), s.collects = l ++ c :: r → (∀ x ∈ l ++ r, x.leaf ≠ c.leaf ∧ x.outstanding ≠ 0) →
    c.holders.length < c.outstanding → exec (.collectAck c.leaf) s = .next { s with
      collects := l ++ (if c.outstanding = 1 then [] else [{ c with outstanding := c.outstanding - 1 }]) ++ r }


/-! ## Waits, launching and the doorbell -/

/-- R140, R141, R43, R142, R41, R117: WAITC faults as its pseudocode says, ends at once where the counter has reached the target and
holds otherwise, until WAITC_COMPLETION finds it reached; LAUNCH releases at system scope, makes its checks in their order, answers a
full queue with 1 and otherwise copies the record into slot TAIL and advances TAIL; a doorbell is taken within its bounds, and sets OVF
or MISUSE otherwise; REALIGN sends its request and waits until 20 cycles after the cycle 64 cycles on that the control die fixes. -/
def Obligations.WaitsLaunchAndRealign : Prop :=
  (∀ (s : State) (a t : BitVec 6), s.here.hasS [a, t] = true → s.here.sWait = .idle →
    let ea := (s.here.sreg a).toNat
    (ea % 16 ≠ 0 → TrapsWith (.waitc a t) s .S (causeAt 0x0E (s.here.sreg a))) ∧
    (∀ c v, ea % 16 = 0 → translate s s.cur .read true ea 8 1 = .bad c v → TrapsWith (.waitc a t) s .S (causeAt c (.ofNat 64 v))) ∧
    (∀ g r, ea % 16 = 0 → translate s s.cur .read true ea 8 1 = .ok (g :: r) →
      let at_ := locKey g.loc 0
      (releaseReady s.here = false → IssuesFrom (.waitc a t) s (Touched s (g :: r)) (s.here.stalled .S false)) ∧
      (releaseReady s.here = true → (s.here.sreg t).toNat ≤ counterAt s s.cur at_ →
        IssuesFrom (.waitc a t) s (Touched s (g :: r)) (Passed s .S)) ∧
      (releaseReady s.here = true → counterAt s s.cur at_ < (s.here.sreg t).toNat → IssuesFrom (.waitc a t) s (Touched s (g :: r))
        (Bank.stalled { s.here with sWait := .counting at_ (s.here.sreg t) } .S false)))) ∧
  (∀ (s : State) (row at_ : Nat) (t : W64), (s.row row).state = .running → (s.bank row).fault = none →
    (s.bank row).sWait = .counting at_ t →
    (t.toNat ≤ counterAt s row at_ → IssuesFrom (.waitcCompletion row) s { s with cur := row }
      (Bank.issued { s.bank row with sWait := .idle } .S)) ∧
    (counterAt s row at_ < t.toNat → exec (.waitcCompletion row) s = .next { s with cur := row })) ∧
  (∀ (s : State) (y : BitVec 4) (n a : BitVec 6), s.here.hasS [n, a] = true → s.here.hasC [y] = true → CanIssue s .S →
    releaseReady s.here = true →
    let r := phaseRelease s s.cur 2
    let k := (s.here.sreg n).toNat
    let q := r.queue k
    let ea := (s.here.sreg a).toNat
    let open_ := k < 16 ∧ q.devfeed = true ∧ q.en = true ∧ ea % 256 = 0
    (16 ≤ k → exec (.launch y n a) s = .next (unitFault r .S (causeAt 0x02 0))) ∧
    (k < 16 → ¬ (q.devfeed = true ∧ q.en = true) → exec (.launch y n a) s = .next (unitFault r .S (causeAt 0x07 0))) ∧
    (k < 16 → q.devfeed = true → q.en = true → ea % 256 ≠ 0 →
      exec (.launch y n a) s = .next (unitFault r .S (causeAt 0x0E (s.here.sreg a)))) ∧
    (open_ → (q.tail - q.head).toNat = 2 ^ q.sizelog.toNat → IssuesFrom (.launch y n a) s r ((r.here.issued .S).setC y true)) ∧
    (open_ → (q.tail - q.head).toNat ≠ 2 ^ q.sizelog.toNat → ∀ c v, translate r r.cur .read true ea 256 256 = .bad c v →
      exec (.launch y n a) s = .next (unitFault r .S (causeAt c (.ofNat 64 v)))) ∧
    (open_ → (q.tail - q.head).toNat ≠ 2 ^ q.sizelog.toNat → ∀ l, translate r r.cur .read true ea 256 256 = .ok l →
      touchesSysreg r l = true → exec (.launch y n a) s = .next (unitFault r .S (causeAt 0x07 (s.here.sreg a)))) ∧
    (open_ → (q.tail - q.head).toNat ≠ 2 ^ q.sizelog.toNat → ∀ l, translate r r.cur .read true ea 256 256 = .ok l →
      touchesSysreg r l = false →
      let slot := q.base.toNat * 4096 + 256 * (q.tail.toNat % 2 ^ q.sizelog.toNat)
      ∃ p t, OnlyMemory { Touched r l with
          lnq := p.lnq, agenda := s.agenda ++ [.event .schedulingPass] } p ∧
        (∀ x, p.home x = if slot ≤ x ∧ x < slot + 256 then (segBytes r r.cur l).getD (x - slot) 0 else r.home x) ∧
        p.queue k = { q with tail := q.tail + 1, sender := q.sender ++ [(q.tail, (s.row s.cur).asid)] } ∧
        (∀ j, j ≠ k → p.queue j = r.queue j) ∧
        exec (.launch y n a) s = .next t ∧ OnlyBank p t ((r.here.issued .S).setC y false))) ∧
  (∀ (s : State) (k : BitVec 4) (tail : BitVec 32),
    let q := s.queue k.toNat
    let up := (tail - q.tail).toNat
    let ok := 1 ≤ up ∧ up ≤ 2 ^ q.sizelog.toNat ∧ (tail - q.head).toNat ≤ 2 ^ q.sizelog.toNat
    (q.devfeed = true → exec (.doorbell k tail) s = .next (s.setQueue k.toNat { q with misuse := true })) ∧
    (q.devfeed = false → ¬ ok → exec (.doorbell k tail) s = .next (s.setQueue k.toNat { q with ovf := true })) ∧
    (q.devfeed = false → ok → exec (.doorbell k tail) s = .next { s.setQueue k.toNat { q with tail := tail } with
      agenda := s.agenda ++ [.event (if s.devstat.pwr = 3 then .wake else .schedulingPass)] })) ∧
  (∀ (s : State) (a t : BitVec 6), s.here.hasS [a, t] = true →
    let set := s.here.sreg a
    (s.here.sWait = .idle → (s.row s.cur).pinned = false → TrapsWith (.realign a t) s .S (causeAt 0x07 0)) ∧
    (s.here.sWait = .idle → (s.row s.cur).pinned = true → set = 0 ∨ 512 ≤ set.toNat →
      TrapsWith (.realign a t) s .S (causeAt 0x02 0)) ∧
    (s.here.sWait = .idle → (s.row s.cur).pinned = true → set ≠ 0 → set.toNat < 512 →
      IssuesFrom (.realign a t) s { s with realigns := s.realigns ++ [⟨set.setWidth 9, s.here.sreg t, s.cur⟩] }
        (Bank.stalled { s.here with sWait := .realigning none } .S false)) ∧
    (∀ p, s.here.sWait = .realigning (some p) →
      (p < s.cycle → IssuesTo (.realign a t) s (Bank.issued { s.here with sWait := .idle } .S)) ∧
      (s.cycle ≤ p → IssuesTo (.realign a t) s (s.here.stalled .S false)))) ∧
  ∀ (s : State) (x : RealignReq) (rest : List RealignReq), s.realigns = x :: rest → (s.bank x.row).sWait = .realigning none →
    ∃ t, exec .realignRequest s = .next t ∧ OnlyBank { s with
        realigns := rest, dccSets := s.dccSets ++ [⟨s.cycle + 64, x.dies, x.count, x.row⟩], cur := x.row }
      { t with cur := x.row } { s.bank x.row with sWait := .realigning (some (s.cycle + 84)) } ∧ t.cur = s.cur

/-! ## Steps, decoding and what every step keeps -/

/-- Log entry 8, R72, R73, R94, R119: a step runs the act at the head of the agenda. A unit that may issue runs the instruction that the
word at its queue's head decodes to, on behalf of its row; a word that decodes to nothing raises an illegal-instruction fault; a unit
that may not issue does nothing; an engine runs the command of the entry it serves, or its write phase or follow-on; an event that names an agent of the device runs; with the agenda
empty the next core cycle begins. -/
def Obligations.StepRunsInstruction : Prop :=
  ∀ (s : State) (rest : List Act),
    (∀ row u q l, s.agenda = .issue row u :: rest → row < 72 → (s.bank row).queue u = q :: l →
      let r := { s with agenda := rest, cur := row }
      ((s.bank row).stopped u = false → unitMayIssue s row u = true →
        (∀ i, decodeUnit q.tag.toNat q.word.toNat = some i → step s = exec i r) ∧
        (decodeUnit q.tag.toNat q.word.toNat = none → step s = .next (unitFault r u (faultOf 0x02 0)))) ∧
      ((s.bank row).stopped u = true ∨ unitMayIssue s row u = false → step s = .next { s with agenda := rest })) ∧
    (∀ row e id x, s.agenda = .engine row e id :: rest → row < 72 → ((s.bank row).engQ e).find? (fun x => decide (x.id = id)) = some x →
      let r := { s with agenda := rest, cur := row }
      (entryMayRun s row e x = false → step s = .next { s with agenda := rest }) ∧
      (entryMayRun s row e x = true →
        (x.state = .staged → step s = exec (.writePhase row) r) ∧
        (x.state = .following → step s = exec (.followOnEntry row) r) ∧
        (x.state = .waiting ∨ x.state = .held ∨ x.state = .putting ∨ (∃ due c, x.state = .running due c) ∨
            (∃ st ws, x.state = .ending st ws) ∨ (∃ t, x.state = .permitWait t) →
          ∀ i, x.instr e = some i → step s = exec i r))) ∧
    (∀ i, s.agenda = .event i :: rest → i.wf = true → step s = exec i { s with agenda := rest }) ∧
    (s.agenda = [] → step s = .next (tick s))

/-- R78 to R82, R86 to R90: words of the spec's encodings and the instructions that they are. -/
def Obligations.DecodeWords : Prop :=
  decodeUnit 1 0x4028BFFF = some (.addi 5 5 0x1FFF) ∧
  decodeUnit 1 0x82200000 = some (.brc 1 false 0) ∧
  decodeUnit 1 0x14090000 = some (.push .mx 8 1) ∧
  decodeUnit 2 0xFFFFFFFF04300001 = some (.loopr 6 1 0xFFFFFFFF) ∧
  decodeUnit 3 0x20042001 = some (.ldv 0 4 1 1) ∧
  decodeUnit 3 0x60450000 = some (.sdef 2 5) ∧
  decodeUnit 5 0x00028040C0006400 = some (.vadd (.reg 10) (.lq 1 false) (.reg 3) 0 .bf16) ∧
  decodeUnit 5 0x2582000000007000 = some (.vsigm (.reg 8) (.reg 0) 0)

/-- R78 to R92: decoding an encoded well-formed instruction of a unit, or an encoded well-formed engine command, gives it back, with
every operand at every value that its encoding admits. -/
def Obligations.RoundTrip : Prop :=
  ∀ i : Instr, i.wf = true →
    (∀ tag w, encode i = some (tag, w) → decodeUnit tag w = some i) ∧
    (∀ e ws, encodeCmd i = some (e, ws) → decodeCmd e ws = some i)

/-- R223, R295, log entry 2: every step keeps memory in its one form, addresses rising and no cell listed at the value that an unlisted
address reads as, so that memories that read alike are equal. -/
def Obligations.StepKeepsMemoryForm : Prop :=
  ∀ s t : State, Memory.wf s.mem = true → step s = .next t → Memory.wf t.mem = true

/-- R466, R27, R95, R30, R39, R59, R115, R150 and log entries 1 to 6: the state right after reset. Every bank is free and its registers
read zero, but for m0 and c0 and the constant register of each file; memory lists nothing; the timetable is free; DT and every DCC are
0; no queue is enabled and SIZELOG is 1; KIMGPOL is 0xFF00; and cold start is the first act. -/
def Obligations.ResetState : Prop :=
  let s := State.reset
  Memory.wf s.mem = true ∧ (∀ pa, s.home pa = 0) ∧ s.agenda = [.event .coldStart] ∧
  (∀ r, s.row r = Row.reset ∧ (s.row r).state = .free) ∧
  (∀ r n, (s.bank r).sreg n = 0) ∧ (∀ r n, (s.bank r).areg n = 0) ∧ (∀ r n, (s.bank r).vreg n = 0) ∧
  (∀ r n, (s.bank r).creg n = decide (n = 0)) ∧ (∀ r n, (s.bank r).mreg n = if n = 0 then MWord.ones else 0) ∧
  (∀ r, (s.bank r).trapvec = 0 ∧ (s.bank r).trapcause = 0 ∧ (s.bank r).trapret = 0 ∧ (s.bank r).tcc = 0 ∧ (s.bank r).rb = 0) ∧
  s.dt = 0 ∧ (∀ k, s.dcc.get 0 k = 0) ∧ s.kimgpol = 0xFF00 ∧
  (∀ q, let x := s.lnq.get LaunchQueue.reset q; x.en = false ∧ x.sizelog = 1 ∧ x.tail = 0 ∧ x.head = 0) ∧
  s.devstat.ready = false ∧ s.devstat.stage = 0

/-- R49, R95: one bank's instructions do not touch another bank. An issue of a row leaves the registers, the queues and the stored
bytes of every other bank as they were, and the timetable row of every other task. -/
def Obligations.OtherBanksUntouched : Prop :=
  ∀ (s t : State) (row : Nat) (u : UnitId) (rest : List Act), s.agenda = .issue row u :: rest → step s = .next t →
    ∀ r, r ≠ row → t.bank r = s.bank r ∧ t.row r = s.row r

/-! ## Tasks and their cores -/

/-- R51, R53, R143, R144, R442, R46: HALT issues once the A and V instructions up to its line have, makes the task halting and idles the
core; its steps then follow one another, each when what it waits for is over: results and loads land, open shadow sets are resolved,
streams stop, store streams write out, the release at system scope is made and the data queues are discarded, the commands end. YIELD
makes the task bound, with the line after its own next, and idles the core. A halted task whose commands have ended, and a task being
terminated, retire: the bank and the row are free, the core is idle and the launch counts the task. -/
def Obligations.Ending : Prop :=
  (∀ s : State, (∀ k, s.here.sWait ≠ .halting k) →
    (s.here.aQueue = [] → s.here.vQueue = [] → ∃ t, exec .halt s = .next t ∧ OnlyTask s t s.cur
      (Bank.stalled { s.here with sWait := .halting 1 } .S false)
      { s.row s.cur with state := .halting }) ∧
    (s.here.aQueue ≠ [] ∨ s.here.vQueue ≠ [] → IssuesTo .halt s (s.here.stalled .S false))) ∧
  (∀ (s : State) (k : Nat) (f : FaultRec), s.here.sWait = .halting k → heldStore s.here = some f → TrapsWith .halt s .S f) ∧
  (∀ (s : State) (k : Nat), s.here.sWait = .halting k → heldStore s.here = none →
    let at_ := fun (b : Bank) => Bank.stalled { b with sWait := .halting (k + 1) } .S false
    let waits := IssuesTo .halt s (s.here.stalled .S false)
    (k ≤ 1 → (nothingInFlight s.here = true → IssuesTo .halt s (at_ s.here)) ∧ (nothingInFlight s.here = false → waits)) ∧
    (k = 2 → (s.here.shadows = 0 → IssuesTo .halt s (at_ s.here)) ∧
      (∀ n, openSet s.here = some n → (16 ≤ s.here.mx.length → waits) ∧ (s.here.mx.length < 16 →
        IssuesTo .halt s (Bank.stalled { pushResolve s.here n false s.cycle with shadows := s.here.shadows &&& ~~~setBit n } .S false)))) ∧
    (k = 3 → IssuesTo .halt s (at_ (stopStreams s.here))) ∧
    (k = 4 → ((∀ p ∈ s.here.streams, p.2.active = false) → IssuesTo .halt s (at_ s.here)) ∧
      ((∃ p ∈ s.here.streams, p.2.active = true) → waits)) ∧
    (k = 5 → let r := phaseRelease s s.cur 2
      IssuesFrom .halt s r (at_ (discardQueues r.here))) ∧
    (6 ≤ k → waits)) ∧
  (∀ s : State, ∃ t, exec .yield s = .next t ∧ OnlyTask s t s.cur (Bank.issued (nextLine s (linesOn s 1)) .S)
    { s.row s.cur with state := .bound, since := s.cycle }) ∧
  (∀ (s : State) (row : Nat), (s.bank row).dying = none → (s.row row).state = .halting → (s.bank row).fault = none →
    (s.bank row).faults = [] →
    ((∃ e, (s.bank row).engQ e ≠ []) ∨ haltDone (s.bank row) = false → exec (.retirement row) s = .next s) ∧
    (noCommands (s.bank row) → haltDone (s.bank row) = true → ∀ l, s.launchOf (s.bank row).launch = some l → l.retired + 1 ≠ l.own →
      ∃ t, exec (.retirement row) s = .next t ∧ (∀ r, t.bank r = if r = row then (s.bank row).retired else s.bank r) ∧
        (∀ r, t.row r = if r = row then { s.row row with state := .free, halted := false } else s.row r) ∧
        (∀ c, t.coreAt c = if c = coreOf row then leftBy (s.coreAt c) row else s.coreAt c) ∧ t.mem = s.mem ∧
        t.launches = s.launches.map (fun x => if x.id = l.id then { l with retired := l.retired + 1 } else x))) ∧
  (∀ (s : State) (row : Nat) (c : BitVec 8), (s.bank row).dying = some c →
    ((∃ e, (s.bank row).engQ e ≠ []) ∨ (s.bank row).atomics ≠ [] → exec (.retirement row) s = .next s) ∧
    (noCommands (s.bank row) → (s.bank row).atomics = [] → ∀ l, s.launchOf (s.bank row).launch = some l → l.retired + 1 ≠ l.own →
      ∃ t, exec (.retirement row) s = .next t ∧ (∀ r, t.bank r = if r = row then { (s.bank row).retired with pend := [], under := [] } else s.bank r) ∧
        (∀ r, t.row r = if r = row then { s.row row with state := .free, halted := false } else s.row r) ∧
        t.mem = (releaseAt s row 2).mem ∧ t.launches = s.launches.map (fun x => if x.id = l.id then { l with retired := l.retired + 1 } else x))) ∧
  ∀ b : Bank, (∀ e, b.retired.fifo e = []) ∧ b.retired.freezes = [] ∧ b.retired.scratch = [] ∧ b.retired.sQueue = [] ∧ b.retired.aQueue = [] ∧
    b.retired.vQueue = [] ∧ b.retired.fault = none ∧ b.retired.dying = none ∧
    b.retired.sregs = b.sregs ∧ b.retired.cregs = b.cregs ∧ b.retired.aregs = b.aregs ∧ b.retired.vregs = b.vregs ∧ b.retired.mregs = b.mregs ∧
    b.retired.tiles = b.tiles ∧ b.retired.acc = b.acc ∧ b.retired.tcc = b.tcc

/-- R429, R430, R432, R52, R53, R108, R433, R435: taking a fault writes the completed record of 64 bytes at the save area, stops the unit,
makes the row waiting for cause 0x06 and faulted for any other, and the core leaves the bank; with a fault outstanding only the unit stops;
a stall of more than 65,536 cycles is a fault of cause 0x04; an engine's kept fault is taken once none is outstanding; RETRY and SKIP make
the row bound, or halting when it was, with the ANSWER byte written; TERMINATE discards what has not issued and leaves the row to its
retirement. -/
def Obligations.Faults : Prop :=
  (∀ f : FaultRec, f.bytes.length = 64 ∧ field f.bytes 0 1 = f.cause.toNat ∧ field f.bytes 1 1 = f.src.toNat ∧
    field f.bytes 2 1 = f.lane.toNat ∧ field f.bytes 3 1 = f.flags.toNat ∧ field f.bytes 4 4 = f.aux.toNat ∧
    field f.bytes 8 8 = f.line.toNat ∧ field f.bytes 16 8 = f.addr.toNat ∧ field f.bytes 24 1 = f.opc.toNat ∧
    field f.bytes 25 1 = f.qpos.toNat ∧ field f.bytes 26 2 = 0 ∧ field f.bytes 28 4 = f.start.toNat ∧ field f.bytes 32 8 = f.pos.toNat ∧
    field f.bytes 40 4 = f.sub.toNat ∧ field f.bytes 44 1 = f.layer.toNat ∧ field f.bytes 45 1 = f.node.toNat ∧
    field f.bytes 46 1 = f.stream.toNat ∧ field f.bytes 47 1 = 0 ∧ field f.bytes 48 8 = f.tcc.toNat ∧ field f.bytes 56 1 = f.answer.toNat ∧
    field f.bytes 57 7 = 0) ∧
  (∀ (s : State) (row : Nat) (u : UnitId) (f : FaultRec), noTimedCommands (s.bank row) →
    let g := recordOf (s.bank row) f
    OnlyTask (s.homeWriteBytes ((s.row row).save.toNat * 4096) g.bytes) (takeFault s row u f) row
      { (s.bank row).setStop u true with fault := some g }
      { s.row row with
        state := if (s.row row).state = .saving then .saving else if f.cause = 0x06 then .waiting else .faulted
        halted := (s.row row).halted || decide ((s.row row).state = .halting) }) ∧
  (∀ (s : State) (u : UnitId) (f : FaultRec),
    let h := s.here.headEntry u
    let src : BitVec 8 := match u with | .S => 2 | .A => 3 | .V => 4
    (s.here.fault = none → unitFault s u f = takeFault s s.cur u { f with src := src, lane := .ofNat 8 h.lane, line := h.line }) ∧
    (s.here.fault ≠ none → OnlyBank s (unitFault s u f) (s.here.setStop u true))) ∧
  (∀ (s : State) (row : Nat) (u : UnitId),
    (65536 < (s.bank row).stall u → exec (.queueDeadlock row u) s =
      .next (unitFault ({ s with cur := row }.modBank row fun b => b.setStall u 0) u { causeAt 0x04 0 with
        aux := match decodeUnit ((s.bank row).headEntry u).tag.toNat ((s.bank row).headEntry u).word.toNat with
          | some (.vdisc _ n) => .ofNat 32 (n.toNat + 1 - (s.bank row).disc)
          | _ => 0 })) ∧
    ((s.bank row).stall u ≤ 65536 → exec (.queueDeadlock row u) s = .next s)) ∧
  (∀ (s : State) (row : Nat), (s.bank row).fault = none →
    (∀ e f rest, (s.bank row).faults = (e, f) :: rest → exec (.engineFaultReport row) s =
      .next (if (s.row row).state = .bound then s else takeFault (s.setBank row { s.bank row with faults := rest }) row .S f)) ∧
    ((s.bank row).faults = [] → exec (.engineFaultReport row) s = .next s)) ∧
  (∀ (s : State) (row : Nat) (f : FaultRec), Awaits s row f →
    let at_ := (s.row row).save.toNat * 4096 + 56
    (f.cause ≠ 0x06 → ∃ t, exec (.answerRetry row) s = .next t ∧ OnlyRow (s.homeWriteBytes at_ [1]) t row
      (dispatchNext s (resumeUnits (s.bank row))) (boundAgain s (s.row row))) ∧
    (f.cause = 0x06 → (∃ pte base size w, walk s (s.row row).asid f.addr.toNat = .leaf pte base size w) →
      ∃ t, exec (.answerRetry row) s = .next t ∧ OnlyRow (s.homeWriteBytes at_ [1]) t row
        (dispatchNext s (resumeUnits (s.bank row))) (boundAgain s (s.row row))) ∧
    (f.cause = 0x12 → ∃ t, exec (.answerSkip row) s = .next t ∧ OnlyRow (s.homeWriteBytes at_ [2]) t row
      (dispatchNext s (resumeUnits { s.bank row with
        sQueue := (s.bank row).sQueue.tail
        fetch := { (s.bank row).fetch with
          next := .ofNat 64 ((((s.bank row).headEntry .S).line.toNat + 32) % 2 ^ 48) } })) (boundAgain s (s.row row))) ∧
    (f.cause ≠ 0x12 → exec (.answerSkip row) s = .next s)) ∧
  (∀ b : Bank, b.faults = [] → (∀ st < 16, (b.stream st).held = false) →
    resumeUnits b = { b with fault := none, stopS := false, stopA := false, stopV := false, blocked := 0 }) ∧
  ∀ (s : State) (row : Nat) (f : FaultRec), Awaits s row f → (∀ g, (s.bank row).sWait ≠ .arrived g) →
    let b := s.bank row
    ∃ q, OnlyRow { s with launches := q.launches } q row { b with
        sQueue := [], aQueue := [], vQueue := [], sWait := .idle, aWait := .idle, loads := [], walk := none, own := none
        atomics := if atomicsSettled b then [] else b.atomics
        streams := b.streams.mapVal Stream.reset fun x => { x with active := false, held := false, part := none, drain := none }
        dying := some f.cause } (s.row row) ∧
      (∀ l, s.launchOf b.launch = some l → q.launches = s.launches.map fun x => if x.id = l.id then { l with
        faulted := l.faulted + 1, firstTask := l.firstTask <|> some (s.row row).task.toNat
        cause := if l.firstTask.isNone then f.cause else l.cause } else x) ∧
      (s.launchOf b.launch = none → q.launches = s.launches) ∧
      (noCommands b → exec (.terminate row) s = .next q) ∧
      ∀ x : EngEntry, (∀ e, b.engQ e = if e = .mx then [x] else []) → x.state = .waiting → x.started = false → x.pos = 0 → x.sub = 0 →
        x.resolve = none → x.done = 0 →
        ∃ t, exec (.terminate row) s = .next t ∧ noCommands (t.bank row) ∧ (t.bank row).dying = some f.cause ∧
          t.mem = (releaseAt q row 2).mem

/-- R69, R71, R70, R72, R27, R98, R102, R104, R303, R304: a line is fetched, checked for its form and, at entry, for its landing bit,
and placed whole in the unit queues when each has room; a result lands when its last cycle passes; the directory has a
request wait at a moving or collected page of which the row holds nothing, gives it back when a page is frozen, and else grants it whole
when no other row holds any of its subpages and refuses it whole otherwise; copies that cores and dies hold reach the home first. -/
def Obligations.LinesLandingsAndOwnership : Prop :=
  (∀ (s : State) (row : Nat), ¬ Dispatches s row → exec (.lineDispatch row) s = .next s) ∧
  (∀ (s : State) (row : Nat), Dispatches s row →
    let b := s.bank row
    let at_ := b.fetch.next
    (∀ c v, translate s row .fetch true at_.toNat 32 32 = .bad c v →
      exec (.lineDispatch row) s = .next (takeFault s row .S (lineRecord c at_.toNat))) ∧
    ∀ l, translate s row .fetch true at_.toNat 32 32 = .ok l →
      (segPoison s row l ≠ none → exec (.lineDispatch row) s = .next (takeFault s row .S (lineRecord 0x0F at_.toNat))) ∧
      (segPoison s row l = none →
        let bs := segBytes s row l
        (lineLegal bs = false → exec (.lineDispatch row) s = .next (takeFault (tlbTouch s row l) row .S (lineRecord 0x01 at_.toNat))) ∧
        (lineLegal bs = true → b.fetch.entry = true → bs.headD 0 &&& 1 = 0 →
          exec (.lineDispatch row) s = .next (takeFault (tlbTouch s row l) row .S (lineRecord 0x0D at_.toNat))) ∧
        (lineLegal bs = true → (b.fetch.entry = true → bs.headD 0 &&& 1 = 1) →
          let r := tlbTouch s row l
          let l := lineEntries bs at_ b.rb 8 1 b.nextSeq
          let of (u : UnitId) := l.filter fun e => unitOfTag e.tag.toNat == some u
          ((∀ u, (b.queue u).length + (of u).length ≤ 32) → ∃ t, exec (.lineDispatch row) s = .next t ∧ OnlyRow r t row { b with
            sQueue := b.sQueue ++ ((of .S).filter (fun e => !e.isHalt) ++ (of .S).filter QEntry.isHalt)
            aQueue := b.aQueue ++ of .A, vQueue := b.vQueue ++ of .V, nextSeq := b.nextSeq + 8
            fetch := { b.fetch with next := .ofNat 64 ((at_.toNat + 32) % 2 ^ 48), entry := false } } (s.row row)) ∧
          ((∃ u, 32 < (b.queue u).length + (of u).length) → exec (.lineDispatch row) s = .next r)))) ∧
  (∀ (bs : List Byte) (line : W64) (rb : BitVec 7) (n : Nat), ∀ e ∈ lineEntries bs line rb 8 1 n,
    e.line = line ∧ e.rb = rb ∧ 1 ≤ e.lane ∧ e.lane ≤ 7 ∧ e.tag.toNat = laneTag bs e.lane ∧
    (e.tag = 1 ∨ e.tag = 3 → e.word.toNat = lineWord bs e.lane) ∧
    (e.tag = 2 ∨ e.tag = 4 ∨ e.tag = 5 → e.word.toNat = lineWord bs e.lane + 2 ^ 32 * lineWord bs (e.lane + 1))) ∧
  (∀ (s : State) (row : Nat),
    let q := fun l : List InFlight => (l.filter fun f => decide (1 < f.rem)).map fun f => { f with rem := f.rem - 1 }
    let due := fun l : List InFlight => (l.filter fun f => decide (f.rem ≤ 1)).flatMap InFlight.res
    let b := s.bank row
    let c := Bank.landAll { b with flightQ := q b.flightQ } (due b.flightQ)
    (b.halting = false → ∃ t, exec (.resultLanding row) s = .next t ∧ OnlyRow s t row c (s.row row)) ∧
    (b.halting = true → ∃ t, exec (.resultLanding row) s = .next t ∧
      OnlyRow s t row (((c.advance .S).advance .A).advance .V) (s.row row))) ∧
  ∀ (s : State) (row : Nat),
    ((s.bank row).own = none → exec (.ownershipRequest row) s = .next s) ∧
    ∀ r, (s.bank row).own = some r →
      let mine p := ∃ o ∈ s.owners p, o.row = row
      ((∃ p ∈ r.subpages, homeBusy s p = true ∧ ¬ mine p) → exec (.ownershipRequest row) s = .next s) ∧
      ((∀ p ∈ r.subpages, homeBusy s p = true → mine p) →
        ((∃ va ∈ r.vas, frozenAt s row va = true) → ∃ t, exec (.ownershipRequest row) s = .next t ∧
          OnlyRow s t row { s.bank row with own := none } (s.row row)) ∧
        ((∀ va ∈ r.vas, frozenAt s row va = false) →
          (∀ l p m, r.subpages = l ++ p :: m → (∀ x ∈ l, ∀ o ∈ s.owners x, o.row = row) → (∃ o ∈ s.owners p, o.row ≠ row) →
            ∃ t, exec (.ownershipRequest row) s = .next t ∧
              OnlyRow s t row { s.bank row with own := some { r with refused := some p } } (s.row row)) ∧
          ((∀ p ∈ r.subpages, ∀ o ∈ s.owners p, o.row = row) →
            let h := settle s (r.subpages.filter fun p => !ownedBy s row p)
            ∃ t, exec (.ownershipRequest row) s = .next t ∧ t = { h with dir := t.dir } ∧ OnlyMemory s h ∧
              (∀ p ∈ r.subpages, Owner.task row ∈ t.owners p ∧ ∀ o ∈ t.owners p, o.row = row) ∧
              ∀ p, p ∉ r.subpages → t.owners p = s.owners p)))

/-- R27, R49, R52, R53, R59, R436, R438, R440: a bind OP is accepted on a free row whose sibling allows it, and leaves the state at entry, or
the saved registers with RESUME; a preempt OP makes the row saving, and a switch OP makes the sibling bound again; an OP that is not
accepted changes OPERR alone; a save frees the bank and the row and records the preempted task; an idle core selects the bank that
has been bound longer and pays 8 cycles for another than the last. -/
def Obligations.Contexts : Prop :=
  let refused (s : State) (row : Nat) (t : State) := OnlyRow s t row (s.bank row) { s.row row with operr := true, op := 0 }
  (∀ (s : State) (row : Nat), bindAccepted s row = false → ∃ t, exec (.bindOp row) s = .next t ∧ refused s row t) ∧
  (∀ (s : State) (row : Nat), bindAccepted s row = ((s.row row).state == .free && ((s.row (siblingOf row)).state == .free ||
    (!(s.row (siblingOf row)).pinned && !(s.row row).pinned)))) ∧
  (∀ (s : State) (row : Nat) (l : Launch), bindAccepted s row = true → (s.row row).resume = false → rowLaunch s (s.row row) = some l →
    let h := fwBytes (s.modRow row fun r => { r with operr := false, op := 0, halted := false, bindAt := s.cycle }) l.asid l.image 128
    ∃ t, exec (.bindOp row) s = .next t ∧ t = { s with banks := t.banks, tt := t.tt, gt := t.gt, shared := t.shared } ∧
      (∀ r, r ≠ row → t.bank r = s.bank r) ∧
      (∀ r, t.row r = if r = row then { s.row row with
        state := if (s.row row).hold then .waiting else .bound, operr := false, op := 0, halted := false, bindAt := s.cycle
        since := s.cycle } else s.row r) ∧
      (∀ n, (t.bank row).sreg n = if n = 1 then .ofNat 64 (s.row row).task.toNat else if n = 2 then .ofNat 64 l.tasks
        else if n = 3 then l.arg else 0) ∧
      (∀ n, (t.bank row).areg n = if n = 1 then .ofNat 64 (l.image + field h 0x14 4) else if n = 2 then l.argblk else 0) ∧
      (∀ n, (t.bank row).vreg n = 0) ∧ (∀ n, n ≠ 0 → (t.bank row).creg n = false) ∧ (t.bank row).mreg 0 = MWord.ones ∧
      (∀ n, n ≠ 0 → (t.bank row).mreg n = 0) ∧ (t.bank row).rb = 0 ∧ (t.bank row).vmode = 0 ∧ (t.bank row).tcc = 0 ∧
      (t.bank row).scratch = [] ∧ (t.bank row).acc = [] ∧ (∀ q, (t.bank row).wordQ q = []) ∧ (∀ q, (t.bank row).loadQ q = []) ∧
      (∀ q, (t.bank row).storeQ q = []) ∧ (∀ u, (t.bank row).queue u = []) ∧ noCommands (t.bank row) ∧
      (t.bank row).decl = declOf h ∧ (t.bank row).info = taskInfo (s.row row) ∧ (t.bank row).fetch.entry = true ∧
      (t.bank row).fetch.next = .ofNat 64 (l.image + field h 0xC 4 + field h 0x1C 4) ∧ s.cycle < (t.bank row).fetch.ready) ∧
  (∀ (s : State) (row key : Nat) (b : Bank), bindAccepted s row = true → (s.row row).resume = true → (s.row row).hold = false →
    s.homeNat (saveAddr s row + 0x4000) 8 = key + 1 → s.saves.get none key = some b → b.copies = [] → b.fault = none →
    let at_ := saveAddr s row
    ∃ t, exec (.bindOp row) s = .next t ∧ t.mem = s.mem ∧ (∀ r, r ≠ row → t.bank r = s.bank r ∧ t.row r = s.row r) ∧
      ((t.row row).state = .bound ∨ (t.row row).state = .halting) ∧
      (∀ n, n ≠ 0 → (t.bank row).sreg n = .ofNat 64 (s.homeNat (at_ + 0x200 + 8 * n.toNat) 8)) ∧
      (∀ n, n ≠ 0 → (t.bank row).areg n = .ofNat 64 (s.homeNat (at_ + 0x400 + 8 * n.toNat) 8)) ∧
      (∀ n < 256, (t.bank row).vreg n = .ofNat 4096 (s.homeNat (at_ + 0x20000 + 512 * n) 512)) ∧
      (∀ n, n ≠ 0 → (t.bank row).mreg n = .ofNat 1024 (s.homeNat (at_ + 0x1000 + 128 * n.toNat) 128)) ∧
      (t.bank row).tcc = .ofNat 64 (s.homeNat (at_ + 0x48) 8) ∧ (t.bank row).vmode = .ofNat 64 (s.homeNat (at_ + 0x50) 8) ∧
      (t.bank row).trapvec = .ofNat 64 (s.homeNat (at_ + 0x60) 8) ∧ (t.bank row).trapcause = .ofNat 64 (s.homeNat (at_ + 0x68) 8) ∧
      (t.bank row).trapret = .ofNat 64 (s.homeNat (at_ + 0x70) 8) ∧
      (t.bank row).fetch.next = .ofNat 64 (s.homeNat (at_ + 0x40) 8) ∧
      (∀ u, (t.bank row).queue u = b.queue u) ∧ (∀ u, (t.bank row).flight u = b.flight u) ∧ (∀ e, (t.bank row).engQ e = b.engQ e) ∧
      (t.bank row).decl = b.decl ∧ (t.bank row).info = taskInfo (s.row row) ∧ (t.bank row).launch = b.launch) ∧
  (∀ (s : State) (row : Nat),
    ((s.row row).state ≠ .free → (s.row row).state ≠ .saving → (s.row row).pinned = false →
      ∃ t, exec (.preemptOp row) s = .next t ∧ OnlyTask s t row (s.bank row) { s.row row with
        state := .saving, halted := (s.row row).halted || decide ((s.row row).state = .halting), operr := false, op := 0
        leftAt := s.dt.toNat }) ∧
    ((s.row row).state = .free ∨ (s.row row).state = .saving ∨ (s.row row).pinned = true →
      ∃ t, exec (.preemptOp row) s = .next t ∧ refused s row t)) ∧
  (∀ (s : State) (row : Nat), let o := siblingOf row
    ((s.row row).state = .bound → (s.row o).state = .running → (s.row o).pinned = false →
      ∃ t, exec (.switchOp row) s = .next t ∧ t = { s with tt := t.tt, core := t.core } ∧
        (∀ r, t.row r = if r = o then { s.row o with state := .bound, since := s.cycle }
          else if r = row then { s.row row with operr := false, op := 0 } else s.row r) ∧
        ∀ c, t.coreAt c = if c = coreOf o then leftBy (s.coreAt c) o else s.coreAt c) ∧
    ((s.row row).state ≠ .bound ∨ (s.row o).state ≠ .running ∨ (s.row o).pinned = true →
      ∃ t, exec (.switchOp row) s = .next t ∧ refused s row t)) ∧
  (∀ (s : State) (row : Nat),
    ((s.row row).state ≠ .saving ∨ saveReady s (s.bank row) = false → exec (.contextSave row) s = .next s) ∧
    ((s.row row).state = .saving → saveReady s (s.bank row) = true → ∃ t, exec (.contextSave row) s = .next t ∧
      (∀ r, t.bank r = if r = row then Bank.reset else s.bank r) ∧
      (∀ r, t.row r = if r = row then { s.row row with state := .free, halted := false } else s.row r) ∧
      t.core = s.core ∧ t.launches = s.launches ∧ t.agenda = s.agenda ++ [.event .schedulingPass] ∧
      t.preempted = s.preempted ++ [{
        launch := (s.bank row).launch, task := (s.row row).task.toNat, save := (s.row row).save, halted := (s.row row).halted
        class_ := if (s.bank row).usedMx then some (match coreKind (coreOf row) with | .compute => 1 | .attention => 2 | .draft => 4) else none
        die := if (s.bank row).usedXg then some (dieOf row) else none
        core := coreOf row, asid := (s.row row).asid, gidx := (s.row row).gidx, gv := (s.row row).gv
        leftAt := (s.row row).leftAt }] ∧
      ∃ key b, t.saves = s.saves.set none key (some b) ∧ b.fault = (s.bank row).fault ∧ ∀ n, b.sreg n = (s.bank row).sreg n)) ∧
  ∀ (s : State) (core : Nat),
    let a := (s.row (2 * core)).state = .bound
    let b := (s.row (2 * core + 1)).state = .bound
    ((s.coreAt core).run ≠ none ∨ (¬ a ∧ ¬ b) → exec (.bankSwitch core) s = .next s) ∧
    ((s.coreAt core).run = none → ∀ bank : Bool, (if bank then b ∧ (a → (s.row (2 * core + 1)).since < (s.row (2 * core)).since)
        else a ∧ (b → (s.row (2 * core)).since ≤ (s.row (2 * core + 1)).since)) →
      ∃ t, exec (.bankSwitch core) s = .next t ∧ t = { s with tt := t.tt, core := t.core } ∧
        (∀ r, t.row r = if r = 2 * core + bank.toNat then { s.row r with state := .running } else s.row r) ∧
        ∀ c, t.coreAt c = if c = core then ⟨some bank, some bank, if (s.coreAt core).last = some (!bank) then 8 else 0⟩ else s.coreAt c)

/-! ## Engine commands -/

/-- R248, R252, R253, R254, R256, R257, R258, R261, R265, R266, R250: an MX entry that may start has its effect and completes after its time.
MSWAP exchanges the planes, MMODE writes the mode word, MTCFG configures its tile, MZT zeroes the extent it works on, MLW fills the standby
plane column by column from the draws, MMS and MMSA write their rows; each refuses what R261 names, in its order. The only entry of a bank
may start once no tile write from before its acceptance is in flight and, for a pass, a plane is loaded and the array pipe free. -/
def Obligations.WeightsAndPasses : Prop :=
  (∀ (s : State) (i : Instr) (x : EngEntry), s.here.mx = [x] → x.instr .mx = some i → x.state = .waiting →
    s.here.engBlocked .mx x.opc = false → x.timedUnstarted = false → s.here.fifoWaits .mx x = false →
    tileWritesBefore s s.here x = false →
    (∀ h a, i = .mms h a ∨ i = .mmsa h a → s.here.active.nc ≠ 0 ∧ pipeTaken (s.bank (s.cur ^^^ 1)) s.cycle = false) →
    MxServes s i x) ∧
  (∀ (h : CmdHdr) (t : BitVec 6) (st : BitVec 4) (n : BitVec 8) (p8 : Bool) (a : MmsArgs),
    MxCompletes (.mlw h st n p8) ∧ MxCompletes (.mms h a) ∧ MxCompletes (.mmsa h a) ∧ MxCompletes (.mzt h t)) ∧
  (∀ (s : State) (h : CmdHdr) (x : EngEntry), MxStarts s (.mswap h) x →
    MxEnds (.mswap h) s (s.modHere fun b => { b with active := b.standby, standby := b.active }) x) ∧
  (∀ (s : State) (h : CmdHdr) (rm : Rm) (f8sat isat : Bool) (x : EngEntry), MxStarts s (.mmode h rm f8sat isat) x →
    MxEnds (.mmode h rm f8sat isat) s
      (s.modHere fun b => { b with mxmode := .ofNat 5 (rm.code + 8 * f8sat.toNat + 16 * isat.toNat) }) x) ∧
  (∀ (s : State) (h : CmdHdr) (t : BitVec 6) (cfg : W64) (x : EngEntry), MxStarts s (.mtcfg h t cfg) x →
    let r := restoreTile s s.cur t.toNat
    ((∃ c ∈ r.here.copies, c.tile = t) → MxFails (.mtcfg h t cfg) s r x 0x11) ∧
    ((∀ c ∈ r.here.copies, c.tile ≠ t) → MxEnds (.mtcfg h t cfg) s
      (r.modHere fun b => b.setTile t.toNat (.configured (TileCfg.ofWord cfg.toNat))) x)) ∧
  (∀ (s : State) (h : CmdHdr) (t : BitVec 6) (x : EngEntry), MxStarts s (.mzt h t) x →
    (NoTile s t → MxFails (.mzt h t) s (restoreTile s s.cur t.toNat) x 0x0B) ∧
    (∀ r c, TileOf s t r c →
      (shadowConflict r.here x.shadow t.toNat = true → MxFails (.mzt h t) s r x 0x11) ∧
      (shadowConflict r.here x.shadow t.toNat = false → x.shadow ≠ 0 → copyOf r.here x.shadow t.toNat = none →
        makeCopy r x.shadow t c true = none → MxFails (.mzt h t) s r x 0x03) ∧
      (∀ p y d, WorksOn r x t c true p y d → MxTimed (.mzt h t) s (p.modHere fun b => b.writeAcc (zeroExtent d)) y
        (p.cycle + (max 1 (ceilDiv d.bytes 2048) - 1)) 0))) ∧
  (∀ (s : State) (h : CmdHdr) (st : BitVec 4) (ncM1 : BitVec 8) (p8 : Bool) (x : EngEntry), MxStarts s (.mlw h st ncM1 p8) x →
    let d := SDesc.of (s.here.stream st.toNat).desc
    let width := if p8 then 8 else d.ty.width
    let kc := planeDepth (bigArray s.cur) width
    let nc := ncM1.toNat + 1
    let legal := s.here.mxw = some st ∧ nc ≤ planeCols (bigArray s.cur) width ∧ passWidth width = true ∧ (p8 = true → d.ty.width = 4)
    (¬ legal → MxFails (.mlw h st ncM1 p8) s s x 0x11) ∧
    (legal → x.drawn = [] → let e := x.fixes 0 width d.ty false
      ∀ r l sh z, drawFor s mxwPort (kc * nc) e = (r, l, sh, z) →
      let y := if sh then ({ e with drawn := l.reverse } : EngEntry).flag mxShort else { e with drawn := l.reverse }
      (z = .complete → MxTimed (.mlw h st ncM1 p8) s
        (r.modHere fun b => { b with standby := ⟨nc, kc, d.ty, width, chunksOf kc nc l.reverse⟩ })
        { (if l.reverse.any Elt.bad then y.flag mxDerr else y) with drawn := [] } (s.cycle + (portEntries d (kc * nc) - 1) + 8) 0) ∧
      (z = .waits → exec (.mlw h st ncM1 p8) s = .next (mxWaits r y)) ∧
      (∀ c a, z = .stopped c a → exec (.mlw h st ncM1 p8) s = .next (stopAtStream r y mxwPort c a)))) ∧
  (∀ (kc nc j k : Nat) (l : List Elt) (z : Elt), j < nc → k < kc →
    ((chunksOf kc nc l).getD j []).getD k z = l.getD (j * kc + k) z) ∧
  (∀ (s : State) (h : CmdHdr) (a : MmsArgs) (add : Bool) (x : EngEntry), let i := if add then Instr.mmsa h a else .mms h a
    MxStarts s i x →
    (NoTile s a.tile → MxFails i s (restoreTile s s.cur a.tile.toNat) x 0x0B) ∧
    (∀ r c, TileOf s a.tile r c →
      let b := r.here
      let d := SDesc.of (b.stream a.astr.toNat).desc
      let m := a.mM1.toNat + 1
      let scaled := decide (d.sfmt ≠ 0)
      let f := x.fixes b.mxmode.toNat d.ty.width d.ty scaled
      let legal := b.mxa = some a.astr ∧ a.row0.toNat + m ≤ c.rows ∧ a.col0.toNat + b.active.nc ≤ c.cols ∧
        b.active.nc ≤ planeCols (bigArray r.cur) d.ty.width ∧ b.active.width = d.ty.width ∧
        (c.ty = .s32 ↔ integerChunk d.ty b.active.ty (scaled || b.active.scaled) = true)
      (¬ legal → MxFails i s r f 0x11) ∧
      (legal → shadowConflict b x.shadow a.tile.toNat = true → MxFails i s r f 0x11) ∧
      (legal → x.pos = 0 → ∀ p y e, WorksOn r f a.tile c false p y e →
        let copying := if x.shadow = 0 ∨ (copyOf b x.shadow a.tile.toNat).isSome then 0 else ceilDiv c.bytes 1024
        let taken := r.cycle + copying + m
        let due := taken - 1 + if coreKind (coreOf r.cur) = .compute then 136 else 72
        ∀ q z, PassDone ⟨e, a.row0.toNat, a.col0.toNat, due, taken, d.ty, scaled, add, Mode.of b.mxmode.toNat, b.mxmode.getLsbD 4⟩ m p y q z →
          MxTimed i s q z due taken))) ∧
  (∀ (p : State) (x : EngEntry), x.done = 0 → EndOf p (mxDone p x) p.cur .mx x (mxStatus x 0) (resWord x (mxStatus x 0))) ∧
  ∀ (b : Bank) (k : Pass) (i : Nat) (a : List Elt), let p := b.active
    let off := fun j => k.cfg.at (k.row0 + i) (k.col0 + j)
    let z := tileElemSize k.cfg.ty
    let scaled := k.ascaled || p.scaled
    a.any Elt.bad = false → p.cells.any (fun c => c.any Elt.bad) = false →
    (k.add = true → ∀ j, j < p.nc → accErr b (off j) = false) → p.cells.length = p.nc →
    ∃ l, passRow b k i a = (some l, false) ∧ ∀ w, w ∈ l ↔ ∃ j n, j < p.nc ∧ n < z ∧
      let c := p.cells.getD j []
      let terms := chunkTerms k.ta p.ty scaled (List.zipWith Pair.mk a c)
      let exact_ := intChunk k.ta p.ty (List.zipWith Pair.mk a c)
      let old := if k.add then some (accElem b z (off j)) else none
      let v := if integerChunk k.ta p.ty scaled then tileUpdate k.cfg.ty k.md k.isat old 0 exact_
        else tileUpdate k.cfg.ty k.md k.isat old (chunkSum terms) 0
      w = (off j + n, (toBytes z v).getD n 0)


/-- R248, R259, R260, R262, R263, R264, R267, R305, R307, R310: MSTORE writes its tile rows in order, each row's elements converted where CONV
is set, and MLOADT reads its rows into the tile, a cycle for each 512 bytes or less of a row; the row that meets a fault ends or holds the
command after the rows before it. A resolve entry keeps its set's copies over the main bytes, or frees them only. A command's bytes stand at
the spots of its translated address, and no other byte changes. -/
def Obligations.TileMemory : Prop :=
  (∀ (h : CmdHdr) (t : BitVec 6) (conv : Option ElemType) (addr : BitVec 48) (stride : BitVec 32),
    MxCompletes (.mstore h t conv addr stride) ∧ MxCompletes (.mloadt h t addr stride)) ∧
  (∀ (s : State) (h : CmdHdr) (t : BitVec 6) (conv : Option ElemType) (addr : BitVec 48) (stride : BitVec 32) (x : EngEntry),
    let i := Instr.mstore h t conv addr stride
    MxStarts s i x →
    (NoTile s t → MxFails i s (restoreTile s s.cur t.toNat) x 0x0B) ∧
    (∀ r c, TileOf s t r c → let o := conv.getD c.ty
      let f := x.fixes r.here.mxmode.toNat 0 c.ty false
      (conv ≠ none → mstoreAllowed c.ty o = false → MxFails i s r f 0x11) ∧
      ((conv = none ∨ mstoreAllowed c.ty o = true) → x.pos = 0 →
        (∀ p y, RowsStored c o addr stride c.rows r f p y →
          MxTimed i s p y (r.cycle + (c.rows * (if c.cols * tileElemSize c.ty ≤ 512 then 1 else 2) - 1)) 0) ∧
        (∀ n p y, n < c.rows → RowsStored c o addr stride n r f p y →
          let w := engWrite p p.cur .mx y.id (tileRowAddr addr stride y.pos) 1 (mstoreRow p.here (Mode.of y.fixedMode) c o y.pos)
          (w = .wait → exec i s = .next (setEntry p p.cur .mx { y with state := .held })) ∧
          ∀ k a, w = .bad k a →
            exec i s = .next (if k = 0x06 then holdEntry p p.cur .mx y (entryFault p p.cur .mx y k a) else mxFail p y k a))))) ∧
  (∀ (b : Bank) (md : Mode) (c : TileCfg) (o : ElemType) (r j n : Nat), j < c.cols → n < o.bytes →
    (mstoreRow b md c o r).getD (j * o.bytes + n) 0 = byteOf (
      let v := accElem b (tileElemSize c.ty) (c.at r j)
      if accErr b (c.at r j) then (if o.isInt then 0 else nanCode o)
      else if c.ty = o then v else convElem c.ty o md true v) n) ∧
  (∀ t o : ElemType, mstoreAllowed t o = true ↔ (t, o) ∈ [(.f32, .bf16), (.f32, .f16), (.f32, .e4m3), (.f32, .e5m2), (.f32, .t8),
    (.bf16, .e4m3), (.bf16, .e5m2), (.bf16, .t8), (.s32, .s8), (.s32, ElemType.s16)]) ∧
  (∀ (s : State) (h : CmdHdr) (t : BitVec 6) (addr : BitVec 48) (stride : BitVec 32) (x : EngEntry),
    let i := Instr.mloadt h t addr stride
    MxStarts s i x →
    (NoTile s t → MxFails i s (restoreTile s s.cur t.toNat) x 0x0B) ∧
    (∀ r c, TileOf s t r c → x.pos = 0 →
      (∀ p y, RowsLoaded c addr stride c.rows r x p y →
        MxTimed i s p y (r.cycle + (c.rows * (if c.cols * tileElemSize c.ty ≤ 512 then 1 else 2) - 1)) 0) ∧
      (∀ n p y k a, n < c.rows → RowsLoaded c addr stride n r x p y →
        engRead p p.cur y (tileRowAddr addr stride y.pos) (c.cols * tileElemSize c.ty) 1 = .bad k a →
        exec i s = .next (if k = 0x06 then holdEntry p p.cur .mx y (entryFault p p.cur .mx y k a) else mxFail p y k a)))) ∧
  (∀ (s : State) (n : BitVec 3) (keep : Bool) (x : EngEntry), MxServes s (.resolveEntry n keep) x →
    let l := s.here.copies.filter fun c => decide (c.set.toNat = n.toNat)
    let p := if keep then l.foldl commitCopy s else s
    let due := s.cycle + if keep then max 1 (ceilDiv (l.map fun c => c.cfg.bytes).sum 1024) - 1 else 0
    (x.state = .waiting → due = s.cycle → exec (.resolveEntry n keep) s = .next (resolveDone p x n)) ∧
    (x.state = .waiting → due ≠ s.cycle →
      exec (.resolveEntry n keep) s = .next (setEntry p p.cur .mx { x with state := .running due 0 })) ∧
    ∀ d t, x.state = .running d t → exec (.resolveEntry n keep) s = .next (resolveDone s x n)) ∧
  (∀ (s : State) (x : EngEntry) (n : BitVec 3), OnlyBank s (resolveDone s x n) { s.here with
    copies := s.here.copies.filter fun c => !decide (c.set.toNat = n.toNat), mx := s.here.mx.filter fun y => decide (y.id ≠ x.id) }) ∧
  (∀ (s : State) (c : ShadowCopy), let r := restoreExtent s s.cur c.cfg
    (∀ i, (commitCopy s c).here.acc.get zeroByte i = if c.cfg.base ≤ i ∧ i < c.cfg.base + c.cfg.bytes
      then r.here.acc.get zeroByte (c.off + (i - c.cfg.base)) else r.here.acc.get zeroByte i) ∧
    ∀ i < c.cfg.bytes, accErr r.here (c.off + i) = true → accErr (commitCopy s c).here (c.cfg.base + i) = true) ∧
  (∀ (s : State) (row id va al : Nat) (e : Eng) (bs : List Byte) (l : List Seg),
    translate s row .write true va bs.length al = .ok l → (∀ g ∈ l, frozenAt s row g.va = false) → touchesSysreg s l = false →
    let owns := e = .mx ∨ e = .cp ∨ e = .xg ∨ e = .sp
    let subs := subpagesOf s l
    let need := subs.filter fun p => !(decide owns && ownedBy s row p)
    ((∃ p ∈ need, homeBusy s p = true) → engWrite s row e id va al bs = .wait) ∧
    ((∀ p ∈ need, homeBusy s p = false) →
      (owns → (∃ p ∈ subs, ownedByOther s row p = true) → engWrite s row e id va al bs = .bad 0x09 va) ∧
      ((owns → ∀ p ∈ subs, ownedByOther s row p = false) →
        let r := tlbTouch s row l
        let c := if owns then addOwners (settle r need) (.cmd row e id) subs else r
        translate c row .write true va bs.length 1 = .ok l → inSysreg c l = none →
          engWrite s row e id va al bs = .ok (segHomeWrite c row l bs)))) ∧
  ∀ (s : State) (row : Nat) (l : List Seg) (bs : List Byte), bs.length = (l.map Seg.len).sum →
    Stored s (segHomeWrite s row l bs) row l bs.length (fun j => bs[j]?) ∧
    (∀ a, (∀ j < bs.length, spotOf l j ≠ some (false, a)) → (segHomeWrite s row l bs).home a = s.home a) ∧
    (segHomeWrite s row l bs).tt = s.tt ∧ ∀ r, r ≠ row → (segHomeWrite s row l bs).bank r = s.bank r


/-- R276 to R285, R282, R340: a CP entry is checked at its start, moves its stretches in order, and ends; a translation that is missing
holds it, and any other fault ends it with its cause. A CPYF reads its follow-on at its start and enters it in the MX queue at its end. A
timed put flies to its destination. A branch-tagged copy fills the staging buffer, and its write phase writes it, unless a squash of that
cycle cancels it; a squash cancels the matching entries that have not begun theirs, and no others. -/
def Obligations.Copies : Prop :=
  (∀ (s : State) (i : Instr) (c : CpArgs) (k : CpKind) (x : EngEntry), CpForm i c k →
    (Starts s .cp i x → mayExecute s s.cur .cp = false → exec i s = .next (cpFail s x 0x07 0)) ∧
    (StartsAllowed s .cp i x →
      (x.startAt = 0 → cpMisaligned c k = true → exec i s = .next (cpFail s x 0x0E 0)) ∧
      (x.startAt = 0 → cpMisaligned c k = false → cpOverlaps c k = true → exec i s = .next (cpFail s x 0x11 0)) ∧
      (x.startAt ≠ 0 → ¬ CpLegal s x c k → cpMisaligned c k = false → exec i s = .next (cpFail s x 0x11 0)) ∧
      (CpLegal s x c k →
        (x.opc = 4 → x.follow = [] → ∀ b a, engRead s s.cur x c.opx.toNat 64 1 = .bad b a →
          exec i s = .next (if b = 0x06 then holdEntry s s.cur .cp x (cpRecord s x b a) else cpFail s x b a)) ∧
        (x.opc = 4 → x.follow = [] → ∀ q bs err f, engRead s s.cur x c.opx.toNat 64 1 = .ok q bs err →
          (if err then some 0x0F else followFault q ((wordsOf 8 bs).map BitVec.toNat)) = some f → exec i s = .next (cpFail q x f 0)) ∧
        ∀ q y, ((x.opc ≠ 4 ∧ q = s ∧ y = x) ∨ (x.opc = 4 ∧ x.follow = [] ∧ ∃ bs, engRead s s.cur x c.opx.toNat 64 1 = .ok q bs false ∧
            followFault q ((wordsOf 8 bs).map BitVec.toNat) = none ∧ y = { x with follow := wordsOf 8 bs })) →
          (y.btag = 0 → ∀ n p z, CpMoved c k n q y p z → n < cpFuel c k →
            (cpRows c ≤ z.pos → exec i s = .next (cpDone p z c k)) ∧
            (z.pos < cpRows c → cpMove p z c k = .wait → exec i s = .next (setEntry p p.cur .cp { z with state := .held })) ∧
            (∀ b a, z.pos < cpRows c → cpMove p z c k = .bad b a →
              exec i s = .next (if b = 0x06 then holdEntry p p.cur .cp z (cpRecord p z b a) else cpFail p z b a))) ∧
          (y.btag ≠ 0 → y.pos = 0 → y.sub = 0 → ∀ p r, tagChecks c k y.id (cpRows c) q 0 = (.ok p, r) →
            ∀ n u z, CpFilled c k n p y u z → c.shost = false → n < cpFuel c k → cpRows c ≤ z.pos →
              exec i s = .next (setEntry u u.cur .cp { z with state := .staged, pos := 0, sub := 0 })) ∧
          (y.btag ≠ 0 → y.pos = 0 → y.sub = 0 → ∀ b a r, tagChecks c k y.id (cpRows c) q 0 = (.bad b a, r) →
            let f := { cpRecord q y b a with pos := .ofNat 64 r, sub := .ofNat 32 (wrapAddr (a - wrapAddr (rowAt c.dst (cpDs c) r))) }
            exec i s = .next (if b = 0x06 then holdEntry q q.cur .cp y f else endWith q q.cur .cp y (cpStatus y b) (some f)))))) ∧
  (∀ (s r : State) (x : EngEntry) (c : CpArgs) (k : CpKind) (bs : List Byte) (err : Bool),
    let n := cpStretch c k x.pos x.sub
    let d := cpBytes k c.opx x.sub n bs err
    let spoils := err = true ∧ k = .copy
    let y := pastStretch (if err then cpErrLine x (stretchDst x c / 128) else x) c k
    let reads := match k with
      | .fill => r = s ∧ bs = [] ∧ err = false
      | .copy | .convert _ _ _ => if c.shost then
          hostOpen s (s.row s.cur).asid false (stretchSrc x c k) (n / k.dsize * k.ssize) = true ∧ r = s ∧ err = false ∧
          bs = Store.getRun zeroByte s.hostMem (stretchSrc x c k) (n / k.dsize * k.ssize)
        else engRead s s.cur x (stretchSrc x c k) (n / k.dsize * k.ssize) 1 = .ok r bs err
    reads →
      (c.dhost = false → ∀ q, engWrite r r.cur .cp x.id (stretchDst x c) 1 d = .ok q →
        cpMove s x c k = .ok (if spoils then spoil q r.cur (stretchDst x c) d.length else q) y) ∧
      (c.dhost = false → engWrite r r.cur .cp x.id (stretchDst x c) 1 d = .wait → cpMove s x c k = .wait) ∧
      (c.dhost = false → ∀ b a, engWrite r r.cur .cp x.id (stretchDst x c) 1 d = .bad b a → cpMove s x c k = .bad b a) ∧
      (c.dhost = true → hostOpen r (r.row r.cur).asid true (stretchDst x c) d.length = true →
        cpMove s x c k = .ok { r with
          hostMem := Store.setRun zeroByte r.hostMem (stretchDst x c) (if spoils then d.map fun _ => zeroByte else d) } y) ∧
      (c.dhost = true → hostOpen r (r.row r.cur).asid true (stretchDst x c) d.length = false →
        cpMove s x c k = .bad 0x07 (stretchDst x c))) ∧
  (∀ (opx : W64) (j n i : Nat), i < n → (cpBytes .fill opx j n [] false).getD i 0 = byteOf opx.toNat ((j + i) % 8)) ∧
  (∀ (d t : ElemType) (md : Mode) (opx : W64) (j n i b : Nat) (src : List Byte), i < n / d.bytes → b < d.bytes →
    let v := convElem t d md md.sat (ofBytes ((src.drop (t.bytes * i)).take t.bytes))
    (cpBytes (.convert d t md) opx j n src false).getD (i * d.bytes + b) 0 = byteOf v b ∧
    (cpBytes (.convert d t md) opx j n src true).getD (i * d.bytes + b) 0 = byteOf (if d.isInt then 0 else nanCode d) b) ∧
  (∀ (p : State) (x : EngEntry) (c : CpArgs) (k : CpKind),
    (x.startAt = 0 → x.opc = 4 → cpDone p x c k = setEntry p p.cur .cp { x with state := .following }) ∧
    (x.startAt ≠ 0 →
      let i := if k = .fill then dieOf p.cur else placeDie p p.cur c.src.toNat
      let j := placeDie p p.cur c.dst.toNat
      let lat := latencyOf i j + cpLines c k - 1
      cpDone p x c k = setEntry p p.cur .cp { x with state := .flying (p.dcc.get 0 i).toNat (p.cycle + lat) lat j }) ∧
    (x.startAt = 0 → x.opc ≠ 4 → (∃ q, writeObject (releaseAt p p.cur 2) p.cur x.done (cpStatus x 0) = .done q) →
      EndOf p (cpDone p x c k) p.cur .cp x (cpStatus x 0) (resWord x (cpStatus x 0)))) ∧
  (∀ (s : State) (row : Nat) (x : EngEntry), (s.bank row).cp.head? = some x → x.state = .following → x.done = 0 →
    ((s.bank row).mx.length < 16 → ∃ t, exec (.followOnEntry row) s = .next t ∧
      let p := State.modHere { s with cur := row } fun b => pushEntry b .mx x.follow s.cycle
      let st := cpStatus (cpFlag x cpFollowed) 0
      EndOf p t row .cp x st (resWord x st)) ∧
    (16 ≤ (s.bank row).mx.length → exec (.followOnEntry row) s = .next { s with cur := row })) ∧
  (∀ (s : State) (row : Nat) (x : EngEntry) (c : CpArgs) (k : CpKind), (s.bank row).cp.head? = some x → x.state = .staged →
    (x.cmd .cp).bind cpShape = some (c, k) →
    (squashArrives s row x = true → exec (.writePhase row) s = .next { s with cur := row }) ∧
    (squashArrives s row x = false → x.drawn = [] →
      exec (.writePhase row) s = .next (cpDone (tagWriteRows c (cpLen c * k.dsize) (cpRows c) { s with cur := row } 0 x.kept)
        { x with stage := [], pos := cpRows c, sub := 0, kept := [], drawn := [], state := .held } c k))) ∧
  ∀ (s : State) (asid : Asid) (seq : BitVec 32) (tags : W64),
    (∀ r x, Squashed s asid seq tags r x → x.done = 0) →
    ∃ t, exec (.squash asid seq tags) s = .next t ∧ t.tt = s.tt ∧
      ∀ r < 72, (∀ y, y ∈ (t.bank r).cp ↔ y ∈ (s.bank r).cp ∧ ∀ x, Squashed s asid seq tags r x → y.id ≠ x.id) ∧
        ((∀ x, ¬ Squashed s asid seq tags r x) → t.bank r = s.bank r)


/-- R340, R353 to R356, R358, R360, R365, R367, R368, R371: a KV command reads and checks its records at its first start, takes its steps in
order, and ends with its words and status; a fault on the way holds or ends it. The steps of each command, what the walk of a slot
answers, and how a mask object, a score, an output and a selection are computed. -/
def Obligations.KeyValueCommands : Prop :=
  (∀ (s : State) (i : Instr) (x : EngEntry), isKv i = true → KvFresh s i x →
    (mayExecute s s.cur .kv = false → exec i s = .next (kvStopped s x i false 0x07 0 (kvFirstAt x none i))) ∧
    (mayExecute s s.cur .kv = true →
      (∀ p y h c a w, kvFirst s x i = .stop p y h c a w → exec i s = .next (kvStopped p y i h c a w)) ∧
      (∀ p y, kvFirst s x i = .ok p y () →
        (∀ h l a, i = .kvcmt h l a →
          (commitWaits p a = true → exec i s = .next (setEntry p p.cur .kv { y with state := .held })) ∧
          (commitWaits p a = false → commitLost p y a = true →
            exec i s = .next (kvStopped p y i false 0x11 0 (kvFirstAt y none i)))) ∧
        ((∀ h l a, i = .kvcmt h l a → commitWaits p a = false ∧ commitLost p y a = false) →
          let e := kvEnvOf p.here y i
          ∀ steps, kvPlan y e i = some steps →
          (∀ q z, kvSteps e i steps p y = .ok q z () → q.cur = s.cur →
            let st := kvStatus z (kvValue z (kvEnvOf q.here z i) i (kvStepsOf q.here z i) true) 0 0
            EndsAt i s q .kv z st (kvWordsOf z st)) ∧
          (∀ q z h c a w, kvSteps e i steps p y = .stop q z h c a w → exec i s = .next (kvStopped q z i h c a w)) ∧
          (∀ q z, kvSteps e i steps p y = .wait q z → exec i s = .next (setEntry q q.cur .kv { z with state := .held })))))) ∧
  (∀ (s : State) (i : Instr) (x : EngEntry) (l : BitVec 3) (a : W64), kvNames i = some (l, a) → x.pos = 0 →
    let at_ := kvFirstAt x none i
    (∀ p y h c v w, kvOnce s x at_ a.toNat 128 = .stop p y h c v w → kvFirst s x i = .stop p y h c v w) ∧
    (∀ p y rec, kvOnce s x at_ a.toNat 128 = .ok p y rec → field rec 0 4 ≠ 0x5153564B → kvFirst s x i = .stop p y false 0x11 0 at_) ∧
    (∀ p y rec q z ns, kvOnce s x at_ a.toNat 128 = .ok p y rec → field rec 0 4 = 0x5153564B →
      readNodes p y at_ (pathOf rec) = .ok q z ns →
      let seq := KvSeq.of a.toNat (rec ++ ns ++ List.replicate (recordBytes - 128 - ns.length) 0)
      seq.sound (kvLayout s.here i) = false ∨ kvAllowed z (kvLayout s.here i) seq i = false →
        kvFirst s x i = .stop q z false 0x11 0 (kvFirstAt z (some seq.clen) i))) ∧
  (∀ (x : EngEntry) (e : KvEnv) (h : CmdHdr) (l : BitVec 3) (q nmask : W64) (slot : BitVec 32) (layer : BitVec 8) (a : KvAppArgs)
      (all : Bool) (first : BitVec 32) (n : BitVec 16) (src : W64),
    kvPlan x e (.kvxl h l .look q slot layer) = some [.look layer.toNat slot.toNat] ∧
    kvPlan x e (.kvxl h l .attach q slot layer) = some ((List.range (e.q.nodes.length - 1)).map fun k => .attach k true) ∧
    kvPlan x e (.kvxl h l .detach q slot layer) = some ((List.range (e.q.nodes.length - 1)).map fun k => .attach k false) ∧
    kvPlan x e (.kvapp h l a) = some ((List.range (if x.btag = 0 then a.nM1.toNat + 1 else 1)).map .append) ∧
    kvPlan x e (.kvscore h l q first n src) = some ((codes32 (n.toNat + 1) e.opnd).zipIdx.map fun p => .score (first.toNat + p.2) p.1) ∧
    kvPlan x e (.kvsq h l all q nmask) = some (clearSteps e (if all then BitVec.allOnes 64 else nmask) ++
      [.record (some (if all then BitVec.allOnes 64 else nmask)) (if all then [stateField 0] else [])])) ∧
  (∀ (s : State) (x : EngEntry) (e : KvEnv) (i : Instr) (layer slot : Nat),
    (e.q.slot slot layer = none → kvStep s x e i (.look layer slot) = .ok s { x with follow := [.ofNat 64 (2 ^ 63)] } ()) ∧
    (∀ k p y bs, e.q.slot slot layer = some k → kvRead s x ⟨layer, slot, 0⟩ k.entry 8 = .ok p y bs →
      let base := k.sub * 2 ^ 56 + bitsOf (ofBytes bs) 47 12 * 4096
      ((bitsOf (ofBytes bs) 63 63 = 0 ∨ bitsOf (ofBytes bs) 62 62 = 1) →
        kvStep s x e i (.look layer slot) = .ok p { y with follow := [.ofNat 64 (2 ^ 62 + base)] } ()) ∧
      (bitsOf (ofBytes bs) 63 63 = 1 → bitsOf (ofBytes bs) 62 62 = 0 → bitsOf (ofBytes bs) 61 48 = 0 → bitsOf (ofBytes bs) 11 0 = 0 →
        ∀ q z h, kvHeader p y ⟨layer, slot, 0⟩ (bitsOf (ofBytes bs) 47 12 * 4096) = .ok q z h →
          let st := if h.pmask.testBit k.sub then 3 else if h.vmask.testBit k.sub then 2 else if h.smask.testBit k.sub then 1 else 0
          kvStep s x e i (.look layer slot) = .ok q { z with follow := [.ofNat 64 (st * 2 ^ 60 + base)] } ()))) ∧
  (∀ (s : State) (x : EngEntry) (e : KvEnv) (i : Instr) (j v : Nat) (p : State) (y : EngEntry) (bs : List Byte),
    kvRead s x ⟨0, j, 0⟩ (e.q.score + 4 * j) 4 = .ok p y bs →
    kvStep s x e i (.score j v) = kvWrite p y ⟨0, j, 0⟩ false (e.q.score + 4 * j) (toBytes 4 (addF32 .rne (ofBytes bs) v))) ∧
  (∀ (s : State) (x : EngEntry) (e : KvEnv) (h : CmdHdr) (parents out : W64) (n : BitVec 6) (l : List (Nat × Nat)),
    maskOf e.opnd = some l →
    kvStep s x e (.kvmask h parents n out) .mask = kvWrite s x ⟨0, 0, 0⟩ true out.toNat (maskObject l)) ∧
  (∀ (ps : List Nat) (acc : List (Nat × Nat)) (p : Nat), maskRows ps [] = some acc →
    let i := acc.length
    maskRows (ps ++ [p]) [] = if p = 0xFF then some (acc ++ [(2 ^ i, 1)])
      else if p < i ∧ (acc.getD p (0, 0)).2 < 8 then some (acc ++ [((acc.getD p (0, 0)).1 ||| 2 ^ i, (acc.getD p (0, 0)).2 + 1)])
      else none) ∧
  (∀ (l : List (Nat × Nat)) (r : Nat), l.length ≤ 64 → r < l.length → (l.getD r (0, 0)).1 < 2 ^ 64 → (l.getD r (0, 0)).2 < 256 →
    (maskObject l).length = 592 ∧ field (maskObject l) 0 1 = l.length ∧ ancOf (maskObject l) r = (l.getD r (0, 0)).1 ∧
    depthOf (maskObject l) r = (l.getD r (0, 0)).2) ∧
  (∀ (lo hi k : Nat) (scores : List Byte), (topSlots lo hi k scores).Pairwise (· < ·) ∧
    (∀ t ∈ topSlots lo hi k scores, lo ≤ t ∧ t < hi) ∧
    (hi - lo ≤ k → topSlots lo hi k scores = (List.range (hi - lo)).map fun j => lo + j)) ∧
  (∀ (s : State) (x : EngEntry) (e : KvEnv) (h : CmdHdr) (l : BitVec 3) (q out : W64) (lo hi k : BitVec 32),
    let t := topSlots lo.toNat hi.toNat k.toNat e.opnd
    kvStep s x e (.kvtopk h l q lo hi k out) .topk =
      if t = [] then .ok s x () else kvWrite s x ⟨0, 0, 0⟩ true out.toNat (t.flatMap (toBytes 4))) ∧
  ∀ (s : State) (x : EngEntry) (e : KvEnv) (h : CmdHdr) (l : BitVec 3) (a : KvAttArgs) (r : Nat), seesNothing e a r = false →
    let w := x.rows.getD r (KvRow.start e.lay.dim)
    kvStep s x e (.kvatt h l a) (.output r) = kvWrite s x ⟨a.layer.toNat, 0, 0⟩ true (a.oaddr.toNat + 4 * e.lay.dim * r)
      ((if w.isBad then w.o.map fun _ => 0x7FC00000 else w.o.map fun c => divF32 c.toNat w.l.toNat).flatMap (toBytes 4))


/-- R118, R340, R377 to R379, R382 to R385, R387, R390, R391: a permit enters the FIFO of its sender, receiver and channel; a withdraw
removes it and frees its slot, or marks the slot. XGRANT takes or gives up the slots of its mask in order and ends when its messages have
arrived. XSEND takes the head permit of its task and fills the slot, or waits for a permit within its bound. XRECV writes the oldest slot
of its channel to memory and drains it. A timed put that arrives is delivered, and a mismatch of the count raises cause 0x0A. -/
def Obligations.Exchange : Prop :=
  (∀ (s : State) (rdie sdie chan slot : BitVec 4) (asid : Asid), ∃ t, exec (.permit rdie sdie chan asid slot) s = .next t ∧
    t = { s with permits := t.permits, slots := t.slots, permitOrder := s.permitOrder + 1 } ∧
    (∀ a b c : BitVec 4, t.permitQ a.toNat b.toNat c.toNat = if a = sdie ∧ b = rdie ∧ c = chan
      then s.permitQ sdie.toNat rdie.toNat chan.toNat ++ [(asid, slot)] else s.permitQ a.toNat b.toNat c.toNat) ∧
    ∀ d i : BitVec 4, t.slot d.toNat i.toNat = if d = rdie ∧ i = slot
      then { s.slot rdie.toNat slot.toNat with order := s.permitOrder } else s.slot d.toNat i.toNat) ∧
  (∀ (s : State) (rdie sdie chan slot : BitVec 4) (asid : Asid),
    let q := s.permitQ sdie.toNat rdie.toNat chan.toNat
    ((asid, slot) ∈ q → ∃ t, exec (.withdraw rdie sdie chan asid slot) s = .next t ∧ t = { s with permits := t.permits, slots := t.slots } ∧
      t.permitQ sdie.toNat rdie.toNat chan.toNat = q.filter (· ≠ (asid, slot)) ∧
      (∀ d i : BitVec 4, t.slot d.toNat i.toNat = if d = rdie ∧ i = slot then XSlot.reset else s.slot d.toNat i.toNat)) ∧
    ((asid, slot) ∉ q → ∃ t, exec (.withdraw rdie sdie chan asid slot) s = .next t ∧ t = { s with slots := t.slots } ∧
      ∀ d i : BitVec 4, t.slot d.toNat i.toNat = if d = rdie ∧ i = slot
        then { s.slot rdie.toNat slot.toNat with revoking := true } else s.slot d.toNat i.toNat)) ∧
  (∀ (s : State) (opc : Nat) (i : Instr) (x : EngEntry) (k : State → EngEntry → State), XgStarts s opc i x →
    (mayExecute s s.cur .xg = false → xgStart s opc i k = xgFail s .xg x 0x07 0) ∧
    (mayExecute s s.cur .xg = true → s.xgcfg.get false (dieOf s.cur) = false → xgStart s opc i k = xgFail s .xg x 0x11 0)) ∧
  (∀ (s : State) (h : CmdHdr) (sdie chan : BitVec 4) (m : BitVec 16) (x : EngEntry) (revoke : Bool),
    let i := if revoke then Instr.xgrantRevoke h sdie chan m else .xgrant h sdie chan m
    let asid := (s.row s.cur).asid
    let die := dieOf s.cur
    let r := if revoke then withdrawSlots die sdie chan asid (maskSlots m) s 0 else grantSlots die sdie chan asid (maskSlots m) s 0
    (XgAllowed s 2 i x → exec i s = .next (if r.2.2 then setEntry r.1 s.cur .xg { x with sub := r.2.1, state := .putting }
      else xgFail r.1 .xg { x with sub := r.2.1 } 0x11 0)) ∧
    (XgGoesOn s 2 i x → x.state = .putting → messagesFlying s die sdie chan = true → exec i s = .next s) ∧
    (XgGoesOn s 2 i x → x.state = .putting → messagesFlying s die sdie chan = false → XgEnds i s s x)) ∧
  (∀ (s : State) (die : Nat) (sdie chan : BitVec 4) (asid : Asid) (l : List Nat), l.Nodup → (∀ i ∈ l, i < 16) →
    (∀ i ∈ l, (s.slot die i).state = .free) →
    (∀ j < 16, (s.slot die j).state ≠ .free → (s.slot die j).sdie = sdie → (s.slot die j).chan = chan → (s.slot die j).asid = asid) →
    ∃ p, grantSlots die sdie chan asid l s 0 = (p, l.length, true) ∧ OnlySlots s p ∧
      (∀ d j, j < 16 → p.slot d j = if d = die ∧ j ∈ l then ⟨.granted, sdie, chan, asid, false, s.permitOrder, [], []⟩ else s.slot d j) ∧
      p.agenda = s.agenda ++ l.map fun i => .event (.permit (.ofNat 4 die) sdie chan asid (.ofNat 4 i))) ∧
  (∀ (s : State) (die : Nat) (sdie chan : BitVec 4) (asid : Asid) (l : List Nat),
    (∀ i ∈ l, (s.slot die i).belongs sdie chan asid = true) →
    withdrawSlots die sdie chan asid l s 0 = ({ s with
      agenda := s.agenda ++ l.map fun i => .event (.withdraw (.ofNat 4 die) sdie chan asid (.ofNat 4 i)) }, l.length, true)) ∧
  (∀ (s : State) (h : CmdHdr) (src : W64) (die chan : BitVec 4) (lenM1 : BitVec 18) (x : EngEntry),
    let i := Instr.xsend h src die chan lenM1
    let n := lenM1.toNat + 1
    let own := dieOf s.cur
    (XgAllowed s 1 i x ∨ (XgGoesOn s 1 i x ∧ ∃ c, x.state = .permitWait c)) →
      (x.startAt ≠ 0 → inSram s s.cur src 0 1 n = false ∨ liesOnDie s s.cur src.toNat n own = false →
        exec i s = .next (xgFail s .xg x 0x11 0)) ∧
      ((x.startAt ≠ 0 → inSram s s.cur src 0 1 n = true ∧ liesOnDie s s.cur src.toNat n own = true) →
        (∀ c a, engRead s s.cur x src.toNat n 1 = .bad c a →
          exec i s = .next (if c = 0x06 then holdEntry s s.cur .xg x (xgRecord s .xg x c a) else xgFail s .xg x c a)) ∧
        (∀ p bytes err, engRead s s.cur x src.toNat n 1 = .ok p bytes err → p.cur = s.cur ∧
          (∀ slot r, p.permitQ own die.toNat chan.toNat = ((p.row s.cur).asid, slot) :: r →
            badLines p s.cur src.toNat n = [] → x.startAt = 0 →
            XgEnds i s ((p.setPermitQ own die.toNat chan.toNat r).setSlot die.toNat slot.toNat
              { p.slot die.toNat slot.toNat with data := bytes, bad := [], state := .filled })
              { x with sub := bytes.length, pos := slot.toNat }) ∧
          ((∀ v r, p.permitQ own die.toNat chan.toNat = v :: r → v.1 ≠ (p.row s.cur).asid) →
            (x.state = .waiting → exec i s = .next (setEntry p s.cur .xg { x with state := .permitWait p.cycle })) ∧
            (∀ c, x.state = .permitWait c → exec i s = .next p))))) ∧
  (∀ (s : State) (row c : Nat) (x : EngEntry), streamHead (s.bank row) 1 = some x → x.state = .permitWait c →
    (c + 16777216 ≤ s.cycle → exec (.permitTimeout row) s = .next (xgFail { s with cur := row } .xg x 0x04 0)) ∧
    (s.cycle < c + 16777216 → exec (.permitTimeout row) s = .next { s with cur := row })) ∧
  (∀ (s : State) (h : CmdHdr) (dst : W64) (sdie chan : BitVec 4) (add : Bool) (x : EngEntry),
    let i := Instr.xrecv h dst sdie chan add
    let die := dieOf s.cur
    let asid := (s.row s.cur).asid
    let receives (k : Nat) : Prop := let y := s.slot die k
      (engClaim s s.cur .xg x.id dst.toNat y.data.length 1 = .wait → exec i s = .next s) ∧
      (∀ c a, engClaim s s.cur .xg x.id dst.toNat y.data.length 1 = .bad c a →
        exec i s = .next (xgStop (s.setSlot die k { y with state := if c = 0x06 then .draining else .filled }) .xg { x with pos := k } c a)) ∧
      (∀ p l, engClaim s s.cur .xg x.id dst.toNat y.data.length 1 = .ok p →
        translate p p.cur .write true dst.toNat y.data.length 1 = .ok l → y.bad = [] → p.cur = s.cur →
        ∃ q, q = engStore p p.cur dst.toNat (recvBytes (segBytes p p.cur l) y add) ∧ (q.cur = s.cur →
          XgEnds i s (drainSlot q die k) { x with pos := k, sub := y.data.length, flags := x.flags }))
    (XgAllowed s 3 i x →
      (oldestSlot s die sdie chan asid = none → exec i s = .next s) ∧
      (∀ k, oldestSlot s die sdie chan asid = some k →
        ((s.slot die k).state ≠ .filled → exec i s = .next s) ∧ ((s.slot die k).state = .filled → receives k))) ∧
    (XgGoesOn s 3 i x → x.state = .held → receives x.pos)) ∧
  (∀ (s : State) (die : Nat) (sdie chan : BitVec 4) (asid : Asid),
    let mine := fun j => (s.slot die j).belongs sdie chan asid = true ∧ (s.slot die j).state ≠ .draining
    (oldestSlot s die sdie chan asid = none ↔ ∀ j < 16, ¬ mine j) ∧
    ∀ k, oldestSlot s die sdie chan asid = some k → k < 16 ∧ mine k ∧ ∀ j < 16, mine j → (s.slot die k).order ≤ (s.slot die j).order) ∧
  (∀ (old : List Byte) (y : XSlot) (j b : Nat), recvBytes old y false = y.data ∧ (j < y.data.length / 4 → b < 4 →
    let w := fun l : List Byte => ofBytes ((l.drop (4 * j)).take 4)
    (recvBytes old y true).getD (j * 4 + b) 0 =
      byteOf (if 4 * j / 128 ∈ y.bad then 0x7FC00000 else addF32 .rne (w old) (w y.data)) b)) ∧
  (∀ (s : State) (die k : Nat), k < 16 → let y := s.slot die k
    (y.revoking = true → OnlySlots s (drainSlot s die k) ∧ (drainSlot s die k).agenda = s.agenda ∧
      (drainSlot s die k).slot die k = XSlot.reset) ∧
    (y.revoking = false → OnlySlots s (drainSlot s die k) ∧
      (drainSlot s die k).slot die k = { y with state := .granted, data := [], bad := [], order := s.permitOrder } ∧
      (drainSlot s die k).agenda = s.agenda ++ [.event (.permit (.ofNat 4 die) y.sdie y.chan y.asid (.ofNat 4 k))]) ∧
    ∀ d j, j < 16 → (d, j) ≠ (die, k) → (drainSlot s die k).slot d j = s.slot d j) ∧
  ∀ (s : State) (row id : Nat) (a : W64) (x : EngEntry) (stamp due lat die : Nat) (e : Eng), e = .xg ∨ e = .cp →
    ((s.bank row).engQ e).find? (fun y => decide (y.id = id)) = some x → x.state = .flying stamp due lat die →
    let s' : State := { s with cur := row }
    let p := if e = .xg then s'.setSlot die x.pos { s.slot die x.pos with state := .filled } else s'
    let st := fun y : EngEntry => if e = .xg then xgStatus y 0 else cpStatus y 0
    let rec_ := fun y : EngEntry => if e = .xg then xgRecord p .xg y 0x0A 0 else cpRecord p y 0x0A 0
    let y : EngEntry := if (stamp + lat) % 2 ^ 64 = a.toNat then x else { x with flags := x.flags ||| .ofNat 64 (2 ^ 24) }
    let late : Option FaultRec := if (stamp + lat) % 2 ^ 64 = a.toNat then none else some (rec_ y)
    (¬ (e = .cp ∧ x.opc = 4) → exec (.timedPutArrival row e id a) s = .next (endWith p row e y (st y) late)) ∧
    (e = .cp → x.opc = 4 → let r := match late with
        | none => p
        | some f => raiseEngine p row .cp f
      exec (.timedPutArrival row e id a) s = .next (setEntry r r.cur .cp { y with state := .following }))


/-- R340, R411, R412, R414 to R418: SPSEED writes its key entry; SPSOFT writes rows of probabilities; SPDRAW and SPACC draw with a valid key
of their address space and place a result word. A command checks its key, its output and its inputs in that order and writes nothing
before all of them have passed. The probabilities of a row, the choice of a token and the residual after a refused child. -/
def Obligations.Sampler : Prop :=
  (∀ (s : State) (i : Instr) (x : EngEntry) (k : State → EngEntry → State), Starts s .sp i x →
    (mayExecute s s.cur .sp = false → spStart s i k = spFail s x 0x07 0) ∧
    (mayExecute s s.cur .sp = true → spStart s i k = k s x)) ∧
  (∀ (s : State) (h : CmdHdr) (ix : BitVec 8) (key : W64) (x : EngEntry), StartsAllowed s .sp (.spseed h ix key) x →
    let e := s.spKey ix
    (e.valid = true → e.asid ≠ (s.row s.cur).asid → exec (.spseed h ix key) s = .next (spFail s x 0x07 0)) ∧
    ((e.valid = true → e.asid = (s.row s.cur).asid) → ∃ p, p = { s with spKeys := p.spKeys } ∧
      (∀ j, p.spKey j = if j = ix then ⟨key, (s.row s.cur).asid, true⟩ else s.spKey j) ∧ SpEnds (.spseed h ix key) s p x 0 0 [])) ∧
  (∀ (s : State) (h : CmdHdr) (a : SpSoftArgs) (x : EngEntry), StartsAllowed s .sp (.spsoft h a) x →
    let v := a.vM1.toNat + 1
    let rows := a.rowsM1.toNat + 1
    let t : ElemType := if a.bf16 then .bf16 else .f32
    (∀ c b, engClaim s s.cur .sp x.id a.dst.toNat (rows * v * 4) 1 = .bad c b → exec (.spsoft h a) s = .next (spStop s x c b)) ∧
    (∀ p, engClaim s s.cur .sp x.id a.dst.toNat (rows * v * 4) 1 = .ok p →
      (∀ c b, engRead p p.cur x a.src.toNat (rows * v * t.bytes) 1 = .bad c b → exec (.spsoft h a) s = .next (spStop p x c b)) ∧
      (∀ r bs, engRead p p.cur x a.src.toNat (rows * v * t.bytes) 1 = .ok r bs true →
        exec (.spsoft h a) s = .next (spFail r x 0x0F a.src.toNat)) ∧
      (∀ r bs, engRead p p.cur x a.src.toNat (rows * v * t.bytes) 1 = .ok r bs false →
        let out := (List.range rows).map fun j => softRow t a.invt.toNat (codesOf t.bytes v (bs.drop (j * v * t.bytes)))
        let q := engStore r r.cur a.dst.toNat (out.flatMap fun r => r.1.flatMap (toBytes 4))
        q.cur = s.cur → SpEnds (.spsoft h a) s q x rows (if out.any Prod.snd then 2 ^ 22 else 0) []))) ∧
  (∀ (t : ElemType) (invt : Nat) (row : List Nat),
    let xs := row.map (decodeElem t)
    let bad := (∃ v ∈ xs, v.isNan = true ∨ v = .inf false) ∨ ∀ v ∈ xs, v = .inf true
    (bad → softRow t invt row = (row.map fun _ => 0x7FC00000, true)) ∧
    (¬ bad → (softRow t invt row).2 = false ∧ (softRow t invt row).1.length = row.length ∧
      let e := fun v : XVal => exp2f (decodeElem .f32 (mulF32 (toF32 (v.add .rne (maxX xs).neg)) (mulF32 invt 0x3FB8AA3B)))
      ∀ j < row.length, (softRow t invt row).1.getD j 0 =
        divF32 (e (decodeElem t (row.getD j 0))) ((xs.map e).foldl (addF32 .rne) 0))) ∧
  (∀ (s : State) (x : EngEntry) (ix : BitVec 8) (k : W64 → State), let e := s.spKey ix
    (e.valid = false → withKey s x ix k = spFail s x 0x11 0) ∧
    (e.valid = true → e.asid ≠ (s.row s.cur).asid → withKey s x ix k = spFail s x 0x07 0) ∧
    (e.valid = true → e.asid = (s.row s.cur).asid → withKey s x ix k = k e.key)) ∧
  (∀ (s : State) (h : CmdHdr) (src : W64) (vM1 : BitVec 17) (ix : BitVec 8) (ctr : W64) (x : EngEntry),
    let i := Instr.spdraw h src vM1 ix ctr
    StartsAllowed s .sp i x → (s.spKey ix).valid = true → (s.spKey ix).asid = (s.row s.cur).asid →
    (∀ c a, engRead s s.cur x src.toNat (4 * (vM1.toNat + 1)) 1 = .bad c a → exec i s = .next (spStop s x c a)) ∧
    (∀ p bs, engRead s s.cur x src.toNat (4 * (vM1.toNat + 1)) 1 = .ok p bs true → exec i s = .next (spFail p x 0x0F src.toNat)) ∧
    (∀ p bs, engRead s s.cur x src.toNat (4 * (vM1.toNat + 1)) 1 = .ok p bs false →
      let u := drawValue (s.spKey ix).key (counterStep ctr) (counterDraw ctr) (counterStream ctr)
      let r := chooseToken (codesOf 4 (vM1.toNat + 1) bs) u
      SpEnds i s p x r.1 (if r.2 then 2 ^ 22 else 0) [.ofNat 64 (u * 2 ^ 40 + r.1)])) ∧
  (∀ (p : List Nat) (u : Nat), let run := runSums 0 p
    let total := run.getLastD 0
    let tau := toF32 ((XVal.fin false u (-24)).mul (decodeElem .f32 total))
    ((∃ c ∈ p, probOk c = false) → chooseToken p u = (0x3FFFF, true)) ∧
    ((∀ c ∈ p, probOk c = true) → (decodeElem .f32 total).isZero = true → chooseToken p u = (0x3FFFF, true)) ∧
    ((∀ c ∈ p, probOk c = true) → (decodeElem .f32 total).isZero = false →
      (∀ j < run.length, f32Above (run.getD j 0) tau = true → (∀ k < j, f32Above (run.getD k 0) tau = false) →
        chooseToken p u = (j, false)) ∧
      ((∀ c ∈ run, f32Above c tau = false) → ∀ j < p.length, (decodeElem .f32 (p.getD j 0)).isZero = false →
        (∀ k < p.length, j < k → (decodeElem .f32 (p.getD k 0)).isZero = true) → chooseToken p u = (j, false))) ∧
    run.length = p.length ∧ (∀ j, j + 1 < p.length → run.getD (j + 1) 0 = addF32 .rne (run.getD j 0) (p.getD (j + 1) 0)) ∧
    (0 < p.length → run.getD 0 0 = addF32 .rne 0 (p.getD 0 0))) ∧
  (∀ (s : State) (h : CmdHdr) (a : SpAccArgs) (x : EngEntry), let i := Instr.spacc h a
    StartsAllowed s .sp i x → (s.spKey a.keyix).valid = true → (s.spKey a.keyix).asid = (s.row s.cur).asid →
    (∀ c b, engClaim s s.cur .sp x.id a.out.toNat 64 1 = .bad c b → exec i s = .next (spStop s x c b)) ∧
    (∀ p, engClaim s s.cur .sp x.id a.out.toNat 64 1 = .ok p → p.cur = s.cur →
      let n := a.nM1.toNat + 1
      let v := a.vM1.toNat + 1
      ∀ b c r tree ps qs, engRead p p.cur x a.tree.toNat 320 1 = .ok b tree false →
        engRead b b.cur x a.prows.toNat (n * v * 4) 1 = .ok c ps false →
        engRead c c.cur x (a.qrows.toNat + 4 * v) ((n - 1) * v * 4) 1 = .ok r qs false →
        let t : TreeIn := ⟨(s.spKey a.keyix).key, counterStep a.counter, counterStream a.counter, counterDraw a.counter,
          (tree.take n).map BitVec.toNat, codesOf 4 n (tree.drop 64), rowsOf v n ps, [] :: rowsOf v (n - 1) qs⟩
        let w := walkTree t 9 0 [0] 0 false
        let q := engStore r r.cur a.out.toNat (acceptRecord t w)
        (rootedTree t.parents = false ∨ (∃ k ∈ t.tokens, v ≤ k) → exec i s = .next (spFail r x 0x11 0)) ∧
        (rootedTree t.parents = true → (∀ k ∈ t.tokens, k < v) → q.cur = s.cur →
          SpEnds i s q x w.path.length ((if w.badin then 2 ^ 22 else 0) + (if w.zres then 2 ^ 21 else 0))
            [.ofNat 64 (w.path.length * 2 ^ 56 + max 1 w.draws * 2 ^ 48 + w.final)]))) ∧
  ∀ (p q : List Nat),
    let r := List.zipWith (fun a b => let d := addF32 .rne a (toF32 (decodeElem .f32 b).neg)
      if (decodeElem .f32 d).lt XVal.zero then 0 else d) p q
    let total := r.foldl (addF32 .rne) 0
    ((decodeElem .f32 total).isZero = true → Machine.residual p q = (p, true)) ∧
    ((decodeElem .f32 total).isZero = false → Machine.residual p q = (r.map fun v => divF32 v total, false))


/-- R119, R340, R393, R395 to R397: WREG registers a window, or with length 0 ends it, and resets the counters; WPUT sends its bytes and
ends when the other package has counted or refused them; a put that arrives is written whole and counted, or refused and nothing written,
and the sender is told either; WCNT answers a
counter, at once or when it has reached its target. A timed command starts in the cycle that its START names, when the engine and its
operands are ready, and otherwise does nothing and raises cause 0x0A. -/
def Obligations.WindowsAndTimedStarts : Prop :=
  (∀ (s : State) (i : Instr) (x : EngEntry) (k : State → EngEntry → State), Starts s .wn i x →
    (mayExecute s s.cur .wn = false → wnStart s i k = xgFail s .wn x 0x07 0) ∧ (mayExecute s s.cur .wn = true → wnStart s i k = k s x)) ∧
  (∀ (s : State) (h : CmdHdr) (wid : BitVec 6) (base : W64) (len : BitVec 32) (x : EngEntry), StartsAllowed s .wn (.wreg h wid base len) x →
    let i := Instr.wreg h wid base len
    let w := s.window wid
    let y := { x with sub := len.toNat }
    let ends := fun v : Window => ∃ p, p = { s with win := p.win, sideOut := if s.dual then s.sideOut ++ [.windowReset wid] else s.sideOut } ∧
      (∀ j, p.window j = if j = wid then v else s.window j) ∧ EndsAt i s p .wn y (xgStatus y 0) (resWord y (xgStatus y 0))
    (len = 0 → ends { w with len := 0, rcv := 0 }) ∧
    (len ≠ 0 → w.len ≠ 0 → exec i s = .next (xgFail s .wn x 0x14 0)) ∧
    (len ≠ 0 → w.len = 0 →
      (∀ c a, windowFault s base.toNat len.toNat = some (c, a) →
        exec i s = .next (if c = 0x06 then holdEntry s s.cur .wn x (xgRecord s .wn x c a) else xgFail s .wn x c a)) ∧
      (windowFault s base.toNat len.toNat = none → ends { w with asid := (s.row s.cur).asid, base := base, len := len, rcv := 0 }))) ∧
  (∀ (s : State) (h : CmdHdr) (src : W64) (wid : BitVec 6) (off : BitVec 32) (lenM1 : BitVec 24) (x : EngEntry),
    let i := Instr.wput h src wid off lenM1
    let n := lenM1.toNat + 1
    (StartsAllowed s .wn i x → pairReady s = false → exec i s = .next (xgFail s .wn x 0x14 0)) ∧
    (StartsAllowed s .wn i x → pairReady s = true →
      (∀ c a, engRead s s.cur x src.toNat n 1 = .bad c a →
        exec i s = .next (if c = 0x06 then holdEntry s s.cur .wn x (xgRecord s .wn x c a) else xgFail s .wn x c a)) ∧
      (∀ p bytes err, engRead s s.cur x src.toNat n 1 = .ok p bytes err → (∃ c, p = { s with tlb := c }) ∧ exec i s = .next
        { setEntry p s.cur .wn { x with state := .putting, flags := if err then x.flags ||| .ofNat 64 xgDerr else x.flags } with
          sideOut := s.sideOut ++ [.put s.cur x.id wid off bytes] })) ∧
    ((s.here.wn).head? = some x → x.instr .wn = some i → s.here.engBlocked .wn x.opc = false → x.state = .putting → pairReady s = true →
      let r : State := { s with fresh := s.fresh + 1 }
      let a := putAnswer (Config.freeWord s.fresh)
      (a = .notYet → exec i s = .next r) ∧ (a = .counted → exec i s = .next (putCountedOp r s.cur x.id wid)) ∧
      (∀ c, a = .refused c → exec i s = .next (xgFail r .wn x c 0)))) ∧
  (∀ (s : State) (row id : Nat) (wid : BitVec 6) (x : EngEntry), ((s.bank row).wn).find? (fun y => decide (y.id = id)) = some x →
    (x.state = .putting → ∃ p, p = { s with cur := row, win := p.win } ∧
      (∀ j, p.window j = if j = wid then { s.window wid with snd := (s.window wid).snd + 1 } else s.window j) ∧
      ∀ h src off (lenM1 : BitVec 24), x.instr .wn = some (.wput h src wid off lenM1) →
        exec (.putCounted row id wid) s = .next (endWith p row .wn x (xgStatus { x with sub := lenM1.toNat + 1 } 0) none)) ∧
    (x.state ≠ .putting → exec (.putCounted row id wid) s = .next { s with cur := row })) ∧
  (∀ (s : State) (wid : BitVec 6), ∃ t, exec (.windowReset wid) s = .next t ∧ t = { s with win := t.win } ∧
    ∀ j, t.window j = if j = wid then { s.window wid with snd := 0 } else s.window j) ∧
  (∀ (s : State) (wid : BitVec 6) (off : BitVec 32) (bytes : List Byte),
    let w := s.window wid
    let segs := putSegs s w.asid (pagesOf (bytes.length / 65536 + 2) (w.base.toNat + off.toNat) bytes.length)
    let refused := fun c => exec (.putArrival wid off bytes) s = .next { s with sideOut := s.sideOut ++ [.putRefused wid c] }
    ((s.devstat.pwr = 3 ∨ w.len = 0 ∨ w.len.toNat < off.toNat + bytes.length) → refused 0x14) ∧
    (s.devstat.pwr ≠ 3 → w.len ≠ 0 → off.toNat + bytes.length ≤ w.len.toNat → ∀ c, segs = .refused c → refused c) ∧
    (s.devstat.pwr ≠ 3 → w.len ≠ 0 → off.toNat + bytes.length ≤ w.len.toNat → ∀ l, segs = .ok l → ∃ p t, OnlyMemory s p ∧
      (∀ a, (∀ q ∈ l, a < q.1 ∨ q.1 + q.2 ≤ a) → p.home a = s.home a) ∧
      (∀ pa, l = [(pa, bytes.length)] → ∀ j < bytes.length, p.home (pa + j) = bytes.getD j 0) ∧
      exec (.putArrival wid off bytes) s = .next t ∧ t = { p with win := t.win, sideOut := s.sideOut ++ [.putCounted wid] } ∧
      ∀ j, t.window j = if j = wid then { w with rcv := w.rcv + 1 } else s.window j)) ∧
  (∀ (s : State) (h : CmdHdr) (wait : Bool) (wid : BitVec 6) (snd : Bool) (target : W64) (x : EngEntry),
    let i := Instr.wcnt h wait wid snd target
    let v := if snd then (s.window wid).snd else (s.window wid).rcv
    let words : List W64 := if x.res then [v, .ofNat 64 (xgStatus x 0)] else [v]
    StartsAllowed s .wn i x →
    (snd = true → pairReady s = false → exec i s = .next (xgFail s .wn x 0x14 0)) ∧
    ((snd = true → pairReady s = true) →
      (wait = true → v.toNat < target.toNat → exec i s = .next s) ∧
      ((wait = true → target.toNat ≤ v.toNat) → EndsAt i s s .wn x (BitVec.ofNat 64 (xgStatus x 0)).toNat words))) ∧
  ∀ (s : State) (row : Nat) (e : Eng),
    (dueEntries (s.bank row) e = [] → exec (.timedCommandStart row e) s = .next s) ∧
    (∀ x, dueEntries (s.bank row) e = [x] →
      let ready := (s.bank row).tcc.toNat = x.startAt ∧ (headOf (s.bank row) e x).map EngEntry.id = some x.id ∧
        (s.bank row).fifoWaits e x = false ∧ (e = .mx → mxReady s row x = true) ∧ operandsReady s row e x = true
      (ready → exec (.timedCommandStart row e) s = .next (setEntry s row e { x with started := true })) ∧
      (¬ ready → exec (.timedCommandStart row e) s = .next (finishEntry s row e x (statusOf x.opc 0x0A) []
        (some (entryFault s row e x 0x0A 0)))))


/-- R35, R42, R45, R58, R60, R61, R465: a dependence check makes a head launch eligible once its counters have reached their targets; a pass does nothing before READY, and
then checks and thaws, selects the next head by effective priority and turn when no bank is usable, serves what is selected by priority, and sees to
fairness; tasks are placed in order on free rows that they fit, a gang whole or not at all; a member that waits for 1 ms at a barrier of a
group without a gang, of which some member has held no bank in that time, takes cause 0x15; the tick of a split gang is 50 us after both
shares are bound, and its tasks become bound at it. The period of 9,999 ns and the share that a message speaks of are the model's (log
entries 36 and 21). -/
def Obligations.Scheduling : Prop :=
  (∀ s : State,
    let s1 := thawImages (dependenceCheck { s with passAt := s.dt.toNat + 9999 })
    let s2 := (shareEnds s1).preempted.foldl answerSaved (shareEnds s1)
    let s3 := if noneUsable s2 then selectFirst (selectionOrder s2) s2 else s2
    (s.devstat.ready = false → exec .schedulingPass s = .next s) ∧
    (s.devstat.ready = true → exec .schedulingPass s = .next (fairness (serveAll (waitingLaunches s3) 0 s3)))) ∧
  (∀ s : State, (∀ k < 16, hasHead s k = false) →
    exec .dependenceCheck s = .next s ∧
    (s.devstat.ready = true → s.launches = [] → s.images = [] → s.preempted = [] → (∀ row < 72, (s.row row).state ≠ .bound) →
      exec .schedulingPass s = .next { s with passAt := s.dt.toNat + 9999 })) ∧
  (∀ (s : State) (k : Nat), k < 16 → (∀ j < 16, hasHead s j = decide (j = k)) →
    let q := s.queue k
    let rcd := headRecord s k
    let obj (j : Nat) := field rcd (0x30 + 16 * j) 8
    q.hopeless = false → q.eligible = none → q.met = 0 → obj 1 = 0 → obj 2 = 0 → obj 3 = 0 →
    (obj 0 = 0 → exec .dependenceCheck s = .next (s.setQueue k { q with eligible := some s.dt.toNat })) ∧
    (obj 0 ≠ 0 →
      (fwRead s (.ofNat 12 (field rcd 6 2)) (obj 0) 8 = (s, none) →
        exec .dependenceCheck s = .next (s.setQueue k { q with hopeless := true, eligible := some s.dt.toNat })) ∧
      ∀ bytes, fwRead s (.ofNat 12 (field rcd 6 2)) (obj 0) 8 = (s, some bytes) → exec .dependenceCheck s = .next
        (if field rcd 0x38 8 ≤ ofBytes bytes then s.setQueue k { q with met := 1, eligible := some s.dt.toNat } else s))) ∧
  (∀ s : State,
    (∀ k, k ∈ selectionOrder s ↔ k < 16 ∧ hasHead s k = true ∧ (s.queue k).eligible ≠ none) ∧
    (selectionOrder s).Pairwise fun a b =>
      let p := fun k => effectivePrio s (s.queue k)
      let turn := fun k => (k + 15 - (s.rrQueue.get 15 (p k)).toNat) % 16
      p b < p a ∨ (p a = p b ∧ turn a ≤ turn b)) ∧
  (∀ (s : State) (q : LaunchQueue) (t : Nat), q.eligible = some t → effectivePrio s q = min 7 (q.prio.toNat + (s.dt.toNat - t) / 2000000)) ∧
  (∀ (s : State) (l : Launch), let ps := placement s l []
    (ps.map Prod.fst <+: pendingTasks s l) ∧ (l.gang = true → ps = [] ∨ (ps.map Prod.fst = pendingTasks s l ∧ saving s l = false)) ∧ (ps.map Prod.snd).Nodup ∧
    ∀ p ∈ ps, p.2 < 72 ∧ (s.row p.2).state = .free ∧ coreFits l.class_ l.engmask (coreOf p.2) = true) ∧
  (∀ (s : State) (row : Nat) (prio : BitVec 3), mayPreempt s prio row = true → (s.row row).pinned = false ∧
    (s.row row).prio.toNat < prio.toNat ∧ (s.row row).state ≠ .free ∧ (s.row row).state ≠ .saving ∧ (s.bank row).dying = none) ∧
  (∀ (s : State) (prio : BitVec 3), (candidates s prio).Pairwise fun a b => (s.row a).prio.toNat < (s.row b).prio.toNat ∨
    ((s.row a).prio = (s.row b).prio ∧ (s.row b).bindAt ≤ (s.row a).bindAt)) ∧
  (∀ (s : State) (g : Nat),
    (gangMissing s g = true ↔ (s.group g).valid = true ∧ (s.group g).gang = false ∧ (s.group g).arrived ≠ 0 ∧
      1000000 ≤ s.dt.toNat - (s.group g).since ∧ unboundSince s g (s.group g).since = true) ∧
    (gangMissing s g = false → exec (.gangRequired g) s = .next s) ∧
    (∀ row, gangMissing s g = true → waitersOf s g = [row] → (s.bank row).fault = none → s.preempted = [] →
      ((s.row row).state = .running ∨ (s.row row).state = .saving) →
      let w := { withdraw s row with cur := row }
      exec (.gangRequired g) s = .next (takeFault w row .S (atHead (w.bank row) .S (faultOf 0x15 0))))) ∧
  (∀ (s : State) (tick : W64), let awaits := fun l : Launch => l.split && l.remote && l.tick.isNone
    (s.launches.find? awaits = none → exec (.splitGangTick tick) s = .next { s with splitTick := some tick }) ∧
    (∀ l, s.launches.find? awaits = some l → exec (.splitGangTick tick) s = .next { s with
      launches := s.launches.map fun x => if x.id = l.id then { l with tick := some tick } else x })) ∧
  (∀ s : State, let awaits := fun l : Launch => l.split && !l.remote && !l.peer
    (s.launches.find? awaits = none → exec .splitShareBound s = .next s) ∧
    (∀ l, s.launches.find? awaits = some l →
      (pendingTasks s l ≠ [] → exec .splitShareBound s = .next { s with
        launches := s.launches.map fun x => if x.id = l.id then { l with peer := true } else x }) ∧
      (pendingTasks s l = [] → exec .splitShareBound s = .next { s with
        launches := s.launches.map fun x => if x.id = l.id then { l with peer := true, started := true, tick := some (s.dt + 50000) } else x
        sideOut := s.sideOut ++ [.tick (s.dt + 50000)] }))) ∧
  ∀ s : State, ∃ u, exec .splitGangStart s = .next u ∧ u = { s with tt := u.tt, banks := u.banks } ∧
    ∀ row < 72,
      let tick := match s.launchOf (s.bank row).launch with
        | some l => l.tick
        | none => s.splitTick
      let starts := (s.row row).state = .waiting ∧ (s.row row).hold = true ∧ (s.bank row).fault = none ∧
        ∃ t, tick = some t ∧ t.toNat ≤ s.dt.toNat
      (starts → u.row row = { s.row row with
          state := if (s.row row).halted then .halting else .bound, halted := false, since := s.cycle } ∧
        u.bank row = { s.bank row with fetch := { (s.bank row).fetch with ready := max (s.bank row).fetch.ready s.cycle } }) ∧
      (¬ starts → u.row row = s.row row ∧ u.bank row = s.bank row)

/-- R334, R333, R336, R341, R346, R37, R389, R408, R462: a migration of a 64 KiB leaf to a frame that may hold it marks every leaf that maps the
frame, waits while the frame has an owner, and then moves the bytes and rewrites the leaves; every edit of valid leaves drops their
address spaces from the TLBs; a frame that system software gives back is free once its replicas are collected; an access-table entry is
written in one step; a key-value frame that no started command names begins to move with its entry at V = 0; the retirement of an address space ends its shared groups, keys and slots. -/
def Obligations.MemoryManagement : Prop :=
  (∀ (s : State) (asid : Asid) (va newPa : Nat) (cmp : Bool),
    (∀ c, walk s asid va = .bad c → exec (.migration asid va newPa cmp) s = .next s) ∧
    ∀ pte vbase size at_, walk s asid va = .leaf pte vbase size at_ →
      let frm := pteAddr pte
      let m : Moving := ⟨asid, vbase, frm, newPa, cmp⟩
      let leaves := frameLeaves s frm
      let legal := size = 65536 ∧ frameFor s frm false = true ∧ frameFor s newPa cmp = true ∧ frm ≠ newPa ∧
        ∀ l ∈ leaves, pinnedPage s l.asid l.va = false
      let p := if s.moving.contains m then s
        else { editLeaves s leaves fun e => e - bitsOf e 53 53 * 2 ^ 53 + 2 ^ 53 with moving := s.moving ++ [m] }
      (¬ legal → exec (.migration asid va newPa cmp) s = .next s) ∧
      (legal → extentOwned p frm 65536 = true ∨ collecting p frm = true → exec (.migration asid va newPa cmp) s = .next p) ∧
      (legal → extentOwned p frm 65536 = false → collecting p frm = false → Memory.wf s.mem = true →
        ∃ t, exec (.migration asid va newPa cmp) s = .next t ∧ t.moving = p.moving.filter (fun x => x ≠ m) ∧
          let h := fetchHome p frm 65536
          (∀ x, (∀ l ∈ leaves, x < l.at_ ∨ l.at_ + 8 ≤ x) →
            t.home x = if newPa ≤ x ∧ x < newPa + 65536 then h.home (frm + (x - newPa)) else h.home x) ∧
          ∀ l, leaves = [l] → l.at_ + 8 ≤ newPa ∨ newPa + 65536 ≤ l.at_ → ∀ j < 8,
            let e := h.homeNat l.at_ 8
            t.home (l.at_ + j) = byteOf (e % 2 ^ 12 + newPa + 2 ^ 54 * pteFcnt e + (if cmp then 2 ^ 58 else 0) +
              bitsOf e 61 59 * 2 ^ 59 + 2 ^ 62 + 2 ^ 63) j)) ∧
  (∀ (s : State) (leaves : List FrameLeaf) (f : Nat → Nat), let t := editLeaves s leaves f
    t = { s with mem := t.mem, coreOv := t.coreOv, dieOv := t.dieOv, poison := t.poison, tlb := t.tlb, banks := t.banks } ∧
    (∀ x, (∀ l ∈ leaves, x < l.at_ ∨ l.at_ + 8 ≤ x) → t.home x = s.home x) ∧
    (∀ l, leaves = [l] → ∀ j < 8, t.home (l.at_ + j) = byteOf (f (s.homeNat l.at_ 8)) j) ∧
    (∀ l ∈ leaves, ∀ c < 36, ∀ e ∈ t.tlbOf c, e.asid ≠ l.asid) ∧
    ∀ l ∈ leaves, ∀ row < 72, (s.row row).asid = l.asid → (t.bank row).walk = none) ∧
  (∀ (s : State) (pa : Nat),
    (pa % 65536 = 0 → pa ∉ s.freeing → collecting s pa = false →
      runAct s (.freeFrame pa) = .next { startCollect s pa 65536 false with freeing := s.freeing ++ [pa] }) ∧
    (collecting s pa = true → endFree s pa = s) ∧
    (collecting s pa = false → ∃ m, endFree s pa = { s with framesUsed := m, freeing := s.freeing.filter (· ≠ pa) } ∧
      ∀ k, m.get false k = if k = frameIndex pa ∧ frameAddr 0 ≤ pa ∧ pa < frameAddr framePool then false else s.framesUsed.get false k)) ∧
  (∀ (s : State) (g : Target) (i : BitVec 6) (w : W64), ∃ t, exec (.accessTableWrite g i w) s = .next t ∧ t = { s with access := t.access } ∧
    ∀ h k, (t.accessTable h).get 0 k = if h = g ∧ k = i.toNat then w else (s.accessTable h).get 0 k) ∧
  (∀ (s : State) (asid : Asid) (entry : Nat) (frame : W64) (size : Nat),
    let e := s.homeNat entry 8
    let present := bitsOf e 63 63 = 1 ∧ bitsOf e 62 62 = 0
    (¬ present ∨ frameNamed s asid entry = true → exec (.frameMove asid entry frame size) s = .next s) ∧
    (present → frameNamed s asid entry = false → ∃ t, exec (.frameMove asid entry frame size) s = .next t ∧
      t.frameMoves = s.frameMoves ++ [⟨asid, entry, bitsOf e 47 12 * 4096, bitsOf frame.toNat 47 12 * 4096, size⟩] ∧
      OnlyMemory { s with frameMoves := t.frameMoves } t ∧ (∀ x, x < entry ∨ entry + 8 ≤ x → t.home x = s.home x) ∧
      ∀ j < 8, t.home (entry + j) = byteOf (e - 2 ^ 63) j)) ∧
  ∀ (s : State) (asid : Asid), ∃ t, exec (.asidRetirement asid) s = .next t ∧
    t = { s with gt := t.gt, shared := t.shared, spKeys := t.spKeys, xtsKeys := t.xtsKeys, slots := t.slots, permits := t.permits } ∧
    t.shared = s.shared.filter (fun g => g.asid ≠ asid) ∧
    (∀ k, t.group k = if ∃ g ∈ s.shared, g.asid = asid ∧ g.gidx = some k then Group.reset else s.group k) ∧
    t.spKeys = s.spKeys.map (fun e => if e.2.asid = asid then (e.1, { e.2 with valid := false }) else e) ∧
    (∀ k, t.xtsKeys.get false k = if k = asid.toNat then false else s.xtsKeys.get false k) ∧
    (∀ die < 9, ∀ j < 16, t.slot die j =
      if asidOnDie s asid die = false ∧ (s.slot die j).asid = asid then XSlot.reset else s.slot die j) ∧
    ∀ sdie < 16, ∀ rdie < 9, ∀ chan < 16, (s.permits.map Prod.fst).Nodup →
      t.permitQ sdie rdie chan = if asidOnDie s asid rdie then s.permitQ sdie rdie chan
        else (s.permitQ sdie rdie chan).filter fun p => p.1 ≠ asid

/-- R39, R30, R32, R221, R377, R340, R468, R451, R323: a write of LNQCFG takes its PRIO at once, SIZELOG and DEVFEED while EN is 0, and EN unless
some slot has no place; a write of KIMGPOL is ignored while locked and otherwise unchecks the images; accepted writes of DMCFG and XGCFG write
the die's cache back; a register write of 1, 2, 4 or 8 aligned bytes by a master with the right changes those bytes of that register only; BAR2
reads and writes the place of its aperture, or is aborted. -/
def Obligations.Registers : Prop :=
  (∀ (s : State) (k : BitVec 4) (w : W64), ∃ t, exec (.lnqcfgWrite k w) s = .next t ∧ t = { s with lnq := t.lnq } ∧
    let q := s.queue k.toNat
    let prio : BitVec 3 := .ofNat 3 (bitsOf w.toNat 10 8)
    let size := bitsOf w.toNat 3 0
    let p : LaunchQueue := { q with
      prio := prio, devfeed := w.getLsbD 17, sizelog := if 1 ≤ size ∧ size ≤ 12 then .ofNat 4 size else q.sizelog
      met := 0, hopeless := false, eligible := none }
    (∀ j, j ≠ k.toNat → t.queue j = s.queue j) ∧
    (q.en = true → t.queue k.toNat = { q with prio := prio, en := w.getLsbD 16 }) ∧
    (q.en = false → t.queue k.toNat =
      if w.getLsbD 16 = true ∧ slotsOk s p = false then { p with badbase := true } else { p with en := w.getLsbD 16 })) ∧
  (∀ (s : State) (w : W64),
    (s.kimgpol.getLsbD 16 = true → exec (.kimgpolWrite w) s = .next s) ∧
    (s.kimgpol.getLsbD 16 = false → ∃ t, exec (.kimgpolWrite w) s = .next t ∧ t = { s with kimgpol := t.kimgpol, images := t.images } ∧
      t.kimgpol = (w &&& 0x1FF01#64) ∧
      ∀ e, e ∈ t.images ↔ ∃ o ∈ s.images, (o.live ≠ 0 ∨ o.frozen = true) ∧ e = { o with checked := false })) ∧
  (∀ (s : State) (die : BitVec 4) (w : W64), 5 ≤ die.toNat → die.toNat ≤ 8 →
    let scr := bitsOf w.toNat 2 0
    let ignored := scr = 7 ∨ scratchInUse s die.toNat = true ∨ (scr = 6 ∧ s.xgcfg.get false die.toNat = true)
    (ignored → exec (.dmcfgWrite die w) s = .next s) ∧
    (¬ ignored → ∃ t, exec (.dmcfgWrite die w) s = .next t ∧ WrittenBack s { t with dmcfg := s.dmcfg } die.toNat ∧
      ∀ d, (t.dmcfg.get 0 d).toNat = if d = die.toNat then scr else (s.dmcfg.get 0 d).toNat)) ∧
  (∀ (s : State) (die : BitVec 4) (w : W64), 1 ≤ die.toNat → die.toNat ≤ 8 →
    let on := w.getLsbD 0
    let ignored := (on = true ∧ 5 ≤ die.toNat ∧ s.dmcfg.get 0 die.toNat = 6) ∨ (on = false ∧ slotsUsed s die.toNat ≠ 0)
    (ignored → exec (.xgcfgWrite die w) s = .next s) ∧
    (¬ ignored → ∃ t, exec (.xgcfgWrite die w) s = .next t ∧ (∀ d, t.xgcfg.get false d = if d = die.toNat then on else s.xgcfg.get false d) ∧
      (on = true → s.xgcfg.get false die.toNat = false → WrittenBack s { t with xgcfg := s.xgcfg } die.toNat) ∧
      (on = false ∨ s.xgcfg.get false die.toNat = true → t = { s with xgcfg := t.xgcfg }))) ∧
  (∀ (s : State) (master : BitVec 7) (pa : Nat) (w : Width) (data : W64),
    let off := paOff pa - 0x7F0000000000
    let i := Instr.registerWrite master pa w data
    let may := regionOf s pa = .sysreg ∧ pa % w.bytes = 0
    let right := hasRight s (.sysreg (paDie pa)) .wr master.toNat 0
    let ttctl := master.toNat = 127 ∧ paDie pa = 0 ∧ 0x20000 ≤ off ∧ off < 0x20900 ∧ off % 32 < 8
    (¬ may → exec i s = .next s) ∧
    (may → right = false → exec i s = .next (if master.toNat = 126 then { s with hostErr := s.hostErr + 1 } else s)) ∧
    (may → right = true →
      let put := regPut s master.toNat (paDie pa) (off / 8 * 8) (data.toNat % 2 ^ (8 * w.bytes) * 2 ^ (8 * (off % 8)))
        ((2 ^ (8 * w.bytes) - 1) * 2 ^ (8 * (off % 8)))
      exec i s = .next (if ttctl then rowOp put ((off - 0x20000) / 32) else put))) ∧
  (∀ (s : State) (master : BitVec 7) (data : W64) (k : BitVec 4), hasRight s (.sysreg 0) .wr master.toNat 0 = true →
    (exec (.registerWrite master 0x7F0000000100 .w8 data) s = exec (.kimgpolWrite data) s) ∧
    exec (.registerWrite master (0x7F0000010008 + 64 * k.toNat) .w8 data) s = exec (.lnqcfgWrite k data) s) ∧
  (∀ (old new mask j : Nat), j < 64 → (mergeBits old new mask).testBit j = if mask.testBit j then new.testBit j else old.testBit j) ∧
  (∀ s : State,
    (∀ off, off < 2 ^ 30 → barPlace s off = if s.pkg then .other else .here (0x400000000000 + off)) ∧
    (∀ off, 2 ^ 36 ≤ off → barPlace s off = .closed) ∧
    (∀ off, 2 ^ 30 ≤ off → off < 2 ^ 36 →
      (s.aper.get none (off / 2 ^ 30) = none → barPlace s off = .closed) ∧
      (∀ a, s.aper.get none (off / 2 ^ 30) = some a →
        (a.pkg = true → s.dual = false → barPlace s off = .closed) ∧
        ((a.pkg = true → s.dual = true) → a.pkg = s.pkg → barPlace s off = .here (a.base + off % 2 ^ 30)) ∧
        ((a.pkg = true → s.dual = true) → a.pkg ≠ s.pkg → barPlace s off = .other)))) ∧
  (∀ (s : State) (off n : Nat), let i := Instr.bar2Read off n
    (barPlace s off = .closed → exec i s = .next { s with hostErr := s.hostErr + 1 }) ∧
    (barPlace s off = .other → ∃ bytes, bytes.length = n ∧
      exec i s = .next { s with fresh := s.fresh + n, hostRead := s.hostRead ++ [bytes] }) ∧
    ∀ pa, barPlace s off = .here pa →
      (barOk s off pa n .rd = false → exec i s = .next { s with hostErr := s.hostErr + 1 }) ∧
      (barOk s off pa n .rd = true → regionOf s pa ≠ .sysreg → exec i s = .next { s with hostRead := s.hostRead ++ [s.homeBytes pa n] }) ∧
      (barOk s off pa n .rd = true → regionOf s pa = .sysreg → n ∈ [1, 2, 4, 8] → pa % n = 0 →
        exec i s = .next { s with hostRead := s.hostRead ++ [sysRead s pa n] })) ∧
  ∀ (s : State) (off : Nat) (bytes : List Byte), let i := Instr.bar2Write off bytes
    (barPlace s off = .closed → exec i s = .next { s with hostErr := s.hostErr + 1 }) ∧
    (barPlace s off = .other → exec i s = .next { s with sideOut := s.sideOut ++ [.hostWrite off bytes] }) ∧
    ∀ pa, barPlace s off = .here pa →
      (barOk s off pa bytes.length .wr = false ∨ (regionOf s pa ≠ .sysreg ∧ frozenPhys s pa bytes.length = true) →
        exec i s = .next { s with hostErr := s.hostErr + 1 }) ∧
      (barOk s off pa bytes.length .wr = true → regionOf s pa ≠ .sysreg → frozenPhys s pa bytes.length = false →
        ∃ t, exec i s = .next t ∧ OnlyMemory s t ∧
          ∀ a, t.home a = if pa ≤ a ∧ a < pa + bytes.length then bytes.getD (a - pa) 0 else s.home a) ∧
      (barOk s off pa bytes.length .wr = true → regionOf s pa = .sysreg → bytes.length ∈ [1, 2, 4, 8] → pa % bytes.length = 0 →
        exec i s = .next (sysWrite s 126 pa bytes))

/-- R453, R454, R455, R460, R461, R463, R464, R465, R467: each mailbox command whose operands are in range and which the state allows has its
effect and is answered with STATUS 0, and otherwise changes nothing and is answered with 2 for an operand out of range, 3 for the state and 4
for a signature or tag that fails; sleep keeps what is retained and loses the rest, and a wake restores the copies. That an address is in
range where its bytes lie in one place of memory, and a physical base below 2^52, is the model's reading (log entry 43). -/
def Obligations.HostCommands : Prop :=
  (∀ (s : State) (seq : BitVec 32) (w1 w2 : W64),
    let i := Instr.aper seq w1 w2
    let n := bitsOf w1.toNat 5 0
    let pkg := w1.getLsbD 8
    let ok := (w1 &&& ~~~0x800000000000013F#64) = 0 ∧ n ≠ 0 ∧ w2.toNat % 2 ^ 30 = 0 ∧ w2.toNat < 2 ^ 52 ∧ (pkg = true → s.dual = true)
    (¬ ok → Answered i s s seq 2) ∧
    (ok → Answered i s { s with aper := s.aper.set none n (if w1.getLsbD 63 then some ⟨pkg, w2.toNat⟩ else none) } seq 0)) ∧
  (∀ (s : State) (seq : BitVec 32) (w1 w2 w3 : W64),
    let i := Instr.hrgn seq w1 w2 w3
    let ok := (w1 &&& ~~~0x800000030FFF000F#64) = 0 ∧ w2.toNat % 4096 = 0 ∧ w3.toNat % 4096 = 0
    let x := if w1.getLsbD 63 then some ⟨.ofNat 12 (bitsOf w1.toNat 27 16), w1.getLsbD 32, w1.getLsbD 33, w2.toNat, w3.toNat⟩ else none
    (¬ ok → Answered i s s seq 2) ∧
    (ok → Answered i s { s with hrgn := s.hrgn.set none (bitsOf w1.toNat 3 0) x } seq 0)) ∧
  (∀ (s : State) (seq : BitVec 32) (w1 : W64),
    let i := Instr.power seq w1
    let w := w1.toNat
    (w < 150 ∨ 450 < w → Answered i s s seq 2) ∧
    (150 ≤ w → w ≤ 450 →
      (s.devstat.pwr ≠ 1 → Answered i s s seq 3) ∧
      (s.devstat.pwr = 1 → Answered i s { s with
        watts := w, clk := clockAt w, hold := s.hold || decide (clockAt w ≠ s.clk)
        sideOut := if s.dual && !s.pkg then s.sideOut ++ [.power w] else s.sideOut } seq 0) ∧
      ∀ c l, (c, l) ∈ [(10, 150), (11, 170), (12, 195), (13, 220), (14, 250), (15, 305), (16, 350), (17, 385), (18, 420), (19, 450)] →
        (c ≤ clockAt w ↔ l ≤ w) ∧ clockAt w ≤ 19)) ∧
  (∀ s : State, exec .clockHoldEnd s = .next { s with hold := false }) ∧
  (∀ (s : State) (seq : BitVec 32),
    let accepted := s.devstat.pwr = 1 ∧ (∀ row < 72, (s.row row).state = .free) ∧ s.launches = [] ∧ queueInSram s = false
    (¬ accepted → Answered (.sleep seq) s s seq 3) ∧
    (accepted → ∃ t, exec (.sleep seq) s = .next t ∧ t.devstat.pwr = 3 ∧ t.devstat.ready = false ∧ t.devstat.mboxbusy = false ∧
      t.sleepCopy = some (s.dmcfg, s.kverrpol) ∧
      t.coreOv = [] ∧ t.dieOv = [] ∧ t.slots = [] ∧ t.permits = [] ∧ t.xgcfg = [] ∧ t.tlb = [] ∧
      (∀ a, 1 ≤ a / 2 ^ 48 → 0x000FFFFFFFFF < a % 2 ^ 48 → t.home a = 0) ∧
      t.lnq = s.lnq ∧ t.tt = s.tt ∧ t.gt = s.gt ∧ t.keySlots = s.keySlots ∧ t.spKeys = s.spKeys ∧ t.xtsKeys = s.xtsKeys ∧
      t.kimgpol = s.kimgpol ∧ t.dt = s.dt ∧ t.access = s.access)) ∧
  (∀ s : State,
    (s.devstat.pwr ≠ 3 → exec .wake s = .next s) ∧
    (s.devstat.pwr = 3 → ∃ t, exec .wake s = .next t ∧
      t = { s with
        dmcfg := t.dmcfg, kverrpol := t.kverrpol, sleepCopy := none, dcc := t.dcc
        devstat := { s.devstat with pwr := 1, ready := true, stage := 7 }
        msix := s.msix ++ [16], agenda := s.agenda ++ [.event .schedulingPass] } ∧
      (∀ c, s.sleepCopy = some c → t.dmcfg = c.1 ∧ t.kverrpol = c.2) ∧ ∀ die < 9, t.dcc.get 0 die = s.dcc.get 0 0)) ∧
  (∀ (s : State) (seq : BitVec 32) (w1 w2 : W64),
    let i := Instr.keyload seq w1 w2
    let slot := w1.toNat
    let pa := w2.toNat
    let len := s.homeNat (pa + 1794) 2
    let ok := 1 ≤ slot ∧ slot ≤ 7 ∧ inMemory s pa 1796 = true ∧ 1 ≤ len ∧ len ≤ 1280 ∧ inMemory s pa (1796 + len) = true
    let key := s.homeBytes pa 1793
    let under := if s.keyOf 1 = [] then s.keyOf 0 else s.keyOf 1
    let verified := Config.falconVerify under (Config.shake256 (BitVec.ofNat 8 slot :: key)) (s.homeBytes (pa + 1796) len)
    (¬ ok → Answered i s s seq 2) ∧
    (ok → s.kimgpol.getLsbD 16 = true → Answered i s s seq 3) ∧
    (ok → s.kimgpol.getLsbD 16 = false →
      (verified = false → Answered i s s seq 4) ∧
      (verified = true → Answered i s (recheckImages { s with keySlots := s.keySlots.set [] slot key }) seq 0))) ∧
  (∀ (s : State) (seq : BitVec 32) (w1 : W64),
    let i := Instr.keyclear seq w1
    (w1.toNat = 0 ∨ 7 < w1.toNat → Answered i s s seq 2) ∧
    (1 ≤ w1.toNat → w1.toNat ≤ 7 →
      (s.kimgpol.getLsbD 16 = true → Answered i s s seq 3) ∧
      (s.kimgpol.getLsbD 16 = false → Answered i s (recheckImages { s with keySlots := s.keySlots.set [] w1.toNat [] }) seq 0))) ∧
  (∀ s : State, let t := recheckImages s
    t = { s with images := t.images } ∧
      ∀ e, e ∈ t.images ↔ ∃ o ∈ s.images, (o.live ≠ 0 ∨ o.frozen = true) ∧ e = { o with checked := false }) ∧
  (∀ (s : State) (seq : BitVec 32) (w1 w2 : W64),
    let i := Instr.attest seq w1 w2
    let ok := inMemory s w1.toNat 32 = true ∧ inMemory s w2.toNat 2048 = true
    let body := reportBytes s (s.homeBytes w1.toNat 32)
    let sig := (Config.deviceSign (Config.shake256 body)).take 1280
    (¬ ok → Answered i s s seq 2) ∧
    (ok → Answered i s (s.homeWriteBytes w2.toNat (fixedBytes 2048 (body ++ toBytes 2 sig.length ++ sig))) seq 0)) ∧
  (∀ (s : State) (nonce : List Byte), nonce.length = 32 → let r := reportBytes s nonce
    r.length = 648 ∧ field r 0 4 = 0x54544154 ∧ field r 20 4 = (if s.dual then 2 else 1) ∧ field r 24 8 = s.dt.toNat ∧
    (r.drop 32).take 32 = nonce ∧ field r 128 8 = s.kimgpol.toNat ∧
    ∀ j < 8, (r.drop (136 + 64 * j)).take 64 = fixedBytes 64 (if s.keyOf j = [] then [] else Config.shake256 (s.keyOf j))) ∧
  (∀ (s : State) (seq : BitVec 32) (w1 w2 w3 w4 : W64),
    let i := Instr.seal seq w1 w2 w3 w4
    let asid : Asid := .ofNat 12 w1.toNat
    let n := w3.toNat
    let ok := w1.toNat < 4096 ∧ n % 4096 = 0 ∧ 4096 ≤ n ∧ n ≤ 1048576 ∧ hostRange s asid true w4.toNat (80 + n) = true
    (¬ ok → Answered i s s seq 2) ∧
    (ok →
      (∀ p, fwRead s asid w2.toNat n = (p, none) → Answered i s s seq 2) ∧
      ∀ p plain, fwRead s asid w2.toNat n = (p, some plain) →
        let nonce := toBytes 8 (Config.freeWord p.fresh).toNat ++ toBytes 4 p.sealCount
        let head := fixedBytes 64 (toBytes 4 0x4C414553 ++ toBytes 4 asid.toNat ++ toBytes 8 n ++ nonce)
        let c := Config.gcmSeal ((Config.shake256 (Config.sealRoot ++ toBytes 2 asid.toNat)).take 32) nonce head plain
        Answered i s { p with fresh := p.fresh + 1, sealCount := p.sealCount + 1
                              hostMem := Store.setRun zeroByte p.hostMem w4.toNat (head ++ fixedBytes n c.1 ++ fixedBytes 16 c.2) } seq 0)) ∧
  ∀ (s : State) (seq : BitVec 32) (w1 w2 w3 w4 : W64),
    let i := Instr.unseal seq w1 w2 w3 w4
    let asid : Asid := .ofNat 12 w1.toNat
    let n := w4.toNat
    let p := provide s asid w3.toNat n
    let ok := w1.toNat < 4096 ∧ n % 4096 = 0 ∧ 4096 ≤ n ∧ n ≤ 1048576 ∧ hostRange s asid false w2.toNat (80 + n) = true ∧
      reachable p asid 60 w3.toNat n = true
    let block := Store.getRun zeroByte s.hostMem w2.toNat (80 + n)
    let sound := field block 0 4 = 0x4C414553 ∧ field block 4 4 = asid.toNat ∧ field block 8 8 = n
    let plain := Config.gcmOpen ((Config.shake256 (Config.sealRoot ++ toBytes 2 asid.toNat)).take 32) ((block.drop 16).take 12) (block.take 64)
      ((block.drop 64).take n) (block.drop (64 + n))
    (¬ ok → Answered i s s seq 2) ∧
    (ok →
      (¬ sound ∨ plain = none → Answered i s s seq 4) ∧
      (∀ bytes, sound → plain = some bytes →
        Answered i s ((List.range n).foldl (freshenRange asid w3.toNat) (fwWrite p asid w3.toNat (fixedBytes n bytes))) seq 0))

/-- R115, R457, R458, R326, R459, R466, R456: an exchange with the host's time sets what DT is slewed by and PTMLOCK, and DT then advances with the
cycle and at most 50 ppm beside it, never backwards; a correction brings the copies up to DT and none back; losing and training the pair link
move PAIRDOWN and PAIRUP; package 1 takes DT and the power limit from package 0; a freeze entry of the other package awaits its barrier; a cold start leaves the reset state with LPDDR as it was, and
READY when no stage fails, of which the pair link's stops package 1 alone. How an exchange's difference is spread is the model's choice (log
entry 42), and so is that a failure of a stage is a constant of the configuration (log entry 58). -/
def Obligations.TimeAndPair : Prop :=
  (∀ (s : State) (host : W64), let d : Int := host.toNat - s.dt.toNat
    exec (.ptmExchange host) s = .next { s with
      slew := d, devstat := { s.devstat with ptmlock := decide (-1000 ≤ d ∧ d ≤ 1000) } }) ∧
  (∀ s : State, let n := (s.dtAcc + 10) / s.clk
    ∃ d : Int, (advanceDt s).dt = s.dt + .ofNat 64 (n + d).toNat ∧ (advanceDt s).slew = s.slew - d ∧ 0 ≤ n + d ∧
      (d = 0 ∨ (d = s.slew.sign ∧ 20000 ≤ s.slewAcc + n))) ∧
  (∀ s : State, ∃ t, exec .dtCorrection s = .next t ∧
    t = { s with dtDie := t.dtDie, sideOut := if s.dual && !s.pkg then s.sideOut ++ [.dt s.dt] else s.sideOut } ∧ ∀ die < 9,
    ((s.dtDie.get 0 die).toNat ≤ s.dt.toNat → t.dtDie.get 0 die = s.dt) ∧
    (s.dt.toNat < (s.dtDie.get 0 die).toNat → t.dtDie.get 0 die = s.dtDie.get 0 die)) ∧
  (∀ s : State,
    (s.dual = false → exec .pairLinkLoss s = .next s ∧ exec .pairLinkTrained s = .next s) ∧
    (s.dual = true →
      exec .pairLinkLoss s = .next { s with
        devstat := { s.devstat with pairdown := true, pairup := false }, msix := if s.devstat.pairup then s.msix ++ [16] else s.msix } ∧
      exec .pairLinkTrained s = .next { s with
        devstat := { s.devstat with pairup := true }, msix := if s.devstat.pairup then s.msix else s.msix ++ [16] })) ∧
  (∀ (s : State) (t : W64) (w : Nat), runAct s (.pairDt t) = .next { s with slew := t.toNat - s.dt.toNat } ∧
    runAct s (.pairPower w) = .next { s with watts := w, clk := clockAt w, hold := s.hold || decide (clockAt w ≠ s.clk) }) ∧
  (∀ (s : State) (asid : Asid) (base len : W64) (group : BitVec 16), exec (.pairFreezeEntry asid base len group) s = .next { s with
    pairFreezes := s.pairFreezes ++ [⟨asid, base.toNat, len.toNat, group, false, 0, [], false⟩] }) ∧
  ∀ s : State, ∃ t, exec .coldStart s = .next t ∧
    let pair := s.dual && Config.pairLinkOk
    let lone := s.pkg = true ∧ s.dual = true ∧ pair = false
    let failed := fun (code : BitVec 8) (stage : BitVec 4) (secure : Bool) => t.devstat.ready = false ∧ t.devstat.booterr = code ∧
      t.devstat.stage = stage ∧ t.devstat.secure = secure ∧ t.msix = s.msix ∧ t.dual = s.dual
    t.pkg = s.pkg ∧ t.hostMem = s.hostMem ∧
    (∀ row, t.row row = Row.reset ∧ t.bank row = Bank.reset) ∧ (∀ g, t.group g = Group.reset) ∧ (∀ k, t.queue k = LaunchQueue.reset) ∧
    t.kimgpol = 0xFF00 ∧ t.dt = 0 ∧ t.xtsKeys = [] ∧ t.spKeys = [] ∧ t.launches = [] ∧ t.images = [] ∧ t.tlb = [] ∧
    (∀ a, t.home a = if a % 2 ^ 48 ≤ 0x000FFFFFFFFF then s.home a else 0) ∧
    (lone → failed 4 3 false) ∧
    (¬ lone → Config.firmwareOk = false → failed 1 1 false) ∧
    (¬ lone → Config.firmwareOk = true → Config.lpddrOk = false → failed 2 2 true) ∧
    (¬ lone → Config.firmwareOk = true → Config.lpddrOk = true → Config.sramOk = false → failed 3 5 true) ∧
    (¬ lone → Config.firmwareOk = true → Config.lpddrOk = true → Config.sramOk = true →
      t.devstat.ready = true ∧ t.devstat.secure = true ∧ t.devstat.stage = 7 ∧ t.devstat.pwr = 1 ∧
      t.devstat.booterr = (if s.dual = true ∧ pair = false then 4 else 0) ∧ t.devstat.pairup = pair ∧ t.dual = pair ∧ t.msix = s.msix ++ [16])
end

