-- ==== Sys2Proof/Laws/Store.lean ====
section
/-! SUPPORT. Laws of stores: a read after a write, and that writes keep the canonical form. -/

namespace Sys2Proof.Machine

variable {α : Type}

@[simp] theorem Store.get_nil (d : α) (k : Nat) : Store.get d [] k = d := rfl

theorem Store.get_insert (d : α) (m : Store α) (k j : Nat) (v : α) :
    Store.get d (Store.insert m k v) j = if k = j then v else Store.get d m j := by
  induction m with
  | nil => simp [Store.insert, Store.get]
  | cons e r ih =>
    obtain ⟨i, w⟩ := e
    simp only [Store.insert]
    split
    · simp [Store.get]
    · split <;> simp only [Store.get]
      · subst_vars; split <;> simp
      · rw [ih]; grind

theorem Store.get_erase (d : α) (m : Store α) (k j : Nat) :
    Store.get d (Store.erase m k) j = if k = j then d else Store.get d m j := by
  induction m with
  | nil => simp [Store.erase]
  | cons e r ih =>
    obtain ⟨i, w⟩ := e
    simp only [Store.erase]
    split
    · rw [ih]; simp only [Store.get]; grind
    · simp only [Store.get, ih]; grind

/-- A read after a write. -/
@[simp] theorem Store.get_set [DecidableEq α] (d : α) (m : Store α) (k j : Nat) (v : α) :
    Store.get d (Store.set d m k v) j = if k = j then v else Store.get d m j := by
  unfold Store.set
  split
  · subst_vars; exact Store.get_erase ..
  · exact Store.get_insert ..

theorem Store.wfFrom_mono [DecidableEq α] {d : α} {m : Store α} {lo hi : Nat} (h : Store.wfFrom d hi m = true) (hl : lo ≤ hi) :
    Store.wfFrom d lo m = true := by
  cases m with
  | nil => rfl
  | cons e r =>
    obtain ⟨i, w⟩ := e
    simp only [Store.wfFrom, Bool.and_eq_true, decide_eq_true_eq] at h ⊢
    exact ⟨⟨le_trans hl h.1.1, h.1.2⟩, h.2⟩

theorem Store.wfFrom_erase [DecidableEq α] {d : α} {k : Nat} : ∀ {m : Store α} {lo : Nat}, Store.wfFrom d lo m = true →
    Store.wfFrom d lo (Store.erase m k) = true
  | [], _, _ => rfl
  | (i, w) :: r, lo, h => by
    simp only [Store.wfFrom, Bool.and_eq_true, decide_eq_true_eq] at h
    simp only [Store.erase]
    split
    · exact Store.wfFrom_mono (Store.wfFrom_erase h.2) (Nat.le_succ_of_le h.1.1)
    · simp [Store.wfFrom, h.1.1, h.1.2, Store.wfFrom_erase h.2]

theorem Store.wfFrom_insert [DecidableEq α] {d v : α} {k : Nat} (hv : v ≠ d) : ∀ {m : Store α} {lo : Nat},
    Store.wfFrom d lo m = true → lo ≤ k → Store.wfFrom d lo (Store.insert m k v) = true
  | [], _, _, hk => by simp [Store.insert, Store.wfFrom, hk, hv]
  | (i, w) :: r, lo, h, hk => by
    have h' := h
    simp only [Store.wfFrom, Bool.and_eq_true, decide_eq_true_eq] at h
    simp only [Store.insert]
    split
    · simp only [Store.wfFrom, Bool.and_eq_true, decide_eq_true_eq]
      exact ⟨⟨hk, hv⟩, ⟨by omega, h.1.2⟩, h.2⟩
    · split
      · subst_vars; simp [Store.wfFrom, hk, hv, h.2]
      · simp only [Store.wfFrom, Bool.and_eq_true, decide_eq_true_eq]
        exact ⟨h.1, Store.wfFrom_insert hv h.2 (by omega)⟩

/-- A write keeps the canonical form. -/
theorem Store.wf_set [DecidableEq α] {d : α} {m : Store α} (k : Nat) (v : α) (h : Store.wf d m = true) :
    Store.wf d (Store.set d m k v) = true := by
  unfold Store.set Store.wf at *
  split
  · exact Store.wfFrom_erase h
  · exact Store.wfFrom_insert ‹_› h (Nat.zero_le _)

theorem Store.wf_nil [DecidableEq α] (d : α) : Store.wf d ([] : Store α) = true := rfl

/-- A canonical store reads as the default below its first key. -/
theorem Store.get_below [DecidableEq α] {d : α} : ∀ {m : Store α} {lo k : Nat}, Store.wfFrom d lo m = true → k < lo →
    Store.get d m k = d
  | [], _, _, _, _ => rfl
  | (i, w) :: r, lo, k, h, hk => by
    simp only [Store.wfFrom, Bool.and_eq_true, decide_eq_true_eq] at h
    simp only [Store.get]
    rw [if_neg (by omega)]
    exact Store.get_below h.2 (by omega)

theorem Store.wfFrom_filter [DecidableEq α] {d : α} (p : Nat × α → Bool) : ∀ {m : Store α} {lo : Nat},
    Store.wfFrom d lo m = true → Store.wfFrom d lo (List.filter p m) = true
  | [], _, _ => rfl
  | (i, w) :: r, lo, h => by
    simp only [Store.wfFrom, Bool.and_eq_true, decide_eq_true_eq] at h
    rw [List.filter_cons]
    split
    · simp [Store.wfFrom, h.1.1, h.1.2, Store.wfFrom_filter p h.2]
    · exact Store.wfFrom_mono (Store.wfFrom_filter p h.2) (Nat.le_succ_of_le h.1.1)

/-- Leaving cells out keeps the canonical form. -/
theorem Store.wf_filter [DecidableEq α] {d : α} {m : Store α} (p : Nat × α → Bool) (h : Store.wf d m = true) :
    Store.wf d (List.filter p m) = true := Store.wfFrom_filter p h

/-- Writing cells one after the other keeps the canonical form. -/
theorem Store.wf_foldl_set [DecidableEq α] {d : α} {β : Type} (f : β → Nat) (g : β → α) (l : List β) : ∀ {m : Store α},
    Store.wf d m = true → Store.wf d (l.foldl (fun r e => Store.set d r (f e) (g e)) m) = true := by
  induction l with
  | nil => intro m h; exact h
  | cons e l ih => intro m h; exact ih (Store.wf_set _ _ h)

end Sys2Proof.Machine
end

