-- ==== Sys2Proof/Laws/State.lean ====
section
/-! SUPPORT. Laws of the state's updates: what each accessor reads after each update. -/

namespace Sys2Proof.Machine

/-! ### Banks, rows, cores and groups -/

@[simp] theorem bank_setBank (s : State) (r k : Nat) (b : Bank) : (s.setBank r b).bank k = if r = k then b else s.bank k := by
  simp [State.setBank, State.bank]
@[simp] theorem row_setBank (s : State) (r k : Nat) (b : Bank) : (s.setBank r b).row k = s.row k := rfl
@[simp] theorem group_setBank (s : State) (r k : Nat) (b : Bank) : (s.setBank r b).group k = s.group k := rfl
@[simp] theorem coreAt_setBank (s : State) (r k : Nat) (b : Bank) : (s.setBank r b).coreAt k = s.coreAt k := rfl
@[simp] theorem cur_setBank (s : State) (r : Nat) (b : Bank) : (s.setBank r b).cur = s.cur := rfl
@[simp] theorem mem_setBank (s : State) (r : Nat) (b : Bank) : (s.setBank r b).mem = s.mem := rfl
@[simp] theorem cycle_setBank (s : State) (r : Nat) (b : Bank) : (s.setBank r b).cycle = s.cycle := rfl
@[simp] theorem coreOv_setBank (s : State) (r : Nat) (b : Bank) : (s.setBank r b).coreOv = s.coreOv := rfl
@[simp] theorem dieOv_setBank (s : State) (r : Nat) (b : Bank) : (s.setBank r b).dieOv = s.dieOv := rfl
@[simp] theorem home_setBank (s : State) (r pa : Nat) (b : Bank) : (s.setBank r b).home pa = s.home pa := rfl

@[simp] theorem bank_modBank (s : State) (r k : Nat) (f : Bank → Bank) :
    (s.modBank r f).bank k = if r = k then f (s.bank r) else s.bank k := by simp [State.modBank]
@[simp] theorem row_modBank (s : State) (r k : Nat) (f : Bank → Bank) : (s.modBank r f).row k = s.row k := rfl
@[simp] theorem group_modBank (s : State) (r k : Nat) (f : Bank → Bank) : (s.modBank r f).group k = s.group k := rfl
@[simp] theorem coreAt_modBank (s : State) (r k : Nat) (f : Bank → Bank) : (s.modBank r f).coreAt k = s.coreAt k := rfl
@[simp] theorem cur_modBank (s : State) (r : Nat) (f : Bank → Bank) : (s.modBank r f).cur = s.cur := rfl
@[simp] theorem mem_modBank (s : State) (r : Nat) (f : Bank → Bank) : (s.modBank r f).mem = s.mem := rfl
@[simp] theorem cycle_modBank (s : State) (r : Nat) (f : Bank → Bank) : (s.modBank r f).cycle = s.cycle := rfl
@[simp] theorem home_modBank (s : State) (r pa : Nat) (f : Bank → Bank) : (s.modBank r f).home pa = s.home pa := rfl

@[simp] theorem here_modHere (s : State) (f : Bank → Bank) : (s.modHere f).here = f s.here := by simp [State.modHere, State.here]
@[simp] theorem cur_modHere (s : State) (f : Bank → Bank) : (s.modHere f).cur = s.cur := rfl
@[simp] theorem row_modHere (s : State) (f : Bank → Bank) (k : Nat) : (s.modHere f).row k = s.row k := rfl
@[simp] theorem group_modHere (s : State) (f : Bank → Bank) (k : Nat) : (s.modHere f).group k = s.group k := rfl
@[simp] theorem mem_modHere (s : State) (f : Bank → Bank) : (s.modHere f).mem = s.mem := rfl

@[simp] theorem row_setRow (s : State) (r k : Nat) (x : Row) : (s.setRow r x).row k = if r = k then x else s.row k := by
  simp [State.setRow, State.row]
@[simp] theorem bank_setRow (s : State) (r k : Nat) (x : Row) : (s.setRow r x).bank k = s.bank k := rfl
@[simp] theorem cur_setRow (s : State) (r : Nat) (x : Row) : (s.setRow r x).cur = s.cur := rfl
@[simp] theorem mem_setRow (s : State) (r : Nat) (x : Row) : (s.setRow r x).mem = s.mem := rfl
@[simp] theorem row_modRow (s : State) (r k : Nat) (f : Row → Row) :
    (s.modRow r f).row k = if r = k then f (s.row r) else s.row k := by simp [State.modRow]
@[simp] theorem bank_modRow (s : State) (r k : Nat) (f : Row → Row) : (s.modRow r f).bank k = s.bank k := rfl
@[simp] theorem cur_modRow (s : State) (r : Nat) (f : Row → Row) : (s.modRow r f).cur = s.cur := rfl
@[simp] theorem mem_modRow (s : State) (r : Nat) (f : Row → Row) : (s.modRow r f).mem = s.mem := rfl

@[simp] theorem coreAt_setCore (s : State) (c k : Nat) (x : Core) : (s.setCore c x).coreAt k = if c = k then x else s.coreAt k := by
  simp [State.setCore, State.coreAt]
@[simp] theorem bank_setCore (s : State) (c k : Nat) (x : Core) : (s.setCore c x).bank k = s.bank k := rfl
@[simp] theorem row_setCore (s : State) (c k : Nat) (x : Core) : (s.setCore c x).row k = s.row k := rfl
@[simp] theorem mem_setCore (s : State) (c : Nat) (x : Core) : (s.setCore c x).mem = s.mem := rfl

@[simp] theorem group_setGroup (s : State) (g k : Nat) (x : Group) : (s.setGroup g x).group k = if g = k then x else s.group k := by
  simp [State.setGroup, State.group]
@[simp] theorem bank_setGroup (s : State) (g k : Nat) (x : Group) : (s.setGroup g x).bank k = s.bank k := rfl
@[simp] theorem row_setGroup (s : State) (g k : Nat) (x : Group) : (s.setGroup g x).row k = s.row k := rfl
@[simp] theorem mem_setGroup (s : State) (g : Nat) (x : Group) : (s.setGroup g x).mem = s.mem := rfl

@[simp] theorem queue_setQueue (s : State) (k j : Nat) (q : LaunchQueue) : (s.setQueue k q).queue j = if k = j then q else s.queue j := by
  simp [State.setQueue, State.queue]

/-! ### Registers of a bank -/

@[simp] theorem sreg_setS (b : Bank) (n k : BitVec 6) (v : W64) :
    (b.setS n v).sreg k = if n = k ∧ n ≠ 0 then v else b.sreg k := by
  unfold Bank.setS Bank.sreg
  by_cases hn : n = 0 <;> by_cases hk : k = 0 <;> by_cases h : n = k <;> simp_all [← BitVec.toNat_inj]
@[simp] theorem creg_setC (b : Bank) (n k : BitVec 4) (v : Bool) :
    (b.setC n v).creg k = if n = k ∧ n ≠ 0 then v else b.creg k := by
  unfold Bank.setC Bank.creg
  by_cases hn : n = 0 <;> by_cases hk : k = 0 <;> by_cases h : n = k <;> simp_all [← BitVec.toNat_inj]
@[simp] theorem areg_setA (b : Bank) (n k : BitVec 5) (v : W64) :
    (b.setA n v).areg k = if n = k ∧ n ≠ 0 then v else b.areg k := by
  unfold Bank.setA Bank.areg
  by_cases hn : n = 0 <;> by_cases hk : k = 0 <;> by_cases h : n = k <;> simp_all [← BitVec.toNat_inj]
@[simp] theorem vreg_setV (b : Bank) (n k : Nat) (data en : VWord) :
    (b.setV n data en).vreg k = if n = k then (b.vreg n &&& ~~~en) ||| (data &&& en) else b.vreg k := by
  simp [Bank.setV, Bank.vreg]
@[simp] theorem mreg_setM (b : Bank) (n k : BitVec 6) (data en : MWord) :
    (b.setM n data en).mreg k = if n = k ∧ n ≠ 0 then (b.mreg n &&& ~~~en) ||| (data &&& en) else b.mreg k := by
  unfold Bank.setM Bank.mreg
  by_cases hn : n = 0 <;> by_cases hk : k = 0 <;> by_cases h : n = k <;> simp_all [← BitVec.toNat_inj]

@[simp] theorem setS_zero (b : Bank) (v : W64) : b.setS 0 v = b := rfl
@[simp] theorem setC_zero (b : Bank) (v : Bool) : b.setC 0 v = b := rfl
@[simp] theorem setA_zero (b : Bank) (v : W64) : b.setA 0 v = b := rfl
@[simp] theorem setM_zero (b : Bank) (d e : MWord) : b.setM 0 d e = b := rfl

end Sys2Proof.Machine
end

