-- ==== Sys2Proof/Laws/Mem.lean ====
section
/-! SUPPORT. Laws of memory: what writes and publications change, and that they keep the canonical form. -/

namespace Sys2Proof

open Machine

/-! ### What changes -/

theorem OnlyMemory.refl (s : State) : OnlyMemory s s := rfl

theorem OnlyMemory.trans {s t u : State} (h : OnlyMemory s t) (k : OnlyMemory t u) : OnlyMemory s u := by
  unfold OnlyMemory at *
  rw [h] at k
  exact k

theorem onlyMemory_homeWrite (s : State) (pa : Nat) (v : Byte) : OnlyMemory s (s.homeWrite pa v) := rfl

theorem onlyMemory_homeWriteBytes (l : List Byte) : ∀ (s : State) (pa : Nat), OnlyMemory s (s.homeWriteBytes pa l) := by
  induction l with
  | nil => intro s pa; rfl
  | cons v r ih => intro s pa; exact (onlyMemory_homeWrite s pa v).trans (ih _ _)

theorem onlyMemory_publishHome (l : Store (Option Byte)) : ∀ s : State, OnlyMemory s (publishHome s l) := by
  induction l with
  | nil => intro s; rfl
  | cons e r ih =>
    obtain ⟨pa, v⟩ := e
    cases v with
    | none => intro s; exact ih _
    | some v => intro s; exact (onlyMemory_homeWrite s pa v).trans (ih _)

theorem onlyMemory_publishDie (die : Nat) (l : Store (Option Byte)) : ∀ s : State, OnlyMemory s (publishDie s die l) := by
  induction l with
  | nil => intro s; rfl
  | cons e r ih =>
    obtain ⟨pa, v⟩ := e
    cases v with
    | none => intro s; exact ih _
    | some v =>
      intro s
      simp only [publishDie]
      split
      · exact (onlyMemory_homeWrite s pa v).trans (ih _)
      · exact ih { s with dieOv := _, coreOv := _ }

namespace OnlyMemory

variable {s t : State} (h : OnlyMemory s t)
include h

theorem bank (r : Nat) : t.bank r = s.bank r := by rw [h]; rfl
theorem here : t.here = s.here := by rw [h]; rfl
theorem row (r : Nat) : t.row r = s.row r := by rw [h]; rfl
theorem group (g : Nat) : t.group g = s.group g := by rw [h]; rfl
theorem cur : t.cur = s.cur := by rw [h]

end OnlyMemory

/-- A release changes memory and its copies, and leaves the row with nothing unpublished (R295 to R297). -/
theorem releaseAt_eq (s : State) (row level : Nat) :
    OnlyMemory (s.modBank row fun b => { b with pend := [], under := [] }) (releaseAt s row level) := by
  unfold releaseAt
  split
  · rfl
  · exact OnlyMemory.trans (t := { s.modBank row fun b => { b with pend := [], under := [] } with coreOv := _ }) rfl
      (onlyMemory_publishDie _ _ _)
  · exact OnlyMemory.trans (t := { s.modBank row fun b => { b with pend := [], under := [] } with coreOv := _, dieOv := _ }) rfl
      (onlyMemory_publishHome _ _)

theorem bank_releaseAt (s : State) (row level r : Nat) :
    (releaseAt s row level).bank r = if row = r then { s.bank row with pend := [], under := [] } else s.bank r := by
  rw [(releaseAt_eq s row level).bank]; simp
theorem row_releaseAt (s : State) (row level r : Nat) : (releaseAt s row level).row r = s.row r := (releaseAt_eq s row level).row r
theorem group_releaseAt (s : State) (row level r : Nat) : (releaseAt s row level).group r = s.group r :=
  (releaseAt_eq s row level).group r
theorem cur_releaseAt (s : State) (row level : Nat) : (releaseAt s row level).cur = s.cur := (releaseAt_eq s row level).cur

theorem bank_phaseRelease (s : State) (row level r : Nat) :
    (phaseRelease s row level).bank r = if row = r then { s.bank row with pend := [], under := [] } else s.bank r := bank_releaseAt s row level r
theorem row_phaseRelease (s : State) (row level r : Nat) : (phaseRelease s row level).row r = s.row r := row_releaseAt s row level r
theorem group_phaseRelease (s : State) (row level r : Nat) : (phaseRelease s row level).group r = s.group r :=
  group_releaseAt s row level r
theorem cur_phaseRelease (s : State) (row level : Nat) : (phaseRelease s row level).cur = s.cur := cur_releaseAt s row level
theorem here_phaseRelease (s : State) (level : Nat) : (phaseRelease s s.cur level).here = { s.here with pend := [], under := [] } := by
  unfold State.here; rw [cur_phaseRelease, bank_phaseRelease]; simp

/-! ### The canonical form -/

theorem memWf_homeWrite {s : State} (h : Memory.wf s.mem = true) (pa : Nat) (v : Byte) : Memory.wf (s.homeWrite pa v).mem = true :=
  Store.wf_set _ _ h

theorem memWf_homeWriteBytes (l : List Byte) : ∀ {s : State} (pa : Nat), Memory.wf s.mem = true →
    Memory.wf (s.homeWriteBytes pa l).mem = true := by
  induction l with
  | nil => intro s pa h; exact h
  | cons v r ih => intro s pa h; exact ih _ (memWf_homeWrite h pa v)

theorem memWf_publishHome (l : Store (Option Byte)) : ∀ {s : State}, Memory.wf s.mem = true →
    Memory.wf (publishHome s l).mem = true := by
  induction l with
  | nil => intro s h; exact h
  | cons e r ih =>
    obtain ⟨pa, v⟩ := e
    cases v with
    | none => intro s h; exact ih h
    | some v => intro s h; exact ih (memWf_homeWrite h pa v)

theorem memWf_publishDie (die : Nat) (l : Store (Option Byte)) : ∀ {s : State}, Memory.wf s.mem = true →
    Memory.wf (publishDie s die l).mem = true := by
  induction l with
  | nil => intro s h; exact h
  | cons e r ih =>
    obtain ⟨pa, v⟩ := e
    cases v with
    | none => intro s h; exact ih h
    | some v =>
      intro s h
      simp only [publishDie]
      split
      · exact ih (memWf_homeWrite h pa v)
      · exact ih h

theorem memWf_releaseAt {s : State} (row level : Nat) (h : Memory.wf s.mem = true) : Memory.wf (releaseAt s row level).mem = true := by
  unfold releaseAt
  split
  · exact h
  · exact memWf_publishDie _ _ h
  · exact memWf_publishHome _ h

theorem memWf_filter {m : List Host.Cell} (p : Host.Cell → Bool) (h : Memory.wf m = true) : Memory.wf (m.filter p) = true :=
  Store.wf_filter p h

/-- Memory right after reset is in canonical form. -/
theorem memWf_reset : Memory.wf State.reset.mem = true := rfl

/-- A byte reads at its home what was last written there. -/
theorem home_homeWrite (s : State) (pa a : Nat) (v : Byte) : (s.homeWrite pa v).home a = if pa = a then v else s.home a := by
  simp [State.homeWrite, State.home]

end Sys2Proof
end

