-- ==== Sys2Proof/Laws/Issue.lean ====
section
/-! SUPPORT. What an issue does to a bank and to the package: one law for each shared operation of the three units. -/

namespace Sys2Proof.Machine

/-- The next state differs from the present one in the current bank only, which becomes `b`. -/
theorem conclude_ok_modHere (u : UnitId) (s : State) (f : Bank → Bank) :
    conclude u (.ok (s.modHere f)) = { s with banks := (conclude u (.ok (s.modHere f))).banks } ∧
      ∀ r, (conclude u (.ok (s.modHere f))).bank r = if r = s.cur then (f s.here).issued u else s.bank r := by
  refine ⟨rfl, fun r => ?_⟩
  by_cases h : r = s.cur
  · simp [conclude, h, State.modHere, State.here]
  · simp [conclude, h, State.modHere, Ne.symm h]

@[simp] theorem flight_setFlight (b : Bank) (u v : UnitId) (l : List InFlight) :
    (b.setFlight u l).flight v = if u = v then l else b.flight v := by cases u <;> cases v <;> rfl
@[simp] theorem queue_setFlight (b : Bank) (u v : UnitId) (l : List InFlight) : (b.setFlight u l).queue v = b.queue v := by
  cases u <;> cases v <;> rfl
@[simp] theorem sWait_setFlight (b : Bank) (u : UnitId) (l : List InFlight) : (b.setFlight u l).sWait = b.sWait := by cases u <;> rfl
@[simp] theorem sWait_setQueue (b : Bank) (u : UnitId) (l : List QEntry) : (b.setQueue u l).sWait = b.sWait := by cases u <;> rfl
@[simp] theorem flight_setQueue (b : Bank) (u v : UnitId) (l : List QEntry) : (b.setQueue u l).flight v = b.flight v := by
  cases u <;> cases v <;> rfl
theorem setFlight_setQueue (b : Bank) (u v : UnitId) (l : List QEntry) (k : List InFlight) :
    (b.setFlight v k).setQueue u l = (b.setQueue u l).setFlight v k := by cases u <;> cases v <;> rfl
@[simp] theorem setFlight_setFlight (b : Bank) (u : UnitId) (l k : List InFlight) : (b.setFlight u l).setFlight u k = b.setFlight u k := by
  cases u <;> rfl

theorem landAll_append (b : Bank) (l k : List Result) : b.landAll (l ++ k) = (b.landAll l).landAll k := by
  simp [Bank.landAll, List.foldl_append]

@[simp] theorem landAll_nil (b : Bank) : b.landAll [] = b := rfl
@[simp] theorem landAll_one (b : Bank) (r : Result) : b.landAll [r] = b.land r := rfl

/-- The bytes of a tile result over a buffer. -/
def accPut : Store Byte → List (Nat × Byte) → Store Byte
  | a, [] => a
  | a, (o, v) :: r => accPut (a.set zeroByte o v) r
/-- The marks that a tile result sets, at the places `f`. -/
def markPut (f : Nat → Nat) (x : Bool) : Store Bool → List (Nat × Byte) → Store Bool
  | m, [] => m
  | m, (o, _) :: r => markPut f x (m.set false (f o) x) r

/-- A tile result changes the accumulator half and its marks only. -/
theorem writeAcc_eq (l : List (Nat × Byte)) : ∀ b : Bank, b.writeAcc l = { b with
    acc := accPut b.acc l, accBad := markPut (· / 8) false b.accBad l, dirty := markPut (· / 512) true b.dirty l } := by
  induction l with
  | nil => intro b; rfl
  | cons e r ih => obtain ⟨o, v⟩ := e; intro b; rw [Bank.writeAcc, ih]; rfl

/-- Placing a result does not touch a unit's stall count. -/
theorem land_setStall (b : Bank) (r : Result) (u : UnitId) (n : Nat) : (b.setStall u n).land r = (b.land r).setStall u n := by
  cases r <;> simp only [Bank.land, writeAcc_eq] <;> cases u <;> first | rfl | skip
  all_goals simp only [Bank.setStall, Bank.setS, Bank.setC, Bank.setA, Bank.setM, Bank.mreg, Bank.setWordQ, Bank.wordQ]
  all_goals (split <;> rfl)

/-- Nor a landing buffer. -/
theorem land_setFlight (b : Bank) (r : Result) (u : UnitId) (l : List InFlight) :
    (b.setFlight u l).land r = (b.land r).setFlight u l := by
  cases r <;> simp only [Bank.land, writeAcc_eq] <;> cases u <;> first | rfl | skip
  all_goals simp only [Bank.setFlight, Bank.setS, Bank.setC, Bank.setA, Bank.setM, Bank.mreg, Bank.setWordQ, Bank.wordQ]
  all_goals (split <;> rfl)

theorem landAll_setStall (l : List Result) (u : UnitId) (n : Nat) : ∀ b : Bank,
    (b.setStall u n).landAll l = (b.landAll l).setStall u n := by
  induction l with
  | nil => intro b; rfl
  | cons r l ih => intro b; simp only [Bank.landAll, List.foldl_cons] at *; rw [land_setStall, ih]

theorem landAll_setFlight (l : List Result) (u : UnitId) (k : List InFlight) : ∀ b : Bank,
    (b.setFlight u k).landAll l = (b.landAll l).setFlight u k := by
  induction l with
  | nil => intro b; rfl
  | cons r l ih => intro b; simp only [Bank.landAll, List.foldl_cons] at *; rw [land_setFlight, ih]

theorem flight_landAll (l : List Result) (u : UnitId) (b : Bank) : (b.landAll l).flight u = b.flight u := by
  have h := landAll_setFlight l u (b.flight u) b
  have e : b.setFlight u (b.flight u) = b := by cases u <;> rfl
  rw [e] at h
  conv_lhs => rw [h]
  simp

theorem halting_setQueue (b : Bank) (u : UnitId) (l : List QEntry) : (b.setQueue u l).halting = b.halting := by cases u <;> rfl
theorem halting_setFlight (b : Bank) (u : UnitId) (l : List InFlight) : (b.setFlight u l).halting = b.halting := by cases u <;> rfl

theorem flight_setStall (b : Bank) (u v : UnitId) (n : Nat) : (b.setStall u n).flight v = b.flight v := by cases u <;> cases v <;> rfl
theorem setStall_setFlight (b : Bank) (u v : UnitId) (n : Nat) (l : List InFlight) :
    (b.setStall u n).setFlight v l = (b.setFlight v l).setStall u n := by cases u <;> cases v <;> rfl

/-- The head leaves, and what is due lands: an issue as `Bank.issued` has it, outside a halting bank. -/
theorem issued_eq {b : Bank} {u : UnitId} (hh : b.halting = false) :
    b.issued u = (((b.setQueue u (b.queue u).tail).setFlight u (flightRest (b.flight u))).landAll (flightDue (b.flight u))).setStall u 0 := by
  simp [Bank.issued, Bank.stepUnit, halting_setQueue, hh, Bank.advance]

theorem issued_setFlight {b : Bank} {u : UnitId} (hh : b.halting = false) (k : List InFlight) :
    (b.setFlight u k).issued u =
      (((b.setQueue u (b.queue u).tail).setFlight u (flightRest k)).landAll (flightDue k)).setStall u 0 := by
  rw [issued_eq (by rw [halting_setFlight, hh])]
  simp [setFlight_setQueue]

/-- A result sent with latency 1 is in its place when the instruction has issued. -/
theorem issued_send_one {b : Bank} {u : UnitId} {r : Result} (hh : b.halting = false) :
    (b.send u 1 [r]).issued u = (b.issued u).land r := by
  simp only [Bank.send, List.cons_ne_nil, if_false, issued_setFlight hh, issued_eq hh, flightRest, flightDue, List.filter_append,
    List.map_append, List.flatMap_append, landAll_append]
  simp [land_setStall]

/-- Several results sent with latency 1 are in their places when the instruction has issued. -/
theorem issued_send_all {b : Bank} {u : UnitId} {res : List Result} (hr : res ≠ []) (hh : b.halting = false) :
    (b.send u 1 res).issued u = (b.issued u).landAll res := by
  simp only [Bank.send, if_neg hr, issued_setFlight hh, issued_eq hh, flightRest, flightDue, List.filter_append,
    List.map_append, List.flatMap_append, landAll_append]
  simp [landAll_setStall]

/-- The same for a bank that is known to be such a one. -/
theorem issued_of_send_one {b c : Bank} {u : UnitId} {r : Result} (h : b = c.send u 1 [r]) (hh : c.halting = false) :
    b.issued u = (c.issued u).land r := by rw [h, issued_send_one hh]

/-- A result sent with a longer latency stays in the landing buffer. -/
theorem issued_send {b : Bank} {u : UnitId} {lat : Nat} {res : List Result} (hr : res ≠ []) (hl : 2 ≤ lat) (hh : b.halting = false) :
    (b.send u lat res).issued u = (b.issued u).setFlight u ((b.issued u).flight u ++ [⟨lat - 1, res⟩]) := by
  have h1 : 1 < lat := hl
  have h2 : ¬ lat ≤ 1 := by omega
  simp only [Bank.send, if_neg hr, issued_setFlight hh, issued_eq hh, flightRest, flightDue, List.filter_append, List.map_append,
    List.flatMap_append, landAll_setFlight, flight_setStall, flight_setFlight, setStall_setFlight, setFlight_setFlight]
  simp [h1, h2]

/-! ### Fields that an issue leaves alone -/

theorem proj_landAll {β : Type} (p : Bank → β) (hp : ∀ b r, p (Bank.land b r) = p b) (l : List Result) :
    ∀ b : Bank, p (b.landAll l) = p b := by
  induction l with
  | nil => intro b; rfl
  | cons r l ih => intro b; exact (ih _).trans (hp b r)

/-- A field that no result reaches, nor the buffers and counts of a unit, is after an issue as the queue's step leaves it. -/
theorem proj_issued {β : Type} (p : Bank → β) (u : UnitId) (hp : ∀ b r, p (Bank.land b r) = p b)
    (h1 : ∀ b l, p (b.setFlight u l) = p b) (h2 : ∀ b n, p (b.setStall u n) = p b) (b : Bank) :
    p (b.issued u) = p (b.setQueue u (b.queue u).tail) := by
  unfold Bank.issued Bank.stepUnit
  rw [h2]
  split
  · rfl
  · unfold Bank.advance; rw [proj_landAll p hp, h1]

theorem land_sQueue (b : Bank) (r : Result) : (b.land r).sQueue = b.sQueue := by
  cases r <;> simp only [Bank.land, writeAcc_eq, Bank.setS, Bank.setC, Bank.setA, Bank.setM, Bank.setV, Bank.setStoreQ] <;>
    first | rfl | (split <;> rfl) | (rename_i q _ _; cases q <;> rfl)
theorem land_sWait (b : Bank) (r : Result) : (b.land r).sWait = b.sWait := by
  cases r <;> simp only [Bank.land, writeAcc_eq, Bank.setS, Bank.setC, Bank.setA, Bank.setM, Bank.setV, Bank.setStoreQ] <;>
    first | rfl | (split <;> rfl) | (rename_i q _ _; cases q <;> rfl)
theorem land_pend (b : Bank) (r : Result) : (b.land r).pend = b.pend := by
  cases r <;> simp only [Bank.land, writeAcc_eq, Bank.setS, Bank.setC, Bank.setA, Bank.setM, Bank.setV, Bank.setStoreQ] <;>
    first | rfl | (split <;> rfl) | (rename_i q _ _; cases q <;> rfl)

end Sys2Proof.Machine
end

