-- ==== Sys2Proof/Laws/Outcome.lean ====
section
/-! SUPPORT. From an attempt that issues, stalls or waits to the next state that the meaning answers. -/

namespace Sys2Proof

open Machine

@[simp] theorem landingRoom_ok {s : State} {u : UnitId} {k : Attempt} (h : u = .S → s.here.inFlight u < 16) : landingRoom s u k = k := by
  by_cases hu : u = .S <;> simp_all [landingRoom]
@[simp] theorem declared_ok {s : State} {ok : Bool} {k : Attempt} (h : ok = true) : declared s ok k = k := by simp [declared, h]
theorem wordRoom_ok {s : State} {q : WordQ} {k : Attempt} (h : (s.here.wordQ q).length < wordDepth) : wordRoom s q k = k := by
  simp [wordRoom, h]

/-- An attempt that only changes the bank and issues. -/
theorem issuesTo_of_ok {u : UnitId} {s : State} {i : Instr} (f : Bank → Bank) {b : Bank}
    (h : exec i s = .next (conclude u (.ok (s.modHere f)))) (hb : (f s.here).issued u = b) : IssuesTo i s b := by
  refine ⟨_, h, ?_⟩
  have := conclude_ok_modHere u s f
  rw [hb] at this
  exact this

/-- An attempt that issues and changes nothing but the queue. -/
theorem issuesTo_of_pass {u : UnitId} {s : State} {i : Instr} (h : exec i s = .next (conclude u (.ok s))) :
    IssuesTo i s (Passed s u) := by
  refine ⟨_, h, rfl, fun r => ?_⟩
  by_cases hr : r = s.cur
  · subst hr; simp [conclude, Passed, State.here]
  · simp [conclude, hr, Ne.symm hr]

/-- What an attempt that issued leaves, beside what it had changed itself. -/
theorem onlyBank_conclude_ok (u : UnitId) (r : State) : OnlyBank r (conclude u (.ok r)) (r.here.issued u) := by
  refine ⟨rfl, fun k => ?_⟩
  by_cases hr : k = r.cur
  · subst hr; simp [conclude, State.here]
  · simp [conclude, hr, Ne.symm hr]

/-- What an attempt that waits leaves, beside what it had changed itself. -/
theorem onlyBank_conclude_wait (u : UnitId) (r : State) : OnlyBank r (conclude u (.wait r)) (r.here.stalled u false) := by
  refine ⟨rfl, fun k => ?_⟩
  by_cases hr : k = r.cur
  · subst hr; simp [conclude, State.here]
  · simp [conclude, hr, Ne.symm hr]

/-- An attempt that waits. -/
theorem issuesTo_of_wait {s : State} {u : UnitId} {b : Bank} {i : Instr} (h : exec i s = .next (conclude u (.wait s)))
    (hb : s.here.stalled u false = b) : IssuesTo i s b := by
  refine ⟨_, h, rfl, fun r => ?_⟩
  by_cases hr : r = s.cur
  · subst hr; simp [conclude]; exact hb
  · simp [conclude, hr, Ne.symm hr]

/-- An attempt that changes the bank and waits. -/
theorem issuesTo_of_wait_mod {s : State} {u : UnitId} (f : Bank → Bank) {b : Bank} {i : Instr}
    (h : exec i s = .next (conclude u (.wait (s.modHere f)))) (hb : (f s.here).stalled u false = b) : IssuesTo i s b := by
  refine ⟨_, h, rfl, fun r => ?_⟩
  by_cases hr : r = s.cur
  · subst hr; simp [conclude, State.modHere]; exact hb
  · simp [conclude, State.modHere, hr, Ne.symm hr]

/-- An attempt that stalls on a data queue. -/
theorem issuesTo_of_stall {s : State} {u : UnitId} {b : Bank} {i : Instr} (h : exec i s = .next (conclude u (.queueStall s)))
    (hb : s.here.stalled u true = b) : IssuesTo i s b := by
  refine ⟨_, h, rfl, fun r => ?_⟩
  by_cases hr : r = s.cur
  · subst hr; simp [conclude]; exact hb
  · simp [conclude, hr, Ne.symm hr]

/-- The words that a word queue gives to an instruction that pops one. -/
theorem withWords_one {s : State} {q : WordQ} {e : WordEntry} {r : List WordEntry} {w : W64} {k : List W64 → Attempt}
    (h : s.here.wordQ q = e :: r) (hv : e.val = some w) (he : e.err = none) : withWords s q 1 k = k [w] := by
  simp [withWords, h, hv, he]

/-- The words that a word queue gives to an instruction that pops two. -/
theorem withWords_two {s : State} {q : WordQ} {e f : WordEntry} {r : List WordEntry} {v w : W64} {k : List W64 → Attempt}
    (h : s.here.wordQ q = e :: f :: r) (hv : e.val = some v) (he : e.err = none) (hw : f.val = some w) (hf : f.err = none) :
    withWords s q 2 k = k [v, w] := by
  simp [withWords, h, hv, he, hw, hf]

end Sys2Proof
end

