-- ==== Sys2Proof/Laws/Vector.lean ====
section
/-! SUPPORT. Laws of the vector unit: elements of packed values, enables, sources and destinations. -/

namespace Sys2Proof.Machine

/-! ### Packed elements -/

theorem packElems_lt (w : Nat) : ∀ l : List Nat, packElems w l < 2 ^ (w * l.length)
  | [] => by simp [packElems]
  | x :: r => by
    have h := packElems_lt w r
    have hx : x % 2 ^ w < 2 ^ w := Nat.mod_lt _ (Nat.two_pow_pos w)
    rw [packElems, List.length_cons, Nat.mul_succ, Nat.add_comm (w * _), Nat.pow_add]
    have : 2 ^ w * (packElems w r + 1) ≤ 2 ^ w * 2 ^ (w * r.length) := Nat.mul_le_mul_left _ h
    rw [Nat.mul_add] at this
    omega

theorem packElems_at (w : Nat) : ∀ (l : List Nat) (j : Nat), packElems w l >>> (w * j) % 2 ^ w = l.getD j 0 % 2 ^ w
  | [], j => by simp [packElems]
  | x :: r, 0 => by simp [packElems]
  | x :: r, j + 1 => by
    have hx : x % 2 ^ w < 2 ^ w := Nat.mod_lt _ (Nat.two_pow_pos w)
    rw [packElems, Nat.mul_succ, Nat.add_comm (w * j), Nat.shiftRight_add, Nat.shiftRight_eq_div_pow _ w,
      Nat.add_mul_div_left _ _ (Nat.two_pow_pos w), Nat.div_eq_of_lt hx, Nat.zero_add, packElems_at w r j]
    simp

theorem packElems_testBit (w : Nat) (l : List Nat) (j k : Nat) (hk : k < w) :
    (packElems w l).testBit (w * j + k) = (l.getD j 0).testBit k := by
  have h := congrArg (fun n : Nat => n.testBit k) (packElems_at w l j)
  simpa [Nat.testBit_mod_two_pow, hk, Nat.testBit_shiftRight] using h

theorem ofElems_toNat {w : Nat} {l : List Nat} (h : w * l.length ≤ 4096) : (ofElems w l).toNat = packElems w l := by
  rw [ofElems, BitVec.toNat_ofNat]
  exact Nat.mod_eq_of_lt (lt_of_lt_of_le (packElems_lt w l) (Nat.pow_le_pow_right (by omega) h))

/-- Element `j` of packed elements. -/
theorem elemAt_ofElems {w : Nat} {l : List Nat} (h : w * l.length ≤ 4096) (j : Nat) :
    elemAt w (ofElems w l) j = l.getD j 0 % 2 ^ w := by
  rw [elemAt, ofElems_toNat h, packElems_at]

theorem getLsbD_ofElems {w : Nat} {l : List Nat} (h : w * l.length ≤ 4096) {j k : Nat} (hk : k < w) :
    (ofElems w l).getLsbD (w * j + k) = (l.getD j 0).testBit k := by
  rw [← BitVec.testBit_toNat, ofElems_toNat h, packElems_testBit _ _ _ _ hk]

theorem elemAt_and (w : Nat) (x y : VWord) (j : Nat) : elemAt w (x &&& y) j = elemAt w x j &&& elemAt w y j := by
  simp [elemAt, Nat.shiftRight_and_distrib, Nat.and_mod_two_pow]

theorem length_elems (t : ElemType) (v : VWord) : (elems t v).length = t.count := by simp [elems]
theorem getD_elems {t : ElemType} {v : VWord} {j : Nat} (h : j < t.count) : (elems t v).getD j 0 = elemAt t.width v j := by
  simp [elems, h]
theorem length_activeOf (m : MWord) (n : Nat) : (activeOf m n).length = n := by simp [activeOf]
theorem getD_activeOf {m : MWord} {n j : Nat} (h : j < n) (d : Bool) : (activeOf m n).getD j d = m.getLsbD j := by
  simp [activeOf, h]
theorem width_count (t : ElemType) : t.width * t.count = 4096 := by cases t <;> rfl
theorem width4_count (t : ElemType) : t.width / 4 * t.count = 1024 := by cases t <;> rfl

theorem testBit_full {w k : Nat} (h : k < w) (a : Bool) : (if a = true then 2 ^ w - 1 else 0 : Nat).testBit k = a := by
  cases a <;> simp [h]

theorem getD_map_full (w : Nat) (act : List Bool) {j : Nat} (h : j < act.length) :
    (act.map fun a => if a = true then 2 ^ w - 1 else 0).getD j 0 = if act.getD j false = true then 2 ^ w - 1 else 0 := by
  simp [List.getD_eq_getElem?_getD, h]

theorem enableBits_bit {w : Nat} {act : List Bool} (h : w * act.length ≤ 4096) {j k : Nat} (hj : j < act.length) (hk : k < w) :
    (enableBits w act).getLsbD (w * j + k) = act.getD j false := by
  rw [enableBits, getLsbD_ofElems (by simpa using h) hk, getD_map_full _ _ hj, testBit_full hk]

theorem enableNibbles_bit {w : Nat} {act : List Bool} (h : w / 4 * act.length ≤ 1024) {j k : Nat} (hj : j < act.length)
    (hk : k < w / 4) : (enableNibbles w act).getLsbD (w / 4 * j + k) = act.getD j false := by
  rw [enableNibbles, ← BitVec.testBit_toNat, BitVec.toNat_ofNat, Nat.mod_eq_of_lt, packElems_testBit _ _ _ _ hk,
    getD_map_full _ _ hj, testBit_full hk]
  refine lt_of_lt_of_le (packElems_lt _ _) (Nat.pow_le_pow_right (by omega) ?_)
  simpa using h

/-! ### Sources and destinations -/

theorem physical_eq (s : State) (n : Nat) : physReg (s.here.headEntry .V).rb n = physical s n := rfl

/-- A source that gives a value. -/
theorem withSrc_ok {s : State} {a : VSrc} {v : VWord} (h : sourceValue s a = some v) (k : VWord → Attempt) : withSrc s a k = k v := by
  cases a with
  | reg n => simp only [sourceValue, Option.some.injEq] at h; subst h; rfl
  | lq q p =>
    simp only [sourceValue] at h
    split at h
    · cases h
    · rename_i e r he
      split at h
      · rename_i hn
        cases p <;> simp [withSrc, lqHead, lqPeek, he, headVec, h, hn]
      · cases h

theorem dstRoom_ok {s : State} {d : VDst} (h : canTake s d) (k : Attempt) : dstRoom s d k = k := by
  cases d with
  | reg n => rfl
  | sq q => simp only [canTake] at h; simp [dstRoom, vecDepth, h]

theorem hasDst_ok {s : State} {d : VDst} (h : canTake s d) : s.here.hasDst d = true := by
  cases d with
  | reg n => simpa [canTake, Bank.hasDst, Bank.hasV] using h
  | sq q => rfl

theorem hasM_ok {b : Bank} {m : BitVec 6} (h : m.toNat < b.decl.m) : b.hasM [m] = true := by simp [Bank.hasM, h]

theorem popped_one (b : Bank) (x : VSrc) : Popped b [x] = popSrc b x := by cases x <;> simp [Popped, popSrc, popLq, List.eraseDups_cons]
theorem popped_two (b : Bank) (x y : VSrc) : Popped b [x, y] = popSrcs b x y := by
  by_cases h : x = y
  · subst h
    have : ([x, x] : List VSrc).eraseDups = [x] := by simp [List.eraseDups_cons]
    rw [Popped, this, popSrcs, if_pos rfl]
    cases x <;> simp [popSrc, popLq]
  · have : ([x, y] : List VSrc).eraseDups = [x, y] := by simp [List.eraseDups_cons, Ne.symm h]
    rw [Popped, this, popSrcs, if_neg h]
    cases x <;> cases y <;> simp [popSrc, popLq]
theorem popped_reg (b : Bank) (x y : VSrc) (c : BitVec 8) : Popped b [x, y, .reg c] = popSrcs b x y := by
  by_cases h : x = y
  · subst h
    rw [Popped, popSrcs, if_pos rfl, List.eraseDups_cons]
    by_cases hc : x = .reg c
    · subst hc; simp [popSrc]
    · have : ([x, .reg c] : List VSrc).filter (fun z => !z == x) = [.reg c] := by simp [Ne.symm hc]
      rw [this]
      cases x <;> simp [popSrc, popLq, List.eraseDups_cons]
  · rw [Popped, popSrcs, if_neg h, List.eraseDups_cons]
    by_cases hc : x = .reg c
    · subst hc
      have : ([y, .reg c] : List VSrc).filter (fun z => !z == .reg c) = [y] := by simp [Ne.symm h]
      rw [this]
      cases y <;> simp [popSrc, popLq, List.eraseDups_cons]
    · have : ([y, .reg c] : List VSrc).filter (fun z => !z == x) = [y, .reg c] := by simp [Ne.symm h, Ne.symm hc]
      rw [this, List.eraseDups_cons]
      by_cases hy : y = .reg c
      · subst hy; cases x <;> simp [popSrc, popLq]
      · have : ([.reg c] : List VSrc).filter (fun z => !z == y) = [.reg c] := by simp [Ne.symm hy]
        rw [this]
        cases x <;> cases y <;> simp [popSrc, popLq, List.eraseDups_cons]

theorem headEntry_popSrc (b : Bank) (x : VSrc) : (popSrc b x).headEntry .V = b.headEntry .V := by
  cases x with
  | reg n => rfl
  | lq q p => cases p <;> rfl
theorem halting_popSrc (b : Bank) (x : VSrc) : (popSrc b x).halting = b.halting := by
  cases x with
  | reg n => rfl
  | lq q p => cases p <;> rfl
theorem headEntry_popSrcs (b : Bank) (x y : VSrc) : (popSrcs b x y).headEntry .V = b.headEntry .V := by
  unfold popSrcs; split <;> simp [headEntry_popSrc]
theorem halting_popSrcs (b : Bank) (x y : VSrc) : (popSrcs b x y).halting = b.halting := by
  unfold popSrcs; split <;> simp [halting_popSrc]

/-- A result of the V unit is on its way to its destination. -/
theorem putDst_sending (c : Bank) (lat : Nat) (d : VDst) (w : Nat) (vals : List Nat) (act : List Bool) :
    c.putDst lat d w vals act =
      Sending c lat d (if d.isReg = true then ofElems w vals else ofElems w vals &&& enableBits w act) (enableBits w act)
        (enableNibbles w act) := by
  cases d with
  | reg n => simp [Bank.putDst, Bank.putReg, Sending, VDst.isReg, Bank.send, WithFlight]
  | sq q => simp [Bank.putDst, Sending, VDst.isReg, Bank.sendQ]; rfl

/-- Packed results carry the elements that they were packed from. -/
theorem carries_packed {d : VDst} {w n : Nat} {act : List Bool} {vals : List Nat} {f : Nat → Nat} {data : VWord}
    (hw : w * n = 4096) (hw4 : w / 4 * n = 1024) (ha : act.length = n) (hv : vals.length = n)
    (hf : ∀ j < n, act.getD j false = true → vals.getD j 0 % 2 ^ w = f j)
    (hd : data = if d.isReg = true then ofElems w vals else ofElems w vals &&& enableBits w act) :
    Carries d w n (fun j => act.getD j false) f data (enableBits w act) (enableNibbles w act) := by
  have e1 : ∀ j, elemAt w (ofElems w vals) j = vals.getD j 0 % 2 ^ w := fun j => elemAt_ofElems (by rw [hv]; omega) j
  have e2 : ∀ j < n, elemAt w (enableBits w act) j = if act.getD j false = true then 2 ^ w - 1 else 0 := by
    intro j hj
    rw [enableBits, elemAt_ofElems (by simp [ha, hw]), getD_map_full _ _ (by omega)]
    have := Nat.two_pow_pos w
    split
    · rw [Nat.mod_eq_of_lt (by omega)]
    · simp
  refine ⟨?_, ?_, ?_, ?_⟩
  · intro j hj hact
    rw [hd]
    split
    · rw [e1, hf j hj hact]
    · rw [elemAt_and, e1, e2 j hj, if_pos hact, Nat.and_two_pow_sub_one_eq_mod, Nat.mod_mod, hf j hj hact]
  · intro hr j hj hact
    have hact : act.getD j false = false := hact
    rw [hd, if_neg (by simp [hr]), elemAt_and, e2 j hj, if_neg (by rw [hact]; simp), Nat.and_zero]
  · intro j hj k hk
    exact enableBits_bit (by rw [ha]; omega) (by omega) hk
  · intro j hj k hk
    exact enableNibbles_bit (by rw [ha]; omega) (by omega) hk

/-- An instruction whose attempt puts packed results of one register's elements. -/
theorem sendsTo_putDst {i : Instr} {s : State} {c : Bank} {lat : Nat} {d : VDst} {w n : Nat} {vals : List Nat} {m : BitVec 6}
    {f : Nat → Nat} (g : Bank → Bank) (h : exec i s = .next (conclude .V (.ok (s.modHere g))))
    (hg : g s.here = c.putDst lat d w vals (activeOf (s.here.mreg m) n))
    (hw : w * n = 4096) (hw4 : w / 4 * n = 1024) (hv : vals.length = n)
    (hf : ∀ j < n, vals.getD j 0 % 2 ^ w = f j) : SendsTo i s c lat d w n (governs s m) f := by
  refine ⟨_, _, _, issuesTo_of_ok _ h (by rw [hg, putDst_sending]; rfl), ?_⟩
  have k := carries_packed (d := d) (act := activeOf (s.here.mreg m) n) hw hw4 (length_activeOf _ _) hv (fun j hj _ => hf j hj) rfl
  have e : ∀ j < n, (activeOf (s.here.mreg m) n).getD j false = governs s m j := fun j hj => getD_activeOf hj _
  refine ⟨fun j hj ha => k.1 j hj ((e j hj).trans ha), fun hr j hj ha => k.2.1 hr j hj ((e j hj).trans ha),
    fun j hj q hq => (k.2.2.1 j hj q hq).trans (e j hj), fun j hj q hq => (k.2.2.2 j hj q hq).trans (e j hj)⟩

theorem slotCode_mod (t : ElemType) (c : Nat) : slotCode t c % 2 ^ t.width = c % 2 ^ keptBits t := by
  cases t <;> simp [slotCode, keptBits, ElemType.width]
  omega

/-! ### Elementwise instructions -/

/-- An elementwise instruction of one source. -/
theorem vMap1_ok {i s d a m t lat} {f : Mode → Nat → Nat} {F : Nat → Nat} {v} (h : exec i s = vMap1 s d a m t lat f)
   (hr : Ready s d [a] m [v]) (hf : ∀ x, x < 2^t.width → slotCode t (f s.here.mode x) % 2^t.width = F x) :
   SendsTo i s (Popped s.here [a]) lat d t.width t.count (governs s m) (fun j => F (elemAt t.width v j)) := by
  obtain ⟨hc, hd, hm, ha, hv⟩ := hr
  simp only [List.map_cons, List.map_nil, List.cons.injEq, and_true] at hv
  rw [vMap1, vIssue, declared_ok (by simp [hasDst_ok hd, ha a (by simp), hasM_ok hm]), landingRoom_ok hc.2, dstRoom_ok hd, withSrc_ok hv] at h
  refine sendsTo_putDst (vals := (elems t v).map fun c => slotCode t (f s.here.mode c)) _ h (by rw [popped_one])
    (width_count t) (width4_count t) (by simp [length_elems]) ?_
  intro j hj
  have : ((elems t v).map fun c => slotCode t (f s.here.mode c)).getD j 0 = slotCode t (f s.here.mode (elemAt t.width v j)) := by
    simp [elems, hj]
  rw [this, hf]
  exact Nat.mod_lt _ (Nat.two_pow_pos _)

/-- An elementwise instruction of two sources. -/
theorem vMap2_ok {i s d a b m t lat} {f : Mode → Nat → Nat → Nat} {F : Nat → Nat → Nat} {v w} (h : exec i s = vMap2 s d a b m t lat f)
   (hr : Ready s d [a, b] m [v, w]) (hf : ∀ x y, x < 2^t.width → y < 2^t.width → slotCode t (f s.here.mode x y) % 2^t.width = F x y) :
   SendsTo i s (Popped s.here [a, b]) lat d t.width t.count (governs s m) (fun j => F (elemAt t.width v j) (elemAt t.width w j)) := by
  obtain ⟨hc, hd, hm, ha, hv⟩ := hr
  simp only [List.map_cons, List.map_nil, List.cons.injEq, and_true] at hv
  rw [vMap2, vIssue, declared_ok (by simp [hasDst_ok hd, ha a (by simp), ha b (by simp), hasM_ok hm]), landingRoom_ok hc.2, dstRoom_ok hd, withSrcs, withSrc_ok hv.1,
    withSrc_ok hv.2] at h
  refine sendsTo_putDst (vals := List.zipWith (fun p q => slotCode t (f s.here.mode p q)) (elems t v) (elems t w)) _ h (by rw [popped_two])
    (width_count t) (width4_count t) (by simp [length_elems]) ?_
  intro j hj
  have : (List.zipWith (fun p q => slotCode t (f s.here.mode p q)) (elems t v) (elems t w)).getD j 0 = slotCode t (f s.here.mode (elemAt t.width v j) (elemAt t.width w j)) := by
    simp [elems, List.getD_eq_getElem?_getD, hj]
  rw [this, hf]
  · exact Nat.mod_lt _ (Nat.two_pow_pos _)
  · exact Nat.mod_lt _ (Nat.two_pow_pos _)

/-- An elementwise instruction of three sources. -/
theorem vMap3_ok {i s d a b c m t lat} {f : Mode → Nat → Nat → Nat → Nat} {F : Nat → Nat → Nat → Nat} {v w z} (h : exec i s = vMap3 s d a b c m t lat f)
   (hr : Ready s d [a, b, .reg c] m [v, w, z]) (hf : ∀ x y z, slotCode t (f s.here.mode x y z) % 2^t.width = F x y z) :
   SendsTo i s (Popped s.here [a, b, .reg c]) lat d t.width t.count (governs s m) (fun j => F (elemAt t.width v j) (elemAt t.width w j) (elemAt t.width z j)) := by
  obtain ⟨hc, hd, hm, ha, hv⟩ := hr
  simp only [List.map_cons, List.map_nil, List.cons.injEq, and_true] at hv
  have hcc : s.here.hasV [c.toNat] = true := by simpa [Bank.hasSrc] using ha (.reg c) (by simp)
  rw [vMap3, vIssue, declared_ok (by simp [hasDst_ok hd, ha a (by simp), ha b (by simp), hcc, hasM_ok hm]), landingRoom_ok hc.2, dstRoom_ok hd, withSrcs, withSrc_ok hv.1,
    withSrc_ok hv.2.1, withSrc_ok hv.2.2] at h
  refine sendsTo_putDst (vals := List.zipWith (fun p q => slotCode t (f s.here.mode p.1 p.2 q)) (List.zip (elems t v) (elems t w)) (elems t z)) _ h (by rw [popped_reg])
    (width_count t) (width4_count t) (by simp [length_elems]) ?_
  intro j hj
  have : (List.zipWith (fun p q => slotCode t (f s.here.mode p.1 p.2 q)) (List.zip (elems t v) (elems t w)) (elems t z)).getD j 0 = slotCode t (f s.here.mode (elemAt t.width v j) (elemAt t.width w j) (elemAt t.width z j)) := by
    simp [elems, List.getD_eq_getElem?_getD, hj]
  rw [this, hf]

/-! ### Integers among the exact values -/

/-- A value that is an integer. -/
def HoldsInt (v : XVal) (i : Int) : Prop := ∃ s m, v = .fin s m 0 ∧ (if s = true then -(m : Int) else m) = i

theorem holdsInt_ofInt (i : Int) : HoldsInt (XVal.ofInt i) i := by
  refine ⟨_, _, rfl, ?_⟩
  rcases lt_or_ge i 0 with h | h
  · simp [h, abs_of_neg]
  · simp [not_lt.2 h, abs_of_nonneg h]

theorem holdsInt_dec {t : ElemType} (h : t.isInt = true) (c : Nat) : HoldsInt (decodeElem t c) (intOf t c) := by
  cases t <;> first | exact holdsInt_ofInt _ | cases h

theorem HoldsInt.neg {v i} (h : HoldsInt v i) : HoldsInt v.neg (-i) := by
  obtain ⟨s, m, rfl, h⟩ := h
  refine ⟨_, _, rfl, ?_⟩
  cases s <;> simp at * <;> omega

theorem HoldsInt.abs {v i} (h : HoldsInt v i) : HoldsInt v.abs |i| := by
  obtain ⟨s, m, rfl, h⟩ := h
  refine ⟨_, _, rfl, ?_⟩
  cases s <;> simp at * <;> subst h <;> simp

theorem HoldsInt.mul {v w i j} (h : HoldsInt v i) (k : HoldsInt w j) : HoldsInt (v.mul w) (i * j) := by
  obtain ⟨s, m, rfl, h⟩ := h
  obtain ⟨t, n, rfl, k⟩ := k
  refine ⟨s != t, m * n, rfl, ?_⟩
  subst h k
  cases s <;> cases t <;> simp

theorem HoldsInt.add {v w i j} (rm : Rm) (h : HoldsInt v i) (k : HoldsInt w j) : HoldsInt (v.add rm w) (i + j) := by
  obtain ⟨s, m, rfl, h⟩ := h
  obtain ⟨t, n, rfl, k⟩ := k
  have e1 : scaledInt s m 0 0 = i := by simp [scaledInt, h]
  have e2 : scaledInt t n 0 0 = j := by simp [scaledInt, k]
  simp only [XVal.add, min_self, e1, e2]
  split
  · rename_i h0
    refine ⟨_, _, rfl, ?_⟩
    obtain ⟨rfl, rfl⟩ := h0
    simp at h k; subst h k; simp
  · split
    · rename_i h0; exact ⟨_, _, rfl, by simp [h0]⟩
    · refine ⟨_, _, rfl, ?_⟩
      rcases lt_or_ge (i + j) 0 with h | h
      · simp [h, abs_of_neg]
      · simp [not_lt.2 h, abs_of_nonneg h]

theorem HoldsInt.toInt {v i} (h : HoldsInt v i) : v.toInt = i := by
  obtain ⟨s, m, rfl, h⟩ := h
  simp [XVal.toInt, roundInt, roundAt]; simpa using h

theorem HoldsInt.cmp {v w i j} (h : HoldsInt v i) (k : HoldsInt w j) : v.cmp w = compare i j := by
  obtain ⟨s, m, rfl, h⟩ := h
  obtain ⟨t, n, rfl, k⟩ := k
  simp [XVal.cmp, scaledInt, h, k]

theorem HoldsInt.nan {v i} (h : HoldsInt v i) : v.isNan = false := by obtain ⟨s, m, rfl, h⟩ := h; rfl

theorem wrapTo_eq (w : Nat) (i : Int) : wrapTo w i = (BitVec.ofInt w i).toNat := by simp [wrapTo, BitVec.toNat_ofInt]

/-- An exact integer is finished modulo 2^w. -/
theorem HoldsInt.finish {t : ElemType} {v i} (ht : t.isInt = true) (md : Mode) (h : HoldsInt v i) :
    finish t md v = (BitVec.ofInt t.width i).toNat := by
  rw [Machine.finish, if_pos ht, h.toInt, wrapTo_eq]

theorem finish_float {t : ElemType} (ht : t.isInt = false) (md : Mode) (v : XVal) : finish t md v = roundElem t md v := by
  simp [Machine.finish, ht]

theorem minmax_int {t : ElemType} (ht : t.isInt = true) (x y : Nat) : minmaxLess (decodeElem t x) (decodeElem t y) = decide (intOf t x < intOf t y) := by
  have hx := holdsInt_dec ht x; have hy := holdsInt_dec ht y
  rw [minmaxLess, hx.cmp hy]
  rcases lt_trichotomy (intOf t x) (intOf t y) with h | h | h
  · simp [compare_lt_iff_lt.2 h, h]
  · have : ((decodeElem t x).isZero && (decodeElem t x).sign) = false := by
      have hd : decodeElem t x = XVal.ofInt (intOf t x) := by cases t <;> first | rfl | cases ht
      rw [hd]
      simp only [XVal.ofInt, XVal.isZero, XVal.sign]
      rcases lt_or_ge (intOf t x) 0 with hz | hz
      · simp [hz, hz.ne]
      · simp [not_lt.2 hz]
    simp [h, this]
  · simp [compare_gt_iff_gt.2 h, not_lt_of_gt h]

theorem minmaxLess_eq (p q : XVal) : minmaxLess p q = (p.cmp q == .lt || (p.cmp q == .eq && p.isZero && p.sign && !q.sign)) := by
  unfold minmaxLess; cases p.cmp q <;> simp

theorem choose_table (t : ElemType) (mx : Bool) (x y : Nat) : chooseElem t mx x y = chosen t mx x y := by
  unfold chooseElem chosen
  by_cases ht : t.isInt = true
  · have hx := holdsInt_dec ht x; have hy := holdsInt_dec ht y
    simp only [hx.nan, hy.nan, minmax_int ht, ht]
    cases mx <;> simp
  · rw [if_neg ht]
    simp only [dec]
    cases h1 : (decodeElem t x).isNan <;> cases h2 : (decodeElem t y).isNan <;> simp [minmaxLess_eq]

end Sys2Proof.Machine
end

