-- ==== Sys2Proof/Laws/Access.lean ====
section
/-! SUPPORT. Laws of the access unit: its attempts, the shape of its accesses, the bytes of an access. -/

namespace Sys2Proof

open Machine

/-- An attempt of the access unit while no store stream is held. -/
theorem aIssue_ok {s : State} (h : NoHeldStore s) (k : Attempt) : aIssue s k = .next (conclude .A k) := by
  unfold NoHeldStore at h; rw [aIssue, h]

/-- An instruction that writes one address register. -/
theorem aWrite_ok {i : Instr} {s : State} {d : BitVec 5} {regs} {v : Bank → W64} {x : W64} (hc : CanIssue s .A) (hh : NoHeldStore s)
    (hd : s.here.hasA (d :: regs) = true) (h : exec i s = aWrite s d regs v) (hx : v s.here = x) :
    IssuesTo i s ((Passed s .A).setA d x) := by
  rw [aWrite, aIssue_ok hh, declared_ok hd, landingRoom_ok hc.2] at h
  refine issuesTo_of_ok _ h ?_
  rw [hx, issued_send_one hc.1]; rfl

/-- Sign extension as a signed number. -/
theorem ofInt_signExtend {n : Nat} (h : n ≤ 64) (i : BitVec n) : i.signExtend 64 = BitVec.ofInt 64 i.toInt := by
  apply BitVec.eq_of_toInt_eq
  rw [BitVec.toInt_signExtend_of_le h, BitVec.toInt_ofInt]
  have h1 := BitVec.le_two_mul_toInt (x := i)
  have h2 := BitVec.two_mul_toInt_lt (x := i)
  have h3 : (2:Int)^n ≤ 2^64 := by exact_mod_cast Nat.pow_le_pow_right (by decide) h
  rw [Int.bmod_eq_of_le] <;> omega

/-- A word queue whose head is not filled. -/
theorem headWordNone {s : State} {q : WordQ} (h : (s.here.wordQ q).head?.bind WordEntry.val = none) (k) :
    withWords s q 1 k = if s.here.pendingFeed (.word q) then .queueStall s else trapWith s 0x05 := by
  unfold withWords
  rw [if_neg]
  cases hq : s.here.wordQ q with
  | nil => simp
  | cons e r =>
    rw [hq] at h
    simp only [List.head?_cons, Option.bind_some] at h
    simp [List.take_succ_cons, h]

/-- A record at a numeric address. -/
theorem causeAt_ofNat (c va : Nat) : causeAt c (.ofNat 64 va) = faultOf c va := by
  unfold causeAt faultOf; simp; apply BitVec.eq_of_toNat_eq; simp

/-- The effective address of a vector access. -/
theorem vecAddr_eq (s : State) (a off) : vecAddr s.here a off = vectorAt s a off := by
  unfold vecAddr vectorAt
  have h1 := BitVec.le_two_mul_toInt (x := off)
  have h2 := BitVec.two_mul_toInt_lt (x := off)
  rw [ofInt_signExtend (by decide), BitVec.ofInt_add, BitVec.ofInt_mul]
  congr 1
  · simp
  · rw [BitVec.shiftLeft_eq_mul_twoPow, BitVec.mul_comm]; rfl
/-- The effective address of a scalar access. -/
theorem scalarAddr_eq (s : State) (a off) : scalarAddr s.here a off = scalarAt s a off := by
  unfold scalarAddr scalarAt
  rw [ofInt_signExtend (by decide), BitVec.ofInt_add]
  congr 1
  simp

/-- Two words of ssq. -/
theorem ssqTwo {s : State} {e f : WordEntry} {r x y} (h : s.here.ssq = e :: f :: r) (h1 : e.val = some x) (h2 : e.err = none) (h3 : f.val = some y) (h4 : f.err = none) (k) :
   withWords s .ssq 2 k = k [x, y] := withWords_two h h1 h2 h3 h4

/-- A filled head of a vector queue. -/
theorem headVec_ok {l : List VEntry} {e r} (h : l = e :: r) (hv : e.val.isSome = true) : headVec l = some e := by rw [h, headVec, if_pos hv]

/-- An atomic of one operand word comes down to its translation. -/
theorem atomicShape {s : State} {op : AtomicOp} {a : BitVec 5} {w8 : Bool} {x r} (ho : op ≠ .cas) (h1 : s.here.hasA [a] = true) (h2 : s.here.rq.length < 16) (h3 : wordHead s .ssq x r) :
    ∃ cont, atomicIssue s op a w8 = aIssue s (withTrans s .atomic (s.here.areg a).toNat (if w8 then 8 else 4) (if w8 then 8 else 4) cont) := by
  obtain ⟨e, g1, g2, g3⟩ := h3
  have hx := Eq.refl (atomicIssue s op a w8)
  conv at hx => rhs; rw [atomicIssue]; dsimp only; rw [declared_ok h1, wordRoom_ok (q := .rq) h2, if_neg ho, withWords_one g1 g2 g3]
  exact ⟨_, hx⟩

/-- Every access comes down to its translation. -/
theorem access_shape {i : Instr} {s : State} {k : Access} {ea n al : Nat} (h : accessOf s i = some (k, ea, n, al)) (hr : accessReady s i) :
    ∃ cont, exec i s = aIssue s (withTrans s k ea n al cont) := by
  cases i <;> simp only [accessOf, atomicOf, Option.some.injEq, Prod.mk.injEq, reduceCtorEq] at h
  all_goals obtain ⟨rfl, rfl, rfl, rfl⟩ := h
  case ldv u a q off =>
    obtain ⟨h1, h3⟩ := hr
    have hx : exec (.ldv u a q off) s = execLdv u a q off s := rfl
    rw [execLdv, vecAddr_eq] at hx; dsimp only at hx
    rw [declared_ok h1, landingRoom_ok (u := .A) (fun h => nomatch h), if_neg (by simp only [vecDepth]; omega)] at hx
    exact ⟨_, hx⟩
  case stv u a q off =>
    obtain ⟨h1, e, r, h3, h4⟩ := hr
    have hx := Eq.refl (execStv u a q off s)
    conv at hx => rhs; rw [execStv, vecAddr_eq]; dsimp only; rw [declared_ok h1, landingRoom_ok (u := .A) (fun h => nomatch h), headVec_ok h3 h4]
    exact ⟨_, hx⟩
  case lds a w sx off =>
    have hx := Eq.refl (execLds a w sx off s)
    conv at hx => rhs; rw [execLds, scalarAddr_eq]; dsimp only; rw [declared_ok hr.1, wordRoom_ok (q := .rq) hr.2]
    exact ⟨_, hx⟩
  case sts a w off =>
    obtain ⟨h1, x, r, e, h3, h4, h5⟩ := hr
    have hx := Eq.refl (execSts a w off s)
    conv at hx => rhs; rw [execSts, scalarAddr_eq]; dsimp only; rw [declared_ok h1, withWords_one h3 h4 h5]
    exact ⟨_, hx⟩
  case sdef st a =>
    have hx := Eq.refl (execSdef st a s)
    conv at hx => rhs; rw [execSdef]; dsimp only; rw [declared_ok (by simp [Bank.hasSt, hr.1, hr.2.1]), if_neg (by simp [hr.2.2])]
    exact ⟨_, hx⟩
  case amocas a w8 =>
    obtain ⟨h1, h2, h3⟩ := hr
    rw [if_pos rfl] at h3
    obtain ⟨e, f, r, x, y, g1, g2, g3, g4, g5⟩ := h3
    have hx := Eq.refl (atomicIssue s .cas a w8)
    conv at hx => rhs; rw [atomicIssue]; dsimp only; rw [declared_ok h1, wordRoom_ok (q := .rq) h2, if_pos rfl, ssqTwo g1 g2 g3 g4 g5]
    exact ⟨_, hx⟩
  all_goals
    obtain ⟨h1, h2, h3⟩ := hr
    rw [if_neg (by first | decide | (split <;> decide))] at h3
    obtain ⟨x, r, h3⟩ := h3
    exact atomicShape (by first | decide | (split <;> decide)) h1 h2 h3

/-- Every access goes through the check for a held store stream. -/
theorem heldAny {i : Instr} {s : State} {x} (h : accessOf s i = some x) : ∃ k, exec i s = aIssue s k := by
  cases i <;> simp only [accessOf, atomicOf, reduceCtorEq] at h
  all_goals exact ⟨_, rfl⟩

/-- Entering leaves in a TLB changes the TLBs only. -/
theorem touched_tlb (l : List Seg) : ∀ (s : State) (row : Nat), ∃ tlb, tlbTouch s row l = { s with tlb := tlb } := by
  induction l with
  | nil => intro s row; exact ⟨s.tlb, rfl⟩
  | cons g r ih =>
    intro s row
    have key : ∀ x : State, (∃ t, x = { s with tlb := t }) → ∃ tlb, tlbTouch x row r = { s with tlb := tlb } := by
      rintro x ⟨t, rfl⟩
      obtain ⟨t2, h⟩ := ih { s with tlb := t } row
      exact ⟨t2, h⟩
    rw [tlbTouch]
    split
    · exact key _ ⟨_, rfl⟩
    · dsimp only
      split
      · exact key _ ⟨_, rfl⟩
      · split
        · exact key _ ⟨_, rfl⟩
        · exact key _ ⟨_, rfl⟩

/-- A field of one bit. -/
theorem bitsOf_one (x n : Nat) : bitsOf x n n = if x.testBit n then 1 else 0 := by
  unfold bitsOf
  have : n + 1 - n = 1 := by omega
  rw [this, Nat.testBit_eq_decide_div_mod_eq]
  have : x / 2^n % 2 < 2 := Nat.mod_lt _ (by decide)
  simp only [pow_one]
  split <;> simp_all

/-- An access within one page. -/
theorem pagesOne {n ea : Nat} (h0 : 0 < n) (h : ea % 65536 + n ≤ 65536) (f : Nat) : pagesOf (f + 2) ea n = [(ea, n)] := by
  rw [pagesOf, if_neg (by omega)]
  have : min n (65536 - ea % 65536) = n := by omega
  simp only [this]
  rw [Nat.sub_self]
  rw [pagesOf, if_pos rfl]

/-- Byte `j` of what segments hold. -/
theorem segBytes_get (s : State) (row : Nat) : ∀ (l : List Seg) (j : Nat), (segBytes s row l)[j]? = (spotOf l j).map (readSpot s row)
  | [], j => rfl
  | g :: r, j => by
    have ih := segBytes_get s row r
    rw [segBytes, List.flatMap_cons]
    by_cases h : j < g.len
    · rw [List.getElem?_append_left (by simpa using h), spotOf, if_pos h]
      simp only [List.getElem?_map, List.getElem?_range h, Option.map_some]
      congr 1
      unfold locByte readSpot spot
      cases g.loc <;> rfl
    · rw [List.getElem?_append_right (by simp; omega), spotOf, if_neg h, ← ih]
      simp [segBytes]

/-- A number of bytes is below its bound. -/
theorem ofBytes_lt : ∀ bs : List Byte, ofBytes bs < 256 ^ bs.length
  | [] => by simp [ofBytes]
  | b :: r => by
    have := ofBytes_lt r
    have hb := b.isLt
    rw [ofBytes, List.length_cons, pow_succ]
    omega

/-- The bytes of a number are those it was made of. -/
theorem ofBytes_get : ∀ (bs : List Byte) (j : Nat), byteOf (ofBytes bs) j = bs.getD j 0
  | [], j => by simp [ofBytes, byteOf]
  | b :: r, 0 => by
    apply BitVec.eq_of_toNat_eq
    have hb := b.isLt
    simp [ofBytes, byteOf]
    omega
  | b :: r, j + 1 => by
    rw [List.getD_cons_succ, ← ofBytes_get r j]
    unfold byteOf
    rw [ofBytes, pow_succ, Nat.mul_comm (256^j), ← Nat.div_div_eq_div_mul]
    congr 2
    have hb := b.isLt
    omega

/-- A byte below a cut. -/
theorem byteOf_mod {x k j : Nat} (h : j < k) : byteOf (x % 256 ^ k) j = byteOf x j := by
  unfold byteOf
  apply BitVec.eq_of_toNat_eq
  simp only [BitVec.toNat_ofNat]
  have : (2:Nat)^8 = 256 := rfl
  rw [this]
  obtain ⟨d, rfl⟩ : ∃ d, k = j + (d + 1) := ⟨k - j - 1, by omega⟩
  rw [pow_add, Nat.mod_mul_right_div_self, pow_succ, Nat.mul_comm (256^d), Nat.mod_mul_right_mod]

/-- The bytes of a vector value. -/
theorem vwordOf_get {bs : List Byte} {j : Nat} (h : j < 512) : byteOf (vwordOf bs).toNat j = bs.getD j 0 := by
  rw [vwordOf, BitVec.toNat_ofNat]
  rw [show (2:Nat)^4096 = 256^512 from by rw [show (256:Nat) = 2^8 from rfl, ← pow_mul], byteOf_mod h, ofBytes_get]

/-- Translated segments are as long as the pages of the access. -/
theorem trans_lens {s row asid k w} : ∀ (l : List (Nat × Nat)) (x : List Seg), transPages s row asid k w l = .ok x → x.map Seg.len = l.map Prod.snd
  | [], x, h => by simp [transPages] at h; subst h; rfl
  | (va, n) :: r, x, h => by
    have ih := trans_lens (s := s) (row := row) (asid := asid) (k := k) (w := w) r
    rw [transPages] at h
    split at h
    · dsimp only at h
      split at h
      · cases h
      · split at h
        · rename_i l hl
          have := ih l hl
          simp at h; subst h; simp [this]
        · rename_i hh
          exact absurd h (by intro h'; exact hh _ h')
    · split at h
      · cases h
      · cases h
      · dsimp only at h
        split at h
        · cases h
        · split at h
          · rename_i l hl
            have := ih l hl
            simp at h; subst h; simp [this]
          · rename_i hh
            exact absurd h (by intro h'; exact hh _ h')

/-- How many bytes segments hold. -/
theorem segBytes_len (s : State) (row) (l : List Seg) : (segBytes s row l).length = (l.map Seg.len).sum := by
  induction l with
  | nil => rfl
  | cons g r ih =>
    rw [List.map_cons, List.sum_cons, ← ih, segBytes, List.flatMap_cons, List.length_append]
    congr 1
    simp

/-- What a translated access has passed. -/
theorem translate_align {s row k w ea n al l} (h : Machine.translate s row k w ea n al = .ok l) : ea < 2^48 ∧ ea % al = 0 ∧ ea + n ≤ 2^48 := by
  rw [Machine.translate] at h
  by_cases h1 : 2 ^ 48 ≤ ea
  · rw [if_pos h1] at h; cases h
  · rw [if_neg h1] at h
    by_cases h2 : ea % al = 0
    · rw [if_neg (by omega)] at h
      by_cases h3 : 2 ^ 48 < ea + n
      · rw [if_pos h3] at h; cases h
      · exact ⟨by omega, h2, by omega⟩
    · rw [if_pos h2] at h; cases h

/-- An aligned access is one segment. -/
theorem translate_one {s row k w ea n al l} (h0 : 0 < n) (ha : al = n) (hd : n ∣ 65536) (h : Machine.translate s row k w ea n al = .ok l) :
    ∃ loc, l = [⟨ea, n, loc⟩] := by
  obtain ⟨h1, h2, h3⟩ := translate_align h
  subst ha
  obtain ⟨c, hc⟩ := hd
  have hlt : ea % 65536 + al ≤ 65536 := by
    have h4 : ea % 65536 % al = 0 := by rw [hc, Nat.mod_mul_right_mod]; exact h2
    have h5 : ea % 65536 < al * c := by rw [← hc]; exact Nat.mod_lt _ (by decide)
    obtain ⟨d, hd⟩ := Nat.dvd_of_mod_eq_zero h4
    rw [hd] at h5 ⊢
    have : d < c := Nat.lt_of_mul_lt_mul_left h5
    rw [hc]
    calc al * d + al = al * (d + 1) := by ring
      _ ≤ al * c := Nat.mul_le_mul_left _ this
  rw [Machine.translate, if_neg (by omega), if_neg (by omega), if_neg (by omega), pagesOne h0 hlt] at h
  rw [transPages] at h
  split at h
  · dsimp only at h
    split at h
    · cases h
    · simp [transPages] at h; exact ⟨_, h.symm⟩
  · split at h
    · cases h
    · cases h
    · dsimp only at h
      split at h
      · cases h
      · simp [transPages] at h; exact ⟨_, h.symm⟩

/-- Widths divide a page. -/
theorem width_pos (w : Width) : 0 < w.bytes ∧ w.bytes ∣ 65536 := by cases w <;> exact ⟨by decide, by decide⟩

/-- What entering leaves leaves alone. -/
theorem touched_eqs (s : State) (l : List Seg) : (Touched s l).here = s.here ∧ (Touched s l).cur = s.cur ∧
    (∀ m, segBytes (Touched s l) s.cur m = segBytes s s.cur m) ∧ (∀ m, segPoison (Touched s l) m = segPoison s m) ∧
    (∀ m, touchesSysreg (Touched s l) m = touchesSysreg s m) ∧ (∀ m, inSysreg (Touched s l) m = inSysreg s m) ∧
    (∀ pa n, sysRead (Touched s l) pa n = sysRead s pa n) := by
  obtain ⟨tlb, h⟩ := touched_tlb l s s.cur
  unfold Touched
  rw [h]
  exact ⟨rfl, rfl, fun _ => rfl, fun _ => rfl, fun _ => rfl, fun _ => rfl, fun _ _ => rfl⟩

/-- An attempt that changes the bank of another package state and issues. -/
theorem issuesFrom_of_ok {u : UnitId} {s r : State} {i : Instr} (f : Bank → Bank) {b : Bank}
    (h : exec i s = .next (conclude u (.ok (r.modHere f)))) (hb : (f r.here).issued u = b) : IssuesFrom i s r b := by
  refine ⟨_, h, ?_⟩
  have := conclude_ok_modHere u r f
  rw [hb] at this
  exact this
/-- An attempt that waits after another change. -/
theorem issuesFrom_of_wait {u : UnitId} {s r : State} {i : Instr} {b : Bank}
    (h : exec i s = .next (conclude u (.wait r))) (hb : r.here.stalled u false = b) : IssuesFrom i s r b := by
  refine ⟨_, h, ?_⟩
  have := onlyBank_conclude_wait u r
  rw [hb] at this
  exact this

/-- The update register is written when the instruction has issued. -/
theorem updateReg_issued {b : Bank} {u : BitVec 5} {ea : W64} (hh : b.halting = false) : (updateReg b u ea).issued .A = (b.issued .A).setA u ea := by
  unfold updateReg
  by_cases h : u = 0
  · subst h; rfl
  · rw [if_neg h, issued_send_one hh]; rfl

end Sys2Proof
end

