-- ==== Sys2Proof/Laws/Stores.lean ====
section
/-! SUPPORT. Laws of stores: what writing the bytes of an access changes, and what a store that is allowed leaves. -/

namespace Sys2Proof

open Machine

theorem toBytes_len : ∀ n x, (toBytes n x).length = n
  | 0, _ => rfl
  | n + 1, x => by rw [toBytes, List.length_cons, toBytes_len]
theorem toBytes_get : ∀ n x i, i < n → (toBytes n x)[i]? = some (BitVec.ofNat 8 (x / 256^i))
  | 0, _, i, h => by omega
  | n + 1, x, 0, h => by simp [toBytes]
  | n + 1, x, i + 1, h => by
    rw [toBytes, List.getElem?_cons_succ, toBytes_get n _ i (by omega), Nat.div_div_eq_div_mul, pow_succ, Nat.mul_comm]

/-- What stores of a row may change: bytes it has stored, what its queued commands remember, which bytes are stale. -/
def StoreOnly (s t : State) (row : Nat) : Prop :=
  (∃ stale, t = { s with banks := t.banks, stale := stale }) ∧ (∀ r, r ≠ row → t.bank r = s.bank r) ∧
    OnlyStores (s.bank row) (t.bank row)

theorem onlyStores_refl (b : Bank) : OnlyStores b b := ⟨rfl, fun _ => rfl⟩
theorem onlyStores_trans {a b c : Bank} (h : OnlyStores a b) (k : OnlyStores b c) : OnlyStores a c := by
  refine ⟨?_, fun e => (k.2 e).trans (h.2 e)⟩
  have h1 := h.1
  have k1 := k.1
  rw [h1] at k1
  exact k1
theorem storeOnly_refl (s : State) (row : Nat) : StoreOnly s s row := ⟨⟨s.stale, rfl⟩, fun _ _ => rfl, onlyStores_refl _⟩
theorem storeOnly_trans {s t u : State} {row : Nat} (h : StoreOnly s t row) (k : StoreOnly t u row) : StoreOnly s u row := by
  obtain ⟨⟨x, h1⟩, h2, h3⟩ := h
  obtain ⟨⟨y, k1⟩, k2, k3⟩ := k
  refine ⟨⟨y, ?_⟩, fun r hr => (k2 r hr).trans (h2 r hr), onlyStores_trans h3 k3⟩
  rw [h1] at k1
  exact k1

theorem onlyStores_keepOld (b : Bank) (k : Nat) (v : Byte) : OnlyStores b (keepOld b k v) := by
  refine ⟨rfl, fun e => ?_⟩
  cases e <;> simp only [keepOld, Bank.mapEngs, Bank.engQ, List.map_map]
  all_goals
    apply List.map_congr_left
    intro x _
    simp only [Function.comp]
    split <;> rfl

theorem bank_mod (s : State) (row r : Nat) (f : Bank → Bank) : (s.modBank row f).bank r = if row = r then f (s.bank row) else s.bank r :=
  bank_modBank ..

theorem storeOnly_mod (s : State) (row : Nat) (f : Bank → Bank) (h : OnlyStores (s.bank row) (f (s.bank row))) : StoreOnly s (s.modBank row f) row :=
  ⟨⟨s.stale, rfl⟩, fun r hr => by rw [bank_mod, if_neg (Ne.symm hr)], by rw [bank_mod, if_pos rfl]; exact h⟩

theorem storeOnly_locWrite (s : State) (row : Nat) (l : Loc) (i : Nat) (v : Byte) : StoreOnly s (locWrite s row l i v) row := by
  unfold locWrite
  refine storeOnly_trans (storeOnly_mod s row (fun b => keepOld b (locKey l i) (locByte s row l i)) (onlyStores_keepOld _ _ _)) ?_
  generalize s.modBank row _ = t
  cases l with
  | scratch off => exact storeOnly_mod t row _ ⟨rfl, fun e => by cases e <;> rfl⟩
  | phys pa c =>
    refine storeOnly_trans (storeOnly_mod t row (fun b => { b with pend := b.pend.set none (pa + i) (some v) }) ⟨rfl, fun e => by cases e <;> rfl⟩) ?_
    exact ⟨⟨_, rfl⟩, fun _ _ => rfl, onlyStores_refl _⟩

theorem read_keepOld (s : State) (row k : Nat) (v : Byte) (p) : readSpot (s.modBank row fun b => keepOld b k v) row p = readSpot s row p := by
  unfold readSpot State.view
  simp only [bank_mod, if_true]
  rfl

theorem read_locWrite (s : State) (row : Nat) (l : Loc) (i : Nat) (v : Byte) (p) :
    readSpot (locWrite s row l i v) row p = if spot l i = p then v else readSpot s row p := by
  rw [← read_keepOld s row (locKey l i) (locByte s row l i) p]
  unfold locWrite
  generalize s.modBank row _ = t
  obtain ⟨b, n⟩ := p
  cases l with
  | scratch off =>
    unfold readSpot State.view spot
    simp only [bank_mod, if_true, Prod.mk.injEq]
    cases b
    · simp only [Bool.false_eq_true, if_false]
      simp
      rfl
    · simp only [if_true, true_and]
      change Store.get zeroByte (Store.set zeroByte _ _ _) _ = if _ then _ else Store.get zeroByte _ _
      rw [Store.get_set]
  | phys pa c =>
    unfold readSpot State.view spot markStale State.pendWrite
    cases b
    · have e1 : ∀ (s : State) x r, ({ s with stale := x } : State).bank r = s.bank r := fun _ _ _ => rfl
      simp only [e1, bank_mod, if_true, Store.get_set, Prod.mk.injEq, true_and, Bool.false_eq_true, if_false]
      by_cases h : pa + i = n
      · simp [h]
      · simp only [h, if_false]; rfl
    · have e1 : ∀ (s : State) x r, ({ s with stale := x } : State).bank r = s.bank r := fun _ _ _ => rfl
      simp only [e1, bank_mod, if_true, Prod.mk.injEq]
      simp

theorem spot_inj {l : Loc} {a b : Nat} (h : spot l a = spot l b) : a = b := by
  cases l <;> simp [spot] at h <;> exact h

theorem locBytes_facts (row : Nat) (l : Loc) : ∀ (bs : List (Option Byte)) (s : State) (i : Nat),
    StoreOnly s (locWriteBytes s row l i bs) row ∧
    (∀ p, (∀ k v, bs[k]? = some (some v) → spot l (i + k) ≠ p) → readSpot (locWriteBytes s row l i bs) row p = readSpot s row p) ∧
    ∀ k v, bs[k]? = some (some v) → readSpot (locWriteBytes s row l i bs) row (spot l (i + k)) = v := by
  intro bs
  induction bs with
  | nil => intro s i; exact ⟨storeOnly_refl _ _, fun _ _ => rfl, fun k v h => by simp at h⟩
  | cons x r ih =>
    intro s i
    cases x with
    | none =>
      obtain ⟨h1, h2, h3⟩ := ih s (i + 1)
      refine ⟨h1, fun p hp => h2 p fun k v hk => ?_, fun k v hk => ?_⟩
      · have := hp (k + 1) v hk
        rwa [show i + (k + 1) = i + 1 + k by omega] at this
      · cases k with
        | zero => simp at hk
        | succ k => rw [show i + (k + 1) = i + 1 + k by omega]; exact h3 k v hk
    | some w =>
      obtain ⟨h1, h2, h3⟩ := ih (locWrite s row l i w) (i + 1)
      refine ⟨storeOnly_trans (storeOnly_locWrite ..) h1, fun p hp => ?_, fun k v hk => ?_⟩
      · rw [locWriteBytes, h2 p, read_locWrite, if_neg (by have := hp 0 w rfl; rwa [Nat.add_zero] at this)]
        intro k v hk
        have := hp (k + 1) v hk
        rwa [show i + (k + 1) = i + 1 + k by omega] at this
      · cases k with
        | zero =>
          simp at hk; subst hk
          rw [locWriteBytes, h2, read_locWrite, Nat.add_zero, if_pos rfl]
          intro k v hk hs
          have := spot_inj hs; omega
        | succ k => rw [show i + (k + 1) = i + 1 + k by omega]; exact h3 k v hk

theorem segWrite_facts (row : Nat) : ∀ (l : List Seg) (bs : List (Option Byte)) (s : State),
    StoreOnly s (segWrite s row l bs) row ∧
    (∀ p, (∀ k v, bs[k]? = some (some v) → spotOf l k ≠ some p) → readSpot (segWrite s row l bs) row p = readSpot s row p) ∧
    ∀ k v p, bs[k]? = some (some v) → spotOf l k = some p → (∀ j w, k < j → bs[j]? = some (some w) → spotOf l j ≠ some p) →
      readSpot (segWrite s row l bs) row p = v := by
  intro l
  induction l with
  | nil => intro bs s; exact ⟨storeOnly_refl _ _, fun _ _ => rfl, fun k v p _ h => by simp [spotOf] at h⟩
  | cons g r ih =>
    intro bs s
    obtain ⟨h1, h2, h3⟩ := locBytes_facts row g.loc (bs.take g.len) s 0
    obtain ⟨k1, k2, k3⟩ := ih (bs.drop g.len) (locWriteBytes s row g.loc 0 (bs.take g.len))
    have hd : ∀ j, spotOf (g :: r) (g.len + j) = spotOf r j := fun j => by
      rw [spotOf, if_neg (by omega)]; congr 1; omega
    refine ⟨storeOnly_trans h1 k1, fun p hp => ?_, fun k v p hk hs hl => ?_⟩
    · rw [segWrite, k2 p, h2 p]
      · intro k v hk
        rw [List.getElem?_take] at hk
        split at hk
        · rename_i hlt
          have := hp k v hk
          rw [spotOf, if_pos hlt] at this
          rw [Nat.zero_add]
          exact fun h => this (by rw [h])
        · simp at hk
      · intro k v hk
        rw [List.getElem?_drop] at hk
        rw [← hd]; exact hp _ v hk
    · rw [segWrite]
      by_cases hlt : k < g.len
      · rw [k2 p]
        · rw [spotOf, if_pos hlt] at hs
          obtain rfl := Option.some.inj hs
          have := h3 k v (by rw [List.getElem?_take, if_pos hlt]; exact hk)
          rwa [Nat.zero_add] at this
        · intro j w hj
          rw [List.getElem?_drop] at hj
          rw [← hd]; exact hl _ w (by omega) hj
      · have hk' : bs[g.len + (k - g.len)]? = some (some v) := by rw [show g.len + (k - g.len) = k by omega]; exact hk
        refine k3 (k - g.len) v p (by rw [List.getElem?_drop]; exact hk') ?_ ?_
        · rw [spotOf, if_neg hlt] at hs; exact hs
        · intro j w hj hw
          rw [List.getElem?_drop] at hw
          rw [← hd]; exact hl _ w (by omega) hw

theorem pagesSum : ∀ (f va n : Nat), n ≤ f * 65536 - va % 65536 → ((pagesOf f va n).map Prod.snd).sum = n
  | 0, va, n, h => by simp [pagesOf]; omega
  | f + 1, va, n, h => by
    rw [pagesOf]
    by_cases h0 : n = 0
    · rw [if_pos h0, h0]; rfl
    · rw [if_neg h0]
      dsimp only
      rw [List.map_cons, List.sum_cons]
      by_cases hm : n ≤ 65536 - va % 65536
      · rw [Nat.min_eq_left hm, Nat.sub_self]
        cases f with
        | zero => simp [pagesOf]
        | succ f => rw [pagesOf, if_pos rfl]; simp
      · rw [Nat.min_eq_right (by omega), pagesSum f _ _ ?_]
        · simp only; omega
        · have : (va + (65536 - va % 65536)) % 65536 = 0 := by omega
          rw [this]; omega

theorem translate_len {s row k w ea n al l} (hn : n ≤ 65536) (h : Machine.translate s row k w ea n al = .ok l) : (l.map Seg.len).sum = n := by
  obtain ⟨h1, h2, h3⟩ := translate_align h
  rw [Machine.translate, if_neg (by omega), if_neg (by omega), if_neg (by omega)] at h
  rw [trans_lens _ _ h]
  exact pagesSum _ _ _ (by have := Nat.mod_lt ea (show 0 < 65536 by decide); omega)

theorem onlyStores_halting {b c : Bank} (h : OnlyStores b c) : c.halting = b.halting := by rw [h.1]; rfl

theorem nibble_bits (en : MWord) (j : Nat) : en.toNat / 4 ^ j % 4 = (en.getLsbD (2 * j)).toNat + 2 * (en.getLsbD (2 * j + 1)).toNat := by
  have e : (4:Nat)^j = 2^(2*j) := by rw [show (4:Nat) = 2^2 from rfl, ← pow_mul]
  rw [BitVec.getLsbD, BitVec.getLsbD, Nat.testBit_eq_decide_div_mod_eq, Nat.testBit_eq_decide_div_mod_eq, e, pow_succ, ← Nat.div_div_eq_div_mul]
  generalize en.toNat / 2^(2*j) = x
  have : x % 2 < 2 := Nat.mod_lt _ (by decide)
  have : x / 2 % 2 < 2 := Nat.mod_lt _ (by decide)
  have e4 : x % 4 = x % 2 + 2 * (x / 2 % 2) := by omega
  rw [e4]
  rcases Nat.mod_two_eq_zero_or_one x with h | h <;> rcases Nat.mod_two_eq_zero_or_one (x/2) with h' | h' <;> simp [h, h']

theorem entryBytes_get (s : State) (l : List Seg) (e : VEntry) {n j : Nat} (hn : (l.map Seg.len).sum = n) (hj : j < n) :
    (entryBytes e (segBytes s s.cur l))[j]? = some (nibbleMerge s l e j) := by
  have hlen : (segBytes s s.cur l).length = n := by rw [segBytes_len, hn]
  have hg := segBytes_get s s.cur l j
  rw [List.getElem?_eq_getElem (by rw [hlen]; exact hj)] at hg
  unfold entryBytes
  rw [List.getElem?_map, List.getElem?_zipIdx, List.getElem?_eq_getElem (by rw [hlen]; exact hj)]
  simp only [Option.map_some, Option.some.injEq, Nat.zero_add, nibble_bits]
  unfold nibbleMerge
  rw [← hg]
  simp only [Option.getD_some]
  generalize (segBytes s s.cur l)[j] = o
  generalize hx : (e.val.getD 0).toNat / 256 ^ j % 256 = x
  have hb : byteOf (e.val.getD 0).toNat j = BitVec.ofNat 8 x := by
    unfold byteOf; rw [← hx]; apply BitVec.eq_of_toNat_eq; simp
  rw [hb]
  have hxl : x < 256 := by rw [← hx]; exact Nat.mod_lt _ (by decide)
  have ho := o.isLt
  generalize e.en.getLsbD (2 * j) = a
  generalize e.en.getLsbD (2 * j + 1) = b
  cases a <;> cases b <;> simp
  · apply BitVec.eq_of_toNat_eq
    rw [BitVec.toNat_append]
    simp [Nat.shiftRight_eq_div_pow, Nat.shiftLeft_eq]
    rw [Nat.mod_eq_of_lt hxl, Nat.mod_eq_of_lt (by omega : x / 16 < 16)]
    rw [Nat.mul_comm (x/16), ← Nat.two_pow_add_eq_or_of_lt (i := 4) (by omega)]
    omega
  · apply BitVec.eq_of_toNat_eq
    rw [BitVec.toNat_append]
    simp [Nat.shiftRight_eq_div_pow, Nat.shiftLeft_eq]
    rw [Nat.mod_eq_of_lt (by omega : BitVec.toNat o / 16 < 16), Nat.mul_comm (BitVec.toNat o/16), ← Nat.two_pow_add_eq_or_of_lt (i := 4) (by omega)]
    omega
  · apply BitVec.eq_of_toNat_eq
    rw [BitVec.toNat_append]
    simp [Nat.shiftRight_eq_div_pow, Nat.shiftLeft_eq]
    rw [Nat.mod_eq_of_lt hxl, Nat.mod_eq_of_lt (by omega : x / 16 < 16), Nat.mul_comm (x/16), ← Nat.two_pow_add_eq_or_of_lt (i := 4) (by omega)]
    omega

theorem stored_ok {s : State} {l : List Seg} {n : Nat} {bs : List (Option Byte)} {put : Nat → Option Byte} {r : State}
    (hr : ∀ p, readSpot r s.cur p = readSpot s s.cur p) (hlen : bs.length = n) (hb : ∀ j < n, bs[j]? = some (put j))
    {t : State} (ht : ∀ p, readSpot t s.cur p = readSpot (segWrite r s.cur l bs) s.cur p) : Stored s t s.cur l n put := by
  obtain ⟨-, h2, h3⟩ := segWrite_facts s.cur l bs r
  have hlt : ∀ k v, bs[k]? = some (some v) → k < n := fun k v hk => by
    rw [← hlen]; exact (List.getElem?_eq_some_iff.1 hk).1
  refine ⟨fun p hp => ?_, fun j hj p v hv hs hl => ?_⟩
  · rw [ht, h2 p, hr]
    intro k v hk
    refine hp k (hlt k v hk) ?_
    rw [hb k (hlt k v hk)] at hk
    rw [Option.some.inj hk]; simp
  · rw [ht]
    refine h3 j v p (by rw [hb j hj, hv]) hs fun k w hk hw => hl k (hlt k w hw) hk ?_
    rw [hb k (hlt k w hw)] at hw
    rw [Option.some.inj hw]; simp

/-- the store proper, when everything is allowed -/
theorem store_done {i : Instr} {s : State} {l : List Seg} {n : Nat} {bs : List (Option Byte)} {put : Nat → Option Byte}
    {f : Bank → Bank} {after : Bank → Bank} (_hl : s.here.halting = false)
    (hx : exec i s = .next (conclude .A (.ok ((segWrite ((Touched s l).modHere fun b => { b with own := none }) s.cur l bs).modHere f))))
    (hlen : bs.length = n) (hb : ∀ j < n, bs[j]? = some (put j))
    (hf : ∀ b, OnlyStores { s.here with own := none } b → (f b).issued .A = after b)
    (hk : ∀ b, OnlyStores { s.here with own := none } b → (after b).pend = b.pend ∧ (after b).scratch = b.scratch) :
    ∃ t b stale, exec i s = .next t ∧ OnlyBank { Touched s l with stale := stale } t (after b) ∧ OnlyStores { s.here with own := none } b ∧
      Stored s t s.cur l n put := by
  obtain ⟨tlb, htl⟩ := touched_tlb l s s.cur
  obtain ⟨e1, e2, -⟩ := touched_eqs s l
  generalize hr : (Touched s l).modHere (fun b => { b with own := none }) = r at *
  obtain ⟨⟨⟨stale, h1⟩, h2, h3⟩, -⟩ := segWrite_facts s.cur l bs r
  generalize hw : segWrite r s.cur l bs = w at *
  have hrc : r.cur = s.cur := by rw [← hr]; exact e2
  have hwc : w.cur = s.cur := by rw [h1]; exact hrc
  have hrb : r.bank s.cur = { s.here with own := none } := by
    rw [← hr, State.modHere, bank_mod, e2, if_pos rfl, ← e1]; unfold State.here; rw [e2]
  have hro : ∀ k, k ≠ s.cur → r.bank k = s.bank k := by
    intro k hk
    rw [← hr, State.modHere, bank_mod, e2, if_neg (Ne.symm hk)]
    unfold Touched; rw [htl]; rfl
  have hwh : w.here = w.bank s.cur := by unfold State.here; rw [hwc]
  rw [hrb] at h3
  have hb2 : ∀ k, (conclude .A (.ok (w.modHere f))).bank k = if k = s.cur then after (w.bank s.cur) else s.bank k := by
    intro k
    rw [(conclude_ok_modHere .A w f).2 k, hwc, hwh, hf _ h3]
    by_cases hkk : k = s.cur
    · rw [if_pos hkk, if_pos hkk]
    · rw [if_neg hkk, if_neg hkk, h2 k hkk, hro k hkk]
  refine ⟨_, w.bank s.cur, stale, hx, ⟨?_, ?_⟩, h3, ?_⟩
  · have := (conclude_ok_modHere .A w f).1
    rw [this, h1]
    rw [← hr]; unfold Touched; rw [htl]
    rfl
  · intro k
    rw [hb2]
    have : ({ Touched s l with stale := stale } : State).cur = s.cur := e2
    rw [this]
    by_cases hkk : k = s.cur
    · rw [if_pos hkk, if_pos hkk]
    · rw [if_neg hkk, if_neg hkk]; unfold Touched; rw [htl]; rfl
  · refine stored_ok (r := r) (bs := bs) ?_ hlen hb ?_
    · intro p
      unfold readSpot State.view
      rw [hrb, ← hr]
      unfold Touched; rw [htl]
      rfl
    · intro p
      rw [hw]
      unfold readSpot State.view
      rw [hb2, if_pos rfl, (hk _ h3).1, (hk _ h3).2]
      rfl

theorem setA_same (b : Bank) (u : BitVec 5) (v : W64) : (b.setA u v).pend = b.pend ∧ (b.setA u v).scratch = b.scratch := by
  unfold Bank.setA; split <;> exact ⟨rfl, rfl⟩

theorem land_scratch (b : Bank) (r : Result) : (b.land r).scratch = b.scratch := by
  cases r <;> simp only [Bank.land, writeAcc_eq, Bank.setS, Bank.setC, Bank.setA, Bank.setM, Bank.setV, Bank.setStoreQ] <;>
    first | rfl | (split <;> rfl) | (rename_i q _ _; cases q <;> rfl)
theorem issued_scratch (b : Bank) (u : UnitId) : (b.issued u).pend = b.pend ∧ (b.issued u).scratch = b.scratch := by
  constructor
  · rw [proj_issued Bank.pend u land_pend (by intro b l; cases u <;> rfl) (by intro b l; cases u <;> rfl)]; cases u <;> rfl
  · rw [proj_issued Bank.scratch u land_scratch (by intro b l; cases u <;> rfl) (by intro b l; cases u <;> rfl)]; cases u <;> rfl

theorem own_ok {s : State} {ea n : Nat} {l : List Seg} {k : State → Attempt} :
    withOwnership (Touched s l) ea n l k = match segsFrozen s s.cur l with
      | some va => .trap ((Touched s l).modHere fun b => { b with own := none }) (faultOf 0x08 va)
      | none =>
        if unowned s l = [] then
          if lentAt { s.here with own := none } ea n then .wait ((Touched s l).modHere fun b => { b with own := none })
          else k ((Touched s l).modHere fun b => { b with own := none })
        else match s.here.own with
          | some r => match r.refused with
            | some p => .trap ((Touched s l).modHere fun b => { b with own := none }) (faultOf 0x09 (refusedAt l ea p))
            | none => .wait ((Touched s l).modHere fun b => { b with own := some { r with subpages := unowned s l } })
          | none => if freezesDue s.here then .wait (Touched s l)
            else .wait ((Touched s l).modHere fun b => { b with own := some ⟨unowned s l, l.map Seg.va, s.cycle, none⟩ }) := by
  obtain ⟨tlb, htl⟩ := touched_tlb l s s.cur
  have e1 : segsFrozen (Touched s l) (Touched s l).cur l = segsFrozen s s.cur l := by unfold Touched; rw [htl]; rfl
  have e2 : unowned (Touched s l) l = unowned s l := by unfold Touched; rw [htl]; rfl
  have e3 : (Touched s l).here = s.here := (touched_eqs s l).1
  have e4 : (Touched s l).cycle = s.cycle := by unfold Touched; rw [htl]
  unfold withOwnership
  rw [e1, e2]
  simp only [here_modHere, e3]; (
    cases segsFrozen s s.cur l with
    | some va => rfl
    | none =>
      dsimp only
      by_cases hu : unowned s l = []
      · rw [if_pos hu, if_pos hu]
      · rw [if_neg hu, if_neg hu]
        cases s.here.own with
        | none => rw [e4]
        | some r => dsimp only; cases r.refused <;> rfl)


theorem conclude_trap (u : UnitId) (s : State) (f : FaultRec) : conclude u (.trap s f) = unitFault s u f := rfl

theorem issuesFrom_of_wait_mod {u : UnitId} {s r : State} {i : Instr} (f : Bank → Bank) {b : Bank}
    (h : exec i s = .next (conclude u (.wait (r.modHere f)))) (hb : (f r.here).stalled u false = b) : IssuesFrom i s r b := by
  refine ⟨_, h, rfl, fun k => ?_⟩
  by_cases hr : k = r.cur
  · subst hr; simp [conclude, State.modHere]; exact hb
  · simp [conclude, State.modHere, hr, Ne.symm hr]

theorem store_core {i : Instr} {s : State} {l : List Seg} {ea n : Nat} {put : Nat → Option Byte} {after : Bank → Bank} {k : State → Attempt}
    {f : Bank → Bank} {bs : List (Option Byte)}
    (hx : exec i s = .next (conclude .A (withOwnership (Touched s l) ea n l k))) (hl : s.here.halting = false)
    (hk0 : k ((Touched s l).modHere fun b => { b with own := none }) = .ok ((segWrite ((Touched s l).modHere fun b => { b with own := none }) s.cur l bs).modHere f))
    (hlen : bs.length = n) (hb : ∀ j < n, bs[j]? = some (put j))
    (hf : ∀ b, OnlyStores { s.here with own := none } b → (f b).issued .A = after b)
    (hk : ∀ b, OnlyStores { s.here with own := none } b → (after b).pend = b.pend ∧ (after b).scratch = b.scratch) :
    (∀ va, segsFrozen s s.cur l = some va →
      exec i s = .next (unitFault ((Touched s l).modHere fun b => { b with own := none }) .A (causeAt 0x08 (.ofNat 64 va)))) ∧
    (segsFrozen s s.cur l = none →
      (unowned s l ≠ [] →
        (∀ r p, s.here.own = some r → r.refused = some p →
          exec i s = .next (unitFault ((Touched s l).modHere fun b => { b with own := none }) .A
            (causeAt 0x09 (.ofNat 64 (refusedAt l ea p))))) ∧
        (∀ r, s.here.own = some r → r.refused = none →
          IssuesFrom i s (Touched s l) (Bank.stalled { s.here with own := some { r with subpages := unowned s l } } .A false)) ∧
        (s.here.own = none → freezesDue s.here = true → IssuesFrom i s (Touched s l) (Bank.stalled s.here .A false)) ∧
        (s.here.own = none → freezesDue s.here = false → IssuesFrom i s (Touched s l)
          (Bank.stalled { s.here with own := some ⟨unowned s l, l.map Seg.va, s.cycle, none⟩ } .A false))) ∧
      (unowned s l = [] → lentAt { s.here with own := none } ea n = true →
        IssuesFrom i s (Touched s l) (Bank.stalled { s.here with own := none } .A false)) ∧
      (unowned s l = [] → lentAt { s.here with own := none } ea n = false → ∃ t b stale,
        exec i s = .next t ∧ OnlyBank { Touched s l with stale := stale } t (after b) ∧ OnlyStores { s.here with own := none } b ∧
          Stored s t s.cur l n put)) := by
  rw [own_ok] at hx
  refine ⟨fun va hv => ?_, fun hv => ⟨fun hu => ⟨fun r p hr hrr => ?_, fun r hr hrr => ?_, fun hr hz => ?_, fun hr hz => ?_⟩, fun hu hL => ?_, fun hu hL => ?_⟩⟩
  · rw [hv] at hx; rw [causeAt_ofNat]; exact hx
  · rw [hv] at hx; dsimp only at hx; rw [if_neg hu, hr] at hx; dsimp only at hx; rw [hrr] at hx; rw [causeAt_ofNat]; exact hx
  · rw [hv] at hx; dsimp only at hx; rw [if_neg hu, hr] at hx; dsimp only at hx; rw [hrr] at hx
    exact issuesFrom_of_wait_mod _ hx (by rw [(touched_eqs s l).1, hrr])
  · rw [hv] at hx; dsimp only at hx; rw [if_neg hu, hr] at hx; dsimp only at hx; rw [if_pos hz] at hx
    exact issuesFrom_of_wait hx (by rw [(touched_eqs s l).1])
  · rw [hv] at hx; dsimp only at hx; rw [if_neg hu, hr] at hx; dsimp only at hx; rw [if_neg (by rw [hz]; simp)] at hx
    exact issuesFrom_of_wait_mod _ hx (by rw [(touched_eqs s l).1])
  · rw [hv] at hx; dsimp only at hx; rw [if_pos hu, if_pos hL] at hx
    exact issuesFrom_of_wait_mod _ hx (by rw [(touched_eqs s l).1])
  · rw [hv] at hx; dsimp only at hx; rw [if_pos hu, if_neg (by rw [hL]; simp), hk0] at hx
    exact store_done hl hx hlen hb hf hk

theorem seg_touch (s : State) (l m : List Seg) : segBytes ((Touched s l).modHere fun b => { b with own := none }) s.cur m = segBytes s s.cur m := by
  apply List.ext_getElem?
  intro j
  rw [segBytes_get, segBytes_get]
  congr 1
  obtain ⟨tlb, htl⟩ := touched_tlb l s s.cur
  funext p
  unfold Touched; rw [htl]
  unfold readSpot State.view State.modHere
  simp only [bank_mod, if_true]
  rfl

theorem publishHome_banks (l : Store (Option Byte)) (s : State) : (publishHome s l).banks = s.banks ∧ (publishHome s l).cur = s.cur := by
  have := onlyMemory_publishHome l s
  rw [this]; exact ⟨rfl, rfl⟩

def Keeps (s t : State) : Prop := t.banks = s.banks ∧ t.cur = s.cur
theorem keeps_devstat (s : State) (w : Nat) : Keeps s (devstatPut s w) := by
  unfold devstatPut; dsimp only; split <;> exact ⟨rfl, rfl⟩
theorem keeps_kimgpol (s : State) (w : Nat) : Keeps s (kimgpolPut s w) := by
  unfold kimgpolPut; split <;> exact ⟨rfl, rfl⟩
theorem keeps_setQueue (s : State) (k : Nat) (q : LaunchQueue) : Keeps s (s.setQueue k q) := ⟨rfl, rfl⟩
theorem keeps_doorbell (s : State) (k : Nat) (w) : Keeps s (doorbellOp s k w) := by
  unfold doorbellOp; dsimp only
  repeat' split
  all_goals exact ⟨rfl, rfl⟩
theorem keeps_lnqPut (s : State) (k a b c : Nat) : Keeps s (lnqPut s k a b c) := by
  unfold lnqPut; dsimp only
  split
  · split
    · exact ⟨rfl, rfl⟩
    · exact keeps_setQueue ..
  · exact keeps_setQueue ..
  · split
    · exact ⟨rfl, rfl⟩
    · exact keeps_doorbell ..
  · exact keeps_setQueue ..
  · exact ⟨rfl, rfl⟩
theorem keeps_writeBackDie (s : State) (die : Nat) : Keeps s (writeBackDie s die) := publishHome_banks ..
theorem keeps_dmcfg (s : State) (a b : Nat) : Keeps s (dmcfgPut s a b) := by
  unfold dmcfgPut; dsimp only
  split
  · exact ⟨rfl, rfl⟩
  · exact publishHome_banks ..
theorem keeps_xgcfg (s : State) (a b : Nat) : Keeps s (xgcfgPut s a b) := by
  unfold xgcfgPut; dsimp only
  split
  · exact ⟨rfl, rfl⟩
  · split
    · exact ⟨rfl, rfl⟩
    · split
      · exact keeps_writeBackDie ..
      · exact ⟨rfl, rfl⟩
theorem keeps_regPut (s : State) (m die off new mask : Nat) : Keeps s (regPut s m die off new mask) := by
  unfold regPut
  extract_lets v
  clear_value v
  split_ifs
  all_goals first
    | exact keeps_devstat ..
    | exact keeps_kimgpol ..
    | exact keeps_lnqPut ..
    | exact keeps_dmcfg ..
    | exact keeps_xgcfg ..
    | exact ⟨rfl, rfl⟩
theorem sysWrite_banks (s : State) (m pa : Nat) (bs : List Byte) : (sysWrite s m pa bs).banks = s.banks ∧ (sysWrite s m pa bs).cur = s.cur :=
  keeps_regPut ..

end Sys2Proof
end

