-- ==== Sys2Proof/Laws/Atomics.lean ====
section
/-! SUPPORT. Laws of atomics and of runs of bytes: the table of R229, what bringing copies home changes, what a run of writes reads as. -/

namespace Sys2Proof

open Machine

theorem signedOf_toInt {w n : Nat} (hw : 0 < w) (h : n < 2^w) : signedOf w n = (BitVec.ofNat w n).toInt := by
  rw [signedOf, BitVec.toInt_eq_toNat_cond, BitVec.toNat_ofNat, Nat.mod_eq_of_lt h]
  obtain ⟨k, rfl⟩ : ∃ k, w = k + 1 := ⟨w - 1, by omega⟩
  have : 2^(k+1) = 2 * 2^k := by ring
  simp only [Nat.add_sub_cancel]
  by_cases h1 : n < 2^k
  · rw [if_pos h1, if_pos (by omega)]
  · rw [if_neg h1, if_neg (by omega)]; norm_cast

theorem atomic_table (op : AtomicOp) {w old v cmp : Nat} (hw : 0 < w) (h1 : old < 2^w) (h2 : v < 2^w) (h3 : cmp < 2^w) :
    atomicValue op w old v cmp = (atomicNew op w (.ofNat _ old) (.ofNat _ v) (.ofNat _ cmp)).toNat := by
  have e1 := Nat.mod_eq_of_lt h1
  have e2 := Nat.mod_eq_of_lt h2
  have e3 := Nat.mod_eq_of_lt h3
  cases op <;> simp only [atomicValue, atomicNew]
  · simp
  · simp [e2]
  · have : (BitVec.ofNat w old = BitVec.ofNat w cmp) ↔ old = cmp := by
      rw [← BitVec.toNat_inj]; simp [e1, e3]
    by_cases h : old = cmp
    · rw [if_pos h, if_pos (this.2 h)]; simp [e2]
    · rw [if_neg h, if_neg (fun k => h (this.1 k))]; simp [e1]
  · rw [signedOf_toInt hw h1, signedOf_toInt hw h2, BitVec.sle]
    simp only [decide_eq_true_eq]
    split <;> simp [e1, e2]
  · rw [BitVec.ule]; simp only [BitVec.toNat_ofNat, e1, e2, decide_eq_true_eq]
    split <;> simp [e1, e2] <;> omega
  · rw [signedOf_toInt hw h1, signedOf_toInt hw h2, BitVec.sle]
    simp only [decide_eq_true_eq]
    by_cases hh : (BitVec.ofNat w old).toInt ≤ (BitVec.ofNat w v).toInt
    · rw [if_pos hh]
      by_cases hk : (BitVec.ofNat w v).toInt ≤ (BitVec.ofNat w old).toInt
      · rw [if_pos hk]
        have : BitVec.ofNat w old = BitVec.ofNat w v := BitVec.eq_of_toInt_eq (by omega)
        rw [← this]; simp [e1]
      · rw [if_neg hk]; simp [e2]
    · rw [if_neg hh, if_pos (by omega)]; simp [e1]
  · rw [BitVec.ule]; simp only [BitVec.toNat_ofNat, e1, e2, decide_eq_true_eq]
    split <;> simp [e1, e2] <;> omega
  · simp [e1, e2]
  · simp [e1, e2]

theorem spotKey (g : Loc) : locKey g 0 = if (spot g 0).1 then 2 ^ 60 + (spot g 0).2 else (spot g 0).2 := by
  cases g <;> rfl

theorem homeBytes_write : ∀ (bs : List Byte) (s : State) (pa x : Nat),
    (s.homeWriteBytes pa bs).home x = if pa ≤ x ∧ x < pa + bs.length then bs.getD (x - pa) 0 else s.home x
  | [], s, pa, x => by simp [State.homeWriteBytes]
  | v :: r, s, pa, x => by
    rw [State.homeWriteBytes, homeBytes_write r, home_homeWrite, List.length_cons]
    by_cases h : pa = x
    · subst h; rw [if_neg (by omega), if_pos rfl, if_pos (by omega)]; simp
    · by_cases h2 : pa + 1 ≤ x ∧ x < pa + 1 + r.length
      · rw [if_pos h2, if_pos (by omega)]
        rw [show x - pa = (x - (pa + 1)) + 1 by omega, List.getD_cons_succ]
      · rw [if_neg h2, if_neg h, if_neg (by omega)]

theorem only_homeBytes (bs : List Byte) (s : State) (pa : Nat) : OnlyMemory s (s.homeWriteBytes pa bs) := onlyMemory_homeWriteBytes bs s pa

theorem writeBack_only (s : State) (pa n : Nat) (ov) : OnlyMemory s (writeBack s pa n ov) := onlyMemory_publishHome _ _

theorem fold_only {α : Type} (f : State → α → State) (h : ∀ s a, OnlyMemory s (f s a)) : ∀ (l : List α) (s : State), OnlyMemory s (l.foldl f s)
  | [], s => OnlyMemory.refl s
  | a :: r, s => (h s a).trans (fold_only f h r _)

theorem fetchHome_only (s : State) (pa n : Nat) : OnlyMemory s (fetchHome s pa n) := by
  unfold fetchHome
  exact (fold_only _ (fun s a => writeBack_only ..) _ _).trans (fold_only _ (fun s a => writeBack_only ..) _ _)

theorem poison_publishHome (x : Nat) : ∀ (l : Store (Option Byte)) (s : State), s.poison.get false x = false → (publishHome s l).poison.get false x = false
  | [], s, h => h
  | (pa, some v) :: r, s, h => by
    rw [publishHome]; apply poison_publishHome x r
    show (s.poison.set false pa false).get false x = false
    rw [Store.get_set]; split
    · rfl
    · exact h
  | (pa, none) :: r, s, h => poison_publishHome x r s h

theorem fold_inv {α : Type} (P : State → Prop) (f : State → α → State) (h : ∀ r a, P r → P (f r a)) : ∀ (l : List α) (s : State), P s → P (l.foldl f s)
  | [], _, hs => hs
  | a :: r, s, hs => fold_inv P f h r _ (h s a hs)

theorem poison_fetchHome {s : State} {pa n x : Nat} (h : s.poison.get false x = false) : (fetchHome s pa n).poison.get false x = false := by
  unfold fetchHome
  refine fold_inv (fun s => s.poison.get false x = false) _ (fun s a h => poison_publishHome x _ _ h) _ _ ?_
  exact fold_inv (fun s => s.poison.get false x = false) _ (fun s a h => poison_publishHome x _ _ h) _ _ h

theorem markRun_eq (pa : Nat) : ∀ (n : Nat) (s : State), ∃ st, markRun s pa n = { s with stale := st }
  | 0, s => ⟨s.stale, rfl⟩
  | n + 1, s => by
    obtain ⟨st, h⟩ := markRun_eq pa n (markStale s (pa + n))
    exact ⟨st, by rw [markRun, h]; rfl⟩

theorem setRun_get (d : Byte) : ∀ (bs : List Byte) (m : Store Byte) (k x : Nat),
    (Store.setRun d m k bs).get d x = if k ≤ x ∧ x < k + bs.length then bs.getD (x - k) 0 else m.get d x
  | [], m, k, x => by simp [Store.setRun]
  | v :: r, m, k, x => by
    rw [Store.setRun, setRun_get d r, Store.get_set, List.length_cons]
    by_cases h : k = x
    · subst h; rw [if_neg (by omega), if_pos rfl, if_pos (by omega)]; simp
    · by_cases h2 : k + 1 ≤ x ∧ x < k + 1 + r.length
      · rw [if_pos h2, if_pos (by omega)]
        rw [show x - k = (x - (k + 1)) + 1 by omega, List.getD_cons_succ]
      · rw [if_neg h2, if_neg h, if_neg (by omega)]

theorem toBytes_getD {n x j : Nat} (h : j < n) : (toBytes n x).getD j 0 = byteOf x j := by
  rw [List.getD_eq_getElem?_getD, toBytes_get _ _ _ h]; rfl

end Sys2Proof
end

