-- ==== Sys2Proof/Laws/Decode.lean ====
section
/-! SUPPORT. Laws of the decoder: a word decodes to the instruction that its fields name and that encodes to it. -/

namespace Sys2Proof

/-- A word whose fields name a well-formed instruction that encodes to it decodes to that instruction. -/
theorem decodeUnit_of_raw {tag w : Nat} {i : Instr} (r : rawUnit tag w = some i) (wf : i.wf = true)
    (en : encode i = some (tag, w)) : decodeUnit tag w = some i := by
  rw [decodeUnit, r]
  simp [wf, en]

/-- What decodes is well formed and encodes to the word. -/
theorem encode_of_decodeUnit {tag w : Nat} {i : Instr} (h : decodeUnit tag w = some i) :
    i.wf = true ∧ encode i = some (tag, w) := by
  unfold decodeUnit at h
  split at h
  · cases h
  · split at h
    · rename_i j _ hj
      simp only [Option.some.injEq] at h
      subst h
      simpa using hj
    · cases h

/-- The fields of an S32 word (R78). -/
theorem packS_fields {op d a b f hi : Nat} (hd : d < 64) (ha : a < 64) (hb : b < 64) (hf : f < 128) (ho : op < 128) :
    bitsOf (packS op d a b f + 2 ^ 32 * hi) 31 25 = op ∧ bitsOf (packS op d a b f + 2 ^ 32 * hi) 24 19 = d ∧
      bitsOf (packS op d a b f + 2 ^ 32 * hi) 18 13 = a ∧ bitsOf (packS op d a b f + 2 ^ 32 * hi) 12 7 = b ∧
      bitsOf (packS op d a b f + 2 ^ 32 * hi) 6 0 = f ∧
      bitsOf (packS op d a b f + 2 ^ 32 * hi) 63 32 = hi % 2 ^ 32 := by
  unfold packS bitsOf
  refine ⟨?_, ?_, ?_, ?_, ?_, ?_⟩ <;> omega

end Sys2Proof
end

