-- ==== Sys2Proof/Laws/Engines.lean ====
section
/-! SUPPORT. Laws of the engines' shared operations: the start of the entry at the head and the end of an entry. -/

namespace Sys2Proof

open Machine

theorem runHead_of {s : State} {e : Eng} {i : Instr} {x : EngEntry} (h : Starts s e i x) (k : State → EngEntry → State) :
    runHead s e i k = k s x := by
  obtain ⟨h1, h2, h3, h4, h5, h6⟩ := h
  unfold runHead; dsimp only
  cases hq : s.here.engQ e with
  | nil => rw [hq] at h1; cases h1
  | cons y l =>
    rw [hq] at h1; cases h1
    dsimp only
    rw [if_neg (by simp [h2, h3]), h4]
    dsimp only
    rw [if_neg (by simp [h5, h6])]

theorem mxStart_of {s : State} {i : Instr} {x : EngEntry} (h : MxStarts s i x) (k : State → EngEntry → State) :
    mxStart s i k = k s x := by
  obtain ⟨h1, h2, h3⟩ := h
  unfold MxServes at h1
  unfold mxStart
  rw [h1]; dsimp only; rw [h2]; dsimp only; rw [h3]; rfl

/-- An entry that has run its time completes. -/
theorem mxStart_due {s : State} {i : Instr} {x : EngEntry} (h : MxServes s i x) {due taken : Nat} (hx : x.state = .running due taken)
    (k : State → EngEntry → State) : mxStart s i k = mxDone s x := by
  unfold MxServes at h
  unfold mxStart
  rw [h]; dsimp only; rw [hx]

/-- An entry whose work is done at `due`. -/
theorem mxFinish_eq (p : State) (x : EngEntry) (due taken : Nat) : mxFinish p x due taken =
    if due ≤ p.cycle then mxDone p x else setEntry p p.cur .mx { x with state := .running due taken } := rfl

theorem writeObject_none (s : State) (row status : Nat) : writeObject s row 0 status = .done s := rfl

theorem setFifo_setEngQ_other (b : Bank) (e : Eng) (l : List EngEntry) : (b.setEngQ e l).fifo e = b.fifo e := by cases e <;> rfl

theorem leaveQueue_eq (q : State) (row : Nat) (e : Eng) (x : EngEntry) (words : List W64) :
    let t := leaveQueue q row e x words
    t = { q with banks := t.banks, dir := (endOwners q fun o => o == .cmd row e x.id).dir } ∧
    ∀ k, t.bank k = if k = row then leftQueue (q.bank row) e x words else q.bank k := by
  refine ⟨rfl, fun k => ?_⟩
  unfold leaveQueue dropEntry endOwners leftQueue
  simp only [bank_modBank]
  by_cases h : row = k
  · subst h; simp [State.bank]
  · simp [h, Ne.symm h, State.bank]

theorem endOf_finish (p : State) (row : Nat) (e : Eng) (x : EngEntry) (status : Nat) (words : List W64)
    (h : ∃ q, writeObject (releaseAt p row 2) row x.done status = .done q) :
    EndOf p (finishEntry p row e x status words none) row e x status words := by
  obtain ⟨q, h⟩ := h
  unfold finishEntry; dsimp only; rw [h]
  exact ⟨q, h, leaveQueue_eq q row e x words⟩

theorem endsAt_of {i : Instr} {s p : State} {e : Eng} {x : EngEntry} {status : Nat} {words : List W64}
    (h : exec i s = .next (finishEntry p s.cur e x status words none)) : EndsAt i s p e x status words :=
  fun hq => ⟨_, h, endOf_finish p s.cur e x status words hq⟩

@[simp] theorem errRow_id (x : EngEntry) : x.errRow.id = x.id := by cases x; rfl
@[simp] theorem errRow_pos (x : EngEntry) : x.errRow.pos = x.pos := by cases x; rfl
@[simp] theorem errRow_sub (x : EngEntry) : x.errRow.sub = x.sub := by cases x; rfl
@[simp] theorem errRow_drawn (x : EngEntry) : x.errRow.drawn = x.drawn := by cases x; rfl
@[simp] theorem flag_id (x : EngEntry) (n : Nat) : (x.flag n).id = x.id := by cases x; rfl
@[simp] theorem flag_pos (x : EngEntry) (n : Nat) : (x.flag n).pos = x.pos := by cases x; rfl
@[simp] theorem flag_sub (x : EngEntry) (n : Nat) : (x.flag n).sub = x.sub := by cases x; rfl
@[simp] theorem flag_drawn (x : EngEntry) (n : Nat) : (x.flag n).drawn = x.drawn := by cases x; rfl
@[simp] theorem cpErrLine_pos (x : EngEntry) (n : Nat) : (cpErrLine x n).pos = x.pos := by cases x; unfold cpErrLine cpFlag; split <;> rfl
@[simp] theorem cpErrLine_sub (x : EngEntry) (n : Nat) : (cpErrLine x n).sub = x.sub := by cases x; unfold cpErrLine cpFlag; split <;> rfl
@[simp] theorem cpErrLine_id (x : EngEntry) (n : Nat) : (cpErrLine x n).id = x.id := by cases x; unfold cpErrLine cpFlag; split <;> rfl

end Sys2Proof
end

