-- ==== Sys2Proof/Laws/Scalar.lean ====
section
/-! SUPPORT. The sequencer's integer operations are those of the tables of chapter 06. -/

namespace Sys2Proof.Machine

theorem mulh_table (x y : W64) :
    mulhValue x y = .ofNat 64 ((x.signExtend 128 * y.signExtend 128).toNat / 2 ^ 64) := by
  have hx := BitVec.toInt_signExtend_of_le (x := x) (v := 128) (by omega)
  have hy := BitVec.toInt_signExtend_of_le (x := y) (v := 128) (by omega)
  have lx := BitVec.le_toInt x; have ux := BitVec.toInt_lt (x := x)
  have ly := BitVec.le_toInt y; have uy := BitVec.toInt_lt (x := y)
  have hm : ((x.signExtend 128 * y.signExtend 128).toNat : Int) = (x.toInt * y.toInt) % 2 ^ 128 := by
    have e (v : BitVec 128) : (v.toNat : Int) = v.toInt % 2 ^ 128 := by
      have h := BitVec.toInt_eq_toNat_cond v
      have := v.isLt
      split at h <;> omega
    rw [BitVec.toNat_mul, Int.natCast_mod, Int.natCast_mul, e (x.signExtend 128), e (y.signExtend 128), hx, hy]
    exact (Int.mul_emod _ _ _).symm
  unfold mulhValue
  apply BitVec.eq_of_toNat_eq
  rw [BitVec.toNat_ofInt, BitVec.toNat_ofNat]
  zify
  rw [hm]
  generalize x.toInt * y.toInt = p
  have : (0:Int) ≤ (p / 2 ^ 64) % 2 ^ 64 := Int.emod_nonneg _ (by norm_num)
  push_cast
  omega

theorem mulhz_table (x y : W64) :
    mulhzValue x y = .ofNat 64 ((x.setWidth 128 * y.setWidth 128).toNat / 2 ^ 64) := by
  have hx := x.isLt
  have hy := y.isLt
  have : x.toNat * y.toNat < 2 ^ 128 := by
    calc x.toNat * y.toNat ≤ (2 ^ 64 - 1) * (2 ^ 64 - 1) := Nat.mul_le_mul (by omega) (by omega)
      _ < 2 ^ 128 := by norm_num
  simp only [mulhzValue, BitVec.toNat_mul, BitVec.toNat_setWidth]
  rw [Nat.mod_eq_of_lt (show x.toNat < 2 ^ 128 by omega), Nat.mod_eq_of_lt (show y.toNat < 2 ^ 128 by omega), Nat.mod_eq_of_lt this]

theorem shl_table (x : W64) (n : Nat) : x <<< n = .ofNat 64 (x.toNat * 2 ^ n) := by
  apply BitVec.eq_of_toNat_eq; simp [BitVec.toNat_shiftLeft, Nat.shiftLeft_eq]

theorem shr_table (x : W64) (n : Nat) : x >>> n = .ofNat 64 (x.toNat / 2 ^ n) := by
  apply BitVec.eq_of_toNat_eq
  have : x.toNat / 2 ^ n ≤ x.toNat := Nat.div_le_self ..
  have hx := x.isLt
  simp only [BitVec.toNat_ushiftRight, Nat.shiftRight_eq_div_pow, BitVec.toNat_ofNat]
  exact (Nat.mod_eq_of_lt (lt_of_le_of_lt this hx)).symm

theorem sar_table (x : W64) (n : Nat) : x.sshiftRight n = .ofInt 64 (x.toInt / 2 ^ n) := by
  rw [BitVec.sshiftRight, Int.shiftRight_eq_div_pow]
  push_cast
  rfl

theorem min_table (x y : W64) : (if x.slt y then x else y) = .ofInt 64 (min x.toInt y.toInt) := by
  by_cases h : x.toInt < y.toInt <;> simp [BitVec.slt, h, min_def] <;> grind

theorem max_table (x y : W64) : (if x.slt y then y else x) = .ofInt 64 (max x.toInt y.toInt) := by
  by_cases h : x.toInt < y.toInt <;> simp [BitVec.slt, h, max_def] <;> grind

theorem minz_table (x y : W64) : (if x.ult y then x else y) = .ofNat 64 (min x.toNat y.toNat) := by
  by_cases h : x.toNat < y.toNat <;> simp [BitVec.ult, h, min_def] <;> grind

theorem maxz_table (x y : W64) : (if x.ult y then y else x) = .ofNat 64 (max x.toNat y.toNat) := by
  by_cases h : x.toNat < y.toNat <;> simp [BitVec.ult, h, max_def] <;> grind

theorem ctzFrom_eq (n : Nat) : ∀ x : Nat, ctzFrom n x = (((List.range n).map fun k => x.testBit k).takeWhile fun b => !b).length := by
  induction n with
  | zero => intro x; rfl
  | succ n ih =>
    intro x
    rw [ctzFrom, List.range_succ_eq_map]
    have h0 : x.testBit 0 = decide (x % 2 = 1) := Nat.testBit_zero x
    by_cases h : x % 2 = 1
    · simp [h, h0]
    · simp only [h, if_false, ih, List.map_cons, List.map_map, h0, decide_false, List.takeWhile_cons, Bool.not_false, if_true,
        List.length_cons]
      congr 3
      apply List.map_congr_left
      intro k _
      simp [Nat.testBit_succ]

theorem ctz_table (x : W64) : ctzFrom 64 x.toNat = ((bitsUp x).takeWhile fun b => !b).length := by
  rw [ctzFrom_eq]; rfl

theorem onesIn_eq (n : Nat) : ∀ x : Nat, onesIn n x = ((List.range n).map fun k => x.testBit k).count true := by
  induction n with
  | zero => intro x; rfl
  | succ n ih =>
    intro x
    have h0 : x.testBit 0 = decide (x % 2 = 1) := Nat.testBit_zero x
    rw [onesIn, List.range_succ_eq_map, ih]
    simp only [List.map_cons, List.map_map, List.count_cons, h0]
    have e : (List.range n).map (fun k => (x / 2).testBit k) = (List.range n).map ((fun k => x.testBit k) ∘ Nat.succ) := by
      apply List.map_congr_left
      intro k _
      simp [Nat.testBit_succ]
    rw [e]
    have : x % 2 = 0 ∨ x % 2 = 1 := by omega
    rcases this with h | h <;> simp [h]; try omega

theorem popc_table (x : W64) : onesIn 64 x.toNat = (bitsUp x).count true := by rw [onesIn_eq]; rfl

theorem clz_eq (n : Nat) : ∀ x : Nat, x < 2 ^ n →
    clzOf n x = (((List.range n).map fun k => x.testBit (n - 1 - k)).takeWhile fun b => !b).length := by
  induction n with
  | zero => intro x h; simp at h; subst h; rfl
  | succ n ih =>
    intro x h
    rw [List.range_succ_eq_map]
    simp only [List.map_cons, List.map_map, List.takeWhile_cons, Nat.add_sub_cancel, Nat.sub_zero]
    have e : (List.range n).map ((fun k => x.testBit (n - k)) ∘ Nat.succ) = (List.range n).map fun k => x.testBit (n - 1 - k) := by
      apply List.map_congr_left; intro k _; simp only [Function.comp]; congr 1; omega
    rw [e]
    by_cases hb : 2 ^ n ≤ x
    · have ht : x.testBit n = true := by
        have := Nat.testBit_two_pow_add_eq (x - 2 ^ n) n
        rw [show 2 ^ n + (x - 2 ^ n) = x by omega] at this
        rw [this]; simp [Nat.testBit_lt_two_pow (show x - 2 ^ n < 2 ^ n by rw [pow_succ] at h; omega)]
      have hx : x ≠ 0 := by have := Nat.two_pow_pos n; omega
      have hl : x.log2 = n := by
        rw [Nat.log2_eq_log_two]; exact Nat.log_eq_of_pow_le_of_lt_pow hb h
      simp [ht, clzOf, hx, hl]
    · have hlt : x < 2 ^ n := by omega
      have ht : x.testBit n = false := Nat.testBit_lt_two_pow hlt
      simp only [ht, Bool.not_false, if_true, List.length_cons, ← ih x hlt]
      unfold clzOf
      split
      · rfl
      · have : x.log2 < n := by rw [Nat.log2_lt ‹_›]; exact hlt
        omega

theorem clz_table (x : W64) : clzOf 64 x.toNat = ((bitsDown x).takeWhile fun b => !b).length := by
  rw [clz_eq 64 _ x.isLt]; rfl

theorem zext_table (w : Width) (x : W64) : BitVec.ofNat 64 (lowBits w x) = (x.setWidth (widthBits w)).setWidth 64 := by
  apply BitVec.eq_of_toNat_eq
  have := x.isLt
  cases w <;> simp [lowBits, Width.bytes, widthBits]; omega

theorem sext_table (w : Width) (x : W64) : signExtend w (lowBits w x) = (x.setWidth (widthBits w)).signExtend 64 := by
  have h : (x.setWidth (widthBits w)).toNat = lowBits w x := by
    have := x.isLt
    cases w <;> simp [lowBits, Width.bytes, widthBits]; omega
  have hi : (x.setWidth (widthBits w)).toInt =
      if lowBits w x < 2 ^ (8 * w.bytes - 1) then (lowBits w x : Int) else (lowBits w x : Int) - 2 ^ (8 * w.bytes) := by
    rw [BitVec.toInt_eq_toNat_cond, h]
    cases w <;> simp only [widthBits, Width.bytes] <;> norm_num <;> split <;> split <;> first | rfl | omega
  unfold signExtend
  rw [← hi, BitVec.signExtend]

theorem lih_table (i : BitVec 32) (x : W64) : (i.setWidth 64 <<< 32) ||| (x.setWidth 32).setWidth 64 = i ++ x.setWidth 32 := by
  ext j hj
  simp
  grind

end Sys2Proof.Machine
end

