-- ==== Sys2Proof/Laws/Tasks.lean ====
section
/-! SUPPORT. Laws of the operations on tasks: how a core leaves a bank, how groups follow their members. -/

namespace Sys2Proof

open Machine

theorem leaveBank_bank (s : State) (row r : Nat) : (leaveBank s row).bank r = s.bank r := by unfold leaveBank; dsimp only; split <;> rfl

theorem leaveBank_row (s : State) (row r : Nat) : (leaveBank s row).row r = s.row r := by unfold leaveBank; dsimp only; split <;> rfl

theorem leaveBank_eq (s : State) (row : Nat) : leaveBank s row = { s with core := (leaveBank s row).core } := by
  unfold leaveBank; dsimp only; split <;> rfl

theorem leaveBank_coreAt (s : State) (row c : Nat) :
    (leaveBank s row).coreAt c = if c = coreOf row then leftBy (s.coreAt c) row else s.coreAt c := by
  unfold leaveBank leftBy; dsimp only
  by_cases hc : c = coreOf row
  · subst hc; rw [if_pos rfl]; split
    · simp
    · rfl
  · simp only [if_neg hc]; split <;> simp [coreAt_setCore, Ne.symm hc]

theorem leaveBank_mem (s : State) (row : Nat) : (leaveBank s row).mem = s.mem := by rw [leaveBank_eq]

theorem leaveBank_launches (s : State) (row : Nat) : (leaveBank s row).launches = s.launches := by rw [leaveBank_eq]

theorem onlyTask_of (s : State) (row : Nat) (f : Bank → Bank) (g : Row → Row) :
    OnlyTask s ((leaveBank (s.modRow row g) row).modBank row f) row (f (s.bank row)) (g (s.row row)) := by
  refine ⟨?_, fun r => ?_, fun r => ?_, fun c => ?_⟩
  · rw [leaveBank_eq]; rfl
  · simp only [bank_modBank, leaveBank_bank, bank_modRow]; by_cases h : r = row
    · subst h; simp
    · simp [h, Ne.symm h]
  · simp only [row_modBank, leaveBank_row, row_modRow]; by_cases h : r = row
    · subst h; simp
    · simp [h, Ne.symm h]
  · rw [coreAt_modBank, leaveBank_coreAt]; rfl

theorem onlyBank_trans {s r t : State} {b : Bank} (h : OnlyBank r t b) (e : r = { s with banks := r.banks })
    (hb : ∀ k, k ≠ s.cur → r.bank k = s.bank k) : OnlyBank s t b := by
  obtain ⟨h1, h2⟩ := h
  have hc : r.cur = s.cur := by rw [e]
  refine ⟨?_, fun k => ?_⟩
  · rw [h1, e]
  · rw [h2, hc]; by_cases hk : k = s.cur
    · simp [hk]
    · simp [hk, hb k hk]

/-- A member's retirement changes nothing but the group table and what is kept for shared groups. -/
theorem leaveGroup_eq (s : State) (g : Nat) : ∃ gt sh, leaveGroup s g = { s with gt := gt, shared := sh } := by
  unfold leaveGroup modShared State.setGroup; dsimp only
  split
  · exact ⟨_, _, rfl⟩
  · split
    · exact ⟨_, _, rfl⟩
    · split
      · exact ⟨_, _, rfl⟩
      · exact ⟨_, _, rfl⟩

theorem leaveGroups_eq (l : List Nat) : ∀ s : State, ∃ gt sh, l.foldl leaveGroup s = { s with gt := gt, shared := sh } := by
  induction l with
  | nil => intro s; exact ⟨s.gt, s.shared, rfl⟩
  | cons a r ih =>
    intro s
    obtain ⟨g1, h1, e1⟩ := leaveGroup_eq s a
    obtain ⟨g2, h2, e2⟩ := ih (leaveGroup s a)
    rw [List.foldl_cons, e2, e1]
    exact ⟨g2, h2, rfl⟩

/-- The core masks are all that a refresh changes. -/
theorem refreshMasks_eq (l : List Nat) : ∀ s : State, ∃ gt, refreshMasks s l = { s with gt := gt } := by
  induction l with
  | nil => intro s; exact ⟨s.gt, rfl⟩
  | cons a r ih =>
    intro s
    obtain ⟨g, e⟩ := ih (s.setGroup a { s.group a with cmask := cmaskOf s a })
    refine ⟨g, ?_⟩
    unfold refreshMasks at *
    rw [List.foldl_cons, e]
    rfl

theorem groups_eq (base : State) (l m : List Nat) : ∃ gt sh, refreshMasks (l.foldl leaveGroup base) m = { base with gt := gt, shared := sh } := by
  obtain ⟨g1, h1, e1⟩ := leaveGroups_eq l base
  obtain ⟨g2, e2⟩ := refreshMasks_eq m (l.foldl leaveGroup base)
  rw [e2, e1]
  exact ⟨g2, h1, rfl⟩

end Sys2Proof
end

