-- ==== Sys2Proof/Laws/VectorGroups.lean ====
section
/-! SUPPORT. Laws of register groups: strides, weaves, and results for several registers. -/

namespace Sys2Proof.Machine

theorem strideFrom_get {α : Type} (k : Nat) (hk : 0 < k) : ∀ (l : List α) (c q : Nat), (strideFrom k c l)[q]? = l[c + k * q]?
  | [], c, q => by cases c <;> simp [strideFrom]
  | x :: r, 0, 0 => by simp [strideFrom]
  | x :: r, 0, q + 1 => by
    rw [strideFrom, List.getElem?_cons_succ, strideFrom_get k hk r (k-1) q, show 0 + k * (q + 1) = (k - 1 + k * q) + 1 by rw [Nat.mul_succ]; omega, List.getElem?_cons_succ]
  | x :: r, c + 1, q => by
    rw [strideFrom, strideFrom_get k hk r c q, show c + 1 + k * q = (c + k * q) + 1 by omega, List.getElem?_cons_succ]

theorem weave_get {α : Type} : ∀ (n : Nat) (ls : List (List α)), (∀ l ∈ ls, l.length = n) → ∀ i j, i < n → j < ls.length →
    (weave n ls)[ls.length * i + j]? = (ls[j]?.bind fun l => l[i]?)
  | 0, ls, h, i, j, hi, hj => by omega
  | n + 1, ls, h, i, j, hi, hj => by
    have hf : ∀ ls : List (List α), (∀ l ∈ ls, l.length = n + 1) → (ls.filterMap List.head?).length = ls.length ∧
      ∀ j < ls.length, (ls.filterMap List.head?)[j]? = (ls[j]?.bind fun l => l[0]?) := by
      intro ls
      induction ls with
      | nil => simp
      | cons l r ih =>
        intro h
        obtain ⟨x, t, rfl⟩ : ∃ x t, l = x :: t := List.exists_cons_of_length_eq_add_one (h l (by simp))
        have := ih fun l hl => h l (by simp [hl])
        refine ⟨by simp [this.1], fun j hj => ?_⟩
        cases j with
        | zero => simp
        | succ j => simpa using this.2 j (by simpa using hj)
    have hh := hf ls h
    rw [weave]
    cases i with
    | zero =>
      rw [Nat.mul_zero, Nat.zero_add, List.getElem?_append_left (by omega), hh.2 j hj]
    | succ i =>
      rw [List.getElem?_append_right (by rw [hh.1, Nat.mul_succ]; omega), hh.1, show ls.length * (i + 1) + j - ls.length = (ls.map List.tail).length * i + j by rw [List.length_map, Nat.mul_succ]; omega,
        weave_get n _ (by simpa using fun l hl => by simp [h l hl]) i j (by omega) (by simpa using hj)]
      simp only [List.getElem?_map]
      cases ls[j]? <;> simp

theorem weave_len {α : Type} : ∀ (n : Nat) (ls : List (List α)), (∀ l ∈ ls, l.length = n) → (weave n ls).length = ls.length * n
  | 0, ls, h => by simp [weave]
  | n + 1, ls, h => by
    have hf : ∀ ls : List (List α), (∀ l ∈ ls, l.length = n + 1) → (ls.filterMap List.head?).length = ls.length := by
      intro ls
      induction ls with
      | nil => simp
      | cons l r ih =>
        intro h
        obtain ⟨x, t, rfl⟩ : ∃ x t, l = x :: t := List.exists_cons_of_length_eq_add_one (h l (by simp))
        have := ih fun l hl => h l (by simp [hl])
        simp [this]
    rw [weave, List.length_append, hf ls h, weave_len n _ (by simpa using fun l hl => by simp [h l hl]), List.length_map, Nat.mul_succ, Nat.add_comm]

theorem readInter {s : State} {n k : Nat} {t : ElemType} {e : Nat} (hk : 0 < k) (he : e < k * t.count) :
   (s.here.readInterleaved n k t)[e]? = some (groupElem s t.width n k e) := by
  have h := weave_get t.count ((List.range k).map fun j => elems t (s.here.vreg (physReg (s.here.headEntry .V).rb (n + j)))) (by simp [length_elems]) (e / k) (e % k)
    (Nat.div_lt_of_lt_mul he) (by simpa using Nat.mod_lt _ hk)
  rw [List.length_map, List.length_range, Nat.div_add_mod] at h
  rw [Bank.readInterleaved, h]
  have : e % k < k := Nat.mod_lt _ hk
  have h2 : e / k < t.count := Nat.div_lt_of_lt_mul he
  simp [this, elems, h2, groupElem, physical_eq]

theorem strided_len {α : Type} {k p j : Nat} {l : List α} (hk : 0 < k) (hl : l.length = k * p) : (strided k j l).length ≤ p := by
  by_contra hc
  have h := List.getElem?_eq_getElem (l := strided k j l) (i := p) (by omega)
  simp only [strided] at h
  rw [strideFrom_get k hk] at h
  have := (List.getElem?_eq_some_iff.1 h).1
  omega

theorem group_send {i : Instr} {s : State} {c : Bank} {lat n k w p : Nat} {vals : List Nat} {act : List Bool} {a : Nat → Bool} {f : Nat → Nat} (g : Bank → Bank)
   (h : exec i s = .next (conclude .V (.ok (s.modHere g)))) (hg : g s.here = c.putInterleaved lat n k w vals act)
   (hq : (c.headEntry .V).rb = (s.here.headEntry .V).rb) (hk : 0 < k) (hv : vals.length = k * p) (ha : act.length = k * p) (hw : w * p = 4096)
   (hact : ∀ e < k * p, act.getD e false = a e) (hf : ∀ e < k * p, a e = true → vals.getD e 0 % 2^w = f e) : SendsToGroup i s c lat n k w (k * p) a f := by
  refine ⟨fun j => ofElems w (strided k j vals), fun j => enableBits w (strided k j act), issuesTo_of_ok g h ?_, ?_, ?_⟩
  · rw [hg, Bank.putInterleaved, GroupTo, Bank.send, if_neg (by simp; omega)]
    simp only [WithFlight, hq, physical_eq]
  · intro e he hae
    dsimp only
    have hl := strided_len (j := e % k) hk hv
    have : w * (strided k (e % k) vals).length ≤ 4096 := by rw [← hw]; exact Nat.mul_le_mul_left _ hl
    rw [elemAt_ofElems this, ← hf e he hae]
    congr 1
    rw [List.getD_eq_getElem?_getD, List.getD_eq_getElem?_getD, strided, strideFrom_get k hk, Nat.mod_add_div]
  · intro e he q hq
    dsimp only
    have hl := strided_len (j := e % k) hk ha
    have : w * (strided k (e % k) act).length ≤ 4096 := by rw [← hw]; exact Nat.mul_le_mul_left _ hl
    have hx : (strided k (e % k) act)[e / k]? = act[e]? := by rw [strided, strideFrom_get k hk, Nat.mod_add_div]
    have hi : e / k < (strided k (e % k) act).length := by
      rw [List.getElem?_eq_getElem (show e < act.length by omega)] at hx
      exact (List.getElem?_eq_some_iff.1 hx).1
    rw [enableBits_bit this hi hq, List.getD_eq_getElem?_getD, hx, ← List.getD_eq_getElem?_getD, hact e he]

theorem hasV_names {s : State} {n k : Nat} (h : declares s n k) : s.here.hasV (namesFrom n k) = true := by
  simp only [Bank.hasV, namesFrom, List.all_eq_true, List.mem_map, List.mem_range, decide_eq_true_eq]
  rintro _ ⟨j, hj, rfl⟩; exact h j hj

theorem widen_kinds {t r : ElemType} {q : Bool} (h : t.widened q = some r) : t.count = (if q then 4 else 2) * r.count ∧ t.isInt = r.isInt := by
  cases t <;> cases q <;> simp [ElemType.widened] at h <;> subst h <;> decide

theorem vWiden_ok {i s d a b m t q} {f : Mode → XVal → XVal → XVal → XVal} {r v w} {F : Nat → Nat → Nat → Nat} (h : exec i s = vWiden s d a b m t q f)
   (hr : t.widened q = some r) (hc : CanIssue s .V) (hd : declares s d.toNat (if q then 4 else 2)) (hm : m.toNat < s.here.decl.m) (ha : s.here.hasSrc a = true) (hb : s.here.hasSrc b = true)
   (hv : sourceValue s a = some v) (hw : sourceValue s b = some w) (hf : ∀ x y o, finish r s.here.mode (f s.here.mode (dec t x) (dec t y) (dec r o)) % 2^r.width = F x y o) :
   SendsToGroup i s (Popped s.here [a, b]) 5 d.toNat (if q then 4 else 2) r.width t.count (governs s m) fun e => F (elemAt t.width v e) (elemAt t.width w e) (groupElem s r.width d.toNat (if q then 4 else 2) e) := by
  have hk : 0 < (if q = true then 4 else 2) := by split <;> decide
  have hx := widen_kinds hr
  rw [vWiden, vIssue] at h
  simp only [hr, Option.getD_some] at h
  rw [declared_ok (by rw [hasV_names hd, ha, hb, hasM_ok hm]; rfl), landingRoom_ok hc.2, withSrcs, withSrc_ok hv, withSrc_ok hw] at h
  have hlen : ∀ n k, 0 < k → (s.here.readInterleaved n k r).length = k * r.count := by
    intro n k hk
    rw [Bank.readInterleaved, weave_len _ _ (by simp [length_elems])]; simp
  rw [hx.1]
  refine group_send _ h (by rw [popped_two]) (by rw [popped_two, headEntry_popSrcs]) hk ?_ (by rw [length_activeOf, hx.1]) (by rw [width_count]) ?_ ?_
  · simp only [List.length_zipWith, List.length_zip, length_elems, List.length_map, hlen _ _ hk, hx.1, min_self]
  · intro e he; exact getD_activeOf (by omega) _
  · intro e he _
    have he' : e < t.count := by omega
    rw [List.getD_eq_getElem?_getD, List.getElem?_zipWith]
    have e1 : (List.zip (elems t v) (elems t w))[e]? = some (elemAt t.width v e, elemAt t.width w e) := by
      simp [elems, he']
    rw [e1, List.getElem?_map, readInter hk he]
    exact hf _ _ _

theorem width_pos (t : ElemType) : 0 < t.width := by cases t <;> decide

theorem fin_tab {r : ElemType} {md : Mode} {v : XVal} {i : Int} (h : r.isInt = true → HoldsInt v i) :
    finish r md v = if r.isInt then (BitVec.ofInt r.width i).toNat else roundElem r md v := by
  cases ht : r.isInt
  · simp [finish_float ht]
  · simp [(h ht).finish ht]


end Sys2Proof.Machine
end

