-- ==== Sys2Proof/Laws/VectorMasks.lean ====
section
/-! SUPPORT. Laws of masks: packed bits, comparisons and classes as chapter 08 states them, words of xq, counts of set bits. -/

namespace Sys2Proof.Machine

theorem bit1 (l : List Bool) (h : l.length ≤ 1024) (j : Nat) : (BitVec.ofNat 1024 (packElems 1 (l.map Bool.toNat))).getLsbD j = l.getD j false := by
  rw [← BitVec.testBit_toNat, BitVec.toNat_ofNat, Nat.mod_eq_of_lt]
  · have := packElems_testBit 1 (l.map Bool.toNat) j 0 (by omega)
    rw [show 1 * j + 0 = j by omega] at this
    rw [this, List.getD_eq_getElem?_getD, List.getElem?_map, List.getD_eq_getElem?_getD]
    cases l[j]? with
    | none => simp
    | some b => cases b <;> simp
  · refine lt_of_lt_of_le (packElems_lt _ _) (Nat.pow_le_pow_right (by omega) ?_)
    simpa using h

theorem count_le (t : ElemType) : t.count ≤ 1024 := by cases t <;> decide

theorem compares_eq (p : VPred) (t : ElemType) (x y : Nat) : vpredHolds p (decodeElem t x) (decodeElem t y) = compares p t x y := by
  unfold vpredHolds compares
  simp only [dec]
  cases p <;> simp <;> cases (decodeElem t x).cmp (decodeElem t y) <;> simp

theorem class_eq (v : XVal) : classBit v = classOf v := by
  cases v with
  | nan => rfl
  | inf s => cases s <;> simp [classBit, classOf, XVal.isNan]
  | fin s m e => 
    simp only [classBit, classOf, XVal.isNan, XVal.isZero, XVal.sign]
    by_cases h : m = 0 <;> cases s <;> simp [h]

theorem mask_send {i s} {c : Bank} {d : BitVec 6} {m : BitVec 6} {n : Nat} {vals : List Bool} {f : Nat → Bool} (g : Bank → Bank) (h : exec i s = .next (conclude .V (.ok (s.modHere g))))
   (hg : g s.here = c.putMask 2 d vals (activeOf (s.here.mreg m) n)) (hn : n ≤ 1024) (hv : vals.length = n) (hf : ∀ j < n, vals.getD j false = f j) :
   ∃ bits en, IssuesTo i s (MaskTo c d bits en) ∧ ∀ j < 1024, en.getLsbD j = (decide (j < n) && governs s m j) ∧ (en.getLsbD j = true → bits.getLsbD j = f j) := by
  refine ⟨_, _, issuesTo_of_ok g h (by rw [hg]; rfl), fun j hj => ?_⟩
  rw [bit1 _ (by rw [length_activeOf]; exact hn), bit1 _ (by omega)]
  by_cases hjn : j < n
  · rw [getD_activeOf hjn, hf j hjn]; simp [hjn, governs]
  · rw [List.getD_eq_default _ _ (by rw [length_activeOf]; omega)]; simp [hjn]

theorem xq_ok {s : State} {w r} (h : xqHead s w r) (k : List W64 → Attempt) : withXq s 1 k = k [w] := by
  obtain ⟨e, h1, h2, h3⟩ := h
  exact withWords_one (q := .xq) h1 h2 h3
theorem xq_pop {s : State} {w r} (h : xqHead s w r) : s.here.popWords .xq 1 = { s.here with xq := r } := by
  obtain ⟨e, h1, h2, h3⟩ := h
  simp [Bank.popWords, Bank.wordQ, h1, Bank.setWordQ]

theorem tailMask_bit (x : W64) (j : Nat) (hj : j < 1024) : (tailMask x).getLsbD j = decide (j < x.toNat) := by
  rw [tailMask, ← BitVec.testBit_toNat, BitVec.toNat_ofNat, Nat.testBit_mod_two_pow, Nat.testBit_two_pow_sub_one]
  simp [hj]

theorem ctz_filter (n : Nat) : ∀ (x : Nat) (p : Nat → Bool), (∀ j < n, x.testBit j = p j) → ∀ j r, (List.range n).filter p = j :: r → ctzFrom n x = j := by
  induction n with
  | zero => intro x p _ j r h; simp at h
  | succ n ih =>
    intro x p hp j r h
    rw [List.range_succ_eq_map, List.filter_cons] at h
    have h0 := hp 0 (by omega)
    rw [ctzFrom]
    cases hb : p 0
    · rw [hb] at h h0
      rw [if_neg (by rw [Nat.testBit_zero] at h0; simpa using h0)]
      simp only [Bool.false_eq_true, if_false, List.filter_map] at h
      obtain ⟨q, hq, rest⟩ : ∃ q r', (List.range n).filter (p ∘ Nat.succ) = q :: r' ∧ j = q + 1 := by
        cases hl : (List.range n).filter (p ∘ Nat.succ) with
        | nil => rw [hl] at h; simp at h
        | cons q r' => rw [hl] at h; simp at h; exact ⟨q, r', rfl, by omega⟩
      have := ih (x / 2) (p ∘ Nat.succ) (fun j hj => by rw [Nat.testBit_div_two, hp _ (by omega)]; rfl) q hq rest.1
      omega
    · rw [hb] at h h0
      rw [Nat.testBit_zero] at h0
      rw [if_pos (by simpa using h0)]
      simp at h; exact h.1.symm ▸ rfl

end Sys2Proof.Machine
end

