-- ==== Sys2Proof/Laws/VectorMoves.lean ====
section
/-! SUPPORT. Laws of raw elements, index sources, conversions and permuted results. -/

namespace Sys2Proof.Machine

theorem cnt_of_lt {t src : ElemType} (h : src.width < t.width) : src.count = t.width / src.width * t.count ∧ t.width = src.width * (t.width / src.width) ∧ t.width / src.width ≠ 1 := by
  cases t <;> cases src <;> first | (exfalso; revert h; decide) | decide

theorem conv_ok {i s d a m t src n} {f : Mode → List W64 → Nat → Nat} {F : Nat → Nat} {c : Bank} {v : VWord} {ws : List W64}
   (h : exec i s = vConvert s d a m t src n f) (wf : convOk d a t src = true) (hx : ∀ k, withXq s n k = k ws) (hp : s.here.popWords .xq n = c)
   (hF : ∀ x, f s.here.mode ws x = F x) (hc : CanIssue s .V) (hm : m.toNat < s.here.decl.m) (hd : canTake s d) (ha : s.here.hasSrc a = true) (hv : sourceValue s a = some v) 
   (hcq : (c.headEntry .V).rb = (s.here.headEntry .V).rb) :
    (t.width = src.width →
      SendsTo i s (Popped c [a]) 4 d t.width t.count (governs s m) fun e => F (elemAt src.width v e) % 2 ^ keptBits t) ∧
    (src.width < t.width → ∀ n, d = .reg n → declares s n.toNat (t.width / src.width) →
      SendsToGroup i s (Popped c [a]) 4 n.toNat (t.width / src.width) t.width src.count (governs s m) fun e =>
        F (elemAt src.width v e) % 2 ^ keptBits t) ∧
    (t.width < src.width → ∀ n, a = .reg n → declares s n.toNat (src.width / t.width) →
      SendsTo i s c 4 d t.width t.count (governs s m) fun e =>
        F (groupElem s src.width n.toNat (src.width / t.width) e) % 2 ^ keptBits t) := by
  rw [vConvert, vIssue] at h
  dsimp only at h
  refine ⟨fun hw => ?_, fun hw nn hdn hg => ?_, fun hw nn han hg => ?_⟩
  · have e1 : widthRatio t.width src.width = 1 := by simp [widthRatio, hw]; exact Nat.div_self (width_pos _)
    have e2 : decide (src.width < t.width) = false := by simp [hw]
    have e3 : src.count = t.count := by have := width_count t; have := width_count src; rw [hw] at *; exact Nat.eq_of_mul_eq_mul_left (width_pos src) (by omega)
    simp only [e1, e2, Bool.false_eq_true, if_true, if_false, or_true] at h
    rw [declared_ok (by rw [ha, hasDst_ok hd, hasM_ok hm]; rfl), landingRoom_ok hc.2, dstRoom_ok hd, hx, withSrc_ok hv] at h
    refine sendsTo_putDst _ h (by rw [popped_one, hp, e3, max_self]) (width_count t) (width4_count t) (by simp [length_elems, e3]) fun j hj => ?_
    rw [← hF, ← slotCode_mod]
    simp [elems, e3, hj]
  · subst hdn
    have e0 : t.width / src.width = widthRatio t.width src.width := by simp [widthRatio, max_eq_left hw.le, min_eq_right hw.le]
    have e2 : decide (src.width < t.width) = true := by simp [hw]
    have hk : 0 < t.width / src.width := Nat.div_pos hw.le (width_pos _)
    have hcnt := (cnt_of_lt hw).1
    have hle : t.count ≤ src.count := by rw [hcnt]; exact Nat.le_mul_of_pos_left _ hk
    simp only [e2, true_or, if_true, VDst.regNum, ← e0] at h
    rw [declared_ok (by rw [ha, hasV_names hg, hasM_ok hm]; rfl), landingRoom_ok hc.2, dstRoom_ok hd, hx, withSrc_ok hv] at h
    rw [hcnt]
    refine group_send _ h (by rw [popped_one, hp]) (by rw [popped_one, headEntry_popSrc, hcq]) hk (by simp [length_elems, hcnt]) (by rw [length_activeOf, max_eq_right hle, hcnt]) (width_count t) ?_ ?_
    · intro e he; exact getD_activeOf (by rw [max_eq_right hle, hcnt]; exact he) _
    · intro e he _
      rw [← hF, ← slotCode_mod]
      simp [elems, show e < src.count by omega]
  · subst han
    have e0 : src.width / t.width = widthRatio t.width src.width := by simp [widthRatio, max_eq_right hw.le, min_eq_left hw.le]
    have e2 : decide (src.width < t.width) = false := by simp [hw.le]
    have hk : 0 < src.width / t.width := Nat.div_pos hw.le (width_pos _)
    have hk1 := (cnt_of_lt hw).2.2
    have hcnt := (cnt_of_lt hw).1
    have hle : src.count ≤ t.count := by rw [hcnt]; exact Nat.le_mul_of_pos_left _ hk
    simp only [e2, hk1, Bool.false_eq_true, or_self, if_false, VSrc.regNum, ← e0] at h
    rw [declared_ok (by rw [hasV_names hg, hasDst_ok hd, hasM_ok hm]; rfl), landingRoom_ok hc.2, dstRoom_ok hd, hx, withSrc_ok hv] at h
    have hlen : (s.here.readInterleaved nn.toNat (src.width / t.width) src).length = t.count := by
      rw [Bank.readInterleaved, weave_len _ _ (by simp [length_elems])]; simp [hcnt]
    refine sendsTo_putDst _ h (by rw [hp, max_eq_left hle]; rfl) (width_count t) (width4_count t) (by simp [hlen]) fun j hj => ?_
    rw [← hF, ← slotCode_mod, List.getD_eq_getElem?_getD, List.getElem?_map, readInter hk (by omega)]
    rfl

theorem sendsTo_act {i : Instr} {s : State} {c : Bank} {lat : Nat} {d : VDst} {w n : Nat} {vals : List Nat} {act : List Bool} {a : Nat → Bool}
    {f : Nat → Nat} (g : Bank → Bank) (h : exec i s = .next (conclude .V (.ok (s.modHere g))))
    (hg : g s.here = c.putDst lat d w vals act)
    (hw : w * n = 4096) (hw4 : w / 4 * n = 1024) (hv : vals.length = n) (hal : act.length = n) (hact : ∀ j < n, act.getD j false = a j)
    (hf : ∀ j < n, a j = true → vals.getD j 0 % 2 ^ w = f j) : SendsTo i s c lat d w n a f := by
  refine ⟨_, _, _, issuesTo_of_ok _ h (by rw [hg, putDst_sending]; rfl), ?_⟩
  have k := carries_packed (d := d) (act := act) (f := f) hw hw4 hal hv (fun j hj ha => hf j hj (by rw [← hact j hj]; exact ha)) rfl
  refine ⟨fun j hj ha => k.1 j hj ((hact j hj).trans ha), fun hr j hj ha => k.2.1 hr j hj ((hact j hj).trans ha),
    fun j hj q hq => (k.2.2.1 j hj q hq).trans (hact j hj), fun j hj q hq => (k.2.2.2 j hj q hq).trans (hact j hj)⟩

theorem kept_le (t : ElemType) : keptBits t ≤ t.width := by cases t <;> decide
theorem kept_kept (t : ElemType) (x : Nat) : x % 2 ^ keptBits t % 2 ^ t.width = x % 2 ^ keptBits t :=
  Nat.mod_eq_of_lt (lt_of_lt_of_le (Nat.mod_lt _ (Nat.two_pow_pos _)) (Nat.pow_le_pow_right (by omega) (kept_le t)))
theorem slot_kept (t : ElemType) (x : Nat) (h : x < 2^t.width) : slotCode t x = x % 2 ^ keptBits t := by
  unfold slotCode keptBits; split <;> simp [Nat.mod_eq_of_lt h]
theorem slot_kept' (t : ElemType) (x : Nat) : slotCode t x = x % 2 ^ keptBits t := by
  cases t <;> rfl
theorem elemOr0_eq (t : ElemType) (v : VWord) (j : Nat) : elemOr0 t v j = rawElem t v j := by
  unfold elemOr0 rawElem; split <;> simp [slot_kept']
theorem raw_mod (t : ElemType) (v : VWord) (j : Nat) : rawElem t v j % 2^t.width = rawElem t v j := by
  unfold rawElem; split <;> simp [kept_kept]
theorem fromIndex_len (t : ElemType) (f : Nat → Nat) : (fromIndex t f).length = t.count := by simp [fromIndex]
theorem fromIndex_get {t : ElemType} {f : Nat → Nat} {j : Nat} (h : j < t.count) : (fromIndex t f).getD j 0 = f j := by simp [fromIndex, h]

theorem index_ok {s x j c} (h : indexGives s x j c) (k : Nat → Attempt) : withIndex s x k = k j := by
  cases x with
  | imm n => obtain ⟨rfl, rfl⟩ := h; rfl
  | xq => obtain ⟨w, r, h1, rfl, rfl⟩ := h; rw [withIndex, xq_ok h1]; rfl
theorem index_pop {s x j c} (h : indexGives s x j c) : s.here.popWords .xq (indexPops x) = c := by
  cases x with
  | imm n => obtain ⟨rfl, rfl⟩ := h; simp [indexPops, Bank.popWords, Bank.wordQ, Bank.setWordQ]
  | xq => obtain ⟨w, r, h1, rfl, rfl⟩ := h; exact xq_pop h1

theorem codeWord_eq (sg : Bool) {w x : Nat} (hw : 0 < w) (hx : x < 2^w) (h6 : w ≤ 64) : codeWord sg w x = elemWord sg w x := by
  unfold codeWord elemWord
  cases sg
  · simp; apply BitVec.eq_of_toNat_eq; simp [Nat.mod_eq_of_lt hx]
  · simp only [if_true]
    have : signedOf w x = (BitVec.ofNat w x).toInt := by
      rw [signedOf, BitVec.toInt_eq_toNat_cond, BitVec.toNat_ofNat, Nat.mod_eq_of_lt hx]
      have : 2^w = 2 * 2^(w-1) := by rw [← pow_succ']; congr 1; omega
      by_cases hx : x < 2^(w-1)
      · rw [if_pos hx, if_pos (by omega)]
      · rw [if_neg hx, if_neg (by omega)]; simp
    rw [this, BitVec.signExtend]

theorem raw_lt (t : ElemType) (v : VWord) (j : Nat) : rawElem t v j < 2^t.width := by rw [← raw_mod]; exact Nat.mod_lt _ (Nat.two_pow_pos _)
theorem width_le (t : ElemType) : t.width ≤ 64 := by cases t <;> decide
theorem cq_ok {s : State} (h : s.here.cq.length < 16) (k) : cqRoom s true k = k := by
  rw [cqRoom, if_neg (by rw [show decide (wordDepth ≤ s.here.cq.length) = false from decide_eq_false (not_le.2 h)]; simp)]

end Sys2Proof.Machine
end

