-- ==== Sys2Proof/Safety.lean ====
section
/-! DEFINITION. What counts as a safe run: steps that neither stop with a fault of the machine nor are refused. -/

namespace Sys2Proof

/-- `n` steps from a state all answer a next state. -/
def runsSafely : Nat → Machine.State → Prop
  | 0, _ => True
  | n + 1, s => ∃ t, Machine.step s = .next t ∧ runsSafely n t

end Sys2Proof
end

