-- ==== Sys2Proof/Tests/Slice0.lean ====
section
/-! SUPPORT. Tests: ill-formed operands are refused, words of the spec's encodings decode, single steps on small states, and a state
that meets the hypotheses of each statement. -/

namespace Sys2Proof.Tests

set_option Elab.async false

open Sys2Proof Sys2Proof.Machine

/-! ### Ill-formed operands, one for each check of `Instr.wf` -/

/-- A command header with nothing set. -/
def hdr : CmdHdr := ⟨0, 0, 0, false, 0⟩
/-- CP operands with nothing set. -/
def cpArgs : CpArgs := ⟨false, false, 0, 0, 0, 0, 0, 0, 0, 0⟩

theorem test_wf_sext_w8 : (Instr.sext 1 2 .w8).wf = false := by decide
theorem test_wf_zext_w8 : (Instr.zext 1 2 .w8).wf = false := by decide
theorem test_wf_push_alignment : (Instr.push .mx 3 1).wf = false := by decide
theorem test_wf_shadow_zero : (Instr.shadow 0).wf = false := by decide
theorem test_wf_shadow_five : (Instr.shadow 5).wf = false := by decide
theorem test_wf_resolve_zero : (Instr.resolve 0 .commit).wf = false := by decide
theorem test_wf_lds_signed_8 : (Instr.lds 1 .w8 true 0).wf = false := by decide
theorem test_wf_sgo_target : (Instr.sgo 0 18).wf = false := by decide
theorem test_wf_pft_level : (Instr.pft 1 3).wf = false := by decide
theorem test_wf_peek_disagrees : (Instr.vadd (.reg 1) (.lq 1 true) (.lq 2 false) 0 .f32).wf = false := by decide
theorem test_wf_vadds_float : (Instr.vadds (.reg 1) (.reg 2) (.reg 3) 0 .f32).wf = false := by decide
theorem test_wf_vshl_float : (Instr.vshl (.reg 1) (.reg 2) (.imm 1) 0 .f32).wf = false := by decide
theorem test_wf_vshl_peek : (Instr.vshl (.reg 1) (.lq 2 true) (.src (.lq 1 false)) 0 .s32).wf = false := by decide
theorem test_wf_vclz_float : (Instr.vclz (.reg 1) (.reg 2) 0 .bf16).wf = false := by decide
theorem test_wf_vwadd_odd : (Instr.vwadd 3 (.reg 2) (.reg 4) 0 .s8 false).wf = false := by decide
theorem test_wf_vwadd_width : (Instr.vwadd 4 (.reg 2) (.reg 4) 0 .s32 false).wf = false := by decide
theorem test_wf_vclass_int : (Instr.vclass 1 (.reg 2) 0 .s32 1).wf = false := by decide
theorem test_wf_vcvt_ratio : (Instr.vcvt (.reg 8) (.reg 0) 0 .s32 .s4 false).wf = false := by decide
theorem test_wf_vcvt_group : (Instr.vcvt (.reg 1) (.reg 2) 0 .f32 .bf16 false).wf = false := by decide
theorem test_wf_vcvt_sat : (Instr.vcvt (.reg 2) (.reg 4) 0 .f32 .s32 true).wf = false := by decide
theorem test_wf_vcvts_queue : (Instr.vcvts (.sq 1) (.reg 2) 0 .f32 .bf16).wf = false := by decide
theorem test_wf_vscale_int : (Instr.vscale (.reg 1) (.reg 2) (.reg 3) 0 .s8).wf = false := by decide
theorem test_wf_vperm_group : (Instr.vperm (.reg 1) (.reg 2) (.reg 3) 0 .s8).wf = false := by decide
theorem test_wf_vunpk4_width : (Instr.vunpk4 (.reg 1) (.reg 2) 0 .s8 0).wf = false := by decide
theorem test_wf_vpack4_width : (Instr.vpack4 (.reg 1) (.reg 2) (.reg 3) 0 .s8 false false).wf = false := by decide
theorem test_wf_event_row : (Instr.lineDispatch 72).wf = false := by decide
theorem test_wf_event_core : (Instr.bankSwitch 36).wf = false := by decide
theorem test_wf_holder : (Instr.collect 44 0).wf = false := by decide
theorem test_wf_group : (Instr.gangRequired 256).wf = false := by decide
theorem test_wf_frame : (Instr.frameMove 1 0 1 4096).wf = false := by decide
theorem test_wf_permit_die : (Instr.permit 0 1 0 1 0).wf = false := by decide
theorem test_wf_access_target : (Instr.accessTableWrite (.lpddr 5) 0 0).wf = false := by decide
theorem test_wf_access_tier : (Instr.accessTableWrite (.tier 0) 0 0).wf = false := by decide
theorem test_wf_access_scratch : (Instr.accessTableWrite (.scratch 4) 0 0).wf = false := by decide
theorem test_wf_access_core : (Instr.accessTableWrite (.kv 3) 0 0).wf = false := by decide
theorem test_wf_dmcfg_die : (Instr.dmcfgWrite 4 0).wf = false := by decide
theorem test_wf_xgcfg_die : (Instr.xgcfgWrite 9 0).wf = false := by decide
theorem test_wf_resolve_entry : (Instr.resolveEntry 0 true).wf = false := by decide
theorem test_wf_mlw_columns : (Instr.mlw hdr 0 128 false).wf = false := by decide
theorem test_wf_mlw_shadow : (Instr.mlw { hdr with shadow := 1 } 0 3 false).wf = false := by decide
theorem test_wf_mswap_done : (Instr.mswap { hdr with done := 8 }).wf = false := by decide
theorem test_wf_mzt_shadow : (Instr.mzt { hdr with shadow := 5 } 0).wf = false := by decide
theorem test_wf_mtcfg_type : (Instr.mtcfg hdr 0 0).wf = false := by decide
theorem test_wf_mstore_type : (Instr.mstore hdr 0 (some .s32) 0 0).wf = false := by decide
theorem test_wf_mstore_address : (Instr.mstore hdr 0 none 32 0).wf = false := by decide
theorem test_wf_mloadt_stride : (Instr.mloadt hdr 0 64 8).wf = false := by decide
theorem test_wf_cpy_opx : (Instr.cpy hdr { cpArgs with opx := 1 }).wf = false := by decide
theorem test_wf_cpy_seq : (Instr.cpy hdr { cpArgs with seq := 1 }).wf = false := by decide
theorem test_wf_cpy_address : (Instr.cpy hdr { cpArgs with src := 0x1000000000000 }).wf = false := by decide
theorem test_wf_cpy_tagged_host : (Instr.cpy { hdr with btag := 1 } { cpArgs with shost := true }).wf = false := by decide
theorem test_wf_cpyc_type : (Instr.cpyc hdr { cpArgs with opx := 6 }).wf = false := by decide
theorem test_wf_fill_source : (Instr.fill hdr { cpArgs with src := 64 }).wf = false := by decide
theorem test_wf_cpyf_follow : (Instr.cpyf hdr { cpArgs with opx := 8 }).wf = false := by decide
theorem test_wf_kvxl_attach : (Instr.kvxl hdr 0 .attach 128 1 0).wf = false := by decide
theorem test_wf_kvxl_record : (Instr.kvxl hdr 0 .look 64 0 0).wf = false := by decide
theorem test_wf_kvapp_tag : (Instr.kvapp { hdr with btag := 65 } 0 ⟨false, 128, 0, 0, 1, 0, 0⟩).wf = false := by decide
theorem test_wf_kvapp_inplace : (Instr.kvapp hdr 0 ⟨true, 128, 0, 0, 0, 0, 0⟩).wf = false := by decide
theorem test_wf_kvatt_mask : (Instr.kvatt hdr 0 ⟨false, false, false, 128, 0, 0, 0, 0, 0, 0, 0, 0, 64⟩).wf = false := by decide
theorem test_wf_kvatt_tree : (Instr.kvatt hdr 0 ⟨true, false, false, 128, 0, 0, 0, 0, 0, 0, 0, 0, 0⟩).wf = false := by decide
theorem test_wf_kvmask_out : (Instr.kvmask hdr 0 0 32).wf = false := by decide
theorem test_wf_kvckpt_record : (Instr.kvckpt hdr 0 64).wf = false := by decide
theorem test_wf_kvcmt_count : (Instr.kvcmt hdr 0 ⟨128, 0, 9, 0, 64, 64⟩).wf = false := by decide
theorem test_wf_kvcmt_path : (Instr.kvcmt hdr 0 ⟨128, 0, 0, 1, 64, 0⟩).wf = false := by decide
theorem test_wf_kvsq_all : (Instr.kvsq hdr 0 true 128 1).wf = false := by decide
theorem test_wf_kvscore_source : (Instr.kvscore hdr 0 128 0 0 2).wf = false := by decide
theorem test_wf_kvtopk_range : (Instr.kvtopk hdr 0 128 5 5 1 0).wf = false := by decide
theorem test_wf_kvcompact_zero : (Instr.kvcompact hdr 0 128 0 0).wf = false := by decide
theorem test_wf_xsend_length : (Instr.xsend hdr 0 1 0 62).wf = false := by decide
theorem test_wf_xgrant_slots : (Instr.xgrant hdr 1 0 0).wf = false := by decide
theorem test_wf_xrecv_die : (Instr.xrecv hdr 0 9 0 false).wf = false := by decide
theorem test_wf_spseed_done : (Instr.spseed { hdr with done := 8 } 0 0).wf = false := by decide
theorem test_wf_spsoft_temperature : (Instr.spsoft hdr ⟨0, 0, 0, 0, false, 0⟩).wf = false := by decide
theorem test_wf_spdraw_source : (Instr.spdraw hdr 2 0 0 0).wf = false := by decide
theorem test_wf_spacc_tree : (Instr.spacc hdr ⟨32, 0, 0, 0, 0, 0, 0, 0⟩).wf = false := by decide
theorem test_wf_wreg_length : (Instr.wreg hdr 0 0 32).wf = false := by decide
theorem test_wf_wput_done : (Instr.wput { hdr with done := 16 } 0 0 0 0).wf = false := by decide
theorem test_wf_wcnt_start : (Instr.wcnt { hdr with start := 1 } false 0 false 0).wf = false := by decide

/-! ### Words written out from the encodings (R78 to R90) -/

theorem test_decode_addi : decodeUnit 1 0x4028BFFF = some (.addi 5 5 0x1FFF) := by decide
theorem test_decode_brc : decodeUnit 1 0x82200000 = some (.brc 1 false 0) := by decide
theorem test_decode_push : decodeUnit 1 0x14090000 = some (.push .mx 8 1) := by decide
theorem test_decode_pop : decodeUnit 1 0x16206100 = some (.pop 4 .xg 2) := by decide
theorem test_decode_waitc : decodeUnit 1 0x2000E400 = some (.waitc 7 8) := by decide
theorem test_decode_halt : decodeUnit 1 0x24000000 = some .halt := by decide
theorem test_decode_halt_reserved : decodeUnit 1 0x24000001 = none := by decide
theorem test_decode_loopr : decodeUnit 2 0xFFFFFFFF04300001 = some (.loopr 6 1 0xFFFFFFFF) := by decide
theorem test_decode_ldv : decodeUnit 3 0x20042001 = some (.ldv 0 4 1 1) := by decide
theorem test_decode_lds : decodeUnit 3 0x28038010 = some (.lds 3 .w4 false 16) := by decide
theorem test_decode_sdef : decodeUnit 3 0x60450000 = some (.sdef 2 5) := by decide
theorem test_decode_sgo : decodeUnit 3 0x68400003 = some (.sgo 2 3) := by decide
theorem test_decode_tlbsync : decodeUnit 3 0x84000000 = some .tlbsync := by decide
theorem test_decode_frz : decodeUnit 3 0x88040025 = some (.frz 4 5 1) := by decide
theorem test_decode_thw : decodeUnit 3 0x8C040025 = some (.thw 4 5 1) := by decide
theorem test_decode_vadd : decodeUnit 5 0x00028040C0006400 = some (.vadd (.reg 10) (.lq 1 false) (.reg 3) 0 .bf16) := by decide
theorem test_decode_vcvts : decodeUnit 5 0x104502000000400E = some (.vcvts (.reg 20) (.reg 8) 0 .e4m3 .f32) := by decide
theorem test_decode_vsigm : decodeUnit 5 0x2582000000007000 = some (.vsigm (.reg 8) (.reg 0) 0) := by decide
theorem test_decode_mpop : decodeUnit 5 0x0E00000000007000 = some (.mpop 0 .f32) := by decide
theorem test_decode_vtwr : decodeUnit 5 0x2C80054140800000 = some (.vtwr 2 21 (.imm 5) 0) := by decide

/-! ### States that meet the hypotheses of the statements

Each theorem is named after its statement. A clause without a hypothesis of its own needs none. -/

/-- A task that has declared every register, four tiles, eight streams, 512 bytes of scratch and one group. -/
def declared : Decl := ⟨64, 16, 32, 256, 64, 8, 8, 512, 1024, 1, 0⟩
/-- Its bank. -/
def bank : Bank := { Bank.reset with decl := declared }
/-- A package in which row 0 holds a bank and a timetable row. -/
def onRow (b : Bank) (x : Row) : State := { State.reset with agenda := [], banks := [(0, b)], tt := [(0, x)] }
/-- The same with the row running. -/
def on (b : Bank) : State := onRow b { Row.reset with state := .running }
/-- A full word entry. -/
def word (v : W64) : WordEntry := ⟨0, 0, some v, none⟩
/-- A full entry of a load or store queue. -/
def vec (v : VWord) : VEntry := ⟨0, 0, some v, MWord.ones, none⟩

theorem witness_ScalarInstructions : scalarResult (on bank).here.sreg (.add 1 2 3) = some (1, [2, 3], 0) ∧ CanIssue (on bank) .S ∧
    (on bank).here.hasS [1, 2, 3] = true := ⟨by decide, ⟨by decide, by decide⟩, by decide⟩
theorem witness_Division : divResult (on bank).here.sreg (.div 1 2 3) = some (1, [2, 3], 0xFFFFFFFFFFFFFFFF) ∧
    (on bank).here.hasS [1, 2, 3] = true ∧ CanIssue (on bank) .S ∧
    16 ≤ (on { bank with flightS := List.replicate 16 ⟨1, []⟩ }).here.inFlight .S ∧ (1 : W64) ≠ 0 :=
  ⟨by decide, by decide, ⟨by decide, by decide⟩, by decide, by decide⟩
theorem witness_Conditions : conditionResult (on bank).here.sreg (on bank).here.creg (.cmp .eq 1 2 3) = some (1, [2, 3], [], true) ∧
    CanIssue (on bank) .S ∧ (on bank).here.hasS [2, 3] = true ∧ (on bank).here.hasC [1] = true :=
  ⟨by decide, ⟨by decide, by decide⟩, by decide, by decide⟩
theorem witness_ResultsLand : bank.halting = false := by decide
theorem witness_Branches : (on bank).here.hasC [1] = true ∧ CanIssue (on bank) .S ∧ (on bank).here.hasS [63] = true :=
  ⟨by decide, ⟨by decide, by decide⟩, by decide⟩
theorem witness_ComputedJumps : (on bank).here.hasS [1] = true ∧
    2 ^ 48 ≤ ((on { bank with sregs := [(1, 2 ^ 48)] }).here.sreg 1).toNat ∧
    ((on { bank with sregs := [(1, 1)] }).here.sreg 1).toNat % 32 ≠ 0 ∧
    fetchLine (on bank) 0 0 = .bad 0x06 := ⟨by decide, by decide, by decide, by decide⟩
theorem witness_Loopr : CanIssue (on bank) .S ∧ (on bank).here.hasS [1] = true := ⟨⟨by decide, by decide⟩, by decide⟩
theorem witness_RegisterFiles : let s := on { bank with decl := { bank.decl with s := 2, v := 8 } }
    namesOf (.add 1 2 3) = some (.S, { s := [1, 2, 3] }) ∧ Names.within { s := [1, 2, 3] } s = false ∧
    namesOf (.vadd (.reg 9) (.lq 1 false) (.reg 2) 0 .f32) = some (.V, { v := [9, 2], m := [0] }) ∧
    Names.within { v := [9, 2], m := [0] } s = false ∧ heldStore s.here = none := by decide
theorem witness_DataQueues_needs : let i := Instr.vadd (.sq 1) (.lq 1 false) (.lq 2 false) 0 .f32
    let s := on { bank with lq := [(1, [vec 5]), (2, [])] }
    needsOf i = some ([.store 1] ++ .src (.lq 1 false) :: [.src (.lq 2 false)]) ∧ i.wf = true ∧ needUnit i = .V ∧
    (on bank).here.pendingFeed (.lq 1) = false ∧ filledHead ((on bank).here.loadQ 1) = none ∧ (filledHead (s.here.loadQ 1)).isSome = true ∧
    (s.here.storeQ 1).length < 8 ∧ Names.within { m := [0] } s = true := by decide
theorem witness_DataQueues : CanIssue (on bank) .S ∧ (on bank).here.hasS [1] = true ∧ ((on bank).here.wordQ .xq).length < 16 ∧
    16 ≤ ((on { bank with xq := List.replicate 16 (word 0) }).here.wordQ .xq).length ∧
    (on { bank with cq := [word 5] }).here.wordQ .cq = word 5 :: [] ∧
    (on { bank with cq := [{ word 5 with err := some 9 }] }).here.wordQ .cq = { word 5 with err := some 9 } :: [] ∧
    ((on bank).here.wordQ .cq).head?.bind WordEntry.val = none ∧ (on bank).here.pendingFeed (.word .cq) = false ∧
    (on { bank with cq := [{ word 0 with val := none }] }).here.pendingFeed (.word .cq) = true :=
  ⟨⟨by decide, by decide⟩, by decide, by decide, by decide, by decide, by decide, by decide, by decide, by decide⟩
/-- The page at 0x10000 in SRAM at 0x4000_0001_0000, with every right, in the core's TLB. -/
def mapped (b : Bank) : State := { on b with
  tlb := [(0, [⟨0, 0x10000, 65536, 0xF800400000010000⟩])], access := [(.sram, [(0, 0xF800000000000000)])] }
/-- The same at a freeze count of 1. -/
def mappedFrozen (b : Bank) : State := { mapped b with tlb := [(0, [⟨0, 0x10000, 65536, 0xF840400000010000⟩])] }
/-- A leaf for that page and the tables above it: ASID 0, tables at 0x4000_0010_0000, 0x4000_0010_4000 and 0x4000_0010_8000. -/
def tables (leaf : Nat) : List Host.Cell :=
  ((List.range 8).map fun i => (0x400000000000 + i, byteOf 0x8000400000100000 i)) ++
  ((List.range 8).map fun i => (0x400000100000 + i, byteOf 0x8000400000104000 i)) ++
  ((List.range 8).map fun i => (0x400000104000 + i, byteOf 0x8000400000108000 i)) ++
  ((List.range 8).map fun i => (0x400000108008 + i, byteOf leaf i))
/-- The package with these tables, nothing in a TLB. -/
def walked (leaf : Nat) (b : Bank) : State := { on b with
  mem := (tables leaf).filter fun c => c.2 ≠ 0, access := [(.sram, [(0, 0xF800000000000000)])] }
theorem tables_walk : walk (walked 0xF800400000010000 bank) 0 0x10000 = .leaf 0xF800400000010000 0x10000 65536 0x400000108008 := by decide
/-- The same with a line that may be entered at its start. -/
def landing (b : Bank) : State := { mapped b with mem := [(0x400000010000, 1)] }
theorem witness_lines : (∃ s' bs, fetchLine (landing bank) 0 0x10000 = .line s' bs ∧ lineLands bs = true) ∧
    ∃ s' bs, fetchLine (mapped bank) 0 0x10000 = .line s' bs ∧ lineLands bs = false :=
  ⟨⟨_, _, rfl, by decide⟩, ⟨_, _, rfl, by decide⟩⟩

/-- The words of a PUSH of MSWAP with RES, and of one of shadow set 1. -/
def swapWords : List W64 := ((encodeCmd (.mswap { hdr with res := true })).getD (.mx, [])).2
/-- A bank whose registers from s8 on hold command words. -/
def pushing (ws : List W64) : Bank := { bank with sregs := ws.zipIdx.map fun p => (8 + p.2, p.1) }
theorem witness_EngineQueues :
    engPresent ((on bank).cur / 2) .mx = true ∧ engPresent ((on bank).cur / 2) .kv = false ∧
    CanIssue (on bank) .S ∧ (on bank).here.hasS (eightFrom 8) = true ∧ (on bank).here.hasC [1] = true ∧
    cmdUndeclared (pushing swapWords) .mx (swapWords.map BitVec.toNat) = false ∧
    cmdMalformed (on (pushing swapWords)) 0 .mx (swapWords.map BitVec.toNat) = false ∧
    cmdMalformed (on bank) 0 .mx (List.replicate 8 0) = true ∧
    releaseReady bank = true ∧ bank.fifo .mx = [] ∧ ({ bank with fifoMx := [7] } : Bank).fifo .mx = 7 :: [] :=
  ⟨by decide, by decide, ⟨by decide, by decide⟩, by decide, by decide, by decide, by decide, by decide, by decide, by decide, by decide⟩
theorem witness_ShadowSets : 1 ≤ (1 : BitVec 3).toNat ∧ (1 : BitVec 3).toNat ≤ 4 ∧ bank.halting = false ∧
    bank.hasC (resolveRegs .commit) = true ∧ ¬ setOpen bank 1 ∧ setOpen { bank with shadows := 1 } 1 ∧ bank.mx.length < 16 :=
  ⟨by decide, by decide, by decide, by decide, by unfold setOpen; decide, by unfold setOpen; decide, by decide⟩
theorem witness_CountersAndSystemRegisters : (on bank).cur < 72 ∧ CanIssue (on bank) .S ∧ (on bank).here.hasS [1] = true :=
  ⟨by decide, ⟨by decide, by decide⟩, by decide⟩
theorem witness_TrapEntry : let s := landing { bank with trapvec := 0x10001 }
    (s.here.trapvec.getLsbD 0 = true ∧ s.here.trapcause.getLsbD 63 = false) ∧
    (∃ s' bs, fetchLine s s.cur (s.here.trapvec &&& 0x0000FFFFFFFFFFE0).toNat = .line s' bs ∧ lineLands bs = true) ∧
    fetchLine (on bank) 0 0x10000 = .bad 0x06 ∧ bank.trapvec.getLsbD 0 = false :=
  ⟨⟨by decide, by decide⟩, ⟨_, _, rfl, by decide⟩, by decide, by decide⟩
theorem witness_TrapReturnAndNop : 2 ^ 25 * 0x16 + 1 < 2 ^ 32 ∧ (2 ^ 25 * 0x16 + 1) / 2 ^ 25 = 0x16 ∧ (2 ^ 25 * 0x16 + 1) % 2 ^ 25 ≠ 0 ∧
    ({ bank with trapcause := 0x8000000000000000 } : Bank).trapcause.getLsbD 63 = true ∧ bank.trapcause.getLsbD 63 = false := by decide
/-- A member of a group of three at level 0. -/
def member (arrived : BitVec 17) (w : SWait) : State := { onRow { bank with sWait := w } { Row.reset with state := .running, gv := 1 } with
  gt := [(0, { Group.reset with valid := true, expect := 3, arrived := arrived })] }
theorem witness_PhaseAndFence : memberOf (on bank) 0 0 = false ∧ memberOf (member 0 .idle) 0 0 = true ∧
    releaseReady (member 0 .idle).here = true ∧ (member 0 .idle).here.sWait = .idle ∧
    ((member 0 .idle).group 0).arrived.toNat + 1 ≠ ((member 0 .idle).group 0).expect.toNat ∧
    ((member 2 .idle).group 0).arrived.toNat + 1 = ((member 2 .idle).group 0).expect.toNat ∧
    pendingOf (member 2 .idle).here 0 = none ∧ (member 0 (.arrived false)).here.sWait = .arrived false ∧
    ((member 0 (.arrived false)).group 0).gen = false ∧ ((member 0 (.arrived true)).group 0).gen ≠ true := by decide

theorem v_issues : CanIssue (on bank) .V := ⟨by decide, by decide⟩
theorem v_source : (on bank).here.hasSrc (.reg 2) = true ∧ sourceValue (on bank) (.reg 2) = some 0 := ⟨rfl, rfl⟩
theorem v_takes : canTake (on bank) (.reg 1) ∧ canTake (on bank) (.sq 1) := by unfold canTake; decide
theorem v_declares : declares (on bank) 8 4 ∧ declares (on bank) 4 4 := by unfold declares; decide
theorem v_word : xqHead (on { bank with xq := [word 5] }) 5 [] := ⟨_, rfl, rfl, rfl⟩
theorem witness_VectorElementwise : (∃ e, elementwise (.vadd (.reg 1) (.reg 2) (.reg 2) 0 .f32) = some e ∧
      Ready (on bank) e.d e.srcs e.m [0, 0]) ∧ (Instr.vadd (.reg 1) (.reg 2) (.reg 2) 0 .f32).wf = true :=
  ⟨⟨_, rfl, v_issues, v_takes.1, by show _ < 64; decide, by intro a h; simp at h; subst h; rfl, rfl⟩, by decide⟩
theorem witness_WideningInstructions : (∃ x, widening (.vwadd 4 (.reg 2) (.reg 2) 0 .s8 true) = some x ∧ x.t.widened x.quad = some .s32 ∧
      declares (on bank) x.d.toNat 4 ∧ x.m.toNat < (on bank).here.decl.m ∧ (on bank).here.hasSrc x.a = true ∧
      sourceValue (on bank) x.a = some 0 ∧ sourceValue (on bank) x.b = some 0) ∧ CanIssue (on bank) .V :=
  ⟨⟨_, rfl, rfl, v_declares.2, by show _ < 64; decide, rfl, rfl, rfl⟩, v_issues⟩
theorem witness_ComparisonsAndClasses : CanIssue (on bank) .V ∧ (on bank).here.hasM [1, 2] = true ∧ (on bank).here.hasSrc (.reg 2) = true ∧
    sourceValue (on bank) (.reg 2) = some 0 := ⟨v_issues, rfl, v_source⟩
theorem witness_MaskInstructions : CanIssue (on bank) .V ∧ maskLogic (on bank).here (.mset 1 .zero) = some (1, [], 0) ∧
    (on bank).here.hasM [1] = true ∧ xqHead (on { bank with xq := [word 5] }) 5 [] ∧ (on bank).here.cq.length < 16 :=
  ⟨v_issues, rfl, rfl, v_word, by decide⟩
theorem witness_Conversions : (Instr.vcvt (.reg 8) (.reg 2) 0 .f32 .bf16 false).wf = true ∧ CanIssue (on bank) .V ∧
    (0 : BitVec 6).toNat < (on bank).here.decl.m ∧ canTake (on bank) (.reg 1) ∧ sourceValue (on bank) (.reg 2) = some 0 ∧
    ElemType.bf16.width < ElemType.f32.width ∧ declares (on bank) 8 (ElemType.f32.width / ElemType.bf16.width) ∧
    declares (on bank) 4 (ElemType.f32.width / ElemType.bf16.width) ∧ xqHead (on { bank with xq := [word 5] }) 5 [] :=
  ⟨by decide, v_issues, by decide, v_takes.1, rfl, by decide, by unfold declares; decide, by unfold declares; decide, v_word⟩
theorem witness_Moves : CanIssue (on bank) .V ∧ canTake (on bank) (.sq 1) ∧ (on bank).here.hasM [1, 2] = true ∧
    sourceValue (on bank) (.reg 2) = some 0 ∧ xqHead (on { bank with xq := [word 5] }) 5 [] ∧
    indexGives (on bank) (.imm 3) 3 (on bank).here ∧ (∃ c, indexGives (on { bank with xq := [word 5] }) .xq 5 c) ∧ (on bank).here.cq.length < 16 :=
  ⟨v_issues, v_takes.2, rfl, rfl, v_word, ⟨rfl, rfl⟩, ⟨_, _, _, v_word, rfl, rfl⟩, by decide⟩
theorem witness_Permutes : CanIssue (on bank) .V ∧ sourceValue (on bank) (.reg 2) = some 0 ∧ canTake (on bank) (.reg 1) ∧
    (on bank).here.hasM [1] = true ∧ 1 < ElemType.s8.indexGroup ∧ declares (on bank) 4 ElemType.s8.indexGroup ∧
    ElemType.f32.indexGroup = 1 ∧ indexGives (on bank) (.imm 3) 3 (on bank).here ∧ (on bank).here.cq.length < 16 :=
  ⟨v_issues, rfl, v_takes.1, rfl, by decide, by unfold declares; decide, by decide, ⟨rfl, rfl⟩, by decide⟩
theorem witness_Interleaves : CanIssue (on bank) .V ∧ declares (on bank) 8 4 ∧ declares (on bank) 4 4 := ⟨v_issues, v_declares⟩
theorem witness_Nibbles : CanIssue (on bank) .V ∧ canTake (on bank) (.reg 1) ∧ (on bank).here.hasM [1] = true ∧
    (on bank).here.hasSrc (.reg 2) = true ∧ sourceValue (on bank) (.reg 2) = some 0 := ⟨v_issues, v_takes.1, rfl, v_source⟩
theorem witness_Reductions : (∃ r, reduction (on bank).here.mode .s32 (elemAt 32 0) (governs (on bank) 1) (.vrmax (.regCq 1) (.reg 2) 1 .s32) = some r) ∧
    CanIssue (on bank) .V ∧ (on bank).here.hasM [1] = true ∧ sourceValue (on bank) (.reg 2) = some 0 ∧ reductionRoom (on bank) (.regCq 1) :=
  ⟨⟨_, rfl⟩, v_issues, rfl, rfl, by unfold reductionRoom; decide⟩
theorem witness_VectorControl : xqHead (on { bank with xq := [word 5] }) 5 [] ∧ bank.disc ≤ (0 : BitVec 13).toNat ∧
    ({ bank with lq := [(1, [vec 9])] } : Bank).loadQ 1 = vec 9 :: [] ∧ (vec 9).val.isSome = true ∧
    (bank.loadQ 1).head?.bind VEntry.val = none ∧ heldStream bank 1 = none ∧ bank.pendingFeed (.lq 1) = false ∧
    ({ bank with lq := [(1, [{ vec 9 with val := none }])] } : Bank).pendingFeed (.lq 1) = true :=
  ⟨v_word, by decide, rfl, rfl, by decide, by decide, by decide, by decide⟩
/-- A tile of 16 by 16 elements at offset 0. -/
def tileCfg : TileCfg := ⟨0, .f32, 16, 16⟩
/-- A bank that holds it as t1. -/
def tiled : Bank := { bank with tiles := [(1, .configured tileCfg)] }
theorem witness_TileSlices : sliceMove (.vtrd 2 1 (.imm 3) 0) = some (false, false, 1, 2, .imm 3, 0) ∧ CanIssue (on tiled) .V ∧
    (on tiled).here.hasM [0] = true ∧ tileReady (on tiled) 1 tileCfg ∧ sliceGives (on tiled) (.imm 3) 3 (on tiled).here ∧
    3 < slicesOf false tileCfg ∧ 2 + registersOf false tileCfg ≤ (on tiled).here.decl.v ∧ registersOf false tileCfg ≤ 2 ∧
    tileCfg.ty = .f32 ∧ (on tiled).here.accBad = [] :=
  ⟨rfl, ⟨by decide, by decide⟩, rfl, ⟨by decide, by decide, rfl, by unfold present; decide⟩, ⟨rfl, rfl⟩, by decide, by decide, by decide, rfl, rfl⟩
theorem witness_TileConfiguration : (1 : BitVec 6).toNat < (on tiled).here.decl.t ∧ (∀ x ∈ (on tiled).here.mx, 1 ∉ x.tiles) ∧
    (on tiled).here.tile 1 = .configured tileCfg ∧ present (on tiled).here tileCfg ∧ (on bank).here.tile 1 = .unconfigured ∧
    (on { bank with tiles := [(1, .absent tileCfg)] }).here.tile 1 = .absent tileCfg ∧ configLegal 0xE0F0F ∧ ¬ configLegal 0xF0F0F ∧
    xqHead (on { bank with xq := [word 5] }) 5 [] ∧ CanIssue (on tiled) .V :=
  ⟨by decide, by decide, rfl, by unfold present; decide, rfl, rfl, by unfold configLegal; decide, by unfold configLegal; decide, v_word, ⟨by decide, by decide⟩⟩
theorem witness_AddressArithmetic : CanIssue (on bank) .A ∧ NoHeldStore (on bank) ∧
    addressResult (on bank).here (.aadd 1 2 3) = some (1, [2, 3], 0) ∧ (on bank).here.hasA [1, 2, 3] = true ∧
    wordHead (on { bank with aq := [word 5] }) .aq 5 [] ∧ (on bank).here.aq.head?.bind WordEntry.val = none ∧
    (on bank).here.pendingFeed (.word .aq) = false ∧ (on { bank with aq := [{ word 0 with val := none }] }).here.pendingFeed (.word .aq) = true :=
  ⟨⟨by decide, by decide⟩, rfl, rfl, rfl, ⟨_, rfl, rfl, rfl⟩, rfl, by decide, by decide⟩
/-- A bank whose a1 is 0x10000, with a word in ssq and an entry in sq0. -/
def storing : Bank := { bank with aregs := [(1, 0x10000)], ssq := [word 5], sq := [(0, [vec 9])] }
theorem witness_AccessChecks : accessOf (mapped storing) (.ldv 2 1 0 0) = some (.read, 0x10000, 512, 64) ∧
    accessReady (mapped storing) (.ldv 2 1 0 0) ∧ NoHeldStore (mapped storing) ∧
    translate (on storing) 0 .read false 0x10000 512 64 = .bad 0x06 0x10000 ∧
    translate (walked 0xF800400000010000 bank) 0 .read false 0x10000 512 64 = .miss 0x10000 ∧
    heldStore { bank with streams := [(0, { Stream.reset with active := true, held := true, target := 8, cause := 7 })] } ≠ none ∧
    inScratch 0xFF0000000000 = true ∧ inScratch 0x10000 = false ∧
    leafFor (mapped bank) 0 0 false 0x10000 = .hit 0xF800400000010000 0x10000 ∧ targetOf (mapped bank) 0x400000010000 = some .sram ∧
    hasRight (mapped bank) .sram .rd 0 0 = true ∧ boxOnly (mapped bank) false 0x400000010000 512 = none ∧
    boxOnly (mapped bank) true 0x400000000000 512 ≠ none :=
  ⟨rfl, ⟨by decide, by decide⟩, rfl, by decide, by decide, by decide, by decide, by decide, by decide, by decide, by decide,
    by decide, by decide⟩
/-- The pieces of an access of `n` bytes to the mapped page. -/
def pieces (n : Nat) : List Seg := [⟨0x10000, n, .phys 0x400000010000 false⟩]
/-- An atomic of the task to that page that has not executed. -/
def pendingAdd : PendAtomic := ⟨7, .add, true, 0x10000, 0x400000010000, 1, 0, false, 0, 0, false⟩
theorem witness_Loads : NoHeldStore (mapped storing) ∧ accessReady (mapped storing) (.ldv 2 1 0 0) ∧ accessReady (mapped storing) (.lds 1 .w8 false 0) ∧
    translate (mapped storing) 0 .read false 0x10000 512 64 = .ok (pieces 512) ∧ translate (mapped storing) 0 .read false 0x10000 8 8 = .ok (pieces 8) ∧
    touchesSysreg (mapped storing) (pieces 512) = false ∧ meetsAtomic storing (pieces 512) = false ∧
    meetsAtomic { storing with atomics := [pendingAdd] } (pieces 512) = true ∧
    ((mapped { storing with loads := [⟨3, none, 0, none⟩] }).bank 0).loads = [] ++ ⟨3, none, 0, none⟩ :: [] :=
  ⟨rfl, ⟨by decide, by decide⟩, ⟨by decide, by decide⟩, by decide, by decide, by decide, by decide, by decide, rfl⟩
theorem witness_Stores : NoHeldStore (mapped storing) ∧ accessReady (mapped storing) (.stv 2 1 0 0) ∧ accessReady (mapped storing) (.sts 1 .w8 0) ∧
    accessOf (mapped storing) (.sts 1 .w8 0) = some (.write, 0x10000, 8, 8) ∧
    translate (mapped storing) 0 .write false 0x10000 8 8 = .ok (pieces 8) ∧ wordHead (mapped storing) .ssq 5 [] ∧
    touchesSysreg (mapped storing) (pieces 8) = false ∧ segsFrozen (mapped storing) 0 (pieces 8) = none ∧
    unowned (mapped storing) (pieces 8) ≠ [] ∧ unowned { mapped storing with dir := [(0x400000010, [.task 0])] } (pieces 8) = [] ∧
    lentAt { storing with own := none } 0x10000 8 = false ∧ freezesDue storing = false :=
  ⟨rfl, ⟨by decide, _, _, rfl, rfl⟩, ⟨by decide, _, _, _, rfl, rfl, rfl⟩, rfl, by decide, ⟨_, rfl, rfl, rfl⟩, by decide, by decide,
    by decide, by decide, by decide, by decide⟩
theorem witness_Stores_frozen : let s := { walked 0xF840400000010000 storing with collects := [⟨0x400000010000, 65536, [], 1, true⟩] }
    thawing s 0x400000010000 = true ∧ segsFrozen (walked 0xF840400000010000 storing) 0 (pieces 8) = some 0x10000 := by decide
theorem witness_Atomics : atomicOf (.amoadd 1 true) = some (.add, 1, true) ∧ accessReady (mapped storing) (.amoadd 1 true) ∧
    NoHeldStore (mapped storing) ∧ translate (mapped storing) 0 .atomic false 0x10000 8 8 = .ok (pieces 8) ∧
    segsFrozen (mapped storing) 0 (pieces 8) = none ∧
    (let s := mapped { storing with atomics := [pendingAdd] }
     (s.bank 0).atomics = pendingAdd :: [] ∧ pendingAdd.moved = false ∧ pendingAdd.v < 256 ^ 8 ∧ pendingAdd.cmp < 256 ^ 8 ∧ pendingAdd.pa < 2 ^ 60 ∧
     regionOf s pendingAdd.pa ≠ .sysreg ∧ homeBusy s (pendingAdd.pa / 4096) = false ∧ frozenAt s 0 pendingAdd.va = false ∧
     ∀ i < 8, badByte (fetchHome s pendingAdd.pa 8) (pendingAdd.pa + i) (compressedAt (fetchHome s pendingAdd.pa 8) 0 pendingAdd.va) = false) ∧
    frozenAt (walked 0xF840400000010000 storing) 0 0x10000 = true ∧
    homeBusy { mapped storing with moving := [⟨0, 0x10000, 0x400000010000, 0x100000000, false⟩] } (0x400000010000 / 4096) = true :=
  ⟨rfl, ⟨by decide, by decide, _, _, _, rfl, rfl, rfl⟩, rfl, by decide, by decide,
    ⟨rfl, rfl, by decide, by decide, by decide, by decide, by decide, by decide, by decide⟩, by decide, by decide⟩
theorem witness_Streams : NoHeldStore (mapped storing) ∧ (2 : BitVec 4).toNat < (mapped storing).here.decl.st ∧ (mapped storing).here.hasA [1] = true ∧
    ((mapped storing).here.stream 2).active = false ∧ targetFed storing 1 = false ∧
    translate (mapped storing) 0 .read false 0x10000 64 64 = .ok (pieces 64) ∧ segPoison (mapped storing) 0 (pieces 64) = none ∧
    storing.rq.length < 16 := ⟨rfl, by decide, rfl, rfl, by decide, by decide, by decide, by decide⟩
/-- A descriptor of one f32 element at 0x10000, loaded or stored. -/
def oneElement (store : Bool) : BitVec 512 := .ofNat 512 (0x10000 + (14 + 32 * store.toNat) * 2 ^ 64)
theorem witness_Streams_start : descIllegal (oneElement false) 1 = false ∧ descMisaligned (oneElement false) = false ∧
    descIllegal (oneElement true) 1 = true ∧ descMisaligned (oneElement false ||| 1) = true := by decide +kernel
/-- A stream under way. -/
def stream (store : Bool) : Stream := { Stream.reset with desc := oneElement store, active := true, target := if store then 8 else 1 }
/-- The state of a store stream whose subpage the task owns. -/
def streaming : State := { mapped { bank with streams := [(0, stream true)], sq := [(0, [vec 9])] } with dir := [(0x400000010, [.task 0])] }
/-- An element has been written. -/
def Written : ElemWrite → Bool
  | .ok _ => true
  | _ => false
theorem store_writes : Written (writePlace streaming 0 (lentAt (streaming.bank 0)) .f32 ((SDesc.of (oneElement true)).place 0) 9
    (slotMask .f32 MWord.ones 0)) = true := by decide +kernel
theorem witness_StreamElements :
    (let s := mapped { bank with streams := [(0, stream false)] }
     let x := (s.bank 0).stream 0
     x.active = true ∧ x.held = false ∧ x.pos < (SDesc.of x.desc).n ∧ x.target.toNat < 8 ∧ x.part = none ∧ EntryOf (SDesc.of x.desc) x.pos 1 ∧
     readPlace s 0 .f32 ((SDesc.of x.desc).place x.pos) = .ok 0 none ∧ readPlace (on bank) 0 .f32 ((SDesc.of x.desc).place x.pos) = .bad 0x06 0x10000) ∧
    (let s := streaming
     let x := (s.bank 0).stream 0
     8 ≤ x.target.toNat ∧ x.target.toNat < 16 ∧ x.drain = none ∧ (s.bank 0).storeQ ((x.target - 8).setWidth 3) = vec 9 :: [] ∧
     slotMask .f32 MWord.ones 0 ≠ 0 ∧
     Written (writePlace s 0 (lentAt (s.bank 0)) .f32 ((SDesc.of (oneElement true)).place 0) 9 (slotMask .f32 MWord.ones 0)) = true) :=
  ⟨⟨rfl, rfl, by decide +kernel, by decide, rfl, ⟨by decide, by decide +kernel, by decide +kernel, fun j h0 h1 => by omega⟩, by decide +kernel, by decide +kernel⟩,
    by decide, by decide, rfl, rfl, by decide +kernel, store_writes⟩
theorem witness_TranslationsInTheTlb : NoHeldStore (mapped storing) ∧ (mapped storing).here.hasA [1] = true ∧
    translate (mapped storing) 0 .read true 0x10000 1 1 = .ok (pieces 1) ∧ translate (on storing) 0 .read true 0x10000 1 1 ≠ .ok (pieces 1) ∧
    storing.aWait = .idle ∧ storing.atomics = [] ∧ ({ storing with aWait := .invalidating [3] } : Bank).aWait = .invalidating (3 :: []) ∧
    walk (walked 0xF800400000010000 bank) 0 0x10000 = .leaf 0xF800400000010000 0x10000 65536 0x400000108008 ∧
    walk (on bank) 0 0x10000 = .bad 0x06 := ⟨rfl, rfl, by decide, by decide, rfl, rfl, rfl, tables_walk, by decide⟩
/-- A member of group 0 with a range of one page in a1 and a2. -/
def freezing (leaf : Nat) (w : SWait) (f : List PendFreeze) : State := { walked leaf { bank with
    aregs := [(1, 0x10000), (2, 0x10000)], freezes := f, sWait := w, sQueue := [⟨1, 0x1C000000, 0, 1, 0, 0⟩] } with
  tt := [(0, { Row.reset with state := .running, gv := 1 })] }
theorem witness_Freezing : NoHeldStore (freezing 0xF800400000010000 .idle []) ∧ (freezing 0xF800400000010000 .idle []).here.hasA [1, 2] = true ∧
    memberOf (freezing 0xF800400000010000 .idle []) 0 0 = true ∧ rangeLegal 0x10000 0x10000 ∧
    (∀ k < 0x10000 / 65536, pageFreezable (freezing 0xF800400000010000 .idle []) 0 (0x10000 + 65536 * k)) ∧
    ¬ rangeLegal 0xFF0000000000 0x10000 ∧ (freezing 0xF800400000010000 .idle []).here.aWait = .idle ∧
    collecting (freezing 0xF800400000010000 .idle []) 0x400000010000 = false ∧ pteFcnt 0xF840400000010000 = 1 ∧ pteFcnt 0xF800400000010000 = 0 := by
  refine ⟨rfl, rfl, by decide, by unfold rangeLegal; decide, fun k hk => ?_, by unfold rangeLegal; decide, rfl, by decide, by decide, by decide⟩
  have : k = 0 := by omega
  subst this
  exact ⟨0xF800400000010000, 0x10000, 65536, 0x400000108008, .sram, by decide, by decide, by decide, by decide⟩
theorem witness_Freezing_phase : let f : PendFreeze := ⟨0, 0x10000, 0x10000, 0, 0⟩
    let s := freezing 0xF800400000010000 (.freezing 0x10000 []) [f]
    (s.row 0).state = .running ∧ (s.bank 0).fault = none ∧ phaseGroup (s.bank 0) = some 0 ∧ (s.bank 0).sWait = .freezing 0x10000 [] ∧
    pendingOf (s.bank 0) 0 = some f ∧ walk s 0 0x10000 = .leaf 0xF800400000010000 0x10000 65536 0x400000108008 ∧
    extentOwned s (pteAddr 0xF800400000010000) 65536 = false ∧ collecting s (pteAddr 0xF800400000010000) = false := by decide
theorem witness_Freezing_collect : let c : Collect := ⟨0x400000010000, 65536, [3], 2, false⟩
    let s := { on bank with collects := [c] }
    s.collects = [] ++ c :: [] ∧ 3 ∈ c.holders ∧ c.holders.length < c.outstanding := by decide
/-- A task whose s1 and s2 name a counter object at 0x10000 and a target of 5. -/
def waiting (n : Byte) (w : SWait) : State := { mapped { bank with sregs := [(1, 0x10000), (2, 5)], sWait := w } with
  mem := if n = 0 then [] else [(0x400000010000, n)] }
theorem witness_WaitsLaunchAndRealign : (waiting 0 .idle).here.hasS [1, 2] = true ∧ (waiting 0 .idle).here.sWait = .idle ∧
    translate (waiting 0 .idle) 0 .read true 0x10000 8 1 = .ok (pieces 8) ∧ releaseReady (waiting 0 .idle).here = true ∧
    counterAt (waiting 0 .idle) 0 (locKey (.phys 0x400000010000 false) 0) < 5 ∧
    5 ≤ counterAt (waiting 5 .idle) 0 (locKey (.phys 0x400000010000 false) 0) ∧
    ((waiting 5 (.counting 0x400000010000 5)).row 0).state = .running ∧ ((waiting 5 (.counting 0x400000010000 5)).bank 0).fault = none := by decide
/-- Queue 0 enabled for tasks with two slots at 0x4000_0002_0000, and queue 1 for doorbells. -/
def queues (tail : BitVec 32) : State := { waiting 0 .idle with lnq := [(0, { LaunchQueue.reset with devfeed := true, en := true, base := 0x400000020, tail := tail }),
  (1, { LaunchQueue.reset with en := true })] }
theorem witness_WaitsLaunchAndRealign_launch : let s := queues 0
    let r := phaseRelease s s.cur 2
    CanIssue s .S ∧ s.here.hasC [1] = true ∧ releaseReady s.here = true ∧ (r.queue 0).devfeed = true ∧ (r.queue 0).en = true ∧
    ((r.queue 0).tail - (r.queue 0).head).toNat ≠ 2 ^ (r.queue 0).sizelog.toNat ∧
    (((queues 2).queue 0).tail - ((queues 2).queue 0).head).toNat = 2 ^ ((queues 2).queue 0).sizelog.toNat ∧
    translate r r.cur .read true 0x10000 256 256 = .ok (pieces 256) ∧ touchesSysreg r (pieces 256) = false ∧
    (r.queue 1).devfeed = false ∧ 1 ≤ ((1 : BitVec 32) - (r.queue 1).tail).toNat ∧ ((1 : BitVec 32) - (r.queue 1).tail).toNat ≤ 2 ^ (r.queue 1).sizelog.toNat :=
  ⟨⟨by decide, by decide⟩, by decide⟩
theorem witness_WaitsLaunchAndRealign_realign : let s := onRow { bank with sregs := [(1, 3)] } { Row.reset with state := .running, pinned := true }
    (s.row s.cur).pinned = true ∧ (s.here.sreg 1) ≠ 0 ∧ (s.here.sreg 1).toNat < 512 ∧ ((on bank).row 0).pinned = false ∧
    (let r := { on { bank with sWait := .realigning none } with realigns := [⟨3, 0, 0⟩] }
     r.realigns = ⟨3, 0, 0⟩ :: [] ∧ (r.bank 0).sWait = .realigning none) := by decide
/-- A core that issues from row 0, at whose head an ADDI stands. -/
def issuing : State := { on { bank with sQueue := [⟨1, 0x4028BFFF, 0, 1, 0, 0⟩] } with agenda := [.issue 0 .S], core := [(0, ⟨some false, some false, 0⟩)] }
/-- A bank with an MSWAP. -/
def swapping (st : EntryState) : Bank := { bank with mx := [{ newEntry 1 0 swapWords none [] with state := st }] }
theorem witness_StepRunsInstruction : issuing.agenda = .issue 0 .S :: [] ∧ (issuing.bank 0).queue .S = ⟨1, 0x4028BFFF, 0, 1, 0, 0⟩ :: [] ∧
    (issuing.bank 0).stopped .S = false ∧ unitMayIssue issuing 0 .S = true ∧ decodeUnit 1 0x4028BFFF = some (.addi 5 5 0x1FFF) ∧
    decodeUnit 1 0x24000001 = none ∧ unitMayIssue (on bank) 0 .S = false ∧
    ((on (swapping .waiting)).bank 0).mx.find? (fun x => decide (x.id = 1)) = some (newEntry 1 0 swapWords none []) ∧
    entryMayRun (on (swapping .waiting)) 0 .mx (newEntry 1 0 swapWords none []) = true ∧
    (newEntry 1 0 swapWords none []).instr .mx = some (.mswap { hdr with res := true }) ∧ Instr.schedulingPass.wf = true := by decide
theorem witness_RoundTrip : (Instr.addi 5 5 0x1FFF).wf = true ∧ encode (.addi 5 5 0x1FFF) = some (1, 0x4028BFFF) ∧
    (Instr.mswap hdr).wf = true ∧ encodeCmd (.mswap hdr) ≠ none := by decide
theorem witness_StepKeepsMemoryForm : Memory.wf State.reset.mem = true ∧ Memory.wf (walked 0xF800400000010000 bank).mem = true := by decide
/-- A step answers a next state. -/
def Steps (s : State) : Bool :=
  match step s with
  | .next _ => true
  | .fault _ | .refused _ => false
theorem witness_OtherBanksUntouched : issuing.agenda = .issue 0 .S :: [] ∧ Steps issuing = true := by decide +kernel
/-- Row 0 in a state, its bank at a step of HALT. -/
def inState (st : TaskState) (b : Bank) : State := onRow b { Row.reset with state := st }
/-- A launch of two tasks of bank launch number 1. -/
def launch : Launch := ⟨1, 0, 0, false, false, false, 0, 0x10000, 2, 0, 7, 0, 0, [], declared, 7, 0, 3, [], [], [], 0, 0, none, 0, false, false, false, none, 0⟩
theorem noCommands_of (b : Bank) (h : commandsEnded b = true) : noCommands b := by
  intro e
  have := List.all_eq_true.1 h e (by cases e <;> decide)
  simpa using this
theorem witness_Ending : (∀ k, (on bank).here.sWait ≠ .halting k) ∧ (on bank).here.aQueue = [] ∧ (on bank).here.vQueue = [] ∧
    (on { bank with vQueue := [⟨5, 0, 0, 1, 0, 0⟩] }).here.vQueue ≠ [] ∧
    heldStore { bank with sWait := .halting 1 } = none ∧ nothingInFlight bank = true ∧ nothingInFlight { bank with loads := [⟨3, none, 0, none⟩] } = false ∧
    bank.shadows = 0 ∧ openSet { bank with shadows := 2 } = some 2 ∧ bank.mx.length < 16 ∧ (∀ p ∈ bank.streams, p.2.active = false) :=
  ⟨fun k h => SWait.noConfusion (h : SWait.idle = _), rfl, rfl, by decide, by decide, by decide, by decide, by decide, by decide, by decide, by decide⟩
theorem witness_Ending_held : let b : Bank := { bank with sWait := .halting 1, streams := [(0, { Stream.reset with active := true, held := true, target := 8, cause := 7 })] }
    b.sWait = .halting 1 ∧ heldStore b ≠ none := by decide
theorem witness_Ending_retirement : let s := { inState .halting { bank with sWait := .halting 6, launch := 1 } with launches := [launch] }
    (s.bank 0).dying = none ∧ (s.row 0).state = .halting ∧ (s.bank 0).fault = none ∧ (s.bank 0).faults = [] ∧ noCommands (s.bank 0) ∧
    haltDone (s.bank 0) = true ∧ s.launchOf (s.bank 0).launch = some launch ∧ launch.retired + 1 ≠ launch.own :=
  ⟨rfl, rfl, rfl, rfl, noCommands_of _ rfl, rfl, rfl, by decide⟩
theorem witness_Ending_termination : let s := { inState .faulted { bank with dying := some 7, launch := 1 } with launches := [launch] }
    (s.bank 0).dying = some 7 ∧ noCommands (s.bank 0) ∧ (s.bank 0).atomics = [] ∧ s.launchOf (s.bank 0).launch = some launch :=
  ⟨rfl, noCommands_of _ rfl, rfl, rfl⟩
theorem witness_Faults : noTimedCommands bank ∧ (on bank).here.fault = none ∧ (on { bank with fault := some (faultOf 7 0) }).here.fault ≠ none ∧
    65536 < ({ bank with stallS := 65537 } : Bank).stall .S ∧ bank.stall .S ≤ 65536 ∧
    ({ bank with faults := [(.mx, faultOf 7 0)] } : Bank).faults = (.mx, faultOf 7 0) :: [] ∧ (∀ st < 16, (bank.stream st).held = false) :=
  ⟨fun e x h => by cases e <;> simp [bank, Bank.engQ, Bank.reset] at h, by decide, by decide, by decide, by decide, by decide, by decide⟩
theorem witness_Faults_answers :
    Awaits (inState .faulted { bank with fault := some (faultOf 0x07 0) }) 0 (faultOf 0x07 0) ∧ (faultOf 0x07 0).cause ≠ 0x06 ∧ (faultOf 0x07 0).cause ≠ 0x12 ∧
    Awaits (inState .faulted { bank with fault := some (faultOf 0x12 0) }) 0 (faultOf 0x12 0) ∧ (faultOf 0x12 0).cause = 0x12 ∧
    (∃ pte base size w, walk (walked 0xF800400000010000 bank) 0 (faultOf 0x06 0x10000).addr.toNat = .leaf pte base size w) ∧
    (∀ g, bank.sWait ≠ .arrived g) ∧ noCommands bank :=
  ⟨⟨.inr rfl, rfl, rfl⟩, by decide, by decide, ⟨.inr rfl, rfl, rfl⟩, by decide, ⟨_, _, _, _, tables_walk⟩, fun g h => SWait.noConfusion (h : SWait.idle = _), noCommands_of _ rfl⟩
theorem witness_Faults_termination : let x := newEntry 1 0 ((encodeCmd (.mswap hdr)).getD (.mx, [])).2 none []
    (∀ e, ({ bank with mx := [x] } : Bank).engQ e = if e = .mx then [x] else []) ∧ x.state = .waiting ∧ x.started = false ∧ x.pos = 0 ∧ x.sub = 0 ∧
    x.resolve = none ∧ x.done = 0 := ⟨fun e => by cases e <;> rfl, by decide⟩
/-- A task that may dispatch the line at 0x10000, whose first lane is as `tags` says. -/
def dispatching (m : List Host.Cell) (entry : Bool) : State := { mapped { bank with fetch := ⟨0x10000, entry, 0⟩ } with
  mem := m, core := [(0, ⟨some false, some false, 0⟩)] }
theorem witness_LinesLandingsAndOwnership : Dispatches (dispatching [] false) 0 ∧ ¬ Dispatches (on bank) 0 ∧
    translate (dispatching [] false) 0 .fetch true 0x10000 32 32 = .ok (pieces 32) ∧ segPoison (dispatching [] false) 0 (pieces 32) = none ∧
    lineLegal (segBytes (dispatching [] false) 0 (pieces 32)) = true ∧
    lineLegal (segBytes (dispatching [(0x400000010000, 2)] false) 0 (pieces 32)) = false ∧
    ((segBytes (dispatching [(0x400000010000, 1)] true) 0 (pieces 32)).headD 0 &&& 1) = 1 ∧
    ((segBytes (dispatching [] true) 0 (pieces 32)).headD 0 &&& 1) = 0 ∧ bank.halting = false ∧ ({ bank with sWait := .halting 1 } : Bank).halting = true :=
  ⟨⟨rfl, rfl, rfl, rfl, rfl, by decide, by decide⟩, fun h => absurd h.2.2.1 (by decide), by decide, by decide, by decide, by decide, by decide, by decide,
    by decide, by decide⟩
theorem witness_LinesLandingsAndOwnership_request : let r : OwnReq := ⟨[0x400000010], [0x10000], 0, none⟩
    let s := walked 0xF800400000010000 { bank with own := some r }
    (s.bank 0).own = some r ∧ (∀ p ∈ r.subpages, homeBusy s p = false) ∧ (∀ va ∈ r.vas, frozenAt s 0 va = false) ∧
    (∀ p ∈ r.subpages, ∀ o ∈ s.owners p, o.row = 0) ∧
    (∃ o ∈ ({ s with dir := [(0x400000010, [.task 5])] } : State).owners 0x400000010, o.row ≠ 0) ∧
    frozenAt (walked 0xF840400000010000 bank) 0 0x10000 = true ∧
    homeBusy { s with moving := [⟨0, 0x10000, 0x400000010000, 0x100000000, false⟩] } 0x400000010 = true := by decide
theorem witness_Contexts : bindAccepted (on bank) 0 = false ∧ bindAccepted State.reset 0 = true ∧ (State.reset.row 0).resume = false ∧
    (let s : State := { State.reset with launches := [{ launch with image := 0 }] }
     rowLaunch s (s.row 0) = some { launch with image := 0 }) ∧
    ((on bank).row 0).state ≠ .free ∧ ((on bank).row 0).pinned = false ∧
    (let s : State := { State.reset with tt := [(0, { Row.reset with state := .bound }), (1, { Row.reset with state := .running })] }
     (s.row 0).state = .bound ∧ (s.row (siblingOf 0)).state = .running ∧ (s.row (siblingOf 0)).pinned = false ∧ (s.coreAt 0).run = none) ∧
    (inState .saving bank).row 0 = { Row.reset with state := .saving } ∧ saveReady (inState .saving bank) bank = true ∧
    saveReady (inState .saving bank) { bank with loads := [⟨3, none, 0, none⟩] } = false := by decide
theorem witness_Contexts_resume : let s : State := { onRow Bank.reset { Row.reset with resume := true, save := 0x400001 } with
      mem := [(0x400005000, 1)], saves := [(0, some bank)] }
    bindAccepted s 0 = true ∧ (s.row 0).resume = true ∧ (s.row 0).hold = false ∧ s.homeNat (saveAddr s 0 + 0x4000) 8 = 0 + 1 ∧
    s.saves.get none 0 = some bank ∧ bank.copies = [] ∧ bank.fault = none := by decide
/-- The access tables of the engines of core 0 and of SRAM open to all. -/
def allowed (s : State) : State := { s with access := (Target.sram :: allEngs.map (engTarget 0)).map fun t => (t, [(0, 0xF800000000000000)]) }
/-- An entry for a command. -/
def entryFor (i : Instr) : EngEntry := newEntry 1 0 ((encodeCmd i).getD (.mx, [])).2 none []
/-- Row 0 with one MX command. -/
def mxOn (b : Bank) (i : Instr) : State := allowed (mapped { b with mx := [entryFor i] })
theorem witness_WeightsAndPasses : MxStarts (mxOn tiled (.mswap hdr)) (.mswap hdr) (entryFor (.mswap hdr)) ∧
    MxStarts (mxOn tiled (.mmode hdr .rne false false)) (.mmode hdr .rne false false) (entryFor (.mmode hdr .rne false false)) ∧
    MxStarts (mxOn tiled (.mtcfg hdr 1 0xE0F0F)) (.mtcfg hdr 1 0xE0F0F) (entryFor (.mtcfg hdr 1 0xE0F0F)) ∧
    MxStarts (mxOn tiled (.mzt hdr 1)) (.mzt hdr 1) (entryFor (.mzt hdr 1)) ∧
    NoTile (mxOn bank (.mzt hdr 1)) 1 ∧ (∃ r, TileOf (mxOn tiled (.mzt hdr 1)) 1 r tileCfg ∧ shadowConflict r.here 0 1 = false) :=
  ⟨⟨rfl, rfl, by decide⟩, ⟨rfl, rfl, by decide⟩, ⟨rfl, rfl, by decide⟩, ⟨rfl, rfl, by decide⟩,
    by unfold NoTile; decide, ⟨_, ⟨by decide, rfl⟩, by decide⟩⟩
/-- A bank with a loaded plane of one element, a tile of one element and load streams at the two ports of the array. -/
def passing : Bank := { bank with
  tiles := [(1, .configured ⟨0, .f32, 1, 1⟩)], active := ⟨1, 1, .bf16, 16, [[⟨0x3F80, 0, none, false⟩]]⟩, mxa := some 0, mxw := some 1
  streams := [(0, { Stream.reset with desc := .ofNat 512 (0x10000 + 12 * 2 ^ 64), active := true, target := 16 }),
    (1, { Stream.reset with desc := .ofNat 512 (0x10000 + 12 * 2 ^ 64), active := true, target := 17 })] }
/-- The pass of one row. -/
def onePass : Instr := .mms hdr ⟨1, 0, 0, 0, 0⟩
/-- All rows of a pass were drawn whole. -/
def drawsWhole (s : State) (port : BitVec 5) (n : Nat) (x : EngEntry) : Bool :=
  match (drawFor s port n x).2.2.2 with
  | .complete => true
  | .waits | .stopped .. => false
/-- A pass of one row goes through. -/
def passes (s : State) : Bool :=
  let i := onePass
  let x := (entryFor i).fixes 0 16 .bf16 false
  drawsWhole s mxaPort 1 x && (passRow (drawFor s mxaPort 1 x).1.here ⟨⟨0, .f32, 1, 1⟩, 0, 0, 0, 0, .bf16, false, false, Mode.of 0, false⟩ 0
    (drawFor s mxaPort 1 x).2.1.reverse).1.isSome
theorem witness_WeightsAndPasses_pass : let i := onePass
    let s := mxOn passing i
    let d := SDesc.of (s.here.stream 0).desc
    MxServes s i (entryFor i) ∧ s.here.mx = [entryFor i] ∧ (entryFor i).instr .mx = some i ∧ s.here.active.nc ≠ 0 ∧
    pipeTaken (s.bank (s.cur ^^^ 1)) s.cycle = false ∧ tileWritesBefore s s.here (entryFor i) = false ∧ NoTile (mxOn bank i) 1 ∧
    (s.here.mxa = some 0 ∧ 0 + 1 ≤ 1 ∧ 0 + s.here.active.nc ≤ 1 ∧ s.here.active.nc ≤ planeCols (bigArray s.cur) d.ty.width ∧
      s.here.active.width = d.ty.width ∧ integerChunk d.ty s.here.active.ty (decide (d.sfmt ≠ 0) || s.here.active.scaled) = false) ∧
    passes s = true :=
  ⟨rfl, rfl, by decide, by decide, by decide, by decide, by unfold NoTile; decide, by decide +kernel, by decide +kernel⟩
theorem witness_WeightsAndPasses_weights : let i := Instr.mlw hdr 1 0 false
    let s := mxOn passing i
    MxStarts s i (entryFor i) ∧ s.here.mxw = some 1 ∧ 1 ≤ planeCols (bigArray s.cur) 16 ∧ passWidth 16 = true ∧ (entryFor i).drawn = [] ∧
    drawsWhole s mxwPort (planeDepth (bigArray s.cur) 16) ((entryFor i).fixes 0 16 .bf16 false) = true :=
  ⟨⟨rfl, rfl, by decide⟩, rfl, by decide, by decide, by decide, by decide +kernel⟩
/-- A command's write has been made, or its read. -/
def Wrote : EngWrite → Bool
  | .ok _ => true
  | .wait | .bad .. => false
def Read : EngRead → Bool
  | .ok _ _ err => !err
  | .bad .. => false
theorem witness_TileMemory : let i := Instr.mstore hdr 1 (some .bf16) 0x10000 64
    let s := mxOn tiled i
    MxStarts s i (entryFor i) ∧ NoTile (mxOn bank i) 1 ∧ mstoreAllowed .f32 .bf16 = true ∧ mstoreAllowed .f32 .s8 = false ∧
    Wrote (engWrite s 0 .mx 1 (tileRowAddr 0x10000 64 0) 1 (mstoreRow s.here Mode.rne tileCfg .bf16 0)) = true ∧
    engWrite (on bank) 0 .mx 1 0x10000 1 [0] = .bad 0x06 0x10000 ∧
    Wrote (engWrite { s with moving := [⟨0, 0x10000, 0x400000010000, 0x100000000, false⟩] } 0 .mx 1 0x10000 1 [0]) = false ∧
    MxStarts (mxOn tiled (.mloadt hdr 1 0x10000 64)) (.mloadt hdr 1 0x10000 64) (entryFor (.mloadt hdr 1 0x10000 64)) ∧
    Read (engRead s 0 (entryFor i) 0x10000 64 1) = true :=
  ⟨⟨rfl, rfl, by decide⟩, by unfold NoTile; decide, by decide, by decide, by decide +kernel, by decide +kernel, by decide +kernel,
    ⟨rfl, rfl, by decide⟩, by decide +kernel⟩
theorem witness_TileMemory_write : let s := mxOn tiled (.mswap hdr)
    translate s 0 .write true 0x10000 8 1 = .ok (pieces 8) ∧ (∀ g ∈ pieces 8, frozenAt s 0 g.va = false) ∧ touchesSysreg s (pieces 8) = false ∧
    (∀ p ∈ subpagesOf s (pieces 8), homeBusy s p = false) ∧ (∀ p ∈ subpagesOf s (pieces 8), ownedByOther s 0 p = false) ∧
    (∃ p ∈ subpagesOf s (pieces 8), ownedByOther { s with dir := [(0x400000010, [.task 5])] } 0 p = true) ∧ inSysreg s (pieces 8) = none ∧
    [(1 : Byte), 2].length = ((pieces 2).map Seg.len).sum := by decide
theorem witness_TileMemory_resolve : let x := newEntry 1 0 [] (some (1, true)) []
    let s := mapped { bank with mx := [x] }
    MxServes s (.resolveEntry 1 true) x ∧ x.state = .waiting := ⟨rfl, rfl⟩
/-- Row 0 with one CP command. -/
def cpOn (i : Instr) : State := allowed (mapped { bank with cp := [entryFor i] })
/-- A copy of 64 bytes within the mapped page. -/
def copyArgs : CpArgs := ⟨false, false, 0x10000, 0x10040, 0, 63, 0, 0, 0, 0⟩
/-- A read, or a stretch, has ended well. -/
def Moved : CpMove → Bool
  | .ok .. => true
  | .wait | .bad .. => false
theorem witness_Copies : let i := Instr.cpy hdr copyArgs
    let s := cpOn i
    CpForm i copyArgs .copy ∧ StartsAllowed s .cp i (entryFor i) ∧ CpLegal s (entryFor i) copyArgs .copy ∧ (entryFor i).startAt = 0 ∧
    (entryFor i).opc ≠ 4 ∧ (entryFor i).btag = 0 ∧ 1 < cpFuel copyArgs .copy ∧ (entryFor i).pos < cpRows copyArgs ∧
    Moved (cpMove s (entryFor i) copyArgs .copy) = true ∧ mayExecute (mapped bank) 0 .cp = false ∧
    cpMisaligned { copyArgs with opx := 0 } .copy = false ∧ cpOverlaps { copyArgs with dst := 0x10020 } .copy = true :=
  ⟨.inl ⟨hdr, rfl, rfl⟩, ⟨⟨rfl, rfl, by decide, rfl, by decide, by decide⟩, by decide⟩, ⟨fun h => absurd (by decide) h, by decide, by decide⟩,
    by decide, by decide, by decide, by decide, by decide, by decide +kernel, by decide, by decide, by decide⟩
/-- A tagged copy, and a copy with a follow-on at 0x10080. -/
def tagged : Instr := .cpy { hdr with btag := 1 } copyArgs
def followed : Instr := .cpyf hdr { copyArgs with opx := 0x10080 }
theorem witness_Copies_tagged : (entryFor tagged).btag ≠ 0 ∧ CpForm tagged copyArgs .copy ∧ StartsAllowed (cpOn tagged) .cp tagged (entryFor tagged) ∧
    (let x := { entryFor tagged with state := .staged, started := true, kept := List.replicate 64 0 }
     let s := allowed (mapped { bank with cp := [x] })
     (s.bank 0).cp.head? = some x ∧ (x.cmd .cp).bind cpShape = some (copyArgs, .copy) ∧ squashArrives s 0 x = false ∧ x.drawn = [] ∧
     Squashed s 0 0 1 0 x ∧ x.done = 0) :=
  ⟨by decide, .inl ⟨_, rfl, rfl⟩, ⟨⟨rfl, rfl, by decide, rfl, by decide, by decide⟩, by decide⟩, rfl, by decide, by decide, rfl,
    ⟨by decide, by decide, by decide, by decide⟩, by decide⟩
theorem witness_Copies_followed : (entryFor followed).opc = 4 ∧ (entryFor followed).follow = [] ∧
    CpForm followed { copyArgs with opx := 0x10080 } .copy ∧ Read (engRead (cpOn followed) 0 (entryFor followed) 0x10080 64 1) = true ∧
    (let x := { entryFor followed with state := .following, started := true }
     (({ cpOn followed with banks := [(0, { bank with cp := [x] })] } : State).bank 0).cp.head? = some x ∧ x.done = 0 ∧ bank.mx.length < 16) :=
  ⟨by decide, by decide, .inr (.inr (.inl ⟨_, rfl, rfl⟩)), by decide +kernel, by decide, by decide, by decide⟩
/-- Row 8, of an attention core, with the page mapped and every right, its bank `b`. -/
def attention (b : Bank) (m : List Host.Cell) : State := { State.reset with
  agenda := [], cur := 8, banks := [(8, b)], tt := [(8, { Row.reset with state := .running })], mem := m
  tlb := [(4, [⟨0, 0x10000, 65536, 0xF800400000010000⟩])], xgcfg := [(1, true)]
  access := (Target.sram :: allEngs.map (engTarget 4)).map fun t => (t, [(0, 0xF800000000000000)]) }
/-- A KVMASK of one node, whose parent byte is 0xFF. -/
def oneMask : Instr := .kvmask hdr 0x10000 0 0x10040
def maskState : State := attention { bank with kv := [entryFor oneMask] } [(0x400000010000, 0xFF)]
/-- A part of a KV command has gone through. -/
def Went {α : Type} : KvRes α → Bool
  | .ok .. => true
  | .wait .. | .stop .. => false
/-- A KVSQ of no node, whose record at 0x10000 has the mark of one. -/
def squashNone : Instr := .kvsq hdr 0 false 0x10000 0
def recordState : State := attention { bank with kv := [entryFor squashNone] }
  [(0x400000010000, 0x4B), (0x400000010001, 0x56), (0x400000010002, 0x53), (0x400000010003, 0x51)]
/-- The record that a command reads first. -/
def firstRecord (s : State) (x : EngEntry) (i : Instr) : Option (List Byte) :=
  match kvOnce s x (kvFirstAt x none i) 0x10000 128 with
  | .ok _ _ r => some r
  | .wait .. | .stop .. => none
theorem witness_KeyValueCommands : isKv oneMask = true ∧ KvFresh maskState oneMask (entryFor oneMask) ∧ mayExecute maskState 8 .kv = true ∧
    Went (kvFirst maskState (entryFor oneMask) oneMask) = true ∧ mayExecute (mapped bank) 0 .kv = false ∧
    Went (kvRead maskState (entryFor oneMask) ⟨0, 0, 0⟩ 0x10000 8) = true ∧ maskOf [0xFF] = some [(1, 1)] ∧ maskRows [] [] = some [] ∧
    (maskObject [(1, 1)]).length = 592 ∧ (1 : Nat) < 2 ^ 64 :=
  ⟨rfl, ⟨⟨rfl, rfl, by decide, rfl, by decide, by decide⟩, rfl, rfl⟩, by decide, by decide +kernel, by decide, by decide +kernel,
    by decide +kernel, by decide, by decide +kernel, by decide⟩
theorem witness_KeyValueCommands_record : KvFresh recordState squashNone (entryFor squashNone) ∧ kvNames squashNone = some (0, 0x10000) ∧
    (entryFor squashNone).pos = 0 ∧ (firstRecord recordState (entryFor squashNone) squashNone).map (fun r => field r 0 4) = some 0x5153564B ∧
    (firstRecord { recordState with mem := [] } (entryFor squashNone) squashNone).map (fun r => field r 0 4) = some 0 :=
  ⟨⟨⟨rfl, rfl, by decide, rfl, by decide, by decide⟩, rfl, rfl⟩, rfl, by decide, by decide +kernel, by decide +kernel⟩
/-- Row 8 with XG commands. -/
def xgOn (xs : List EngEntry) : State := attention { bank with xg := xs } []
theorem witness_Exchange_permits : let s := { on bank with permits := [(0, [(0, 3)])] }
    (0, 3) ∈ s.permitQ 0 0 0 ∧ (0, 4) ∉ s.permitQ 0 0 0 := by decide
/-- The commands of an exchange with die 1 on channel 2. -/
def grantTwo : Instr := .xgrant hdr 1 2 3
def sendOne : Instr := .xsend hdr 0x10000 1 2 63
def receive : Instr := .xrecv hdr 0x10000 1 2 false
theorem witness_Exchange : XgAllowed (xgOn [entryFor grantTwo]) 2 grantTwo (entryFor grantTwo) ∧
    (let x := { entryFor grantTwo with state := .putting, started := true }
     XgGoesOn (xgOn [x]) 2 grantTwo x ∧ messagesFlying (xgOn [x]) 1 1 2 = false ∧
     messagesFlying { xgOn [x] with agenda := [.event (.permit 1 1 2 0 0)] } 1 1 2 = true) ∧
    ([0, 1] : List Nat).Nodup ∧ (∀ i ∈ [0, 1], ((xgOn []).slot 1 i).state = .free) ∧
    XgAllowed (xgOn [entryFor sendOne]) 1 sendOne (entryFor sendOne) ∧ Read (engRead (xgOn []) 8 (entryFor sendOne) 0x10000 64 1) = true ∧
    ({ xgOn [] with permits := [(1 * 256 + 1 * 16 + 2, [(0, 3)])] } : State).permitQ 1 1 2 = (0, 3) :: [] ∧
    badLines (xgOn []) 8 0x10000 64 = [] ∧ XgAllowed (xgOn [entryFor receive]) 3 receive (entryFor receive) ∧ oldestSlot (xgOn []) 1 1 2 0 = none :=
  ⟨⟨⟨rfl, rfl, by decide, rfl, by decide, by decide⟩, by decide, by decide⟩, ⟨⟨rfl, rfl, by decide, .inr (.inl rfl)⟩, by decide, by decide⟩, by decide,
    by decide, ⟨⟨rfl, rfl, by decide, rfl, by decide, by decide⟩, by decide, by decide⟩, by decide +kernel, by decide, by decide +kernel,
    ⟨⟨rfl, rfl, by decide, rfl, by decide, by decide⟩, by decide, by decide⟩, by decide⟩
theorem witness_Exchange_waits : let x := { entryFor sendOne with state := .permitWait 0, started := true }
    XgGoesOn (xgOn [x]) 1 sendOne x ∧ streamHead ((xgOn [x]).bank 8) 1 = some x ∧ 0 + 16777216 ≤ ({ xgOn [x] with cycle := 16777216 } : State).cycle ∧
    XgStarts (on { bank with xg := [entryFor sendOne] }) 1 sendOne (entryFor sendOne) ∧ mayExecute (on bank) 0 .xg = false ∧
    (xgOn [x]).cycle < 0 + 16777216 :=
  ⟨⟨rfl, rfl, by decide, .inr (.inr ⟨0, rfl⟩)⟩, by decide, by decide, ⟨rfl, rfl, by decide, rfl, by decide, by decide⟩, by decide, by decide⟩
/-- A slot that holds four bytes, revoked or not. -/
def full (revoking : Bool) : XSlot := ⟨.filled, 1, 2, 0, revoking, 0, [1, 2, 3, 4], []⟩
theorem witness_Exchange_slots : let s := { xgOn [entryFor receive] with slots := [(1 * 16 + 3, full false)] }
    oldestSlot s 1 1 2 0 = some 3 ∧ (s.slot 1 3).state = .filled ∧ (s.slot 1 3).revoking = false ∧ (full true).revoking = true ∧
    (∀ i ∈ [3], (s.slot 1 i).belongs 1 2 0 = true) ∧ translate s 8 .write true 0x10000 4 1 = .ok (pieces 4) ∧ (s.slot 1 3).bad = [] ∧
    Wrote (engClaim s 8 .xg 1 0x10000 4 1) = true := by decide +kernel
theorem witness_Exchange_arrival : let x := { entryFor sendOne with state := .flying 5 90 85 1, started := true, pos := 3 }
    ((xgOn [x]).bank 8).xg.find? (fun y => decide (y.id = 1)) = some x ∧ x.state = .flying 5 90 85 1 ∧ (5 + 85) % 2 ^ 64 = (90 : W64).toNat := by decide
/-- Row 0 with one SP command, a key of the task and the mapped page. -/
def spOn (i : Instr) : State := { allowed (mapped { bank with sp := [entryFor i] }) with spKeys := [(3, ⟨99, 0, true⟩)] }
def seedKey : Instr := .spseed hdr 3 99
def softRows : Instr := .spsoft hdr ⟨0x10000, 0x10040, 1, 0, false, 0x3F800000⟩
def drawToken : Instr := .spdraw hdr 0x10000 1 3 0
theorem witness_Sampler : StartsAllowed (spOn seedKey) .sp seedKey (entryFor seedKey) ∧ ((spOn seedKey).spKey 3).valid = true ∧
    ((spOn seedKey).spKey 3).asid = ((spOn seedKey).row 0).asid ∧ ((spOn seedKey).spKey 4).valid = false ∧
    (({ spOn seedKey with spKeys := [(3, ⟨99, 7, true⟩)] } : State).spKey 3).asid ≠ 0 ∧
    StartsAllowed (spOn drawToken) .sp drawToken (entryFor drawToken) ∧ Read (engRead (spOn drawToken) 0 (entryFor drawToken) 0x10000 8 1) = true ∧
    Starts (on { bank with sp := [entryFor seedKey] }) .sp seedKey (entryFor seedKey) ∧ mayExecute (on bank) 0 .sp = false :=
  ⟨⟨⟨rfl, rfl, by decide, rfl, by decide, by decide⟩, by decide⟩, by decide, by decide, by decide, by decide,
    ⟨⟨rfl, rfl, by decide, rfl, by decide, by decide⟩, by decide⟩, by decide +kernel, ⟨rfl, rfl, by decide, rfl, by decide, by decide⟩, by decide⟩
theorem witness_Sampler_rows : StartsAllowed (spOn softRows) .sp softRows (entryFor softRows) ∧
    Wrote (engClaim (spOn softRows) 0 .sp 1 0x10040 8 1) = true ∧ (∃ v ∈ [0x7FC00000].map (decodeElem .f32), v.isNan = true) ∧
    probOk 0x3F800000 = true ∧ probOk 0xBF800000 = false ∧ (decodeElem .f32 0x3F800000).isZero = false ∧ rootedTree [0xFF, 0] = true ∧ rootedTree [0] = false :=
  ⟨⟨⟨rfl, rfl, by decide, rfl, by decide, by decide⟩, by decide⟩, by decide +kernel, by decide, by decide, by decide, by decide, by decide, by decide⟩
/-- A tree of one node drawn with key 3, and what its record goes to. -/
def acceptOne : Instr := .spacc hdr ⟨0x10000, 0x10200, 0x10240, 0x10280, 0, 3, 0, 0⟩
theorem witness_Sampler_tree : StartsAllowed (spOn acceptOne) .sp acceptOne (entryFor acceptOne) ∧ Wrote (engClaim (spOn acceptOne) 0 .sp 1 0x10280 64 1) = true ∧
    Read (engRead (spOn acceptOne) 0 (entryFor acceptOne) 0x10000 320 1) = true ∧ Read (engRead (spOn acceptOne) 0 (entryFor acceptOne) 0x10200 4 1) = true ∧
    Read (engRead (spOn acceptOne) 0 (entryFor acceptOne) 0x10244 0 1) = true :=
  ⟨⟨⟨rfl, rfl, by decide, rfl, by decide, by decide⟩, by decide⟩, by decide +kernel, by decide +kernel, by decide +kernel, by decide +kernel⟩
/-- Row 0 with one WN command; window 5 is registered. -/
def wnOn (i : Instr) : State := { allowed (mapped { bank with wn := [entryFor i] }) with win := [(5, ⟨0, 0x10000, 128, 7, 0⟩)] }
def registerWindow : Instr := .wreg hdr 3 0x10000 64
def putTwo : Instr := .wput hdr 0x10000 5 0 1
def countThree : Instr := .wcnt hdr true 5 false 3
theorem witness_WindowsAndTimedStarts : StartsAllowed (wnOn registerWindow) .wn registerWindow (entryFor registerWindow) ∧
    (64 : BitVec 32) ≠ 0 ∧ ((wnOn registerWindow).window 3).len = 0 ∧ ((wnOn registerWindow).window 5).len ≠ 0 ∧
    windowFault (wnOn registerWindow) 0x10000 64 = none ∧ windowFault (on bank) 0x10000 64 = some (0x06, 0x10000) ∧
    StartsAllowed (wnOn countThree) .wn countThree (entryFor countThree) ∧ (3 : W64).toNat ≤ ((wnOn countThree).window 5).rcv.toNat ∧
    Starts (on { bank with wn := [entryFor putTwo] }) .wn putTwo (entryFor putTwo) ∧ mayExecute (on bank) 0 .wn = false :=
  ⟨⟨⟨rfl, rfl, by decide, rfl, by decide, by decide⟩, by decide⟩, by decide, by decide, by decide, by decide, by decide,
    ⟨⟨rfl, rfl, by decide, rfl, by decide, by decide⟩, by decide⟩, by decide, ⟨rfl, rfl, by decide, rfl, by decide, by decide⟩, by decide⟩
theorem witness_WindowsAndTimedStarts_put : StartsAllowed (wnOn putTwo) .wn putTwo (entryFor putTwo) ∧ pairReady (wnOn putTwo) = false ∧
    pairReady { wnOn putTwo with dual := true, devstat := { (wnOn putTwo).devstat with pairup := true, pairdown := false } } = true ∧
    Read (engRead (wnOn putTwo) 0 (entryFor putTwo) 0x10000 2 1) = true ∧
    (let x := { entryFor putTwo with state := .putting, started := true }
     let s := on { bank with wn := [x] }
     (s.here.wn).head? = some x ∧ x.instr .wn = some putTwo ∧ s.here.engBlocked .wn x.opc = false ∧
     ((s.bank 0).wn).find? (fun y => decide (y.id = 1)) = some x) ∧
    (let s := { walked 0xF800400000010000 bank with win := [(5, ⟨0, 0x10000, 128, 7, 0⟩)] }
     (s.window 5).len ≠ 0 ∧ 0 + 2 ≤ (s.window 5).len.toNat ∧
     putSegs s 0 (pagesOf (2 / 65536 + 2) 0x10000 2) = .ok [(0x400000010000, 2)] ∧ putSegs (on bank) 0 (pagesOf 2 0x10000 2) = .refused 0x07) :=
  ⟨⟨⟨rfl, rfl, by decide, rfl, by decide, by decide⟩, by decide⟩, by decide, by decide, by decide +kernel, by decide, by decide⟩
/-- A timed MSWAP for cycle 9. -/
def timedSwap : Instr := .mswap { hdr with start := 9 }
theorem witness_WindowsAndTimedStarts_timed : let s := mxOn { bank with tcc := 9 } timedSwap
    let x := entryFor timedSwap
    dueEntries (s.bank 0) .mx = [x] ∧ (s.bank 0).tcc.toNat = x.startAt ∧ (headOf (s.bank 0) .mx x).map EngEntry.id = some x.id ∧
    (s.bank 0).fifoWaits .mx x = false ∧ mxReady s 0 x = true ∧ operandsReady s 0 .mx x = true ∧ dueEntries bank .mx = [] ∧
    (mxOn { bank with tcc := 10 } timedSwap).here.tcc.toNat ≠ x.startAt := by decide
/-- Queue 0 with a record at its head whose first dependence is the counter at 0x10000 with target `n`. -/
def headOn (obj n : Nat) : State := { walked 0xF800400000010000 bank with
  lnq := [(0, { LaunchQueue.reset with en := true, base := 0x400000020, tail := 1 })]
  mem := ((tables 0xF800400000010000) ++ ((List.range 8).map fun i => (0x400000020030 + i, byteOf obj i)) ++
    ((List.range 8).map fun i => (0x400000020038 + i, byteOf n i))).filter fun c => c.2 ≠ 0 }
theorem witness_Scheduling : (∀ k < 16, hasHead (on bank) k = false) ∧ (on bank).launches = [] ∧ (∀ row < 72, ((on bank).row row).state ≠ .bound) ∧
    (∀ j < 16, hasHead (headOn 0 0) j = decide (j = 0)) ∧ ((headOn 0 0).queue 0).eligible = none ∧
    field (headRecord (headOn 0 0) 0) 0x30 8 = 0 ∧ field (headRecord (headOn 0x10000 5) 0) 0x30 8 ≠ 0 ∧
    field (headRecord (headOn 0x10000 5) 0) 0x38 8 = 5 ∧ ((headOn 0 0).setQueue 0 { LaunchQueue.reset with eligible := some 0 }).queue 0 =
      { LaunchQueue.reset with eligible := some 0 } := by decide +kernel
theorem witness_Scheduling_ready : let s : State := { on bank with devstat := { State.reset.devstat with ready := true } }
    s.devstat.ready = true ∧ (∀ k < 16, hasHead s k = false) ∧ s.launches = [] ∧ s.images = [] ∧ s.preempted = [] ∧
    (∀ row < 72, (s.row row).state ≠ .bound) ∧ (on bank).devstat.ready = false ∧ (on bank).devstat.pwr ≠ 3 ∧
    ({ s with devstat := { s.devstat with pwr := 3 } } : State).devstat.pwr = 3 := by decide +kernel
theorem witness_Scheduling_missing : let w : Bank := { bank with sWait := .arrived false, sQueue := [⟨1, 0x1C000000, 0, 1, 0, 0⟩] }
    let s : State := { onRow w Row.reset with
      tt := [(0, { Row.reset with state := .running, gv := 1 }), (2, { Row.reset with state := .saving, gv := 1 })], gt := [(0, { Group.reset with valid := true, expect := 2, arrived := 1 })], dt := 1000000 }
    gangMissing s 0 = true ∧ waitersOf s 0 = [0] ∧ (s.bank 0).fault = none ∧ s.preempted = [] ∧ (s.row 0).state = .running ∧ gangMissing (on bank) 0 = false ∧
    mayPreempt { s with tt := [(0, { Row.reset with state := .running, prio := 1 })] } 3 0 = true := by decide +kernel
theorem witness_Scheduling_split : let l := { launch with split := true }
    let awaits := fun l : Launch => l.split && !l.remote && !l.peer
    ({ on bank with launches := [l] } : State).launches.find? awaits = some l ∧ pendingTasks { on bank with launches := [l] } l = [] ∧
    pendingTasks { on bank with launches := [l] } { l with queued := [0] } ≠ [] := by decide +kernel
theorem witness_MemoryManagement : let s := walked 0xF800400000010000 bank
    let frm := pteAddr 0xF800400000010000
    walk s 0 0x10000 = .leaf 0xF800400000010000 0x10000 65536 0x400000108008 ∧ walk (on bank) 0 0x10000 = .bad 0x06 ∧ frameFor s frm false = true ∧
    frameFor s 0x100000000 false = false ∧ frameFor s 0x400000200000 false = true ∧ frm ≠ 0x400000200000 ∧
    frameLeaves s frm = [⟨0, 0x10000, 0x400000108008⟩] ∧ (∀ l ∈ frameLeaves s frm, pinnedPage s l.asid l.va = false) ∧
    extentOwned s frm 65536 = false ∧ collecting s frm = false ∧ Memory.wf s.mem = true ∧ extentOwned { s with dir := [(0x400000010, [.task 0])] } frm 65536 = true ∧
    0x400000108008 + 8 ≤ 0x400000200000 := by decide +kernel
/-- A present entry of a key-value table at 0x4000_0001_0000. -/
def presentEntry : State := { on bank with mem := [(0x400000010007, 0x80)] }
theorem witness_MemoryManagement_frame : bitsOf (presentEntry.homeNat 0x400000010000 8) 63 63 = 1 ∧ bitsOf (presentEntry.homeNat 0x400000010000 8) 62 62 = 0 ∧
    frameNamed presentEntry 0 0x400000010000 = false ∧ ¬ bitsOf ((on bank).homeNat 0x400000010000 8) 63 63 = 1 ∧
    (([(3, [(0, 1)])] : Store (List (Asid × BitVec 4))).map Prod.fst).Nodup := by decide +kernel
theorem witness_Registers : ((on bank).queue 0).en = false ∧ ((queues 0).queue 0).en = true ∧ slotsOk (on bank) LaunchQueue.reset = false ∧
    (on bank).kimgpol.getLsbD 16 = false ∧ ({ on bank with kimgpol := 0x10000 } : State).kimgpol.getLsbD 16 = true ∧
    scratchInUse (on bank) 5 = false ∧ bitsOf 3 2 0 ≠ 7 ∧ bitsOf 7 2 0 = 7 ∧ slotsUsed (on bank) 5 = 0 ∧ (on bank).dmcfg.get 0 5 ≠ 6 ∧
    regionOf (on bank) 0x7F0000000100 = .sysreg ∧ 0x7F0000000100 % 8 = 0 ∧ hasRight (on bank) (.sysreg 0) .wr 127 0 = true ∧
    hasRight (on bank) (.sysreg 0) .wr 126 0 = false ∧ regionOf (on bank) 0 ≠ .sysreg := by decide
/-- The package with apertures 1 and 2, the first to SRAM, the second to the other package. -/
def apertures : State := { on bank with
  aper := [(1, some ⟨false, 0x400000000000⟩), (2, some ⟨true, 0⟩)], access := [(.sram, [(0, 0xFFE0000000000000)]), (.sysreg 0, [(0, 0xFFE0000000000000)])] }
theorem witness_Registers_bar : barPlace apertures 0x10000 = .here 0x400000010000 ∧ apertures.aper.get none 1 = some ⟨false, 0x400000000000⟩ ∧
    apertures.aper.get none 3 = none ∧ barPlace apertures (2 * 2 ^ 30) = .closed ∧ barPlace { apertures with dual := true } (2 * 2 ^ 30) = .other ∧
    barOk apertures 0x10000 0x400000010000 8 .rd = true ∧ barOk apertures 0x10000 0x400000010000 8 .wr = true ∧ frozenPhys apertures 0x400000010000 8 = false ∧
    barOk (on bank) 0x10000 0x400000010000 8 .rd = false ∧ barOk apertures 0 0x7F0000000100 8 .rd = true ∧ regionOf apertures 0x7F0000000100 = .sysreg := by decide +kernel
/-- The device ready, with nothing to run. -/
def ready : State := { State.reset with agenda := [], devstat := { State.reset.devstat with pwr := 1, ready := true, mboxbusy := true } }
theorem witness_HostCommands : ((1 : W64) &&& ~~~0x800000000000013F#64) = 0 ∧ bitsOf (1 : W64).toNat 5 0 ≠ 0 ∧ (2 ^ 30 : W64).toNat % 2 ^ 30 = 0 ∧
    (0x100 : W64).getLsbD 8 = true ∧ ready.dual = false ∧ ready.devstat.pwr = 1 ∧ State.reset.devstat.pwr ≠ 1 ∧ ready.launches = [] ∧
    (∀ row < 72, (ready.row row).state = .free) ∧ queueInSram ready = false ∧
    ({ ready with devstat := { ready.devstat with pwr := 3 } } : State).devstat.pwr = 3 ∧ ready.kimgpol.getLsbD 16 = false := by decide +kernel
theorem witness_HostCommands_memory : let s := { ready with mem := [(0x400000010000 + 1794, 1)] }
    inMemory s 0x400000010000 1796 = true ∧ s.homeNat (0x400000010000 + 1794) 2 = 1 ∧ inMemory s 0x400000010000 1797 = true ∧
    inMemory s 0x400000020000 2048 = true ∧ inMemory s 0 32 = false ∧ (List.replicate 32 (0 : Byte)).length = 32 := by decide +kernel
theorem witness_HostCommands_seal : let s := { walked 0xF800400000010000 bank with hrgn := [(0, some ⟨0, true, true, 0, 65536⟩)] }
    hostRange s 0 true 0 (80 + 4096) = true ∧ hostRange s 0 false 0 (80 + 4096) = true ∧ hostRange s 1 true 0 4176 = false ∧
    reachable s 0 60 0x10000 4096 = true := by decide +kernel
theorem witness_TimeAndPair : State.reset.dual = false ∧ ({ State.reset with dual := true } : State).dual = true ∧
    (State.reset.dtDie.get 0 3).toNat ≤ State.reset.dt.toNat ∧ State.reset.dt.toNat < (({ State.reset with dtDie := [(3, 8)] } : State).dtDie.get 0 3).toNat := by decide
/-! ### Single steps; each expected value is worked out from the rule named -/

/-- The state after an instruction, or the state before where it does not go on. -/
def after (i : Instr) (s : State) : State :=
  match exec i s with
  | .next t => t
  | .fault _ | .refused _ => s
/-- A bank with scalar registers s1 and s2. -/
def two (x y : W64) : State := on { bank with sregs := [(1, x), (2, y)] }
/-- R123: sums are taken modulo 2^64. -/
theorem test_add_wraps : (after (.add 3 1 2) (two 0xFFFFFFFFFFFFFFFF 3)).here.sreg 3 = 2 := by decide +kernel
/-- R96: s0 discards what is written to it. -/
theorem test_s0_discards : (after (.add 0 1 2) (two 1 3)).here.sreg 0 = 0 := by decide +kernel
/-- R123: SAR copies the sign. -/
theorem test_sar_sign : (after (.sar 3 1 2) (two 0x8000000000000000 4)).here.sreg 3 = 0xF800000000000000 := by decide +kernel
/-- R124: a quotient by zero has every bit set. -/
theorem test_div_zero : (after (.div 3 1 2) (two 7 0)).here.flightS = [⟨19, [.sreg 3 0xFFFFFFFFFFFFFFFF]⟩] := by decide +kernel
/-- R124: the remainder takes the dividend's sign: -7 mod 2 is -1. -/
theorem test_rem_sign : (after (.rem 3 1 2) (two (-7) 2)).here.flightS = [⟨19, [.sreg 3 (-1)]⟩] := by decide +kernel
/-- R127: ADDI extends the sign of its immediate. -/
theorem test_addi_sign : (after (.addi 3 1 0x1FFF) (two 5 0)).here.sreg 3 = 4 := by decide +kernel
/-- R128: LT compares as signed numbers, LTZ as unsigned ones. -/
theorem test_cmp_signed : (after (.cmp .lt 3 1 2) (two (-1) 1)).here.creg 3 = true ∧
    (after (.cmp .ltz 3 1 2) (two (-1) 1)).here.creg 3 = false := by decide +kernel
/-- R133: the count goes from 1 to 0, the loop ends, and RB still turns. -/
theorem test_loopr_end : (after (.loopr 1 5 (-4)) (two 1 0)).here.sreg 1 = 0 ∧ (after (.loopr 1 5 (-4)) (two 1 0)).here.rb = 5 ∧
    (after (.loopr 1 5 (-4)) (two 1 0)).here.fetch.next = 32 := by decide +kernel
/-- R130: a branch back from line 0 wraps below 2^48. -/
theorem test_br_wraps : (after (.br (-1)) (on bank)).here.fetch.next = 0xFFFFFFFFFFE0 := by decide +kernel
/-- R137: SHADOW 3 opens set 3. -/
theorem test_shadow : (after (.shadow 3) (on bank)).here.shadows = 4 := by decide +kernel
/-- R146: bits 4 to 1 and 63 to 48 of TRAPVEC read 0. -/
theorem test_sysw_trapvec : (after (.sysw .trapvec 1) (two 0xFFFFFFFFFFFFFFFF 0)).here.trapvec = 0x0000FFFFFFFFFFE1 := by decide +kernel
/-- R148, R432: a TRAP without a handler makes the task faulted with cause 0x12 and its code in AUX. -/
theorem test_trap_faults : ((after (.trap 77) (on bank)).row 0).state = .faulted ∧
    (after (.trap 77) (on bank)).here.fault.map (fun f => (f.cause, f.aux)) = some (0x12, 77) := by decide +kernel
/-- R226: ASHLI shifts left by its count. -/
theorem test_ashli : (after (.ashli 3 1 4) (on { bank with aregs := [(1, 0x1001)] })).here.areg 3 = 0x10010 := by decide +kernel
/-- R225: an address above 2^48 faults with 0x07, a misaligned one with 0x0E. -/
theorem test_lds_faults : ((after (.lds 1 .w4 false 0) (on { bank with aregs := [(1, 2 ^ 48 + 1)] })).here.fault.map FaultRec.cause) = some 0x07 ∧
    ((after (.lds 1 .w4 false 0) (on { bank with aregs := [(1, 2)] })).here.fault.map FaultRec.cause) = some 0x0E := by decide +kernel
/-- R228, R6: LDS.4 of the bytes 01 02 03 84 with sign extension. -/
theorem test_lds_sign : (after (.lds 1 .w4 true 0) { mapped { bank with aregs := [(1, 0x10000)] } with
    mem := [(0x400000010000, 1), (0x400000010001, 2), (0x400000010002, 3), (0x400000010003, 0x84)] }).here.loads.map PendLoad.data =
      [(0xFFFFFFFF84030201 : BitVec 64).setWidth 4096] := by decide +kernel
/-- R304: the first store to a subpage asks for it and waits. -/
theorem test_sts_asks : ((after (.sts 1 .w8 0) (mapped storing)).here.own.map OwnReq.subpages) = some [0x400000010] ∧
    (after (.sts 1 .w8 0) (mapped storing)).here.ssq = [word 5] := by decide +kernel
/-- R228, R295: a store to an owned subpage is the task's own and not yet memory's. -/
theorem test_sts_stores : let t := after (.sts 1 .w8 0) { mapped storing with dir := [(0x400000010, [.task 0])] }
    t.view 0 0x400000010000 = 5 ∧ t.home 0x400000010000 = 0 ∧ t.here.ssq = [] := by decide +kernel
/-- R229: an atomic add at its home leaves 4 + 1 there and returns 4. -/
theorem test_amoadd_home : let t := after (.atomicAtHome 0 7) { mapped { bank with atomics := [pendingAdd], rq := [⟨7, 0, none, none⟩] } with
      mem := [(0x400000010000, 4)] }
    t.home 0x400000010000 = 5 ∧ t.here.rq.map WordEntry.val = [some 4] := by decide +kernel
/-- R139: the last arrival toggles GEN and clears ARRIVED. -/
theorem test_phase_last : (after (.phase 0) (member 2 .idle)).group 0 = { (member 2 .idle).group 0 with gen := true, arrived := 0, since := 0 } := by decide +kernel
/-- R41: a doorbell beyond the queue's two slots sets OVF. -/
theorem test_doorbell_ovf : ((after (.doorbell 1 3) (queues 0)).queue 1).ovf = true ∧ ((after (.doorbell 1 2) (queues 0)).queue 1).tail = 2 := by decide +kernel
/-- R256: MSWAP exchanges the planes; R272: with RES its status word enters the FIFO. -/
theorem test_mswap : let t := after (.mswap { hdr with res := true }) (mxOn passing (.mswap { hdr with res := true }))
    t.here.standby.nc = 1 ∧ t.here.active.nc = 0 ∧ t.here.mx = [] ∧ t.here.fifoMx.length = 1 := by decide +kernel
/-- R278: a copy of 64 bytes moves the first of them. -/
theorem test_cpy : (after (.cpy hdr copyArgs) { cpOn (.cpy hdr copyArgs) with mem := [(0x400000010000, 9)] }).home 0x400000010040 = 9 := by decide +kernel
/-- R408, R414: SPSEED writes its key for the task's address space. -/
theorem test_spseed : (after seedKey { spOn seedKey with spKeys := [] }).spKey 3 = ⟨99, 0, true⟩ := by decide +kernel
/-- R397: a WCNT whose counter has reached its target places it in the FIFO. -/
theorem test_wcnt : (after countThree (wnOn countThree)).here.fifoWn = [7] := by decide +kernel
/-- R457: losing the pair link sets PAIRDOWN on a dual package only. -/
theorem test_pair_power : (after (.power 0 300) { State.reset with dual := true, devstat := { State.reset.devstat with pwr := 1 } }).sideOut =
    [.power 300] := by decide +kernel
theorem test_pair_loss : (after .pairLinkLoss { State.reset with dual := true }).devstat.pairdown = true ∧
    (after .pairLinkLoss State.reset).devstat.pairdown = false := by decide +kernel

end Sys2Proof.Tests
end

section
/-! Contexts: bind, preempt and switch OPs, the save, and bank selection (R27, R49, R52, R53, R59, R436, R438, R440). -/

namespace Sys2Proof

open Machine

/-! ### What an OP changes -/

/-- A change of a row's timetable entry touches nothing else. -/
theorem onlyRow_modRow (s : State) (row : Nat) (g : Row → Row) : OnlyRow s (s.modRow row g) row (s.bank row) (g (s.row row)) := by
  refine ⟨rfl, fun r => ?_, fun r => ?_⟩
  · by_cases h : r = row <;> simp [h]
  · by_cases h : r = row
    · simp [h]
    · simp [h, Ne.symm h]

theorem siblingOf_ne (row : Nat) : siblingOf row ≠ row := by unfold siblingOf; split <;> omega

/-! ### Preempt and switch (R52, R53, R59, R436) -/

theorem preemptOp_accepted {s : State} {row : Nat} (hf : (s.row row).state ≠ .free) (hs : (s.row row).state ≠ .saving)
    (hp : (s.row row).pinned = false) :
    preemptOp s row = leaveBank (s.modRow row fun r =>
      { r with state := .saving, halted := r.halted || decide (r.state = .halting), operr := false, op := 0, leftAt := s.dt.toNat }) row := by
  unfold preemptOp
  cases h : (s.row row).state <;> simp_all

theorem preemptOp_refused {s : State} {row : Nat}
    (h : (s.row row).state = .free ∨ (s.row row).state = .saving ∨ (s.row row).pinned = true) : preemptOp s row = opError s row := by
  unfold preemptOp
  cases hs : (s.row row).state <;> simp_all

theorem onlyTask_preemptOp {s : State} {row : Nat} (hf : (s.row row).state ≠ .free) (hs : (s.row row).state ≠ .saving)
    (hp : (s.row row).pinned = false) : OnlyTask s (preemptOp s row) row (s.bank row) { s.row row with
      state := .saving, halted := (s.row row).halted || decide ((s.row row).state = .halting), operr := false, op := 0
      leftAt := s.dt.toNat } := by
  rw [preemptOp_accepted hf hs hp]
  obtain ⟨-, -, hrow, hcore⟩ := onlyTask_of s row id fun r =>
    { r with state := .saving, halted := r.halted || decide (r.state = .halting), operr := false, op := 0, leftAt := s.dt.toNat }
  refine ⟨?_, fun r => ?_, fun r => ?_, fun c => ?_⟩
  · rw [leaveBank_eq]; rfl
  · rw [leaveBank_bank, bank_modRow]
    by_cases h : r = row
    · rw [if_pos h, h]
    · rw [if_neg h]
  · exact hrow r
  · exact hcore c

theorem switchOp_accepted {s : State} {row : Nat} (hb : (s.row row).state = .bound) (hr : (s.row (siblingOf row)).state = .running)
    (hp : (s.row (siblingOf row)).pinned = false) :
    switchOp s row = leaveBank ((s.modRow row fun r => { r with operr := false, op := 0 }).modRow (siblingOf row) fun r =>
      { r with state := .bound, since := s.cycle }) (siblingOf row) := by
  unfold switchOp
  rw [if_pos (by simp [hb, hr, hp])]
  rfl

theorem switchOp_refused {s : State} {row : Nat} (h : (s.row row).state ≠ .bound ∨ (s.row (siblingOf row)).state ≠ .running ∨
    (s.row (siblingOf row)).pinned = true) : switchOp s row = opError s row := by
  unfold switchOp
  rw [if_neg]
  simp only [Bool.and_eq_true, beq_iff_eq, Bool.not_eq_true']
  grind

/-- An accepted switch makes the sibling bound again and its core leave it (R52, R53). -/
theorem switchOp_frame {s : State} {row : Nat} (hb : (s.row row).state = .bound) (hr : (s.row (siblingOf row)).state = .running)
    (hp : (s.row (siblingOf row)).pinned = false) :
    let o := siblingOf row
    let t := switchOp s row
    t = { s with tt := t.tt, core := t.core } ∧
      (∀ r, t.row r = if r = o then { s.row o with state := .bound, since := s.cycle }
        else if r = row then { s.row row with operr := false, op := 0 } else s.row r) ∧
      ∀ c, t.coreAt c = if c = coreOf o then leftBy (s.coreAt c) o else s.coreAt c := by
  have hne := siblingOf_ne row
  rw [switchOp_accepted hb hr hp]
  refine ⟨?_, fun r => ?_, fun c => leaveBank_coreAt ..⟩
  · generalize hu : State.modRow _ (siblingOf row) _ = u
    obtain ⟨tt, htt⟩ : ∃ tt, u = { s with tt := tt } := ⟨_, hu.symm⟩
    obtain ⟨core, hcore⟩ : ∃ core, leaveBank u (siblingOf row) = { u with core := core } := ⟨_, leaveBank_eq ..⟩
    rw [hcore, htt]
  · rw [leaveBank_row]
    simp only [row_modRow, eq_comm (b := r)]
    grind

/-! ### Bank selection (R49, R53) -/

theorem mayIssue_of_bound {s : State} {r : Nat} (h : (s.row r).state = .bound) : mayIssue s r = true := beq_iff_eq.mpr h

theorem mayIssue_of_not {s : State} {r : Nat} (h : (s.row r).state ≠ .bound) : mayIssue s r = false := beq_eq_false_iff_ne.mpr h

theorem nextBank_none {s : State} {core : Nat} (ha : (s.row (2 * core)).state ≠ .bound) (hb : (s.row (2 * core + 1)).state ≠ .bound) :
    nextBank s core = none := by
  simp only [nextBank, mayIssue_of_not ha, mayIssue_of_not hb]

/-- The bank whose task has been bound longer, bank 0 in a tie (R53). -/
theorem nextBank_some {s : State} {core : Nat} {bank : Bool}
    (h : if bank then (s.row (2 * core + 1)).state = .bound ∧ ((s.row (2 * core)).state = .bound →
        (s.row (2 * core + 1)).since < (s.row (2 * core)).since)
      else (s.row (2 * core)).state = .bound ∧ ((s.row (2 * core + 1)).state = .bound →
        (s.row (2 * core)).since ≤ (s.row (2 * core + 1)).since)) : nextBank s core = some bank := by
  cases bank with
  | true =>
    obtain ⟨hb, hlt⟩ := h
    by_cases ha : (s.row (2 * core)).state = .bound
    · simp only [nextBank, mayIssue_of_bound ha, mayIssue_of_bound hb, decide_eq_true (hlt ha)]
    · simp only [nextBank, mayIssue_of_not ha, mayIssue_of_bound hb]
  | false =>
    obtain ⟨ha, hle⟩ := h
    by_cases hb : (s.row (2 * core + 1)).state = .bound
    · simp only [nextBank, mayIssue_of_bound ha, mayIssue_of_bound hb, decide_eq_false (Nat.not_lt.mpr (hle hb))]
    · simp only [nextBank, mayIssue_of_bound ha, mayIssue_of_not hb]

theorem bankSwitch_stays {s : State} {core : Nat} (h : (s.coreAt core).run ≠ none ∨ nextBank s core = none) :
    bankSwitch s core = s := by
  unfold bankSwitch
  cases hr : (s.coreAt core).run <;> cases hn : nextBank s core <;> simp_all

theorem bankSwitch_selects {s : State} {core : Nat} {bank : Bool} (hi : (s.coreAt core).run = none) (hn : nextBank s core = some bank)
    (hb : (s.row (2 * core + bank.toNat)).state = .bound) :
    bankSwitch s core = (s.modRow (2 * core + bank.toNat) fun r => { r with state := .running }).setCore core
      ⟨some bank, some bank, if (s.coreAt core).last = some (!bank) then 8 else 0⟩ := by
  simp only [bankSwitch, hi, hn, State.modRow, hb, if_true]
  rfl

theorem bankSwitch_frame {s : State} {core : Nat} {bank : Bool} (hi : (s.coreAt core).run = none) (hn : nextBank s core = some bank)
    (hb : (s.row (2 * core + bank.toNat)).state = .bound) :
    let t := bankSwitch s core
    t = { s with tt := t.tt, core := t.core } ∧
      (∀ r, t.row r = if r = 2 * core + bank.toNat then { s.row r with state := .running } else s.row r) ∧
      ∀ c, t.coreAt c = if c = core then ⟨some bank, some bank, if (s.coreAt core).last = some (!bank) then 8 else 0⟩ else s.coreAt c := by
  rw [bankSwitch_selects hi hn hb]
  refine ⟨rfl, fun r => ?_, fun c => ?_⟩
  · simp only [row_setCore, row_modRow, eq_comm (b := r)]; grind
  · simp only [coreAt_setCore, eq_comm (b := c)]; rfl

/-! ### Bind (R27, R52, R59) -/

/-- A row at the acceptance of its bind OP (R59). -/
def accepts (s : State) (row : Nat) : State := s.modRow row fun r => { r with operr := false, op := 0, halted := false, bindAt := s.cycle }

/-- A bound task of a row with HOLD waits (R52, R59). -/
def heldBack (s : State) (row : Nat) (x : Row) : State :=
  if x.hold && (s.row row).state == .bound then s.modRow row fun r => { r with state := .waiting } else s

/-- The end of a bind: a held task waits, INFO is the row's, and CMASK follows (R52, R56, R59). -/
def bindEnd (s : State) (row : Nat) (x : Row) : State :=
  refreshMasks ((heldBack s row x).modBank row fun b => { b with info := taskInfo x }) (rowGroups x)

theorem bindOp_refused {s : State} {row : Nat} (h : bindAccepted s row = false) : bindOp s row = opError s row := by
  simp [bindOp, h]

theorem bindOp_entry {s : State} {row : Nat} {l : Launch} (ha : bindAccepted s row = true) (hr : (s.row row).resume = false)
    (hl : rowLaunch s (s.row row) = some l) :
    bindOp s row = bindEnd (makeBound ((rowGroups (s.row row)).foldl joinGroup ((accepts s row).setBank row
      (entryBank (accepts s row) l (s.row row).task.toNat))) row) row (s.row row) := by
  have hl' : rowLaunch (accepts s row) (s.row row) = some l := hl
  unfold accepts at hl'
  simp only [bindOp, ha, hr, hl', Bool.not_true, Bool.false_eq_true, if_false]
  rfl

theorem bindOp_resume {s : State} {row : Nat} (ha : bindAccepted s row = true) (hr : (s.row row).resume = true) :
    ∃ halted, bindOp s row = bindEnd (applyRecord ((restoreBank (accepts s row) row).modRow row fun r =>
      { r with halted := halted, state := .bound }) row) row (s.row row) := by
  refine ⟨((s.preempted.find? fun p => p.save = (s.row row).save).map Preempted.halted).getD false, ?_⟩
  simp only [bindOp, ha, hr, Bool.not_true, Bool.false_eq_true, if_false, if_true]
  rfl

theorem bank_refreshMasks (s : State) (l : List Nat) (r : Nat) : (refreshMasks s l).bank r = s.bank r := by
  obtain ⟨gt, h⟩ := refreshMasks_eq l s
  rw [h]; rfl

theorem row_refreshMasks (s : State) (l : List Nat) (r : Nat) : (refreshMasks s l).row r = s.row r := by
  obtain ⟨gt, h⟩ := refreshMasks_eq l s
  rw [h]; rfl

theorem heldBack_rest (s : State) (row : Nat) (x : Row) : heldBack s row x = { s with tt := (heldBack s row x).tt } := by
  unfold heldBack; split <;> rfl

theorem bank_heldBack (s : State) (row : Nat) (x : Row) (r : Nat) : (heldBack s row x).bank r = s.bank r := by
  rw [heldBack_rest]; rfl

theorem row_heldBack (s : State) (row : Nat) (x : Row) (r : Nat) :
    (heldBack s row x).row r =
      if r = row ∧ x.hold = true ∧ (s.row row).state = .bound then { s.row row with state := .waiting } else s.row r := by
  unfold heldBack
  by_cases h : x.hold = true ∧ (s.row row).state = .bound
  · simp [h, eq_comm (a := row)]
  · rw [if_neg (by simpa using h), if_neg fun k => h k.2]

theorem bindEnd_rest (s : State) (row : Nat) (x : Row) :
    bindEnd s row x = { s with banks := (bindEnd s row x).banks, tt := (bindEnd s row x).tt, gt := (bindEnd s row x).gt } := by
  unfold bindEnd
  obtain ⟨gt, h⟩ := refreshMasks_eq (rowGroups x) ((heldBack s row x).modBank row fun b => { b with info := taskInfo x })
  rw [h, heldBack_rest]
  rfl

theorem bank_bindEnd (s : State) (row : Nat) (x : Row) (r : Nat) :
    (bindEnd s row x).bank r = if r = row then { s.bank row with info := taskInfo x } else s.bank r := by
  unfold bindEnd
  rw [bank_refreshMasks, bank_modBank, bank_heldBack, bank_heldBack]
  simp only [eq_comm]

theorem row_bindEnd (s : State) (row : Nat) (x : Row) (r : Nat) :
    (bindEnd s row x).row r =
      if r = row ∧ x.hold = true ∧ (s.row row).state = .bound then { s.row row with state := .waiting } else s.row r := by
  unfold bindEnd
  rw [row_refreshMasks, row_modBank, row_heldBack]

theorem joinGroups_eq (l : List Nat) : ∀ s : State, ∃ sh, l.foldl joinGroup s = { s with shared := sh } := by
  induction l with
  | nil => intro s; exact ⟨s.shared, rfl⟩
  | cons g l ih =>
    intro s
    obtain ⟨sh, h⟩ := ih (joinGroup s g)
    refine ⟨sh, ?_⟩
    rw [List.foldl_cons, h]
    unfold joinGroup
    split <;> rfl

theorem bank_joinGroups (l : List Nat) (s : State) (r : Nat) : (l.foldl joinGroup s).bank r = s.bank r := by
  obtain ⟨sh, h⟩ := joinGroups_eq l s
  rw [h]; rfl

theorem row_joinGroups (l : List Nat) (s : State) (r : Nat) : (l.foldl joinGroup s).row r = s.row r := by
  obtain ⟨sh, h⟩ := joinGroups_eq l s
  rw [h]; rfl

theorem cycle_joinGroups (l : List Nat) (s : State) : (l.foldl joinGroup s).cycle = s.cycle := by
  obtain ⟨sh, h⟩ := joinGroups_eq l s
  rw [h]

theorem bank_makeBound (s : State) (row r : Nat) :
    (makeBound s row).bank r = if r = row then dispatchNext s (s.bank row) else s.bank r := by
  simp only [makeBound, makeBoundAt, bank_modBank, bank_modRow, eq_comm (a := row)]
  rfl

theorem row_makeBound (s : State) (row r : Nat) :
    (makeBound s row).row r = if r = row then boundAgain s (s.row row) else s.row r := by
  simp only [makeBound, makeBoundAt, row_modBank, row_modRow, eq_comm (a := row)]
  rfl

/-- A bank whose task enters bound, with a row's INFO (R52, R53, R59). -/
def enters (s : State) (info : W64) (b : Bank) : Bank := { dispatchNext s b with info := info }

/-- INFO and the place of dispatch are all that the entry into bound changes of a bank. -/
theorem enters_eq (s : State) (info : W64) (b : Bank) : ∃ i f, enters s info b = { b with info := i, fetch := f } ∧
    i = info ∧ f.entry = b.fetch.entry ∧ f.next = b.fetch.next ∧ s.cycle < f.ready :=
  ⟨_, _, rfl, rfl, rfl, rfl, Nat.le_max_right ..⟩

/-! ### The state at entry (R27) -/

theorem sreg_entryBank (s : State) (l : Launch) (task : Nat) (n : BitVec 6) : (entryBank s l task).sreg n =
    if n = 1 then .ofNat 64 task else if n = 2 then .ofNat 64 l.tasks else if n = 3 then l.arg else 0 := by
  have h : (entryBank s l task).sreg n =
    (((Bank.reset.setS 1 (.ofNat 64 task)).setS 2 (.ofNat 64 l.tasks)).setS 3 l.arg).sreg n := rfl
  have h0 : Bank.reset.sreg n = 0 := by unfold Bank.sreg; split <;> rfl
  rw [h]
  simp only [sreg_setS, h0]
  grind

theorem areg_entryBank (s : State) (l : Launch) (task : Nat) (n : BitVec 5) : (entryBank s l task).areg n =
    if n = 1 then .ofNat 64 (l.image + field (fwBytes s l.asid l.image 128) 0x14 4) else if n = 2 then l.argblk else 0 := by
  have h : (entryBank s l task).areg n =
    ((Bank.reset.setA 1 (.ofNat 64 (l.image + field (fwBytes s l.asid l.image 128) 0x14 4))).setA 2 l.argblk).areg n := rfl
  have h0 : Bank.reset.areg n = 0 := by unfold Bank.areg; split <;> rfl
  rw [h]
  simp only [areg_setA, h0]
  grind

/-- The register files at entry (R27). -/
theorem registers_entryBank (s : State) (l : Launch) (task : Nat) : let b := entryBank s l task
    (∀ n, b.sreg n = if n = 1 then .ofNat 64 task else if n = 2 then .ofNat 64 l.tasks else if n = 3 then l.arg else 0) ∧
      (∀ n, b.areg n = if n = 1 then .ofNat 64 (l.image + field (fwBytes s l.asid l.image 128) 0x14 4)
        else if n = 2 then l.argblk else 0) ∧
      (∀ n, b.vreg n = 0) ∧ (∀ n, n ≠ 0 → b.creg n = false) ∧ b.mreg 0 = MWord.ones ∧ ∀ n, n ≠ 0 → b.mreg n = 0 :=
  ⟨sreg_entryBank s l task, areg_entryBank s l task, fun _ => rfl, fun _ h => if_neg h, rfl, fun _ h => if_neg h⟩

theorem zeros_entryBank (s : State) (l : Launch) (task : Nat) : let b := entryBank s l task
    b.rb = 0 ∧ b.vmode = 0 ∧ b.tcc = 0 ∧ b.scratch = [] ∧ b.acc = [] := ⟨rfl, rfl, rfl, rfl, rfl⟩

theorem fetch_entryBank (s : State) (l : Launch) (task : Nat) : let h := fwBytes s l.asid l.image 128
    (entryBank s l task).decl = declOf h ∧ (entryBank s l task).fetch.entry = true ∧
      (entryBank s l task).fetch.next = .ofNat 64 (l.image + field h 0xC 4 + field h 0x1C 4) := ⟨rfl, rfl, rfl⟩

theorem queues_entryBank (s : State) (l : Launch) (task : Nat) : (∀ q, (entryBank s l task).wordQ q = []) ∧
    (∀ q, (entryBank s l task).loadQ q = []) ∧ (∀ q, (entryBank s l task).storeQ q = []) ∧
    (∀ u, (entryBank s l task).queue u = []) ∧ noCommands (entryBank s l task) :=
  ⟨fun q => by cases q <;> rfl, fun _ => rfl, fun _ => rfl, fun u => by cases u <;> rfl, fun e => by cases e <;> rfl⟩

/-- What a task's entry into bound and the end of its bind may change. -/
theorem bindEnd_makeBound_eq (s : State) (row : Nat) (x : Row) :
    ∃ banks tt gt, bindEnd (makeBound s row) row x = { s with banks := banks, tt := tt, gt := gt } := by
  obtain ⟨banks, tt, h⟩ : ∃ banks tt, makeBound s row = { s with banks := banks, tt := tt } := ⟨_, _, rfl⟩
  rw [h]
  exact ⟨_, _, _, bindEnd_rest ..⟩

theorem bindOp_entry_rest {s : State} {row : Nat} {l : Launch} (ha : bindAccepted s row = true) (hr : (s.row row).resume = false)
    (hl : rowLaunch s (s.row row) = some l) : let t := bindOp s row
    t = { s with banks := t.banks, tt := t.tt, gt := t.gt, shared := t.shared } := by
  rw [bindOp_entry ha hr hl]
  generalize entryBank (accepts s row) l (s.row row).task.toNat = b
  obtain ⟨sh, hsh⟩ := joinGroups_eq (rowGroups (s.row row)) ((accepts s row).setBank row b)
  obtain ⟨banks, tt, gt, ht⟩ :=
    bindEnd_makeBound_eq ((rowGroups (s.row row)).foldl joinGroup ((accepts s row).setBank row b)) row (s.row row)
  obtain ⟨banks', tt', hs⟩ : ∃ banks tt, (accepts s row).setBank row b = { s with banks := banks, tt := tt } := ⟨_, _, rfl⟩
  rw [ht, hsh, hs]

theorem bank_bindOp_entry {s : State} {row : Nat} {l : Launch} (ha : bindAccepted s row = true) (hr : (s.row row).resume = false)
    (hl : rowLaunch s (s.row row) = some l) (r : Nat) : (bindOp s row).bank r = if r = row then
      enters s (taskInfo (s.row row)) (entryBank (accepts s row) l (s.row row).task.toNat) else s.bank r := by
  rw [bindOp_entry ha hr hl]
  simp only [bank_bindEnd, bank_makeBound, bank_joinGroups, bank_setBank, if_true, dispatchNext, cycle_joinGroups]
  by_cases h : r = row
  · simp only [if_pos h]; rfl
  · simp only [if_neg h, if_neg (Ne.symm h)]; rfl

theorem row_accepts (s : State) (row r : Nat) : (accepts s row).row r =
    if r = row then { s.row row with operr := false, op := 0, halted := false, bindAt := s.cycle } else s.row r := by
  simp only [accepts, row_modRow, eq_comm (a := row)]

theorem row_bindOp_entry {s : State} {row : Nat} {l : Launch} (ha : bindAccepted s row = true) (hr : (s.row row).resume = false)
    (hl : rowLaunch s (s.row row) = some l) (r : Nat) : (bindOp s row).row r = if r = row then { s.row row with
        state := if (s.row row).hold then .waiting else .bound, operr := false, op := 0, halted := false, bindAt := s.cycle
        since := s.cycle } else s.row r := by
  rw [bindOp_entry ha hr hl]
  simp only [row_bindEnd, row_makeBound, row_joinGroups, row_setBank, row_accepts, if_true, boundAgain, cycle_joinGroups]
  by_cases h : r = row
  · cases hh : (s.row row).hold <;> simp [h] <;> rfl
  · simp only [h, false_and, if_false]

/-! ### The save area read back (R438, R440) -/

theorem get_extentBytes {s : State} {pa n o : Nat} (h : o < n) : Store.get zeroByte (extentBytes s pa n) o = s.home (pa + o) := by
  unfold extentBytes State.home
  induction s.mem with
  | nil => rfl
  | cons e m ih =>
    rw [List.filter_cons]
    by_cases hin : pa ≤ e.1 ∧ e.1 < pa + n
    · rw [if_pos (by simpa using hin), List.map_cons, Store.get, Store.get, ih]
      simp only [show e.1 - pa = o ↔ e.1 = pa + o by omega]
    · rw [if_neg (by simpa using hin), ih, Store.get, if_neg (by omega)]

/-- A number read from the bytes of an extent is the number at its home. -/
theorem numAt_extentBytes {s : State} {pa n off k : Nat} (h : off + k ≤ n) :
    numAt (extentBytes s pa n) off k = s.homeNat (pa + off) k := by
  unfold numAt State.homeNat Store.getRun State.homeBytes
  congr 1
  refine List.map_congr_left fun i hi => ?_
  have hi := List.mem_range.mp hi
  rw [get_extentBytes (by omega), Nat.add_assoc]

theorem get_fileOf {α : Type} [DecidableEq α] (d : α) (f : Nat → α) {i : Nat} : ∀ {n : Nat}, i < n → Store.get d (fileOf d n f) i = f i
  | n + 1, h => by
    unfold fileOf
    rw [List.range_succ, List.foldl_append, List.foldl_cons, List.foldl_nil, Store.get_set]
    split
    · subst_vars; rfl
    · exact get_fileOf d f (by omega)

theorem get_fileOf_ne_zero {α : Type} [DecidableEq α] (d : α) (f : Nat → α) {i n : Nat} (h : i < n) (h0 : i ≠ 0) :
    Store.get d (fileOf d n fun i => if i = 0 then d else f i) i = f i := (get_fileOf d _ h).trans (if_neg h0)

/-- A part of a bank that neither a word queue nor a result FIFO belongs to. -/
def NoQueue {β : Type} (p : Bank → β) : Prop := (∀ b q l, p (Bank.setWordQ b q l) = p b) ∧ ∀ b e l, p (Bank.setFifo b e l) = p b

theorem NoQueue.setFifos {β : Type} {p : Bank → β} (h : NoQueue p) (f : Bank → Eng → List W64) :
    ∀ (l : List Eng) (b : Bank), p (l.foldl (fun b e => b.setFifo e (f b e)) b) = p b
  | [], _ => rfl
  | _ :: l, _ => (h.setFifos f l _).trans (h.2 ..)

theorem NoQueue.setWordQs {β : Type} {p : Bank → β} (h : NoQueue p) (f : Bank → WordQ × Nat → List WordEntry) :
    ∀ (l : List (WordQ × Nat)) (b : Bank), p (l.foldl (fun b q => b.setWordQ q.1 (f b q)) b) = p b
  | [], _ => rfl
  | _ :: l, _ => (h.setWordQs f l _).trans (h.1 ..)

/-- The register files that R438 stores. -/
def registerFiles (b : Bank) : Store W64 × Store W64 × Store MWord × Store VWord := (b.sregs, b.aregs, b.mregs, b.vregs)
/-- The place of dispatch, TCC, VMODE and the trap registers. -/
def controls (b : Bank) : List W64 := [b.fetch.next, b.tcc, b.vmode, b.trapvec, b.trapcause, b.trapret]
/-- The parts of a bank that a save area holds in the device's own form (R438). -/
def deviceOwn (b : Bank) : List ShadowCopy × Option FaultRec × Decl × Nat × List (List QEntry) × List (List InFlight) ×
    List (List EngEntry) :=
  (b.copies, b.fault, b.decl, b.launch, [b.sQueue, b.aQueue, b.vQueue], [b.flightS, b.flightA, b.flightV],
    [b.mx, b.cp, b.kv, b.xg, b.sp, b.wn])

theorem noQueue_registerFiles : NoQueue registerFiles := ⟨fun _ q _ => by cases q <;> rfl, fun _ e _ => by cases e <;> rfl⟩
theorem noQueue_controls : NoQueue controls := ⟨fun _ q _ => by cases q <;> rfl, fun _ e _ => by cases e <;> rfl⟩
theorem noQueue_deviceOwn : NoQueue deviceOwn := ⟨fun _ q _ => by cases q <;> rfl, fun _ e _ => by cases e <;> rfl⟩

theorem deviceOwn_inj {b c : Bank} (h : deviceOwn b = deviceOwn c) : b.copies = c.copies ∧ b.fault = c.fault ∧ b.decl = c.decl ∧
    b.launch = c.launch ∧ (∀ u, b.queue u = c.queue u) ∧ (∀ u, b.flight u = c.flight u) ∧ ∀ e, b.engQ e = c.engQ e := by
  simp only [deviceOwn, Prod.mk.injEq, List.cons.injEq, and_true] at h
  obtain ⟨hcopies, hfault, hdecl, hlaunch, ⟨hs, ha, hv⟩, ⟨fs, fa, fv⟩, hmx, hcp, hkv, hxg, hsp, hwn⟩ := h
  exact ⟨hcopies, hfault, hdecl, hlaunch, fun u => by cases u <;> assumption, fun u => by cases u <;> assumption,
    fun e => by cases e <;> assumption⟩

section
variable (img : Store Byte) (asid : Asid) (scratch : Store Byte) (b : Bank)

theorem registerFiles_readFront : registerFiles (readFront img asid scratch b) =
    (fileOf 0 64 fun i => if i = 0 then 0 else .ofNat 64 (numAt img (0x200 + 8 * i) 8),
      fileOf 0 32 fun i => if i = 0 then 0 else .ofNat 64 (numAt img (0x400 + 8 * i) 8),
      fileOf 0 64 fun i => if i = 0 then 0 else .ofNat 1024 (numAt img (0x1000 + 128 * i) 128),
      fileOf 0 256 fun i => .ofNat 4096 (numAt img (0x20000 + 512 * i) 512)) := by
  unfold readFront
  rw [noQueue_registerFiles.setFifos, noQueue_registerFiles.setWordQs]
  simp only [registerFiles]

theorem controls_readFront : controls (readFront img asid scratch b) =
    [0x40, 0x48, 0x50, 0x60, 0x68, 0x70].map fun o => .ofNat 64 (numAt img o 8) := by
  unfold readFront
  rw [noQueue_controls.setFifos, noQueue_controls.setWordQs]
  simp only [controls, List.map]

theorem deviceOwn_readFront : deviceOwn (readFront img asid scratch b) = deviceOwn b := by
  unfold readFront
  rw [noQueue_deviceOwn.setFifos, noQueue_deviceOwn.setWordQs]
  simp only [deviceOwn]

theorem sreg_readFront {n : BitVec 6} (h : n ≠ 0) :
    (readFront img asid scratch b).sreg n = .ofNat 64 (numAt img (0x200 + 8 * n.toNat) 8) := by
  have hs := congrArg (·.1) (registerFiles_readFront img asid scratch b)
  dsimp only [registerFiles] at hs
  rw [Bank.sreg, if_neg h, hs, get_fileOf_ne_zero _ _ n.isLt fun k => h (BitVec.eq_of_toNat_eq k)]

theorem areg_readFront {n : BitVec 5} (h : n ≠ 0) :
    (readFront img asid scratch b).areg n = .ofNat 64 (numAt img (0x400 + 8 * n.toNat) 8) := by
  have hs := congrArg (·.2.1) (registerFiles_readFront img asid scratch b)
  dsimp only [registerFiles] at hs
  rw [Bank.areg, if_neg h, hs, get_fileOf_ne_zero _ _ n.isLt fun k => h (BitVec.eq_of_toNat_eq k)]

theorem mreg_readFront {n : BitVec 6} (h : n ≠ 0) :
    (readFront img asid scratch b).mreg n = .ofNat 1024 (numAt img (0x1000 + 128 * n.toNat) 128) := by
  have hs := congrArg (·.2.2.1) (registerFiles_readFront img asid scratch b)
  dsimp only [registerFiles] at hs
  rw [Bank.mreg, if_neg h, hs, get_fileOf_ne_zero _ _ n.isLt fun k => h (BitVec.eq_of_toNat_eq k)]

theorem vreg_readFront {n : Nat} (h : n < 256) :
    (readFront img asid scratch b).vreg n = .ofNat 4096 (numAt img (0x20000 + 512 * n) 512) := by
  have hs := congrArg (·.2.2.2) (registerFiles_readFront img asid scratch b)
  dsimp only [registerFiles] at hs
  rw [Bank.vreg, hs, get_fileOf _ _ h]

end

/-- The bank that a restore of the save area makes of the bank that the save kept (R438, R440). -/
def restored (s : State) (row : Nat) (b : Bank) : Bank :=
  readFront (extentBytes s (saveAddr s row) frontBytes) (s.row row).asid (extentBytes s (saveAddr s row + scratchOffset) b.decl.dmem) b

section
variable (s : State) (row : Nat) (b : Bank)

/-- The register files of a restored bank (R438). -/
theorem registers_restored : let c := restored s row b
    let at_ := saveAddr s row
    (∀ n, n ≠ 0 → c.sreg n = .ofNat 64 (s.homeNat (at_ + 0x200 + 8 * n.toNat) 8)) ∧
      (∀ n, n ≠ 0 → c.areg n = .ofNat 64 (s.homeNat (at_ + 0x400 + 8 * n.toNat) 8)) ∧
      (∀ n < 256, c.vreg n = .ofNat 4096 (s.homeNat (at_ + 0x20000 + 512 * n) 512)) ∧
      ∀ n, n ≠ 0 → c.mreg n = .ofNat 1024 (s.homeNat (at_ + 0x1000 + 128 * n.toNat) 128) := by
  refine ⟨fun n h => ?_, fun n h => ?_, fun n h => ?_, fun n h => ?_⟩
  · have hn := n.isLt
    rw [restored, sreg_readFront _ _ _ _ h, numAt_extentBytes (by unfold frontBytes; omega), Nat.add_assoc]
  · have hn := n.isLt
    rw [restored, areg_readFront _ _ _ _ h, numAt_extentBytes (by unfold frontBytes; omega), Nat.add_assoc]
  · rw [restored, vreg_readFront _ _ _ _ h, numAt_extentBytes (by unfold frontBytes; omega), Nat.add_assoc]
  · have hn := n.isLt
    rw [restored, mreg_readFront _ _ _ _ h, numAt_extentBytes (by unfold frontBytes; omega), Nat.add_assoc]

/-- The control words of a restored bank (R438). -/
theorem controls_restored : controls (restored s row b) =
    [0x40, 0x48, 0x50, 0x60, 0x68, 0x70].map fun o => .ofNat 64 (s.homeNat (saveAddr s row + o) 8) := by
  have hin : ∀ o ∈ [0x40, 0x48, 0x50, 0x60, 0x68, 0x70], o + 8 ≤ frontBytes := by decide
  exact (controls_readFront ..).trans (List.map_congr_left fun o ho => congrArg _ (numAt_extentBytes (hin o ho)))

theorem kept_restored : let c := restored s row b
    c.copies = b.copies ∧ c.fault = b.fault ∧ c.decl = b.decl ∧ c.launch = b.launch ∧ (∀ u, c.queue u = b.queue u) ∧
      (∀ u, c.flight u = b.flight u) ∧ ∀ e, c.engQ e = b.engQ e := deviceOwn_inj (deviceOwn_readFront ..)

end

theorem restoreCopies_none {s : State} {row : Nat} (h : (s.bank row).copies = []) : restoreCopies s row = s := by
  unfold restoreCopies
  rw [h]; rfl

theorem restoreBank_eq {s : State} {row key : Nat} {b : Bank} (hk : s.homeNat (saveAddr s row + 0x4000) 8 = key + 1)
    (hb : s.saves.get none key = some b) (hc : b.copies = []) : ∃ dir pre, restoreBank s row =
      { s.setBank row (restored s row b) with saves := s.saves.set none key none, dir := dir, preempted := pre } := by
  have hc' : (restored s row b).copies = [] := (kept_restored s row b).1.trans hc
  obtain ⟨dir, hd⟩ : ∃ dir, renameOwners { s.setBank row (restored s row b) with saves := s.saves.set none key none } (savedRow key) row =
      { s.setBank row (restored s row b) with saves := s.saves.set none key none, dir := dir } := ⟨_, rfl⟩
  refine ⟨dir, s.preempted.filter fun p => p.save ≠ (s.row row).save, ?_⟩
  simp only [restored] at hd
  simp only [restoreBank, hk, hb, hd]
  exact restoreCopies_none ((congrArg Bank.copies ((bank_setBank s row row _).trans (if_pos rfl))).trans hc')

theorem applyRecord_none {s : State} {row : Nat} (h : (s.bank row).fault = none) : applyRecord s row = makeBound s row := by
  simp [applyRecord, h]

/-- A bind with RESUME of a task that holds no fault: the saved state is loaded and the task becomes bound, or halting (R434, R440). -/
theorem bindOp_resumed {s : State} {row key : Nat} {b : Bank} (ha : bindAccepted s row = true) (hr : (s.row row).resume = true)
    (hk : s.homeNat (saveAddr s row + 0x4000) 8 = key + 1) (hb : s.saves.get none key = some b) (hc : b.copies = [])
    (hf : b.fault = none) : ∃ halted dir pre, bindOp s row = bindEnd (makeBound
      ({ (accepts s row).setBank row (restored s row b) with saves := s.saves.set none key none, dir := dir, preempted := pre }.modRow
        row fun r => { r with halted := halted, state := .bound }) row) row (s.row row) := by
  have hx : (accepts s row).row row = { s.row row with operr := false, op := 0, halted := false, bindAt := s.cycle } := by
    rw [row_accepts, if_pos rfl]
  have hp : saveAddr (accepts s row) row = saveAddr s row := by unfold saveAddr; rw [hx]
  have hq : restored (accepts s row) row b = restored s row b := by unfold restored; rw [hp, hx]; rfl
  obtain ⟨halted, h⟩ := bindOp_resume ha hr
  obtain ⟨dir, pre, hd⟩ := restoreBank_eq (s := accepts s row) (row := row) (key := key) (b := b) (by rw [hp]; exact hk) hb hc
  refine ⟨halted, dir, pre, ?_⟩
  rw [h, hd, hq]
  have hf' : (restored s row b).fault = none := (kept_restored s row b).2.1.trans hf
  rw [applyRecord_none]
  · rfl
  · exact (congrArg Bank.fault ((bank_setBank _ row row _).trans (if_pos rfl))).trans hf'

section
variable {s : State} {row key : Nat} {b : Bank} (ha : bindAccepted s row = true) (hr : (s.row row).resume = true)
  (hk : s.homeNat (saveAddr s row + 0x4000) 8 = key + 1) (hb : s.saves.get none key = some b) (hc : b.copies = [])
  (hf : b.fault = none)
include ha hr hk hb hc hf

theorem mem_bindOp_resumed : (bindOp s row).mem = s.mem := by
  obtain ⟨halted, dir, pre, h⟩ := bindOp_resumed ha hr hk hb hc hf
  obtain ⟨banks, tt, gt, ht⟩ := bindEnd_makeBound_eq ({ (accepts s row).setBank row (restored s row b) with
    saves := s.saves.set none key none, dir := dir, preempted := pre }.modRow row fun r => { r with halted := halted, state := .bound })
    row (s.row row)
  rw [h, ht]
  rfl

theorem bank_bindOp_resumed (r : Nat) : (bindOp s row).bank r =
    if r = row then enters s (taskInfo (s.row row)) (restored s row b) else s.bank r := by
  obtain ⟨halted, dir, pre, h⟩ := bindOp_resumed ha hr hk hb hc hf
  have hbank (k : Nat) : ({ (accepts s row).setBank row (restored s row b) with
      saves := s.saves.set none key none, dir := dir, preempted := pre } : State).bank k =
      if row = k then restored s row b else s.bank k := bank_setBank ..
  rw [h]
  simp only [bank_bindEnd, bank_makeBound, bank_modRow, hbank, if_true]
  by_cases hrow : r = row
  · simp only [if_pos hrow]; rfl
  · simp only [if_neg hrow, if_neg (Ne.symm hrow)]

theorem row_bindOp_resumed : (∀ r, r ≠ row → (bindOp s row).row r = s.row r) ∧
    ((s.row row).hold = false → ((bindOp s row).row row).state = .bound ∨ ((bindOp s row).row row).state = .halting) := by
  obtain ⟨halted, dir, pre, h⟩ := bindOp_resumed ha hr hk hb hc hf
  have hrows (k : Nat) : ({ (accepts s row).setBank row (restored s row b) with
      saves := s.saves.set none key none, dir := dir, preempted := pre } : State).row k = (accepts s row).row k := rfl
  rw [h]
  constructor
  · intro r hrow
    simp only [row_bindEnd, row_makeBound, row_modRow, hrows, row_accepts, hrow, false_and, if_false, if_neg (Ne.symm hrow)]
  · intro hh
    simp only [row_bindEnd, row_makeBound, row_modRow, hh, Bool.false_eq_true, false_and, and_false, if_false, if_true, boundAgain]
    cases halted
    · exact .inl rfl
    · exact .inr rfl

end

/-! ### The save (R436, R438) -/

/-- The parts of a bank that the record of its preempted task and the kept context are stated by. -/
def recorded (b : Bank) : Store W64 × Option FaultRec × Nat × Bool × Bool := (b.sregs, b.fault, b.launch, b.usedMx, b.usedXg)

theorem fault_of_recorded {b c : Bank} (h : recorded b = recorded c) : b.fault = c.fault := congrArg (·.2.1) h

theorem sreg_of_recorded {b c : Bank} (h : recorded b = recorded c) (n : BitVec 6) : b.sreg n = c.sreg n := by
  have hs : b.sregs = c.sregs := congrArg (·.1) h
  rw [Bank.sreg, hs, Bank.sreg]

/-- What the steps of a row's save before its record may change: memory, directories, and the row's own bank in other parts than those
recorded. -/
structure SaveStep (s t : State) (row : Nat) : Prop where
  rest : t = { s with banks := t.banks, mem := t.mem, coreOv := t.coreOv, dieOv := t.dieOv, poison := t.poison, stale := t.stale
                      dir := t.dir, fresh := t.fresh }
  others : ∀ r, r ≠ row → t.bank r = s.bank r
  own : recorded (t.bank row) = recorded (s.bank row)

theorem SaveStep.trans {s t u : State} {row : Nat} (h : SaveStep s t row) (k : SaveStep t u row) : SaveStep s u row where
  rest := by rw [k.rest, h.rest]
  others r hr := (k.others r hr).trans (h.others r hr)
  own := k.own.trans h.own

theorem SaveStep.row {s t : State} {row : Nat} (h : SaveStep s t row) (r : Nat) : t.row r = s.row r := by rw [h.rest]; rfl

theorem saveStep_of_onlyMemory {s t : State} {row : Nat} (h : OnlyMemory s t) : SaveStep s t row where
  rest := by rw [h]
  others r _ := h.bank r
  own := by rw [h.bank]

theorem saveStep_setBank {s : State} {row : Nat} {b : Bank} (h : recorded b = recorded (s.bank row)) :
    SaveStep s (s.setBank row b) row where
  rest := rfl
  others _ hr := (bank_setBank ..).trans (if_neg (Ne.symm hr))
  own := (congrArg recorded ((bank_setBank s row row b).trans (if_pos rfl))).trans h

theorem saveStep_modBank {s : State} {row : Nat} {f : Bank → Bank} (h : recorded (f (s.bank row)) = recorded (s.bank row)) :
    SaveStep s (s.modBank row f) row := saveStep_setBank h

theorem saveStep_releaseAt (s : State) (row level : Nat) : SaveStep s (releaseAt s row level) row :=
  (saveStep_modBank (f := fun b => { b with pend := [], under := [] }) rfl).trans (saveStep_of_onlyMemory (releaseAt_eq s row level))

theorem saveStep_endPhase (s : State) (row : Nat) : SaveStep s (endPhase s row) row := ⟨rfl, fun _ _ => rfl, rfl⟩

theorem saveStep_zeroMem (s : State) (row pa n : Nat) : SaveStep s (zeroMem s pa n) row := ⟨rfl, fun _ _ => rfl, rfl⟩

theorem recorded_setEngQ (b : Bank) (e : Eng) (l : List EngEntry) : recorded (b.setEngQ e l) = recorded b := by cases e <;> rfl

theorem recorded_mapEngine (f : Eng → EngEntry → EngEntry) (b : Bank) : recorded (b.mapEngine f) = recorded b := by
  unfold Bank.mapEngine
  generalize allEngs = l
  induction l generalizing b with
  | nil => rfl
  | cons e l ih => rw [List.foldl_cons, ih, recorded_setEngQ]

theorem onlyMemory_spoilWord (pa : Nat) (s : State) (w : Nat) : OnlyMemory s (spoilWord pa s w) := fold_only _ (fun _ _ => by rfl) _ _

theorem onlyMemory_saveGranule (b : Bank) (image : Nat) (s : State) (g : Nat) : OnlyMemory s (saveGranule b image s g) :=
  (onlyMemory_homeWriteBytes _ _ _).trans (fold_only _ (fun s _ => onlyMemory_spoilWord _ s _) _ _)

theorem saveStep_saveTiles (s : State) (row : Nat) : SaveStep s (saveTiles s row) row := by
  have hg := fold_only (saveGranule (s.bank row) (saveAddr s row + imageOffset)) (onlyMemory_saveGranule _ _)
    ((keptGranules (s.bank row)).filter fun g => (s.bank row).dirty.get false g) s
  refine (saveStep_of_onlyMemory hg).trans ⟨rfl, fun _ hr => (bank_setBank ..).trans (if_neg (Ne.symm hr)), ?_⟩
  rw [hg.bank]
  exact (congrArg recorded ((bank_setBank ..).trans (if_pos rfl))).trans rfl

theorem onlyMemory_putAll (pa step n : Nat) (s : State) (l : List (Nat × Nat)) : OnlyMemory s (putAll pa step n s l) := by
  refine fold_only _ (fun s e => ?_) l s
  split
  · exact .refl s
  · exact onlyMemory_homeWriteBytes _ _ _

theorem OnlyMemory.put {s t : State} {pa step n : Nat} {l : List (Nat × Nat)} (h : OnlyMemory s t) : OnlyMemory s (putAll pa step n t l) :=
  h.trans (onlyMemory_putAll ..)

theorem OnlyMemory.putEach {α : Type} {s t : State} {pa : α → Nat} {step n : Nat} {f : α → List (Nat × Nat)} {l : List α}
    (h : OnlyMemory s t) : OnlyMemory s (l.foldl (fun s x => putAll (pa x) step n s (f x)) t) :=
  h.trans (fold_only _ (fun _ _ => onlyMemory_putAll ..) _ _)

theorem onlyMemory_writeFront (pa key : Nat) (b : Bank) (s : State) : OnlyMemory s (writeFront pa key b s) :=
  (OnlyMemory.refl s).put.put.put.put.put.put.put.putEach.put.put.putEach.put.put.putEach.putEach.put.put

/-- A bank's units and engine entries as a save keeps them (R286, R389, R411, R436). -/
def setDown (b : Bank) : Bank :=
  { b.mapEngine (fun e x => x.saved e) with own := none, walk := none, stallS := 0, stallA := 0, stallV := 0 }

/-- A row's context as its save puts it away: released, its entries as they are kept, its tiles in the accumulator image (R245, R268, R436). -/
def putAway (s : State) (row : Nat) : State := saveTiles ((endPhase (releaseAt s row 2) row).modBank row setDown) row

/-- The save area written from a context that has been put away (R438). -/
def areaWritten (s : State) (pa key : Nat) (b : Bank) : State :=
  (writeFront pa key b (zeroMem (zeroMem s pa frontBytes) (pa + scratchOffset) b.decl.dmem)).homeWriteBytes pa
    (b.fault.getD (faultOf 0x20 0)).bytes

/-- The record of the preempted task of a row (R439). -/
def preemptedOf (s : State) (row : Nat) (b : Bank) : Preempted where
  launch := b.launch
  task := (s.row row).task.toNat
  save := (s.row row).save
  halted := (s.row row).halted
  class_ := if b.usedMx then some (kindBit (coreOf row)) else none
  die := if b.usedXg then some (dieOf row) else none
  core := coreOf row
  asid := (s.row row).asid
  gidx := (s.row row).gidx
  gv := (s.row row).gv
  leftAt := (s.row row).leftAt

theorem recorded_setDown (b : Bank) : recorded (setDown b) = recorded b := by
  rw [← recorded_mapEngine (fun e x => x.saved e) b]
  unfold setDown
  generalize b.mapEngine (fun e x => x.saved e) = c
  rfl

theorem saveStep_putAway (s : State) (row : Nat) : SaveStep s (putAway s row) row :=
  (((saveStep_releaseAt s row 2).trans (saveStep_endPhase ..)).trans (saveStep_modBank (recorded_setDown _))).trans
    (saveStep_saveTiles ..)

theorem saveStep_areaWritten (s : State) (row pa key : Nat) (b : Bank) : SaveStep s (areaWritten s pa key b) row :=
  ((saveStep_zeroMem ..).trans (saveStep_zeroMem ..)).trans
    (saveStep_of_onlyMemory ((onlyMemory_writeFront ..).trans (onlyMemory_homeWriteBytes ..)))

theorem contextSave_stays {s : State} {row : Nat} (h : (s.row row).state ≠ .saving ∨ saveReady s (s.bank row) = false) :
    contextSave s row = s := by
  unfold contextSave
  rw [if_pos (by simpa using h)]

/-- What a save that has written its area leaves to do: the context is kept under a key, the bank and the row are freed, the task is recorded,
and the firmware is called (R436, R439). -/
def freed (s u : State) (row key : Nat) (b : Bank) : State :=
  let v := ((renameOwners { u with saves := u.saves.set none key (some b) } row (savedRow key)).setBank row Bank.reset).modRow row fun r =>
    { r with state := .free, halted := false }
  later (refreshMasks { v with preempted := v.preempted ++ [preemptedOf s row b] } (rowGroups (s.row row))) .schedulingPass

theorem contextSave_made {s : State} {row : Nat} (hs : (s.row row).state = .saving) (hr : saveReady s (s.bank row) = true) :
    let q := putAway s row
    let key := q.saves.keys.foldl max 0 + 1
    contextSave s row = freed s (areaWritten q (saveAddr s row) key (q.bank row)) row key (q.bank row) := by
  unfold contextSave
  rw [if_neg (by simp [hs, hr])]
  rfl

theorem freed_eq (s u : State) (row key : Nat) (b : Bank) : ∃ dir gt, freed s u row key b =
    { (u.setBank row Bank.reset).modRow row fun r => { r with state := .free, halted := false } with
      saves := u.saves.set none key (some b), dir := dir, gt := gt, preempted := u.preempted ++ [preemptedOf s row b]
      agenda := u.agenda ++ [.event .schedulingPass] } := by
  unfold freed
  generalize hv : State.modRow _ _ _ = v
  obtain ⟨gt, hg⟩ := refreshMasks_eq (rowGroups (s.row row)) { v with preempted := v.preempted ++ [preemptedOf s row b] }
  refine ⟨v.dir, gt, ?_⟩
  rw [later, hg, ← hv]
  rfl

theorem preemptedOf_recorded {s : State} {row : Nat} {b : Bank} (h : recorded b = recorded (s.bank row)) :
    preemptedOf s row b = preemptedOf s row (s.bank row) := by
  obtain ⟨-, -, hlaunch, hmx, hxg⟩ : _ ∧ _ ∧ _ ∧ _ ∧ _ := by simpa only [recorded, Prod.mk.injEq] using h
  unfold preemptedOf
  rw [hlaunch, hmx, hxg]

section
variable {s u : State} {row key : Nat} {b : Bank} (hu : SaveStep s u row)
include hu

theorem bank_freed (r : Nat) : (freed s u row key b).bank r = if r = row then Bank.reset else s.bank r := by
  obtain ⟨dir, gt, h⟩ := freed_eq s u row key b
  rw [h]
  refine (bank_setBank u row r Bank.reset).trans ?_
  by_cases hrow : r = row
  · rw [if_pos hrow.symm, if_pos hrow]
  · rw [if_neg (Ne.symm hrow), if_neg hrow, hu.others r hrow]

theorem row_freed (r : Nat) :
    (freed s u row key b).row r = if r = row then { s.row row with state := .free, halted := false } else s.row r := by
  obtain ⟨dir, gt, h⟩ := freed_eq s u row key b
  rw [h]
  refine (row_modRow (u.setBank row Bank.reset) row r fun x => { x with state := .free, halted := false }).trans ?_
  simp only [row_setBank, hu.row, eq_comm (a := row)]

theorem freed_rest (hb : recorded b = recorded (s.bank row)) : let t := freed s u row key b
    t.core = s.core ∧ t.launches = s.launches ∧ t.agenda = s.agenda ++ [.event .schedulingPass] ∧
      t.preempted = s.preempted ++ [preemptedOf s row (s.bank row)] ∧ t.saves = s.saves.set none key (some b) := by
  obtain ⟨dir, gt, h⟩ := freed_eq s u row key b
  rw [h, preemptedOf_recorded hb, hu.rest]
  exact ⟨rfl, rfl, rfl, rfl, rfl⟩

end

/-- Settles O48: each clause from the equation of its OP, of the save or of the selection. -/
theorem contexts : Obligations.Contexts := by
  unfold Obligations.Contexts
  refine ⟨fun s row h => ⟨_, congrArg Host.Outcome.next (bindOp_refused h), onlyRow_modRow ..⟩, fun _ _ => rfl,
    ?_, ?_, ?_, ?_, ?_, ?_⟩
  · intro s row l ha hr hl h
    have hb := (bank_bindOp_entry ha hr hl row).trans (if_pos rfl)
    have hregs := registers_entryBank (accepts s row) l (s.row row).task.toNat
    have hzero := zeros_entryBank (accepts s row) l (s.row row).task.toNat
    have hqueues := queues_entryBank (accepts s row) l (s.row row).task.toNat
    have hfetch := fetch_entryBank (accepts s row) l (s.row row).task.toNat
    generalize entryBank (accepts s row) l (s.row row).task.toNat = m at hb hregs hzero hqueues hfetch
    obtain ⟨hsreg, hareg, hvreg, hcreg, hones, hmreg⟩ := hregs
    obtain ⟨hrb, hvmode, htcc, hscratch, hacc⟩ := hzero
    obtain ⟨hword, hload, hstore, hqueue, hcmd⟩ := hqueues
    obtain ⟨hdecl, hentry, hnext⟩ := hfetch
    obtain ⟨i, f, he, hinfo, hentry', hnext', hready⟩ := enters_eq s (taskInfo (s.row row)) m
    refine ⟨bindOp s row, rfl, bindOp_entry_rest ha hr hl, fun r hne => (bank_bindOp_entry ha hr hl r).trans (if_neg hne),
      row_bindOp_entry ha hr hl, ?_⟩
    rw [hb, he]
    exact ⟨hsreg, hareg, hvreg, hcreg, hones, hmreg, hrb, hvmode, htcc, hscratch, hacc, hword, hload, hstore, hqueue, hcmd, hdecl, hinfo,
      hentry'.trans hentry, hnext'.trans hnext, hready⟩
  · intro s row key b ha hr hh hk hs hc hf at_
    have hb := (bank_bindOp_resumed ha hr hk hs hc hf row).trans (if_pos rfl)
    obtain ⟨hrows, hstate⟩ := row_bindOp_resumed ha hr hk hs hc hf
    have hregs := registers_restored s row b
    have hctl := controls_restored s row b
    have hkept := kept_restored s row b
    generalize restored s row b = c at hb hregs hctl hkept
    obtain ⟨hsreg, hareg, hvreg, hmreg⟩ := hregs
    obtain ⟨hnext, htcc, hvmode, htrapvec, htrapcause, htrapret⟩ : _ ∧ _ ∧ _ ∧ _ ∧ _ ∧ _ := by
      simpa only [controls, List.map, List.cons.injEq, and_true] using hctl
    obtain ⟨-, -, hdecl, hlaunch, hqueue, hflight, heng⟩ := hkept
    obtain ⟨i, f, he, hinfo, hentry', hnext', hready⟩ := enters_eq s (taskInfo (s.row row)) c
    refine ⟨bindOp s row, rfl, mem_bindOp_resumed ha hr hk hs hc hf,
      fun r hne => ⟨(bank_bindOp_resumed ha hr hk hs hc hf r).trans (if_neg hne), hrows r hne⟩, hstate hh, ?_⟩
    rw [hb, he]
    exact ⟨hsreg, hareg, hvreg, hmreg, htcc, hvmode, htrapvec, htrapcause, htrapret, hnext'.trans hnext, hqueue, hflight, heng, hdecl,
      hinfo, hlaunch⟩
  · intro s row
    exact ⟨fun hf hs hp => ⟨_, rfl, onlyTask_preemptOp hf hs hp⟩,
      fun h => ⟨_, congrArg Host.Outcome.next (preemptOp_refused h), onlyRow_modRow ..⟩⟩
  · intro s row o
    exact ⟨fun hb hr hp => ⟨_, rfl, switchOp_frame hb hr hp⟩,
      fun h => ⟨_, congrArg Host.Outcome.next (switchOp_refused h), onlyRow_modRow ..⟩⟩
  · intro s row
    refine ⟨fun h => congrArg Host.Outcome.next (contextSave_stays h), fun hs hr => ?_⟩
    have hq := saveStep_putAway s row
    have hu := hq.trans (saveStep_areaWritten (putAway s row) row (saveAddr s row) ((putAway s row).saves.keys.foldl max 0 + 1)
      ((putAway s row).bank row))
    obtain ⟨hcore, hlaunches, hagenda, hpre, hsaves⟩ := freed_rest hu hq.own
    exact ⟨_, congrArg Host.Outcome.next (contextSave_made hs hr), bank_freed hu, row_freed hu, hcore, hlaunches, hagenda, hpre,
      _, _, hsaves, fault_of_recorded hq.own, sreg_of_recorded hq.own⟩
  · intro s core a b
    refine ⟨fun h => congrArg Host.Outcome.next (bankSwitch_stays (h.imp_right fun h => nextBank_none h.1 h.2)), fun hi bank h => ?_⟩
    exact ⟨_, rfl, bankSwitch_frame hi (nextBank_some h) (by cases bank <;> exact h.1)⟩

end Sys2Proof
end

section
/-! The scheduling pass of the firmware, its parts and its helpers (R35, R42, R45, R58, R60, R61, R465). -/

namespace Sys2Proof

open Machine

/-! ### Folds over tables -/

theorem foldl_fixed {α β : Type} {f : β → α → β} {s : β} {l : List α} (h : ∀ a ∈ l, f s a = s) : l.foldl f s = s := by
  induction l with
  | nil => rfl
  | cons a r ih => rw [List.foldl_cons, h a (by simp), ih fun b hb => h b (by simp [hb])]

/-- A fold in which one element acts, and the others change neither what is there before nor what is there after. -/
theorem foldl_single {α β : Type} {f : β → α → β} {s t : β} {l : List α} {k : α} (hk : k ∈ l) (hl : l.Nodup)
    (hs : ∀ a ∈ l, a ≠ k → f s a = s) (hf : f s k = t) (ht : ∀ a ∈ l, a ≠ k → f t a = t) : l.foldl f s = t := by
  obtain ⟨p, q, rfl⟩ := List.append_of_mem hk
  have hp : k ∉ p := fun h => (List.nodup_append.mp hl).2.2 k h k (by simp) rfl
  have hq : k ∉ q := (List.nodup_cons.mp (List.nodup_append.mp hl).2.1).1
  rw [List.foldl_append, foldl_fixed fun a ha => hs a (by simp [ha]) (ne_of_mem_of_not_mem ha hp), List.foldl_cons, hf,
    foldl_fixed fun a ha => ht a (by simp [ha]) (ne_of_mem_of_not_mem ha hq)]

/-! ### Writes of a launch queue -/

theorem store_insert_insert {α : Type} (m : Store α) (k : Nat) (v w : α) :
    Store.insert (Store.insert m k v) k w = Store.insert m k w := by
  induction m with
  | nil => simp [Store.insert]
  | cons e r ih =>
    obtain ⟨j, x⟩ := e
    obtain h | rfl | h := lt_trichotomy k j
    · simp [Store.insert, h]
    · simp [Store.insert]
    · simp [Store.insert, h.not_gt, h.ne, ih]

theorem ne_reset_of_enabled {q : LaunchQueue} (h : q.en = true) : q ≠ LaunchQueue.reset := by
  rintro rfl
  exact absurd h (by decide)

/-- Of two writes of an enabled queue the second stands. -/
theorem setQueue_setQueue (s : State) (k : Nat) {p q : LaunchQueue} (hp : p.en = true) (hq : q.en = true) :
    (s.setQueue k p).setQueue k q = s.setQueue k q := by
  simp only [State.setQueue, Store.set, if_neg (ne_reset_of_enabled hp), if_neg (ne_reset_of_enabled hq), store_insert_insert]

/-! ### Dependence checks (R35, R42) -/

/-- The dependence entries of a record but its first are unused (R35). -/
def UsesFirst (rcd : List Byte) : Prop := ∀ j, 1 ≤ j → j < 4 → field rcd (0x30 + 16 * j) 8 = 0

theorem enabled_of_hasHead {s : State} {k : Nat} (h : hasHead s k = true) : (s.queue k).en = true := (Bool.and_eq_true_iff.mp h).1

theorem hasHead_setQueue_other (s : State) {k j : Nat} (q : LaunchQueue) (h : j ≠ k) : hasHead (s.setQueue k q) j = hasHead s j := by
  simp [hasHead, Ne.symm h]

theorem checkHead_noHead {s : State} {k : Nat} (h : hasHead s k = false) : checkHead s k = s := by simp [checkHead, h]

theorem dependenceCheck_noHead {s : State} (h : ∀ k < 16, hasHead s k = false) : dependenceCheck s = s :=
  foldl_fixed fun k hk => checkHead_noHead (h k (List.mem_range.mp hk))

/-- Where one queue has a head launch, a check changes what its examination changes. -/
theorem dependenceCheck_single {s t : State} {k : Nat} (hk : k < 16) (h : ∀ j < 16, hasHead s j = decide (j = k))
    (hc : checkHead s k = t) (ht : ∀ j, j ≠ k → hasHead t j = hasHead s j) : dependenceCheck s = t := by
  have headless (j : Nat) (hj : j ∈ List.range 16) (hne : j ≠ k) : hasHead s j = false := by
    rw [h j (List.mem_range.mp hj)]; exact decide_eq_false hne
  exact foldl_single (List.mem_range.mpr hk) List.nodup_range (fun j hj hne => checkHead_noHead (headless j hj hne)) hc
    fun j hj hne => checkHead_noHead ((ht j hne).trans (headless j hj hne))

section
variable {s t u : State} {k j : Nat} {asid : Asid} {rcd : List Byte}

theorem checkDep_unused (h : field rcd (0x30 + 16 * j) 8 = 0) : checkDep k asid rcd s j = s := by simp [checkDep, h]

theorem checkDep_unreadable (h : field rcd (0x30 + 16 * j) 8 ≠ 0) (hm : (s.queue k).met.getLsbD j = false)
    (hr : fwRead s asid (field rcd (0x30 + 16 * j) 8) 8 = (t, none)) :
    checkDep k asid rcd s j = t.setQueue k { s.queue k with hopeless := true } := by
  simp [checkDep, h, hm, hr]

theorem checkDep_read {bytes : List Byte} (h : field rcd (0x30 + 16 * j) 8 ≠ 0) (hm : (s.queue k).met.getLsbD j = false)
    (hr : fwRead s asid (field rcd (0x30 + 16 * j) 8) 8 = (t, some bytes)) :
    checkDep k asid rcd s j = if field rcd (0x38 + 16 * j) 8 ≤ ofBytes bytes then
      t.setQueue k { s.queue k with met := (s.queue k).met ||| .ofNat 4 (2 ^ j) } else t := by
  simp [checkDep, h, hm, hr]

/-- Of a record that uses its first entry at most, only that one is examined. -/
theorem checkDeps_first (h : UsesFirst rcd) :
    (List.range 4).foldl (checkDep k asid rcd) s = checkDep k asid rcd s 0 := by
  refine foldl_fixed (l := [1, 2, 3]) fun j hj => checkDep_unused (h j ?_ ?_) <;> grind

theorem depsMet_first (h : UsesFirst rcd) (q : LaunchQueue) :
    depsMet q rcd = (decide (field rcd 0x30 8 = 0) || q.met.getLsbD 0) := by
  have h1 := h 1 (by decide) (by decide)
  have h2 := h 2 (by decide) (by decide)
  have h3 := h 3 (by decide) (by decide)
  show List.all [0, 1, 2, 3] _ = _
  simp [h1, h2, h3]

section
variable (hh : hasHead s k = true) (hp : (s.queue k).hopeless = false)
  (hu : (List.range 4).foldl (checkDep k (.ofNat 12 (field (headRecord s k) 6 2)) (headRecord s k)) s = u)
include hh hp hu

/-- An examined head launch becomes eligible in this check. -/
theorem checkHead_eligible (hm : (u.queue k).hopeless = true ∨ depsMet (u.queue k) (headRecord s k) = true)
    (he : (u.queue k).eligible = none) : checkHead s k = u.setQueue k { u.queue k with eligible := some u.dt.toNat } := by
  simp [checkHead, hh, hp, hu, hm, he]

/-- The same where the examination has changed the queue only. -/
theorem checkHead_settles {p : LaunchQueue} (hs : u = s.setQueue k p) (hen : p.en = true)
    (hm : p.hopeless = true ∨ depsMet p (headRecord s k) = true) (he : p.eligible = none) :
    checkHead s k = s.setQueue k { p with eligible := some s.dt.toNat } := by
  have hq : u.queue k = p := by simp [hs]
  have ht : u.dt = s.dt := by rw [hs]; rfl
  rw [checkHead_eligible hh hp hu (by rwa [hq]) (by rw [hq, he]), hq, ht, hs]
  exact setQueue_setQueue s k hen hen

/-- An examined head launch goes on waiting for a counter. -/
theorem checkHead_waits (hn : (u.queue k).hopeless = false) (hm : depsMet (u.queue k) (headRecord s k) = false)
    (he : (u.queue k).eligible = none) : checkHead s k = u := by
  simp [checkHead, hh, hp, hu, hn, hm, he]

end
end

section
variable {s : State} {k : Nat} (hk : k < 16) (hh : ∀ j < 16, hasHead s j = decide (j = k)) (hp : (s.queue k).hopeless = false)
  (he : (s.queue k).eligible = none) (hu : UsesFirst (headRecord s k))
include hk hh hp he hu

theorem dependenceCheck_free (h0 : field (headRecord s k) 0x30 8 = 0) :
    dependenceCheck s = s.setQueue k { s.queue k with eligible := some s.dt.toNat } := by
  refine dependenceCheck_single hk hh ?_ fun j => hasHead_setQueue_other s _
  have hd := checkDep_unused (s := s) (k := k) (asid := .ofNat 12 (field (headRecord s k) 6 2)) (j := 0) h0
  exact checkHead_eligible (by simp [hh k hk]) hp ((checkDeps_first hu).trans hd) (.inr (by simp [depsMet_first hu, h0])) he

variable (h0 : field (headRecord s k) 0x30 8 ≠ 0) (hm : (s.queue k).met = 0)
include h0 hm

theorem dependenceCheck_unreadable
    (hr : fwRead s (.ofNat 12 (field (headRecord s k) 6 2)) (field (headRecord s k) 0x30 8) 8 = (s, none)) :
    dependenceCheck s = s.setQueue k { s.queue k with hopeless := true, eligible := some s.dt.toNat } := by
  have head : hasHead s k = true := by simp [hh k hk]
  have hd := checkDep_unreadable (k := k) (j := 0) h0 (by simp [hm]) hr
  exact dependenceCheck_single hk hh (checkHead_settles head hp (checkDeps_first hu) hd (enabled_of_hasHead head) (.inl rfl) he)
    fun j => hasHead_setQueue_other s _

theorem dependenceCheck_read {bytes : List Byte}
    (hr : fwRead s (.ofNat 12 (field (headRecord s k) 6 2)) (field (headRecord s k) 0x30 8) 8 = (s, some bytes)) :
    dependenceCheck s = if field (headRecord s k) 0x38 8 ≤ ofBytes bytes then
      s.setQueue k { s.queue k with met := 1, eligible := some s.dt.toNat } else s := by
  have head : hasHead s k = true := by simp [hh k hk]
  have hd := checkDep_read (k := k) (j := 0) h0 (by simp [hm]) hr
  split
  case isTrue hle =>
    rw [if_pos hle, hm] at hd
    exact dependenceCheck_single hk hh (checkHead_settles head hp (checkDeps_first hu) hd (enabled_of_hasHead head)
      (.inr (by simp [depsMet_first hu])) he) fun j => hasHead_setQueue_other s _
  case isFalse hlt =>
    rw [if_neg hlt] at hd
    exact dependenceCheck_single hk hh (checkHead_waits head hp ((checkDeps_first hu).trans hd) hp
      (by simp [depsMet_first hu, h0, hm]) he) fun _ _ => rfl

end

/-! ### A pass (R60, R465) -/

theorem schedulingPass_notReady {s : State} (h : s.devstat.ready = false) : schedulingPass s = s := by simp [schedulingPass, h]

/-- A pass from READY on, step by step. -/
theorem schedulingPass_ready {s : State} (h : s.devstat.ready = true) :
    let s1 := thawImages (dependenceCheck { s with passAt := s.dt.toNat + 9999 })
    let s2 := (shareEnds s1).preempted.foldl answerSaved (shareEnds s1)
    let s3 := if noneUsable s2 then selectFirst (selectionOrder s2) s2 else s2
    schedulingPass s = fairness (serveAll (waitingLaunches s3) 0 s3) := by
  simp [schedulingPass, h]

theorem mem_selectionOrder (s : State) (k : Nat) :
    k ∈ selectionOrder s ↔ k < 16 ∧ hasHead s k = true ∧ (s.queue k).eligible ≠ none := by
  simp [selectionOrder, List.mem_mergeSort, Option.isSome_iff_ne_none]

theorem waitingLaunches_nil {s : State} (h : s.launches = []) : waitingLaunches s = [] := by simp [waitingLaunches, h]

theorem fairness_noneBound {s : State} (h : ∀ row < 72, (s.row row).state ≠ .bound) : fairness s = s :=
  foldl_fixed fun row hr => by simp [h row (List.mem_range.mp hr)]

/-- A pass that finds nothing to do sets the time of the next. -/
theorem schedulingPass_idle {s : State} (hq : ∀ k < 16, hasHead s k = false) (hr : s.devstat.ready = true) (hl : s.launches = [])
    (hi : s.images = []) (hp : s.preempted = []) (hb : ∀ row < 72, (s.row row).state ≠ .bound) :
    schedulingPass s = { s with passAt := s.dt.toNat + 9999 } := by
  rw [schedulingPass_ready hr]
  generalize hu : { s with passAt := s.dt.toNat + 9999 } = u
  have hu_launches : u.launches = [] := by rw [← hu]; exact hl
  have hu_images : u.images = [] := by rw [← hu]; exact hi
  have hu_preempted : u.preempted = [] := by rw [← hu]; exact hp
  have hu_heads : ∀ k < 16, hasHead u k = false := by rw [← hu]; exact hq
  have hu_rows : ∀ row < 72, (u.row row).state ≠ .bound := by rw [← hu]; exact hb
  have check : dependenceCheck u = u := dependenceCheck_noHead hu_heads
  have thaw : thawImages u = u := by rw [thawImages, hu_images]; rfl
  have ends : shareEnds u = u := by rw [shareEnds, hu_launches]; rfl
  have order : selectionOrder u = [] := List.eq_nil_iff_forall_not_mem.mpr fun k hk => by
    obtain ⟨hlt, hhead, -⟩ := (mem_selectionOrder u k).mp hk
    simp [hu_heads k hlt] at hhead
  simp only [check, thaw, ends, hu_preempted, List.foldl_nil, order, selectFirst, ite_self, waitingLaunches_nil hu_launches, serveAll]
  exact fairness_noneBound hu_rows

/-! ### Order of selection and of pre-emption (R60 steps 2 and 5) -/

/-- A sort by one key, and by a second among equals of the first. -/
theorem pairwise_mergeSort_keys {ι α β : Type} [LinearOrder α] [LinearOrder β] {le : ι → ι → Bool} {f : ι → α} {g : ι → β}
    (h : ∀ a b, le a b = true ↔ f a < f b ∨ (f a = f b ∧ g a ≤ g b)) (l : List ι) :
    (l.mergeSort le).Pairwise fun a b => f a < f b ∨ (f a = f b ∧ g a ≤ g b) := by
  have key (a b : ι) : le a b = true ↔ toLex (f a, g a) ≤ toLex (f b, g b) := by rw [h, Prod.Lex.toLex_le_toLex]
  refine (List.pairwise_mergeSort (fun a b c hab hbc => ?_) (fun a b => ?_) l).imp fun hab => (h _ _).mp hab
  · rw [key] at *; exact hab.trans hbc
  · rw [Bool.or_eq_true, key, key]; exact le_total _ _

theorem pairwise_selectionOrder (s : State) : (selectionOrder s).Pairwise fun a b =>
    let p := fun k => effectivePrio s (s.queue k)
    let turn := fun k => (k + 15 - (s.rrQueue.get 15 (p k)).toNat) % 16
    p b < p a ∨ (p a = p b ∧ turn a ≤ turn b) := by
  refine pairwise_mergeSort_keys (f := fun k => OrderDual.toDual (effectivePrio s (s.queue k)))
    (g := fun k => (k + 15 - (s.rrQueue.get 15 (effectivePrio s (s.queue k))).toNat) % 16) (fun a b => ?_) _
  simp [OrderDual.toDual_lt_toDual]

theorem pairwise_candidates (s : State) (prio : BitVec 3) : (candidates s prio).Pairwise fun a b =>
    (s.row a).prio.toNat < (s.row b).prio.toNat ∨ ((s.row a).prio = (s.row b).prio ∧ (s.row b).bindAt ≤ (s.row a).bindAt) := by
  have h := pairwise_mergeSort_keys (f := fun r => (s.row r).prio.toNat) (g := fun r => OrderDual.toDual (s.row r).bindAt)
    (le := fun a b => decide ((s.row a).prio.toNat < (s.row b).prio.toNat) ||
      (decide ((s.row a).prio = (s.row b).prio) && decide ((s.row b).bindAt ≤ (s.row a).bindAt)))
    (fun a b => by simp [BitVec.toNat_inj]) ((List.range 72).filter (mayPreempt s prio))
  exact h.imp fun hab => hab.imp_right fun ⟨hprio, hlast⟩ => ⟨BitVec.eq_of_toNat_eq hprio, hlast⟩

theorem effectivePrio_eligible {s : State} {q : LaunchQueue} {t : Nat} (h : q.eligible = some t) :
    effectivePrio s q = min 7 (q.prio.toNat + (s.dt.toNat - t) / 2000000) := by simp [effectivePrio, h]

theorem mayPreempt_facts {s : State} {prio : BitVec 3} {row : Nat} (h : mayPreempt s prio row = true) :
    (s.row row).pinned = false ∧ (s.row row).prio.toNat < prio.toNat ∧ (s.row row).state ≠ .free ∧ (s.row row).state ≠ .saving ∧
      (s.bank row).dying = none := by
  unfold mayPreempt at h
  cases hs : (s.row row).state <;> simp_all

/-! ### Placement (R60 steps 3 and 4) -/

/-- A row takes its place in a room unless it is free or counts as free. -/
def occupyRow (s : State) (free : List Nat) (r : Room) (row : Nat) : Room :=
  if (s.row row).state = .free ∨ free.contains row then r else r.take row (s.row row).pinned (s.bank row).decl.dmem

theorem roomOf_eq (s : State) (free : List Nat) : roomOf s free = (List.range 72).foldl (occupyRow s free) ⟨[], [], []⟩ := rfl

theorem mem_taken_occupy (s : State) (row : Nat) (l : List Nat) : ∀ r : Room,
    row ∈ (l.foldl (occupyRow s []) r).taken ↔ row ∈ r.taken ∨ (row ∈ l ∧ (s.row row).state ≠ .free) := by
  induction l with
  | nil => simp
  | cons a l ih =>
    intro r
    rw [List.foldl_cons, ih]
    by_cases ha : (s.row a).state = .free
    · have : occupyRow s [] r a = r := by simp [occupyRow, ha]
      rw [this]; grind
    · have : (occupyRow s [] r a).taken = a :: r.taken := by simp [occupyRow, ha, Room.take]
      rw [this]; grind

theorem free_of_not_taken {s : State} {row : Nat} (h : row ∉ (roomOf s []).taken) (hr : row < 72) : (s.row row).state = .free := by
  rw [roomOf_eq, mem_taken_occupy] at h
  simpa [hr] using h

theorem mem_rowOrder {row : Nat} (h : row ∈ rowOrder) : row < 72 := by
  simp [rowOrder] at h
  omega

theorem fits_facts {s : State} {r : Room} {l : Launch} {p : Option Preempted} {row : Nat} (h : fits s r l p row = true) :
    row ∉ r.taken ∧ coreFits l.class_ l.engmask (coreOf row) = true := by
  simp only [fits, Bool.and_eq_true] at h
  obtain ⟨⟨⟨⟨⟨hfree, -⟩, -⟩, hcore⟩, -⟩, -⟩ := h
  exact ⟨by simpa using hfree, hcore⟩

section
variable (s : State) (l : Launch)

/-- Tasks are placed in order, up to the first without a place. -/
theorem placeTasks_prefix : ∀ (ts : List Pending) (r : Room), (placeTasks s l ts r).map Prod.fst <+: ts
  | [], r => List.prefix_rfl
  | t :: rest, r => by
    unfold placeTasks
    split
    · exact List.nil_prefix
    · exact List.cons_prefix_cons.mpr ⟨rfl, placeTasks_prefix rest _⟩

theorem placeTasks_row : ∀ (ts : List Pending) (r : Room), ∀ p ∈ placeTasks s l ts r,
    p.2 < 72 ∧ p.2 ∉ r.taken ∧ coreFits l.class_ l.engmask (coreOf p.2) = true
  | [], r, p, hp => absurd hp List.not_mem_nil
  | t :: rest, r, p, hp => by
    unfold placeTasks at hp
    split at hp
    · exact absurd hp List.not_mem_nil
    next row hrow =>
      obtain rfl | hp := List.mem_cons.mp hp
      · obtain ⟨hfree, hcore⟩ := fits_facts (List.find?_some hrow)
        exact ⟨mem_rowOrder (List.mem_of_find?_eq_some hrow), hfree, hcore⟩
      · obtain ⟨hlt, hfree, hcore⟩ := placeTasks_row rest _ p hp
        exact ⟨hlt, fun h => hfree (List.mem_cons_of_mem _ h), hcore⟩

theorem placeTasks_nodup : ∀ (ts : List Pending) (r : Room), ((placeTasks s l ts r).map Prod.snd).Nodup
  | [], r => List.nodup_nil
  | t :: rest, r => by
    unfold placeTasks
    split
    · exact List.nodup_nil
    next row hrow =>
      refine List.nodup_cons.mpr ⟨fun h => ?_, placeTasks_nodup rest _⟩
      obtain ⟨p, hp, rfl⟩ := List.mem_map.mp h
      exact (placeTasks_row s l rest _ p hp).2.1 List.mem_cons_self

/-- A launch gets no place, or those of its tasks in order; a gang only all of them, and none of them is being saved. -/
theorem placement_cases (free : List Nat) : placement s l free = [] ∨
    (placement s l free = placeTasks s l (pendingTasks s l) (roomOf s free) ∧
      (l.gang = true → (placement s l free).length = (pendingTasks s l).length ∧ saving s l = false)) := by
  unfold placement
  dsimp only
  split
  · exact .inl rfl
  · refine .inr ⟨rfl, fun hg => ?_⟩
    simp_all

theorem placement_prefix : (placement s l []).map Prod.fst <+: pendingTasks s l := by
  obtain h | ⟨h, -⟩ := placement_cases s l []
  · rw [h]; exact List.nil_prefix
  · rw [h]; exact placeTasks_prefix ..

theorem placement_gang (hg : l.gang = true) : placement s l [] = [] ∨
    ((placement s l []).map Prod.fst = pendingTasks s l ∧ saving s l = false) := by
  refine (placement_cases s l []).imp_right fun ⟨_, h⟩ => ?_
  obtain ⟨hlen, hsave⟩ := h hg
  exact ⟨(placement_prefix s l).eq_of_length (by simpa using hlen), hsave⟩

theorem placement_nodup : ((placement s l []).map Prod.snd).Nodup := by
  obtain h | ⟨h, -⟩ := placement_cases s l []
  · rw [h]; exact List.nodup_nil
  · rw [h]; exact placeTasks_nodup ..

theorem placement_row {p : Pending × Nat} (hp : p ∈ placement s l []) :
    p.2 < 72 ∧ (s.row p.2).state = .free ∧ coreFits l.class_ l.engmask (coreOf p.2) = true := by
  obtain h | ⟨h, -⟩ := placement_cases s l []
  · rw [h] at hp; exact absurd hp List.not_mem_nil
  · rw [h] at hp
    obtain ⟨hlt, hfree, hcore⟩ := placeTasks_row s l _ _ p hp
    exact ⟨hlt, free_of_not_taken hfree hlt, hcore⟩

end

/-! ### A member without a bank (R58) -/

theorem gangMissing_iff (s : State) (g : Nat) : gangMissing s g = true ↔ (s.group g).valid = true ∧ (s.group g).gang = false ∧
    (s.group g).arrived ≠ 0 ∧ 1000000 ≤ s.dt.toNat - (s.group g).since ∧ unboundSince s g (s.group g).since = true := by
  simp [gangMissing, and_assoc]

theorem gangRequired_complete {s : State} {g : Nat} (h : gangMissing s g = false) : gangRequired s g = s := by simp [gangRequired, h]

theorem fault_withdraw (s : State) (row : Nat) : ((withdraw s row).bank row).fault = (s.bank row).fault := by
  unfold withdraw
  dsimp only
  split
  · split
    · simp
    · rfl
  · rfl

/-- A member that runs, or is being saved, takes cause 0x15 at its PHASE once its arrival is withdrawn. -/
theorem requireRow_takes {s : State} {row : Nat} (hf : (s.bank row).fault = none)
    (hs : (s.row row).state = .running ∨ (s.row row).state = .saving) :
    let w : State := { withdraw s row with cur := row }
    requireRow s row = takeFault w row .S (atHead (w.bank row) .S (faultOf 0x15 0)) := by
  intro w
  have hw : (w.bank row).fault = none := (fault_withdraw s row).trans hf
  have hu : unitFault w .S (faultOf 0x15 0) = takeFault w row .S (atHead (w.bank row) .S (faultOf 0x15 0)) := by
    simp only [unitFault]
    exact if_neg (by simp [show w.cur = row from rfl, hw])
  rw [← hu]
  exact if_neg (by obtain h | h := hs <;> simp [hf, h])

theorem gangRequired_single {s : State} {g row : Nat} (hm : gangMissing s g = true) (hw : waitersOf s g = [row]) (hp : s.preempted = []) :
    gangRequired s g = requireRow s row := by simp [gangRequired, hm, hw, hp]

/-! ### Split gangs (R45) -/

theorem putLaunch_putLaunch (s : State) {l m : Launch} (h : m.id = l.id) : putLaunch (putLaunch s l) m = putLaunch s m := by
  simp only [putLaunch, List.map_map]
  congr 1
  refine List.map_congr_left fun x _ => ?_
  by_cases hx : x.id = l.id <;> simp [hx, h]

section
variable {s : State}

theorem splitGangTick_unknown (tick : W64) (h : (s.launches.find? fun l => l.split && l.remote && l.tick.isNone) = none) :
    splitGangTick s tick = { s with splitTick := some tick } := by simp [splitGangTick, h]

theorem splitGangTick_known {l : Launch} (tick : W64) (h : (s.launches.find? fun l => l.split && l.remote && l.tick.isNone) = some l) :
    splitGangTick s tick = putLaunch s { l with tick := some tick } := by simp [splitGangTick, h]

theorem splitShareBound_none (h : (s.launches.find? fun l => l.split && !l.remote && !l.peer) = none) : splitShareBound s = s := by
  simp [splitShareBound, h]

variable {l : Launch} (h : (s.launches.find? fun l => l.split && !l.remote && !l.peer) = some l)
include h

theorem splitShareBound_pending (hp : pendingTasks s l ≠ []) : splitShareBound s = putLaunch s { l with peer := true } := by
  simp [splitShareBound, h, hp]

theorem splitShareBound_bound (hp : pendingTasks s l = []) : splitShareBound s =
    { putLaunch s { l with peer := true, started := true, tick := some (s.dt + 50000) } with
      sideOut := s.sideOut ++ [.tick (s.dt + 50000)] } := by
  have hs : splitShareBound s = nameTick (putLaunch s { l with peer := true }) { l with peer := true } := by simp [splitShareBound, h, hp]
  rw [hs, nameTick, putLaunch_putLaunch]
  · rfl
  · rfl

end

/-! ### The tick of a split gang (R45, R52) -/

/-- A bank that may fetch from a cycle on. -/
def fetchesFrom (c : Nat) (b : Bank) : Bank := { b with fetch := { b.fetch with ready := max b.fetch.ready c } }

theorem row_makeBoundAt (c : Nat) (s : State) (row r : Nat) :
    (makeBoundAt c s row).row r = if r = row then boundAgain s (s.row row) else s.row r := by
  simp only [makeBoundAt, row_modBank, row_modRow, eq_comm (a := row)]
  rfl

theorem bank_makeBoundAt (c : Nat) (s : State) (row r : Nat) :
    (makeBoundAt c s row).bank r = if r = row then fetchesFrom c (s.bank row) else s.bank r := by
  simp only [makeBoundAt, bank_modBank, bank_modRow, eq_comm (a := row)]
  rfl

/-- Rows made bound one after another: each once, and nothing else. -/
theorem makeBoundAll (c : Nat) : ∀ (l : List Nat) (s : State), l.Nodup → let u := l.foldl (makeBoundAt c) s
    u = { s with tt := u.tt, banks := u.banks } ∧ ∀ r, u.row r = (if r ∈ l then boundAgain s (s.row r) else s.row r) ∧
      u.bank r = if r ∈ l then fetchesFrom c (s.bank r) else s.bank r
  | [], s, _ => ⟨rfl, fun r => by simp⟩
  | a :: l, s, hl => by
    obtain ⟨ha, hl⟩ := List.nodup_cons.mp hl
    obtain ⟨hrest, hrows⟩ := makeBoundAll c l (makeBoundAt c s a) hl
    refine ⟨hrest, fun r => ?_⟩
    obtain ⟨hrow, hbank⟩ := hrows r
    rw [List.foldl_cons, hrow, hbank, row_makeBoundAt, bank_makeBoundAt]
    by_cases h : r = a
    · subst h; simp [ha]
    · simp only [List.mem_cons, h, false_or]
      exact ⟨rfl, rfl⟩

theorem startsNow_iff (s : State) (row : Nat) : startsNow s row = true ↔
    (s.row row).state = .waiting ∧ (s.row row).hold = true ∧ (s.bank row).fault = none ∧
      ∃ t, tickOf s row = some t ∧ t.toNat ≤ s.dt.toNat := by
  simp [startsNow, heldForTick, ticked, Option.any_eq_true, and_assoc]

theorem splitGangStart_spec (s : State) : let u := splitGangStart s
    u = { s with tt := u.tt, banks := u.banks } ∧ ∀ row < 72,
      (startsNow s row = true → u.row row = boundAgain s (s.row row) ∧ u.bank row = fetchesFrom s.cycle (s.bank row)) ∧
      (startsNow s row = false → u.row row = s.row row ∧ u.bank row = s.bank row) := by
  obtain ⟨hrest, hrows⟩ := makeBoundAll s.cycle ((List.range 72).filter (startsNow s)) s (List.nodup_range.filter _)
  refine ⟨hrest, fun row hr => ?_⟩
  have hmem : row ∈ (List.range 72).filter (startsNow s) ↔ startsNow s row = true := by simp [hr]
  obtain ⟨hrow, hbank⟩ := hrows row
  simp only [hmem] at hrow hbank
  exact ⟨fun h => ⟨hrow.trans (if_pos h), hbank.trans (if_pos h)⟩,
    fun h => ⟨hrow.trans (if_neg (by simp [h])), hbank.trans (if_neg (by simp [h]))⟩⟩

/-- Settles O56: each clause from the equation of the pass, of the check or of the event that it speaks of. -/
theorem scheduling : Obligations.Scheduling := by
  unfold Obligations.Scheduling
  refine ⟨fun s => ⟨fun h => congrArg Host.Outcome.next (schedulingPass_notReady h),
      fun h => congrArg Host.Outcome.next (schedulingPass_ready h)⟩,
    fun s hq => ⟨congrArg Host.Outcome.next (dependenceCheck_noHead hq),
      fun hr hl hi hp hb => congrArg Host.Outcome.next (schedulingPass_idle hq hr hl hi hp hb)⟩,
    ?_, fun s => ⟨mem_selectionOrder s, pairwise_selectionOrder s⟩, fun s q t => effectivePrio_eligible,
    fun s l => ⟨placement_prefix s l, placement_gang s l, placement_nodup s l, fun p => placement_row s l⟩,
    fun s prio row => mayPreempt_facts, pairwise_candidates, ?_, ?_, ?_, ?_⟩
  · intro s k hk hh q rcd obj hp he hm h1 h2 h3
    have hu : UsesFirst (headRecord s k) := fun j hj hlt => by
      interval_cases j
      exacts [h1, h2, h3]
    exact ⟨fun h0 => congrArg Host.Outcome.next (dependenceCheck_free hk hh hp he hu h0),
      fun h0 => ⟨fun hr => congrArg Host.Outcome.next (dependenceCheck_unreadable hk hh hp he hu h0 hm hr),
        fun bytes hr => congrArg Host.Outcome.next (dependenceCheck_read hk hh hp he hu h0 hm hr)⟩⟩
  · exact fun s g => ⟨gangMissing_iff s g, fun h => congrArg Host.Outcome.next (gangRequired_complete h),
      fun row hm hw hf hp hs => congrArg Host.Outcome.next ((gangRequired_single hm hw hp).trans (requireRow_takes hf hs))⟩
  · exact fun s tick => ⟨fun h => congrArg Host.Outcome.next (splitGangTick_unknown tick h),
      fun l h => congrArg Host.Outcome.next (splitGangTick_known tick h)⟩
  · exact fun s => ⟨fun h => congrArg Host.Outcome.next (splitShareBound_none h),
      fun l h => ⟨fun hp => congrArg Host.Outcome.next (splitShareBound_pending h hp),
        fun hp => congrArg Host.Outcome.next (splitShareBound_bound h hp)⟩⟩
  · intro s
    obtain ⟨hrest, hrows⟩ := splitGangStart_spec s
    refine ⟨splitGangStart s, rfl, hrest, fun row hr => ?_⟩
    obtain ⟨hstarts, hstays⟩ := hrows row hr
    exact ⟨fun h => hstarts ((startsNow_iff s row).mpr h), fun h => hstays (Bool.eq_false_iff.mpr (mt (startsNow_iff s row).mp h))⟩

end Sys2Proof
end

section
/-! Writes of registers, and the host's accesses through BAR2 (R30, R39, R221, R340, R377, R451, R468). -/

namespace Sys2Proof

open Machine

/-! ### Bits of a written word (R6, R468) -/

theorem bit_eq_getLsbD (w : W64) (n : Nat) : decide (bitsOf w.toNat n n = 1) = w.getLsbD n := by
  rw [bitsOf_one, ← BitVec.testBit_toNat]
  cases w.toNat.testBit n <;> simp

theorem low_bit_eq_getLsbD (w : W64) : decide (w.toNat % 2 = 1) = w.getLsbD 0 := by
  rw [← BitVec.testBit_toNat, Nat.testBit_zero]

theorem testBit_mergeBits (old new mask : Nat) {j : Nat} (h : j < 64) :
    (mergeBits old new mask).testBit j = if mask.testBit j then new.testBit j else old.testBit j := by
  have hm : mask % 2 ^ 64 < 2 ^ 64 := Nat.mod_lt _ (Nat.two_pow_pos 64)
  have hc : (2 ^ 64 - 1 - mask % 2 ^ 64).testBit j = !mask.testBit j := by
    rw [Nat.sub_sub, Nat.add_comm, Nat.testBit_two_pow_sub_succ hm, Nat.testBit_mod_two_pow]
    simp [h]
  simp only [mergeBits, Nat.testBit_or, Nat.testBit_and, hc, Nat.testBit_mod_two_pow, h]
  cases mask.testBit j <;> simp

/-- A write of all eight bytes leaves nothing of the old word. -/
theorem mergeBits_word (old : Nat) (w : W64) : mergeBits old w.toNat (2 ^ 64 - 1) = w.toNat := by
  have hw : w.toNat &&& 2 ^ 64 - 1 = w.toNat := by rw [Nat.and_two_pow_sub_one_eq_mod, Nat.mod_eq_of_lt w.isLt]
  simpa [mergeBits] using hw

theorem ofBytes_toBytes : ∀ n x : Nat, ofBytes (toBytes n x) = x % 2 ^ (8 * n)
  | 0, x => by simp [toBytes, ofBytes, Nat.mod_one]
  | n + 1, x => by
    have hp : 2 ^ (8 * (n + 1)) = 256 * 2 ^ (8 * n) := by rw [Nat.mul_succ, Nat.pow_add, Nat.mul_comm]
    rw [toBytes, ofBytes, ofBytes_toBytes n, hp, Nat.mod_mul]
    rfl

/-- A read after a write, by the key that is read. -/
theorem store_get_set_key {α : Type} [DecidableEq α] (d : α) (m : Store α) (k j : Nat) (v : α) :
    Store.get d (Store.set d m k v) j = if j = k then v else Store.get d m j := by
  simp only [Store.get_set, eq_comm]

/-! ### Launch queues and kernel images (R30, R32, R39) -/

/-- A queue after a write of LNQCFG while EN is 0, but for EN (R39). -/
def reconfigured (q : LaunchQueue) (w : W64) : LaunchQueue :=
  let size := bitsOf w.toNat 3 0
  { q with
    prio := .ofNat 3 (bitsOf w.toNat 10 8), devfeed := w.getLsbD 17
    sizelog := if 1 ≤ size ∧ size ≤ 12 then .ofNat 4 size else q.sizelog
    met := 0, hopeless := false, eligible := none }

section
variable {s : State} {k : Nat} (w : W64)

theorem lnqcfgPut_enabled (h : (s.queue k).en = true) : lnqcfgPut s k w.toNat =
    s.setQueue k { s.queue k with prio := .ofNat 3 (bitsOf w.toNat 10 8), en := w.getLsbD 16 } := by
  simp [lnqcfgPut, h, bit_eq_getLsbD]

theorem lnqcfgPut_disabled (h : (s.queue k).en = false) : lnqcfgPut s k w.toNat =
    s.setQueue k (let p := reconfigured (s.queue k) w
      if w.getLsbD 16 = true ∧ slotsOk s p = false then { p with badbase := true } else { p with en := w.getLsbD 16 }) := by
  simp [lnqcfgPut, h, bit_eq_getLsbD, LaunchQueue.forget, reconfigured]

end

theorem lnqPut_word (s : State) (k : Nat) (w : W64) : lnqPut s k 8 w.toNat (2 ^ 64 - 1) = lnqcfgPut s k w.toNat :=
  congrArg (lnqcfgPut s k) (mergeBits_word _ w)

theorem lnqcfgPut_only (s : State) (k : Nat) (v : Nat) : ∃ q, lnqcfgPut s k v = s.setQueue k q := ⟨_, rfl⟩

theorem kimgpolPut_locked {s : State} (v : Nat) (h : s.kimgpol.getLsbD 16 = true) : kimgpolPut s v = s := by
  rw [← bit_eq_getLsbD, decide_eq_true_iff] at h
  exact if_pos h

theorem kimgpolPut_open {s : State} (w : W64) (h : s.kimgpol.getLsbD 16 = false) : kimgpolPut s w.toNat =
    { s with
      kimgpol := w &&& 0x1FF01#64
      images := (s.images.filter fun e => decide (e.live ≠ 0) || e.frozen).map fun e => { e with checked := false } } := by
  rw [← bit_eq_getLsbD, decide_eq_false_iff_not] at h
  have hw : BitVec.ofNat 64 (kimgpolMask w.toNat) = w &&& 0x1FF01#64 := by
    apply BitVec.eq_of_toNat_eq
    rw [kimgpolMask, BitVec.toNat_ofNat, BitVec.toNat_and]
    exact Nat.mod_eq_of_lt (Nat.and_lt_two_pow _ (by decide))
  rw [kimgpolPut, if_neg h, hw]

/-! ### A die's cache written back (R221, R377) -/

theorem store_get_unlisted {α : Type} {d : α} {k : Nat} : ∀ {m : Store α}, k ∉ m.map Prod.fst → Store.get d m k = d
  | [], _ => rfl
  | (j, _) :: r, h => by
    obtain ⟨hj, hr⟩ := not_or.mp (mt List.mem_cons.mpr h)
    rw [Store.get, if_neg (Ne.symm hj), store_get_unlisted hr]

/-- Publishing cells of distinct addresses leaves at each home what is published for it. -/
theorem home_publishHome : ∀ (l : Store (Option Byte)) (s : State) (pa : Nat), (l.map Prod.fst).Nodup →
    (publishHome s l).home pa = (Store.get none l pa).getD (s.home pa)
  | [], s, pa, _ => rfl
  | (k, none) :: r, s, pa, h => by
    obtain ⟨hk, hr⟩ := List.nodup_cons.mp h
    rw [publishHome, home_publishHome r s pa hr, Store.get]
    split
    case isTrue hpa => subst hpa; rw [store_get_unlisted hk]
    case isFalse => rfl
  | (k, some v) :: r, s, pa, h => by
    obtain ⟨hk, hr⟩ := List.nodup_cons.mp h
    rw [publishHome, home_publishHome r _ pa hr, Store.get, home_homeWrite]
    split
    case isTrue hpa => subst hpa; rw [store_get_unlisted hk]; rfl
    case isFalse => rfl

/-- A die that holds nothing holds nothing when a byte is dropped everywhere. -/
theorem get_dropByteAll {m : Store (Store (Option Byte))} {die : Nat} (pa : Nat) (h : m.get [] die = []) :
    (dropByteAll m pa).get [] die = [] := by
  unfold dropByteAll
  generalize m.keys = l
  induction l generalizing m with
  | nil => exact h
  | cons k l ih =>
    refine ih ?_
    rw [Store.get_set]
    split
    case isTrue hk => subst hk; rw [h]; rfl
    case isFalse => exact h

theorem dieOv_publishHome {die : Nat} : ∀ (l : Store (Option Byte)) {s : State}, s.dieOv.get [] die = [] →
    (publishHome s l).dieOv.get [] die = []
  | [], _, h => h
  | (_, none) :: r, _, h => dieOv_publishHome r h
  | (pa, some _) :: r, _, h => dieOv_publishHome r (get_dropByteAll pa h)

theorem writtenBack_writeBackDie (s : State) (die : Nat) : WrittenBack s (writeBackDie s die) die := by
  refine ⟨?_, dieOv_publishHome _ (by simp), fun h pa => home_publishHome _ _ pa h⟩
  exact OnlyMemory.trans (t := { s with dieOv := s.dieOv.set [] die [] }) rfl (onlyMemory_publishHome _ _)

theorem dmcfg_writeBackDie (s : State) (die : Nat) : (writeBackDie s die).dmcfg = s.dmcfg := by
  rw [(writtenBack_writeBackDie s die).1]

theorem xgcfg_writeBackDie (s : State) (die : Nat) : (writeBackDie s die).xgcfg = s.xgcfg := by
  rw [(writtenBack_writeBackDie s die).1]

/-! ### DMCFG and XGCFG (R221, R377) -/

section
variable {s : State} {die : Nat}

theorem dmcfgPut_ignored {v : Nat} (h : v % 8 = 7 ∨ scratchInUse s die = true ∨ (v % 8 = 6 ∧ s.xgcfg.get false die = true)) :
    dmcfgPut s die v = s := if_pos h

theorem dmcfgPut_taken {v : Nat} (h : ¬ (v % 8 = 7 ∨ scratchInUse s die = true ∨ (v % 8 = 6 ∧ s.xgcfg.get false die = true))) :
    dmcfgPut s die v = { writeBackDie s die with dmcfg := (writeBackDie s die).dmcfg.set 0 die (.ofNat 3 (v % 8)) } := if_neg h

variable (w : W64)

theorem xgcfgPut_ignored (h : (w.getLsbD 0 = true ∧ 5 ≤ die ∧ s.dmcfg.get 0 die = 6) ∨ (w.getLsbD 0 = false ∧ slotsUsed s die ≠ 0)) :
    xgcfgPut s die w.toNat = s := by
  simp only [xgcfgPut, low_bit_eq_getLsbD]
  obtain ⟨hon, hd, hs⟩ | ⟨hoff, hu⟩ := h
  · exact if_pos (by simp only [hon, hd, hs, decide_true, Bool.and_self])
  · exact (if_neg (by simp only [hoff, Bool.false_and, Bool.false_eq_true, not_false_eq_true])).trans
      (if_pos (by simp only [hoff, hu, Bool.not_false, ne_eq, not_false_eq_true, decide_true, Bool.and_self]))

section
variable (h : ¬ ((w.getLsbD 0 = true ∧ 5 ≤ die ∧ s.dmcfg.get 0 die = 6) ∨ (w.getLsbD 0 = false ∧ slotsUsed s die ≠ 0)))
include h

theorem xgcfgPut_taken : xgcfgPut s die w.toNat =
    let u := if (w.getLsbD 0 && !s.xgcfg.get false die) = true then writeBackDie s die else s
    { u with xgcfg := u.xgcfg.set false die (w.getLsbD 0) } := by
  simp only [xgcfgPut, low_bit_eq_getLsbD]
  rw [if_neg, if_neg]
  · simpa using fun hoff hu => h (.inr ⟨hoff, hu⟩)
  · simpa using fun hon hd hs => h (.inl ⟨hon, hd, hs⟩)

/-- A write that sets EN takes the slots' memory from the die's cache. -/
theorem xgcfgPut_enables (hon : w.getLsbD 0 = true) (hoff : s.xgcfg.get false die = false) : xgcfgPut s die w.toNat =
    { writeBackDie s die with xgcfg := (writeBackDie s die).xgcfg.set false die (w.getLsbD 0) } := by
  rw [xgcfgPut_taken w h, if_pos (by rw [hon, hoff]; rfl)]

theorem xgcfgPut_keeps (hk : ¬ (w.getLsbD 0 = true ∧ s.xgcfg.get false die = false)) : xgcfgPut s die w.toNat =
    { s with xgcfg := s.xgcfg.set false die (w.getLsbD 0) } := by
  rw [xgcfgPut_taken w h, if_neg (by simpa using hk)]

end
end

/-! ### Register writes (R340, R468) -/

section
variable {s : State} {master : BitVec 7} {pa : Nat} {w : Width} {data : W64}

theorem registerWrite_elsewhere (h : ¬ (regionOf s pa = .sysreg ∧ pa % w.bytes = 0)) : registerWrite s master pa w data = s :=
  if_pos (not_and_or.mp h)

variable (hs : regionOf s pa = .sysreg) (ha : pa % w.bytes = 0)
include hs ha

theorem registerWrite_refused (hr : hasRight s (.sysreg (paDie pa)) .wr master.toNat 0 = false) :
    registerWrite s master pa w data = if master.toNat = 126 then { s with hostErr := s.hostErr + 1 } else s :=
  (if_neg (not_or.mpr ⟨not_not.mpr hs, not_not.mpr ha⟩)).trans (if_pos (by rw [hr]; rfl))

theorem registerWrite_granted (hr : hasRight s (.sysreg (paDie pa)) .wr master.toNat 0 = true) :
    let off := paOff pa - 0x7F0000000000
    let put := regPut s master.toNat (paDie pa) (off / 8 * 8) (data.toNat % 2 ^ (8 * w.bytes) * 2 ^ (8 * (off % 8)))
      ((2 ^ (8 * w.bytes) - 1) * 2 ^ (8 * (off % 8)))
    registerWrite s master pa w data =
      if master.toNat = 127 ∧ paDie pa = 0 ∧ 0x20000 ≤ off ∧ off < 0x20900 ∧ off % 32 < 8 then rowOp put ((off - 0x20000) / 32) else put := by
  intro off put
  have hw : registerWrite s master pa w data = let put := sysWrite s master.toNat pa (toBytes w.bytes data.toNat)
      if master.toNat = 127 ∧ paDie pa = 0 ∧ 0x20000 ≤ off ∧ off < 0x20900 ∧ off % 32 < 8 then rowOp put ((off - 0x20000) / 32) else put :=
    (if_neg (not_or.mpr ⟨not_not.mpr hs, not_not.mpr ha⟩)).trans (if_neg (by rw [hr]; decide))
  rw [hw, sysWrite, ofBytes_toBytes, toBytes_len]

end

/-- A write of a whole register of the control die, by a master with the right, but for an OP. -/
theorem registerWrite_word {s : State} {master : BitVec 7} (data : W64) {off : Nat}
    (hr : hasRight s (.sysreg 0) .wr master.toNat 0 = true) (hoff : off < 0x20000) (h8 : off % 8 = 0) :
    registerWrite s master (0x7F0000000000 + off) .w8 data = regPut s master.toNat 0 off data.toNat (2 ^ 64 - 1) := by
  have hdie : paDie (0x7F0000000000 + off) = 0 := by unfold paDie; omega
  have hpa : paOff (0x7F0000000000 + off) = 0x7F0000000000 + off := by unfold paOff; omega
  have hreg : regionOf s (0x7F0000000000 + off) = .sysreg := by
    unfold regionOf
    rw [hdie, hpa, if_neg (by decide), if_pos (by omega)]
  rw [registerWrite_granted hreg (by simp only [Width.bytes]; omega) (by rwa [hdie]), hdie, hpa, Nat.add_sub_cancel_left, h8,
    Nat.div_mul_cancel (Nat.dvd_of_mod_eq_zero h8), if_neg (by omega)]
  simp [Width.bytes, Nat.mod_eq_of_lt data.isLt]

theorem registerWrite_kimgpol {s : State} {master : BitVec 7} (data : W64) (hr : hasRight s (.sysreg 0) .wr master.toNat 0 = true) :
    registerWrite s master 0x7F0000000100 .w8 data = kimgpolPut s data.toNat := by
  refine (registerWrite_word (off := 0x100) data hr (by decide) (by decide)).trans ?_
  exact congrArg (kimgpolPut s) (mergeBits_word _ data)

theorem registerWrite_lnqcfg {s : State} {master : BitVec 7} (data : W64) (k : BitVec 4)
    (hr : hasRight s (.sysreg 0) .wr master.toNat 0 = true) :
    registerWrite s master (0x7F0000010008 + 64 * k.toNat) .w8 data = lnqPut s k.toNat 8 data.toNat (2 ^ 64 - 1) := by
  have hk := k.isLt
  have hw := registerWrite_word (s := s) (off := 0x10008 + 64 * k.toNat) data hr (by omega) (by omega)
  rw [← Nat.add_assoc] at hw
  refine hw.trans ?_
  have hslot : (0x10008 + 64 * k.toNat - 0x10000) / 64 = k.toNat := by omega
  have hword : (0x10008 + 64 * k.toNat) % 64 = 8 := by omega
  unfold regPut
  rw [if_pos rfl, if_neg (by omega), if_neg (by omega), if_pos (by omega), hslot, hword]

/-! ### BAR2 (R451) -/

section
variable {s : State} {off : Nat}

theorem barPlace_sram (h : off < 2 ^ 30) : barPlace s off = if s.pkg then .other else .here (0x400000000000 + off) := by
  unfold barPlace
  rw [if_pos (Nat.div_eq_of_lt h)]
  cases s.pkg <;> rfl

theorem barPlace_beyond (h : 2 ^ 36 ≤ off) : barPlace s off = .closed := by
  unfold barPlace
  rw [if_neg (by omega), if_pos (by omega)]

variable (h1 : 2 ^ 30 ≤ off) (h2 : off < 2 ^ 36)
include h1 h2

theorem barPlace_unplaced (h : s.aper.get none (off / 2 ^ 30) = none) : barPlace s off = .closed := by
  unfold barPlace
  rw [if_neg (by omega), if_neg (by omega), h]

theorem barPlace_placed {a : Aperture} (h : s.aper.get none (off / 2 ^ 30) = some a) : barPlace s off =
    if a.pkg = true ∧ s.dual = false then .closed else if a.pkg = s.pkg then .here (a.base + off % 2 ^ 30) else .other := by
  unfold barPlace
  rw [if_neg (by omega), if_neg (by omega), h]
  simp

end

/-- The host has its right at a register that BAR2 lets it reach. -/
theorem hasRight_of_barOk {s : State} {off pa n : Nat} {r : Right} (h : barOk s off pa n r = true) (hs : regionOf s pa = .sysreg) :
    hasRight s (.sysreg (paDie pa)) r 126 0 = true := by
  have ht : targetOf s pa = some (.sysreg (paDie pa)) := by simp [targetOf, hs]
  simp only [barOk, Bool.and_eq_true, ht] at h
  exact h.2

section
variable {s : State} {off n : Nat}

theorem bar2Read_closed (h : barPlace s off = .closed) : bar2Read s off n = abort s := by simp [bar2Read, h]

theorem bar2Read_other (h : barPlace s off = .other) : bar2Read s off n = otherRead s n := by simp [bar2Read, h]

variable {pa : Nat} (h : barPlace s off = .here pa)
include h

theorem bar2Read_refused (hb : barOk s off pa n .rd = false) : bar2Read s off n = abort s := by simp [bar2Read, h, hb]

theorem bar2Read_memory (hb : barOk s off pa n .rd = true) (hr : regionOf s pa ≠ .sysreg) :
    bar2Read s off n = { s with hostRead := s.hostRead ++ [s.homeBytes pa n] } := by simp [bar2Read, h, hb, hr]

theorem bar2Read_register (hb : barOk s off pa n .rd = true) (hr : regionOf s pa = .sysreg) (hn : n ∈ [1, 2, 4, 8]) (ha : pa % n = 0) :
    bar2Read s off n = { s with hostRead := s.hostRead ++ [sysRead s pa n] } := by
  have hread : bar2Read s off n = hostSysRead s pa n := by simp [bar2Read, h, hb, hr]
  rw [hread]
  exact if_pos (by simp only [List.contains_iff_mem.mpr hn, ha, hasRight_of_barOk hb hr, decide_true, Bool.and_self])

end

section
variable {s : State} {off : Nat} {bytes : List Byte}

theorem bar2Write_closed (h : barPlace s off = .closed) : bar2Write s off bytes = abort s := by simp [bar2Write, h]

theorem bar2Write_other (h : barPlace s off = .other) :
    bar2Write s off bytes = { s with sideOut := s.sideOut ++ [.hostWrite off bytes] } := by simp [bar2Write, h]

variable {pa : Nat} (h : barPlace s off = .here pa)
include h

theorem bar2Write_refused (hb : barOk s off pa bytes.length .wr = false ∨
    (regionOf s pa ≠ .sysreg ∧ frozenPhys s pa bytes.length = true)) : bar2Write s off bytes = abort s := by
  simp only [bar2Write, h]
  cases hok : barOk s off pa bytes.length .wr
  · simp
  · obtain ⟨hr, hf⟩ := hb.resolve_left (by simp [hok])
    simp [hr, hf]

theorem bar2Write_memory (hb : barOk s off pa bytes.length .wr = true) (hr : regionOf s pa ≠ .sysreg)
    (hf : frozenPhys s pa bytes.length = false) : bar2Write s off bytes = s.homeWriteBytes pa bytes := by
  simp [bar2Write, h, hb, hr, hf]

theorem bar2Write_register (hb : barOk s off pa bytes.length .wr = true) (hr : regionOf s pa = .sysreg)
    (hn : bytes.length ∈ [1, 2, 4, 8]) (ha : pa % bytes.length = 0) : bar2Write s off bytes = sysWrite s 126 pa bytes := by
  simp only [bar2Write, h, hb, hr, Bool.not_true, Bool.false_eq_true, if_false, if_true]
  exact if_pos (by simp only [List.contains_iff_mem.mpr hn, ha, decide_true, Bool.and_self])

end

/-- Settles O58: each clause from the equation of the register or of the BAR that it speaks of. -/
theorem registers : Obligations.Registers := by
  unfold Obligations.Registers
  refine ⟨?_, ?_, ?_, ?_, ?_, ?_, fun old new mask j => testBit_mergeBits old new mask, ?_, ?_, ?_⟩
  · intro s k w
    refine ⟨lnqcfgPut s k.toNat w.toNat, congrArg Host.Outcome.next (lnqPut_word ..), ?_, fun j hj => ?_, fun h => ?_, fun h => ?_⟩
    · obtain ⟨q, hq⟩ := lnqcfgPut_only s k.toNat w.toNat
      rw [hq]; rfl
    · obtain ⟨q, hq⟩ := lnqcfgPut_only s k.toNat w.toNat
      rw [hq, queue_setQueue, if_neg (Ne.symm hj)]
    · rw [lnqcfgPut_enabled w h, queue_setQueue, if_pos rfl]
    · rw [lnqcfgPut_disabled w h, queue_setQueue, if_pos rfl]; rfl
  · intro s w
    refine ⟨fun h => congrArg Host.Outcome.next (kimgpolPut_locked _ h), fun h =>
      ⟨_, congrArg Host.Outcome.next (kimgpolPut_open w h), rfl, rfl, fun e => ?_⟩⟩
    simp only [List.mem_map, List.mem_filter, Bool.or_eq_true, decide_eq_true_eq, and_assoc, eq_comm (a := e)]
  · intro s die w _ _ scr
    have hscr : w.toNat % 8 = scr := by simp [scr, bitsOf]
    refine ⟨fun h => congrArg Host.Outcome.next (dmcfgPut_ignored (by rwa [hscr])), fun h =>
      ⟨_, congrArg Host.Outcome.next (dmcfgPut_taken (by rwa [hscr])), ?_, fun d => ?_⟩⟩
    · rw [← dmcfg_writeBackDie s die.toNat]
      exact writtenBack_writeBackDie s die.toNat
    · rw [dmcfg_writeBackDie, store_get_set_key, apply_ite BitVec.toNat, hscr, BitVec.toNat_ofNat, Nat.mod_eq_of_lt (by omega)]
  · intro s die w _ _ on ignored
    refine ⟨fun h => congrArg Host.Outcome.next (xgcfgPut_ignored w h), fun h => ?_⟩
    by_cases hnew : w.getLsbD 0 = true ∧ s.xgcfg.get false die.toNat = false
    · obtain ⟨hon, hoff⟩ := hnew
      refine ⟨_, congrArg Host.Outcome.next (xgcfgPut_enables w h hon hoff), fun d => ?_, fun _ _ => ?_, fun hstay => ?_⟩
      · rw [xgcfg_writeBackDie]; exact store_get_set_key ..
      · rw [← xgcfg_writeBackDie s die.toNat]; exact writtenBack_writeBackDie s die.toNat
      · exact absurd hstay (by simp [on, hon, hoff])
    · exact ⟨_, congrArg Host.Outcome.next (xgcfgPut_keeps w h hnew), fun d => store_get_set_key .., fun hon hoff => absurd ⟨hon, hoff⟩ hnew,
        fun _ => rfl⟩
  · intro s master pa w data
    exact ⟨fun h => congrArg Host.Outcome.next (registerWrite_elsewhere h),
      fun ⟨hs, ha⟩ hr => congrArg Host.Outcome.next (registerWrite_refused hs ha hr),
      fun ⟨hs, ha⟩ hr => congrArg Host.Outcome.next (registerWrite_granted hs ha hr)⟩
  · exact fun s master data k hr => ⟨congrArg Host.Outcome.next (registerWrite_kimgpol data hr),
      congrArg Host.Outcome.next (registerWrite_lnqcfg data k hr)⟩
  · intro s
    refine ⟨fun off => barPlace_sram, fun off => barPlace_beyond, fun off h1 h2 => ⟨barPlace_unplaced h1 h2, fun a ha => ?_⟩⟩
    rw [barPlace_placed h1 h2 ha]
    refine ⟨fun hp hd => if_pos ⟨hp, hd⟩, fun hd hp => ?_, fun hd hp => ?_⟩
    · rw [if_neg (by grind), if_pos hp]
    · rw [if_neg (by grind), if_neg hp]
  · intro s off n
    exact ⟨fun h => congrArg Host.Outcome.next (bar2Read_closed h),
      fun h => ⟨_, by simp, congrArg Host.Outcome.next (bar2Read_other h)⟩,
      fun pa h => ⟨fun hb => congrArg Host.Outcome.next (bar2Read_refused h hb),
        fun hb hr => congrArg Host.Outcome.next (bar2Read_memory h hb hr),
        fun hb hr hn ha => congrArg Host.Outcome.next (bar2Read_register h hb hr hn ha)⟩⟩
  · intro s off bytes
    refine ⟨fun h => congrArg Host.Outcome.next (bar2Write_closed h), fun h => congrArg Host.Outcome.next (bar2Write_other h),
      fun pa h => ⟨fun hb => congrArg Host.Outcome.next (bar2Write_refused h hb), fun hb hr hf => ?_,
        fun hb hr hn ha => congrArg Host.Outcome.next (bar2Write_register h hb hr hn ha)⟩⟩
    exact ⟨_, congrArg Host.Outcome.next (bar2Write_memory h hb hr hf), only_homeBytes .., homeBytes_write bytes s pa⟩

end Sys2Proof
end


section
/-! An issue of one row leaves every other bank and timetable row alone (R49, R95): what each shared operation of the units keeps, then the
instructions of the three units. -/

namespace Sys2Proof

open Machine

/-! ### What is kept of the other rows -/

/-- The present row, and of every row but `row` the bank and the timetable entry, are the same in both states (R49, R95). -/
structure OthersKept (row : Nat) (s t : State) : Prop where
  cur : t.cur = s.cur
  bank : ∀ r, r ≠ row → t.bank r = s.bank r
  entry : ∀ r, r ≠ row → t.row r = s.row r

section
variable {row : Nat} {s t u : State}

theorem OthersKept.refl (row : Nat) (s : State) : OthersKept row s s := ⟨rfl, fun _ _ => rfl, fun _ _ => rfl⟩

theorem OthersKept.trans (h : OthersKept row s t) (k : OthersKept row t u) : OthersKept row s u where
  cur := k.cur.trans h.cur
  bank r hr := (k.bank r hr).trans (h.bank r hr)
  entry r hr := (k.entry r hr).trans (h.entry r hr)

/-- What changes neither banks nor timetable keeps the others. -/
theorem othersKept_of_tables (hb : t.banks = s.banks) (ht : t.tt = s.tt) (hc : t.cur = s.cur) : OthersKept row s t where
  cur := hc
  bank r _ := by rw [State.bank, hb, State.bank]
  entry r _ := by rw [State.row, ht, State.row]

theorem othersKept_of_onlyMemory (h : OnlyMemory s t) : OthersKept row s t where
  cur := h.cur
  bank r _ := h.bank r
  entry r _ := h.row r

theorem othersKept_of_storeOnly (h : StoreOnly s t row) : OthersKept row s t := by
  obtain ⟨⟨stale, ht⟩, hbank, -⟩ := h
  exact ⟨by rw [ht], hbank, fun r _ => by rw [ht]; rfl⟩

theorem OthersKept.modBank (h : OthersKept row s t) {f : Bank → Bank} : OthersKept row s (t.modBank row f) :=
  h.trans ⟨rfl, fun r hr => (bank_modBank t row r f).trans (if_neg (Ne.symm hr)), fun _ _ => rfl⟩

theorem OthersKept.modRow (h : OthersKept row s t) {f : Row → Row} : OthersKept row s (t.modRow row f) :=
  h.trans ⟨rfl, fun _ _ => rfl, fun r hr => (row_modRow t row r f).trans (if_neg (Ne.symm hr))⟩

theorem OthersKept.homeWrite (h : OthersKept row s t) {pa : Nat} {v : Byte} : OthersKept row s (t.homeWrite pa v) :=
  h.trans (othersKept_of_tables rfl rfl rfl)

theorem OthersKept.markStale (h : OthersKept row s t) {pa : Nat} : OthersKept row s (markStale t pa) :=
  h.trans (othersKept_of_tables rfl rfl rfl)

theorem OthersKept.homeWriteBytes (h : OthersKept row s t) {pa : Nat} {bs : List Byte} : OthersKept row s (t.homeWriteBytes pa bs) :=
  h.trans (othersKept_of_onlyMemory (onlyMemory_homeWriteBytes bs t pa))

theorem othersKept_foldl {α : Type} {f : State → α → State} (h : ∀ s a, OthersKept row s (f s a)) :
    ∀ (l : List α) (s : State), OthersKept row s (l.foldl f s)
  | [], s => .refl row s
  | a :: l, s => (h s a).trans (othersKept_foldl h l _)

end

/-! ### Memory, the core and the device's registers -/

section
variable {row : Nat} {s t : State} (h : OthersKept row s t)
include h

theorem OthersKept.releaseAt {level : Nat} : OthersKept row s (releaseAt t row level) :=
  h.modBank.trans (othersKept_of_onlyMemory (releaseAt_eq t row level))

theorem OthersKept.phaseRelease {level : Nat} : OthersKept row s (phaseRelease t row level) :=
  h.releaseAt.trans (othersKept_of_tables rfl rfl rfl)

theorem OthersKept.tlbTouch {l : List Seg} : OthersKept row s (tlbTouch t row l) := by
  obtain ⟨tlb, ht⟩ := touched_tlb l t row
  rw [ht]
  exact h.trans (othersKept_of_tables rfl rfl rfl)

theorem OthersKept.leaveBank : OthersKept row s (leaveBank t row) :=
  h.trans ⟨by rw [leaveBank_eq], fun r _ => leaveBank_bank t row r, fun r _ => leaveBank_row t row r⟩

theorem OthersKept.segWrite {l : List Seg} {bs : List (Option Byte)} : OthersKept row s (segWrite t row l bs) :=
  h.trans (othersKept_of_storeOnly (segWrite_facts row l bs t).1)

theorem OthersKept.locHomeWrite {l : Loc} {i : Nat} {v : Byte} : OthersKept row s (locHomeWrite t row l i v) := by
  unfold Machine.locHomeWrite
  extract_lets p
  have hp : OthersKept row s p := h.modBank
  cases l with
  | scratch off => exact hp.modBank
  | phys pa c => exact hp.modBank.homeWrite.markStale

end

theorem othersKept_locHomeWriteBytes (row : Nat) (l : Loc) : ∀ (bs : List Byte) (s : State) (i : Nat),
    OthersKept row s (locHomeWriteBytes s row l i bs)
  | [], s, _ => .refl row s
  | _ :: r, s, i => (OthersKept.refl row s).locHomeWrite.trans (othersKept_locHomeWriteBytes row l r _ (i + 1))

theorem othersKept_segHomeWrite (row : Nat) : ∀ (l : List Seg) (s : State) (bs : List Byte), OthersKept row s (segHomeWrite s row l bs)
  | [], s, _ => .refl row s
  | g :: r, s, _ => (othersKept_locHomeWriteBytes row g.loc _ s 0).trans (othersKept_segHomeWrite row r _ _)

theorem tt_writeBackDie (s : State) (die : Nat) : (writeBackDie s die).tt = s.tt := by
  unfold writeBackDie
  rw [onlyMemory_publishHome]

theorem tt_doorbellOp (s : State) (k : Nat) (tail : BitVec 32) : (doorbellOp s k tail).tt = s.tt := by
  unfold doorbellOp
  dsimp only
  split_ifs <;> rfl

theorem tt_setQueue (s : State) (k : Nat) (q : LaunchQueue) : (s.setQueue k q).tt = s.tt := rfl

theorem tt_lnqPut (s : State) (k off new mask : Nat) : (lnqPut s k off new mask).tt = s.tt := by
  unfold lnqPut
  dsimp only
  split
  · split
    · rfl
    · exact tt_setQueue ..
  · obtain ⟨q, hq⟩ := lnqcfgPut_only s k (mergeBits (lnqGet (s.queue k) 8) new mask)
    rw [hq]
    exact tt_setQueue ..
  · split
    · rfl
    · exact tt_doorbellOp ..
  · exact tt_setQueue ..
  · rfl

theorem tt_dmcfgPut (s : State) (die v : Nat) : (dmcfgPut s die v).tt = s.tt := by
  unfold dmcfgPut
  dsimp only
  split
  · rfl
  · exact tt_writeBackDie s die

theorem tt_xgcfgPut (s : State) (die v : Nat) : (xgcfgPut s die v).tt = s.tt := by
  unfold xgcfgPut
  dsimp only
  split_ifs
  · rfl
  · rfl
  · exact tt_writeBackDie s die
  · rfl

/-- Only the signal box, master 127, writes the timetable through the system registers (R59, R468). -/
theorem tt_regPut {master : Nat} (hm : master ≠ 127) (s : State) (die off new mask : Nat) :
    (regPut s master die off new mask).tt = s.tt := by
  unfold regPut
  extract_lets v
  clear_value v
  split_ifs
  · unfold devstatPut; dsimp only; split <;> rfl
  · unfold kimgpolPut; split <;> rfl
  · exact tt_lnqPut ..
  · rfl
  · rfl
  · rfl
  · exact tt_dmcfgPut ..
  · rfl
  · exact tt_xgcfgPut ..
  · rfl

theorem OthersKept.sysWrite {row master : Nat} {s t : State} (h : OthersKept row s t) (hm : master ≠ 127) {pa : Nat} {bs : List Byte} :
    OthersKept row s (sysWrite t master pa bs) :=
  h.trans (othersKept_of_tables (sysWrite_banks t master pa bs).1 (tt_regPut hm ..) (sysWrite_banks t master pa bs).2)

/-! ### Faults -/

theorem othersKept_writeObject {row done status : Nat} {s t : State} (h : writeObject s row done status = .done t) : OthersKept row s t := by
  unfold writeObject at h
  split at h
  · cases h; exact .refl row s
  · split at h
    · cases h
    · cases h; exact .refl row s
    · cases h; exact othersKept_segHomeWrite ..

theorem othersKept_dropOne (row : Nat) (e : Eng) (s : State) (x : EngEntry) : OthersKept row s (dropOne row e s x) := by
  have hp : OthersKept row s (Machine.releaseAt s row 2) := (OthersKept.refl row s).releaseAt
  unfold dropOne
  generalize Machine.releaseAt s row 2 = p at hp
  dsimp only
  split
  · next t h => exact (hp.trans (othersKept_writeObject h)).modBank
  · split
    · exact hp.modBank.modBank
    · exact hp.modBank.modBank

theorem othersKept_dropTimed (row : Nat) : ∀ (l : List Eng) (s : State), OthersKept row s (dropTimed s row l)
  | [], s => .refl row s
  | e :: l, s => (othersKept_foldl (othersKept_dropOne row e) _ s).trans (othersKept_dropTimed row l _)

theorem othersKept_takeFault (row : Nat) (s : State) (u : UnitId) (f : FaultRec) : OthersKept row s (takeFault s row u f) := by
  have hp : OthersKept row s (dropTimed s row allEngs) := othersKept_dropTimed row allEngs s
  unfold takeFault
  extract_lets p b g q v w
  exact hp.homeWriteBytes.modBank.modRow.leaveBank

theorem othersKept_unitFault (s : State) (u : UnitId) (f : FaultRec) : OthersKept s.cur s (unitFault s u f) := by
  unfold unitFault
  dsimp only
  split
  · exact (OthersKept.refl ..).modBank
  · exact othersKept_takeFault ..

/-! ### Attempts of a unit -/

/-- The state that an attempt has reached. -/
def Machine.Attempt.state : Attempt → State
  | .ok s | .queueStall s | .wait s | .trap s _ => s

/-- An attempt from a state keeps what is of other rows. -/
def Confined (s : State) (k : Attempt) : Prop := OthersKept s.cur s k.state

/-- A meaning answers a next state and keeps what is of other rows. -/
def ConfinedOut (s : State) (o : Out) : Prop := ∃ t, o = .next t ∧ OthersKept s.cur s t

section
variable {s t : State} {k : Attempt}

theorem OthersKept.modHere (h : OthersKept s.cur s t) {f : Bank → Bank} : OthersKept s.cur s (t.modHere f) := by
  rw [State.modHere, h.cur]
  exact h.modBank

theorem OthersKept.ok (h : OthersKept s.cur s t) : Confined s (.ok t) := h

theorem OthersKept.wait (h : OthersKept s.cur s t) : Confined s (.wait t) := h

theorem OthersKept.trap (h : OthersKept s.cur s t) {f : FaultRec} : Confined s (.trap t f) := h

theorem Confined.after (h : OthersKept s.cur s t) (hk : Confined t k) : Confined s k := by
  rw [Confined, h.cur] at hk
  exact h.trans hk

/-- An issue, a stall, a wait or a fault of the present row keeps what its attempt keeps (R98, R108, R429). -/
theorem Confined.conclude (h : Confined s k) (u : UnitId) : ConfinedOut s (.next (conclude u k)) := by
  refine ⟨_, rfl, ?_⟩
  cases k with
  | ok t => exact OthersKept.modHere h
  | queueStall t => exact OthersKept.modHere h
  | wait t => exact OthersKept.modHere h
  | trap t f =>
    have hcur : t.cur = s.cur := h.cur
    exact OthersKept.trans h (hcur ▸ othersKept_unitFault t u f)

theorem confined_pass (s : State) : Confined s (.ok s) := OthersKept.refl ..

theorem confined_rest (s : State) : Confined s (.wait s) := OthersKept.refl ..

theorem confined_queueStall (s : State) : Confined s (.queueStall s) := OthersKept.refl ..

theorem confined_trap (s : State) (f : FaultRec) : Confined s (.trap s f) := OthersKept.refl ..

theorem confined_trapWith (s : State) (cause : Nat) : Confined s (trapWith s cause) := confined_trap ..

theorem confined_issue (s : State) (f : Bank → Bank) : Confined s (.ok (s.modHere f)) := (OthersKept.refl ..).modHere

theorem confined_hold (s : State) (f : Bank → Bank) : Confined s (.wait (s.modHere f)) := (OthersKept.refl ..).modHere

theorem Confined.vIssue (h : Confined s k) : ConfinedOut s (vIssue k) := h.conclude .V

theorem Confined.aIssue (h : Confined s k) : ConfinedOut s (aIssue s k) := by
  refine Confined.conclude ?_ .A
  split
  · exact confined_trap ..
  · exact h

theorem Confined.ite {c : Prop} [Decidable c] {j : Attempt} (h : Confined s k) (hj : Confined s j) : Confined s (if c then k else j) := by
  split
  · exact h
  · exact hj

theorem Confined.declared (h : Confined s k) {ok : Bool} : Confined s (declared s ok k) := h.ite (confined_trapWith ..)

theorem Confined.landingRoom (h : Confined s k) {u : UnitId} : Confined s (landingRoom s u k) := (confined_rest s).ite h

theorem Confined.wordRoom (h : Confined s k) {q : WordQ} : Confined s (wordRoom s q k) := h.ite (confined_queueStall s)

theorem Confined.cqRoom (h : Confined s k) {wants : Bool} : Confined s (cqRoom s wants k) := (confined_queueStall s).ite h

theorem Confined.dstRoom (h : Confined s k) {d : VDst} : Confined s (dstRoom s d k) := by
  cases d with
  | reg n => exact h
  | sq q => exact h.ite (confined_queueStall s)

theorem confined_withWords {q : WordQ} {n : Nat} {c : List W64 → Attempt} (h : ∀ l, Confined s (c l)) : Confined s (withWords s q n c) := by
  unfold withWords
  dsimp only
  split
  · split
    · exact confined_trap ..
    · exact h _
  · exact (confined_queueStall s).ite (confined_trapWith ..)

end

/-! ### Sources of the vector unit -/

section
variable {s : State}

theorem confined_withSrc {a : VSrc} {c : VWord → Attempt} (h : ∀ x, Confined s (c x)) : Confined s (withSrc s a c) := by
  cases a with
  | reg n => exact h _
  | lq q peek =>
    unfold withSrc
    dsimp only
    generalize (if peek then lqPeek s.here s.cycle q else lqHead s.here q) = x
    cases x with
    | ready v => exact h v
    | stall => exact confined_queueStall s
    | trap f => exact confined_trap s f

theorem confined_withSrcs {a b : VSrc} {c : VWord → VWord → Attempt} (h : ∀ x y, Confined s (c x y)) : Confined s (withSrcs s a b c) :=
  confined_withSrc fun x => confined_withSrc fun y => h x y

theorem confined_withIndex {j : IndexSrc} {c : Nat → Attempt} (h : ∀ i, Confined s (c i)) : Confined s (withIndex s j c) := by
  cases j with
  | imm n => exact h _
  | xq => exact confined_withWords fun _ => h _

theorem confined_withSlice {i : SliceIdx} {c : Nat → Attempt} (h : ∀ i, Confined s (c i)) : Confined s (withSlice s i c) := by
  cases i with
  | imm n => exact h _
  | xq => exact confined_withWords fun _ => h _

end

theorem othersKept_restoreGranule (row : Nat) (s : State) (g : Nat) : OthersKept row s (restoreGranule s row g) := by
  unfold restoreGranule
  split
  · exact (OthersKept.refl row s).modBank
  · exact .refl row s

theorem othersKept_restoreExtent (row : Nat) (s : State) (c : TileCfg) : OthersKept row s (restoreExtent s row c) := by
  unfold restoreExtent
  split
  · exact .refl row s
  · exact othersKept_foldl (othersKept_restoreGranule row) _ s

theorem othersKept_restoreTile (row : Nat) (s : State) (t : Nat) : OthersKept row s (restoreTile s row t) := by
  unfold restoreTile
  split
  · exact .refl row s
  · exact .refl row s
  · exact (othersKept_foldl (othersKept_restoreGranule row) _ s).modBank

theorem confined_withTile {s : State} {t : BitVec 6} {c : Tile → Attempt} (h : ∀ x, Confined s (c x)) : Confined s (withTile s t c) := by
  refine (confined_rest s).ite ?_
  split
  · exact (othersKept_restoreTile ..).wait
  · exact (othersKept_restoreExtent ..).wait.ite (h _)
  · exact h _

theorem confined_sliceChecked {s : State} {col : Bool} {n : BitVec 8} {i : Nat} {x : Tile} {c : TileCfg → Attempt}
    (h : ∀ x, Confined s (c x)) : Confined s (sliceChecked s col n i x c) := by
  unfold sliceChecked
  split
  · exact confined_trapWith ..
  · exact (confined_trapWith ..).ite ((confined_trapWith ..).ite (h _))

/-! ### Accesses -/

theorem confined_withTrans {s : State} {k : Access} {ea n align : Nat} {c : State → List Seg → Attempt}
    (h : ∀ t l, OthersKept s.cur s t → Confined s (c t l)) : Confined s (withTrans s k ea n align c) := by
  unfold withTrans
  split
  · exact confined_trap ..
  · exact confined_hold ..
  · exact h _ _ (OthersKept.refl ..).tlbTouch

/-- The answer of the directory to a store's request for ownership (R304, R315). -/
theorem confined_withOwnership {s : State} {ea n : Nat} {l : List Seg} {c : State → Attempt}
    (h : ∀ t, OthersKept s.cur s t → Confined s (c t)) : Confined s (withOwnership s ea n l c) := by
  have hmod (f : Bank → Bank) : OthersKept s.cur s (s.modHere f) := (OthersKept.refl ..).modHere
  unfold withOwnership
  split
  · exact (hmod _).trap
  · dsimp only
    split
    · exact (hmod _).wait.ite (h _ (hmod _))
    · split
      · split
        · exact (hmod _).trap
        · exact (hmod _).wait
      · exact (confined_rest s).ite (hmod _).wait

/-! ### The sequencer -/

section
variable {s : State}

theorem confinedOut_sWrite (s : State) (d : BitVec 6) (regs : List (BitVec 6)) (lat : Nat) (v : Bank → W64) :
    ConfinedOut s (.next (sWrite s d regs lat v)) := (confined_issue s _).landingRoom.declared.conclude .S

theorem confinedOut_sAlu (s : State) (d a b : BitVec 6) (lat : Nat) (f : W64 → W64 → W64) : ConfinedOut s (sAlu s d a b lat f) :=
  confinedOut_sWrite ..

theorem confinedOut_sUnary (s : State) (d a : BitVec 6) (f : W64 → W64) : ConfinedOut s (sUnary s d a f) := confinedOut_sWrite ..

theorem confinedOut_cWrite (s : State) (d : BitVec 4) (sr : List (BitVec 6)) (cr : List (BitVec 4)) (v : Bank → Bool) :
    ConfinedOut s (cWrite s d sr cr v) := (confined_issue s _).landingRoom.declared.conclude .S

theorem confinedOut_jumpTo (s : State) (a : BitVec 6) : ConfinedOut s (jumpTo s a) := by
  refine Confined.conclude (Confined.declared ?_) .S
  split
  · exact confined_trap ..
  · exact confined_issue ..

theorem confinedOut_recv (d : BitVec 6) (q : RecvQ) : ConfinedOut s (execRecv d q s) :=
  (confined_withWords fun _ => confined_issue s _).landingRoom.declared.conclude .S

theorem confinedOut_push (e : Eng) (x : BitVec 6) (y : BitVec 4) : ConfinedOut s (execPush e x y s) :=
  have enters := (confined_issue s fun b =>
    if engDepth e ≤ (b.engQ e).length then b.send .S 1 [.creg y true]
    else (pushEntry b e ((pushRegs x).map s.here.sreg) s.cycle).send .S 1 [.creg y false]).landingRoom (u := .S)
  ((confined_trapWith s _).ite ((confined_trapWith s _).ite ((confined_trapWith s _).ite
    ((confined_rest s).ite enters))).declared).conclude .S

theorem confinedOut_pop (x : BitVec 6) (e : Eng) (y : BitVec 4) : ConfinedOut s (execPop x e y s) :=
  ((confined_trapWith s _).ite (confined_issue s _).landingRoom.declared).conclude .S

theorem confinedOut_resolve (n : BitVec 3) (k : ResolveKind) : ConfinedOut s (execResolve n k s) :=
  ((confined_pass s).ite ((confined_rest s).ite (confined_issue s _))).declared.conclude .S

theorem othersKept_arrive (row : Nat) (s : State) (g : Nat) : OthersKept row s (arrive s g) := by
  unfold arrive
  dsimp only
  split
  · exact othersKept_of_tables rfl rfl rfl
  · exact othersKept_of_tables rfl rfl rfl

theorem confined_phaseAfter (s : State) (g : BitVec 2) : Confined s (phaseAfter s g) := by
  unfold phaseAfter
  dsimp only
  split
  · exact (confined_rest s).ite ((confined_hold ..).ite (confined_issue ..))
  · exact confined_issue ..
  all_goals exact confined_rest s

theorem confinedOut_phase (g : BitVec 2) : ConfinedOut s (execPhase g s) := by
  have arrives (level gi : Nat) (gen : Bool) : OthersKept s.cur s (setSWait (arrive (phaseRelease s s.cur level) gi) (.arrived gen)) :=
    ((OthersKept.refl ..).phaseRelease.trans (othersKept_arrive ..)).modHere
  refine Confined.conclude (Confined.declared ?_) .S
  exact (Confined.ite (.after (arrives ..) (confined_phaseAfter ..)) (confined_rest s)).ite (confined_phaseAfter ..)

theorem confinedOut_fence (g : BitVec 2) : ConfinedOut s (execFence g s) :=
  ((OthersKept.refl s.cur s).phaseRelease.ok.ite (confined_rest s)).declared.conclude .S

theorem confinedOut_waitc (a t : BitVec 6) : ConfinedOut s (execWaitc a t s) := by
  have touched (l : List Seg) : OthersKept s.cur s (tlbTouch s s.cur l) := (OthersKept.refl ..).tlbTouch
  unfold execWaitc
  dsimp only
  refine Confined.conclude (Confined.declared ?_) .S
  split
  · exact confined_rest s
  all_goals
    refine (confined_trap ..).ite ?_
    split
    · exact confined_trap ..
    · exact confined_trap ..
    · exact (touched _).wait.ite ((touched _).ok.ite (touched _).modHere.wait)

theorem othersKept_submitRecord {row k : Nat} {bytes : List Byte} {asid : Asid} (s : State) :
    OthersKept row s (submitRecord s k bytes asid) :=
  (OthersKept.refl row s).homeWriteBytes.trans (othersKept_of_tables rfl rfl rfl)

theorem confined_launchAfter (s : State) (y : BitVec 4) (qv av : W64) : Confined s (launchAfter s y qv av) := by
  unfold launchAfter
  dsimp only
  refine (confined_trapWith ..).ite ((confined_trapWith ..).ite ((confined_trap ..).ite ((confined_issue ..).ite ?_)))
  split
  · exact confined_trap ..
  · exact confined_trap ..
  · exact (confined_trap ..).ite ((OthersKept.refl ..).tlbTouch.trans (othersKept_submitRecord _)).modHere.ok

theorem confinedOut_launch (y : BitVec 4) (q a : BitVec 6) : ConfinedOut s (execLaunch y q a s) := by
  refine Confined.conclude (Confined.declared (Confined.landingRoom ?_)) .S
  exact (Confined.after (OthersKept.refl ..).phaseRelease (confined_launchAfter ..)).ite (confined_rest s)

theorem confined_haltStep (s : State) (k : Nat) : Confined s (haltStep s k) := by
  have goes {t : State} (h : OthersKept s.cur s t) : Confined s (.wait (setSWait t (.halting (k + 1)))) := h.modHere.wait
  have stays := goes (.refl ..)
  unfold haltStep
  dsimp only
  split
  · exact confined_trap ..
  · split
    · exact stays.ite (confined_rest s)
    · exact stays.ite (confined_rest s)
    · split
      · exact stays
      · exact (confined_rest s).ite (confined_hold ..)
    · exact goes (OthersKept.refl ..).modHere
    · exact (confined_rest s).ite stays
    · exact goes (OthersKept.refl ..).phaseRelease.modHere
    · exact confined_rest s

theorem confinedOut_halt : ConfinedOut s (execHalt s) := by
  refine Confined.conclude ?_ .S
  split
  · exact confined_haltStep ..
  all_goals exact (OthersKept.refl ..).modHere.modRow.leaveBank.wait.ite (confined_rest s)

theorem confinedOut_yield : ConfinedOut s (execYield s) :=
  (OthersKept.refl s.cur s).modHere.modRow.leaveBank.ok.conclude .S

theorem confinedOut_realign (a t : BitVec 6) : ConfinedOut s (execRealign a t s) := by
  have asked (l : List RealignReq) : OthersKept s.cur s { s with realigns := l } := othersKept_of_tables rfl rfl rfl
  unfold execRealign
  dsimp only
  refine Confined.conclude (Confined.declared ?_) .S
  split
  · exact confined_rest s
  · exact (confined_issue ..).ite (confined_rest s)
  all_goals
    refine (confined_trapWith ..).ite ((confined_trapWith ..).ite ?_)
    exact (asked _).modHere.wait

theorem confinedOut_trap (code : BitVec 13) : ConfinedOut s (execTrap code s) := by
  refine Confined.conclude (Confined.ite ?_ (confined_trap ..)) .S
  split
  · exact confined_trap ..
  · exact confined_issue ..

theorem confinedOut_tret : ConfinedOut s (execTret s) := ((confined_trapWith s _).ite (confined_issue s _)).conclude .S

end

/-! ### The access unit -/

section
variable {s : State}

theorem confinedOut_aWrite (s : State) (d : BitVec 5) (regs : List (BitVec 5)) (v : Bank → W64) : ConfinedOut s (aWrite s d regs v) :=
  (confined_issue s _).landingRoom.declared.aIssue

theorem confinedOut_aget (d : BitVec 5) : ConfinedOut s (execAget d s) :=
  (confined_withWords fun _ => confined_issue s _).landingRoom.declared.aIssue

theorem confinedOut_ldv (u a : BitVec 5) (q : BitVec 3) (off : BitVec 13) : ConfinedOut s (execLdv u a q off s) := by
  refine Confined.aIssue (Confined.declared (Confined.landingRoom ((confined_queueStall s).ite (confined_withTrans fun t l ht => ?_))))
  exact ht.trap.ite (ht.wait.ite ht.modHere.ok)

theorem OthersKept.segWriteHere {t : State} (h : OthersKept s.cur s t) {l : List Seg} {bs : List (Option Byte)} :
    OthersKept s.cur s (Machine.segWrite t t.cur l bs) := by
  rw [h.cur]
  exact h.segWrite

theorem confinedOut_stv (u a : BitVec 5) (q : BitVec 3) (off : BitVec 13) : ConfinedOut s (execStv u a q off s) := by
  refine Confined.aIssue (Confined.declared (Confined.landingRoom ?_))
  split
  · exact (confined_queueStall s).ite (confined_trapWith ..)
  · refine confined_withTrans fun t l ht => ht.trap.ite (Confined.after ht (confined_withOwnership fun v hv => ?_))
    exact hv.segWriteHere.modHere.ok

theorem confinedOut_lds (a : BitVec 5) (w : Width) (sx : Bool) (off : BitVec 13) : ConfinedOut s (execLds a w sx off s) := by
  refine Confined.aIssue (Confined.declared (Confined.wordRoom (confined_withTrans fun t l ht => ?_)))
  exact ht.wait.ite ht.modHere.ok

theorem confinedOut_sts (a : BitVec 5) (w : Width) (off : BitVec 13) (hc : s.cur < 72) : ConfinedOut s (execSts a w off s) := by
  refine Confined.aIssue (Confined.declared (confined_withWords fun x => confined_withTrans fun t l ht => ?_))
  dsimp only
  split
  · exact (ht.sysWrite (by have := ht.cur; omega)).modHere.ok
  · refine Confined.after ht (confined_withOwnership fun v hv => ?_)
    exact hv.segWriteHere.modHere.ok

theorem confinedOut_atomicIssue (s : State) (op : AtomicOp) (a : BitVec 5) (w8 : Bool) : ConfinedOut s (atomicIssue s op a w8) := by
  refine Confined.aIssue (Confined.declared (Confined.wordRoom (confined_withWords fun x => confined_withTrans fun t l ht => ?_)))
  split
  · exact ht.trap
  · exact ht.modHere.ok

theorem confinedOut_sdef (st : BitVec 4) (a : BitVec 5) : ConfinedOut s (execSdef st a s) := by
  refine Confined.aIssue (Confined.declared ((confined_trapWith s _).ite (confined_withTrans fun t l ht => ht.trap.ite (ht.wait.ite ?_))))
  split
  · exact ht.trap
  · exact ht.modHere.ok

theorem confinedOut_sset (st : BitVec 4) (w : BitVec 3) (a : BitVec 5) : ConfinedOut s (execSset st w a s) :=
  ((confined_trapWith s _).ite (confined_issue s _)).declared.aIssue

theorem confinedOut_sgo (st : BitVec 4) (t : BitVec 5) : ConfinedOut s (execSgo st t s) :=
  ((confined_trapWith s _).ite ((confined_trapWith s _).ite (confined_issue s _))).declared.aIssue

theorem confinedOut_sstop (st : BitVec 4) : ConfinedOut s (execSstop st s) := by
  have stopping : OthersKept s.cur s (s.modHere fun b => { stopStore b st.toNat with aWait := .stopping st }) :=
    (OthersKept.refl ..).modHere
  exact ((confined_issue s _).ite ((confined_issue s _).ite (stopping.wait.ite stopping.modHere.ok))).declared.aIssue

theorem confinedOut_sstat (st : BitVec 4) : ConfinedOut s (execSstat st s) := (confined_issue s _).wordRoom.declared.aIssue

theorem confinedOut_pft (a : BitVec 5) (level : BitVec 2) : ConfinedOut s (execPft a level s) := by
  refine Confined.aIssue (Confined.declared ?_)
  split
  · exact (OthersKept.refl ..).tlbTouch.ok
  · exact confined_pass s
  · exact confined_pass s

theorem confinedOut_tlbsync : ConfinedOut s (execTlbsync s) := by
  refine Confined.aIssue ?_
  split
  · exact confined_issue ..
  · exact confined_rest s
  all_goals exact (confined_rest s).ite (OthersKept.refl ..).releaseAt.modHere.wait

theorem confinedOut_frz (a l : BitVec 5) (g : BitVec 2) : ConfinedOut s (execFrz a l g s) := by
  refine Confined.aIssue (Confined.declared ((confined_pass s).ite ?_))
  split
  · exact confined_trap ..
  · split
    · exact confined_trap ..
    · exact (confined_trapWith ..).ite (confined_issue ..)

theorem othersKept_startCollect (row : Nat) (s : State) (pa size : Nat) (thaw : Bool) : OthersKept row s (startCollect s pa size thaw) :=
  (othersKept_of_onlyMemory (fetchHome_only s pa size)).trans (othersKept_of_tables rfl rfl rfl)

theorem othersKept_lowerLeaf {row : Nat} {s t : State} {asid : Asid} {va next : Nat} {coll : Option Nat}
    (h : lowerLeaf s asid va = .done t next coll) : OthersKept row s t := by
  have counted (at_ pte n : Nat) : OthersKept row s (putFcnt s at_ pte n) := (OthersKept.refl ..).homeWriteBytes
  unfold lowerLeaf at h
  dsimp only at h
  split at h
  · exact absurd h (by simp)
  · split_ifs at h <;> obtain ⟨rfl, -, -⟩ := LeafStep.done.inj h
    · exact (counted ..).trans (othersKept_startCollect ..)
    · exact counted ..

theorem confined_thawStep (s : State) (base len : Nat) (pair : Bool) (from_ : Nat) (leaves : List Nat) :
    Confined s (thawStep s base len pair from_ leaves) := by
  have kept (w : AWait) : OthersKept s.cur s (s.modHere fun b => { b with aWait := w }) := (OthersKept.refl ..).modHere
  have told (t : State) (l : List SideMsg) : OthersKept s.cur t { t with sideOut := l } := othersKept_of_tables rfl rfl rfl
  unfold thawStep
  dsimp only
  refine Confined.ite ?_ ((kept _).wait.ite (Confined.ite ?_ (kept _).ok))
  · split
    · exact (kept _).trap
    · split
      · exact (kept _).wait
      · exact (kept _).trap
      · next h => exact (othersKept_lowerLeaf h).modHere.wait
  · exact ((kept _).trans (told _ _)).wait

theorem confinedOut_thw (a l : BitVec 5) (g : BitVec 2) : ConfinedOut s (execThw a l g s) := by
  have taken : OthersKept s.cur s (takeFree s).2 := othersKept_of_tables rfl rfl rfl
  have told (t : State) (l : List SideMsg) : OthersKept s.cur t { t with sideOut := l } := othersKept_of_tables rfl rfl rfl
  refine Confined.aIssue (Confined.declared ((confined_pass s).ite ?_))
  split
  · exact confined_trap ..
  · split
    · exact confined_thawStep ..
    · split
      · exact taken.wait
      · exact taken.modHere.ok
      · exact taken.modHere.trap
    · exact ((OthersKept.refl s.cur s).modHere.trans (told _ _)).wait
    all_goals exact confined_thawStep ..

end

/-! ### The vector unit -/

section
variable {s : State}

theorem confinedOut_vMap1 (s : State) (d : VDst) (a : VSrc) (m : BitVec 6) (t : ElemType) (lat : Nat) (f : Mode → Nat → Nat) :
    ConfinedOut s (vMap1 s d a m t lat f) :=
  (confined_withSrc fun _ => confined_issue s _).dstRoom.landingRoom.declared.vIssue

theorem confinedOut_vMap2 (s : State) (d : VDst) (a b : VSrc) (m : BitVec 6) (t : ElemType) (lat : Nat) (f : Mode → Nat → Nat → Nat) :
    ConfinedOut s (vMap2 s d a b m t lat f) :=
  (confined_withSrcs fun _ _ => confined_issue s _).dstRoom.landingRoom.declared.vIssue

theorem confinedOut_intMap2 (s : State) (d : VDst) (a b : VSrc) (m : BitVec 6) (t : ElemType) (lat : Nat) (f : Int → Int → Int) :
    ConfinedOut s (intMap2 s d a b m t lat f) := confinedOut_vMap2 ..

theorem confinedOut_vMap3 (s : State) (d : VDst) (a b : VSrc) (c : BitVec 8) (m : BitVec 6) (t : ElemType) (lat : Nat)
    (f : Mode → Nat → Nat → Nat → Nat) : ConfinedOut s (vMap3 s d a b c m t lat f) :=
  (confined_withSrcs fun _ _ => confined_withSrc fun _ => confined_issue s _).dstRoom.landingRoom.declared.vIssue

theorem confinedOut_vShift (s : State) (d : VDst) (a : VSrc) (n : ShiftCount) (m : BitVec 6) (t : ElemType) (f : Nat → Nat → Nat → Nat) :
    ConfinedOut s (vShift s d a n m t f) := by
  unfold vShift
  split
  · exact confinedOut_vMap1 ..
  · exact confinedOut_vMap2 ..

theorem confinedOut_vWiden (s : State) (d : BitVec 8) (a b : VSrc) (m : BitVec 6) (t : ElemType) (quad : Bool)
    (f : Mode → XVal → XVal → XVal → XVal) : ConfinedOut s (vWiden s d a b m t quad f) :=
  (confined_withSrcs fun _ _ => confined_issue s _).landingRoom.declared.vIssue

theorem confinedOut_vcmp (d : BitVec 6) (a b : VSrc) (m : BitVec 6) (t : ElemType) (p : VPred) : ConfinedOut s (execVcmp d a b m t p s) :=
  (confined_withSrcs fun _ _ => confined_issue s _).landingRoom.declared.vIssue

theorem confinedOut_vclass (d : BitVec 6) (a : VSrc) (m : BitVec 6) (t : ElemType) (cls : BitVec 7) :
    ConfinedOut s (execVclass d a m t cls s) :=
  (confined_withSrc fun _ => confined_issue s _).landingRoom.declared.vIssue

theorem confinedOut_maskWrite (s : State) (d : BitVec 6) (regs : List (BitVec 6)) (v : Bank → MWord) :
    ConfinedOut s (maskWrite s d regs v) := (confined_issue s _).landingRoom.declared.vIssue

theorem confinedOut_mset (d : BitVec 6) (mode : MSetMode) : ConfinedOut s (execMset d mode s) := by
  cases mode with
  | zero | ones => exact confinedOut_maskWrite ..
  | xq => exact (confined_withWords fun _ => confined_issue s _).landingRoom.declared.vIssue

theorem confinedOut_maskToCq (s : State) (a : BitVec 6) (t : ElemType) (f : Nat → W64) : ConfinedOut s (maskToCq s a t f) :=
  (confined_issue s _).cqRoom.landingRoom.declared.vIssue

theorem confinedOut_vConvert (s : State) (d : VDst) (a : VSrc) (m : BitVec 6) (t src : ElemType) (words : Nat)
    (f : Mode → List W64 → Nat → Nat) : ConfinedOut s (vConvert s d a m t src words f) :=
  (confined_withWords fun _ => confined_withSrc fun _ => confined_issue s _).dstRoom.landingRoom.declared.vIssue

theorem confinedOut_vsel (d : VDst) (a b : VSrc) (sel m : BitVec 6) (t : ElemType) : ConfinedOut s (execVsel d a b sel m t s) :=
  (confined_withSrcs fun _ _ => confined_issue s _).dstRoom.landingRoom.declared.vIssue

theorem confinedOut_vbcast (d : VDst) (a : VSrc) (j : IndexSrc) (m : BitVec 6) (t : ElemType) :
    ConfinedOut s (execVbcast d a j m t s) :=
  (confined_withIndex fun _ => confined_withSrc fun _ => confined_issue s _).dstRoom.landingRoom.declared.vIssue

theorem confinedOut_vsplat (d : VDst) (m : BitVec 6) (t : ElemType) : ConfinedOut s (execVsplat d m t s) :=
  (confined_withWords fun _ => confined_issue s _).dstRoom.landingRoom.declared.vIssue

theorem confinedOut_vextr (a : VSrc) (j : IndexSrc) (t : ElemType) : ConfinedOut s (execVextr a j t s) :=
  (confined_withIndex fun _ => confined_withSrc fun _ => confined_issue s _).cqRoom.landingRoom.declared.vIssue

theorem confinedOut_vins (d : BitVec 8) (j : IndexSrc) (m : BitVec 6) (t : ElemType) : ConfinedOut s (execVins d j m t s) :=
  (confined_withWords fun _ => confined_issue s _).landingRoom.declared.vIssue

theorem confinedOut_vldi (d : VDst) (i : BitVec 7) (m : BitVec 6) (t : ElemType) : ConfinedOut s (execVldi d i m t s) :=
  (confined_issue s _).dstRoom.landingRoom.declared.vIssue

theorem confinedOut_vPermute (s : State) (d : VDst) (a b : VSrc) (cs : List Nat) (m : BitVec 6) (t : ElemType)
    (f : VWord → Bank → Nat → Nat) : ConfinedOut s (vPermute s d a b cs m t f) :=
  (confined_withSrcs fun _ _ => confined_issue s _).dstRoom.landingRoom.declared.vIssue

theorem confinedOut_vSlide (s : State) (d : VDst) (a b : VSrc) (c : IndexSrc) (m : BitVec 6) (t : ElemType)
    (f : VWord → VWord → Nat → Nat → Nat) : ConfinedOut s (vSlide s d a b c m t f) :=
  (confined_withIndex fun _ => confined_withSrcs fun _ _ => confined_issue s _).dstRoom.landingRoom.declared.vIssue

theorem confinedOut_vrev (d : VDst) (a : VSrc) (m : BitVec 6) (t : ElemType) : ConfinedOut s (execVrev d a m t s) :=
  (confined_withSrc fun _ => confined_issue s _).dstRoom.landingRoom.declared.vIssue

theorem confinedOut_vcompr (d : VDst) (a : VSrc) (sel : BitVec 6) (t : ElemType) (cq : Bool) :
    ConfinedOut s (execVcompr d a sel t cq s) :=
  (confined_withSrc fun _ => confined_issue s _).cqRoom.dstRoom.landingRoom.declared.vIssue

theorem confinedOut_vexpnd (d : BitVec 8) (a : VSrc) (m : BitVec 6) (t : ElemType) : ConfinedOut s (execVexpnd d a m t s) :=
  (confined_withSrc fun _ => confined_issue s _).landingRoom.declared.vIssue

theorem confinedOut_vZip (s : State) (d a : BitVec 8) (t : ElemType) (k : Nat) (f : List (List Nat) → List (List Nat)) :
    ConfinedOut s (vZip s d a t k f) := (confined_issue s _).landingRoom.declared.vIssue

theorem confinedOut_vunpk4 (d : VDst) (a : VSrc) (m : BitVec 6) (t : ElemType) (mode : BitVec 2) :
    ConfinedOut s (execVunpk4 d a m t mode s) :=
  (confined_withSrc fun _ => confined_issue s _).dstRoom.landingRoom.declared.vIssue

theorem confinedOut_vpack4 (d : VDst) (a b : VSrc) (m : BitVec 6) (t : ElemType) (inter sat : Bool) :
    ConfinedOut s (execVpack4 d a b m t inter sat s) :=
  (confined_withSrcs fun _ _ => confined_issue s _).dstRoom.landingRoom.declared.vIssue

theorem confinedOut_vReduce (s : State) (d : RedDst) (a : VSrc) (m : BitVec 6) (t : ElemType) (w : Nat) (signed : Bool) (sup : Nat)
    (pre : Nat → Nat) (f : Mode → Nat → Nat → Nat) : ConfinedOut s (vReduce s d a m t w signed sup pre f) :=
  (confined_withSrc fun _ => confined_issue s _).cqRoom.landingRoom.declared.vIssue

theorem confinedOut_vrsum (d : RedDst) (a : VSrc) (m : BitVec 6) (t : ElemType) : ConfinedOut s (execVrsum d a m t s) := by
  unfold execVrsum
  split
  · exact confinedOut_vReduce ..
  · exact confinedOut_vReduce ..

theorem confinedOut_vramax (d : RedDst) (a : VSrc) (m : BitVec 6) (t : ElemType) : ConfinedOut s (execVramax d a m t s) := by
  unfold execVramax
  split
  · exact confinedOut_vReduce ..
  · exact confinedOut_vReduce ..

theorem confinedOut_vSpecial (s : State) (d : VDst) (a : VSrc) (m : BitVec 6) (f : XVal → XVal) : ConfinedOut s (vSpecial s d a m f) :=
  confinedOut_vMap1 ..

theorem confinedOut_vsetmode (src : ModeSrc) : ConfinedOut s (execVsetmode src s) := by
  cases src with
  | imm rm sat => exact (confined_issue s _).vIssue
  | xq => exact (confined_withWords fun _ => confined_issue s _).vIssue

theorem confinedOut_vdisc (q countM1 : BitVec 3) : ConfinedOut s (execVdisc q countM1 s) := by
  refine Confined.vIssue ?_
  dsimp only
  split
  · exact (confined_issue ..).ite (confined_hold ..)
  · split
    · exact confined_trap ..
    · exact (confined_queueStall s).ite (confined_trap ..)

theorem confinedOut_sliceRead (s : State) (col : Bool) (d : BitVec 8) (t : BitVec 6) (si : SliceIdx) (m : BitVec 6) :
    ConfinedOut s (sliceRead s col d t si m) :=
  (confined_withSlice fun _ => confined_withTile fun _ => confined_sliceChecked fun _ =>
    (confined_trapWith s _).ite (confined_issue s _)).landingRoom.declared.vIssue

theorem confinedOut_sliceWrite (s : State) (col : Bool) (t : BitVec 6) (a : BitVec 8) (si : SliceIdx) (m : BitVec 6) :
    ConfinedOut s (sliceWrite s col t a si m) :=
  (confined_withSlice fun _ => confined_withTile fun _ => confined_sliceChecked fun _ => confined_issue s _).landingRoom.declared.vIssue

theorem confinedOut_tcfg (t : BitVec 6) : ConfinedOut s (execTcfg t s) :=
  (confined_withWords fun _ => confined_withTile fun _ =>
    (confined_trapWith s _).ite ((confined_trapWith s _).ite (confined_issue s _))).declared.vIssue

theorem confinedOut_tzero (t : BitVec 6) : ConfinedOut s (execTzero t s) := by
  refine Confined.vIssue (Confined.declared (Confined.landingRoom (confined_withTile fun x => ?_)))
  split
  · exact confined_trapWith ..
  · exact confined_issue ..

theorem confinedOut_trel (t : BitVec 6) : ConfinedOut s (execTrel t s) :=
  ((confined_rest s).ite (confined_issue s _)).declared.vIssue

end

/-! ### Every instruction of a unit (R49, R95) -/

section
variable {s : State} {i : Instr} {x : Nat × Nat} {f : VFields}

/-- Every instruction of the sequencer keeps what is of other rows. -/
theorem confinedOut_of_encodeS (h : encodeS i = some x) : ConfinedOut s (exec i s) := by
  cases i with
  | add | sub | mul | mulh | mulhz | div | divz | rem | remz | and | or | xor | andn | shl | shr | sar | min | max | minz | maxz =>
    unfold exec
    exact confinedOut_sAlu ..
  | clz | ctz | popc | sext | zext | mov | addi | andi | ori | xori | shli | shri | sari =>
    unfold exec
    exact confinedOut_sUnary ..
  | liw | lih | time | sysr =>
    unfold exec
    exact confinedOut_sWrite ..
  | cmp | cmpi | cand | cor | cnot =>
    unfold exec
    exact confinedOut_cWrite ..
  | br | shadow => exact (confined_issue s _).conclude .S
  | brc | sysw => exact (confined_issue s _).declared.conclude .S
  | call | loopr => exact (confined_issue s _).landingRoom.declared.conclude .S
  | brx | ret =>
    unfold exec
    exact confinedOut_jumpTo ..
  | send => exact (confined_issue s _).wordRoom.landingRoom.declared.conclude .S
  | recv => exact confinedOut_recv ..
  | push => exact confinedOut_push ..
  | pop => exact confinedOut_pop ..
  | resolve => exact confinedOut_resolve ..
  | phase => exact confinedOut_phase ..
  | fence => exact confinedOut_fence ..
  | waitc => exact confinedOut_waitc ..
  | launch => exact confinedOut_launch ..
  | halt => exact confinedOut_halt
  | yield => exact confinedOut_yield
  | realign => exact confinedOut_realign ..
  | trap => exact confinedOut_trap ..
  | tret => exact confinedOut_tret
  | nop => exact (confined_pass s).conclude .S
  | _ => cases h

/-- Every instruction of the access unit keeps what is of other rows. -/
theorem confinedOut_of_encodeA (h : encodeA i = some x) (hc : s.cur < 72) : ConfinedOut s (exec i s) := by
  cases i with
  | aadd | asub | amov | aaddi | aaddiA64 | ashli =>
    unfold exec
    exact confinedOut_aWrite ..
  | aget => exact confinedOut_aget ..
  | ldv => exact confinedOut_ldv ..
  | stv => exact confinedOut_stv ..
  | lds => exact confinedOut_lds ..
  | sts => exact confinedOut_sts _ _ _ hc
  | amoadd | amoxchg | amocas | amomin | amomax | amoand | amoor =>
    unfold exec
    exact confinedOut_atomicIssue ..
  | sdef => exact confinedOut_sdef ..
  | sset => exact confinedOut_sset ..
  | sgo => exact confinedOut_sgo ..
  | sstop => exact confinedOut_sstop ..
  | sstat => exact confinedOut_sstat ..
  | pft a level => exact confinedOut_pft a level
  | tlbsync => exact confinedOut_tlbsync
  | frz => exact confinedOut_frz ..
  | thw => exact confinedOut_thw ..
  | _ => cases h

/-- Every instruction of the vector unit keeps what is of other rows. -/
theorem confinedOut_of_encodeV (h : encodeV i = some f) : ConfinedOut s (exec i s) := by
  cases i with
  | vneg | vabs | vnot | vclz | vpopc | vmov =>
    unfold exec
    exact confinedOut_vMap1 ..
  | vadd | vsub | vmul | vmin | vmax | vand | vor | vxor | vandn | vscale =>
    unfold exec
    exact confinedOut_vMap2 ..
  | vadds | vsubs | vmulh | vavg =>
    unfold exec
    exact confinedOut_intMap2 ..
  | vexp2 | vlog2 | vrcp | vrsq | vsqrt | vtanh | vsigm | vexpm =>
    unfold exec
    exact confinedOut_vSpecial ..
  | vfma | vfms | vfnma =>
    unfold exec
    exact confinedOut_vMap3 ..
  | vshl | vshr | vsar =>
    unfold exec
    exact confinedOut_vShift ..
  | vwadd | vwmul | vwfma =>
    unfold exec
    exact confinedOut_vWiden ..
  | vcmp => exact confinedOut_vcmp ..
  | vclass => exact confinedOut_vclass ..
  | mand | mor | mxor | mandn | mnot | mmov =>
    unfold exec
    exact confinedOut_maskWrite ..
  | mset => exact confinedOut_mset ..
  | mpop | mfirst =>
    unfold exec
    exact confinedOut_maskToCq ..
  | vcvt | vcvts =>
    unfold exec
    exact confinedOut_vConvert ..
  | vsel => exact confinedOut_vsel ..
  | vbcast => exact confinedOut_vbcast ..
  | vsplat => exact confinedOut_vsplat ..
  | vextr => exact confinedOut_vextr ..
  | vins => exact confinedOut_vins ..
  | vldi => exact confinedOut_vldi ..
  | vperm | vperme =>
    unfold exec
    exact confinedOut_vPermute ..
  | vslup | vsldn =>
    unfold exec
    exact confinedOut_vSlide ..
  | vrev => exact confinedOut_vrev ..
  | vcompr => exact confinedOut_vcompr ..
  | vexpnd => exact confinedOut_vexpnd ..
  | vzip2 | vzip3 | vzip4 | vunzip2 | vunzip3 | vunzip4 =>
    unfold exec
    exact confinedOut_vZip ..
  | vunpk4 => exact confinedOut_vunpk4 ..
  | vpack4 => exact confinedOut_vpack4 ..
  | vrsum => exact confinedOut_vrsum ..
  | vrmax | vrmin =>
    unfold exec
    exact confinedOut_vReduce ..
  | vramax => exact confinedOut_vramax ..
  | vsetmode => exact confinedOut_vsetmode ..
  | vdisc => exact confinedOut_vdisc ..
  | vtrd | vtcd =>
    unfold exec
    exact confinedOut_sliceRead ..
  | vtwr | vtwc =>
    unfold exec
    exact confinedOut_sliceWrite ..
  | tcfg => exact confinedOut_tcfg ..
  | tzero => exact confinedOut_tzero ..
  | trel => exact confinedOut_trel ..
  | _ => cases h

/-- Every instruction of a unit keeps what is of other rows. -/
theorem confinedOut_exec (h : encode i = some x) (hc : s.cur < 72) : ConfinedOut s (exec i s) := by
  unfold encode at h
  split at h
  · next hs => exact confinedOut_of_encodeS hs
  · split at h
    · next ha => exact confinedOut_of_encodeA ha hc
    · obtain ⟨f, hf, -⟩ := Option.map_eq_some_iff.mp h
      exact confinedOut_of_encodeV hf

/-- What is due of a unit of a row, when it is an instruction, is one of a unit (R103). -/
theorem encode_of_issueOf {row : Nat} {u : UnitId} (h : issueOf s row u = .run i) : ∃ x, encode i = some x := by
  unfold issueOf at h
  dsimp only at h
  split at h
  · exact absurd h (by simp)
  · split_ifs at h
    split at h
    · exact absurd h (by simp)
    · next hd => exact ⟨_, Due.run.inj h ▸ (encode_of_decodeUnit hd).2⟩

/-- An issue act of a row that answers a state keeps every other bank and entry. -/
theorem others_issue {t : State} {row : Nat} {u : UnitId} (h : runAct s (.issue row u) = .next t) :
    ∀ r, r ≠ row → t.bank r = s.bank r ∧ t.row r = s.row r := by
  intro r hr
  unfold runAct at h
  dsimp only at h
  split at h
  · exact absurd h (by simp)
  · next hrow =>
    have hc : ({ s with cur := row } : State).cur < 72 := Nat.lt_of_not_le hrow
    split at h
    · rw [← Host.Outcome.next.inj h]
      exact ⟨rfl, rfl⟩
    · have kept := othersKept_unitFault { s with cur := row } u (faultOf 0x02 0)
      rw [Host.Outcome.next.inj h] at kept
      exact ⟨kept.bank r hr, kept.entry r hr⟩
    · next i hi =>
      obtain ⟨x, hx⟩ := encode_of_issueOf hi
      obtain ⟨v, hv, kept⟩ := confinedOut_exec hx hc
      rw [← Host.Outcome.next.inj (h.symm.trans hv)] at kept
      exact ⟨kept.bank r hr, kept.entry r hr⟩

end

/-- Settles O44: each instruction of the three units, its faults and its waits, writes the issuing row's bank and entry only. -/
theorem otherBanksUntouched : Obligations.OtherBanksUntouched := by
  unfold Obligations.OtherBanksUntouched
  intro s t row u rest hs h
  rw [step, hs] at h
  exact others_issue (s := { s with agenda := rest }) h

end Sys2Proof
end

section
/-! HALT and its steps, YIELD, and the retirement of a task (R51, R53, R143, R144, R442, R46). -/

namespace Sys2Proof

open Machine

/-! ### A core leaves the bank of the present row -/

theorem cur_leaveBank (s : State) (row : Nat) : (leaveBank s row).cur = s.cur := by rw [leaveBank_eq]

theorem onlyTask_of_modBank {s t : State} {row : Nat} {f : Bank → Bank} {b : Bank} {x : Row}
    (h : OnlyTask (s.modBank row f) t row b x) : OnlyTask s t row b x := by
  obtain ⟨heq, hbank, hrow, hcore⟩ := h
  refine ⟨heq, fun r => ?_, hrow, hcore⟩
  rw [hbank, bank_modBank]
  by_cases hr : r = row
  · rw [if_pos hr, if_pos hr]
  · rw [if_neg hr, if_neg hr, if_neg (Ne.symm hr)]

/-- The bank changes, the row changes, the core leaves, and the instruction at the head is accounted for. -/
theorem onlyTask_leaves (s : State) (f k : Bank → Bank) (g : Row → Row) :
    OnlyTask s ((leaveBank ((s.modHere f).modRow s.cur g) s.cur).modBank (leaveBank ((s.modHere f).modRow s.cur g) s.cur).cur k) s.cur
      (k (f s.here)) (g (s.row s.cur)) := by
  have h := onlyTask_of (s.modHere f) s.cur k g
  rw [show (s.modHere f).bank s.cur = f s.here from (bank_modBank ..).trans (if_pos rfl)] at h
  rw [cur_leaveBank]
  exact onlyTask_of_modBank h

/-! ### HALT (R143) -/

section
variable {s : State} {k : Nat}

theorem exec_halt_first (h : ∀ k, s.here.sWait ≠ .halting k) :
    exec .halt s = .next (conclude .S (if s.here.aQueue = [] ∧ s.here.vQueue = [] then
      .wait (leaveBank ((s.modHere fun b => { b with sWait := .halting 1 }).modRow s.cur fun r => { r with state := .halting }) s.cur)
      else .wait s)) := by
  change execHalt s = _
  unfold execHalt
  cases hw : s.here.sWait with
  | halting k => exact absurd hw (h k)
  | _ => rfl

theorem exec_halt_step (h : s.here.sWait = .halting k) : exec .halt s = .next (conclude .S (haltStep s k)) := by
  change execHalt s = _
  rw [execHalt, h]

/-- A step that changes the bank and goes on to the next. -/
theorem onlyBank_halting (r : State) (f : Bank → Bank) (k : Nat) :
    OnlyBank r (conclude .S (.wait (setSWait (r.modHere f) (.halting k)))) (Bank.stalled { f r.here with sWait := .halting k } .S false) := by
  have h := onlyBank_conclude_wait .S (setSWait (r.modHere f) (.halting k))
  have hb : (setSWait (r.modHere f) (.halting k)).here = { f r.here with sWait := .halting k } := by simp [setSWait]
  rw [hb] at h
  refine onlyBank_trans h rfl fun c hc => ?_
  simp [setSWait, State.modHere, Ne.symm hc]

theorem haltStep_fault {f : FaultRec} (h : heldStore s.here = some f) : haltStep s k = .trap s f := by
  simp only [haltStep, h]

variable (hf : heldStore s.here = none)
include hf

theorem haltStep_landing (hk : k ≤ 1) :
    haltStep s k = if nothingInFlight s.here then .wait (setSWait s (.halting (k + 1))) else .wait s := by
  match k, hk with
  | 0, _ => simp only [haltStep, hf]
  | 1, _ => simp only [haltStep, hf]

theorem haltStep_resolved (h : s.here.shadows = 0) : haltStep s 2 = .wait (setSWait s (.halting 3)) := by
  have hn : openSet s.here = none := by simp [openSet, h]
  simp only [haltStep, hf, hn]

theorem haltStep_resolve {n : BitVec 3} (h : openSet s.here = some n) :
    haltStep s 2 = if 16 ≤ s.here.mx.length then .wait s
      else .wait (s.modHere fun b => { pushResolve b n false s.cycle with shadows := b.shadows &&& ~~~setBit n }) := by
  simp only [haltStep, hf, h]
  rfl

theorem haltStep_stops : haltStep s 3 = .wait (setSWait (s.modHere stopStreams) (.halting 4)) := by simp only [haltStep, hf]

theorem haltStep_streams :
    haltStep s 4 = if s.here.streams.any fun p => p.2.active then .wait s else .wait (setSWait s (.halting 5)) := by
  simp only [haltStep, hf]

theorem haltStep_release :
    haltStep s 5 = .wait (setSWait ((phaseRelease s s.cur 2).modHere discardQueues) (.halting 6)) := by simp only [haltStep, hf]

theorem haltStep_commands (hk : 6 ≤ k) : haltStep s k = .wait s := by
  obtain ⟨n, rfl⟩ : ∃ n, k = n + 6 := ⟨k - 6, by omega⟩
  simp only [haltStep, hf]

end

section
variable {s : State} {k : Nat} (hw : s.here.sWait = .halting k)
include hw

theorem halt_waits (h : haltStep s k = .wait s) : IssuesTo .halt s (s.here.stalled .S false) :=
  issuesTo_of_wait (by rw [exec_halt_step hw, h]) rfl

theorem halt_goes (h : haltStep s k = .wait (setSWait s (.halting (k + 1)))) :
    IssuesTo .halt s (Bank.stalled { s.here with sWait := .halting (k + 1) } .S false) :=
  issuesTo_of_wait_mod (fun b => { b with sWait := .halting (k + 1) }) (by rw [exec_halt_step hw, h]; rfl) rfl

end

section
variable {s : State} (hf : heldStore s.here = none)
include hf

theorem halt_landing {k : Nat} (hw : s.here.sWait = .halting k) (hk : k ≤ 1) :
    (nothingInFlight s.here = true → IssuesTo .halt s (Bank.stalled { s.here with sWait := .halting (k + 1) } .S false)) ∧
      (nothingInFlight s.here = false → IssuesTo .halt s (s.here.stalled .S false)) := by
  have h := haltStep_landing hf hk
  exact ⟨fun hn => halt_goes hw (by rw [h, if_pos hn]), fun hn => halt_waits hw (by rw [h, if_neg (by simp [hn])])⟩

theorem halt_resolve (hw : s.here.sWait = .halting 2) {n : BitVec 3} (hn : openSet s.here = some n) :
    (16 ≤ s.here.mx.length → IssuesTo .halt s (s.here.stalled .S false)) ∧ (s.here.mx.length < 16 →
      IssuesTo .halt s (Bank.stalled { pushResolve s.here n false s.cycle with shadows := s.here.shadows &&& ~~~setBit n } .S false)) := by
  have h := haltStep_resolve hf hn
  exact ⟨fun hfull => halt_waits hw (by rw [h, if_pos hfull]),
    fun hroom => issuesTo_of_wait_mod _ (by rw [exec_halt_step hw, h, if_neg (by omega)]) rfl⟩

theorem halt_streams (hw : s.here.sWait = .halting 4) :
    ((∀ p ∈ s.here.streams, p.2.active = false) → IssuesTo .halt s (Bank.stalled { s.here with sWait := .halting 5 } .S false)) ∧
      ((∃ p ∈ s.here.streams, p.2.active = true) → IssuesTo .halt s (s.here.stalled .S false)) := by
  have h := haltStep_streams hf
  exact ⟨fun hn => halt_goes hw (by rw [h, if_neg (by simpa using hn)]), fun hn => halt_waits hw (by rw [h, if_pos (by simpa using hn)])⟩

theorem halt_stops (hw : s.here.sWait = .halting 3) :
    IssuesTo .halt s (Bank.stalled { stopStreams s.here with sWait := .halting 4 } .S false) :=
  ⟨_, by rw [exec_halt_step hw, haltStep_stops hf], onlyBank_halting ..⟩

theorem halt_releases (hw : s.here.sWait = .halting 5) :
    IssuesFrom .halt s (phaseRelease s s.cur 2)
      (Bank.stalled { discardQueues (phaseRelease s s.cur 2).here with sWait := .halting 6 } .S false) :=
  ⟨_, by rw [exec_halt_step hw, haltStep_release hf], onlyBank_halting ..⟩

end

theorem halt_issues {s : State} (h : ∀ k, s.here.sWait ≠ .halting k) (ha : s.here.aQueue = []) (hv : s.here.vQueue = []) :
    ∃ t, exec .halt s = .next t ∧ OnlyTask s t s.cur (Bank.stalled { s.here with sWait := .halting 1 } .S false)
      { s.row s.cur with state := .halting } := by
  refine ⟨_, exec_halt_first h, ?_⟩
  rw [if_pos ⟨ha, hv⟩]
  exact onlyTask_leaves s (fun b => { b with sWait := .halting 1 }) (fun b => b.stalled .S false) fun r => { r with state := .halting }

theorem halt_blocked {s : State} (h : ∀ k, s.here.sWait ≠ .halting k) (hq : s.here.aQueue ≠ [] ∨ s.here.vQueue ≠ []) :
    IssuesTo .halt s (s.here.stalled .S false) := by
  refine issuesTo_of_wait (u := .S) ?_ rfl
  rw [exec_halt_first h, if_neg fun hc => hq.elim (fun ha => ha hc.1) fun hv => hv hc.2]

/-! ### YIELD (R144) -/

theorem goTo_lineAfter (s : State) : goTo s.here s.cycle (sLine s + 32) = nextLine s (linesOn s 1) := by
  have h : BitVec.ofNat 64 ((sLine s + 32) % 2 ^ 48) = linesOn s 1 := by
    rw [← BitVec.ofInt_natCast]
    simp [linesOn, lineX, sLine]
  rw [goTo, nextLine, h]

theorem yield_leaves (s : State) : ∃ t, exec .yield s = .next t ∧ OnlyTask s t s.cur (Bank.issued (nextLine s (linesOn s 1)) .S)
    { s.row s.cur with state := .bound, since := s.cycle } := by
  rw [← goTo_lineAfter]
  exact ⟨_, rfl, onlyTask_leaves s (fun b => goTo b s.cycle (sLine s + 32)) (fun b => b.issued .S) fun r =>
    { r with state := .bound, since := s.cycle }⟩

/-! ### Retirement (R435, R442, R46) -/

theorem commandsEnded_iff (b : Bank) : commandsEnded b = true ↔ noCommands b := by
  have every (e : Eng) : e ∈ allEngs := by cases e <;> decide
  simp [commandsEnded, noCommands, every]

theorem commandsEnded_eq_false {b : Bank} (h : ∃ e, b.engQ e ≠ []) : commandsEnded b = false := by
  rw [Bool.eq_false_iff, ne_eq, commandsEnded_iff]
  exact fun hc => h.elim fun e he => he (hc e)

/-- A task that is not the last of its launch is counted, and the next pass looks at the launch again. -/
theorem countRetired_more {s : State} {id : Nat} {l : Launch} (h : s.launchOf id = some l) (hn : l.retired + 1 ≠ l.own) :
    countRetired s id = later (putLaunch s { l with retired := l.retired + 1 }) .schedulingPass := by
  simp only [countRetired, h]
  exact if_neg fun hc => hn hc.1

/-- A retiring row once its bank, its entry, its save area and its core are free, and before its groups and its launch count it (R442). -/
def vacated (s : State) (row : Nat) : State :=
  ((leaveBank (freeFrames (endOwners s fun o => decide (o.row = row)) (saveAddr s row) (areaFrames (s.bank row).decl.dmem)) row).setBank row
    (s.bank row).retired).modRow row fun r => { r with state := .free, halted := false }

section
variable (s : State) (row : Nat)

theorem vacated_bank (r : Nat) : (vacated s row).bank r = if r = row then (s.bank row).retired else s.bank r := by
  simp only [vacated, bank_modRow, bank_setBank, leaveBank_bank, eq_comm]
  rfl

theorem vacated_row (r : Nat) : (vacated s row).row r = if r = row then { s.row row with state := .free, halted := false } else s.row r := by
  simp only [vacated, row_modRow, row_setBank, leaveBank_row, eq_comm]
  rfl

theorem vacated_coreAt (c : Nat) : (vacated s row).coreAt c = if c = coreOf row then leftBy (s.coreAt c) row else s.coreAt c :=
  leaveBank_coreAt ..

theorem vacated_mem : (vacated s row).mem = s.mem := leaveBank_mem ..

theorem vacated_launches : (vacated s row).launches = s.launches := leaveBank_launches ..

end

/-- What the retirement of a task leaves when it is not the last of its launch: the row is free, its bank holds what R442 keeps, its core
is idle, and the launch counts it. -/
theorem retireRow_leaves {s : State} {row : Nat} {l : Launch} (h : s.launchOf (s.bank row).launch = some l) (hn : l.retired + 1 ≠ l.own) :
    (∀ r, (retireRow s row).bank r = if r = row then (s.bank row).retired else s.bank r) ∧
    (∀ r, (retireRow s row).row r = if r = row then { s.row row with state := .free, halted := false } else s.row r) ∧
    (∀ c, (retireRow s row).coreAt c = if c = coreOf row then leftBy (s.coreAt c) row else s.coreAt c) ∧
    (retireRow s row).mem = s.mem ∧
    (retireRow s row).launches = s.launches.map fun x => if x.id = l.id then { l with retired := l.retired + 1 } else x := by
  obtain ⟨gt, sh, hg⟩ := groups_eq (vacated s row) (rowGroups (s.row row)) (rowGroups (s.row row))
  have hr : retireRow s row = later (putLaunch { vacated s row with gt := gt, shared := sh } { l with retired := l.retired + 1 }) .schedulingPass := by
    have hl : State.launchOf { vacated s row with gt := gt, shared := sh } (s.bank row).launch = some l := by
      rw [← h, State.launchOf, State.launchOf, vacated_launches]
    rw [← countRetired_more hl hn, ← hg]
    rfl
  rw [hr]
  exact ⟨vacated_bank s row, vacated_row s row, vacated_coreAt s row, vacated_mem s row, by rw [← vacated_launches s row]; rfl⟩

theorem retirement_dying {s : State} {row : Nat} {c : BitVec 8} (h : (s.bank row).dying = some c) :
    retirement s row = if commandsEnded (s.bank row) && decide ((s.bank row).atomics = []) then retireRow (phaseRelease s row 2) row else s := by
  simp only [retirement, h]
  rfl

theorem retirement_halted {s : State} {row : Nat} (hd : (s.bank row).dying = none) (hs : (s.row row).state = .halting)
    (hf : (s.bank row).fault = none) (hl : (s.bank row).faults = []) :
    retirement s row = if haltDone (s.bank row) && commandsEnded (s.bank row) then retireRow s row else s := by
  simp [retirement, hd, hs, hf, hl]

section
variable {s : State} {row : Nat}

theorem retirement_halted_waits (hd : (s.bank row).dying = none) (hs : (s.row row).state = .halting) (hf : (s.bank row).fault = none)
    (hl : (s.bank row).faults = []) (h : (∃ e, (s.bank row).engQ e ≠ []) ∨ haltDone (s.bank row) = false) : retirement s row = s := by
  rw [retirement_halted hd hs hf hl]
  rcases h with he | hh
  · simp [commandsEnded_eq_false he]
  · simp [hh]

theorem retirement_dying_waits {c : BitVec 8} (hd : (s.bank row).dying = some c)
    (h : (∃ e, (s.bank row).engQ e ≠ []) ∨ (s.bank row).atomics ≠ []) : retirement s row = s := by
  rw [retirement_dying hd]
  rcases h with he | ha
  · simp [commandsEnded_eq_false he]
  · simp [ha]

theorem retirement_halted_leaves (hd : (s.bank row).dying = none) (hs : (s.row row).state = .halting) (hf : (s.bank row).fault = none)
    (hl : (s.bank row).faults = []) (hc : noCommands (s.bank row)) (hh : haltDone (s.bank row) = true) :
    retirement s row = retireRow s row := by
  rw [retirement_halted hd hs hf hl, (commandsEnded_iff _).mpr hc, hh]
  rfl

theorem retirement_dying_leaves {c : BitVec 8} (hd : (s.bank row).dying = some c) (hc : noCommands (s.bank row))
    (ha : (s.bank row).atomics = []) : retirement s row = retireRow (phaseRelease s row 2) row := by
  rw [retirement_dying hd, (commandsEnded_iff _).mpr hc, if_pos (by simp [ha])]

end

theorem launches_phaseRelease (s : State) (row level : Nat) : (phaseRelease s row level).launches = s.launches := by
  change (releaseAt s row level).launches = s.launches
  rw [releaseAt_eq]
  rfl

/-- A terminated task is released first, and what its launch counts does not depend on it (R435, R46). -/
theorem retireRow_released {s : State} {row : Nat} {l : Launch} (h : s.launchOf (s.bank row).launch = some l) (hn : l.retired + 1 ≠ l.own) :
    let t := retireRow (phaseRelease s row 2) row
    (∀ r, t.bank r = if r = row then { (s.bank row).retired with pend := [], under := [] } else s.bank r) ∧
    (∀ r, t.row r = if r = row then { s.row row with state := .free, halted := false } else s.row r) ∧
    t.mem = (releaseAt s row 2).mem ∧
    t.launches = s.launches.map fun x => if x.id = l.id then { l with retired := l.retired + 1 } else x := by
  have hb : (phaseRelease s row 2).bank row = { s.bank row with pend := [], under := [] } := by rw [bank_phaseRelease, if_pos rfl]
  have hl : (phaseRelease s row 2).launchOf ((phaseRelease s row 2).bank row).launch = some l := by
    rw [hb, State.launchOf, launches_phaseRelease]
    exact h
  obtain ⟨hbank, hrow, -, hmem, hlaunches⟩ := retireRow_leaves hl hn
  refine ⟨fun r => ?_, fun r => ?_, hmem, ?_⟩
  · rw [hbank, hb, bank_phaseRelease]
    split
    · rfl
    · next hr => rw [if_neg (Ne.symm hr)]
  · rw [hrow, row_phaseRelease, row_phaseRelease]
  · rw [hlaunches, launches_phaseRelease]

/-- Settles O45: HALT by the equation of each step, YIELD and the two retirements by what a core's leaving and a row's freeing keep. -/
theorem ending : Obligations.Ending := by
  unfold Obligations.Ending
  refine ⟨fun s h => ⟨halt_issues h, halt_blocked h⟩, fun s k f hw hf => ?_, fun s k hw hf => ?_, yield_leaves,
    fun s row hd hs hf hl => ⟨fun hn => ?_, fun hc hh l hlaunch hmore => ?_⟩,
    fun s row c hd => ⟨fun hn => ?_, fun hc ha l hlaunch hmore => ?_⟩, fun b => ?_⟩
  · rw [TrapsWith, exec_halt_step hw, haltStep_fault hf, conclude_trap]
  · refine ⟨halt_landing hf hw, ?_, ?_, ?_, ?_, fun hk => halt_waits hw (haltStep_commands hf hk)⟩ <;> rintro rfl
    · exact ⟨fun hn => halt_goes hw (haltStep_resolved hf hn), fun n => halt_resolve hf hw⟩
    · exact halt_stops hf hw
    · exact halt_streams hf hw
    · exact halt_releases hf hw
  · exact congrArg Host.Outcome.next (retirement_halted_waits hd hs hf hl hn)
  · exact ⟨_, congrArg Host.Outcome.next (retirement_halted_leaves hd hs hf hl hc hh), retireRow_leaves hlaunch hmore⟩
  · exact congrArg Host.Outcome.next (retirement_dying_waits hd hn)
  · exact ⟨_, congrArg Host.Outcome.next (retirement_dying_leaves hd hc ha), retireRow_released hlaunch hmore⟩
  · exact ⟨fun e => by cases e <;> rfl, rfl, rfl, rfl, rfl, rfl, rfl, rfl, rfl, rfl, rfl, rfl, rfl, rfl, rfl, rfl⟩

end Sys2Proof
end

section
/-! Decoding an encoded instruction: codes of operands, fields of words, and the words of the sequencer and of the access unit
(R78 to R81, R86 to R89). -/

namespace Sys2Proof

/-! ### Codes of operands (R83, R85, R86, R150, R161, R186, R228) -/

theorem Width.ofCode_code (w : Width) : Width.ofCode w.code = some w := by cases w <;> rfl
theorem Pred.ofCode_code (p : Pred) : Pred.ofCode p.code = some p := by cases p <;> rfl
theorem Eng.ofNum_num (e : Eng) : Eng.ofNum e.num = some e := by cases e <;> rfl
theorem SysReg.ofCode_code (n : SysReg) : SysReg.ofCode n.code = some n := by cases n <;> rfl
theorem Width.code_lt (w : Width) : w.code < 4 := by cases w <;> decide
theorem Pred.code_lt (p : Pred) : p.code < 6 := by cases p <;> decide
theorem Eng.num_lt (e : Eng) : e.num < 6 := by cases e <;> decide
theorem SysReg.code_lt (n : SysReg) : n.code < 0x22 := by cases n <;> decide

theorem ElemType.ofCode_code (t : ElemType) : ElemType.ofCode t.code = some t := by cases t <;> rfl
theorem ElemType.code_lt (t : ElemType) : t.code < 32 := by cases t <;> decide
theorem VPred.ofCode_code (p : VPred) : VPred.ofCode p.code = some p := by cases p <;> rfl
theorem VPred.code_lt (p : VPred) : p.code < 7 := by cases p <;> decide
theorem Rm.ofCode_code (m : Rm) : Rm.ofCode m.code = some m := by cases m <;> rfl
theorem Rm.code_lt (m : Rm) : m.code < 8 := by cases m <;> decide

theorem toNat_beq_one (b : Bool) : (b.toNat == 1) = b := by cases b <;> rfl

theorem beq_one_toNat_mod (q : Bool) : (q.toNat % 2 == 1) = q := by cases q <;> rfl

/-! ### Fields of a word (R6) -/

theorem bitsOf_self {x hi : Nat} (h : x < 2 ^ (hi + 1)) : bitsOf x hi 0 = x := by
  rw [bitsOf, pow_zero, Nat.div_one, Nat.sub_zero, Nat.mod_eq_of_lt h]

/-- A field below the part that begins at bit `k` does not see it. -/
theorem bitsOf_low {x y hi lo k : Nat} (h : hi < k) : bitsOf (x + y * 2 ^ k) hi lo = bitsOf x hi lo := by
  unfold bitsOf
  rcases Nat.lt_or_ge hi lo with hlo | hlo
  · rw [show hi + 1 - lo = 0 by omega]
    simp only [pow_zero, Nat.mod_one]
  · obtain ⟨m, rfl⟩ : ∃ m, k = lo + (hi + 1 - lo) + m := ⟨k - (hi + 1), by omega⟩
    rw [show y * 2 ^ (lo + (hi + 1 - lo) + m) = 2 ^ lo * (2 ^ (hi + 1 - lo) * (y * 2 ^ m)) by rw [pow_add, pow_add]; ring,
      Nat.add_mul_div_left _ _ (by positivity), Nat.add_mul_mod_self_left]

/-- A field at or above bit `k` is a field of the part that begins there. -/
theorem bitsOf_high {x y hi lo k : Nat} (hx : x < 2 ^ k) (h : k ≤ lo) (hlo : lo ≤ hi) :
    bitsOf (x + y * 2 ^ k) hi lo = bitsOf y (hi - k) (lo - k) := by
  obtain ⟨m, rfl⟩ := Nat.exists_eq_add_of_le h
  unfold bitsOf
  rw [pow_add, ← Nat.div_div_eq_div_mul, Nat.add_mul_div_right _ _ (by positivity), Nat.div_eq_of_lt hx, Nat.zero_add,
    Nat.add_sub_cancel_left]
  congr 2
  omega

/-! ### Words of the sequencer (R78, R79, R86, R87) -/

theorem packS32_fields {op d a b f : Nat} (hd : d < 64) (ha : a < 64) (hb : b < 64) (hf : f < 128) (ho : op < 128) :
    bitsOf (packS op d a b f) 31 25 = op ∧ bitsOf (packS op d a b f) 24 19 = d ∧
      bitsOf (packS op d a b f) 18 13 = a ∧ bitsOf (packS op d a b f) 12 7 = b ∧
      bitsOf (packS op d a b f) 6 0 = f := by
  have h := packS_fields (hi := 0) hd ha hb hf ho
  rw [Nat.mul_zero, Nat.add_zero] at h
  obtain ⟨hop, hd', ha', hb', hf', -⟩ := h
  exact ⟨hop, hd', ha', hb', hf'⟩

/-- The kind of RESOLVE stands in bits 4:3 (R86). -/
theorem packS_kind {op d a b f : Nat} (hf : f < 32) : bitsOf (packS op d a b f) 4 3 = f / 8 := by
  unfold packS bitsOf
  omega

theorem packSI_fields {op d a i : Nat} (hd : d < 64) (ha : a < 64) (hi : i < 8192) (ho : op < 128) :
    bitsOf (packSI op d a i) 31 25 = op ∧ bitsOf (packSI op d a i) 24 19 = d ∧
      bitsOf (packSI op d a i) 18 13 = a ∧ bitsOf (packSI op d a i) 12 0 = i := by
  unfold packSI bitsOf
  refine ⟨?_, ?_, ?_, ?_⟩ <;> omega

theorem packSB_fields {op c inv disp : Nat} (hc : c < 16) (hi : inv < 2) (hd : disp < 2 ^ 20) (ho : op < 128) :
    bitsOf (packSB op c inv disp) 31 25 = op ∧ bitsOf (packSB op c inv disp) 24 21 = c ∧
      bitsOf (packSB op c inv disp) 20 20 = inv ∧ bitsOf (packSB op c inv disp) 19 0 = disp := by
  unfold packSB bitsOf
  refine ⟨?_, ?_, ?_, ?_⟩ <;> omega

section
variable {tag w : Nat} {i : Instr}

theorem rawS32_cmpi (p : Pred) (d : BitVec 4) (a : BitVec 6) (i : BitVec 13) :
    rawS32 (packSI (0x28 + p.code) d.toNat a.toNat i.toNat) = some (.cmpi p d a i) := by
  have := p.code_lt
  cases p <;> simp (disch := omega) only [rawS32, Pred.code, packSI_fields, Nat.reduceAdd, BitVec.ofNat_toNat, BitVec.setWidth_eq]

/-- Every encoded instruction of the sequencer is read back from its word (R86, R87). -/
theorem rawUnit_of_encodeS (h : encodeS i = some (tag, w)) : rawUnit tag w = some i := by
  cases i with
  | add | sub | mul | mulh | mulhz | div | divz | rem | remz | and | or | xor | andn | shl | shr | sar | min | max | minz | maxz
  | clz | ctz | popc | mov | cand | cor | cnot | waitc | launch | realign | halt | yield | tret | nop | brx | ret
  | shadow | phase | fence =>
    cases h
    simp (disch := omega) only [rawUnit, rawS32, packS32_fields, BitVec.ofNat_toNat, BitVec.setWidth_eq]
  | sext d a w | zext d a w =>
    cases h
    have := w.code_lt
    simp (disch := omega) only [rawUnit, rawS32, packS32_fields, BitVec.ofNat_toNat, BitVec.setWidth_eq, Width.ofCode_code, Option.map_some]
  | cmp p =>
    cases h
    have := p.code_lt
    simp (disch := omega) only [rawUnit, rawS32, packS32_fields, BitVec.ofNat_toNat, BitVec.setWidth_eq, Pred.ofCode_code, Option.map_some]
  | cmpi p =>
    cases h
    rw [rawUnit, rawS32_cmpi]
  | addi | andi | ori | xori | shli | shri | sari | trap =>
    cases h
    simp (disch := omega) only [rawUnit, rawS32, packSI_fields, BitVec.ofNat_toNat, BitVec.setWidth_eq]
  | liw | lih | loopr =>
    cases h
    simp (disch := omega) only [rawUnit, rawS64, packS_fields, BitVec.ofNat_toNat, BitVec.setWidth_eq, Nat.mod_eq_of_lt]
  | brc _ inv =>
    cases h
    have := Bool.toNat_lt inv
    simp (disch := omega) only [rawUnit, rawS32, packSB_fields, BitVec.ofNat_toNat, BitVec.setWidth_eq, toNat_beq_one]
  | br | call =>
    cases h
    simp (disch := omega) only [rawUnit, rawS32, packSB_fields, BitVec.ofNat_toNat, BitVec.setWidth_eq]
  | send q | recv d q | time d q =>
    cases q <;> cases h <;>
      simp (disch := omega) only [rawUnit, rawS32, packS32_fields, BitVec.ofNat_toNat, BitVec.setWidth_eq]
  | push e | pop x e =>
    cases h
    have := e.num_lt
    simp (disch := omega) only [rawUnit, rawS32, packS32_fields, BitVec.ofNat_toNat, BitVec.setWidth_eq, Eng.ofNum_num, Option.map_some]
  | resolve n k =>
    have hn := n.isLt
    cases k with
    | discard =>
      cases h
      have hk : n.toNat / 8 = 0 := by omega
      simp (disch := omega) only [rawUnit, rawS32, packS32_fields, packS_kind, hk, BitVec.ofNat_toNat, BitVec.setWidth_eq]
    | commit =>
      cases h
      have hk : (8 + n.toNat) / 8 = 1 := by omega
      have hset : BitVec.ofNat 3 (8 + n.toNat) = n := by bv_omega
      simp (disch := omega) only [rawUnit, rawS32, packS32_fields, packS_kind, hk, hset]
    | cond y =>
      cases h
      have hk : (16 + n.toNat) / 8 = 2 := by omega
      have hset : BitVec.ofNat 3 (16 + n.toNat) = n := by bv_omega
      simp (disch := omega) only [rawUnit, rawS32, packS32_fields, packS_kind, hk, hset, BitVec.ofNat_toNat, BitVec.setWidth_eq]
  | sysr d n | sysw n a =>
    cases h
    have := n.code_lt
    simp (disch := omega) only [rawUnit, rawS32, packSI_fields, BitVec.ofNat_toNat, BitVec.setWidth_eq, SysReg.ofCode_code, Option.map_some]
  | _ => cases h

end

/-! ### Words of the access unit (R81, R88, R89) -/

theorem packA_fields {op d a i : Nat} (hd : d < 32) (ha : a < 32) (hi : i < 2 ^ 16) (ho : op < 64) :
    bitsOf (packA op d a i) 31 26 = op ∧ bitsOf (packA op d a i) 25 21 = d ∧ bitsOf (packA op d a i) 20 16 = a := by
  unfold packA bitsOf
  refine ⟨?_, ?_, ?_⟩ <;> omega

/-- The fields of imm16 (R81). -/
theorem packA_imm {op d a i hi lo : Nat} (h : hi < 16) : bitsOf (packA op d a i) hi lo = bitsOf i hi lo := by
  rw [packA, show op * 2 ^ 26 + d * 2 ^ 21 + a * 2 ^ 16 + i = i + (op * 2 ^ 10 + d * 2 ^ 5 + a) * 2 ^ 16 by omega, bitsOf_low h]

theorem packA64_fields {op d a i n : Nat} (hd : d < 32) (ha : a < 32) (hi : i < 2 ^ 16) (ho : op < 64) (hn : n < 2 ^ 32) :
    bitsOf (packA op d a i + 2 ^ 32 * n) 31 26 = op ∧ bitsOf (packA op d a i + 2 ^ 32 * n) 25 21 = d ∧
      bitsOf (packA op d a i + 2 ^ 32 * n) 20 16 = a ∧ bitsOf (packA op d a i + 2 ^ 32 * n) 63 32 = n := by
  unfold packA bitsOf
  refine ⟨?_, ?_, ?_, ?_⟩ <;> omega

theorem vecMemImm_lt (q : BitVec 3) (off : BitVec 13) : vecMemImm q off < 2 ^ 16 := by
  unfold vecMemImm
  omega

theorem vecMemImm_fields (q : BitVec 3) (off : BitVec 13) :
    bitsOf (vecMemImm q off) 15 13 = q.toNat ∧ bitsOf (vecMemImm q off) 12 0 = off.toNat := by
  unfold vecMemImm bitsOf
  constructor <;> omega

theorem amoImm_lt (w8 z : Bool) : amoImm w8 z < 2 ^ 16 := by cases w8 <;> cases z <;> decide

theorem amoImm_fields (w8 z : Bool) : (bitsOf (amoImm w8 z) 14 14 == 1) = w8 ∧ (bitsOf (amoImm w8 z) 13 13 == 1) = z := by
  cases w8 <;> cases z <;> decide

theorem memImm_fields {k : Width} {s : Nat} {off : BitVec 13} (hs : s < 2) :
    bitsOf (k.code * 2 ^ 14 + s * 2 ^ 13 + off.toNat) 15 14 = k.code ∧ bitsOf (k.code * 2 ^ 14 + s * 2 ^ 13 + off.toNat) 13 13 = s ∧
      bitsOf (k.code * 2 ^ 14 + s * 2 ^ 13 + off.toNat) 12 0 = off.toNat := by
  have := k.code_lt
  unfold bitsOf
  refine ⟨?_, ?_, ?_⟩ <;> omega

theorem rangeImm_fields (g : BitVec 2) (l : BitVec 5) :
    bitsOf (g.toNat * 2 ^ 5 + l.toNat) 6 5 = g.toNat ∧ bitsOf (g.toNat * 2 ^ 5 + l.toNat) 4 0 = l.toNat := by
  unfold bitsOf
  constructor <;> omega

section
variable {tag w : Nat} {i : Instr}

/-- Every encoded instruction of the access unit is read back from its word (R88, R89). -/
theorem rawUnit_of_encodeA (h : encodeA i = some (tag, w)) : rawUnit tag w = some i := by
  cases i with
  | aadd | asub | amov | aget | aaddi | ashli | sdef | sset | sgo | sstop | sstat | pft | tlbsync =>
    cases h
    simp (disch := omega) only [rawUnit, rawA32, packA_fields, packA_imm, bitsOf_self, BitVec.ofNat_toNat, BitVec.setWidth_eq]
  | aaddiA64 =>
    cases h
    simp (disch := omega) only [rawUnit, rawA64, packA64_fields, BitVec.ofNat_toNat, BitVec.setWidth_eq]
  | ldv _ _ q off | stv _ _ q off =>
    cases h
    have := vecMemImm_lt q off
    simp (disch := omega) only [rawUnit, rawA32, packA_fields, packA_imm, vecMemImm_fields, BitVec.ofNat_toNat, BitVec.setWidth_eq]
  | lds _ k sx off =>
    cases h
    have := k.code_lt
    have := Bool.toNat_lt sx
    simp (disch := omega) only [rawUnit, rawA32, packA_fields, packA_imm, memImm_fields, BitVec.ofNat_toNat, BitVec.setWidth_eq,
      Width.ofCode_code, Option.map_some, toNat_beq_one]
  | sts _ k off =>
    cases h
    have := k.code_lt
    have hi := memImm_fields (k := k) (s := 0) (off := off) (by decide)
    rw [Nat.zero_mul, Nat.add_zero] at hi
    simp (disch := omega) only [rawUnit, rawA32, packA_fields, packA_imm, hi, BitVec.ofNat_toNat, BitVec.setWidth_eq,
      Width.ofCode_code, Option.map_some]
  | amoadd _ w8 | amoxchg _ w8 | amocas _ w8 | amoand _ w8 | amoor _ w8 =>
    cases h
    have := amoImm_lt w8 false
    simp (disch := omega) only [rawUnit, rawA32, packA_fields, packA_imm, amoImm_fields, BitVec.ofNat_toNat, BitVec.setWidth_eq]
  | amomin _ w8 z | amomax _ w8 z =>
    cases h
    have := amoImm_lt w8 z
    simp (disch := omega) only [rawUnit, rawA32, packA_fields, packA_imm, amoImm_fields, BitVec.ofNat_toNat, BitVec.setWidth_eq]
  | frz | thw =>
    cases h
    simp (disch := omega) only [rawUnit, rawA32, packA_fields, packA_imm, rangeImm_fields, BitVec.ofNat_toNat, BitVec.setWidth_eq]
  | _ => cases h

end

end Sys2Proof
end

section
/-! Decoding an encoded vector instruction (R82, R84, R85, R90, R177 to R216). -/

namespace Sys2Proof

/-! ### Fields of a V64 word (R82, R84) -/

theorem VSrc.field_lt (a : VSrc) : a.field < 256 := by cases a <;> (simp only [VSrc.field]; omega)
theorem VDst.field_lt (d : VDst) : d.field < 256 := by cases d <;> (simp only [VDst.field]; omega)
theorem RedDst.field_lt (d : RedDst) : d.field < 256 := by cases d <;> (simp only [RedDst.field]; omega)
theorem RedDst.imm7_lt (d : RedDst) : d.imm7 < 128 := by cases d <;> (simp only [RedDst.imm7]; omega)
theorem SliceIdx.field_lt (s : SliceIdx) : s.field < 256 := by cases s <;> (simp only [SliceIdx.field]; omega)
theorem SliceIdx.imm7_lt (s : SliceIdx) : s.imm7 < 128 := by cases s <;> (simp only [SliceIdx.imm7]; omega)
theorem IndexSrc.imm7_lt (j : IndexSrc) : j.imm7 < 128 := by cases j <;> (simp only [IndexSrc.imm7]; omega)

/-- The fields lie within their widths (R82). -/
def VFields.Fits (f : VFields) : Prop :=
  f.opc < 1024 ∧ f.vd < 256 ∧ f.va < 256 ∧ f.vb < 256 ∧ f.vc < 256 ∧ f.mask < 64 ∧ f.ty < 32 ∧ f.imm < 128

/-- Fields within their widths are read back from the word (R82). -/
theorem VFields.of_pack {f : VFields} (h : f.Fits) : VFields.of f.pack = f := by
  obtain ⟨opc, vd, va, vb, vc, mask, ty, qa, qb, peek, qd, imm⟩ := f
  obtain ⟨hopc, hvd, hva, hvb, hvc, hmask, hty, himm⟩ := h
  simp only at hopc hvd hva hvb hvc hmask hty himm
  have hqa := Bool.toNat_lt qa
  have hqb := Bool.toNat_lt qb
  have hpeek := Bool.toNat_lt peek
  have hqd := Bool.toNat_lt qd
  have bit {b : Bool} {n : Nat} (h : n = b.toNat) : (n == 1) = b := by subst h; cases b <;> rfl
  simp only [VFields.of, VFields.pack, bitsOf, VFields.mk.injEq]
  refine ⟨?_, ?_, ?_, ?_, ?_, ?_, ?_, bit ?_, bit ?_, bit ?_, bit ?_, ?_⟩ <;> omega

theorem VDst.of_field (d : VDst) : (if d.isSq then VDst.sq (.ofNat 3 d.field) else .reg (.ofNat 8 d.field)) = d := by
  cases d <;> simp [VDst.isSq, VDst.field]

theorem VSrc.of_field (a : VSrc) : (if a.isLq then VSrc.lq (.ofNat 3 a.field) a.isPeek else .reg (.ofNat 8 a.field)) = a := by
  cases a <;> simp [VSrc.isLq, VSrc.field, VSrc.isPeek]

/-- Two sources that agree on PEEK are read back from its one bit (R84). -/
theorem VSrc.of_fields {a b : VSrc} (h : a.peekAgree b = true) :
    (if a.isLq then VSrc.lq (.ofNat 3 a.field) (a.isPeek || b.isPeek) else .reg (.ofNat 8 a.field)) = a ∧
    (if b.isLq then VSrc.lq (.ofNat 3 b.field) (a.isPeek || b.isPeek) else .reg (.ofNat 8 b.field)) = b := by
  cases a <;> cases b <;> simp_all [VSrc.peekAgree, VSrc.isLq, VSrc.field, VSrc.isPeek]

theorem IndexSrc.of_imm7 (j : IndexSrc) : (if 64 ≤ j.imm7 then IndexSrc.xq else .imm (.ofNat 6 j.imm7)) = j := by
  cases j with
  | imm n => simp [IndexSrc.imm7, n.isLt]
  | xq => rfl

theorem SliceIdx.of_imm7 (s : SliceIdx) : (if s.imm7 % 2 = 1 then SliceIdx.xq else .imm (.ofNat 8 s.field)) = s := by
  cases s <;> simp [SliceIdx.imm7, SliceIdx.field]

section
variable {opc t imm c d8 : Nat} {d : VDst} {a b : VSrc} {m : BitVec 6} {n : ShiftCount} {f : VFields} {i : Instr} {ty : ElemType}

theorem fieldsDA_fits (ho : opc < 1024) (ht : t < 32) (hi : imm < 128) : (fieldsDA opc d a m t imm).Fits :=
  ⟨ho, d.field_lt, a.field_lt, Nat.zero_lt_succ _, Nat.zero_lt_succ _, m.isLt, ht, hi⟩

theorem fieldsDAB_fits (ho : opc < 1024) (hc : c < 256) (ht : t < 32) (hi : imm < 128) : (fieldsDAB opc d a b c m t imm).Fits :=
  ⟨ho, d.field_lt, a.field_lt, b.field_lt, hc, m.isLt, ht, hi⟩

theorem fieldsRA_fits (ho : opc < 1024) (hd : d8 < 256) (ht : t < 32) (hi : imm < 128) : (fieldsRA opc d8 a m t imm).Fits :=
  ⟨ho, hd, a.field_lt, Nat.zero_lt_succ _, Nat.zero_lt_succ _, m.isLt, ht, hi⟩

theorem fieldsRAB_fits (ho : opc < 1024) (hd : d8 < 256) (ht : t < 32) (hi : imm < 128) : (fieldsRAB opc d8 a b m t imm).Fits :=
  ⟨ho, hd, a.field_lt, b.field_lt, Nat.zero_lt_succ _, m.isLt, ht, hi⟩

theorem fieldsShift_fits (ho : opc < 1024) (ht : t < 32) : (fieldsShift opc d a n m t).Fits := by
  cases n with
  | imm k => exact fieldsDA_fits ho ht (by omega)
  | src b => exact fieldsDAB_fits ho (by decide) ht (by decide)

theorem fieldsDA_reads : (fieldsDA opc d a m t imm).dst = d ∧ (fieldsDA opc d a m t imm).srcA = a ∧
    (fieldsDA opc d a m t imm).opc = opc ∧ (fieldsDA opc d a m t imm).mask = m.toNat ∧ (fieldsDA opc d a m t imm).imm = imm :=
  ⟨d.of_field, a.of_field, rfl, rfl, rfl⟩

theorem fieldsDAB_reads (h : a.peekAgree b = true) : (fieldsDAB opc d a b c m t imm).dst = d ∧
    (fieldsDAB opc d a b c m t imm).srcA = a ∧ (fieldsDAB opc d a b c m t imm).srcB = b ∧
    (fieldsDAB opc d a b c m t imm).opc = opc ∧ (fieldsDAB opc d a b c m t imm).vc = c ∧
    (fieldsDAB opc d a b c m t imm).mask = m.toNat ∧ (fieldsDAB opc d a b c m t imm).imm = imm :=
  ⟨d.of_field, (VSrc.of_fields h).1, (VSrc.of_fields h).2, rfl, rfl, rfl, rfl⟩

theorem fieldsRA_reads : (fieldsRA opc d8 a m t imm).srcA = a ∧ (fieldsRA opc d8 a m t imm).opc = opc ∧
    (fieldsRA opc d8 a m t imm).vd = d8 ∧ (fieldsRA opc d8 a m t imm).mask = m.toNat ∧ (fieldsRA opc d8 a m t imm).imm = imm :=
  ⟨a.of_field, rfl, rfl, rfl, rfl⟩

theorem fieldsRA_red (r : RedDst) : (fieldsRA opc r.field a m t r.imm7).red = some r := by
  cases r <;> simp [VFields.red, fieldsRA, RedDst.imm7, RedDst.field]

theorem fieldsRAB_reads (h : a.peekAgree b = true) : (fieldsRAB opc d8 a b m t imm).srcA = a ∧
    (fieldsRAB opc d8 a b m t imm).srcB = b ∧ (fieldsRAB opc d8 a b m t imm).opc = opc ∧
    (fieldsRAB opc d8 a b m t imm).vd = d8 ∧ (fieldsRAB opc d8 a b m t imm).mask = m.toNat ∧
    (fieldsRAB opc d8 a b m t imm).imm = imm :=
  ⟨(VSrc.of_fields h).1, (VSrc.of_fields h).2, rfl, rfl, rfl, rfl⟩

theorem fieldsShift_reads (h : shiftOk a n = true) : (fieldsShift opc d a n m t).dst = d ∧ (fieldsShift opc d a n m t).srcA = a ∧
    (fieldsShift opc d a n m t).shift = n ∧ (fieldsShift opc d a n m t).opc = opc ∧ (fieldsShift opc d a n m t).ty = t ∧
    (fieldsShift opc d a n m t).mask = m.toNat := by
  cases n with
  | imm k =>
    have hk : BitVec.ofNat 6 (64 + k.toNat) = k := by bv_omega
    refine ⟨d.of_field, a.of_field, ?_, rfl, rfl, rfl⟩
    simp only [VFields.shift, fieldsShift, fieldsDA, Nat.le_add_right, if_true, hk]
  | src b =>
    obtain ⟨hd, ha, hb, -⟩ := fieldsDAB_reads (opc := opc) (d := d) (c := 0) (m := m) (t := t) (imm := 0) h
    exact ⟨hd, ha, congrArg ShiftCount.src hb, rfl, rfl, rfl⟩

theorem rawV64_of_plain {w : Nat} (hw : VFields.of w = f) (hp : rawVPlain f = some i) : rawV64 w = some i := by
  subst hw
  rw [rawV64, hp]

theorem rawV64_of_arith {w : Nat} (hw : VFields.of w = f) (hp : rawVPlain f = none) (ht : ElemType.ofCode f.ty = some ty)
    (ha : rawVArith f ty = some i) : rawV64 w = some i := by
  subst hw
  simp only [rawV64, hp, ht, ha]

theorem rawV64_of_move {w : Nat} (hw : VFields.of w = f) (hp : rawVPlain f = none) (ht : ElemType.ofCode f.ty = some ty)
    (ha : rawVArith f ty = none) (hm : rawVMove f ty = some i) : rawV64 w = some i := by
  subst hw
  simp only [rawV64, hp, ht, ha, hm]

/-- The encoder fills each field within its width (R82). -/
theorem encodeV_fits (h : encodeV i = some f) : f.Fits := by
  cases i with
  | vadd | vsub | vmul | vmin | vmax | vand | vor | vxor | vandn | vadds | vsubs | vmulh | vavg | vscale | vperm
  | vfma | vfms | vfnma | vperme | vsel =>
    cases h
    exact fieldsDAB_fits (by decide) (by omega) (ElemType.code_lt _) (by decide)
  | vslup _ _ _ j | vsldn _ _ _ j =>
    cases h
    exact fieldsDAB_fits (by decide) (by decide) (ElemType.code_lt _) j.imm7_lt
  | vpack4 _ _ _ _ _ inter sat =>
    cases h
    have := inter.toNat_lt
    have := sat.toNat_lt
    exact fieldsDAB_fits (by decide) (by decide) (ElemType.code_lt _) (by omega)
  | vneg | vabs | vnot | vclz | vpopc | vmov | vrev | vunpk4 =>
    cases h
    exact fieldsDA_fits (by decide) (ElemType.code_lt _) (by omega)
  | vexp2 | vlog2 | vrcp | vrsq | vsqrt | vtanh | vsigm | vexpm =>
    cases h
    exact fieldsDA_fits (by decide) (by decide) (by decide)
  | vcvt _ _ _ _ s sat =>
    cases h
    have := s.code_lt
    have := sat.toNat_lt
    exact fieldsDA_fits (by decide) (ElemType.code_lt _) (by omega)
  | vcvts _ _ _ _ s =>
    cases h
    have := s.code_lt
    exact fieldsDA_fits (by decide) (ElemType.code_lt _) (by omega)
  | vbcast _ _ j =>
    cases h
    exact fieldsDA_fits (by decide) (ElemType.code_lt _) j.imm7_lt
  | vcompr _ _ _ _ cq =>
    cases h
    have := cq.toNat_lt
    exact fieldsDA_fits (by decide) (ElemType.code_lt _) (by omega)
  | vshl | vshr | vsar =>
    cases h
    exact fieldsShift_fits (by decide) (ElemType.code_lt _)
  | vwadd _ _ _ _ _ q | vwmul _ _ _ _ _ q | vwfma _ _ _ _ _ q =>
    cases h
    have := q.toNat_lt
    exact fieldsRAB_fits (by decide) (by omega) (ElemType.code_lt _) (by omega)
  | vcmp _ _ _ _ _ p =>
    cases h
    have := p.code_lt
    exact fieldsRAB_fits (by decide) (by omega) (ElemType.code_lt _) (by omega)
  | vclass | vexpnd =>
    cases h
    exact fieldsRA_fits (by decide) (by omega) (ElemType.code_lt _) (by omega)
  | vrsum r | vrmax r | vrmin r | vramax r =>
    cases h
    exact fieldsRA_fits (by decide) r.field_lt (ElemType.code_lt _) r.imm7_lt
  | vsplat d _ t | vldi d _ _ t =>
    cases h
    have := d.field_lt
    have := t.code_lt
    simp only [VFields.Fits]
    omega
  | vextr a j t =>
    cases h
    have := a.field_lt
    have := j.imm7_lt
    have := t.code_lt
    simp only [VFields.Fits]
    omega
  | vins _ j _ t =>
    cases h
    have := j.imm7_lt
    have := t.code_lt
    simp only [VFields.Fits]
    omega
  | vzip2 _ _ t | vzip3 _ _ t | vzip4 _ _ t | vunzip2 _ _ t | vunzip3 _ _ t | vunzip4 _ _ t | mpop _ t | mfirst _ t =>
    cases h
    have := t.code_lt
    simp only [VFields.Fits]
    omega
  | mand | mor | mxor | mandn | mnot | mmov | vdisc | tcfg | tzero | trel =>
    cases h
    simp only [VFields.Fits]
    omega
  | vtrd _ _ s | vtcd _ _ s | vtwr _ _ s | vtwc _ _ s =>
    cases h
    have := s.field_lt
    have := s.imm7_lt
    simp only [VFields.Fits]
    omega
  | mset _ mode =>
    cases h
    cases mode <;> (simp only [VFields.Fits]; omega)
  | vsetmode src =>
    cases h
    cases src with
    | imm rm s =>
      have := rm.code_lt
      have := s.toNat_lt
      simp only [VFields.Fits]
      omega
    | xq => simp only [VFields.Fits]; omega
  | _ => cases h

/-- Every encoded vector instruction is read back from the fields of its word (R90). -/
theorem rawV64_of_encodeV {w : Nat} (h : encodeV i = some f) (wf : i.wf = true) (hw : VFields.of w = f) : rawV64 w = some i := by
  cases i with
  | vadd | vsub | vmul | vmin | vmax | vand | vor | vxor | vandn | vfma | vfms | vfnma =>
    cases h
    refine rawV64_of_arith hw rfl (ElemType.ofCode_code _) ?_
    simp only [rawVArith, fieldsDAB_reads wf, BitVec.ofNat_toNat, BitVec.setWidth_eq]
  | vadds | vsubs | vmulh | vavg | vscale =>
    cases h
    have wf := Bool.and_eq_true_iff.1 wf
    refine rawV64_of_arith hw rfl (ElemType.ofCode_code _) ?_
    simp only [rawVArith, fieldsDAB_reads wf.2, BitVec.ofNat_toNat, BitVec.setWidth_eq]
  | vneg | vabs | vnot | vclz | vpopc =>
    cases h
    refine rawV64_of_arith hw rfl (ElemType.ofCode_code _) ?_
    simp only [rawVArith, fieldsDA_reads, BitVec.ofNat_toNat, BitVec.setWidth_eq]
  | vshl _ _ _ _ t | vshr _ _ _ _ t | vsar _ _ _ _ t =>
    cases h
    have wf := Bool.and_eq_true_iff.1 wf
    refine rawV64_of_arith (ty := t) hw (by simp only [rawVPlain, fieldsShift_reads wf.2])
      (by simp only [fieldsShift_reads wf.2, ElemType.ofCode_code]) ?_
    simp only [rawVArith, fieldsShift_reads wf.2, BitVec.ofNat_toNat, BitVec.setWidth_eq]
  | vwadd | vwmul | vwfma =>
    cases h
    have wf := Bool.and_eq_true_iff.1 wf
    refine rawV64_of_arith hw rfl (ElemType.ofCode_code _) ?_
    simp only [rawVArith, fieldsRAB_reads wf.2, BitVec.ofNat_toNat, BitVec.setWidth_eq, beq_one_toNat_mod]
  | vcmp =>
    cases h
    refine rawV64_of_arith hw rfl (ElemType.ofCode_code _) ?_
    simp only [rawVArith, fieldsRAB_reads wf, BitVec.ofNat_toNat, BitVec.setWidth_eq, VPred.ofCode_code, Option.map_some]
  | vclass =>
    cases h
    refine rawV64_of_arith hw rfl (ElemType.ofCode_code _) ?_
    simp only [rawVArith, fieldsRA_reads, BitVec.ofNat_toNat, BitVec.setWidth_eq]
  | mpop | mfirst =>
    cases h
    refine rawV64_of_arith hw rfl (ElemType.ofCode_code _) ?_
    simp only [rawVArith, BitVec.ofNat_toNat, BitVec.setWidth_eq]
  | vcvt _ _ _ _ s sat =>
    cases h
    refine rawV64_of_arith hw rfl (ElemType.ofCode_code _) ?_
    have hs : (s.code + 32 * sat.toNat) % 32 = s.code := by have := s.code_lt; omega
    have hsat : (s.code + 32 * sat.toNat) / 32 = sat.toNat := by have := s.code_lt; omega
    simp only [rawVArith, fieldsDA_reads, hs, hsat, ElemType.ofCode_code, Option.map_some, beq_one_toNat_mod,
      BitVec.ofNat_toNat, BitVec.setWidth_eq]
  | vcvts _ _ _ _ s =>
    cases h
    refine rawV64_of_arith hw rfl (ElemType.ofCode_code _) ?_
    simp only [rawVArith, fieldsDA_reads, Nat.mod_eq_of_lt s.code_lt, ElemType.ofCode_code, Option.map_some,
      BitVec.ofNat_toNat, BitVec.setWidth_eq]
  | vmov | vrev | vunpk4 | vcompr | vbcast =>
    cases h
    refine rawV64_of_move hw rfl (ElemType.ofCode_code _) rfl ?_
    simp only [rawVMove, fieldsDA_reads, VFields.index, IndexSrc.of_imm7, beq_one_toNat_mod, BitVec.ofNat_toNat, BitVec.setWidth_eq]
  | vexp2 | vlog2 | vrcp | vrsq | vsqrt | vtanh | vsigm | vexpm =>
    cases h
    refine rawV64_of_move hw rfl (ty := .f32) rfl rfl ?_
    simp only [rawVMove, fieldsDA_reads, BitVec.ofNat_toNat, BitVec.setWidth_eq]
  | vsel | vslup | vsldn =>
    cases h
    refine rawV64_of_move hw rfl (ElemType.ofCode_code _) rfl ?_
    simp only [rawVMove, fieldsDAB_reads wf, VFields.index, IndexSrc.of_imm7, BitVec.ofNat_toNat, BitVec.setWidth_eq]
  | vperm _ a b _ t | vperme _ a b _ _ t =>
    cases h
    change permOk a b t = true at wf
    rw [permOk, Bool.and_eq_true, Bool.and_eq_true] at wf
    refine rawV64_of_move hw rfl (ElemType.ofCode_code _) rfl ?_
    simp only [rawVMove, fieldsDAB_reads wf.1.1, BitVec.ofNat_toNat, BitVec.setWidth_eq]
  | vsplat | vextr | vins | vldi | vzip2 | vzip3 | vzip4 | vunzip2 | vunzip3 | vunzip4 =>
    cases h
    refine rawV64_of_move hw rfl (ElemType.ofCode_code _) rfl ?_
    simp only [rawVMove, VFields.dst, VFields.srcA, VFields.index, VDst.of_field, VSrc.of_field, IndexSrc.of_imm7,
      BitVec.ofNat_toNat, BitVec.setWidth_eq]
  | vexpnd =>
    cases h
    refine rawV64_of_move hw rfl (ElemType.ofCode_code _) rfl ?_
    simp only [rawVMove, fieldsRA_reads, BitVec.ofNat_toNat, BitVec.setWidth_eq]
  | vpack4 _ _ _ _ _ inter sat =>
    cases h
    have wf := Bool.and_eq_true_iff.1 wf
    refine rawV64_of_move hw rfl (ElemType.ofCode_code _) rfl ?_
    have hi : ((inter.toNat + 2 * sat.toNat) % 2 == 1) = inter := by cases inter <;> cases sat <;> rfl
    have hs : ((inter.toNat + 2 * sat.toNat) / 2 % 2 == 1) = sat := by cases inter <;> cases sat <;> rfl
    simp only [rawVMove, fieldsDAB_reads wf.2, hi, hs, BitVec.ofNat_toNat, BitVec.setWidth_eq]
  | vrsum | vrmax | vrmin | vramax =>
    cases h
    refine rawV64_of_move hw rfl (ElemType.ofCode_code _) rfl ?_
    simp only [rawVMove, fieldsRA_reads, fieldsRA_red, Option.map_some, BitVec.ofNat_toNat, BitVec.setWidth_eq]
  | mand | mor | mxor | mandn | mnot | mmov | vdisc | tcfg | tzero | trel | vtrd | vtcd | vtwr | vtwc =>
    cases h
    refine rawV64_of_plain hw ?_
    simp only [rawVPlain, VFields.slice, SliceIdx.of_imm7, BitVec.ofNat_toNat, BitVec.setWidth_eq]
  | mset _ mode =>
    cases h
    refine rawV64_of_plain hw ?_
    cases mode <;> simp only [rawVPlain, BitVec.ofNat_toNat, BitVec.setWidth_eq]
  | vsetmode src =>
    cases h
    refine rawV64_of_plain hw ?_
    cases src with
    | imm rm s => cases rm <;> cases s <;> rfl
    | xq => rfl
  | _ => cases h

end

end Sys2Proof
end

section
/-! Decoding an encoded engine command (R91, R92, R251, R274, R352, R380, R394, R409). -/

namespace Sys2Proof

/-! ### Words of a command (R91, R251, R274, R352) -/

section
variable {h : CmdHdr} {opc flags w1 w2 w3 w4 w5 w6 hi lo : Nat}

theorem cmdWord_words (h : CmdHdr) (opc flags w1 w2 w3 w4 w5 w6 : Nat) : let ws := h.words opc flags w1 w2 w3 w4 w5 w6
    cmdWord ws 0 = h.word0 opc flags ∧ cmdWord ws 1 = w1 ∧ cmdWord ws 2 = w2 ∧ cmdWord ws 3 = w3 ∧ cmdWord ws 4 = w4 ∧
      cmdWord ws 5 = w5 ∧ cmdWord ws 6 = w6 ∧ cmdWord ws 7 = h.done.toNat :=
  ⟨rfl, rfl, rfl, rfl, rfl, rfl, rfl, rfl⟩

/-- The fields of word 0 that the engines share (R91). -/
theorem word0_fields (h : CmdHdr) (ho : opc < 256) (hf : flags < 2 ^ 24) (he : flags % 2 = 0) :
    bitsOf (h.word0 opc flags) 63 56 = opc ∧ bitsOf (h.word0 opc flags) 55 36 = h.start.toNat ∧
      bitsOf (h.word0 opc flags) 35 32 = h.shadow.toNat ∧ bitsOf (h.word0 opc flags) 31 24 = h.btag.toNat ∧
      bitsOf (h.word0 opc flags) 0 0 = h.res.toNat := by
  have := h.res.toNat_lt
  unfold CmdHdr.word0 bitsOf
  refine ⟨?_, ?_, ?_, ?_, ?_⟩ <;> omega

/-- The FLAGS above RES (R91). -/
theorem word0_flags (h : CmdHdr) (hf : flags < 2 ^ 24) (he : flags % 2 = 0) (hhi : hi < 24) (hlo : 1 ≤ lo) (hle : lo ≤ hi) :
    bitsOf (h.word0 opc flags) hi lo = bitsOf flags hi lo := by
  obtain ⟨m, rfl⟩ : ∃ m, flags = m * 2 ^ 1 := ⟨flags / 2, by omega⟩
  have hw : h.word0 opc (m * 2 ^ 1) = h.res.toNat + m * 2 ^ 1 +
      (opc * 2 ^ 32 + h.start.toNat * 2 ^ 12 + h.shadow.toNat * 2 ^ 8 + h.btag.toNat) * 2 ^ 24 := by
    unfold CmdHdr.word0
    omega
  rw [hw, bitsOf_low hhi, bitsOf_high h.res.toNat_lt hlo hle, ← Nat.zero_add (m * 2 ^ 1), bitsOf_high (by decide) hlo hle]

/-- The shared fields are read back, whatever the opcode (R91). -/
theorem CmdHdr.of_words (h : CmdHdr) (ho : opc < 256) (hf : flags < 2 ^ 24) (he : flags % 2 = 0) :
    CmdHdr.of (h.words opc flags w1 w2 w3 w4 w5 w6) = h := by
  obtain ⟨-, hstart, hshadow, hbtag, hres⟩ := word0_fields h ho hf he
  simp only [CmdHdr.of, cmdWord_words, hstart, hshadow, hbtag, hres, BitVec.ofNat_toNat, BitVec.setWidth_eq, toNat_beq_one]

theorem MmsArgs.of_word1 (x : MmsArgs) : MmsArgs.of x.word1 = x := by
  simp (disch := omega) only [MmsArgs.of, MmsArgs.word1, bitsOf_low, bitsOf_high, bitsOf_self, Nat.reduceSub, BitVec.ofNat_toNat,
    BitVec.setWidth_eq]

theorem CpArgs.flags_fields (x : CpArgs) (h : CmdHdr) (opc : Nat) :
    bitsOf (cmdWord (x.words h opc) 0) 1 1 = x.shost.toNat ∧ bitsOf (cmdWord (x.words h opc) 0) 2 2 = x.dhost.toNat := by
  have hs := x.shost.toNat_lt
  have hd := x.dhost.toNat_lt
  simp (disch := omega) only [CpArgs.words, cmdWord_words, word0_flags]
  unfold bitsOf
  constructor <;> omega

/-- The operands of a CP command are read back (R274). -/
theorem CpArgs.of_words (x : CpArgs) (h : CmdHdr) (opc : Nat) : CpArgs.of (x.words h opc) = x := by
  obtain ⟨hs, hd⟩ := x.flags_fields h opc
  rw [CpArgs.of, hs, hd]
  simp (disch := omega) only [CpArgs.words, cmdWord_words, bitsOf_low, bitsOf_high, bitsOf_self, Nat.reduceSub, BitVec.ofNat_toNat,
    BitVec.setWidth_eq, toNat_beq_one]

theorem CpArgs.header_words (x : CpArgs) (h : CmdHdr) (ho : opc < 256) :
    CmdHdr.of (x.words h opc) = h ∧ bitsOf (cmdWord (x.words h opc) 0) 63 56 = opc := by
  have hs := x.shost.toNat_lt
  have hd := x.dhost.toNat_lt
  exact ⟨CmdHdr.of_words h ho (by omega) (by omega), (word0_fields h ho (by omega) (by omega)).1⟩

/-- LAYOUT stands in the upper bits of FLAGS (R352). -/
theorem layoutFlags_bounds (l : BitVec 3) : layoutFlags l < 2 ^ 24 ∧ layoutFlags l % 2 ^ 21 = 0 ∧
    bitsOf (layoutFlags l) 23 21 = l.toNat := by
  unfold layoutFlags bitsOf
  refine ⟨?_, ?_, ?_⟩ <;> omega

/-- LAYOUT and the command's own FLAGS below it (R352). -/
theorem layoutFlags_fields {l : BitVec 3} {f : Nat} (hf : f < 2 ^ 21) : bitsOf (layoutFlags l + f) 23 21 = l.toNat ∧
    bitsOf (layoutFlags l + f) 2 1 = bitsOf f 2 1 ∧ bitsOf (layoutFlags l + f) 1 1 = bitsOf f 1 1 := by
  unfold layoutFlags bitsOf
  refine ⟨?_, ?_, ?_⟩ <;> omega

theorem bitsOf_flag1 (b : Bool) : bitsOf (2 * b.toNat) 1 1 = b.toNat := by cases b <;> rfl

/-- ATTACH and DETACH of KVXL in FLAGS (R358). -/
theorem xlMode_flags : bitsOf 0 2 1 = 0 ∧ bitsOf 2 2 1 = 1 ∧ bitsOf 4 2 1 = 2 := by decide

/-- REVOKE of XGRANT in FLAGS (R380). -/
theorem revoke_flag : bitsOf 0 1 1 = 0 ∧ bitsOf 2 1 1 = 1 := by decide

/-- FLAGS of KVATT (R361). -/
theorem kvattFlags_fields (l : BitVec 3) (tree causal score : Bool) :
    let f := layoutFlags l + 2 * tree.toNat + 4 * causal.toNat + 8 * score.toNat
    bitsOf f 23 21 = l.toNat ∧ bitsOf f 1 1 = tree.toNat ∧ bitsOf f 2 2 = causal.toNat ∧ bitsOf f 3 3 = score.toNat := by
  have := tree.toNat_lt
  have := causal.toNat_lt
  have := score.toNat_lt
  unfold layoutFlags bitsOf
  refine ⟨?_, ?_, ?_, ?_⟩ <;> omega

/-- Word 1 of MMODE (R251). -/
theorem mmodeWord_fields (rm : Rm) (s i : Bool) : let w := rm.code + 8 * s.toNat + 16 * i.toNat
    bitsOf w 2 0 = rm.code ∧ bitsOf w 3 3 = s.toNat ∧ bitsOf w 4 4 = i.toNat := by
  cases rm <;> cases s <;> cases i <;> decide

/-- Word 1 of an MSTORE that converts (R251). -/
theorem mstoreWord_fields {t : BitVec 6} (ty : ElemType) : let w := t.toNat + (ty.code * 2 ^ 8 + 2 ^ 13)
    bitsOf w 5 0 = t.toNat ∧ bitsOf w 12 8 = ty.code ∧ bitsOf w 13 13 = 1 := by
  have := ty.code_lt
  unfold bitsOf
  refine ⟨?_, ?_, ?_⟩ <;> omega

/-- The type that SPSOFT's word 3 names, bf16 or f32 (R409). -/
theorem softType_field (b : Bool) : (bitsOf (if b then 12 else 14) 4 0 == 12) = b := by cases b <;> rfl

/-- Every engine command is read back from its eight words (R251, R274, R352, R380, R394, R409). -/
theorem rawCmd_of_encodeCmd {i : Instr} {e : Eng} {ws : List Nat} (hi : encodeCmd i = some (e, ws)) : rawCmd e ws = some i := by
  cases i with
  | mswap h | mzt h | mtcfg h | mloadt h | kvmask h | spseed h | spdraw h | spacc h | wreg h | wput h | xsend h =>
    cases hi
    simp (disch := omega) only [rawCmd, CmdHdr.of_words h, word0_fields h, cmdWord_words, bitsOf_low, bitsOf_high, bitsOf_self,
      Nat.reduceSub, BitVec.ofNat_toNat, BitVec.setWidth_eq]
  | mlw h _ _ p8 =>
    cases hi
    have := p8.toNat_lt
    simp (disch := omega) only [rawCmd, CmdHdr.of_words h, word0_fields h, cmdWord_words, bitsOf_low, bitsOf_high, bitsOf_self,
      Nat.reduceSub, BitVec.ofNat_toNat, BitVec.setWidth_eq, toNat_beq_one]
  | mms h | mmsa h =>
    cases hi
    simp (disch := omega) only [rawCmd, CmdHdr.of_words h, word0_fields h, cmdWord_words, MmsArgs.of_word1]
  | mmode h =>
    cases hi
    simp (disch := omega) only [rawCmd, CmdHdr.of_words h, word0_fields h, cmdWord_words, mmodeWord_fields, Rm.ofCode_code,
      Option.map_some, toNat_beq_one]
  | mstore h t conv =>
    cases hi
    cases conv with
    | none =>
      have hc : bitsOf t.toNat 13 13 = 0 := by unfold bitsOf; omega
      simp (disch := omega) only [rawCmd, CmdHdr.of_words h, word0_fields h, cmdWord_words, Nat.add_zero, hc, bitsOf_self,
        BitVec.ofNat_toNat, BitVec.setWidth_eq, zero_ne_one, if_false]
    | some ty =>
      simp (disch := omega) only [rawCmd, CmdHdr.of_words h, word0_fields h, cmdWord_words, mstoreWord_fields, bitsOf_self,
        BitVec.ofNat_toNat, BitVec.setWidth_eq, if_true, ElemType.ofCode_code, Option.map_some]
  | cpy h x | cpyc h x | fill h x | cpyf h x =>
    cases hi
    simp (disch := omega) only [rawCmd, x.header_words h, x.of_words]
  | kvxl h l mode =>
    cases hi
    have hl := layoutFlags_bounds l
    cases mode <;>
      simp (disch := omega) only [rawCmd, CmdHdr.of_words h, word0_fields h, word0_flags h, cmdWord_words, layoutFlags_fields,
        xlMode_flags, bitsOf_low, bitsOf_high, bitsOf_self, Nat.reduceSub, BitVec.ofNat_toNat, BitVec.setWidth_eq]
  | kvapp h l x =>
    cases hi
    have hl := layoutFlags_bounds l
    have := x.inplace.toNat_lt
    simp (disch := omega) only [rawCmd, CmdHdr.of_words h, word0_fields h, word0_flags h, cmdWord_words, layoutFlags_fields, bitsOf_flag1,
      toNat_beq_one, bitsOf_low, bitsOf_high, bitsOf_self, Nat.reduceSub, BitVec.ofNat_toNat, BitVec.setWidth_eq]
  | kvsq h l all =>
    cases hi
    have hl := layoutFlags_bounds l
    have := all.toNat_lt
    simp (disch := omega) only [rawCmd, CmdHdr.of_words h, word0_fields h, word0_flags h, cmdWord_words, layoutFlags_fields, bitsOf_flag1,
      toNat_beq_one, BitVec.ofNat_toNat, BitVec.setWidth_eq]
  | kvatt h l x =>
    cases hi
    have hl := layoutFlags_bounds l
    have := x.tree.toNat_lt
    have := x.causal.toNat_lt
    have := x.score.toNat_lt
    simp (disch := omega) only [rawCmd, CmdHdr.of_words h, word0_fields h, word0_flags h, cmdWord_words, kvattFlags_fields,
      toNat_beq_one, bitsOf_low, bitsOf_high, bitsOf_self, Nat.reduceSub, BitVec.ofNat_toNat, BitVec.setWidth_eq]
  | kvckpt h l | kvcmt h l | kvscore h l | kvtopk h l | kvcompact h l =>
    cases hi
    have hl := layoutFlags_bounds l
    simp (disch := omega) only [rawCmd, CmdHdr.of_words h, word0_fields h, word0_flags h, cmdWord_words, hl.2.2, bitsOf_low, bitsOf_high,
      bitsOf_self, Nat.reduceSub, BitVec.ofNat_toNat, BitVec.setWidth_eq]
  | xgrant h | xgrantRevoke h =>
    cases hi
    simp (disch := omega) only [rawCmd, CmdHdr.of_words h, word0_fields h, word0_flags h, revoke_flag, cmdWord_words, bitsOf_low,
      bitsOf_high, bitsOf_self, Nat.reduceSub, BitVec.ofNat_toNat, BitVec.setWidth_eq, if_true, zero_ne_one, if_false]
  | xrecv h _ _ _ add =>
    cases hi
    have := add.toNat_lt
    simp (disch := omega) only [rawCmd, CmdHdr.of_words h, word0_fields h, word0_flags h, cmdWord_words, bitsOf_flag1, toNat_beq_one,
      bitsOf_low, bitsOf_high, bitsOf_self, Nat.reduceSub, BitVec.ofNat_toNat, BitVec.setWidth_eq]
  | wcnt h wait _ e =>
    cases hi
    have := wait.toNat_lt
    have := e.toNat_lt
    simp (disch := omega) only [rawCmd, CmdHdr.of_words h, word0_fields h, word0_flags h, cmdWord_words, bitsOf_flag1, toNat_beq_one,
      bitsOf_low, bitsOf_high, bitsOf_self, Nat.reduceSub, BitVec.ofNat_toNat, BitVec.setWidth_eq]
  | spsoft h x =>
    cases hi
    simp (disch := omega) only [rawCmd, CmdHdr.of_words h, word0_fields h, cmdWord_words, bitsOf_low, bitsOf_high, bitsOf_self,
      Nat.reduceSub, softType_field, BitVec.ofNat_toNat, BitVec.setWidth_eq]
  | _ => cases hi

end

/-! ### The round trip (R78 to R92) -/

theorem rawUnit_of_encode {i : Instr} {tag w : Nat} (wf : i.wf = true) (h : encode i = some (tag, w)) : rawUnit tag w = some i := by
  unfold encode at h
  split at h
  next x hS =>
    cases h
    exact rawUnit_of_encodeS hS
  next =>
    split at h
    next x hA =>
      cases h
      exact rawUnit_of_encodeA hA
    next =>
      obtain ⟨f, hV, hw⟩ := Option.map_eq_some_iff.1 h
      cases hw
      rw [rawUnit]
      exact rawV64_of_encodeV hV wf (VFields.of_pack (encodeV_fits hV))

theorem decodeUnit_of_encode {i : Instr} {tag w : Nat} (wf : i.wf = true) (h : encode i = some (tag, w)) : decodeUnit tag w = some i :=
  decodeUnit_of_raw (rawUnit_of_encode wf h) wf h

theorem decodeCmd_of_encodeCmd {i : Instr} {e : Eng} {ws : List Nat} (wf : i.wf = true) (h : encodeCmd i = some (e, ws)) :
    decodeCmd e ws = some i := by
  rw [decodeCmd, rawCmd_of_encodeCmd h]
  simp [wf, h]

/-- Settles O41: what the fields of an encoded word or command name is the instruction itself, by cases over the encoders. -/
theorem roundTrip : Obligations.RoundTrip := by
  unfold Obligations.RoundTrip
  exact fun i wf => ⟨fun tag w => decodeUnit_of_encode wf, fun e ws => decodeCmd_of_encodeCmd wf⟩

/-- Settles O40: each word is the encoding of its instruction, which the round trip gives back. -/
theorem decodeWords : Obligations.DecodeWords := by
  unfold Obligations.DecodeWords
  exact ⟨decodeUnit_of_encode rfl rfl, decodeUnit_of_encode rfl rfl, decodeUnit_of_encode rfl rfl, decodeUnit_of_encode rfl rfl,
    decodeUnit_of_encode rfl rfl, decodeUnit_of_encode rfl rfl, decodeUnit_of_encode rfl rfl, decodeUnit_of_encode rfl rfl⟩

end Sys2Proof
end

section
/-! A step runs the act at the head of the agenda (R72, R73, R94, R119; log entry 8). -/

namespace Sys2Proof

open Machine

section
variable {s : State} {a : Act} {rest : List Act} {row : Nat} {u : UnitId} {q : QEntry} {l : List QEntry} {e : Eng} {id : Nat}
  {x : EngEntry} {i : Instr}

theorem step_act (h : s.agenda = a :: rest) : step s = runAct { s with agenda := rest } a := by rw [step, h]

theorem step_tick (h : s.agenda = []) : step s = .next (tick s) := by rw [step, h]

/-! ### What a unit and an engine find (R72, R73, R94, R119) -/

theorem issueOf_run (hq : (s.bank row).queue u = q :: l) (hs : (s.bank row).stopped u = false) (hm : unitMayIssue s row u = true)
    (hd : decodeUnit q.tag.toNat q.word.toNat = some i) : issueOf s row u = .run i := by
  simp [issueOf, hq, hs, hm, hd]

theorem issueOf_illegal (hq : (s.bank row).queue u = q :: l) (hs : (s.bank row).stopped u = false) (hm : unitMayIssue s row u = true)
    (hd : decodeUnit q.tag.toNat q.word.toNat = none) : issueOf s row u = .illegal := by
  simp [issueOf, hq, hs, hm, hd]

theorem issueOf_nothing (hq : (s.bank row).queue u = q :: l) (h : (s.bank row).stopped u = true ∨ unitMayIssue s row u = false) :
    issueOf s row u = .nothing := by
  have hc : ((s.bank row).stopped u || !unitMayIssue s row u) = true := by simpa using h
  simp only [issueOf, hq, hc, if_true]

theorem engineOf_nothing (hx : ((s.bank row).engQ e).find? (fun x => decide (x.id = id)) = some x) (h : entryMayRun s row e x = false) :
    engineOf s row e id = .nothing := by
  simp [engineOf, hx, h]

theorem engineOf_staged (hx : ((s.bank row).engQ e).find? (fun x => decide (x.id = id)) = some x) (h : entryMayRun s row e x = true)
    (hs : x.state = .staged) : engineOf s row e id = .run (.writePhase row) := by
  simp [engineOf, hx, h, hs]

theorem engineOf_following (hx : ((s.bank row).engQ e).find? (fun x => decide (x.id = id)) = some x) (h : entryMayRun s row e x = true)
    (hs : x.state = .following) : engineOf s row e id = .run (.followOnEntry row) := by
  simp [engineOf, hx, h, hs]

/-- An entry between no two phases runs its own command. -/
theorem engineOf_command (hx : ((s.bank row).engQ e).find? (fun x => decide (x.id = id)) = some x) (h : entryMayRun s row e x = true)
    (hs : x.state = .waiting ∨ x.state = .held ∨ x.state = .putting ∨ (∃ due c, x.state = .running due c) ∨
      (∃ st ws, x.state = .ending st ws) ∨ ∃ t, x.state = .permitWait t) (hi : x.instr e = some i) :
    engineOf s row e id = .run i := by
  rcases hs with hs | hs | hs | ⟨_, _, hs⟩ | ⟨_, _, hs⟩ | ⟨_, hs⟩ <;> simp [engineOf, hx, h, hs, hi]

/-! ### The act at the head of the agenda (log entry 8) -/

theorem step_issue (h : s.agenda = .issue row u :: rest) (hr : row < 72) :
    (issueOf s row u = .nothing → step s = .next { s with agenda := rest }) ∧
    (issueOf s row u = .illegal → step s = .next (unitFault { s with agenda := rest, cur := row } u (faultOf 0x02 0))) ∧
    ∀ i, issueOf s row u = .run i → step s = exec i { s with agenda := rest, cur := row } := by
  have hs : issueOf { s with agenda := rest } row u = issueOf s row u := rfl
  rw [step_act h]
  refine ⟨fun hd => ?_, fun hd => ?_, fun i hd => ?_⟩ <;> simp only [runAct, if_neg (Nat.not_le.2 hr), hs, hd]

theorem step_engine (h : s.agenda = .engine row e id :: rest) (hr : row < 72) :
    (engineOf s row e id = .nothing → step s = .next { s with agenda := rest }) ∧
    ∀ i, engineOf s row e id = .run i → step s = exec i { s with agenda := rest, cur := row } := by
  have hs : engineOf { s with agenda := rest } row e id = engineOf s row e id := rfl
  rw [step_act h]
  refine ⟨fun hd => ?_, fun i hd => ?_⟩ <;> simp only [runAct, if_neg (Nat.not_le.2 hr), hs, hd]

theorem step_event (h : s.agenda = .event i :: rest) (wf : i.wf = true) : step s = exec i { s with agenda := rest } := by
  rw [step_act h, runAct, if_pos wf]

end

/-- Settles O39: by what the unit or the engine of the act finds. -/
theorem stepRunsInstruction : Obligations.StepRunsInstruction := by
  unfold Obligations.StepRunsInstruction
  refine fun s rest => ⟨fun row u q l ha hr hq => ?_, fun row e id x ha hr hx => ?_, fun i => step_event, step_tick⟩
  · obtain ⟨hnothing, hillegal, hrun⟩ := step_issue ha hr
    exact ⟨fun hs hm => ⟨fun i hd => hrun i (issueOf_run hq hs hm hd), fun hd => hillegal (issueOf_illegal hq hs hm hd)⟩,
      fun h => hnothing (issueOf_nothing hq h)⟩
  · obtain ⟨hnothing, hrun⟩ := step_engine ha hr
    exact ⟨fun h => hnothing (engineOf_nothing hx h), fun h => ⟨fun hs => hrun _ (engineOf_staged hx h hs),
      fun hs => hrun _ (engineOf_following hx h hs), fun hs i hi => hrun i (engineOf_command hx h hs hi)⟩⟩

end Sys2Proof
end

section
/-! Line dispatch, the instructions of a line, landing of results, and requests for ownership (R27, R66 to R72, R98, R102, R104,
R303, R304). -/

namespace Sys2Proof

open Machine

/-- A change of a row's bank touches nothing else. -/
theorem onlyRow_modBank (s : State) (row : Nat) (f : Bank → Bank) : OnlyRow s (s.modBank row f) row (f (s.bank row)) (s.row row) := by
  refine ⟨rfl, fun r => ?_, fun r => ?_⟩
  · simp only [bank_modBank, eq_comm]
  · rw [row_modBank]
    split
    · next h => rw [h]
    · rfl

/-! ### When a line is dispatched (R72, R75, R122) -/

theorem mayDispatch_iff (s : State) (row : Nat) : mayDispatch s row = true ↔ Dispatches s row := by
  simp [mayDispatch, Dispatches, and_assoc]

/-! ### The fetch of a line (R71) -/

section
variable {s : State} {row : Nat} {l : List Seg}

theorem lineFault_eq (s : State) (row c line : Nat) : lineFault s row c line = takeFault s row .S (lineRecord c line) := by
  have ha : BitVec.ofNat 64 (BitVec.ofNat 64 line).toNat = BitVec.ofNat 64 line := by
    rw [BitVec.ofNat_toNat, BitVec.setWidth_eq]
  simp only [lineFault, lineRecord, causeAt, faultOf, ha]

theorem fetchLine_bad {va c v : Nat} (h : translate s row .fetch true va 32 32 = .bad c v) : fetchLine s row va = .bad c := by
  rw [fetchLine, h]

theorem fetchLine_poison {va : Nat} (h : translate s row .fetch true va 32 32 = .ok l) (hp : segPoison s row l ≠ none) :
    fetchLine s row va = .bad 0x0F := by
  obtain ⟨a, ha⟩ := Option.ne_none_iff_exists'.1 hp
  simp only [fetchLine, h, ha]

theorem fetchLine_line {va : Nat} (h : translate s row .fetch true va 32 32 = .ok l) (hp : segPoison s row l = none) :
    fetchLine s row va = .line (tlbTouch s row l) (segBytes s row l) := by
  simp only [fetchLine, h, hp]

/-! ### A line that was fetched (R27, R70, R72) -/

theorem byte_parity (b : Byte) : b.toNat % 2 = 1 ↔ b &&& 1 = 1 := by
  revert b; decide

theorem byte_even (b : Byte) : b &&& 1 = 0 ↔ b &&& 1 ≠ 1 := by
  revert b; decide

/-- The landing bit is bit 0 of the line's first byte (R67). -/
theorem lineLands_iff (bs : List Byte) : lineLands bs = true ↔ bs.headD 0 &&& 1 = 1 := by
  rw [lineLands, decide_eq_true_iff, lineWord, Nat.mul_zero, List.drop_zero]
  cases bs with
  | nil => decide
  | cons b r =>
    rw [List.headD_cons, ← byte_parity, List.take_succ_cons, ofBytes]
    omega

theorem dispatchLine_idle (h : ¬ Dispatches s row) : dispatchLine s row = s := by
  simp [dispatchLine, mt (mayDispatch_iff s row).1 h]

theorem dispatchLine_bad {c : Nat} (h : Dispatches s row) (hf : fetchLine s row (s.bank row).fetch.next.toNat = .bad c) :
    dispatchLine s row = takeFault s row .S (lineRecord c (s.bank row).fetch.next.toNat) := by
  simp [dispatchLine, (mayDispatch_iff s row).2 h, hf, lineFault_eq]

section
variable {r : State} {bs : List Byte} (h : Dispatches s row)
  (hf : fetchLine s row (s.bank row).fetch.next.toNat = .line r bs)
include h hf

theorem dispatchLine_illegal (hl : lineLegal bs = false) :
    dispatchLine s row = takeFault r row .S (lineRecord 0x01 (s.bank row).fetch.next.toNat) := by
  simp [dispatchLine, (mayDispatch_iff s row).2 h, hf, hl, lineFault_eq]

theorem dispatchLine_noLanding (hl : lineLegal bs = true) (he : (s.bank row).fetch.entry = true) (hb : bs.headD 0 &&& 1 = 0) :
    dispatchLine s row = takeFault r row .S (lineRecord 0x0D (s.bank row).fetch.next.toNat) := by
  have hn : lineLands bs = false := Bool.eq_false_iff.2 (mt (lineLands_iff bs).1 ((byte_even _).1 hb))
  simp [dispatchLine, (mayDispatch_iff s row).2 h, hf, hl, he, hn, lineFault_eq]

theorem dispatchLine_legal (hl : lineLegal bs = true) (he : (s.bank row).fetch.entry = true → bs.headD 0 &&& 1 = 1) :
    let b := s.bank row
    let l := lineEntries bs b.fetch.next b.rb 8 1 b.nextSeq
    dispatchLine s row = if lineRoom b l then r.modBank row fun b => placeLine b (s.bank row).fetch.next.toNat l else r := by
  have hn : ((s.bank row).fetch.entry && !lineLands bs) = false := by
    cases hb : (s.bank row).fetch.entry with
    | false => rfl
    | true => rw [(lineLands_iff bs).2 (he hb)]; rfl
  simp [dispatchLine, (mayDispatch_iff s row).2 h, hf, hl, hn]

end

theorem lineRoom_iff (b : Bank) (l : List QEntry) : lineRoom b l = true ↔ ∀ u, (b.queue u).length + (entriesFor u l).length ≤ 32 := by
  rw [lineRoom, Bool.and_eq_true, Bool.and_eq_true, decide_eq_true_iff, decide_eq_true_iff, decide_eq_true_iff]
  constructor
  · rintro ⟨⟨hS, hA⟩, hV⟩ u
    cases u with
    | S => exact hS
    | A => exact hA
    | V => exact hV
  · exact fun h => ⟨⟨h .S, h .A⟩, h .V⟩

theorem lineRoom_false {b : Bank} {l : List QEntry} (h : ∃ u, 32 < (b.queue u).length + (entriesFor u l).length) : lineRoom b l = false := by
  obtain ⟨u, hu⟩ := h
  exact Bool.eq_false_iff.2 fun hr => Nat.not_le.2 hu ((lineRoom_iff b l).1 hr u)

theorem bank_tlbTouch (s : State) (row : Nat) (l : List Seg) (r : Nat) : (tlbTouch s row l).bank r = s.bank r := by
  obtain ⟨tlb, h⟩ := touched_tlb l s row
  rw [h]
  rfl

theorem row_tlbTouch (s : State) (row : Nat) (l : List Seg) (r : Nat) : (tlbTouch s row l).row r = s.row r := by
  obtain ⟨tlb, h⟩ := touched_tlb l s row
  rw [h]
  rfl

/-- A legal line of a task with room goes whole into the unit queues (R72). -/
theorem dispatchLine_places {bs : List Byte} (h : Dispatches s row)
    (hf : fetchLine s row (s.bank row).fetch.next.toNat = .line (tlbTouch s row l) bs) (hl : lineLegal bs = true)
    (he : (s.bank row).fetch.entry = true → bs.headD 0 &&& 1 = 1) :
    let b := s.bank row
    let es := lineEntries bs b.fetch.next b.rb 8 1 b.nextSeq
    (lineRoom b es = true →
      OnlyRow (tlbTouch s row l) (dispatchLine s row) row (placeLine b b.fetch.next.toNat es) (s.row row)) ∧
    (lineRoom b es = false → dispatchLine s row = tlbTouch s row l) := by
  have hd := dispatchLine_legal h hf hl he
  refine ⟨fun hr => ?_, fun hr => ?_⟩
  · rw [hd, if_pos hr, ← bank_tlbTouch s row l row, ← row_tlbTouch s row l row]
    exact onlyRow_modBank ..
  · rw [hd, hr]
    rfl

end

/-! ### The instructions of a line (R66, R68, R69) -/

theorem lineWord_lt (bs : List Byte) (k : Nat) : lineWord bs k < 2 ^ 32 := by
  have hlen : ((bs.drop (4 * k)).take 4).length ≤ 4 := List.length_take_le ..
  calc lineWord bs k < 256 ^ ((bs.drop (4 * k)).take 4).length := ofBytes_lt _
    _ ≤ 256 ^ 4 := Nat.pow_le_pow_right (by decide) hlen
    _ = 2 ^ 32 := by norm_num

/-- What an entry of a line carries: the line, RB, the lane with its tag, and the lane's word or words (R66, R69). -/
def EntryOfLine (bs : List Byte) (line : W64) (rb : BitVec 7) (e : QEntry) : Prop :=
  e.line = line ∧ e.rb = rb ∧ 1 ≤ e.lane ∧ e.lane ≤ 7 ∧ e.tag.toNat = laneTag bs e.lane ∧
    (e.tag = 1 ∨ e.tag = 3 → e.word.toNat = lineWord bs e.lane) ∧
    (e.tag = 2 ∨ e.tag = 4 ∨ e.tag = 5 → e.word.toNat = lineWord bs e.lane + 2 ^ 32 * lineWord bs (e.lane + 1))

section
variable {bs : List Byte} {line : W64} {rb : BitVec 7} {k n t : Nat}

theorem entryOfLine_short (h1 : 1 ≤ k) (h7 : k ≤ 7) (hk : laneTag bs k = t) (ht : t = 1 ∨ t = 3) :
    EntryOfLine bs line rb ⟨.ofNat 4 t, .ofNat 64 (lineWord bs k), line, k, rb, n⟩ := by
  have hw := lineWord_lt bs k
  have hlong : ¬ (BitVec.ofNat 4 t = 2 ∨ BitVec.ofNat 4 t = 4 ∨ BitVec.ofNat 4 t = 5) := by
    rcases ht with rfl | rfl <;> decide
  refine ⟨rfl, rfl, h1, h7, ?_, fun _ => ?_, fun h => absurd h hlong⟩
  · rw [hk, BitVec.toNat_ofNat, Nat.mod_eq_of_lt (by omega)]
  · rw [BitVec.toNat_ofNat, Nat.mod_eq_of_lt (by omega)]

theorem entryOfLine_long (h1 : 1 ≤ k) (h7 : k ≤ 7) (hk : laneTag bs k = t) (ht : t = 2 ∨ t = 4 ∨ t = 5) :
    EntryOfLine bs line rb ⟨.ofNat 4 t, .ofNat 64 (lineWord bs k + lineWord bs (k + 1) * 2 ^ 32), line, k, rb, n⟩ := by
  have hw := lineWord_lt bs k
  have hw' := lineWord_lt bs (k + 1)
  have hshort : ¬ (BitVec.ofNat 4 t = 1 ∨ BitVec.ofNat 4 t = 3) := by
    rcases ht with rfl | rfl | rfl <;> decide
  refine ⟨rfl, rfl, h1, h7, ?_, fun h => absurd h hshort, fun _ => ?_⟩
  · rw [hk, BitVec.toNat_ofNat, Nat.mod_eq_of_lt (by omega)]
  · rw [Nat.mul_comm (2 ^ 32), BitVec.toNat_ofNat, Nat.mod_eq_of_lt (by omega)]

end

theorem entryOfLine_of_mem (bs : List Byte) (line : W64) (rb : BitVec 7) : ∀ (fuel k n : Nat), 1 ≤ k →
    ∀ e ∈ lineEntries bs line rb fuel k n, EntryOfLine bs line rb e := by
  intro fuel
  induction fuel with
  | zero => intro k n _ e he; cases he
  | succ fuel ih =>
    intro k n hk e he
    rw [lineEntries] at he
    split at he
    · cases he
    next h7 =>
      have h7 : k ≤ 7 := Nat.not_lt.1 h7
      generalize ht : laneTag bs k = t at he
      dsimp only at he
      split at he
      iterate 2
        rcases List.mem_cons.1 he with rfl | he
        · exact entryOfLine_short hk h7 ht (by decide)
        · exact ih (k + 1) (n + 1) (by omega) e he
      iterate 3
        rcases List.mem_cons.1 he with rfl | he
        · exact entryOfLine_long hk h7 ht (by decide)
        · exact ih (k + 2) (n + 1) (by omega) e he
      exact ih (k + 1) n (by omega) e he

/-! ### Landing of results (R98, R102, R104) -/

theorem halting_advanceQ (b : Bank) : b.advanceQ.halting = b.halting := by
  have h : b.advanceQ.sWait = b.sWait := proj_landAll Bank.sWait land_sWait _ _
  rw [Bank.halting, Bank.halting, h]

/-! ### Requests for ownership (R303, R304) -/

section
variable {s : State} {row : Nat} {r : OwnReq}

theorem ownedBy_iff (s : State) (row p : Nat) : ownedBy s row p = true ↔ ∃ o ∈ s.owners p, o.row = row := by
  simp [ownedBy]

theorem ownedByOther_iff (s : State) (row p : Nat) : ownedByOther s row p = true ↔ ∃ o ∈ s.owners p, o.row ≠ row := by
  simp [ownedByOther]

theorem ownedByOther_false (s : State) (row p : Nat) : ownedByOther s row p = false ↔ ∀ o ∈ s.owners p, o.row = row := by
  simp [ownedByOther]

theorem settle_only (s : State) (l : List Nat) : OnlyMemory s (settle s l) := fold_only _ (fun _ _ => fetchHome_only ..) _ _

theorem ownershipRequest_none (h : (s.bank row).own = none) : ownershipRequest s row = s := by
  rw [ownershipRequest, h]

theorem ownershipRequest_waits (h : (s.bank row).own = some r)
    (hw : ∃ p ∈ r.subpages, homeBusy s p = true ∧ ¬ ∃ o ∈ s.owners p, o.row = row) : ownershipRequest s row = s := by
  have hany : (r.subpages.any fun p => !ownedBy s row p && homeBusy s p) = true := by
    obtain ⟨p, hp, hb, hm⟩ := hw
    refine List.any_eq_true.2 ⟨p, hp, ?_⟩
    rw [hb, Bool.and_true, Bool.not_eq_true', Bool.eq_false_iff]
    exact mt (ownedBy_iff s row p).1 hm
  simp only [ownershipRequest, h, hany, if_true]

section
variable (h : (s.bank row).own = some r) (hw : ∀ p ∈ r.subpages, homeBusy s p = true → ∃ o ∈ s.owners p, o.row = row)
include hw

theorem noneBusy : (r.subpages.any fun p => !ownedBy s row p && homeBusy s p) = false := by
  refine List.any_eq_false.2 fun p hp hb => ?_
  rw [Bool.and_eq_true, Bool.not_eq_true', Bool.eq_false_iff] at hb
  exact hb.1 ((ownedBy_iff s row p).2 (hw p hp hb.2))

include h

theorem ownershipRequest_frozen (hf : ∃ va ∈ r.vas, frozenAt s row va = true) :
    ownershipRequest s row = s.modBank row fun b => { b with own := none } := by
  have hva : r.vas.any (frozenAt s row) = true := List.any_eq_true.2 hf
  simp only [ownershipRequest, h, noneBusy hw, hva, if_true, Bool.false_eq_true, if_false]

section
variable (hf : ∀ va ∈ r.vas, frozenAt s row va = false)
include hf

theorem ownershipRequest_refused {p : Nat} {l m : List Nat} (hp : r.subpages = l ++ p :: m)
    (hl : ∀ x ∈ l, ∀ o ∈ s.owners x, o.row = row) (ho : ∃ o ∈ s.owners p, o.row ≠ row) :
    ownershipRequest s row = s.modBank row fun b => { b with own := some { r with refused := some p } } := by
  have hfind : r.subpages.find? (ownedByOther s row) = some p :=
    List.find?_eq_some_iff_append.2 ⟨(ownedByOther_iff s row p).2 ho, l, m, hp, fun x hx => by
      rw [(ownedByOther_false s row x).2 (hl x hx)]; rfl⟩
  have hva : r.vas.any (frozenAt s row) = false := by simpa using hf
  simp only [ownershipRequest, h, noneBusy hw, hva, hfind, Bool.false_eq_true, if_false]

theorem ownershipRequest_granted (ho : ∀ p ∈ r.subpages, ∀ o ∈ s.owners p, o.row = row) :
    ownershipRequest s row = addOwners (settle s (r.subpages.filter fun p => !ownedBy s row p)) (.task row) r.subpages := by
  have hfind : r.subpages.find? (ownedByOther s row) = none :=
    List.find?_eq_none.2 fun p hp => by rw [(ownedByOther_false s row p).2 (ho p hp)]; exact Bool.false_ne_true
  have hva : r.vas.any (frozenAt s row) = false := by simpa using hf
  simp only [ownershipRequest, h, noneBusy hw, hva, hfind, Bool.false_eq_true, if_false]

end

end

/-! ### Grants (R303) -/

theorem owners_addOwner (s : State) (o : Owner) (x p : Nat) : (addOwner s o x).owners p =
    if x = p then (if (s.owners x).contains o then s.owners x else o :: s.owners x) else s.owners p :=
  Store.get_set ..

theorem mem_owners_addOwner (s : State) (o u : Owner) (x p : Nat) :
    u ∈ (addOwner s o x).owners p ↔ u ∈ s.owners p ∨ u = o ∧ p = x := by
  rw [owners_addOwner]
  by_cases hx : x = p
  · subst hx
    rw [if_pos rfl]
    split
    · next hc =>
      rw [List.contains_iff_mem] at hc
      exact ⟨Or.inl, fun h => h.elim id fun ⟨hu, _⟩ => hu ▸ hc⟩
    · rw [List.mem_cons, or_comm, and_iff_left rfl]
  · rw [if_neg hx, or_iff_left fun h => hx h.2.symm]

theorem mem_owners_addOwners (o u : Owner) (p : Nat) : ∀ (l : List Nat) (s : State),
    u ∈ (addOwners s o l).owners p ↔ u ∈ s.owners p ∨ u = o ∧ p ∈ l := by
  intro l
  induction l with
  | nil => intro s; simp [addOwners]
  | cons x l ih =>
    intro s
    rw [addOwners, ih, mem_owners_addOwner, List.mem_cons]
    tauto

theorem owners_addOwners_other (o : Owner) {p : Nat} : ∀ {l : List Nat}, p ∉ l → ∀ s : State,
    (addOwners s o l).owners p = s.owners p := by
  intro l
  induction l with
  | nil => intro _ s; rfl
  | cons x l ih =>
    intro hp s
    obtain ⟨hx, hl⟩ := not_or.1 (mt List.mem_cons.2 hp)
    rw [addOwners, ih hl, owners_addOwner, if_neg (Ne.symm hx)]

theorem addOwners_dir (o : Owner) : ∀ (l : List Nat) (s : State), addOwners s o l = { s with dir := (addOwners s o l).dir } := by
  intro l
  induction l with
  | nil => intro s; rfl
  | cons x l ih => intro s; exact ih (addOwner s o x)

theorem OnlyMemory.owners {s t : State} (h : OnlyMemory s t) (p : Nat) : t.owners p = s.owners p := by
  rw [h]
  rfl

/-- A grant makes the row an owner of every subpage asked for, after the copies of those that it did not hold have reached the home. -/
theorem ownershipRequest_grants (h : (s.bank row).own = some r)
    (hw : ∀ p ∈ r.subpages, homeBusy s p = true → ∃ o ∈ s.owners p, o.row = row) (hf : ∀ va ∈ r.vas, frozenAt s row va = false)
    (ho : ∀ p ∈ r.subpages, ∀ o ∈ s.owners p, o.row = row) :
    let t := ownershipRequest s row
    let u := settle s (r.subpages.filter fun p => !ownedBy s row p)
    t = { u with dir := t.dir } ∧ OnlyMemory s u ∧
      (∀ p ∈ r.subpages, Owner.task row ∈ t.owners p ∧ ∀ o ∈ t.owners p, o.row = row) ∧
      ∀ p, p ∉ r.subpages → t.owners p = s.owners p := by
  have hu := settle_only s (r.subpages.filter fun p => !ownedBy s row p)
  rw [ownershipRequest_granted h hw hf ho]
  refine ⟨addOwners_dir .., hu, fun p hp => ⟨?_, fun o hm => ?_⟩, fun p hp => ?_⟩
  · exact (mem_owners_addOwners ..).2 (.inr ⟨rfl, hp⟩)
  · rw [mem_owners_addOwners, hu.owners] at hm
    rcases hm with hm | ⟨rfl, -⟩
    · exact ho p hp o hm
    · rfl
  · rw [owners_addOwners_other _ hp, hu.owners]

end

/-- Settles O47: dispatch by what the fetch and the check of the line come to, the entries by induction over the lanes, and a request by
what the directory finds. -/
theorem linesLandingsAndOwnership : Obligations.LinesLandingsAndOwnership := by
  unfold Obligations.LinesLandingsAndOwnership
  refine ⟨fun s row h => ?_, fun s row h => ⟨fun c v ht => ?_, fun l ht => ⟨fun hp => ?_, fun hp => ?_⟩⟩, fun bs line rb n => ?_,
    fun s row => ?_, fun s row => ⟨fun hn => ?_, fun r hr => ⟨fun hw => ?_, fun hw => ?_⟩⟩⟩
  · exact congrArg Host.Outcome.next (dispatchLine_idle h)
  · exact congrArg Host.Outcome.next (dispatchLine_bad h (fetchLine_bad ht))
  · exact congrArg Host.Outcome.next (dispatchLine_bad h (fetchLine_poison ht hp))
  · have hf := fetchLine_line ht hp
    refine ⟨fun hl => ?_, fun hl he hb => ?_, fun hl he => ⟨fun hroom => ⟨_, rfl, ?_⟩, fun hroom => ?_⟩⟩
    · exact congrArg Host.Outcome.next (dispatchLine_illegal h hf hl)
    · exact congrArg Host.Outcome.next (dispatchLine_noLanding h hf hl he hb)
    · exact (dispatchLine_places h hf hl he).1 ((lineRoom_iff ..).2 hroom)
    · exact congrArg Host.Outcome.next ((dispatchLine_places h hf hl he).2 (lineRoom_false hroom))
  · exact entryOfLine_of_mem bs line rb 8 1 n (by decide)
  · have hland := onlyRow_modBank s row landResults
    rw [landResults, halting_advanceQ] at hland
    refine ⟨fun hh => ⟨_, rfl, ?_⟩, fun hh => ⟨_, rfl, ?_⟩⟩
    · rwa [hh] at hland
    · rwa [hh] at hland
  · exact congrArg Host.Outcome.next (ownershipRequest_none hn)
  · exact congrArg Host.Outcome.next (ownershipRequest_waits hr hw)
  · refine ⟨fun hf => ⟨_, congrArg Host.Outcome.next (ownershipRequest_frozen hr hw hf), onlyRow_modBank ..⟩, fun hf => ⟨?_, ?_⟩⟩
    · exact fun l p m hp hl ho =>
        ⟨_, congrArg Host.Outcome.next (ownershipRequest_refused hr hw hf hp hl ho), onlyRow_modBank ..⟩
    · exact fun ho => ⟨_, rfl, ownershipRequest_grants hr hw hf ho⟩

end Sys2Proof
end

section
/-! Landing of results (R98, R99), and the counters and system registers of the sequencer (R49, R113 to R115, R145, R146, R150). -/

namespace Sys2Proof

open Machine

/-! ### Results in a landing buffer (R98, R99) -/

/-- An issue of a unit with results in its landing buffer: those of the last issue land behind all others, the rest stay. -/
theorem issued_withFlight {b : Bank} (hh : b.halting = false) (u : UnitId) (n : Nat) (res : List Result) :
    (WithFlight b u n res).issued u = if n ≤ 1 then (b.issued u).landAll res else WithFlight (b.issued u) u (n - 1) res := by
  rw [WithFlight, issued_setFlight hh, issued_eq hh]
  simp only [WithFlight, flightRest, flightDue, List.filter_append, List.map_append, List.flatMap_append, landAll_append]
  by_cases hn : n ≤ 1
  · simp [hn, Nat.not_lt.mpr hn, landAll_setStall]
  · simp [hn, Nat.lt_of_not_le hn, landAll_setFlight, flight_setStall, setStall_setFlight]

/-- Settles O5: the results of the entry are the last of the buffer, so that they land after all that were sent before. -/
theorem resultsLand : Obligations.ResultsLand := fun _ u n res hh => issued_withFlight hh u n res

/-! ### Counters and system registers (R49, R113 to R115, R145, R146, R150) -/

/-- An S instruction that writes one scalar register at latency 1. -/
theorem sWrite_ok {i : Instr} {s : State} {d : BitVec 6} {regs : List (BitVec 6)} {v : Bank → W64} (hc : CanIssue s .S)
    (hd : s.here.hasS (d :: regs) = true) (h : exec i s = .next (sWrite s d regs 1 v)) :
    IssuesTo i s ((Passed s .S).setS d (v s.here)) := by
  obtain ⟨hh, hroom⟩ := hc
  rw [sWrite, declared_ok hd, landingRoom_ok hroom] at h
  exact issuesTo_of_ok _ h (issued_send_one hh)

theorem counterValue_eq (s : State) (f : Counter) : counterValue s s.cur f = counterRead s f := by
  have hdie : dieOf s.cur = s.cur / 8 := Nat.div_div_eq_div_mul ..
  cases f <;> simp [counterValue, counterRead, hdie, State.here]

theorem toNat_append_add {v w : Nat} (x : BitVec v) (y : BitVec w) : (x ++ y).toNat = x.toNat * 2 ^ w + y.toNat := by
  rw [BitVec.toNat_append, ← Nat.shiftLeft_add_eq_or_of_lt y.isLt, Nat.shiftLeft_eq]

/-- The fields of CAPS from bit 63 down (R49). -/
theorem toNat_capsFields (core : BitVec 8) (die : BitVec 4) (pkg bank : BitVec 1) (kind : BitVec 3) (engines edge : BitVec 8) :
    ((0 : BitVec 16) ++ core ++ die ++ pkg ++ kind ++ (0 : BitVec 8) ++ engines ++ edge ++ (0 : BitVec 7) ++ bank).toNat =
      core.toNat * 2 ^ 40 + die.toNat * 2 ^ 36 + pkg.toNat * 2 ^ 35 + kind.toNat * 2 ^ 32 + engines.toNat * 2 ^ 16 +
        edge.toNat * 2 ^ 8 + bank.toNat := by
  simp only [toNat_append_add, BitVec.ofNat_eq_ofNat, BitVec.toNat_ofNat]
  omega

theorem capsValue_eq {s : State} (h : s.cur < 72) : BitVec.ofNat 64 (capsValue s s.cur) = systemRegister s .caps := by
  apply BitVec.eq_of_toNat_eq
  refine Eq.trans ?_ (toNat_capsFields (.ofNat 8 (s.cur / 2)) _ _ (.ofNat 1 s.cur) _ _ _).symm
  unfold capsValue engMaskOf coreKind coreOf dieOfCore
  have hp := Bool.toNat_le s.pkg
  have hcore : s.cur / 2 % 256 = s.cur / 2 := by omega
  have hdie : s.cur / 2 / 4 % 16 = s.cur / 2 / 4 := by omega
  by_cases h4 : s.cur / 2 < 4
  · simp [h4, hcore, hdie]
    omega
  · by_cases h20 : s.cur / 2 < 20
    · simp [h4, h20, hcore, hdie]
      omega
    · simp [h4, h20, hcore, hdie]
      omega

theorem sysRegValue_eq {s : State} (h : s.cur < 72) (n : SysReg) : sysRegValue s s.cur n = systemRegister s n := by
  cases n with
  | caps => exact capsValue_eq h
  | shadowst => exact (BitVec.setWidth_eq_append (by decide)).trans rfl
  | rbase => exact (BitVec.setWidth_eq_append (by decide)).trans rfl
  | taskinfo | trapvec | trapcause | trapret => rfl

/-- SYSW writes what `putSysReg` leaves of the bank. -/
theorem sysw_issues (s : State) (n : SysReg) {a : BitVec 6} (ha : s.here.hasS [a] = true) :
    IssuesTo (.sysw n a) s ((putSysReg s.here n (s.here.sreg a)).issued .S) := by
  refine issuesTo_of_ok (u := .S) (fun b => putSysReg b n (b.sreg a)) ?_ rfl
  rw [show exec (.sysw n a) s = execSysw n a s from rfl, execSysw, declared_ok ha]

/-- Settles O12: TIME and SYSR write the value that the field table gives, SYSW by cases over its registers. -/
theorem countersAndSystemRegisters : Obligations.CountersAndSystemRegisters := by
  intro s hcur
  refine ⟨fun d hc hd => ⟨fun f => ?_, fun n => ?_⟩, fun n a ha => ?_⟩
  · rw [← counterValue_eq]
    exact sWrite_ok (v := fun _ => counterValue s s.cur f) hc hd rfl
  · rw [← sysRegValue_eq hcur]
    exact sWrite_ok (v := fun _ => sysRegValue s s.cur n) hc hd rfl
  · have h := sysw_issues s n ha
    cases n <;> exact h

end Sys2Proof
end

section
/-! Time exchanges, DT, the pair link and the cold start (R115, R326, R456 to R459, R466). -/

namespace Sys2Proof

open Machine

/-! ### DT and its copies (R115, R457) -/

section
variable {α : Type} {d : α}

/-- A sweep over the first keys of a store changes the value at each of them once. -/
theorem get_sweep {f : Store α → Nat → Store α} {g : α → α}
    (hf : ∀ m k j, Store.get d (f m k) j = if k = j then g (Store.get d m j) else Store.get d m j) (m : Store α) (n j : Nat) :
    Store.get d ((List.range n).foldl f m) j = if j < n then g (Store.get d m j) else Store.get d m j := by
  induction n with
  | zero => simp
  | succ n ih =>
    rw [List.range_succ, List.foldl_append, List.foldl_cons, List.foldl_nil, hf, ih]
    by_cases hj : n = j
    · simp [hj]
    · have : j < n + 1 ↔ j < n := by omega
      simp [hj, this]

/-- A store without the cells at some keys. -/
theorem get_filter_key (p : Nat → Bool) (m : Store α) (k : Nat) :
    Store.get d (m.filter fun e => p e.1) k = if p k = true then Store.get d m k else d := by
  induction m with
  | nil => simp
  | cons e r ih =>
    obtain ⟨j, v⟩ := e
    rw [List.filter_cons, Store.get]
    by_cases hp : p j = true <;> by_cases hj : j = k
    · subst hj; simp [hp, Store.get]
    · simp [hp, hj, Store.get, ih]
    · subst hj; simp [hp, ih]
    · simp [hp, hj, ih]

end

/-- An exchange sets the slew, and PTMLOCK where the difference is within 1,000 ns (R457). -/
theorem ptmExchange_eq (s : State) (host : W64) : let d : Int := host.toNat - s.dt.toNat
    ptmExchange s host = { s with
      slew := d, devstat := { s.devstat with ptmlock := decide (-1000 ≤ d ∧ d ≤ 1000) } } := by
  have h (d : Int) : d.natAbs ≤ 1000 ↔ -1000 ≤ d ∧ d ≤ 1000 := by omega
  simp only [ptmExchange, h]

/-- A cycle slews DT by nothing, or by one nanosecond in the direction of the slew after every 20,000 (R457; log entry 42). -/
theorem slewStep_cases (s : State) (n : Nat) :
    slewStep s n = 0 ∨ (slewStep s n = s.slew.sign ∧ 1 ≤ n ∧ 20000 ≤ s.slewAcc + n) := by
  unfold slewStep
  split
  · exact .inr ⟨rfl, ‹_›⟩
  · exact .inl rfl

/-- DT never runs backwards: a slew of one nanosecond needs a cycle that counts one. -/
theorem slewStep_bound (s : State) (n : Nat) : 0 ≤ n + slewStep s n := by
  have hsign : -1 ≤ s.slew.sign := by
    rcases Int.lt_trichotomy s.slew 0 with h | h | h
    · simp [Int.sign_eq_neg_one_of_neg h]
    · simp [h]
    · simp [Int.sign_eq_one_of_pos h]
  rcases slewStep_cases s n with h | ⟨h, h1, -⟩ <;> omega

/-- A correction raises a copy that is not ahead of DT, and leaves the others (R115). -/
theorem dtDie_correction (dt : W64) (m : Store W64) (die : Nat) :
    Store.get 0 ((List.range 9).foldl (fun m k => if (m.get 0 k).toNat ≤ dt.toNat then m.set 0 k dt else m) m) die =
      if die < 9 then (if (m.get 0 die).toNat ≤ dt.toNat then dt else m.get 0 die) else m.get 0 die := by
  refine get_sweep (g := fun v => if v.toNat ≤ dt.toNat then dt else v) (fun m k j => ?_) m 9 die
  by_cases hk : k = j
  · subst hk; split <;> simp_all
  · split <;> simp [hk]

/-- Package 0 of a pair tells package 1 its DT (R457). -/
def tellsDt (s : State) : State := if s.dual && !s.pkg then { s with sideOut := s.sideOut ++ [.dt s.dt] } else s

theorem tellsDt_eq (s : State) :
    tellsDt s = { s with sideOut := if s.dual && !s.pkg then s.sideOut ++ [.dt s.dt] else s.sideOut } := by
  unfold tellsDt
  split <;> rfl

theorem dtCorrection_eq (s : State) : exec .dtCorrection s = .next { tellsDt s with
    dtDie := (List.range 9).foldl (fun m k => if (m.get 0 k).toNat ≤ (tellsDt s).dt.toNat then m.set 0 k (tellsDt s).dt else m)
      (tellsDt s).dtDie } := rfl

theorem dtCorrection_spec (s : State) : ∃ t, exec .dtCorrection s = .next t ∧
    t = { s with dtDie := t.dtDie, sideOut := if s.dual && !s.pkg then s.sideOut ++ [.dt s.dt] else s.sideOut } ∧ ∀ die < 9,
    ((s.dtDie.get 0 die).toNat ≤ s.dt.toNat → t.dtDie.get 0 die = s.dt) ∧
    (s.dt.toNat < (s.dtDie.get 0 die).toNat → t.dtDie.get 0 die = s.dtDie.get 0 die) := by
  refine ⟨_, dtCorrection_eq s, ?_, fun die hd => ?_⟩
  · rw [tellsDt_eq]
  · simp only [tellsDt_eq, dtDie_correction, hd, if_true]
    exact ⟨fun h => if_pos h, fun h => if_neg (Nat.not_le.mpr h)⟩

/-! ### The pair link (R326, R456, R458) -/

theorem pairLink_single {s : State} (h : s.dual = false) :
    exec .pairLinkLoss s = .next s ∧ exec .pairLinkTrained s = .next s := by
  refine ⟨congrArg Host.Outcome.next ?_, congrArg Host.Outcome.next ?_⟩ <;> simp [h]

theorem pairLinkLoss_dual {s : State} (h : s.dual = true) : exec .pairLinkLoss s = .next { s with
    devstat := { s.devstat with pairdown := true, pairup := false }, msix := if s.devstat.pairup then s.msix ++ [16] else s.msix } := by
  refine congrArg Host.Outcome.next ?_
  cases hu : s.devstat.pairup <;> simp [h, sendMsix]

theorem pairLinkTrained_dual {s : State} (h : s.dual = true) : exec .pairLinkTrained s = .next { s with
    devstat := { s.devstat with pairup := true }, msix := if s.devstat.pairup then s.msix else s.msix ++ [16] } := by
  refine congrArg Host.Outcome.next ?_
  cases hu : s.devstat.pairup with
  | false => simp [h, sendMsix]
  | true => simp [← hu]

/-! ### The cold start (R459, R466) -/

/-- The package as the stages of a cold start find it: the reset state, but for what outlives it. -/
def restarted (s : State) : State := { State.reset with
  dual := s.dual, pkg := s.pkg, cur := s.cur, agenda := s.agenda, cycle := s.cycle, fresh := s.fresh, hostMem := s.hostMem
  backing := s.backing, hostErr := s.hostErr, hostRead := s.hostRead, sideOut := s.sideOut, msix := s.msix
  mem := s.mem.filter fun e => decide (paOff e.1 ≤ 0x000FFFFFFFFF) }

/-- A cold start that a failing stage has stopped. -/
def bootFailed (s : State) (code : BitVec 8) (stage : BitVec 4) (secure : Bool) : State :=
  { restarted s with devstat := { (restarted s).devstat with booterr := code, stage := stage, secure := secure } }

/-- A cold start whose stages have passed, with the pair link or without it. -/
def booted (s : State) (pair : Bool) : State :=
  { restarted s with
    dual := pair
    devstat := { (restarted s).devstat with
      booterr := if s.dual && !pair then 4 else 0, secure := true, stage := 7, ready := true, pwr := 1, pairup := pair }
    msix := s.msix ++ [16] }

/-- What the stages of a cold start come to, in their order. -/
theorem coldStartOp_eq (s : State) : coldStartOp s =
    if s.dual && s.pkg && !(s.dual && Config.pairLinkOk) then bootFailed s 4 3 false
    else if !Config.firmwareOk then bootFailed s 1 1 false
    else if !Config.lpddrOk then bootFailed s 2 2 true
    else if !Config.sramOk then bootFailed s 3 5 true
    else booted s (s.dual && Config.pairLinkOk) := rfl

/-- Whatever a stage comes to, the rest of the state is that of the restart. -/
theorem coldStartOp_restarted (s : State) : ∃ v d m, coldStartOp s = { restarted s with dual := v, devstat := d, msix := m } := by
  rw [coldStartOp_eq]
  repeat' split
  all_goals exact ⟨_, _, _, rfl⟩

/-- LPDDR stays, and every other byte is zero (R466). -/
theorem home_restarted (s : State) (a : Nat) :
    (restarted s).home a = if a % 2 ^ 48 ≤ 0x000FFFFFFFFF then s.home a else 0 := by
  have h := get_filter_key (d := zeroByte) (fun k => decide (paOff k ≤ 0x000FFFFFFFFF)) s.mem a
  simp only [decide_eq_true_eq] at h
  exact h

/-- What a cold start leaves, whatever its stages come to. -/
theorem coldStartOp_rest (s : State) : let t := coldStartOp s
    t.pkg = s.pkg ∧ t.hostMem = s.hostMem ∧ (∀ row, t.row row = Row.reset ∧ t.bank row = Bank.reset) ∧
    (∀ g, t.group g = Group.reset) ∧ (∀ k, t.queue k = LaunchQueue.reset) ∧ t.kimgpol = 0xFF00 ∧ t.dt = 0 ∧ t.xtsKeys = [] ∧
    t.spKeys = [] ∧ t.launches = [] ∧ t.images = [] ∧ t.tlb = [] ∧
    ∀ a, t.home a = if a % 2 ^ 48 ≤ 0x000FFFFFFFFF then s.home a else 0 := by
  obtain ⟨v, d, m, h⟩ := coldStartOp_restarted s
  rw [h]
  exact ⟨rfl, rfl, fun _ => ⟨rfl, rfl⟩, fun _ => rfl, fun _ => rfl, rfl, rfl, rfl, rfl, rfl, rfl, rfl, home_restarted s⟩

/-- Package 1 of a pair cannot start without the pair link (R459). -/
def Lone (s : State) : Prop := s.pkg = true ∧ s.dual = true ∧ (s.dual && Config.pairLinkOk) = false

theorem coldStartOp_lone {s : State} (h : Lone s) : coldStartOp s = bootFailed s 4 3 false := by
  obtain ⟨hpkg, hdual, hpair⟩ := h
  rw [coldStartOp_eq, hpair, hpkg, hdual]
  rfl

theorem coldStartOp_stages {s : State} (h : ¬ Lone s) : coldStartOp s =
    if !Config.firmwareOk then bootFailed s 1 1 false
    else if !Config.lpddrOk then bootFailed s 2 2 true
    else if !Config.sramOk then bootFailed s 3 5 true
    else booted s (s.dual && Config.pairLinkOk) := by
  rw [coldStartOp_eq, if_neg]
  intro hc
  simp only [Bool.and_eq_true, Bool.not_eq_true'] at hc
  exact h ⟨hc.1.2, hc.1.1, hc.2⟩

theorem bootFailed_spec (s : State) (code : BitVec 8) (stage : BitVec 4) (secure : Bool) : let t := bootFailed s code stage secure
    t.devstat.ready = false ∧ t.devstat.booterr = code ∧ t.devstat.stage = stage ∧ t.devstat.secure = secure ∧ t.msix = s.msix ∧
      t.dual = s.dual := ⟨rfl, rfl, rfl, rfl, rfl, rfl⟩

theorem booted_spec (s : State) (pair : Bool) : let t := booted s pair
    t.devstat.ready = true ∧ t.devstat.secure = true ∧ t.devstat.stage = 7 ∧ t.devstat.pwr = 1 ∧
      t.devstat.booterr = (if s.dual = true ∧ pair = false then 4 else 0) ∧ t.devstat.pairup = pair ∧ t.dual = pair ∧
      t.msix = s.msix ++ [16] := by
  refine ⟨rfl, rfl, rfl, rfl, ?_, rfl, rfl, rfl⟩
  simp [booted]

/-- Settles O60: each clause from the equation of its event, and the cold start from the order of its stages. -/
theorem timeAndPair : Obligations.TimeAndPair := by
  refine ⟨fun s host => congrArg Host.Outcome.next (ptmExchange_eq s host),
    fun s => ⟨slewStep s ((s.dtAcc + 10) / s.clk), rfl, rfl, slewStep_bound .., ?_⟩, dtCorrection_spec,
    fun s => ⟨pairLink_single, fun h => ⟨pairLinkLoss_dual h, pairLinkTrained_dual h⟩⟩,
    fun s t w => ⟨rfl, rfl⟩, fun _ _ _ _ _ => rfl, fun s => ⟨coldStartOp s, rfl, ?_⟩⟩
  · exact (slewStep_cases ..).imp_right fun ⟨hs, _, hn⟩ => ⟨hs, hn⟩
  · obtain ⟨hpkg, hhost, hrow, hgroup, hqueue, hpol, hdt, hxts, hsp, hlaunch, himage, htlb, hhome⟩ := coldStartOp_rest s
    refine ⟨hpkg, hhost, hrow, hgroup, hqueue, hpol, hdt, hxts, hsp, hlaunch, himage, htlb, hhome, fun hl => ?_, fun hl hf => ?_,
      fun hl hf hd => ?_, fun hl hf hd hs => ?_, fun hl hf hd hs => ?_⟩
    · rw [coldStartOp_lone hl]
      exact bootFailed_spec ..
    · rw [coldStartOp_stages hl, hf]
      exact bootFailed_spec ..
    · rw [coldStartOp_stages hl, hf, hd]
      exact bootFailed_spec ..
    · rw [coldStartOp_stages hl, hf, hd, hs]
      exact bootFailed_spec ..
    · rw [coldStartOp_stages hl, hf, hd, hs]
      exact booted_spec ..

end Sys2Proof
end

section
/-! Ends and holds of the entries of XG and WN (R262, R272, R273, R386, R387). -/

namespace Sys2Proof

open Machine

/-- An entry that ends without a cause places its status word alone (R272). -/
theorem endWith_eq (p : State) (row : Nat) (e : Eng) (x : EngEntry) (status : Nat) :
    endWith p row e x status none = finishEntry p row e x status (resWord x status) none := by
  simp [endWith, resWord]

theorem endsAt_of_endWith {i : Instr} {s p : State} {e : Eng} {x : EngEntry} {status : Nat}
    (h : exec i s = .next (endWith p s.cur e x status none)) : EndsAt i s p e x status (resWord x status) := by
  rw [endWith_eq] at h
  exact endsAt_of h

/-- The head of a queue that awaits an answer goes on. -/
theorem runHead_putting {s : State} {e : Eng} {i : Instr} {x : EngEntry} (hx : (s.here.engQ e).head? = some x)
    (hi : x.instr e = some i) (hb : s.here.engBlocked e x.opc = false) (hs : x.state = .putting) (k : State → EngEntry → State) :
    runHead s e i k = k s x := by
  unfold runHead
  dsimp only
  cases hq : s.here.engQ e with
  | nil => rw [hq] at hx; cases hx
  | cons y l =>
    rw [hq] at hx
    cases hx
    dsimp only
    rw [if_neg (by simp [hi, hb]), hs]

/-- What a read of a command leaves of the state: the TLBs may have taken its leaves. -/
theorem engRead_tlb {s p : State} {row va n align : Nat} {x : EngEntry} {bytes : List Byte} {err : Bool}
    (h : engRead s row x va n align = .ok p bytes err) : ∃ c, p = { s with tlb := c } := by
  unfold engRead at h
  split at h
  · cases h
  · cases h
  · split at h
    · split at h
      · split at h
        · cases h
          exact touched_tlb ..
        · cases h
      · cases h
    · cases h
      exact touched_tlb ..

end Sys2Proof
end

section
/-! Windows, puts and counters of the package pair, and the start of timed commands (R119, R393 to R397). -/

namespace Sys2Proof

open Machine

/-! ### The window table (R393) -/

@[simp] theorem window_setWindow (s : State) (w j : BitVec 6) (x : Window) :
    (s.setWindow w x).window j = if j = w then x else s.window j := by
  simp only [State.setWindow, State.window, Store.get_set, BitVec.toNat_inj, eq_comm]

theorem setWindow_eq (s : State) (w : BitVec 6) (x : Window) : s.setWindow w x = { s with win := (s.setWindow w x).win } := rfl

theorem sendReset_eq (s : State) (w : BitVec 6) :
    sendReset s w = { s with sideOut := if s.dual then s.sideOut ++ [.windowReset w] else s.sideOut } := by
  unfold sendReset
  split <;> rfl

/-! ### The start of a WN command (R340) -/

theorem wnStart_refused {s : State} {i : Instr} {x : EngEntry} (h : Starts s .wn i x) (hr : mayExecute s s.cur .wn = false)
    (k : State → EngEntry → State) : wnStart s i k = xgFail s .wn x 0x07 0 := by
  obtain ⟨-, -, -, hw, -, -⟩ := id h
  rw [wnStart, runHead_of h]
  simp [hw, hr]

theorem wnStart_allowed {s : State} {i : Instr} {x : EngEntry} (h : StartsAllowed s .wn i x) (k : State → EngEntry → State) :
    wnStart s i k = k s x := by
  rw [wnStart, runHead_of h.1]
  simp [h.2]

theorem wnStart_putting {s : State} {i : Instr} {x : EngEntry} (hx : s.here.wn.head? = some x) (hi : x.instr .wn = some i)
    (hb : s.here.engBlocked .wn x.opc = false) (hs : x.state = .putting) (k : State → EngEntry → State) : wnStart s i k = k s x := by
  rw [wnStart, runHead_putting (e := .wn) hx hi hb hs]
  simp [hs]

/-! ### WREG (R393, R395) -/

section
variable {s : State} {h : CmdHdr} {wid : BitVec 6} {base : W64} {len : BitVec 32} {x : EngEntry}

/-- A WREG has given the window its value: it tells the other package, and ends. -/
def wregEnds (s : State) (wid : BitVec 6) (len : BitVec 32) (x : EngEntry) (v : Window) : State :=
  let y := { x with sub := len.toNat }
  endWith (sendReset (s.setWindow wid v) wid) s.cur .wn y (xgStatus y 0) none

theorem wreg_eq (hs : StartsAllowed s .wn (.wreg h wid base len) x) : exec (.wreg h wid base len) s = .next (
    if len = 0 then wregEnds s wid len x { s.window wid with len := 0, rcv := 0 }
    else if (s.window wid).len ≠ 0 then xgFail s .wn x 0x14 0
    else match windowFault s base.toNat len.toNat with
      | some (c, a) => xgStop s .wn x c a
      | none => wregEnds s wid len x { s.window wid with asid := (s.row s.cur).asid, base := base, len := len, rcv := 0 }) :=
  congrArg Host.Outcome.next (wnStart_allowed hs _)

theorem wregEnds_spec {v : Window} (he : exec (.wreg h wid base len) s = .next (wregEnds s wid len x v)) :
    let y := { x with sub := len.toNat }
    ∃ p, p = { s with win := p.win, sideOut := if s.dual then s.sideOut ++ [.windowReset wid] else s.sideOut } ∧
      (∀ j, p.window j = if j = wid then v else s.window j) ∧
      EndsAt (.wreg h wid base len) s p .wn y (xgStatus y 0) (resWord y (xgStatus y 0)) := by
  refine ⟨sendReset (s.setWindow wid v) wid, ?_, fun j => ?_, endsAt_of_endWith he⟩
  · rw [sendReset_eq]; rfl
  · rw [sendReset_eq]; exact window_setWindow ..

end

/-! ### WPUT (R396) -/

section
variable {s : State} {h : CmdHdr} {src : W64} {wid : BitVec 6} {off : BitVec 32} {lenM1 : BitVec 24} {x : EngEntry}

/-- The continuation of a WPUT that has started or awaits its answer. -/
theorem wput_start (hs : StartsAllowed s .wn (.wput h src wid off lenM1) x) :
    (pairReady s = false → exec (.wput h src wid off lenM1) s = .next (xgFail s .wn x 0x14 0)) ∧
    (pairReady s = true →
      (∀ c a, engRead s s.cur x src.toNat (lenM1.toNat + 1) 1 = .bad c a →
        exec (.wput h src wid off lenM1) s = .next (xgStop s .wn x c a)) ∧
      ∀ p bytes err, engRead s s.cur x src.toNat (lenM1.toNat + 1) 1 = .ok p bytes err → exec (.wput h src wid off lenM1) s = .next
        { setEntry p s.cur .wn { x with state := .putting, flags := if err then x.flags ||| .ofNat 64 xgDerr else x.flags } with
          sideOut := s.sideOut ++ [.put s.cur x.id wid off bytes] }) := by
  obtain ⟨⟨-, -, -, hw, -, -⟩, -⟩ := id hs
  refine ⟨fun hp => ?_, fun hp => ⟨fun c a hr => ?_, fun p bytes err hr => ?_⟩⟩
  · refine congrArg Host.Outcome.next ((wnStart_allowed hs _).trans ?_)
    simp [hp]
  · refine congrArg Host.Outcome.next ((wnStart_allowed hs _).trans ?_)
    simp [hp, hw, hr]
  · obtain ⟨c, rfl⟩ := engRead_tlb hr
    refine congrArg Host.Outcome.next ((wnStart_allowed hs _).trans ?_)
    simp only [hp, hw, hr]
    cases err <;> rfl

theorem wput_putting (hx : s.here.wn.head? = some x) (hi : x.instr .wn = some (.wput h src wid off lenM1))
    (hb : s.here.engBlocked .wn x.opc = false) (hs : x.state = .putting) (hp : pairReady s = true) :
    exec (.wput h src wid off lenM1) s = .next (match putAnswer (Config.freeWord s.fresh) with
      | .notYet => { s with fresh := s.fresh + 1 }
      | .counted => putCountedOp { s with fresh := s.fresh + 1 } s.cur x.id wid
      | .refused c => xgFail { s with fresh := s.fresh + 1 } .wn x c 0) := by
  refine congrArg Host.Outcome.next ((wnStart_putting hx hi hb hs _).trans ?_)
  simp only [hp, hs, takeFree]
  rfl

end

/-! ### Puts that are counted, puts that arrive (R393, R396) -/

section
variable {s : State} {row id : Nat} {wid : BitVec 6} {x : EngEntry}

theorem putCounted_eq (hf : (s.bank row).wn.find? (fun y => decide (y.id = id)) = some x) (hs : x.state = .putting) :
    exec (.putCounted row id wid) s = .next
      (endWith (State.setWindow { s with cur := row } wid { s.window wid with snd := (s.window wid).snd + 1 }) row .wn x
        (xgStatus { x with sub := (match x.instr .wn with
          | some (.wput _ _ _ _ lenM1) => lenM1.toNat + 1
          | _ => 0) } 0) none) := by
  refine congrArg Host.Outcome.next ?_
  unfold putCountedOp
  dsimp only [State.here, State.bank] at hf ⊢
  rw [hf]
  simp only [hs, if_true]
  rfl

theorem putCounted_other (hf : (s.bank row).wn.find? (fun y => decide (y.id = id)) = some x) (hs : x.state ≠ .putting) :
    exec (.putCounted row id wid) s = .next { s with cur := row } := by
  refine congrArg Host.Outcome.next ?_
  unfold putCountedOp
  dsimp only [State.here, State.bank] at hf ⊢
  rw [hf]
  simp [hs]

end

theorem onlyMemory_putBytes : ∀ (l : List (Nat × Nat)) (s : State) (bs : List Byte), OnlyMemory s (putBytes s l bs)
  | [], s, _ => OnlyMemory.refl s
  | (pa, n) :: r, s, bs => (only_homeBytes (bs.take n) s pa).trans (onlyMemory_putBytes r _ _)

/-- A put leaves every byte outside its segments. -/
theorem home_putBytes_outside {a : Nat} : ∀ (l : List (Nat × Nat)) (s : State) (bs : List Byte),
    (∀ q ∈ l, a < q.1 ∨ q.1 + q.2 ≤ a) → (putBytes s l bs).home a = s.home a
  | [], _, _, _ => rfl
  | (pa, n) :: r, s, bs, h => by
    rw [putBytes, home_putBytes_outside r _ _ fun q hq => h q (List.mem_cons_of_mem _ hq), homeBytes_write, if_neg]
    have hq := h (pa, n) List.mem_cons_self
    have hn := List.length_take_le n bs
    omega

/-- A put into one segment leaves its bytes there. -/
theorem home_putBytes_segment (s : State) (pa : Nat) {bs : List Byte} {j : Nat} (hj : j < bs.length) :
    (putBytes s [(pa, bs.length)] bs).home (pa + j) = bs.getD j 0 := by
  rw [putBytes, putBytes, List.take_length, homeBytes_write, if_pos ⟨Nat.le_add_right .., Nat.add_lt_add_left hj _⟩,
    Nat.add_sub_cancel_left]

section
variable {s : State} {wid : BitVec 6} {off : BitVec 32} {bytes : List Byte}

/-- The pages of a put in its window. -/
def putPages (s : State) (wid : BitVec 6) (off : BitVec 32) (n : Nat) : PutCheck :=
  putSegs s (s.window wid).asid (pagesOf (n / 65536 + 2) ((s.window wid).base.toNat + off.toNat) n)

/-- The window cannot take the put, whatever its pages are. -/
def PutBarred (s : State) (wid : BitVec 6) (off : BitVec 32) (n : Nat) : Prop :=
  s.devstat.pwr = 3 ∨ (s.window wid).len = 0 ∨ (s.window wid).len.toNat < off.toNat + n

theorem putArrival_refused {c : Nat} (h : putCheck s (s.window wid) off.toNat bytes.length = .refused c) :
    exec (.putArrival wid off bytes) s = .next { s with sideOut := s.sideOut ++ [.putRefused wid c] } := by
  refine congrArg Host.Outcome.next ?_
  simp only [h]

theorem putArrival_taken {l : List (Nat × Nat)} (h : putCheck s (s.window wid) off.toNat bytes.length = .ok l) :
    exec (.putArrival wid off bytes) s = .next
      { (putBytes s l bytes).setWindow wid { s.window wid with rcv := (s.window wid).rcv + 1 } with
        sideOut := ((putBytes s l bytes).setWindow wid { s.window wid with rcv := (s.window wid).rcv + 1 }).sideOut ++
          [.putCounted wid] } := by
  refine congrArg Host.Outcome.next ?_
  simp only [h]

theorem putCheck_barred {n : Nat} (h : PutBarred s wid off n) : putCheck s (s.window wid) off.toNat n = .refused 0x14 := if_pos h

theorem putCheck_pages {n : Nat} (hp : s.devstat.pwr ≠ 3) (hw : (s.window wid).len ≠ 0) (hn : off.toNat + n ≤ (s.window wid).len.toNat) :
    putCheck s (s.window wid) off.toNat n = putPages s wid off n :=
  if_neg (not_or.mpr ⟨hp, not_or.mpr ⟨hw, Nat.not_lt.mpr hn⟩⟩)

theorem putArrival_spec {l : List (Nat × Nat)} (h : putCheck s (s.window wid) off.toNat bytes.length = .ok l) : ∃ p t, OnlyMemory s p ∧
    (∀ a, (∀ q ∈ l, a < q.1 ∨ q.1 + q.2 ≤ a) → p.home a = s.home a) ∧
    (∀ pa, l = [(pa, bytes.length)] → ∀ j < bytes.length, p.home (pa + j) = bytes.getD j 0) ∧
    exec (.putArrival wid off bytes) s = .next t ∧ t = { p with win := t.win, sideOut := s.sideOut ++ [.putCounted wid] } ∧
    ∀ j, t.window j = if j = wid then { s.window wid with rcv := (s.window wid).rcv + 1 } else s.window j := by
  have hm := onlyMemory_putBytes l s bytes
  have hs : (putBytes s l bytes).sideOut = s.sideOut := by rw [hm]
  have hw (j : BitVec 6) : (putBytes s l bytes).window j = s.window j := by rw [hm]; rfl
  refine ⟨putBytes s l bytes, _, hm, fun a ha => home_putBytes_outside l s bytes ha, ?_,
    putArrival_taken h, by rw [← hs]; rfl, fun j => (window_setWindow ..).trans (by rw [hw])⟩
  rintro pa rfl j hj
  exact home_putBytes_segment s pa hj

end

/-! ### WCNT (R397) -/

theorem wcnt_eq {s : State} {h : CmdHdr} {wait snd : Bool} {wid : BitVec 6} {target : W64} {x : EngEntry}
    (hs : StartsAllowed s .wn (.wcnt h wait wid snd target) x) :
    let v := if snd then (s.window wid).snd else (s.window wid).rcv
    exec (.wcnt h wait wid snd target) s = .next (
      if snd && !pairReady s then xgFail s .wn x 0x14 0
      else if wait && decide (v.toNat < target.toNat) then s
      else finishEntry s s.cur .wn x (BitVec.ofNat 64 (xgStatus x 0)).toNat
        (if x.res then [v, .ofNat 64 (xgStatus x 0)] else [v]) none) :=
  congrArg Host.Outcome.next (wnStart_allowed hs _)

/-! ### Timed starts (R119) -/

section
variable {s : State} {row : Nat} {e : Eng} {x : EngEntry}

/-- A timed command can start in its cycle: its engine is free for it and its operands are ready (R119). -/
def TimedReady (s : State) (row : Nat) (e : Eng) (x : EngEntry) : Prop :=
  (s.bank row).tcc.toNat = x.startAt ∧ (headOf (s.bank row) e x).map EngEntry.id = some x.id ∧
    (s.bank row).fifoWaits e x = false ∧ (e = .mx → mxReady s row x = true) ∧ operandsReady s row e x = true

theorem startTimed_ready (h : TimedReady s row e x) : startTimed row e s x = setEntry s row e { x with started := true } := by
  obtain ⟨ht, hh, hf, hm, ho⟩ := h
  refine if_pos ?_
  by_cases he : e = .mx
  · simp [ht, hh, hf, hm he, ho]
  · simp [ht, hh, hf, he, ho]

theorem startTimed_late (h : ¬ TimedReady s row e x) : startTimed row e s x =
    finishEntry s row e x (statusOf x.opc 0x0A) [] (some (entryFault s row e x 0x0A 0)) := by
  refine if_neg fun hn => h ?_
  simp only [Bool.and_eq_true, decide_eq_true_eq, Bool.not_eq_true', Bool.and_eq_false_iff, beq_eq_false_iff_ne,
    Bool.not_eq_false'] at hn
  obtain ⟨⟨⟨⟨ht, hh⟩, hf⟩, hm⟩, ho⟩ := hn
  exact ⟨ht, hh, hf, fun he => hm.resolve_left (not_not_intro he), ho⟩

theorem timedCommandStart_none (h : dueEntries (s.bank row) e = []) : timedCommandStart s row e = s := by
  rw [timedCommandStart, h]; rfl

theorem timedCommandStart_one (h : dueEntries (s.bank row) e = [x]) : timedCommandStart s row e = startTimed row e s x := by
  have hx : x ∈ dueEntries (s.bank row) e := by rw [h]; exact List.mem_cons_self
  have hq : ((s.bank row).engQ e).any (fun y => decide (y.id = x.id)) = true :=
    List.any_eq_true.mpr ⟨x, List.mem_of_mem_filter hx, decide_eq_true rfl⟩
  rw [timedCommandStart, h, List.foldl_cons, List.foldl_nil, if_pos hq]

end

/-- Settles O55: each clause from the equation of its command or event, a put that arrives by what its check comes to. -/
theorem windowsAndTimedStarts : Obligations.WindowsAndTimedStarts := by
  refine ⟨fun s i x k h => ⟨fun hr => wnStart_refused h hr k, fun hr => wnStart_allowed ⟨h, hr⟩ k⟩, fun s h wid base len x hs => ?_,
    fun s h src wid off lenM1 x => ⟨fun hs => (wput_start hs).1, fun hs hp => ⟨((wput_start hs).2 hp).1, fun p bytes err hr =>
      ⟨engRead_tlb hr, ((wput_start hs).2 hp).2 p bytes err hr⟩⟩, fun hx hi hb hs hp => ?_⟩,
    fun s row id wid x hf => ⟨fun hs => ?_, fun hs => putCounted_other hf hs⟩,
    fun s wid => ⟨_, rfl, setWindow_eq .., fun j => window_setWindow ..⟩,
    fun s wid off bytes => ⟨fun hb => putArrival_refused (putCheck_barred hb), fun hp hw hn c hc => ?_, fun hp hw hn l hl => ?_⟩,
    fun s h wait wid snd target x => ?_,
    fun s row e => ⟨fun hd => congrArg _ (timedCommandStart_none hd), fun x hd => ⟨fun hr => ?_, fun hr => ?_⟩⟩⟩
  · have he := wreg_eq hs
    refine ⟨fun h0 => ?_, fun h0 hw => ?_, fun h0 hw => ⟨fun c a hf => ?_, fun hf => ?_⟩⟩
    · rw [if_pos h0] at he
      exact wregEnds_spec he
    · rwa [if_neg h0, if_pos hw] at he
    · rwa [if_neg h0, if_neg (not_not_intro hw), hf] at he
    · rw [if_neg h0, if_neg (not_not_intro hw), hf] at he
      exact wregEnds_spec he
  · have he := wput_putting hx hi hb hs hp
    refine ⟨fun ha => ?_, fun ha => ?_, fun c ha => ?_⟩ <;> rwa [ha] at he
  · refine ⟨State.setWindow { s with cur := row } wid { s.window wid with snd := (s.window wid).snd + 1 }, rfl,
      fun j => window_setWindow .., fun h src off lenM1 hi => ?_⟩
    rw [putCounted_eq hf hs, hi]
  · exact putArrival_refused ((putCheck_pages hp hw hn).trans hc)
  · exact putArrival_spec ((putCheck_pages hp hw hn).trans hl)
  · intro i v words hs
    refine ⟨fun hn hp => (wcnt_eq hs).trans ?_, fun hp => ?_⟩
    · rw [if_pos (by simp [hn, hp])]
    · have hreach : ¬ (snd && !pairReady s) = true := by simpa using hp
      refine ⟨fun hw ht => (wcnt_eq hs).trans ?_, fun hw => endsAt_of ((wcnt_eq hs).trans ?_)⟩
      · rw [if_neg hreach, if_pos (by simp [hw, ht, v])]
      · rw [if_neg hreach, if_neg (by simpa using hw)]
  · exact congrArg _ ((timedCommandStart_one hd).trans (startTimed_ready hr))
  · exact congrArg _ ((timedCommandStart_one hd).trans (startTimed_late hr))

end Sys2Proof
end

section
/-! The exchange: permits, grants, sends, receives and timed puts (R118, R340, R377 to R391). -/

namespace Sys2Proof

open Machine

/-! ### Slots and permit FIFOs (R378, R379) -/

theorem slotKey_inj {d i e j : Nat} (hi : i < 16) (hj : j < 16) : 16 * d + i = 16 * e + j ↔ e = d ∧ j = i := by omega

theorem slot_setSlot (s : State) (d e : Nat) {i j : Nat} (hi : i < 16) (hj : j < 16) (x : XSlot) :
    (s.setSlot d i x).slot e j = if e = d ∧ j = i then x else s.slot e j := by
  simp only [State.setSlot, State.slot, Store.get_set, slotKey_inj hi hj]

theorem slot_setSlot_bits (s : State) (d i e j : BitVec 4) (x : XSlot) :
    (s.setSlot d.toNat i.toNat x).slot e.toNat j.toNat = if e = d ∧ j = i then x else s.slot e.toNat j.toNat := by
  simp only [slot_setSlot s _ _ i.isLt j.isLt, BitVec.toNat_inj]

theorem permitKey_inj (a b c d e f : BitVec 4) : permitKey a.toNat b.toNat c.toNat = permitKey d.toNat e.toNat f.toNat ↔
    d = a ∧ e = b ∧ f = c := by
  simp only [permitKey, ← BitVec.toNat_inj]
  omega

theorem permitQ_setPermitQ (s : State) (a b c d e f : BitVec 4) (l : List (Asid × BitVec 4)) :
    (s.setPermitQ a.toNat b.toNat c.toNat l).permitQ d.toNat e.toNat f.toNat =
      if d = a ∧ e = b ∧ f = c then l else s.permitQ d.toNat e.toNat f.toNat := by
  simp only [State.setPermitQ, State.permitQ, Store.get_set, permitKey_inj]

@[simp] theorem slot_sendEvent (s : State) (i : Instr) (d j : Nat) : (sendEvent s i).slot d j = s.slot d j := rfl

section
variable (s : State) (rdie sdie chan slot : BitVec 4) (asid : Asid)

/-- A permit enters its FIFO, and its slot takes its place in permit order (R379). -/
theorem permit_spec : ∃ t, exec (.permit rdie sdie chan asid slot) s = .next t ∧
    t = { s with permits := t.permits, slots := t.slots, permitOrder := s.permitOrder + 1 } ∧
    (∀ a b c : BitVec 4, t.permitQ a.toNat b.toNat c.toNat = if a = sdie ∧ b = rdie ∧ c = chan
      then s.permitQ sdie.toNat rdie.toNat chan.toNat ++ [(asid, slot)] else s.permitQ a.toNat b.toNat c.toNat) ∧
    ∀ d i : BitVec 4, t.slot d.toNat i.toNat = if d = rdie ∧ i = slot
      then { s.slot rdie.toNat slot.toNat with order := s.permitOrder } else s.slot d.toNat i.toNat :=
  ⟨_, rfl, rfl, fun a b c => permitQ_setPermitQ _ sdie rdie chan a b c _, fun d i => slot_setSlot_bits s rdie slot d i _⟩

/-- A withdraw that finds its permit removes it and frees the slot (R378, R383). -/
theorem withdraw_found (h : (asid, slot) ∈ s.permitQ sdie.toNat rdie.toNat chan.toNat) :
    withdrawOp s rdie sdie chan asid slot = (s.setPermitQ sdie.toNat rdie.toNat chan.toNat
      ((s.permitQ sdie.toNat rdie.toNat chan.toNat).filter (· ≠ (asid, slot)))).setSlot rdie.toNat slot.toNat XSlot.reset :=
  if_pos (List.contains_iff_mem.mpr h)

/-- One that does not find it marks the slot. -/
theorem withdraw_missed (h : (asid, slot) ∉ s.permitQ sdie.toNat rdie.toNat chan.toNat) :
    withdrawOp s rdie sdie chan asid slot =
      s.setSlot rdie.toNat slot.toNat { s.slot rdie.toNat slot.toNat with revoking := true } :=
  if_neg fun hc => h (List.contains_iff_mem.mp hc)

end

/-! ### The start of an XG command (R340, R377, R382) -/

section
variable {s : State} {opc : Nat} {i : Instr} {x : EngEntry}

theorem xgStart_of (h : XgStarts s opc i x) (k : State → EngEntry → State) : xgStart s opc i k =
    if !mayExecute s s.cur .xg then xgFail s .xg x 0x07 0
    else if !s.xgcfg.get false (dieOf s.cur) then xgFail s .xg x 0x11 0
    else k s x := by
  obtain ⟨hx, hi, hb, hs, ht, hf⟩ := h
  unfold xgStart
  dsimp only
  rw [hx]
  dsimp only
  rw [if_neg (by simp [hi, hb]), hs]
  dsimp only
  rw [if_neg (by simp [ht, hf])]

theorem xgStart_allowed (h : XgAllowed s opc i x) (k : State → EngEntry → State) : xgStart s opc i k = k s x := by
  obtain ⟨hs, hr, he⟩ := h
  simp [xgStart_of hs, hr, he]

theorem XgAllowed.waiting (h : XgAllowed s opc i x) : x.state = .waiting := by
  obtain ⟨⟨-, -, -, hs, -, -⟩, -, -⟩ := h
  exact hs

theorem xgStart_goesOn (h : XgGoesOn s opc i x) (k : State → EngEntry → State) : xgStart s opc i k = k s x := by
  obtain ⟨hx, hi, hb, hs⟩ := h
  unfold xgStart
  dsimp only
  rw [hx]
  dsimp only
  rw [if_neg (by simp [hi, hb])]
  rcases hs with hs | hs | ⟨c, hs⟩ <;> rw [hs]

end

/-! ### XGRANT (R383) -/

theorem OnlySlots.refl (s : State) : OnlySlots s s := rfl

theorem OnlySlots.trans {s t u : State} (h : OnlySlots s t) (k : OnlySlots t u) : OnlySlots s u := by
  unfold OnlySlots at *
  rw [h] at k
  exact k

theorem onlySlots_setSlot (s : State) (d i : Nat) (x : XSlot) : OnlySlots s (s.setSlot d i x) := rfl
theorem onlySlots_sendEvent (s : State) (i : Instr) : OnlySlots s (sendEvent s i) := rfl

section
variable (die : Nat) (sdie chan : BitVec 4) (asid : Asid)

/-- The slot that a grant leaves, and the message that it sends. -/
def grantedSlot (s : State) : XSlot := ⟨.granted, sdie, chan, asid, false, s.permitOrder, [], []⟩

/-- The state after one slot has been granted. -/
def grantOne (s : State) (i : Nat) : State :=
  sendEvent (s.setSlot die i (grantedSlot sdie chan asid s)) (.permit (.ofNat 4 die) sdie chan asid (.ofNat 4 i))

/-- No slot of the channel belongs to another address space (R383). -/
def ChannelOwn (s : State) : Prop := ∀ j < 16, (s.slot die j).state ≠ .free → (s.slot die j).sdie = sdie → (s.slot die j).chan = chan →
  (s.slot die j).asid = asid

variable {die sdie chan asid}

theorem slot_grantOne (s : State) {i j : Nat} (hi : i < 16) (hj : j < 16) (d : Nat) :
    (grantOne die sdie chan asid s i).slot d j = if d = die ∧ j = i then grantedSlot sdie chan asid s else s.slot d j :=
  slot_setSlot s die d hi hj (grantedSlot sdie chan asid s)

theorem ChannelOwn.grantOne {s : State} (h : ChannelOwn die sdie chan asid s) {i : Nat} (hi : i < 16) :
    ChannelOwn die sdie chan asid (grantOne die sdie chan asid s i) := by
  intro j hj
  rw [slot_grantOne s hi hj]
  split
  · exact fun _ _ _ => rfl
  · exact h j hj

theorem grantSlots_cons {s : State} (h : ChannelOwn die sdie chan asid s) {i : Nat} (hf : (s.slot die i).state = .free) (r : List Nat) (n : Nat) :
    grantSlots die sdie chan asid (i :: r) s n = grantSlots die sdie chan asid r (grantOne die sdie chan asid s i) (n + 1) := by
  refine if_neg (not_or.mpr ⟨not_not_intro hf, fun hany => ?_⟩)
  obtain ⟨j, hj, hc⟩ := List.any_eq_true.mp hany
  simp only [Bool.and_eq_true, bne_iff_ne, beq_iff_eq] at hc
  obtain ⟨⟨⟨hs, hd⟩, hch⟩, ha⟩ := hc
  exact ha (h j (List.mem_range.mp hj) hs hd hch)

/-- A grant of free slots of a channel of the own address space grants them all, each with its permit (R383). -/
theorem grantSlots_all : ∀ (l : List Nat) (s : State) (n : Nat), l.Nodup → (∀ i ∈ l, i < 16) → (∀ i ∈ l, (s.slot die i).state = .free) →
    ChannelOwn die sdie chan asid s → ∃ p, grantSlots die sdie chan asid l s n = (p, n + l.length, true) ∧ OnlySlots s p ∧
      (∀ d j, j < 16 → p.slot d j = if d = die ∧ j ∈ l then grantedSlot sdie chan asid s else s.slot d j) ∧
      p.agenda = s.agenda ++ l.map fun i => .event (.permit (.ofNat 4 die) sdie chan asid (.ofNat 4 i))
  | [], s, n, _, _, _, _ => ⟨s, rfl, OnlySlots.refl s, by simp, by simp⟩
  | i :: r, s, n, hn, hl, hf, ho => by
    obtain ⟨hir, hnr⟩ := List.nodup_cons.mp hn
    have hi := hl i List.mem_cons_self
    have hlr : ∀ j ∈ r, j < 16 := fun j hj => hl j (List.mem_cons_of_mem _ hj)
    have hfr : ∀ j ∈ r, ((grantOne die sdie chan asid s i).slot die j).state = .free := by
      intro j hj
      have hne : j ≠ i := fun h => hir (h ▸ hj)
      rw [slot_grantOne s hi (hlr j hj), if_neg (by simp [hne])]
      exact hf j (List.mem_cons_of_mem _ hj)
    obtain ⟨p, hp, hs, hslot, hag⟩ := grantSlots_all r (grantOne die sdie chan asid s i) (n + 1) hnr hlr hfr (ho.grantOne hi)
    refine ⟨p, ?_, ((onlySlots_setSlot ..).trans (onlySlots_sendEvent ..)).trans hs, fun d j hj => ?_, ?_⟩
    · rw [grantSlots_cons ho (hf i List.mem_cons_self), hp, List.length_cons]
      simp [Nat.add_assoc, Nat.add_comm 1]
    · have hg : grantedSlot sdie chan asid (grantOne die sdie chan asid s i) = grantedSlot sdie chan asid s := rfl
      rw [hslot d j hj, slot_grantOne s hi hj, hg]
      by_cases hji : d = die ∧ j = i
      · simp [hji]
      · rw [if_neg hji]
        exact if_congr (by rw [List.mem_cons]; tauto) rfl rfl
    · rw [hag]
      simp [grantOne, sendEvent, State.setSlot]

/-- A withdrawal of slots of the own channel sends a message for each (R383). -/
theorem withdrawSlots_all : ∀ (l : List Nat) (s : State) (n : Nat), (∀ i ∈ l, (s.slot die i).belongs sdie chan asid = true) →
    withdrawSlots die sdie chan asid l s n = ({ s with
      agenda := s.agenda ++ l.map fun i => .event (.withdraw (.ofNat 4 die) sdie chan asid (.ofNat 4 i)) }, n + l.length, true)
  | [], s, n, _ => by simp [withdrawSlots]
  | i :: r, s, n, h => by
    have hr : ∀ j ∈ r, ((sendEvent s (.withdraw (.ofNat 4 die) sdie chan asid (.ofNat 4 i))).slot die j).belongs sdie chan asid = true :=
      fun j hj => h j (List.mem_cons_of_mem _ hj)
    rw [withdrawSlots, if_neg (by simp [h i List.mem_cons_self]), withdrawSlots_all r _ _ hr]
    simp [sendEvent, Nat.add_assoc, Nat.add_comm 1]

end

section
variable {s : State} {i : Instr} {x : EngEntry} {revoke : Bool} {sdie chan : BitVec 4} {m : BitVec 16}

/-- What a grant or a withdrawal makes of the slots of its mask. -/
def grantResult (s : State) (revoke : Bool) (sdie chan : BitVec 4) (m : BitVec 16) : State × Nat × Bool :=
  if revoke then withdrawSlots (dieOf s.cur) sdie chan (s.row s.cur).asid (maskSlots m) s 0
  else grantSlots (dieOf s.cur) sdie chan (s.row s.cur).asid (maskSlots m) s 0

theorem grantRun_starts (h : XgAllowed s 2 i x) : grantRun s i revoke sdie chan m =
    let r := grantResult s revoke sdie chan m
    if r.2.2 then setEntry r.1 s.cur .xg { x with sub := r.2.1, state := .putting } else xgFail r.1 .xg { x with sub := r.2.1 } 0x11 0 := by
  rw [grantRun, xgStart_allowed h]
  exact if_neg (by simp [h.waiting])

theorem grantRun_awaits (h : XgGoesOn s 2 i x) (hs : x.state = .putting) : grantRun s i revoke sdie chan m =
    if messagesFlying s (dieOf s.cur) sdie chan then s else endWith s s.cur .xg x (xgStatus x 0) none := by
  rw [grantRun, xgStart_goesOn h]
  exact if_pos hs

theorem exec_xgrant (s : State) (h : CmdHdr) (revoke : Bool) (sdie chan : BitVec 4) (m : BitVec 16) :
    let i := if revoke then Instr.xgrantRevoke h sdie chan m else .xgrant h sdie chan m
    exec i s = .next (grantRun s i revoke sdie chan m) := by cases revoke <;> rfl

end

theorem cur_engRead {s p : State} {row va n align : Nat} {x : EngEntry} {bytes : List Byte} {err : Bool}
    (h : engRead s row x va n align = .ok p bytes err) : p.cur = s.cur := by
  obtain ⟨c, rfl⟩ := engRead_tlb h
  rfl

/-! ### XSEND (R384, R387, R390, R391) -/

section
variable {s : State} {h : CmdHdr} {src : W64} {die chan : BitVec 4} {lenM1 : BitVec 18} {x : EngEntry}

/-- An XSEND starts, or goes on waiting for its permit. -/
def Sends (s : State) (i : Instr) (x : EngEntry) : Prop := XgAllowed s 1 i x ∨ (XgGoesOn s 1 i x ∧ ∃ c, x.state = .permitWait c)

theorem xgStart_sends {i : Instr} (hs : Sends s i x) (k : State → EngEntry → State) : xgStart s 1 i k = k s x := by
  rcases hs with hs | ⟨hs, -⟩
  · exact xgStart_allowed hs k
  · exact xgStart_goesOn hs k

/-- The source of a timed XSEND does not lie in the SRAM of its own die (R391). -/
def SourceFar (s : State) (src : W64) (n : Nat) : Prop :=
  inSram s s.cur src 0 1 n = false ∨ liesOnDie s s.cur src.toNat n (dieOf s.cur) = false

theorem not_sourceFar {n : Nat} (hn : inSram s s.cur src 0 1 n = true ∧ liesOnDie s s.cur src.toNat n (dieOf s.cur) = true) :
    ¬ SourceFar s src n := by
  simp [SourceFar, hn.1, hn.2]

theorem xsend_far (hs : Sends s (.xsend h src die chan lenM1) x) (ht : x.startAt ≠ 0) (hf : SourceFar s src (lenM1.toNat + 1)) :
    exec (.xsend h src die chan lenM1) s = .next (xgFail s .xg x 0x11 0) := by
  refine congrArg Host.Outcome.next ((xgStart_sends hs _).trans (if_pos ⟨ht, ?_⟩))
  simpa [SourceFar] using hf

section
variable (hs : Sends s (.xsend h src die chan lenM1) x) (hn : x.startAt ≠ 0 → ¬ SourceFar s src (lenM1.toNat + 1))
include hs hn

/-- The source of an XSEND that passes is read next. -/
theorem xsend_near : exec (.xsend h src die chan lenM1) s = .next
    (match engRead s s.cur x src.toNat (lenM1.toNat + 1) 1 with
      | .bad c a => xgStop s .xg x c a
      | .ok p bytes _ =>
        match p.permitQ (dieOf s.cur) die.toNat chan.toNat with
        | (asid, slot) :: _ =>
          if asid = (p.row p.cur).asid then sendSlot p x die chan slot bytes (badLines p p.cur src.toNat (lenM1.toNat + 1))
          else execXsend.waitPermit p x
        | [] => execXsend.waitPermit p x) := by
  refine congrArg Host.Outcome.next ((xgStart_sends hs _).trans (if_neg fun hf => hn hf.1 ?_))
  simpa [SourceFar] using hf.2

theorem xsend_bad {c a : Nat} (hr : engRead s s.cur x src.toNat (lenM1.toNat + 1) 1 = .bad c a) :
    exec (.xsend h src die chan lenM1) s = .next (xgStop s .xg x c a) := by
  rw [xsend_near hs hn, hr]

variable {p : State} {bytes : List Byte} {err : Bool}

theorem xsend_permit {slot : BitVec 4} {r : List (Asid × BitVec 4)} (hr : engRead s s.cur x src.toNat (lenM1.toNat + 1) 1 = .ok p bytes err)
    (hq : p.permitQ (dieOf s.cur) die.toNat chan.toNat = ((p.row s.cur).asid, slot) :: r) :
    exec (.xsend h src die chan lenM1) s = .next
      (sendSlot p x die chan slot bytes (badLines p s.cur src.toNat (lenM1.toNat + 1))) := by
  rw [xsend_near hs hn, hr]
  dsimp only
  rw [cur_engRead hr, hq]
  exact congrArg Host.Outcome.next (if_pos rfl)

theorem xsend_noPermit (hr : engRead s s.cur x src.toNat (lenM1.toNat + 1) 1 = .ok p bytes err)
    (hq : ∀ v r, p.permitQ (dieOf s.cur) die.toNat chan.toNat = v :: r → v.1 ≠ (p.row s.cur).asid) :
    exec (.xsend h src die chan lenM1) s = .next (execXsend.waitPermit p x) := by
  rw [xsend_near hs hn, hr]
  dsimp only
  rw [cur_engRead hr]
  split
  · rename_i asid slot r hv
    exact congrArg Host.Outcome.next (if_neg (hq _ _ hv))
  · rfl

end

/-- An untimed transfer of sound bytes fills the slot of its permit, and the command ends (R384). -/
theorem sendSlot_sound {p : State} {v : Asid × BitVec 4} {slot : BitVec 4} {bytes : List Byte} {r : List (Asid × BitVec 4)}
    (hq : p.permitQ (dieOf p.cur) die.toNat chan.toNat = v :: r) (ht : x.startAt = 0) :
    sendSlot p x die chan slot bytes [] =
      let y := { x with sub := bytes.length, pos := slot.toNat }
      endWith ((p.setPermitQ (dieOf p.cur) die.toNat chan.toNat r).setSlot die.toNat slot.toNat
        { p.slot die.toNat slot.toNat with data := bytes, bad := [], state := .filled }) p.cur .xg y (xgStatus y 0) none := by
  unfold sendSlot
  simp only [hq, List.tail_cons, if_true]
  exact if_pos ht

theorem waitPermit_begins (p : State) (hw : x.state = .waiting) :
    execXsend.waitPermit p x = setEntry p p.cur .xg { x with state := .permitWait p.cycle } := by
  unfold execXsend.waitPermit
  rw [hw]

theorem waitPermit_goesOn (p : State) {c : Nat} (hw : x.state = .permitWait c) : execXsend.waitPermit p x = p := by
  unfold execXsend.waitPermit
  rw [hw]

end

theorem permitTimeout_eq {s : State} {row c : Nat} {x : EngEntry} (hx : streamHead (s.bank row) 1 = some x) (hs : x.state = .permitWait c) :
    exec (.permitTimeout row) s = .next
      (if c + 16777216 ≤ s.cycle then xgFail { s with cur := row } .xg x 0x04 0 else { s with cur := row }) := by
  refine congrArg Host.Outcome.next ?_
  dsimp only [State.here, State.bank] at hx ⊢
  rw [hx]
  dsimp only
  rw [hs]
  rfl

/-! ### XRECV (R378, R385, R387, R392) -/

section
variable (s : State) (die : Nat) (sdie chan : BitVec 4) (asid : Asid)

/-- A slot that an XRECV of the channel may take: granted or filled, and not another XRECV's. -/
def Receivable (j : Nat) : Prop := (s.slot die j).belongs sdie chan asid = true ∧ (s.slot die j).state ≠ .draining

/-- The older of the best slot so far and the next one. -/
def olderSlot (best : Option Nat) (i : Nat) : Option Nat :=
  if !(s.slot die i).belongs sdie chan asid || (s.slot die i).state == .draining then best
  else match best with
    | none => some i
    | some j => if (s.slot die i).order < (s.slot die j).order then some i else some j

/-- A slot is the oldest receivable one of the first `n`, or there is none. -/
def OldestOf (n : Nat) : Option Nat → Prop
  | none => ∀ j < n, ¬ Receivable s die sdie chan asid j
  | some k => k < n ∧ Receivable s die sdie chan asid k ∧
      ∀ j < n, Receivable s die sdie chan asid j → (s.slot die k).order ≤ (s.slot die j).order

variable {s die sdie chan asid}

theorem olderSlot_skips {i : Nat} (h : ¬ Receivable s die sdie chan asid i) (best : Option Nat) :
    olderSlot s die sdie chan asid best i = best := by
  refine if_pos ?_
  simp only [Receivable, not_and_or, not_not] at h
  simpa using h

theorem olderSlot_receivable {i : Nat} (h : Receivable s die sdie chan asid i) (best : Option Nat) :
    olderSlot s die sdie chan asid best i = match best with
      | none => some i
      | some j => if (s.slot die i).order < (s.slot die j).order then some i else some j := by
  refine if_neg ?_
  simpa [Receivable] using h

theorem oldestOf_next {n : Nat} {best : Option Nat} (h : OldestOf s die sdie chan asid n best) :
    OldestOf s die sdie chan asid (n + 1) (olderSlot s die sdie chan asid best n) := by
  by_cases hn : Receivable s die sdie chan asid n
  · rw [olderSlot_receivable hn]
    cases best with
    | none =>
      refine ⟨Nat.lt_succ_self n, hn, fun j hj hr => ?_⟩
      rcases Nat.lt_succ_iff_lt_or_eq.mp hj with hlt | rfl
      · exact absurd hr (h j hlt)
      · exact le_rfl
    | some k =>
      obtain ⟨hk, hrk, hmin⟩ := h
      dsimp only
      split
      · rename_i hlt
        refine ⟨Nat.lt_succ_self n, hn, fun j hj hr => ?_⟩
        rcases Nat.lt_succ_iff_lt_or_eq.mp hj with hj | rfl
        · exact hlt.le.trans (hmin j hj hr)
        · exact le_rfl
      · rename_i hle
        refine ⟨Nat.lt_succ_of_lt hk, hrk, fun j hj hr => ?_⟩
        rcases Nat.lt_succ_iff_lt_or_eq.mp hj with hj | rfl
        · exact hmin j hj hr
        · exact Nat.not_lt.mp hle
  · rw [olderSlot_skips hn]
    cases best with
    | none =>
      intro j hj
      rcases Nat.lt_succ_iff_lt_or_eq.mp hj with hj | rfl
      · exact h j hj
      · exact hn
    | some k =>
      obtain ⟨hk, hrk, hmin⟩ := h
      refine ⟨Nat.lt_succ_of_lt hk, hrk, fun j hj hr => ?_⟩
      rcases Nat.lt_succ_iff_lt_or_eq.mp hj with hj | rfl
      · exact hmin j hj hr
      · exact absurd hr hn

theorem oldestOf_fold : ∀ n : Nat, OldestOf s die sdie chan asid n ((List.range n).foldl (olderSlot s die sdie chan asid) none)
  | 0 => fun _ hj => absurd hj (Nat.not_lt_zero _)
  | n + 1 => by
    rw [List.range_succ, List.foldl_append]
    exact oldestOf_next (oldestOf_fold n)

theorem oldestOf_oldestSlot : OldestOf s die sdie chan asid 16 (oldestSlot s die sdie chan asid) := oldestOf_fold 16

end

/-- Byte `b` of piece `j` of pieces of `n` bytes each. -/
theorem getElem?_flatMap_toBytes {n b : Nat} (hb : b < n) (f : Nat → Nat) : ∀ (l : List Nat) (j : Nat), j < l.length →
    (l.flatMap fun i => toBytes n (f i))[j * n + b]? = l[j]?.map fun i => byteOf (f i) b
  | i :: r, 0, _ => by
    rw [List.flatMap_cons, Nat.zero_mul, Nat.zero_add, List.getElem?_append_left (by rw [toBytes_len]; exact hb), toBytes_get _ _ _ hb]
    rfl
  | i :: r, j + 1, hj => by
    have hlen : (toBytes n (f i)).length ≤ (j + 1) * n + b := by rw [toBytes_len, Nat.succ_mul]; omega
    rw [List.flatMap_cons, List.getElem?_append_right hlen, toBytes_len, Nat.succ_mul,
      show j * n + n + b - n = j * n + b by omega, getElem?_flatMap_toBytes hb f r j (Nat.lt_of_succ_lt_succ hj)]
    rfl

/-- An added element of an XRECV (R385, R387). -/
theorem recvBytes_sum (old : List Byte) (y : XSlot) {j b : Nat} (hj : j < y.data.length / 4) (hb : b < 4) :
    let w := fun l : List Byte => ofBytes ((l.drop (4 * j)).take 4)
    (recvBytes old y true).getD (j * 4 + b) 0 =
      byteOf (if 4 * j / 128 ∈ y.bad then 0x7FC00000 else addF32 .rne (w old) (w y.data)) b := by
  have hr : j < (List.range (y.data.length / 4)).length := by rwa [List.length_range]
  rw [List.getD_eq_getElem?_getD, recvBytes, if_pos rfl, getElem?_flatMap_toBytes hb _ _ _ hr, List.getElem?_range hj]
  simp only [Option.map_some, Option.getD_some, List.contains_iff_mem]

section
variable {s : State} {h : CmdHdr} {dst : W64} {sdie chan : BitVec 4} {add : Bool} {x : EngEntry}

/-- An XRECV starts, or goes on after a hold. -/
def Receives (s : State) (i : Instr) (x : EngEntry) : Prop := XgAllowed s 3 i x ∨ XgGoesOn s 3 i x

/-- The slot that an XRECV drains once its destination has passed: the state and the entry at its end. -/
def received (p : State) (die k : Nat) (y : XSlot) (dst : Nat) (add : Bool) (x : EngEntry) : State :=
  let old := match translate p p.cur .write true dst y.data.length 1 with
    | .ok l => segBytes p p.cur l
    | .miss _ | .bad _ _ => []
  let q := engStore p p.cur dst (recvBytes old y add)
  let q := if add then q else y.bad.foldl (fun s k => spoil s s.cur (dst + 128 * k) (min 128 (y.data.length - 128 * k))) q
  let x := { x with pos := k, sub := y.data.length, flags := if y.bad = [] then x.flags else x.flags ||| .ofNat 64 xgDerr }
  endWith (drainSlot q die k) q.cur .xg x (xgStatus x 0) none

theorem received_sound {p : State} {die k : Nat} {y : XSlot} {l : List Seg}
    (ht : translate p p.cur .write true dst.toNat y.data.length 1 = .ok l) (hbad : y.bad = []) :
    received p die k y dst.toNat add x =
      let q := engStore p p.cur dst.toNat (recvBytes (segBytes p p.cur l) y add)
      let z := { x with pos := k, sub := y.data.length, flags := x.flags }
      endWith (drainSlot q die k) q.cur .xg z (xgStatus z 0) none := by
  simp only [received, ht, hbad, List.foldl_nil, ite_self, if_true]

theorem xrecv_eq (hs : Receives s (.xrecv h dst sdie chan add) x) : exec (.xrecv h dst sdie chan add) s = .next
    (match recvSlot s x (dieOf s.cur) sdie chan (s.row s.cur).asid with
      | none => s
      | some k =>
        let y := s.slot (dieOf s.cur) k
        match engClaim s s.cur .xg x.id dst.toNat y.data.length 1 with
        | .wait => s
        | .bad c a => xgStop (s.setSlot (dieOf s.cur) k { y with state := if c = 0x06 then .draining else .filled }) .xg { x with pos := k } c a
        | .ok p => received p (dieOf s.cur) k y dst.toNat add x) := by
  refine congrArg Host.Outcome.next ?_
  rcases hs with hs | hs
  · exact (xgStart_allowed hs _).trans rfl
  · exact (xgStart_goesOn hs _).trans rfl

theorem recvSlot_held {die : Nat} {asid : Asid} (hx : x.state = .held) : recvSlot s x die sdie chan asid = some x.pos := if_pos hx

section
variable {die k : Nat} {asid : Asid} (hx : x.state = .waiting)
include hx

theorem recvSlot_waiting : recvSlot s x die sdie chan asid =
    (oldestSlot s die sdie chan asid).filter fun i => (s.slot die i).state == .filled := if_neg (by simp [hx])

theorem recvSlot_none (hn : oldestSlot s die sdie chan asid = none) : recvSlot s x die sdie chan asid = none := by
  rw [recvSlot_waiting hx, hn, Option.filter_none]

theorem recvSlot_unfilled (hk : oldestSlot s die sdie chan asid = some k) (hf : (s.slot die k).state ≠ .filled) :
    recvSlot s x die sdie chan asid = none := by
  rw [recvSlot_waiting hx, hk, Option.filter_some, if_neg (by simpa using hf)]

theorem recvSlot_filled (hk : oldestSlot s die sdie chan asid = some k) (hf : (s.slot die k).state = .filled) :
    recvSlot s x die sdie chan asid = some k := by
  rw [recvSlot_waiting hx, hk, Option.filter_some, if_pos (by simpa using hf)]

end

/-- An XRECV without a filled slot waits. -/
theorem xrecv_waits (hs : Receives s (.xrecv h dst sdie chan add) x)
    (hk : recvSlot s x (dieOf s.cur) sdie chan (s.row s.cur).asid = none) : exec (.xrecv h dst sdie chan add) s = .next s := by
  rw [xrecv_eq hs, hk]

section
variable {k : Nat} (hs : Receives s (.xrecv h dst sdie chan add) x)
    (hk : recvSlot s x (dieOf s.cur) sdie chan (s.row s.cur).asid = some k)
include hs hk

theorem xrecv_claimWaits (hc : engClaim s s.cur .xg x.id dst.toNat (s.slot (dieOf s.cur) k).data.length 1 = .wait) :
    exec (.xrecv h dst sdie chan add) s = .next s := by
  rw [xrecv_eq hs, hk]
  dsimp only
  rw [hc]

theorem xrecv_claimBad {c a : Nat} (hc : engClaim s s.cur .xg x.id dst.toNat (s.slot (dieOf s.cur) k).data.length 1 = .bad c a) :
    exec (.xrecv h dst sdie chan add) s = .next (xgStop (s.setSlot (dieOf s.cur) k
      { s.slot (dieOf s.cur) k with state := if c = 0x06 then .draining else .filled }) .xg { x with pos := k } c a) := by
  rw [xrecv_eq hs, hk]
  dsimp only
  rw [hc]

theorem xrecv_claimed {p : State} (hc : engClaim s s.cur .xg x.id dst.toNat (s.slot (dieOf s.cur) k).data.length 1 = .ok p) :
    exec (.xrecv h dst sdie chan add) s = .next (received p (dieOf s.cur) k (s.slot (dieOf s.cur) k) dst.toNat add x) := by
  rw [xrecv_eq hs, hk]
  dsimp only
  rw [hc]

/-- Sound bytes enter memory, the slot is drained, and the command ends (R385). -/
theorem xrecv_ends {p : State} {l : List Seg}
    (hc : engClaim s s.cur .xg x.id dst.toNat (s.slot (dieOf s.cur) k).data.length 1 = .ok p)
    (ht : translate p p.cur .write true dst.toNat (s.slot (dieOf s.cur) k).data.length 1 = .ok l)
    (hbad : (s.slot (dieOf s.cur) k).bad = [])
    (hq : (engStore p p.cur dst.toNat (recvBytes (segBytes p p.cur l) (s.slot (dieOf s.cur) k) add)).cur = s.cur) :
    XgEnds (.xrecv h dst sdie chan add) s
      (drainSlot (engStore p p.cur dst.toNat (recvBytes (segBytes p p.cur l) (s.slot (dieOf s.cur) k) add)) (dieOf s.cur) k)
      { x with pos := k, sub := (s.slot (dieOf s.cur) k).data.length, flags := x.flags } := by
  have he := xrecv_claimed hs hk hc
  rw [received_sound ht hbad] at he
  dsimp only at he
  rw [hq] at he
  exact endsAt_of_endWith he

end

end

/-! ### Drained slots (R378) -/

section
variable (s : State) (die k : Nat)

theorem drainSlot_revoking (h : (s.slot die k).revoking = true) : drainSlot s die k = s.setSlot die k XSlot.reset := if_pos h

theorem drainSlot_kept (h : (s.slot die k).revoking = false) : drainSlot s die k =
    sendEvent (s.setSlot die k { s.slot die k with state := .granted, data := [], bad := [], order := s.permitOrder })
      (.permit (.ofNat 4 die) (s.slot die k).sdie (s.slot die k).chan (s.slot die k).asid (.ofNat 4 k)) :=
  if_neg (by simp [h])

theorem drainSlot_revoking_spec (hk : k < 16) (h : (s.slot die k).revoking = true) : OnlySlots s (drainSlot s die k) ∧
    (drainSlot s die k).agenda = s.agenda ∧ (drainSlot s die k).slot die k = XSlot.reset := by
  rw [drainSlot_revoking s die k h]
  exact ⟨rfl, rfl, (slot_setSlot s die die hk hk _).trans (if_pos ⟨rfl, rfl⟩)⟩

theorem drainSlot_kept_spec (hk : k < 16) (h : (s.slot die k).revoking = false) : let y := s.slot die k
    OnlySlots s (drainSlot s die k) ∧
      (drainSlot s die k).slot die k = { y with state := .granted, data := [], bad := [], order := s.permitOrder } ∧
      (drainSlot s die k).agenda = s.agenda ++ [.event (.permit (.ofNat 4 die) y.sdie y.chan y.asid (.ofNat 4 k))] := by
  rw [drainSlot_kept s die k h, slot_sendEvent, slot_setSlot s die die hk hk, if_pos ⟨rfl, rfl⟩]
  exact ⟨rfl, rfl, rfl⟩

theorem slot_drainSlot_other (hk : k < 16) {d j : Nat} (hj : j < 16) (hne : (d, j) ≠ (die, k)) :
    (drainSlot s die k).slot d j = s.slot d j := by
  have hne' : ¬ (d = die ∧ j = k) := fun h => hne (Prod.ext h.1 h.2)
  cases hr : (s.slot die k).revoking with
  | true =>
    rw [drainSlot_revoking s die k hr, slot_setSlot s die d hk hj, if_neg hne']
  | false =>
    rw [drainSlot_kept s die k hr, slot_sendEvent, slot_setSlot s die d hk hj, if_neg hne']

end

/-! ### Timed puts (R118, R284, R391) -/

section
variable {s : State} {row id stamp due lat die : Nat} {a : W64} {x : EngEntry} {e : Eng}

/-- The entry of a timed put that has arrived: a mismatch of the count is flagged (R118). -/
def stamped (x : EngEntry) (stamp lat : Nat) (a : W64) : EngEntry :=
  if (stamp + lat) % 2 ^ 64 = a.toNat then x else { x with flags := x.flags ||| .ofNat 64 (2 ^ 24) }

/-- The fault of a mismatch, whose record the put gives. -/
def lateFault (stamp lat : Nat) (a : W64) (f : FaultRec) : Option FaultRec := if (stamp + lat) % 2 ^ 64 = a.toNat then none else some f

theorem opc_stamped : (stamped x stamp lat a).opc = x.opc := by
  unfold stamped
  split <;> rfl

theorem onTime_iff : onTime stamp lat a = true ↔ (stamp + lat) % 2 ^ 64 = a.toNat := decide_eq_true_iff

/-- A timed put of the exchange fills its slot, on time or not. -/
theorem timedPut_xg (hx : (s.bank row).xg.find? (fun y => decide (y.id = id)) = some x) (hs : x.state = .flying stamp due lat die) :
    let p := State.setSlot { s with cur := row } die x.pos { s.slot die x.pos with state := .filled }
    let y := stamped x stamp lat a
    exec (.timedPutArrival row .xg id a) s = .next
      (endWith p row .xg y (xgStatus y 0) (lateFault stamp lat a (xgRecord p .xg y 0x0A 0))) := by
  refine congrArg Host.Outcome.next ?_
  dsimp only [State.here, State.bank, Bank.engQ] at hx ⊢
  rw [hx]
  dsimp only
  rw [hs]
  by_cases ht : (stamp + lat) % 2 ^ 64 = a.toNat
  · simp only [onTime_iff.mpr ht, stamped, lateFault, if_pos ht, if_true]
    rfl
  · simp only [onTime_iff.not.mpr ht, stamped, lateFault, if_neg ht, if_true, if_false, Bool.false_eq_true]
    rfl

/-- The state after a mismatch has been raised, if there is one. -/
def raisedLate (p : State) (row : Nat) : Option FaultRec → State
  | none => p
  | some f => raiseEngine p row .cp f

theorem timedPut_cp (hx : (s.bank row).cp.find? (fun y => decide (y.id = id)) = some x) (hs : x.state = .flying stamp due lat die) :
    let p : State := { s with cur := row }
    let y := stamped x stamp lat a
    let late := lateFault stamp lat a (cpRecord p y 0x0A 0)
    exec (.timedPutArrival row .cp id a) s = .next (
      if y.opc = 4 then cpFinish (raisedLate p row late) y else endWith p row .cp y (cpStatus y 0) late) := by
  refine congrArg Host.Outcome.next ?_
  dsimp only [State.here, State.bank, Bank.engQ] at hx ⊢
  rw [hx]
  dsimp only
  rw [hs]
  by_cases ht : (stamp + lat) % 2 ^ 64 = a.toNat
  · simp only [onTime_iff.mpr ht, stamped, lateFault, if_pos ht, if_true, reduceCtorEq, if_false]
    rfl
  · simp only [onTime_iff.not.mpr ht, stamped, lateFault, if_neg ht, if_false, Bool.false_eq_true, reduceCtorEq]
    rfl

/-- A timed put of the copy engine ends its command. -/
theorem timedPut_cp_ends (hx : (s.bank row).cp.find? (fun y => decide (y.id = id)) = some x)
    (hs : x.state = .flying stamp due lat die) (h4 : x.opc ≠ 4) :
    let p : State := { s with cur := row }
    let y := stamped x stamp lat a
    exec (.timedPutArrival row .cp id a) s = .next (endWith p row .cp y (cpStatus y 0) (lateFault stamp lat a (cpRecord p y 0x0A 0))) :=
  (timedPut_cp hx hs).trans (congrArg Host.Outcome.next (if_neg (by rwa [opc_stamped])))

/-- One with a follow-on hands it over next (R284). -/
theorem timedPut_cp_follows (hx : (s.bank row).cp.find? (fun y => decide (y.id = id)) = some x)
    (hs : x.state = .flying stamp due lat die) (h4 : x.opc = 4) :
    let p : State := { s with cur := row }
    let y := stamped x stamp lat a
    let r := raisedLate p row (lateFault stamp lat a (cpRecord p y 0x0A 0))
    exec (.timedPutArrival row .cp id a) s = .next (setEntry r r.cur .cp { y with state := .following }) := by
  have hy : (stamped x stamp lat a).opc = 4 := by rwa [opc_stamped]
  exact (timedPut_cp hx hs).trans (congrArg Host.Outcome.next ((if_pos hy).trans (if_pos hy)))

end

/-- Settles O53: each clause from the equation of its event or command. -/
theorem exchange : Obligations.Exchange := by
  refine ⟨permit_spec, fun s rdie sdie chan slot asid => ⟨fun hm => ?_, fun hm => ?_⟩,
    fun s opc i x k hs => ⟨fun hr => ?_, fun hr he => ?_⟩,
    fun s h sdie chan m x revoke => ⟨fun hs => ?_, fun hs hp hm => ?_, fun hs hp hm => ?_⟩,
    fun s die sdie chan asid l hn hl hf ho => ?_, fun s die sdie chan asid l hl => ?_,
    fun s h src die chan lenM1 x hs => ⟨fun ht hf => xsend_far hs ht hf, fun hn => ⟨fun c a hr => ?_, fun p bytes err hr =>
      ⟨cur_engRead hr, fun slot r hq hb ht => ?_, fun hq => ⟨fun hw => ?_, fun c hw => ?_⟩⟩⟩⟩,
    fun s row c x hx hs => ⟨fun hc => ?_, fun hc => ?_⟩,
    fun s h dst sdie chan add x => ?_, fun s die sdie chan asid => ⟨⟨fun h => ?_, fun h => ?_⟩, fun k hk => ?_⟩,
    fun old y j b => ⟨rfl, recvBytes_sum old y⟩, fun s die k hk => ⟨fun hr => ?_, fun hr => ?_, fun d j hj hne => ?_⟩,
    fun s row id a x stamp due lat die e he hx hs => ?_⟩
  · exact ⟨_, congrArg Host.Outcome.next (withdraw_found s rdie sdie chan slot asid hm), rfl,
      (permitQ_setPermitQ s sdie rdie chan sdie rdie chan _).trans (if_pos ⟨rfl, rfl, rfl⟩), fun d i => slot_setSlot_bits _ rdie slot d i _⟩
  · exact ⟨_, congrArg Host.Outcome.next (withdraw_missed s rdie sdie chan slot asid hm), rfl, fun d i => slot_setSlot_bits s rdie slot d i _⟩
  · simp [xgStart_of hs, hr]
  · simp [xgStart_of hs, hr, he]
  · exact (exec_xgrant s h revoke sdie chan m).trans (congrArg Host.Outcome.next (grantRun_starts hs))
  · refine (exec_xgrant s h revoke sdie chan m).trans (congrArg Host.Outcome.next ((grantRun_awaits hs hp).trans (if_pos hm)))
  · refine endsAt_of_endWith ((exec_xgrant s h revoke sdie chan m).trans (congrArg Host.Outcome.next ((grantRun_awaits hs hp).trans ?_)))
    exact if_neg (by simp [hm])
  · have hg := grantSlots_all l s 0 hn hl hf ho
    rwa [Nat.zero_add] at hg
  · have hw := withdrawSlots_all l s 0 hl
    rwa [Nat.zero_add] at hw
  · exact xsend_bad hs (fun ht => not_sourceFar (hn ht)) hr
  · have he := xsend_permit hs (fun ht => not_sourceFar (hn ht)) hr hq
    rw [hb, sendSlot_sound (by rw [cur_engRead hr]; exact hq) ht, cur_engRead hr] at he
    exact endsAt_of_endWith he
  · exact (xsend_noPermit hs (fun ht => not_sourceFar (hn ht)) hr hq).trans
      (congrArg Host.Outcome.next ((waitPermit_begins p hw).trans (by rw [cur_engRead hr])))
  · exact (xsend_noPermit hs (fun ht => not_sourceFar (hn ht)) hr hq).trans (congrArg Host.Outcome.next (waitPermit_goesOn p hw))
  · exact (permitTimeout_eq hx hs).trans (congrArg Host.Outcome.next (if_pos hc))
  · exact (permitTimeout_eq hx hs).trans (congrArg Host.Outcome.next (if_neg (Nat.not_le.mpr hc)))
  · intro i die asid receives
    have hdrain (k : Nat) (hs : Receives s i x) (hk : recvSlot s x die sdie chan asid = some k) : receives k :=
      ⟨fun hc => xrecv_claimWaits hs hk hc, fun c a hc => xrecv_claimBad hs hk hc,
        fun p l hc ht hb _ => ⟨_, rfl, fun hq => xrecv_ends hs hk hc ht hb hq⟩⟩
    exact ⟨fun hs => ⟨fun hn => xrecv_waits (.inl hs) (recvSlot_none hs.waiting hn), fun k hk =>
        ⟨fun hf => xrecv_waits (.inl hs) (recvSlot_unfilled hs.waiting hk hf), fun hf => hdrain k (.inl hs) (recvSlot_filled hs.waiting hk hf)⟩⟩,
      fun hs hx => hdrain x.pos (.inr hs) (recvSlot_held hx)⟩
  · have ho := oldestOf_oldestSlot (s := s) (die := die) (sdie := sdie) (chan := chan) (asid := asid)
    rw [h] at ho
    exact ho
  · have ho := oldestOf_oldestSlot (s := s) (die := die) (sdie := sdie) (chan := chan) (asid := asid)
    cases hk : oldestSlot s die sdie chan asid with
    | none => rfl
    | some k =>
      rw [hk] at ho
      exact absurd ho.2.1 (h k ho.1)
  · have ho := oldestOf_oldestSlot (s := s) (die := die) (sdie := sdie) (chan := chan) (asid := asid)
    rw [hk] at ho
    exact ho
  · exact drainSlot_revoking_spec s die k hk hr
  · exact drainSlot_kept_spec s die k hk hr
  · exact slot_drainSlot_other s die k hk hj hne
  · rcases he with rfl | rfl
    · refine ⟨fun _ => timedPut_xg hx hs, fun h => absurd h (by decide)⟩
    · exact ⟨fun h4 => timedPut_cp_ends hx hs fun h => h4 ⟨rfl, h⟩, fun _ h4 => timedPut_cp_follows hx hs h4⟩

end Sys2Proof
end

section
/-! Operands beyond the declared counts (R33, R94) and the register files (R95, R96). -/

namespace Sys2Proof

open Machine

/-! ### The check of the declared counts (R33, R94) -/

theorem trapsWith_of_undeclared {i : Instr} {s : State} {u : UnitId} {ok : Bool} {k : Attempt}
    (h : exec i s = .next (conclude u (declared s ok k))) (hok : ok = false) : TrapsWith i s u (causeAt 0x03 0) := by
  subst hok
  exact h

/-- The instruction's unit judges its names first of all; on the access unit only a held store stream's fault precedes them (R239). -/
def ChecksNames (i : Instr) (s : State) (u : UnitId) (n : Names) : Prop :=
  (u = .A → NoHeldStore s) → ∃ k, exec i s = .next (conclude u (declared s (n.within s) k))

section
variable {i : Instr} {s : State} {n : Names} {ok : Bool} {k : Attempt}

theorem checksNames_S (h : exec i s = .next (conclude .S (declared s ok k))) (hn : n.within s = ok) : ChecksNames i s .S n :=
  fun _ => ⟨k, hn ▸ h⟩

theorem checksNames_V (h : exec i s = vIssue (declared s ok k)) (hn : n.within s = ok) : ChecksNames i s .V n :=
  fun _ => ⟨k, hn ▸ h⟩

theorem checksNames_A (h : exec i s = aIssue s (declared s ok k)) (hn : n.within s = ok) : ChecksNames i s .A n :=
  fun hs => ⟨k, by rw [h, aIssue_ok (hs rfl), hn]⟩

end

/-! ### Names and the model's tests of them -/

theorem namesWithin_eq (n : Names) (s : State) : n.within s =
    (s.here.hasS n.s && s.here.hasC n.c && s.here.hasA n.a && s.here.hasV n.v && s.here.hasM n.m && n.t.all s.here.hasT &&
      n.st.all s.here.hasSt && n.g.all (memberOf s s.cur)) := rfl

@[simp] theorem hasS_nil (b : Bank) : b.hasS [] = true := rfl
@[simp] theorem hasC_nil (b : Bank) : b.hasC [] = true := rfl
@[simp] theorem hasA_nil (b : Bank) : b.hasA [] = true := rfl
@[simp] theorem hasV_nil (b : Bank) : b.hasV [] = true := rfl
@[simp] theorem hasM_nil (b : Bank) : b.hasM [] = true := rfl
@[simp] theorem hasV_append (b : Bank) (l r : List Nat) : b.hasV (l ++ r) = (b.hasV l && b.hasV r) := List.all_append

@[simp] theorem hasV_srcNames (b : Bank) (a : VSrc) : b.hasV (srcNames a) = b.hasSrc a := by cases a <;> rfl
@[simp] theorem hasV_dstNames (b : Bank) (d : VDst) : b.hasV (dstNames d) = b.hasDst d := by cases d <;> rfl
@[simp] theorem redNames_eq (d : RedDst) : redNames d = redRegs d := by cases d <;> rfl
@[simp] theorem groupNames_eq (n k : Nat) : groupNames n k = namesFrom n k := rfl

/-- The names of a destination, sources and masks are judged as the model judges them. -/
theorem vecNames_within (s : State) (d : VDst) (srcs : List VSrc) (m : List (BitVec 6)) :
    (vecNames d srcs m).within s = (s.here.hasDst d && srcs.all s.here.hasSrc && s.here.hasM m) := by
  have hsrc : s.here.hasV (srcs.flatMap srcNames) = srcs.all s.here.hasSrc := by
    induction srcs with
    | nil => rfl
    | cons a l ih => simp [ih]
  simp [namesWithin_eq, vecNames, hsrc]

/-- The model judges a source of one register as a source, and one of several, which is no queue, by its registers. -/
theorem hasV_sourceNames {k : Nat} {a : VSrc} (h : k = 1 ∨ a.isReg = true) (b : Bank) :
    b.hasV (sourceNames k a) = if k = 1 then b.hasSrc a else b.hasV (namesFrom a.regNum k) := by
  split
  case isTrue hk =>
    subst hk
    cases a <;> rfl
  case isFalse hk =>
    cases a with
    | reg n => rfl
    | lq q peek => exact absurd (h.resolve_left hk) Bool.false_ne_true

theorem hasV_targetNames {d : VDst} (h : d.isReg = true) (b : Bank) (k : Nat) :
    b.hasV (targetNames k d) = b.hasV (namesFrom d.regNum k) := by
  cases d with
  | reg n => rfl
  | sq q => cases h

@[simp] theorem hasV_cons_srcNames (b : Bank) (x : Nat) (a : VSrc) : b.hasV (x :: srcNames a) = (b.hasV [x] && b.hasSrc a) := by
  rw [← hasV_srcNames, ← hasV_append, List.singleton_append]

/-! ### Instructions whose operands decide which registers are named -/

section
variable {i : Instr} {s : State}

theorem checksNames_shift {d : VDst} {a : VSrc} {c : ShiftCount} {m : BitVec 6} {t : ElemType} {f : Nat → Nat → Nat → Nat}
    (h : exec i s = vShift s d a c m t f) : ChecksNames i s .V (vecNames d (a :: countSrcs c) [m]) := by
  cases c with
  | imm x => exact checksNames_V h (by simp [vecNames_within, countSrcs])
  | src b => exact checksNames_V h (by simp [vecNames_within, countSrcs, Bool.and_assoc])

theorem checksNames_reduce {d : RedDst} {a : VSrc} {m : BitVec 6} {t : ElemType} {w : Nat} {sg : Bool} {sup : Nat} {pre : Nat → Nat}
    {f : Mode → Nat → Nat → Nat} (h : exec i s = vReduce s d a m t w sg sup pre f) :
    ChecksNames i s .V { v := redNames d ++ srcNames a, m := [m] } :=
  checksNames_V h (by simp [namesWithin_eq])

/-- A permute by an index group of several registers cannot take its indices from a queue (R199). -/
theorem checksNames_permute {d : VDst} {a b : VSrc} {cs vs : List Nat} {m : BitVec 6} {t : ElemType} {f : VWord → Bank → Nat → Nat}
    (h : exec i s = vPermute s d a b cs m t f) (hw : permOk a b t = true)
    (hvs : vs = dstNames d ++ srcNames a ++ sourceNames t.indexGroup b ++ cs) : ChecksNames i s .V { v := vs, m := [m] } := by
  simp only [permOk, Bool.and_eq_true, Bool.or_eq_true, decide_eq_true_eq] at hw
  obtain ⟨⟨-, hreg⟩, -⟩ := hw
  exact checksNames_V h (by simp [namesWithin_eq, hvs, hasV_sourceNames hreg.symm, Bool.and_assoc])

theorem widthRatio_self (t : ElemType) : widthRatio t.width t.width = 1 := by cases t <;> rfl

/-- The registers that VCVT and VCVTS name (R191). -/
def convertNames (d : VDst) (a : VSrc) (m : BitVec 6) (t u : ElemType) : Names :=
  if t.width = u.width then vecNames d [a] [m]
  else if u.width < t.width then { v := targetNames (t.width / u.width) d ++ srcNames a, m := [m] }
  else { v := dstNames d ++ sourceNames (u.width / t.width) a, m := [m] }

/-- Neither side of a conversion that takes several registers is a queue (R191). -/
theorem checksNames_convert {d : VDst} {a : VSrc} {m : BitVec 6} {t u : ElemType} {words : Nat} {f : Mode → List W64 → Nat → Nat}
    (h : exec i s = vConvert s d a m t u words f) (hw : convOk d a t u = true) :
    ChecksNames i s .V (convertNames d a m t u) := by
  refine checksNames_V h ?_
  simp only [convOk, Bool.and_eq_true] at hw
  obtain ⟨-, hside⟩ := hw
  rcases lt_trichotomy t.width u.width with hlt | heq | hgt
  · have hk : widthRatio t.width u.width = u.width / t.width := by rw [widthRatio, max_eq_right hlt.le, min_eq_left hlt.le]
    simp only [hlt, hlt.not_gt, if_true, if_false, Bool.and_eq_true] at hside
    simp [convertNames, namesWithin_eq, hlt.ne, hlt.not_gt, hk, hasV_sourceNames (.inr hside.1), Bool.and_comm]
  · simp [convertNames, vecNames_within, heq, widthRatio_self, Bool.and_comm]
  · have hk : widthRatio t.width u.width = t.width / u.width := by rw [widthRatio, max_eq_left hgt.le, min_eq_right hgt.le]
    simp only [hgt, if_true, Bool.and_eq_true] at hside
    simp [convertNames, namesWithin_eq, hgt.ne', hgt, hk, hasV_targetNames hside.1, Bool.and_comm]

end

/-! ### Every instruction that names registers -/

/-- The groups are the units' shapes: a fixed list of names, a destination with sources and masks, and those above. -/
theorem checksNames_of_namesOf {i : Instr} {u : UnitId} {n : Names} (s : State) (h : namesOf i = some (u, n)) (hw : i.wf = true) :
    ChecksNames i s u n := by
  cases i
  case add | sub | mul | mulh | mulhz | div | divz | rem | remz | and | or | xor | andn | shl | shr | sar | min | max | minz | maxz |
      clz | ctz | popc | sext | zext | mov | addi | andi | ori | xori | shli | shri | sari | liw | lih | cmp | cmpi | cand | cor |
      cnot | brc | call | brx | ret | send | sysw | loopr | recv | time | sysr | phase | fence | waitc | realign | launch =>
    cases h
    exact checksNames_S rfl (by simp [namesWithin_eq])
  case resolve x kind =>
    cases kind with
    | cond y =>
      cases h
      exact checksNames_S rfl (by simp [namesWithin_eq, resolveRegs])
    | discard | commit => cases h
  case aadd | asub | amov | aaddi | aaddiA64 | ashli | aget | ldv | stv | lds | sts | amoadd | amoxchg | amocas | amomin | amomax |
      amoand | amoor | pft | sdef | sset | sgo | sstop | sstat | frz | thw =>
    cases h
    exact checksNames_A rfl (by simp [namesWithin_eq])
  case vshl | vshr | vsar =>
    cases h
    exact checksNames_shift rfl
  case vadd | vsub | vmul | vfma | vfms | vfnma | vneg | vabs | vmin | vmax | vadds | vsubs | vmulh | vavg | vand | vor | vxor | vandn |
      vnot | vclz | vpopc | vmov | vscale | vexp2 | vlog2 | vrcp | vrsq | vsqrt | vtanh | vsigm | vexpm | vsel | vbcast | vrev | vcompr |
      vunpk4 | vsplat | vldi | vslup | vsldn | vpack4 =>
    cases h
    exact checksNames_V rfl (by simp [vecNames_within, Bank.hasSrc, Bool.and_assoc])
  case vwadd | vwmul | vwfma =>
    cases h
    exact checksNames_V rfl (by simp [namesWithin_eq, Bool.and_assoc])
  case vcmp | vclass | mand | mor | mxor | mandn | mnot | mmov | mpop | mfirst | vextr | vins | vexpnd | vzip2 |
      vunzip2 | vzip3 | vunzip3 | vzip4 | vunzip4 | vtrd | vtcd | vtwr | vtwc | tcfg | tzero | trel =>
    cases h
    exact checksNames_V rfl (by simp [namesWithin_eq, Bool.and_assoc, Bool.and_comm])
  case mset d mode =>
    cases h
    cases mode <;> exact checksNames_V rfl (by simp [namesWithin_eq])
  case vcvt d a m t u sat =>
    cases h
    exact checksNames_convert (show execVcvt d a m t u sat s = _ from rfl) (Bool.and_eq_true_iff.mp hw).1
  case vcvts d a m t u =>
    cases h
    exact checksNames_convert (show execVcvts d a m t u s = _ from rfl) hw
  case vperm =>
    cases h
    exact checksNames_permute rfl hw (List.append_nil _).symm
  case vperme =>
    cases h
    exact checksNames_permute rfl hw rfl
  case vrmax d a m t =>
    cases h
    exact checksNames_reduce (show execVrmax d a m t s = _ from rfl)
  case vrmin d a m t =>
    cases h
    exact checksNames_reduce (show execVrmin d a m t s = _ from rfl)
  case vrsum d a m t =>
    cases h
    cases hi : t.isInt
    · exact checksNames_reduce (show execVrsum d a m t s = _ from if_neg (Bool.eq_false_iff.mp hi))
    · exact checksNames_reduce (show execVrsum d a m t s = _ from if_pos hi)
  case vramax d a m t =>
    cases h
    cases hi : t.isInt
    · exact checksNames_reduce (show execVramax d a m t s = _ from if_neg (Bool.eq_false_iff.mp hi))
    · exact checksNames_reduce (show execVramax d a m t s = _ from if_pos hi)
  all_goals cases h

/-! ### The register files (R95, R96) -/

theorem getLsbD_merge {w : Nat} (old data en : BitVec w) (j : Nat) :
    (old &&& ~~~en ||| data &&& en).getLsbD j = if en.getLsbD j then data.getLsbD j else old.getLsbD j := by
  simp only [BitVec.getLsbD_or, BitVec.getLsbD_and, BitVec.getLsbD_not]
  by_cases hj : j < w
  · cases en.getLsbD j <;> simp [hj]
  · simp [BitVec.getLsbD_of_ge _ j (Nat.le_of_not_lt hj)]

theorem getLsbD_mreg_setM (b : Bank) (n k : BitVec 6) (data en : MWord) (j : Nat) : ((b.setM n data en).mreg k).getLsbD j =
    if k = n ∧ n ≠ 0 ∧ en.getLsbD j then data.getLsbD j else (b.mreg k).getLsbD j := by
  rw [mreg_setM]
  by_cases h : n = k ∧ n ≠ 0
  · obtain ⟨rfl, hn⟩ := h
    simp only [hn, getLsbD_merge, ne_eq, not_false_eq_true, and_self, if_true, true_and]
  · rw [if_neg h, if_neg fun hk => h ⟨hk.1.symm, hk.2.1⟩]

theorem getLsbD_vreg_setV (b : Bank) (n k : Nat) (data en : VWord) (j : Nat) : ((b.setV n data en).vreg k).getLsbD j =
    if k = n ∧ en.getLsbD j then data.getLsbD j else (b.vreg k).getLsbD j := by
  rw [vreg_setV]
  by_cases h : n = k
  · subst h
    simp only [getLsbD_merge, if_true, true_and]
  · rw [if_neg h, if_neg fun hk => h hk.1.symm]

theorem getLsbD_mreg_zero (b : Bank) {j : Nat} (hj : j < 1024) : (b.mreg 0).getLsbD j = true := by
  rw [Bank.mreg, if_pos rfl, MWord.ones, BitVec.getLsbD_allOnes, decide_eq_true hj]

/-- Settles O4: every instruction judges its names first of all, and a file's read after a write is one of the state's laws. (The
name stands apart from the register files of a context, `Sys2Proof.registerFiles`.) -/
theorem Operands.registerFiles : Obligations.RegisterFiles := by
  refine ⟨fun i s u n h hw hn hs => ?_, fun b => ?_⟩
  · obtain ⟨k, hk⟩ := checksNames_of_namesOf s h hw hs
    exact trapsWith_of_undeclared hk hn
  · refine ⟨fun n k v => ?_, fun n k v => ?_, fun n k v => ?_, getLsbD_mreg_setM b, getLsbD_vreg_setV b, setS_zero b, setC_zero b,
      setA_zero b, setM_zero b, rfl, rfl, rfl, fun j => getLsbD_mreg_zero b⟩
    · simp only [sreg_setS, eq_comm (a := n) (b := k)]
    · simp only [creg_setC, eq_comm (a := n) (b := k)]
    · simp only [areg_setA, eq_comm (a := n) (b := k)]

end Sys2Proof
end

section
/-! Integer arithmetic, divides, comparisons and condition logic of the sequencer (R101, R121 to R129). -/

namespace Sys2Proof

open Machine

/-! ### Writes of one register -/

/-- An S instruction that finds no landing-buffer entry free waits (R101). -/
theorem issuesTo_of_fullLanding {i : Instr} {s : State} {k : Attempt} (h : exec i s = .next (conclude .S (landingRoom s .S k)))
    (hfull : 16 ≤ s.here.inFlight .S) : IssuesTo i s (s.here.stalled .S false) := by
  rw [landingRoom, if_pos ⟨rfl, hfull⟩] at h
  exact issuesTo_of_wait h rfl

section
variable {i : Instr} {s : State} {d : BitVec 6} {regs : List (BitVec 6)} {lat : Nat} {v : Bank → W64}
  (h : exec i s = .next (sWrite s d regs lat v)) (hd : s.here.hasS (d :: regs) = true)
include h hd

theorem sWrite_waits (hfull : 16 ≤ s.here.inFlight .S) : IssuesTo i s (s.here.stalled .S false) := by
  rw [sWrite, declared_ok hd] at h
  exact issuesTo_of_fullLanding h hfull

/-- A result of a longer latency stays in the landing buffer (R98). -/
theorem sWrite_flight (hlat : 2 ≤ lat) (hc : CanIssue s .S) :
    IssuesTo i s (WithFlight (Passed s .S) .S (lat - 1) [.sreg d (v s.here)]) := by
  obtain ⟨hh, hroom⟩ := hc
  rw [sWrite, declared_ok hd, landingRoom_ok hroom] at h
  exact issuesTo_of_ok _ h (issued_send (List.cons_ne_nil _ _) hlat hh)

end

/-! ### Integer instructions (R123, R125 to R127) -/

theorem sxImm_eq (i : BitVec 13) : sxImm i = .ofInt 64 i.toInt := rfl

theorem sub_table (x y : W64) : x - y = .ofInt 64 (x.toNat - y.toNat) := by
  rw [Int.sub_eq_add_neg, BitVec.ofInt_add, BitVec.ofInt_neg, BitVec.sub_eq_add_neg]
  simp [BitVec.ofInt_natCast]

theorem addImm_table (x : W64) (i : BitVec 13) : x + sxImm i = .ofInt 64 (x.toNat + i.toInt) := by
  rw [BitVec.ofInt_add]
  simp [BitVec.ofInt_natCast, sxImm_eq]

/-- An instruction of the table writes the table's result. -/
theorem exec_of_scalarResult {i : Instr} {s : State} {d : BitVec 6} {src : List (BitVec 6)} {v : W64}
    (h : scalarResult s.here.sreg i = some (d, src, v)) : ∃ f, exec i s = .next (sWrite s d src 1 f) ∧ f s.here = v := by
  cases i
  case add => cases h; exact ⟨_, rfl, by simp [BitVec.ofNat_add]⟩
  case sub => cases h; exact ⟨_, rfl, sub_table _ _⟩
  case mul => cases h; exact ⟨_, rfl, by simp [BitVec.ofNat_mul]⟩
  case mulh => cases h; exact ⟨_, rfl, mulh_table _ _⟩
  case mulhz => cases h; exact ⟨_, rfl, mulhz_table _ _⟩
  case shl => cases h; exact ⟨_, rfl, shl_table _ _⟩
  case shr => cases h; exact ⟨_, rfl, shr_table _ _⟩
  case sar => cases h; exact ⟨_, rfl, sar_table _ _⟩
  case min => cases h; exact ⟨_, rfl, min_table _ _⟩
  case max => cases h; exact ⟨_, rfl, max_table _ _⟩
  case minz => cases h; exact ⟨_, rfl, minz_table _ _⟩
  case maxz => cases h; exact ⟨_, rfl, maxz_table _ _⟩
  case clz => cases h; exact ⟨_, rfl, congrArg _ (clz_table _)⟩
  case ctz => cases h; exact ⟨_, rfl, congrArg _ (ctz_table _)⟩
  case popc => cases h; exact ⟨_, rfl, congrArg _ (popc_table _)⟩
  case sext => cases h; exact ⟨_, rfl, sext_table _ _⟩
  case zext => cases h; exact ⟨_, rfl, zext_table _ _⟩
  case addi => cases h; exact ⟨_, rfl, addImm_table _ _⟩
  case shli => cases h; exact ⟨_, rfl, shl_table _ _⟩
  case shri => cases h; exact ⟨_, rfl, shr_table _ _⟩
  case sari => cases h; exact ⟨_, rfl, sar_table _ _⟩
  case lih => cases h; exact ⟨_, rfl, lih_table _ _⟩
  case and | or | xor | andn | mov | andi | ori | xori | liw => cases h; exact ⟨_, rfl, rfl⟩
  all_goals cases h

/-- Settles O1: each instruction of the table is a write of the table's result at latency 1. -/
theorem scalarInstructions : Obligations.ScalarInstructions := by
  intro i s d src v hv hd
  obtain ⟨f, hexec, rfl⟩ := exec_of_scalarResult hv
  exact ⟨fun hc => sWrite_ok hc hd hexec, sWrite_waits hexec hd⟩

/-! ### Divides and remainders (R124) -/

theorem div_table (x y : W64) : divValue x y =
    if y = 0 then 0xFFFFFFFFFFFFFFFF
    else if x = 0x8000000000000000 ∧ y = 0xFFFFFFFFFFFFFFFF then 0x8000000000000000
    else .ofInt 64 (x.toInt.tdiv y.toInt) := by
  unfold divValue
  by_cases hy : y = 0
  · simp [hy]
  · rw [if_neg hy, if_neg hy]
    split
    next hxy => obtain ⟨rfl, rfl⟩ := hxy; decide
    next => rfl

theorem rem_table (x y : W64) : remValue x y =
    if y = 0 then x
    else if x = 0x8000000000000000 ∧ y = 0xFFFFFFFFFFFFFFFF then 0
    else .ofInt 64 (x.toInt.tmod y.toInt) := by
  unfold remValue
  by_cases hy : y = 0
  · simp [hy]
  · rw [if_neg hy, if_neg hy]
    split
    next hxy => obtain ⟨rfl, rfl⟩ := hxy; decide
    next => rfl

theorem exec_of_divResult {i : Instr} {s : State} {d : BitVec 6} {src : List (BitVec 6)} {v : W64}
    (h : divResult s.here.sreg i = some (d, src, v)) : ∃ f, exec i s = .next (sWrite s d src divLatency f) ∧ f s.here = v := by
  cases i
  case div => cases h; exact ⟨_, rfl, div_table _ _⟩
  case rem => cases h; exact ⟨_, rfl, rem_table _ _⟩
  case divz | remz => cases h; exact ⟨_, rfl, rfl⟩
  all_goals cases h

/-- The dividend is the quotient times the divisor plus the remainder, as integers and so as words. -/
theorem ofInt_tdiv_mul_add_tmod (x y : W64) :
    x = BitVec.ofInt 64 (x.toInt.tdiv y.toInt) * y + BitVec.ofInt 64 (x.toInt.tmod y.toInt) := by
  have hint : x.toInt.tdiv y.toInt * y.toInt + x.toInt.tmod y.toInt = x.toInt := Int.tdiv_mul_add_tmod ..
  calc x = BitVec.ofInt 64 x.toInt := (BitVec.ofInt_toInt).symm
    _ = BitVec.ofInt 64 (x.toInt.tdiv y.toInt) * BitVec.ofInt 64 y.toInt + BitVec.ofInt 64 (x.toInt.tmod y.toInt) := by
      rw [← BitVec.ofInt_mul, ← BitVec.ofInt_add, hint]
    _ = _ := by rw [BitVec.ofInt_toInt]

/-- Settles O2: each divide is a write of the table's result at latency 20; the identity of quotient and remainder is that of the
integers. -/
theorem division : Obligations.Division := by
  refine ⟨fun i s d src v hv hd => ?_, fun x y _ => ofInt_tdiv_mul_add_tmod x y⟩
  obtain ⟨f, hexec, rfl⟩ := exec_of_divResult hv
  exact ⟨sWrite_flight hexec hd (by decide), sWrite_waits hexec hd⟩

/-! ### Comparisons and condition logic (R128, R129) -/

theorem holds_eq (p : Pred) (x y : W64) : predHolds p x y = conditionResult.holds p x y := by
  cases p with
  | eq => exact Bool.beq_eq_decide_eq x y
  | ne => simp [predHolds, conditionResult.holds, bne, Bool.beq_eq_decide_eq]
  | lt | ltz => rfl
  | ge | gez => simp [predHolds, conditionResult.holds, BitVec.slt, BitVec.ult, ← decide_not]

theorem exec_of_conditionResult {i : Instr} {s : State} {d : BitVec 4} {sr : List (BitVec 6)} {cr : List (BitVec 4)} {v : Bool}
    (h : conditionResult s.here.sreg s.here.creg i = some (d, sr, cr, v)) : ∃ f, exec i s = cWrite s d sr cr f ∧ f s.here = v := by
  cases i
  case cmp => cases h; exact ⟨_, rfl, holds_eq _ _ _⟩
  case cmpi => cases h; exact ⟨_, rfl, holds_eq _ _ _⟩
  case cand | cor | cnot => cases h; exact ⟨_, rfl, by simp⟩
  all_goals cases h

/-- Settles O3: each instruction of the table is a write of the table's condition at latency 1. -/
theorem conditions : Obligations.Conditions := by
  intro i s d sr cr v hv hs hcr
  obtain ⟨f, hexec, rfl⟩ := exec_of_conditionResult hv
  rw [cWrite, declared_ok (by rw [hs, hcr]; rfl)] at hexec
  refine ⟨fun ⟨hh, hroom⟩ => ?_, issuesTo_of_fullLanding hexec⟩
  rw [landingRoom_ok hroom] at hexec
  exact issuesTo_of_ok _ hexec (issued_send_one hh)

end Sys2Proof
end

section
/-! Branches, computed jumps, LOOPR, TRAP, TRET and NOP (R75, R77, R130 to R133, R148, R149). -/

namespace Sys2Proof

open Machine

/-! ### Lines and next lines (R75, R130, R150) -/

theorem ofNat_branchTarget (s : State) (n : Int) : BitVec.ofNat 64 (branchTarget (sLine s) n % 2 ^ 48) = linesOn s n := by
  have hnonneg : 0 ≤ (lineX s + 32 * n) % 2 ^ 48 := Int.emod_nonneg _ (by norm_num)
  have hlt : (lineX s + 32 * n) % 2 ^ 48 < 2 ^ 48 := Int.emod_lt_of_pos _ (by norm_num)
  rw [show branchTarget (sLine s) n = ((lineX s + 32 * n) % 2 ^ 48).toNat from rfl, Nat.mod_eq_of_lt ((Int.toNat_lt hnonneg).mpr hlt),
    linesOn, ← BitVec.ofInt_natCast, Int.toNat_of_nonneg hnonneg]

theorem goTo_branchTarget (s : State) (n : Int) : goTo s.here s.cycle (branchTarget (sLine s) n) = nextLine s (linesOn s n) := by
  rw [goTo, nextLine, ofNat_branchTarget]

theorem goTo_send (b : Bank) (u : UnitId) (lat : Nat) (res : List Result) (cycle line : Nat) :
    goTo (b.send u lat res) cycle line = (goTo b cycle line).send u lat res := by
  unfold Bank.send
  split
  · rfl
  · cases u <;> rfl

theorem goTo_toNat (s : State) {x : W64} (h : x.toNat < 2 ^ 48) : goTo s.here s.cycle x.toNat = nextLine s x := by
  rw [goTo, nextLine, Nat.mod_eq_of_lt h, BitVec.ofNat_toNat, BitVec.setWidth_eq]

/-- Bits 47:5 of a register name a line (R150). -/
theorem lineOf_eq (x : W64) : lineOf x = (x &&& 0x0000FFFFFFFFFFE0).toNat := by
  apply Nat.eq_of_testBit_eq
  intro j
  rw [BitVec.toNat_and, show (0x0000FFFFFFFFFFE0 : W64).toNat = (2 ^ 43 - 1) * 2 ^ 5 from rfl, lineOf, bitsOf,
    show (32 : Nat) = 2 ^ 5 from rfl]
  simp only [Nat.testBit_and, Nat.testBit_mul_two_pow, Nat.testBit_mod_two_pow, Nat.testBit_div_two_pow, Nat.testBit_two_pow_sub_one]
  by_cases hj : 5 ≤ j
  · rw [Nat.sub_add_cancel hj]
    simp [hj, Bool.and_comm]
  · simp [hj]

theorem lineOf_lt (x : W64) : lineOf x < 2 ^ 48 := by
  unfold lineOf bitsOf
  omega

theorem ofNat_lineOf (x : W64) : BitVec.ofNat 64 (lineOf x % 2 ^ 48) = x &&& 0x0000FFFFFFFFFFE0 := by
  rw [Nat.mod_eq_of_lt (lineOf_lt x), lineOf_eq, BitVec.ofNat_toNat, BitVec.setWidth_eq]

/-! ### Branches (R130, R131) -/

/-- Settles O6: each branch answers the bank with the target as its next line; CALL sends the address of the line after besides. -/
theorem branches : Obligations.Branches := by
  refine fun s => ⟨fun d => ?_, fun c inv d hc => ?_, fun d hi hd => ?_⟩
  · rw [← goTo_branchTarget]
    exact issuesTo_of_ok _ rfl rfl
  · rw [← goTo_branchTarget]
    refine issuesTo_of_ok (u := .S) (fun b => goTo b s.cycle (branchTarget (sLine s) (if b.creg c != inv then d.toInt else 1))) ?_ rfl
    rw [show exec (.brc c inv d) s = execBrc c inv d s from rfl, execBrc, declared_ok hc]
  · obtain ⟨hh, hroom⟩ := hi
    rw [← goTo_branchTarget]
    refine issuesTo_of_ok (u := .S) (fun b =>
      goTo (b.send .S 1 [.sreg 63 (.ofNat 64 (sLine s + 32))]) s.cycle (branchTarget (sLine s) d.toInt)) ?_ (issued_of_send_one (goTo_send ..) hh)
    rw [show exec (.call d) s = execCall d s from rfl, execCall, declared_ok hd, landingRoom_ok hroom]

/-! ### The landing check and the computed jumps (R77, R132) -/

section
variable {s : State} {row va : Nat}

theorem landingFault_bad {c : Nat} (h : fetchLine s row va = .bad c) : landingFault s row va = some c := by
  rw [landingFault, h]

theorem landingFault_line {s' : State} {bs : List Byte} (h : fetchLine s row va = .line s' bs) :
    landingFault s row va = if lineLands bs then none else some 0x0D := by
  rw [landingFault, h]

end

section
variable {i : Instr} {s : State} {a : BitVec 6} (hi : i = .brx a ∨ i = .ret a) (ha : s.here.hasS [a] = true)
include hi

theorem exec_jump : exec i s = jumpTo s a := by
  rcases hi with rfl | rfl <;> rfl

include ha

theorem jump_traps {c : Nat} (h : jumpFault s (s.here.sreg a) = some c) : TrapsWith i s .S (causeAt c (s.here.sreg a)) := by
  rw [TrapsWith, exec_jump hi, jumpTo, declared_ok ha, h]
  rfl

theorem jump_issues (h : jumpFault s (s.here.sreg a) = none) (hlt : (s.here.sreg a).toNat < 2 ^ 48) :
    IssuesTo i s ((nextLine s (s.here.sreg a)).issued .S) := by
  rw [← goTo_toNat s hlt]
  refine issuesTo_of_ok (u := .S) (fun b => goTo b s.cycle (b.sreg a).toNat) ?_ rfl
  rw [exec_jump hi, jumpTo, declared_ok ha, h]

end

/-- Settles O7: the checks of the target in their order, and the jump when none of them fails. -/
theorem computedJumps : Obligations.ComputedJumps := by
  intro i s a hi ha x
  have hlands (hlt : x.toNat < 2 ^ 48) (hal : x.toNat % 32 = 0) : jumpFault s x = landingFault s s.cur x.toNat := by
    rw [jumpFault, if_neg (Nat.not_le.mpr hlt), if_neg (not_not.mpr hal)]
  refine ⟨fun hge => jump_traps hi ha (if_pos hge),
    fun hlt hal => jump_traps hi ha ((if_neg (Nat.not_le.mpr hlt)).trans (if_pos hal)),
    fun hlt hal => ⟨fun c hf => jump_traps hi ha ((hlands hlt hal).trans (landingFault_bad hf)),
      fun s' bs hf => ⟨fun hl => jump_traps hi ha ?_, fun hl => jump_issues hi ha ?_ hlt⟩⟩⟩
  · rw [hlands hlt hal, landingFault_line hf, hl]; rfl
  · rw [hlands hlt hal, landingFault_line hf, hl]; rfl

/-! ### LOOPR (R133) -/

theorem decodeUnit_loopr (d : BitVec 6) (rot : BitVec 7) (disp : BitVec 32) :
    decodeUnit 2 (disp.toNat * 2 ^ 32 + s32Word 0x02 d.toNat 0 0 rot.toNat) = some (.loopr d rot disp) := by
  rw [Nat.add_comm, Nat.mul_comm]
  exact decodeUnit_of_encode rfl rfl

theorem goTo_rotate_send (s : State) (rot : BitVec 7) (r : Result) (n : Int) :
    goTo { s.here.send .S 1 [r] with rb := s.here.rb + rot } s.cycle (branchTarget (sLine s) n) =
      Bank.send { nextLine s (linesOn s n) with rb := .ofNat 7 ((s.here.rb.toNat + rot.toNat) % 128) } .S 1 [r] := by
  have hrb : s.here.rb + rot = .ofNat 7 ((s.here.rb.toNat + rot.toNat) % 128) := by
    apply BitVec.eq_of_toNat_eq
    simp [BitVec.toNat_add]
  rw [← hrb, goTo, ofNat_branchTarget]
  rfl

/-- Settles O8: the encoding by the round trip; the count, the rotation and the branch are one change of the bank. -/
theorem loopr : Obligations.Loopr := by
  refine ⟨decodeUnit_loopr, fun d rot disp s hi hd => ?_⟩
  obtain ⟨hh, hroom⟩ := hi
  refine issuesTo_of_ok (u := .S) (fun b =>
    let new := looprCount (b.sreg d)
    goTo { (b.send .S 1 [.sreg d new]) with rb := b.rb + rot } s.cycle (branchTarget (sLine s) (if new ≠ 0 then disp.toInt else 1)))
    ?_ (issued_of_send_one (goTo_rotate_send s rot _ _) hh)
  rw [show exec (.loopr d rot disp) s = execLoopr d rot disp s from rfl, execLoopr, declared_ok hd, landingRoom_ok hroom]

/-! ### TRAP (R148) -/

theorem getLsbD_63_iff (x : W64) : x.getLsbD 63 = decide (bitsOf x.toNat 63 63 = 1) := by
  rw [← BitVec.testBit_toNat, Nat.testBit_eq_decide_div_mod_eq]
  rfl

theorem bitsOf_63_eq_zero_iff (x : W64) : bitsOf x.toNat 63 63 = 0 ↔ x.getLsbD 63 = false := by
  rw [getLsbD_63_iff, decide_eq_false_iff_not]
  unfold bitsOf
  omega

theorem handlerReady_iff (b : Bank) : b.handlerReady = true ↔ b.trapvec.getLsbD 0 = true ∧ b.trapcause.getLsbD 63 = false := by
  have hen : b.trapvec.getLsbD 0 = decide (b.trapvec.toNat % 2 = 1) := by rw [← BitVec.testBit_toNat, Nat.testBit_zero]
  rw [Bank.handlerReady, Bool.and_eq_true, decide_eq_true_iff, decide_eq_true_iff, bitsOf_63_eq_zero_iff, hen, decide_eq_true_iff]

/-- The fields of TRAPCAUSE in the handler from bit 63 down (R148, R150). -/
theorem trapCause_eq (code : BitVec 13) : BitVec.ofNat 64 (2 ^ 63 + 0x12 * 2 ^ 16 + code.toNat) =
    (1 : BitVec 1) ++ (0 : BitVec 39) ++ (0x12 : BitVec 8) ++ (0 : BitVec 3) ++ code := by
  apply BitVec.eq_of_toNat_eq
  have := code.isLt
  simp only [toNat_append_add, BitVec.ofNat_eq_ofNat, BitVec.toNat_ofNat]
  omega

theorem goTo_trapEnter (s : State) (code : BitVec 13) : goTo (trapEnter s.here (sLine s) code) s.cycle (lineOf s.here.trapvec) =
    { nextLine s (s.here.trapvec &&& 0x0000FFFFFFFFFFE0) with
      trapret := linesOn s 1
      trapcause := (1 : BitVec 1) ++ (0 : BitVec 39) ++ (0x12 : BitVec 8) ++ (0 : BitVec 3) ++ code } := by
  have hret : BitVec.ofNat 64 ((sLine s + 32) % 2 ^ 48) = linesOn s 1 := congrArg (fun b => b.fetch.next) (goTo_lineAfter s)
  rw [← hret, ← trapCause_eq, ← ofNat_lineOf]
  rfl

section
variable {s : State} (hr : s.here.handlerReady = true)
include hr

theorem trap_faults {c : Nat} (h : landingFault s s.cur (lineOf s.here.trapvec) = some c) (code : BitVec 13) :
    TrapsWith (.trap code) s .S (causeAt c (s.here.trapvec &&& 0x0000FFFFFFFFFFE0)) := by
  rw [TrapsWith, show exec (.trap code) s = execTrap code s from rfl, causeAt, ← lineOf_eq]
  simp [execTrap, hr, h, conclude]

theorem trap_enters (h : landingFault s s.cur (lineOf s.here.trapvec) = none) (code : BitVec 13) :
    IssuesTo (.trap code) s ((goTo (trapEnter s.here (sLine s) code) s.cycle (lineOf s.here.trapvec)).issued .S) := by
  refine issuesTo_of_ok (u := .S) (fun b => goTo (trapEnter b (sLine s) code) s.cycle (lineOf b.trapvec)) ?_ rfl
  rw [show exec (.trap code) s = execTrap code s from rfl]
  simp [execTrap, hr, h]

end

/-- Settles O13: the handler is entered where its line may be landed on, and the firmware is called where it is not allowed. -/
theorem trapEntry : Obligations.TrapEntry := by
  intro s code handler allowed
  have hready : allowed ↔ s.here.handlerReady = true := (handlerReady_iff s.here).symm
  have hline : lineOf s.here.trapvec = handler.toNat := lineOf_eq _
  refine ⟨fun ha s' bs hf hl => ?_, fun ha s' bs hf hl => ?_, fun ha c hf => ?_, fun ha => ?_⟩
  · rw [← goTo_trapEnter]
    exact trap_enters (hready.mp ha) (by rw [hline, landingFault_line hf, hl]; rfl) code
  · exact trap_faults (hready.mp ha) (by rw [hline, landingFault_line hf, hl]; rfl) code
  · exact trap_faults (hready.mp ha) (by rw [hline, landingFault_bad hf]) code
  · rw [TrapsWith, show exec (.trap code) s = execTrap code s from rfl]
    simp [execTrap, mt hready.mpr ha, conclude, causeAt]

/-! ### TRET and NOP (R149) -/

/-- A word that is not the encoding of the instruction that its fields name decodes to nothing. -/
theorem decodeUnit_eq_none_of_raw {tag w : Nat} {i : Instr} (h : rawUnit tag w = some i) (he : encode i ≠ some (tag, w)) :
    decodeUnit tag w = none := by
  simp [decodeUnit, h, he]

/-- The words of TRET and NOP have no bits below the opcode (R86). -/
theorem decodeUnit_tret_nop_eq_none {x : Nat} (hx : x < 2 ^ 32) (hop : x / 2 ^ 25 = 0x16 ∨ x / 2 ^ 25 = 0x17) (hlow : x % 2 ^ 25 ≠ 0) :
    decodeUnit 1 x = none := by
  rcases hop with hop | hop
  · have hbits : bitsOf x 31 25 = 0x16 := by unfold bitsOf; omega
    refine decodeUnit_eq_none_of_raw (i := .tret) (by simp only [rawUnit, rawS32, hbits]) fun he => hlow ?_
    cases he; rfl
  · have hbits : bitsOf x 31 25 = 0x17 := by unfold bitsOf; omega
    refine decodeUnit_eq_none_of_raw (i := .nop) (by simp only [rawUnit, rawS32, hbits]) fun he => hlow ?_
    cases he; rfl

theorem goTo_trapReturn (s : State) : goTo (trapReturn s.here) s.cycle (lineOf s.here.trapret) =
    { nextLine s (s.here.trapret &&& 0x0000FFFFFFFFFFE0) with trapcause := s.here.trapcause &&& 0x7FFFFFFFFFFFFFFF } := by
  rw [← ofNat_lineOf]
  rfl

theorem exec_tret (s : State) : exec .tret s = .next (conclude .S (if s.here.trapcause.getLsbD 63 = false then trapWith s 0x02
    else .ok (s.modHere fun b => goTo (trapReturn b) s.cycle (lineOf b.trapret)))) := by
  simp only [← bitsOf_63_eq_zero_iff]
  rfl

/-- Settles O14: the encodings by the round trip, TRET by its INH, NOP as an issue that changes nothing. -/
theorem trapReturnAndNop : Obligations.TrapReturnAndNop := by
  refine ⟨decodeUnit_of_encode rfl rfl, decodeUnit_of_encode rfl rfl, fun x hx hop hlow => decodeUnit_tret_nop_eq_none hx hop hlow,
    fun s => ⟨fun hinh => ?_, fun hinh => ?_, issuesTo_of_pass rfl⟩⟩
  · rw [← goTo_trapReturn]
    exact issuesTo_of_ok _ ((exec_tret s).trans (by simp only [hinh]; rfl)) rfl
  · rw [TrapsWith, exec_tret, if_pos hinh]
    rfl

end Sys2Proof
end

section
/-! Engine commands and shadow sets (R93, R122, R135 to R138). -/

namespace Sys2Proof

open Machine

/-! ### PUSH (R93, R135) -/

theorem pushRegs_eq (x : BitVec 6) : pushRegs x = eightFrom x := by
  simp [pushRegs, eightFrom, List.range_succ]

theorem setOpen_iff (b : Bank) (n : Nat) : setOpen b n ↔ ¬ b.shadows.toNat / 2 ^ (n - 1) % 2 = 0 := by
  rw [setOpen, ← BitVec.testBit_toNat, Nat.testBit_eq_decide_div_mod_eq, decide_eq_true_iff]
  omega

/-- An accepted command is the last entry of its queue (R135). -/
theorem engQ_pushEntry (b : Bank) (e : Eng) (ws : List W64) (now : Nat) : ∃ n, (pushEntry b e ws now).engQ e = b.engQ e ++ [n] ∧
    n.words = ws ∧ n.state = .waiting ∧ n.started = false := by
  cases e <;> exact ⟨_, rfl, rfl, rfl, rfl⟩

theorem halting_pushEntry (b : Bank) (e : Eng) (ws : List W64) (now : Nat) : (pushEntry b e ws now).halting = b.halting := by
  cases e <;> rfl

/-- What a PUSH whose checks have passed leaves of the bank: cY says whether the queue was full (R135). -/
def pushedBank (e : Eng) (ws : List W64) (y : BitVec 4) (now : Nat) (b : Bank) : Bank :=
  if engDepth e ≤ (b.engQ e).length then b.send .S 1 [.creg y true] else (pushEntry b e ws now).send .S 1 [.creg y false]

theorem declared_not (s : State) (u : Bool) (k : Attempt) : declared s (!u) k = if u then trapWith s 0x03 else k := by
  cases u <;> rfl

section
variable {s : State} {e : Eng} {x : BitVec 6} {y : BitVec 4}

theorem push_absent (hp : engPresent (s.cur / 2) e = false) (x : BitVec 6) (y : BitVec 4) :
    TrapsWith (.push e x y) s .S (causeAt 0x0C 0) := by
  rw [TrapsWith, show exec (.push e x y) s = execPush e x y s from rfl]
  simp only [execPush, coreOf, hp]
  rfl

theorem exec_push (hp : engPresent (s.cur / 2) e = true) (hs : s.here.hasS (eightFrom x) = true) (hc : s.here.hasC [y] = true) :
    let ws := (eightFrom x).map s.here.sreg
    let ns := ws.map BitVec.toNat
    let set := bitsOf (cmdWord ns 0) 35 32
    exec (.push e x y) s = .next (conclude .S (
      if cmdUndeclared s.here e ns then trapWith s 0x03
      else if cmdMalformed s s.cur e ns then trapWith s 0x11
      else if set ≠ 0 ∧ s.here.shadows.toNat / 2 ^ (set - 1) % 2 = 0 then trapWith s 0x11
      else if !releaseReady s.here then .wait s
      else landingRoom s .S (.ok (s.modHere (pushedBank e ws y s.cycle))))) := by
  intro ws ns set
  rw [show exec (.push e x y) s = execPush e x y s from rfl]
  simp only [execPush, coreOf, hp, pushRegs_eq, hs, hc, Bool.and_self, Bool.true_and, declared_not]
  rfl

end

/-- An accepted PUSH: the checks have passed, and the queue has room or has none. -/
theorem push_issues {s : State} {e : Eng} {x : BitVec 6} {y : BitVec 4} {ws : List W64} (hi : CanIssue s .S)
    (h : exec (.push e x y) s = .next (conclude .S (landingRoom s .S (.ok (s.modHere (pushedBank e ws y s.cycle)))))) :
    (engDepth e ≤ (s.here.engQ e).length → IssuesTo (.push e x y) s ((Passed s .S).setC y true)) ∧
    ((s.here.engQ e).length < engDepth e → IssuesTo (.push e x y) s (((pushEntry s.here e ws s.cycle).issued .S).setC y false)) := by
  obtain ⟨hh, hroom⟩ := hi
  rw [landingRoom_ok hroom] at h
  exact ⟨fun hfull => issuesTo_of_ok _ h (issued_of_send_one (if_pos hfull) hh),
    fun hfree => issuesTo_of_ok _ h (issued_of_send_one (if_neg (Nat.not_le.mpr hfree)) ((halting_pushEntry ..).trans hh))⟩

/-! ### POP (R136) -/

/-- What a POP whose checks have passed leaves of the bank (R136). -/
def poppedBank (x : BitVec 6) (e : Eng) (y : BitVec 4) (b : Bank) : Bank :=
  match b.fifo e with
  | [] => b.send .S 1 [.creg y true]
  | w :: r => (b.setFifo e r).send .S 1 [.sreg x w, .creg y false]

section
variable {s : State} {e : Eng}

theorem pop_absent (hp : engPresent (s.cur / 2) e = false) (x : BitVec 6) (y : BitVec 4) :
    TrapsWith (.pop x e y) s .S (causeAt 0x0C 0) := by
  rw [TrapsWith, show exec (.pop x e y) s = execPop x e y s from rfl]
  simp only [execPop, coreOf, hp]
  rfl

theorem exec_pop {x : BitVec 6} {y : BitVec 4} (hp : engPresent (s.cur / 2) e = true) (hs : s.here.hasS [x] = true)
    (hc : s.here.hasC [y] = true) :
    exec (.pop x e y) s = .next (conclude .S (landingRoom s .S (.ok (s.modHere (poppedBank x e y))))) := by
  rw [show exec (.pop x e y) s = execPop x e y s from rfl]
  simp only [execPop, coreOf, hp, hs, hc]
  rfl

end

theorem halting_setFifo (b : Bank) (e : Eng) (l : List W64) : (b.setFifo e l).halting = b.halting := by
  cases e <;> rfl

theorem issued_poppedBank_nil {b : Bank} {e : Eng} (hh : b.halting = false) (h : b.fifo e = []) (x : BitVec 6) (y : BitVec 4) :
    (poppedBank x e y b).issued .S = (b.issued .S).setC y true := by
  rw [poppedBank, h]
  exact issued_send_one hh

theorem issued_poppedBank_cons {b : Bank} {e : Eng} {w : W64} {r : List W64} (hh : b.halting = false) (h : b.fifo e = w :: r)
    (x : BitVec 6) (y : BitVec 4) : (poppedBank x e y b).issued .S = (((b.setFifo e r).issued .S).setS x w).setC y false := by
  rw [poppedBank, h]
  exact issued_send_all (List.cons_ne_nil _ _) ((halting_setFifo b e r).trans hh)

/-- Settles O10: PUSH by its checks in their order and by the room of its queue, POP by what the FIFO holds. -/
theorem engineQueues : Obligations.EngineQueues := by
  refine fun s e hi => ⟨fun hp => ⟨push_absent hp, pop_absent hp⟩, fun hp => ⟨fun x y hs hc => ?_, fun x y hs hc => ?_⟩⟩
  · intro ws ns set
    have hexec := exec_push hp hs hc
    refine ⟨fun hu => ?_, fun hu hm => ?_, fun hu hm hne hset => ?_, fun hu hm hset hr => ?_⟩
    · rw [TrapsWith, hexec, if_pos hu]
      rfl
    · rw [TrapsWith, hexec, hu, hm]
      rfl
    · rw [setOpen_iff, not_not] at hset
      rw [TrapsWith, hexec, hu, hm, if_neg Bool.false_ne_true, if_neg Bool.false_ne_true, if_pos ⟨hne, hset⟩]
      rfl
    · have hshadow : ¬ (set ≠ 0 ∧ s.here.shadows.toNat / 2 ^ (set - 1) % 2 = 0) := fun ⟨hne, hz⟩ =>
        hset.elim hne fun ho => (setOpen_iff _ _).mp ho hz
      have hchecked := hexec.trans (by
        rw [hu, hm, if_neg Bool.false_ne_true, if_neg Bool.false_ne_true, if_neg hshadow, hr, Bool.not_true, if_neg Bool.false_ne_true])
      obtain ⟨hfull, hfree⟩ := push_issues hi hchecked
      exact ⟨hfull, fun hlt => ⟨hfree hlt, engQ_pushEntry ..⟩⟩
  · obtain ⟨hh, hroom⟩ := hi
    have hexec := exec_pop hp hs hc
    rw [landingRoom_ok hroom] at hexec
    exact ⟨fun hq => issuesTo_of_ok _ hexec (issued_poppedBank_nil hh hq x y),
      fun w r hq => issuesTo_of_ok _ hexec (issued_poppedBank_cons hh hq x y)⟩

/-! ### SHADOW and RESOLVE (R137, R138) -/

section
variable {n : BitVec 3} (h1 : 1 ≤ n.toNat) (h4 : n.toNat ≤ 4)
include h1 h4

theorem setBit_eq : setBit n = (1 : BitVec 4) <<< (n.toNat - 1) := by
  revert n
  decide

theorem and_setBit_eq_zero_iff (b : Bank) : b.shadows &&& setBit n = 0 ↔ ¬ setOpen b n.toNat := by
  have h (x : BitVec 4) : x &&& setBit n = 0 ↔ ¬ x.getLsbD (n.toNat - 1) = true := by
    revert x n
    decide
  exact h b.shadows

end

/-- What a RESOLVE of an open set leaves of the bank once the MX queue has room (R138). -/
def resolvedBank (n : BitVec 3) (k : ResolveKind) (now : Nat) (b : Bank) : Bank :=
  { pushResolve b n (resolveKeeps b k) now with shadows := b.shadows &&& ~~~setBit n }

theorem exec_resolve {s : State} {n : BitVec 3} {k : ResolveKind} (hc : s.here.hasC (resolveRegs k) = true) :
    exec (.resolve n k) s = .next (conclude .S (if s.here.shadows &&& setBit n = 0 then .ok s
      else if 16 ≤ s.here.mx.length then .wait s else .ok (s.modHere (resolvedBank n k s.cycle)))) := by
  rw [show exec (.resolve n k) s = execResolve n k s from rfl, execResolve, declared_ok hc]
  rfl

/-- Settles O11: SHADOW sets the bit of its set; RESOLVE by whether the set is open and the MX queue has room. -/
theorem shadowSets : Obligations.ShadowSets := by
  refine fun s n h1 h4 _ => ⟨?_, fun k hc => ⟨fun ho => ?_, fun ho hq => ?_, fun ho hq => ⟨?_, _, rfl, rfl, rfl⟩⟩⟩
  · rw [← setBit_eq h1 h4]
    exact issuesTo_of_ok _ rfl rfl
  · refine issuesTo_of_pass ((exec_resolve hc).trans ?_)
    rw [if_pos ((and_setBit_eq_zero_iff h1 h4 _).mpr ho)]
  · refine issuesTo_of_wait ((exec_resolve hc).trans ?_) rfl
    rw [if_neg ((and_setBit_eq_zero_iff h1 h4 _).not_left.mpr ho), if_pos hq]
  · rw [← setBit_eq h1 h4]
    refine issuesTo_of_ok (u := .S) (resolvedBank n k s.cycle) ((exec_resolve hc).trans ?_) (by cases k <;> rfl)
    rw [if_neg ((and_setBit_eq_zero_iff h1 h4 _).not_left.mpr ho), if_neg (Nat.not_le.mpr hq)]

end Sys2Proof
end

section
/-! Synchronisation: FENCE, PHASE and WAITC (R102, R122, R139 to R141). -/

namespace Sys2Proof

open Machine

/-! ### Attempts that change the bank and wait -/

/-- What an attempt that changes the bank and waits leaves, beside what it had changed itself. -/
theorem onlyBank_conclude_wait_modHere (u : UnitId) (r : State) (f : Bank → Bank) :
    OnlyBank r (conclude u (.wait (r.modHere f))) ((f r.here).stalled u false) := by
  refine ⟨rfl, fun k => ?_⟩
  by_cases hk : k = r.cur
  · simp [hk, conclude, State.modHere, State.here]
  · simp [hk, Ne.symm hk, conclude, State.modHere]

theorem here_conclude_wait (u : UnitId) (s : State) : (conclude u (.wait s)).here = s.here.stalled u false := by
  simp [conclude, State.here]

theorem here_conclude_ok (u : UnitId) (s : State) : (conclude u (.ok s)).here = s.here.issued u := by
  simp [conclude, State.here]

theorem group_conclude_wait (u : UnitId) (s : State) (k : Nat) : (conclude u (.wait s)).group k = s.group k := rfl

theorem group_conclude_ok (u : UnitId) (s : State) (k : Nat) : (conclude u (.ok s)).group k = s.group k := rfl

theorem mem_conclude_wait (u : UnitId) (s : State) : (conclude u (.wait s)).mem = s.mem := rfl

theorem mem_conclude_ok (u : UnitId) (s : State) : (conclude u (.ok s)).mem = s.mem := rfl

theorem sWait_stalled (b : Bank) (u : UnitId) (counts : Bool) : (b.stalled u counts).sWait = b.sWait := by
  unfold Bank.stalled
  split <;> cases u <;> rfl
theorem sQueue_stalled (b : Bank) (u : UnitId) (counts : Bool) : (b.stalled u counts).sQueue = b.sQueue := by
  unfold Bank.stalled
  split <;> cases u <;> rfl
theorem pend_stalled (b : Bank) (u : UnitId) (counts : Bool) : (b.stalled u counts).pend = b.pend := by
  unfold Bank.stalled
  split <;> cases u <;> rfl

theorem sWait_issued (b : Bank) : (b.issued .S).sWait = b.sWait :=
  proj_issued Bank.sWait .S land_sWait (fun _ _ => rfl) (fun _ _ => rfl) b
theorem sQueue_issued (b : Bank) : (b.issued .S).sQueue = b.sQueue.tail :=
  proj_issued Bank.sQueue .S land_sQueue (fun _ _ => rfl) (fun _ _ => rfl) b
theorem pend_issued (b : Bank) : (b.issued .S).pend = b.pend :=
  proj_issued Bank.pend .S land_pend (fun _ _ => rfl) (fun _ _ => rfl) b

/-! ### FENCE (R139) -/

theorem fence_releases {s : State} {g : BitVec 2} (hm : memberOf s s.cur g = true) (hr : releaseReady s.here = true) :
    let r := phaseRelease s s.cur (s.group (groupIndex s s.cur g)).level.toNat
    ∃ t, exec (.fence g) s = .next t ∧ OnlyBank r t (r.here.issued .S) := by
  intro r
  refine ⟨_, ?_, onlyBank_conclude_ok .S r⟩
  rw [show exec (.fence g) s = execFence g s from rfl, execFence, declared_ok hm, if_pos hr]
  rfl

/-! ### Arrival at a barrier (R54, R139) -/

/-- An arrival changes the group table and what is kept of the other package's freezes. -/
theorem arrive_eq (s : State) (gi : Nat) : ∃ gt pf, arrive s gi = { s with gt := gt, pairFreezes := pf } := by
  unfold arrive
  dsimp only
  split
  · exact ⟨_, _, rfl⟩
  · exact ⟨_, _, rfl⟩

theorem group_arrive_last {s : State} {gi : Nat} (h : (s.group gi).arrived.toNat + 1 = (s.group gi).expect.toNat) :
    (arrive s gi).group gi = { s.group gi with gen := !(s.group gi).gen, arrived := 0, since := 0 } := by
  unfold arrive
  dsimp only
  rw [if_pos h]
  exact (group_setGroup ..).trans (if_pos rfl)

theorem group_arrive_early {s : State} {gi : Nat} (h : (s.group gi).arrived.toNat + 1 ≠ (s.group gi).expect.toNat) :
    ∃ since, (arrive s gi).group gi = { s.group gi with arrived := (s.group gi).arrived + 1, since := since } := by
  unfold arrive
  dsimp only
  rw [if_neg h]
  exact ⟨_, (group_setGroup ..).trans (if_pos rfl)⟩

/-! ### PHASE (R139, R141) -/

section
variable {t : State} {g : BitVec 2} {gen : Bool} (hw : t.here.sWait = .arrived gen)
include hw

theorem phaseAfter_waits (h : (t.group (groupIndex t t.cur g)).gen = gen) : phaseAfter t g = .wait t := by
  simp only [phaseAfter, hw, h, if_true]

theorem phaseAfter_completes (h : (t.group (groupIndex t t.cur g)).gen ≠ gen) (hp : pendingOf t.here g = none) :
    phaseAfter t g = .ok (setSWait t .idle) := by
  simp only [phaseAfter, hw, if_neg h, hp]
  rfl

end

/-- The state in which a PHASE has made its release and its arrival and begins to wait (R139). -/
def phaseArrived (s : State) (g : BitVec 2) : State :=
  let gi := groupIndex s s.cur g
  setSWait (arrive (phaseRelease s s.cur (s.group gi).level.toNat) gi) (.arrived (s.group gi).gen)

section
variable (s : State) (g : BitVec 2)

theorem here_phaseArrived : (phaseArrived s g).here =
    { s.here with pend := [], under := [], sWait := .arrived (s.group (groupIndex s s.cur g)).gen } := by
  obtain ⟨gt, pf, harrive⟩ := arrive_eq (phaseRelease s s.cur (s.group (groupIndex s s.cur g)).level.toNat) (groupIndex s s.cur g)
  rw [phaseArrived, harrive, setSWait, here_modHere]
  exact congrArg (fun b : Bank => { b with sWait := .arrived (s.group (groupIndex s s.cur g)).gen }) (here_phaseRelease s _)

theorem groupIndex_phaseArrived : groupIndex (phaseArrived s g) (phaseArrived s g).cur g = groupIndex s s.cur g := by
  obtain ⟨gt, pf, harrive⟩ := arrive_eq (phaseRelease s s.cur (s.group (groupIndex s s.cur g)).level.toNat) (groupIndex s s.cur g)
  rw [phaseArrived, harrive, setSWait]
  exact congrArg₂ (fun r c => bitsOf (r c).gidx.toNat _ _) (funext (row_phaseRelease s s.cur _)) (cur_phaseRelease s s.cur _)

theorem mem_phaseArrived : (phaseArrived s g).mem = (phaseRelease s s.cur (s.group (groupIndex s s.cur g)).level.toNat).mem := by
  obtain ⟨gt, pf, harrive⟩ := arrive_eq (phaseRelease s s.cur (s.group (groupIndex s s.cur g)).level.toNat) (groupIndex s s.cur g)
  rw [phaseArrived, harrive]
  rfl

theorem group_phaseArrived : (phaseArrived s g).group (groupIndex s s.cur g) =
    (arrive (phaseRelease s s.cur (s.group (groupIndex s s.cur g)).level.toNat) (groupIndex s s.cur g)).group (groupIndex s s.cur g) := rfl

variable {s g} (hm : memberOf s s.cur g = true)
include hm

theorem exec_phase_first (hr : releaseReady s.here = true) (hw : s.here.sWait = .idle) :
    exec (.phase g) s = .next (conclude .S (phaseAfter (phaseArrived s g) g)) := by
  rw [show exec (.phase g) s = execPhase g s from rfl, execPhase, declared_ok hm]
  dsimp only
  rw [if_pos hw, if_pos hr]
  rfl

theorem exec_phase_arrived {gen : Bool} (hw : s.here.sWait = .arrived gen) :
    exec (.phase g) s = .next (conclude .S (phaseAfter s g)) := by
  rw [show exec (.phase g) s = execPhase g s from rfl, execPhase, declared_ok hm]
  dsimp only
  rw [if_neg (by rw [hw]; exact SWait.noConfusion)]

end

/-- Settles O15: FENCE is a release that issues; PHASE by whether its arrival, or another's, is the last. -/
theorem phaseAndFence : Obligations.PhaseAndFence := by
  intro s g gi e
  refine ⟨fun hm => ⟨trapsWith_of_undeclared rfl hm, trapsWith_of_undeclared rfl hm⟩,
    fun hm hr => ⟨fence_releases hm hr, fun hw hlast => ?_, fun hw hlast hp => ?_⟩, fun hm gen hw => ⟨fun hgen => ?_, fun hgen hp => ?_⟩⟩
  · obtain ⟨since, hgroup⟩ := group_arrive_early (s := phaseRelease s s.cur e.level.toNat) (gi := gi) (by rwa [group_phaseRelease])
    rw [← group_phaseArrived, group_phaseRelease] at hgroup
    have hwait : phaseAfter (phaseArrived s g) g = .wait (phaseArrived s g) :=
      phaseAfter_waits (congrArg Bank.sWait (here_phaseArrived s g)) (by rw [groupIndex_phaseArrived, hgroup])
    have hexec := exec_phase_first hm hr hw
    rw [hwait] at hexec
    refine ⟨_, hexec, ?_, ?_, ?_, ?_, ?_, ?_⟩
    · rw [group_conclude_wait, hgroup]
    · rw [group_conclude_wait, hgroup]
    · rw [here_conclude_wait, sWait_stalled, here_phaseArrived]
    · rw [here_conclude_wait, sQueue_stalled, here_phaseArrived]
    · rw [here_conclude_wait, pend_stalled, here_phaseArrived]
    · rw [mem_conclude_wait, mem_phaseArrived]
  · have hgroup := group_arrive_last (s := phaseRelease s s.cur e.level.toNat) (gi := gi) (by rwa [group_phaseRelease])
    rw [← group_phaseArrived, group_phaseRelease] at hgroup
    have hpass : phaseAfter (phaseArrived s g) g = .ok (setSWait (phaseArrived s g) .idle) :=
      phaseAfter_completes (congrArg Bank.sWait (here_phaseArrived s g))
        (by rw [groupIndex_phaseArrived, hgroup]; exact Bool.not_ne_self _) (by rw [here_phaseArrived]; exact hp)
    have hexec := exec_phase_first hm hr hw
    rw [hpass] at hexec
    refine ⟨_, hexec, ?_, ?_, ?_, ?_, ?_, ?_⟩
    · rw [group_conclude_ok, setSWait, group_modHere, hgroup]
    · rw [group_conclude_ok, setSWait, group_modHere, hgroup]
    · rw [here_conclude_ok, sWait_issued, setSWait, here_modHere]
    · rw [here_conclude_ok, sQueue_issued, setSWait, here_modHere, here_phaseArrived]
    · rw [here_conclude_ok, pend_issued, setSWait, here_modHere, here_phaseArrived]
    · rw [mem_conclude_ok, setSWait, mem_modHere, mem_phaseArrived]
  · exact issuesTo_of_wait ((exec_phase_arrived hm hw).trans (by rw [phaseAfter_waits hw hgen])) rfl
  · exact issuesTo_of_ok (u := .S) (fun b => { b with sWait := .idle })
      ((exec_phase_arrived hm hw).trans (by rw [phaseAfter_completes hw hgen hp]; rfl)) rfl

end Sys2Proof
end

section
/-! WAITC, LAUNCH, the doorbell and REALIGN (R41, R43, R117, R140 to R142). -/

namespace Sys2Proof

open Machine

/-! ### WAITC (R140) -/

theorem here_touched (s : State) (l : List Seg) : (Touched s l).here = s.here := by
  obtain ⟨tlb, h⟩ := touched_tlb l s s.cur
  rw [Touched, h]
  rfl

theorem cur_touched (s : State) (l : List Seg) : (Touched s l).cur = s.cur := by
  obtain ⟨tlb, h⟩ := touched_tlb l s s.cur
  rw [Touched, h]

theorem counterAt_touched (s : State) (l : List Seg) (key : Nat) : counterAt (Touched s l) (Touched s l).cur key = counterAt s s.cur key := by
  obtain ⟨tlb, h⟩ := touched_tlb l s s.cur
  rw [Touched, h]
  rfl

/-- The checks of a WAITC and what it does at its object (R140). -/
def waitcFirst (s : State) (addr target : W64) : Attempt :=
  if addr.toNat % 16 ≠ 0 then .trap s (faultOf 0x0E addr.toNat)
  else match translate s s.cur .read true addr.toNat 8 1 with
    | .bad c v => .trap s (faultOf c v)
    | .miss v => .trap s (faultOf 0x06 v)
    | .ok l =>
      let key := match l with
        | g :: _ => locKey g.loc 0
        | [] => 0
      if !releaseReady s.here then .wait (Touched s l)
      else if target.toNat ≤ counterAt (Touched s l) (Touched s l).cur key then .ok (Touched s l)
      else .wait (setSWait (Touched s l) (.counting key target))

section
variable {s : State} {a t : BitVec 6} (hs : s.here.hasS [a, t] = true) (hw : s.here.sWait = .idle)
include hs hw

theorem exec_waitc : exec (.waitc a t) s = .next (conclude .S (waitcFirst s (s.here.sreg a) (s.here.sreg t))) := by
  rw [show exec (.waitc a t) s = execWaitc a t s from rfl, execWaitc]
  simp only [declared_ok hs, hw]
  rfl

theorem waitc_unaligned (h : (s.here.sreg a).toNat % 16 ≠ 0) : TrapsWith (.waitc a t) s .S (causeAt 0x0E (s.here.sreg a)) := by
  rw [TrapsWith, exec_waitc hs hw, waitcFirst, if_pos h]
  rfl

variable (hal : (s.here.sreg a).toNat % 16 = 0)
include hal

theorem waitc_untranslated {c v : Nat} (h : translate s s.cur .read true (s.here.sreg a).toNat 8 1 = .bad c v) :
    TrapsWith (.waitc a t) s .S (causeAt c (.ofNat 64 v)) := by
  rw [TrapsWith, exec_waitc hs hw, waitcFirst, if_neg (not_not.mpr hal), h, causeAt_ofNat]
  rfl

variable {g : Seg} {r : List Seg} (h : translate s s.cur .read true (s.here.sreg a).toNat 8 1 = .ok (g :: r))
include h

theorem waitc_unreleased (hr : releaseReady s.here = false) :
    IssuesFrom (.waitc a t) s (Touched s (g :: r)) (s.here.stalled .S false) := by
  rw [← here_touched s (g :: r)]
  refine ⟨_, (exec_waitc hs hw).trans ?_, onlyBank_conclude_wait .S _⟩
  rw [waitcFirst, if_neg (not_not.mpr hal), h, hr]
  rfl

theorem waitc_reached (hr : releaseReady s.here = true) (hc : (s.here.sreg t).toNat ≤ counterAt s s.cur (locKey g.loc 0)) :
    IssuesFrom (.waitc a t) s (Touched s (g :: r)) (Passed s .S) := by
  rw [Passed, ← here_touched s (g :: r)]
  refine ⟨_, (exec_waitc hs hw).trans ?_, onlyBank_conclude_ok .S _⟩
  rw [← counterAt_touched s (g :: r)] at hc
  rw [waitcFirst, if_neg (not_not.mpr hal), h, hr]
  dsimp only
  rw [Bool.not_true, if_neg Bool.false_ne_true, if_pos hc]

theorem waitc_holds (hr : releaseReady s.here = true) (hc : counterAt s s.cur (locKey g.loc 0) < (s.here.sreg t).toNat) :
    IssuesFrom (.waitc a t) s (Touched s (g :: r))
      (Bank.stalled { s.here with sWait := .counting (locKey g.loc 0) (s.here.sreg t) } .S false) := by
  have hb := onlyBank_conclude_wait_modHere .S (Touched s (g :: r))
    fun b => { b with sWait := .counting (locKey g.loc 0) (s.here.sreg t) }
  rw [here_touched] at hb
  refine ⟨_, (exec_waitc hs hw).trans ?_, hb⟩
  rw [← counterAt_touched s (g :: r)] at hc
  rw [waitcFirst, if_neg (not_not.mpr hal), h, hr]
  dsimp only
  rw [Bool.not_true, if_neg Bool.false_ne_true, if_neg (Nat.not_le.mpr hc)]
  rfl

end

/-! ### The completion of a waiting WAITC (R140, R141) -/

theorem exec_waitcCompletion (s : State) (row : Nat) : exec (.waitcCompletion row) s = .next (waitcComplete s row) := rfl

section
variable {s : State} {row key : Nat} {t : W64} (hrun : (s.row row).state = .running) (hf : (s.bank row).fault = none)
  (hw : (s.bank row).sWait = .counting key t)

include hw

theorem waitcComplete_counting : waitcComplete s row =
    if (s.row row).state = .running ∧ (s.bank row).fault = none ∧ t.toNat ≤ counterAt s row key then
      conclude .S (.ok (setSWait { s with cur := row } .idle))
    else { s with cur := row } := by
  have hw' : State.here { s with cur := row } = s.bank row := rfl
  rw [waitcComplete]
  simp only [hw', hw]
  rfl

include hrun hf

theorem waitcCompletion_reached (hc : t.toNat ≤ counterAt s row key) :
    IssuesFrom (.waitcCompletion row) s { s with cur := row } (Bank.issued { s.bank row with sWait := .idle } .S) := by
  refine ⟨_, (exec_waitcCompletion s row).trans (by rw [waitcComplete_counting hw, if_pos ⟨hrun, hf, hc⟩]), ?_⟩
  exact conclude_ok_modHere .S { s with cur := row } fun b => { b with sWait := .idle }

end

theorem waitcCompletion_early {s : State} {row key : Nat} {t : W64} (hw : (s.bank row).sWait = .counting key t)
    (hc : counterAt s row key < t.toNat) : exec (.waitcCompletion row) s = .next { s with cur := row } := by
  rw [exec_waitcCompletion, waitcComplete_counting hw, if_neg fun h => Nat.not_le.mpr hc h.2.2]

/-! ### LAUNCH (R43, R142) -/

section
variable {s : State} {y : BitVec 4} {n a : BitVec 6}

theorem exec_launch (hs : s.here.hasS [n, a] = true) (hc : s.here.hasC [y] = true) (hi : CanIssue s .S)
    (hr : releaseReady s.here = true) : exec (.launch y n a) s =
      .next (conclude .S (launchAfter (phaseRelease s s.cur 2) y (s.here.sreg n) (s.here.sreg a))) := by
  obtain ⟨-, hroom⟩ := hi
  rw [show exec (.launch y n a) s = execLaunch y n a s from rfl, execLaunch]
  simp only [declared_ok (ok := s.here.hasS [n, a] && s.here.hasC [y]) (by rw [hs, hc]; rfl), landingRoom_ok hroom, hr, if_true]

end

/-- The copy of a LAUNCH's record into the queue's next slot, once the queue takes one (R43). -/
def launchRecord (r : State) (y : BitVec 4) (k : Nat) (av : W64) : Attempt :=
  match translate r r.cur .read true av.toNat 256 256 with
  | .bad c v => .trap r (faultOf c v)
  | .miss v => .trap r (faultOf 0x06 v)
  | .ok l =>
    if touchesSysreg r l then .trap r (faultOf 0x07 av.toNat)
    else .ok ((submitRecord (Touched r l) k (segBytes r r.cur l) (r.row r.cur).asid).modHere fun b => b.send .S 1 [.creg y false])

section
variable {r : State} {y : BitVec 4} {qv av : W64}

theorem launchAfter_noQueue (h : 16 ≤ qv.toNat) : launchAfter r y qv av = trapWith r 0x02 := by
  rw [launchAfter]
  exact if_pos h

variable (hk : qv.toNat < 16)
include hk

theorem launchAfter_closed (h : ¬ ((r.queue qv.toNat).devfeed = true ∧ (r.queue qv.toNat).en = true)) :
    launchAfter r y qv av = trapWith r 0x07 := by
  have hclosed : (!(r.queue qv.toNat).devfeed || !(r.queue qv.toNat).en) = true := by
    rwa [← Bool.not_and, Bool.not_eq_true', ← Bool.not_eq_true, Bool.and_eq_true]
  rw [launchAfter, Nat.mod_eq_of_lt hk]
  dsimp only
  rw [if_neg (Nat.not_le.mpr hk), if_pos hclosed]

variable (hdev : (r.queue qv.toNat).devfeed = true) (hen : (r.queue qv.toNat).en = true)
include hdev hen

theorem launchAfter_enabled : launchAfter r y qv av = if av.toNat % 256 ≠ 0 then .trap r (faultOf 0x0E av.toNat)
    else if ((r.queue qv.toNat).tail - (r.queue qv.toNat).head).toNat = (r.queue qv.toNat).size then
      .ok (r.modHere fun b => b.send .S 1 [.creg y true])
    else launchRecord r y qv.toNat av := by
  rw [launchAfter, Nat.mod_eq_of_lt hk]
  dsimp only
  rw [if_neg (Nat.not_le.mpr hk), hdev, hen]
  rfl

end

/-! ### The submission of a record (R39, R43) -/

section
variable (s : State) (k : Nat) (bytes : List Byte) (asid : Asid)

theorem submitRecord_onlyMemory :
    OnlyMemory { s with lnq := (submitRecord s k bytes asid).lnq, agenda := s.agenda ++ [.event .schedulingPass] }
      (submitRecord s k bytes asid) := by
  unfold submitRecord
  dsimp only
  generalize hw : s.homeWriteBytes ((s.queue k).slotAddr (s.queue k).tail.toNat) bytes = w
  have h : OnlyMemory s w := hw ▸ onlyMemory_homeWriteBytes bytes s _
  unfold OnlyMemory at h ⊢
  cases w
  cases h
  rfl

theorem home_submitRecord (x : Nat) : (submitRecord s k bytes asid).home x =
    if (s.queue k).slotAddr (s.queue k).tail.toNat ≤ x ∧ x < (s.queue k).slotAddr (s.queue k).tail.toNat + bytes.length then
      bytes.getD (x - (s.queue k).slotAddr (s.queue k).tail.toNat) 0
    else s.home x :=
  homeBytes_write bytes s _ x

theorem queue_submitRecord (j : Nat) : (submitRecord s k bytes asid).queue j =
    if k = j then { s.queue k with tail := (s.queue k).tail + 1, sender := (s.queue k).sender ++ [((s.queue k).tail, asid)] }
    else s.queue j := by
  have hother : (s.homeWriteBytes ((s.queue k).slotAddr (s.queue k).tail.toNat) bytes).queue j = s.queue j := by
    rw [onlyMemory_homeWriteBytes bytes s]
    rfl
  rw [← hother]
  exact queue_setQueue ..

end

/-! ### The outcomes of a LAUNCH (R43, R142) -/

theorem agenda_phaseRelease (s : State) (row level : Nat) : (phaseRelease s row level).agenda = s.agenda := by
  rw [phaseRelease, endPhase, endOwners, releaseAt_eq]
  rfl

theorem agenda_touched (s : State) (l : List Seg) : (Touched s l).agenda = s.agenda := by
  obtain ⟨tlb, h⟩ := touched_tlb l s s.cur
  rw [Touched, h]

theorem home_touched (s : State) (l : List Seg) (x : Nat) : (Touched s l).home x = s.home x := by
  obtain ⟨tlb, h⟩ := touched_tlb l s s.cur
  rw [Touched, h]
  rfl

theorem queue_touched (s : State) (l : List Seg) (k : Nat) : (Touched s l).queue k = s.queue k := by
  obtain ⟨tlb, h⟩ := touched_tlb l s s.cur
  rw [Touched, h]
  rfl

/-- An attempt that sends the condition of a LAUNCH and issues. -/
theorem onlyBank_sendCondition {p : State} {b : Bank} (hp : p.here = b) (hh : b.halting = false) (y : BitVec 4) (v : Bool) :
    OnlyBank p (conclude .S (.ok (p.modHere fun b => b.send .S 1 [.creg y v]))) ((b.issued .S).setC y v) := by
  subst hp
  have h := conclude_ok_modHere .S p fun b => b.send .S 1 [.creg y v]
  rw [issued_send_one hh] at h
  exact h

section
variable {r : State} {y : BitVec 4} {k : Nat} {av : W64}

theorem launchRecord_untranslated {c v : Nat} (h : translate r r.cur .read true av.toNat 256 256 = .bad c v) :
    launchRecord r y k av = .trap r (causeAt c (.ofNat 64 v)) := by
  rw [launchRecord, h, causeAt_ofNat]

variable {l : List Seg} (h : translate r r.cur .read true av.toNat 256 256 = .ok l)
include h

theorem launchRecord_sysreg (hl : touchesSysreg r l = true) : launchRecord r y k av = .trap r (causeAt 0x07 av) := by
  rw [launchRecord, h]
  exact if_pos hl

theorem launchRecord_submits (hl : touchesSysreg r l = false) : launchRecord r y k av =
    .ok ((submitRecord (Touched r l) k (segBytes r r.cur l) (r.row r.cur).asid).modHere fun b => b.send .S 1 [.creg y false]) := by
  rw [launchRecord, h]
  exact if_neg (Bool.eq_false_iff.mp hl)

end

/-- Where the record of an accepted LAUNCH goes (R39, R43). -/
theorem submitRecord_launch {r : State} {l : List Seg} {ea : Nat} (h : translate r r.cur .read true ea 256 256 = .ok l) (k : Nat)
    (asid : Asid) :
    let q := r.queue k
    let slot := q.base.toNat * 4096 + 256 * (q.tail.toNat % 2 ^ q.sizelog.toNat)
    let p := submitRecord (Touched r l) k (segBytes r r.cur l) asid
    OnlyMemory { Touched r l with lnq := p.lnq, agenda := r.agenda ++ [.event .schedulingPass] } p ∧
    (∀ x, p.home x = if slot ≤ x ∧ x < slot + 256 then (segBytes r r.cur l).getD (x - slot) 0 else r.home x) ∧
    p.queue k = { q with tail := q.tail + 1, sender := q.sender ++ [(q.tail, asid)] } ∧
    (∀ j, j ≠ k → p.queue j = r.queue j) := by
  intro q slot p
  have hlen : (segBytes r r.cur l).length = 256 := (segBytes_len ..).trans (translate_len (by decide) h)
  refine ⟨?_, fun x => ?_, ?_, fun j hj => ?_⟩
  · rw [← agenda_touched r l]
    exact submitRecord_onlyMemory ..
  · rw [home_submitRecord, hlen, home_touched, queue_touched]
    rfl
  · rw [queue_submitRecord, if_pos rfl, queue_touched]
  · rw [queue_submitRecord, if_neg hj.symm, queue_touched]

/-! ### The doorbell (R41) -/

theorem exec_doorbell (s : State) (k : BitVec 4) (tail : BitVec 32) : exec (.doorbell k tail) s = .next (doorbellOp s k.toNat tail) := rfl

section
variable {s : State} {k : Nat} {tail : BitVec 32}

theorem doorbellOp_misuse (h : (s.queue k).devfeed = true) : doorbellOp s k tail = s.setQueue k { s.queue k with misuse := true } := by
  rw [doorbellOp]
  exact if_pos h

variable (h : (s.queue k).devfeed = false)
include h

theorem doorbellOp_overflow (hb : ¬ (1 ≤ (tail - (s.queue k).tail).toNat ∧ (tail - (s.queue k).tail).toNat ≤ (s.queue k).size ∧
    (tail - (s.queue k).head).toNat ≤ (s.queue k).size)) :
    doorbellOp s k tail = s.setQueue k { s.queue k with ovf := true } := by
  rw [doorbellOp]
  dsimp only
  rw [if_neg (Bool.eq_false_iff.mp h), if_neg hb]

theorem doorbellOp_taken (hb : 1 ≤ (tail - (s.queue k).tail).toNat ∧ (tail - (s.queue k).tail).toNat ≤ (s.queue k).size ∧
    (tail - (s.queue k).head).toNat ≤ (s.queue k).size) :
    doorbellOp s k tail = { s.setQueue k { s.queue k with tail := tail } with
      agenda := s.agenda ++ [.event (if s.devstat.pwr = 3 then .wake else .schedulingPass)] } := by
  rw [doorbellOp]
  dsimp only
  rw [if_neg (Bool.eq_false_iff.mp h), if_pos hb]
  by_cases hpwr : s.devstat.pwr = 3
  · rw [if_pos hpwr]
    exact if_pos hpwr
  · rw [if_neg hpwr]
    exact if_neg hpwr

end

/-! ### REALIGN (R117) -/

section
variable {s : State} {a t : BitVec 6} (hs : s.here.hasS [a, t] = true)
include hs

theorem exec_realign_first (hw : s.here.sWait = .idle) : exec (.realign a t) s = .next (conclude .S (
    let set := (s.here.sreg a).toNat
    if !(s.row s.cur).pinned then trapWith s 0x07
    else if set = 0 ∨ 512 ≤ set then trapWith s 0x02
    else .wait (setSWait { s with realigns := s.realigns ++ [⟨(s.here.sreg a).setWidth 9, s.here.sreg t, s.cur⟩] } (.realigning none)))) := by
  rw [show exec (.realign a t) s = execRealign a t s from rfl, execRealign]
  simp only [declared_ok hs, hw]
  rfl

theorem exec_realign_set {p : Nat} (hw : s.here.sWait = .realigning (some p)) : exec (.realign a t) s =
    .next (conclude .S (if p < s.cycle then .ok (setSWait s .idle) else .wait s)) := by
  rw [show exec (.realign a t) s = execRealign a t s from rfl, execRealign]
  simp only [declared_ok hs, hw]

theorem realign_requests (hw : s.here.sWait = .idle) (hp : (s.row s.cur).pinned = true) (hne : s.here.sreg a ≠ 0)
    (hlt : (s.here.sreg a).toNat < 512) :
    IssuesFrom (.realign a t) s { s with realigns := s.realigns ++ [⟨(s.here.sreg a).setWidth 9, s.here.sreg t, s.cur⟩] }
      (Bank.stalled { s.here with sWait := .realigning none } .S false) := by
  have hset : ¬ ((s.here.sreg a).toNat = 0 ∨ 512 ≤ (s.here.sreg a).toNat) := fun h =>
    h.elim (fun h0 => hne (BitVec.eq_of_toNat_eq h0)) (Nat.not_le.mpr hlt)
  refine ⟨_, (exec_realign_first hs hw).trans ?_, onlyBank_conclude_wait_modHere .S
    { s with realigns := s.realigns ++ [⟨(s.here.sreg a).setWidth 9, s.here.sreg t, s.cur⟩] }
    fun b => { b with sWait := .realigning none }⟩
  dsimp only
  rw [hp, Bool.not_true, if_neg Bool.false_ne_true, if_neg hset]
  rfl

end

/-- A change of one row's bank, seen by that row. -/
theorem onlyBank_modBank (s : State) (row : Nat) (f : Bank → Bank) :
    OnlyBank { s with cur := row } { s.modBank row f with cur := row } (f (s.bank row)) := by
  refine ⟨rfl, fun k => ?_⟩
  change (s.modBank row f).bank k = if k = row then f (s.bank row) else s.bank k
  rw [bank_modBank]
  simp only [eq_comm]

/-- The package once the control die has taken the oldest request (R117). -/
def realignTaken (s : State) (x : RealignReq) (rest : List RealignReq) : State :=
  { s with realigns := rest, dccSets := s.dccSets ++ [⟨s.cycle + 64, x.dies, x.count, x.row⟩] }

theorem takeRealign_eq {s : State} {x : RealignReq} {rest : List RealignReq} (h : s.realigns = x :: rest)
    (hw : (s.bank x.row).sWait = .realigning none) : takeRealign s =
      (realignTaken s x rest).modBank x.row fun b => { b with sWait := .realigning (some (s.cycle + 84)) } := by
  have hbank : State.bank { s with realigns := rest, dccSets := s.dccSets ++ [⟨s.cycle + 64, x.dies, x.count, x.row⟩] } x.row =
    s.bank x.row := rfl
  simp only [takeRealign, h, State.modBank, realignTaken, hbank, hw]

/-- The control die answers the oldest request: the counters are set 64 cycles on, and the requester waits 20 cycles more (R117). -/
theorem realignRequest_taken {s : State} {x : RealignReq} {rest : List RealignReq} (h : s.realigns = x :: rest)
    (hw : (s.bank x.row).sWait = .realigning none) : ∃ t, exec .realignRequest s = .next t ∧ OnlyBank { s with
        realigns := rest, dccSets := s.dccSets ++ [⟨s.cycle + 64, x.dies, x.count, x.row⟩], cur := x.row }
      { t with cur := x.row } { s.bank x.row with sWait := .realigning (some (s.cycle + 84)) } ∧ t.cur = s.cur := by
  have hexec : exec .realignRequest s = .next (takeRealign s) := rfl
  rw [takeRealign_eq h hw] at hexec
  exact ⟨_, hexec, onlyBank_modBank (realignTaken s x rest) x.row _, rfl⟩

/-! ### The statement -/

/-- Settles O38: each clause from the equation of its instruction or event. -/
theorem waitsLaunchAndRealign : Obligations.WaitsLaunchAndRealign := by
  refine ⟨fun s a t hs hw => ?_, fun s row key t hrun hf hw => ?_, fun s y n a hs hc hi hr => ?_, fun s k tail => ?_,
    fun s a t hs => ?_, fun s x rest h hw => realignRequest_taken h hw⟩
  · exact ⟨waitc_unaligned hs hw, fun c v hal h => waitc_untranslated hs hw hal h, fun g r hal h =>
      ⟨waitc_unreleased hs hw hal h, waitc_reached hs hw hal h, waitc_holds hs hw hal h⟩⟩
  · exact ⟨waitcCompletion_reached hrun hf hw, waitcCompletion_early hw⟩
  · intro r k q ea open_
    have hexec := exec_launch hs hc hi hr
    have hhere : r.here.halting = false := (congrArg Bank.halting (here_phaseRelease s 2)).trans hi.1
    have hcur : r.cur = s.cur := cur_phaseRelease ..
    have hopen (ho : open_) : launchAfter r y (s.here.sreg n) (s.here.sreg a) =
        if (q.tail - q.head).toNat = q.size then .ok (r.modHere fun b => b.send .S 1 [.creg y true])
        else launchRecord r y k (s.here.sreg a) := by
      obtain ⟨hk, hdev, hen, hal⟩ := ho
      rw [launchAfter_enabled hk hdev hen, if_neg (not_not.mpr hal)]
    have hroom (ho : open_) (hq : (q.tail - q.head).toNat ≠ 2 ^ q.sizelog.toNat) :
        launchAfter r y (s.here.sreg n) (s.here.sreg a) = launchRecord r y k (s.here.sreg a) := (hopen ho).trans (if_neg hq)
    refine ⟨fun hk => ?_, fun hk hclosed => ?_, fun hk hdev hen hal => ?_, fun ho hq => ?_, fun ho hq c v ht => ?_,
      fun ho hq l ht hl => ?_, fun ho hq l ht hl => ?_⟩
    · rw [hexec, launchAfter_noQueue hk]
      rfl
    · rw [hexec, launchAfter_closed hk hclosed]
      rfl
    · rw [hexec, launchAfter_enabled hk hdev hen, if_pos hal]
      rfl
    · rw [(hopen ho).trans (if_pos hq)] at hexec
      exact ⟨_, hexec, onlyBank_sendCondition rfl hhere y true⟩
    · rw [hexec, hroom ho hq, launchRecord_untranslated ht]
      rfl
    · rw [hexec, hroom ho hq, launchRecord_sysreg ht hl]
      rfl
    · obtain ⟨hmem, hhome, hqueue, hothers⟩ := submitRecord_launch ht k (r.row r.cur).asid
      rw [hroom ho hq, launchRecord_submits ht hl] at hexec
      refine ⟨_, _, ?_, hhome, ?_, hothers, hexec, onlyBank_sendCondition ?_ hhere y false⟩
      · rwa [agenda_phaseRelease] at hmem
      · rw [hqueue, hcur, row_phaseRelease]
      · rw [hmem.here]
        exact here_touched r l
  · exact ⟨fun h => congrArg _ (doorbellOp_misuse h), fun h hb => congrArg _ (doorbellOp_overflow h hb),
      fun h hb => congrArg _ (doorbellOp_taken h hb)⟩
  · refine ⟨fun hw hp => ?_, fun hw hp hset => ?_, realign_requests hs, fun p hw => ⟨fun hlt => ?_, fun hle => ?_⟩⟩
    · rw [TrapsWith, exec_realign_first hs hw, hp]
      rfl
    · have hbad : (s.here.sreg a).toNat = 0 ∨ 512 ≤ (s.here.sreg a).toNat := hset.imp_left (congrArg BitVec.toNat)
      rw [TrapsWith, exec_realign_first hs hw, hp]
      dsimp only
      rw [Bool.not_true, if_neg Bool.false_ne_true, if_pos hbad]
      rfl
    · exact issuesTo_of_ok (u := .S) (fun b => { b with sWait := .idle })
        ((exec_realign_set hs hw).trans (by rw [if_pos hlt]; rfl)) rfl
    · exact issuesTo_of_wait ((exec_realign_set hs hw).trans (by rw [if_neg (Nat.not_lt.mpr hle)])) rfl

end Sys2Proof
end

section
/-! The data queues: what the instructions of the access and the vector unit wait and trap for before they issue (R104 to R107, R225,
R239). -/

namespace Sys2Proof

open Machine

/-! ### Needs judged one after the other (R104 to R107) -/

/-- The attempt judges the needs in their order: at the first that is not met it stalls or traps as that need says. -/
def Judges (s : State) : List Need → Attempt → Prop
  | [], _ => True
  | x :: r, k => (x.met s → Judges s r k) ∧ (x.waits s → k = .queueStall s) ∧ ∀ f, x.fault s f → k = .trap s f

theorem judges_nil (s : State) (k : Attempt) : Judges s [] k := trivial

theorem Judges.at {s : State} {l r : List Need} {x : Need} {k : Attempt} (h : Judges s (l ++ x :: r) k) (hl : ∀ y ∈ l, y.met s) :
    (x.waits s → k = .queueStall s) ∧ ∀ f, x.fault s f → k = .trap s f := by
  induction l with
  | nil => exact h.2
  | cons y l ih =>
    obtain ⟨hnext, -⟩ := h
    exact ih (hnext (hl y List.mem_cons_self)) fun z hz => hl z (List.mem_cons_of_mem _ hz)

/-! ### Words of a word queue (R105, R107) -/

theorem wordsCome_iff (l : List WordEntry) (n : Nat) : wordsCome l n ↔ ((l.take n).filterMap WordEntry.val).length = n := by
  have hle : ((l.take n).filterMap WordEntry.val).length ≤ (l.take n).length := List.length_filterMap_le ..
  have htake : (l.take n).length = min n l.length := List.length_take
  constructor
  · rintro ⟨hn, hall⟩
    rw [List.filterMap_length_eq_length.mpr hall, htake, Nat.min_eq_left hn]
  · intro h
    exact ⟨by omega, List.filterMap_length_eq_length.mp (by omega)⟩

section
variable {s : State} {q : WordQ} {n : Nat} {k : List W64 → Attempt}

theorem withWords_met (h : (Need.words q n).met s) : ∃ l, withWords s q n k = k l := by
  obtain ⟨hcome, hsound⟩ := h
  refine ⟨((s.here.wordQ q).take n).filterMap WordEntry.val, ?_⟩
  rw [withWords, if_pos ((wordsCome_iff _ _).mp hcome), List.findSome?_eq_none_iff.mpr hsound]

theorem withWords_stall (hcome : ¬ wordsCome (s.here.wordQ q) n) (hfeed : s.here.pendingFeed (.word q) = true) :
    withWords s q n k = .queueStall s := by
  rw [withWords, if_neg (mt (wordsCome_iff _ _).mpr hcome), if_pos hfeed]

theorem withWords_unbound (hcome : ¬ wordsCome (s.here.wordQ q) n) (hfeed : s.here.pendingFeed (.word q) = false) :
    withWords s q n k = .trap s (causeAt 0x05 0) := by
  rw [withWords, if_neg (mt (wordsCome_iff _ _).mpr hcome), if_neg (Bool.eq_false_iff.mp hfeed)]
  rfl

theorem withWords_bad (hcome : wordsCome (s.here.wordQ q) n) {l r : List WordEntry} {e : WordEntry} {x : W64}
    (htake : (s.here.wordQ q).take n = l ++ e :: r) (hsound : ∀ d ∈ l, d.err = none) (he : e.err = some x) :
    withWords s q n k = .trap s (causeAt 0x0F x) := by
  have hfirst : ((s.here.wordQ q).take n).findSome? WordEntry.err = some x :=
    List.findSome?_eq_some_iff.mpr ⟨l, e, r, htake, he, hsound⟩
  rw [withWords, if_pos ((wordsCome_iff _ _).mp hcome), hfirst]
  rfl

variable {needs : List Need}

theorem judges_words (hk : ∀ l, Judges s needs (k l)) : Judges s (.words q n :: needs) (withWords s q n k) := by
  refine ⟨fun hmet => ?_, fun ⟨hcome, hfeed⟩ => withWords_stall hcome hfeed, fun f hf => ?_⟩
  · obtain ⟨l, hl⟩ := withWords_met (k := k) hmet
    rw [hl]
    exact hk l
  · rcases hf with ⟨hcome, l, e, r, x, htake, hsound, he, rfl⟩ | ⟨hcome, hfeed, rfl⟩
    · exact withWords_bad hcome htake hsound he
    · exact withWords_unbound hcome hfeed

end

/-- The needs of an instruction that pops `n` words of xq, if any. -/
def xqNeeds (n : Nat) : List Need := if n = 0 then [] else [.words .xq n]

theorem judges_xq {s : State} {needs : List Need} {k : List W64 → Attempt} (hk : ∀ l, Judges s needs (k l)) (n : Nat) :
    Judges s (xqNeeds n ++ needs) (withXq s n k) := by
  have h : Judges s (.words .xq n :: needs) (withXq s n k) := judges_words hk
  by_cases hn : n = 0
  · subst hn
    exact h.1 ⟨⟨Nat.zero_le _, by simp⟩, by simp⟩
  · rw [xqNeeds, if_neg hn]
    exact h

/-! ### Room at the tail of a queue (R106) -/

theorem wordRoom_full {s : State} {q : WordQ} {k : Attempt} (h : wordDepth ≤ (s.here.wordQ q).length) :
    wordRoom s q k = .queueStall s :=
  if_neg (Nat.not_lt.mpr h)

section
variable {s : State} {needs : List Need} {k : Attempt} (hk : Judges s needs k)
include hk

theorem judges_wordRoom (q : WordQ) : Judges s (.room q :: needs) (wordRoom s q k) := by
  refine ⟨fun hmet => ?_, fun hfull => wordRoom_full hfull, fun f hf => hf.elim⟩
  rw [wordRoom_ok hmet]
  exact hk

theorem judges_cqRoom : Judges s (.room .cq :: needs) (cqRoom s true k) := by
  refine ⟨fun hmet => ?_, fun hfull => ?_, fun f hf => hf.elim⟩
  · rw [cq_ok hmet]
    exact hk
  · rw [cqRoom, Bool.true_and]
    exact if_pos (decide_eq_true (show wordDepth ≤ s.here.cq.length from hfull))

theorem judges_cqRoomIf (wants : Bool) : Judges s ((if wants then [.room .cq] else []) ++ needs) (cqRoom s wants k) := by
  cases wants with
  | true => exact judges_cqRoom hk
  | false => exact hk

theorem judges_dstRoom (d : VDst) : Judges s (dstNeeds d ++ needs) (dstRoom s d k) := by
  cases d with
  | reg n => exact hk
  | sq q =>
    refine ⟨fun hmet => ?_, fun hfull => if_neg (Nat.not_lt.mpr hfull), fun f hf => hf.elim⟩
    rw [dstRoom_ok (d := .sq q) hmet]
    exact hk

theorem judges_landingRoom {u : UnitId} (hu : u ≠ .S) : Judges s needs (landingRoom s u k) := by
  rw [landingRoom_ok fun h => absurd h hu]
  exact hk

end

/-! ### Vector sources (R105, R107, R225, R239) -/

theorem headVec_eq (l : List VEntry) : headVec l = filledHead l := by
  cases l with
  | nil => rfl
  | cons e r => simp [headVec, filledHead, Option.filter]

section
variable {s : State} {q : BitVec 3} {peek : Bool} {k : VWord → Attempt}

/-- What a reader or a PEEK of a load queue meets. -/
def lqMeets (s : State) (q : BitVec 3) (peek : Bool) : LqHead := if peek then lqPeek s.here s.cycle q else lqHead s.here q

theorem withSrc_stall (h : lqMeets s q peek = .stall) : withSrc s (.lq q peek) k = .queueStall s := by
  rw [lqMeets] at h
  simp only [withSrc, h]

theorem withSrc_trap {f : FaultRec} (h : lqMeets s q peek = .trap f) : withSrc s (.lq q peek) k = .trap s f := by
  rw [lqMeets] at h
  simp only [withSrc, h]

theorem withSrc_ready {v : VWord} (h : lqMeets s q peek = .ready v) : withSrc s (.lq q peek) k = k v := by
  rw [lqMeets] at h
  simp only [withSrc, h]

theorem lqMeets_met (h : (Need.src (.lq q peek)).met s) : ∃ v, lqMeets s q peek = .ready v := by
  obtain ⟨e, he, hsound⟩ := h
  cases peek with
  | true => cases herr : e.err <;> exact ⟨_, by simp [lqMeets, lqPeek, headVec_eq, he, herr]; rfl⟩
  | false =>
    have herr : e.err = none := hsound.resolve_left Bool.false_ne_true
    exact ⟨_, by simp [lqMeets, lqHead, headVec_eq, he, herr]; rfl⟩

theorem lqMeets_waits (h : (Need.src (.lq q peek)).waits s) : lqMeets s q peek = .stall := by
  obtain ⟨he, hfeed⟩ := h
  cases peek with
  | true => simpa [lqMeets, lqPeek, headVec_eq, he, or_iff_not_imp_left] using hfeed
  | false =>
    obtain ⟨hheld, hpend⟩ := hfeed
    simp [lqMeets, lqHead, headVec_eq, he, hheld, hpend]

theorem lqMeets_fault {f : FaultRec} (h : (Need.src (.lq q peek)).fault s f) : lqMeets s q peek = .trap f := by
  rcases h with ⟨e, x, he, rfl, herr, rfl⟩ | ⟨he, rfl, hheld⟩ | ⟨he, hheld, hpend, rfl⟩
  · simp [lqMeets, lqHead, headVec_eq, he, herr, causeAt]
  · simp [lqMeets, lqHead, headVec_eq, he, hheld]
  · cases peek <;> simp [lqMeets, lqHead, lqPeek, headVec_eq, he, hheld, hpend, causeAt]

end

section
variable {s : State} {needs : List Need}

theorem judges_src {k : VWord → Attempt} (hk : ∀ v, Judges s needs (k v)) (a : VSrc) : Judges s (.src a :: needs) (withSrc s a k) := by
  cases a with
  | reg n => exact ⟨fun _ => hk _, fun h => h.elim, fun f h => h.elim⟩
  | lq q peek =>
    refine ⟨fun hmet => ?_, fun hw => withSrc_stall (lqMeets_waits hw), fun f hf => withSrc_trap (lqMeets_fault hf)⟩
    obtain ⟨v, hv⟩ := lqMeets_met hmet
    rw [withSrc_ready hv]
    exact hk v

theorem judges_srcs {k : VWord → VWord → Attempt} (hk : ∀ v w, Judges s needs (k v w)) (a b : VSrc) :
    Judges s (.src a :: .src b :: needs) (withSrcs s a b k) :=
  judges_src (fun v => judges_src (hk v) b) a

theorem judges_index {k : Nat → Attempt} (hk : ∀ n, Judges s needs (k n)) (j : IndexSrc) :
    Judges s (idxNeeds j ++ needs) (withIndex s j k) := by
  cases j with
  | imm n => exact hk _
  | xq => exact judges_words fun l => hk _

end

theorem judges_sliceWord {s : State} {needs : List Need} {k : Nat → Attempt} (hk : ∀ n, Judges s needs (k n)) :
    Judges s (.words .xq 1 :: needs) (withSlice s .xq k) :=
  judges_words fun _ => hk _

theorem judges_loadRoom {s : State} (q : BitVec 3) {k : Attempt} :
    Judges s [.load q] (if vecDepth ≤ (s.here.loadQ q).length then .queueStall s else k) :=
  ⟨fun _ => judges_nil s _, fun hfull => if_pos hfull, fun _ hf => hf.elim⟩

theorem judges_storeHead {s : State} {q : BitVec 3} {k : Attempt} (hk : filledHead (s.here.storeQ q) = none →
    k = if s.here.pendingFeed (.sq q) then .queueStall s else trapWith s 0x05) : Judges s [.head q] k := by
  refine ⟨fun _ => judges_nil s _, fun ⟨he, hfeed⟩ => ?_, fun f ⟨he, hfeed, hf⟩ => ?_⟩
  · rw [hk he, if_pos hfeed]
  · rw [hk he, hf]
    exact if_neg (Bool.eq_false_iff.mp hfeed)

/-! ### Instructions whose names are declared (R33, R94) -/

/-- The instruction's names are declared, and its unit judges its needs. -/
def JudgesNeeds (i : Instr) (s : State) (u : UnitId) (needs : List Need) : Prop :=
  ∃ k, exec i s = .next (conclude u k) ∧ Judges s needs k

section
variable {i : Instr} {s : State} {ok : Bool} {k : Attempt} {needs : List Need}

theorem judgesNeeds_V (h : exec i s = vIssue (declared s ok k)) (hok : ok = true) (hk : Judges s needs k) :
    JudgesNeeds i s .V needs :=
  ⟨k, by rw [h, declared_ok hok]; rfl, hk⟩

theorem judgesNeeds_landing (h : exec i s = vIssue (declared s ok (landingRoom s .V k))) (hok : ok = true) (hk : Judges s needs k) :
    JudgesNeeds i s .V needs :=
  judgesNeeds_V h hok (judges_landingRoom hk (by decide))

theorem judgesNeeds_A (hs : NoHeldStore s) (h : exec i s = aIssue s (declared s ok k)) (hok : ok = true) (hk : Judges s needs k) :
    JudgesNeeds i s .A needs :=
  ⟨k, by rw [h, aIssue_ok hs, declared_ok hok], hk⟩

end

end Sys2Proof
end

section
/-! The needs of each instruction of the access and the vector unit (R104 to R107). -/

namespace Sys2Proof

open Machine

/-! ### Shapes of vector instructions -/

theorem judges_lastSrc {s : State} (a : VSrc) {k : VWord → Attempt} : Judges s [.src a] (withSrc s a k) :=
  judges_src (fun _ => judges_nil s _) a

theorem judges_lastSrcs {s : State} (a b : VSrc) {k : VWord → VWord → Attempt} : Judges s [.src a, .src b] (withSrcs s a b k) :=
  judges_srcs (fun _ _ => judges_nil s _) a b

theorem judges_lastWords {s : State} (q : WordQ) (n : Nat) {k : List W64 → Attempt} : Judges s [.words q n] (withWords s q n k) :=
  judges_words fun _ => judges_nil s _

section
variable {i : Instr} {s : State} {ok : Bool}

theorem judgesNeeds_dst {d : VDst} {k : Attempt} {needs : List Need}
    (h : exec i s = vIssue (declared s ok (landingRoom s .V (dstRoom s d k)))) (hok : ok = true) (hk : Judges s needs k) :
    JudgesNeeds i s .V (dstNeeds d ++ needs) :=
  judgesNeeds_landing h hok (judges_dstRoom hk d)

theorem judgesNeeds_shift {d : VDst} {a : VSrc} {c : ShiftCount} {m : BitVec 6} {t : ElemType} {f : Nat → Nat → Nat → Nat}
    (h : exec i s = vShift s d a c m t f) (hn : (vecNames d (a :: countSrcs c) [m]).within s = true) :
    JudgesNeeds i s .V (dstNeeds d ++ (a :: countSrcs c).map .src) := by
  cases c with
  | imm x => exact judgesNeeds_dst h (by simpa [vecNames_within, countSrcs] using hn) (judges_lastSrc a)
  | src b => exact judgesNeeds_dst h (by simpa [vecNames_within, countSrcs, and_assoc] using hn) (judges_lastSrcs a b)

theorem judgesNeeds_reduce {d : RedDst} {a : VSrc} {m : BitVec 6} {t : ElemType} {w : Nat} {sg : Bool} {sup : Nat} {pre : Nat → Nat}
    {f : Mode → Nat → Nat → Nat} (h : exec i s = vReduce s d a m t w sg sup pre f)
    (hn : Names.within { v := redNames d ++ srcNames a, m := [m] } s = true) :
    JudgesNeeds i s .V ((if redCq d then [.room .cq] else []) ++ [.src a]) :=
  judgesNeeds_landing h (by simpa [namesWithin_eq] using hn) (judges_cqRoomIf (judges_lastSrc a) (redCq d))

/-- A permute by an index group of several registers cannot take its indices from a queue (R199). -/
theorem judgesNeeds_permute {d : VDst} {a b : VSrc} {cs vs : List Nat} {m : BitVec 6} {t : ElemType} {f : VWord → Bank → Nat → Nat}
    (h : exec i s = vPermute s d a b cs m t f) (hw : permOk a b t = true)
    (hvs : vs = dstNames d ++ srcNames a ++ sourceNames t.indexGroup b ++ cs) (hn : Names.within { v := vs, m := [m] } s = true) :
    JudgesNeeds i s .V (dstNeeds d ++ [.src a, .src b]) := by
  simp only [permOk, Bool.and_eq_true, Bool.or_eq_true, decide_eq_true_eq] at hw
  obtain ⟨⟨-, hreg⟩, -⟩ := hw
  refine judgesNeeds_dst h ?_ (judges_lastSrcs a b)
  simpa [namesWithin_eq, hvs, hasV_sourceNames hreg.symm, and_assoc] using hn

theorem judgesNeeds_atomic {op : AtomicOp} {a : BitVec 5} {w8 : Bool} (hs : NoHeldStore s) (h : exec i s = atomicIssue s op a w8)
    (hn : Names.within { a := [a] } s = true) {n : Nat} (hc : (if op = .cas then 2 else 1) = n) :
    JudgesNeeds i s .A [.room .rq, .words .ssq n] :=
  hc ▸ judgesNeeds_A hs h (by simpa [namesWithin_eq] using hn) (judges_wordRoom (judges_lastWords .ssq _) .rq)

/-- Neither side of a conversion that takes several registers is a queue (R191). -/
theorem judgesNeeds_convert {d : VDst} {a : VSrc} {m : BitVec 6} {t u : ElemType} {words : Nat} {f : Mode → List W64 → Nat → Nat}
    (h : exec i s = vConvert s d a m t u words f) (hw : convOk d a t u = true) (hn : (convertNames d a m t u).within s = true) :
    JudgesNeeds i s .V (dstNeeds d ++ (xqNeeds words ++ [.src a])) := by
  refine judgesNeeds_dst h ?_ (judges_xq (fun _ => judges_lastSrc a) words)
  simp only [convOk, Bool.and_eq_true] at hw
  obtain ⟨-, hside⟩ := hw
  rcases lt_trichotomy t.width u.width with hlt | heq | hgt
  · have hk : widthRatio t.width u.width = u.width / t.width := by rw [widthRatio, max_eq_right hlt.le, min_eq_left hlt.le]
    simp only [hlt, hlt.not_gt, if_true, if_false, Bool.and_eq_true] at hside
    simpa [convertNames, namesWithin_eq, hlt.ne, hlt.not_gt, hk, hasV_sourceNames (.inr hside.1), and_comm] using hn
  · simpa [convertNames, vecNames_within, heq, widthRatio_self, and_comm] using hn
  · have hk : widthRatio t.width u.width = t.width / u.width := by rw [widthRatio, max_eq_left hgt.le, min_eq_right hgt.le]
    simp only [hgt, if_true, Bool.and_eq_true] at hside
    simpa [convertNames, namesWithin_eq, hgt.ne', hgt, hk, hasV_targetNames hside.1, and_comm] using hn

end

/-! ### Every instruction that waits for data queues -/

section
variable {i : Instr} {s : State} {needs : List Need} (h : needsOf i = some needs)
  (hn : ∀ u n, namesOf i = some (u, n) → n.within s = true)
include h hn

theorem judgesNeeds_elementwise (he : elementwise i ≠ none) : JudgesNeeds i s (needUnit i) needs := by
  cases i
  case vneg | vabs | vnot | vclz | vpopc | vmov | vexp2 | vlog2 | vrcp | vrsq | vsqrt | vtanh | vsigm | vexpm =>
    cases h
    exact judgesNeeds_dst rfl (by simpa [vecNames_within] using hn _ _ rfl) (judges_lastSrc _)
  case vadd | vsub | vmul | vmin | vmax | vadds | vsubs | vmulh | vavg | vand | vor | vxor | vandn | vscale =>
    cases h
    exact judgesNeeds_dst rfl (by simpa [vecNames_within, and_assoc] using hn _ _ rfl) (judges_lastSrcs _ _)
  case vfma | vfms | vfnma =>
    cases h
    exact judgesNeeds_dst rfl (by simpa [vecNames_within, Bank.hasSrc, and_assoc] using hn _ _ rfl)
      (judges_srcs (fun _ _ => judges_lastSrc _) _ _)
  case vshl | vshr | vsar =>
    cases h
    exact judgesNeeds_shift rfl (hn _ _ rfl)
  all_goals exact absurd rfl he

theorem judgesNeeds_access (hu : needUnit i = .A) (hs : NoHeldStore s) : JudgesNeeds i s (needUnit i) needs := by
  cases i
  case aget =>
    cases h
    exact judgesNeeds_A hs rfl (by simpa [namesWithin_eq] using hn _ _ rfl) (judges_landingRoom (judges_lastWords .aq 1) (by decide))
  case ldv =>
    cases h
    exact judgesNeeds_A hs rfl (by simpa [namesWithin_eq] using hn _ _ rfl)
      (judges_landingRoom (judges_loadRoom _) (by decide))
  case stv =>
    cases h
    exact judgesNeeds_A hs rfl (by simpa [namesWithin_eq] using hn _ _ rfl)
      (judges_landingRoom (judges_storeHead fun he => by simp only [headVec_eq, he]) (by decide))
  case lds | sstat =>
    cases h
    exact judgesNeeds_A hs rfl (by simpa [namesWithin_eq] using hn _ _ rfl) (judges_wordRoom (judges_nil s _) .rq)
  case sts =>
    cases h
    exact judgesNeeds_A hs rfl (by simpa [namesWithin_eq] using hn _ _ rfl) (judges_lastWords .ssq 1)
  case amoadd | amoxchg | amocas | amoand | amoor =>
    cases h
    exact judgesNeeds_atomic hs rfl (hn _ _ rfl) rfl
  case amomin a w8 z | amomax a w8 z =>
    cases h
    cases z <;> exact judgesNeeds_atomic hs rfl (hn _ _ rfl) rfl
  all_goals cases hu

/-- The needs of every instruction of the access and the vector unit are judged in their order. -/
theorem judgesNeeds_of_needsOf (hw : i.wf = true) (hs : needUnit i = .A → NoHeldStore s) : JudgesNeeds i s (needUnit i) needs := by
  cases i
  case vneg | vabs | vnot | vclz | vpopc | vmov | vexp2 | vlog2 | vrcp | vrsq | vsqrt | vtanh | vsigm | vexpm | vadd | vsub | vmul | vmin |
      vmax | vadds | vsubs | vmulh | vavg | vand | vor | vxor | vandn | vscale | vfma | vfms | vfnma | vshl | vshr | vsar =>
    exact judgesNeeds_elementwise h hn (Option.some_ne_none _)
  case aget | ldv | stv | lds | sstat | sts | amoadd | amoxchg | amocas | amomin | amomax | amoand | amoor =>
    exact judgesNeeds_access h hn rfl (hs rfl)
  case vrev | vunpk4 =>
    cases h
    exact judgesNeeds_dst rfl (by simpa [vecNames_within] using hn _ _ rfl) (judges_lastSrc _)
  case vsel | vpack4 =>
    cases h
    exact judgesNeeds_dst rfl (by simpa [vecNames_within, and_assoc] using hn _ _ rfl) (judges_lastSrcs _ _)
  case vwadd | vwmul | vwfma =>
    cases h
    exact judgesNeeds_landing rfl (by simpa [namesWithin_eq, and_assoc] using hn _ _ rfl) (judges_lastSrcs _ _)
  case vcmp =>
    cases h
    exact judgesNeeds_landing rfl (by simpa [namesWithin_eq, and_comm, and_left_comm, and_assoc] using hn _ _ rfl) (judges_lastSrcs _ _)
  case vclass | vexpnd =>
    cases h
    exact judgesNeeds_landing rfl (by simpa [namesWithin_eq, and_comm, and_assoc] using hn _ _ rfl) (judges_lastSrc _)
  case vrmax d a m t =>
    cases h
    have hj := judgesNeeds_reduce (i := .vrmax d a m t) (show execVrmax d a m t s = _ from rfl) (hn _ _ rfl)
    cases d <;> exact hj
  case vrmin d a m t =>
    cases h
    have hj := judgesNeeds_reduce (i := .vrmin d a m t) (show execVrmin d a m t s = _ from rfl) (hn _ _ rfl)
    cases d <;> exact hj
  case vrsum d a m t =>
    cases h
    have hj : JudgesNeeds (.vrsum d a m t) s .V ((if redCq d then [.room .cq] else []) ++ [.src a]) := by
      cases hi : t.isInt
      · exact judgesNeeds_reduce (show execVrsum d a m t s = _ from if_neg (Bool.eq_false_iff.mp hi)) (hn _ _ rfl)
      · exact judgesNeeds_reduce (show execVrsum d a m t s = _ from if_pos hi) (hn _ _ rfl)
    cases d <;> exact hj
  case vramax d a m t =>
    cases h
    have hj : JudgesNeeds (.vramax d a m t) s .V ((if redCq d then [.room .cq] else []) ++ [.src a]) := by
      cases hi : t.isInt
      · exact judgesNeeds_reduce (show execVramax d a m t s = _ from if_neg (Bool.eq_false_iff.mp hi)) (hn _ _ rfl)
      · exact judgesNeeds_reduce (show execVramax d a m t s = _ from if_pos hi) (hn _ _ rfl)
    cases d <;> exact hj
  case vperm =>
    cases h
    exact judgesNeeds_permute rfl hw (List.append_nil _).symm (hn _ _ rfl)
  case vperme =>
    cases h
    exact judgesNeeds_permute rfl hw rfl (hn _ _ rfl)
  case vcvt d a m t u sat =>
    cases h
    exact judgesNeeds_convert (i := .vcvt d a m t u sat) (words := 0) (show execVcvt d a m t u sat s = _ from rfl)
      (Bool.and_eq_true_iff.mp hw).1 (hn _ _ rfl)
  case vcvts d a m t u =>
    cases h
    exact judgesNeeds_convert (i := .vcvts d a m t u) (words := 1) (show execVcvts d a m t u s = _ from rfl) hw (hn _ _ rfl)
  case vldi =>
    cases h
    exact List.append_nil (dstNeeds _) ▸ judgesNeeds_dst rfl (by simpa [vecNames_within] using hn _ _ rfl) (judges_nil s _)
  case vsplat =>
    cases h
    exact judgesNeeds_dst rfl (by simpa [vecNames_within] using hn _ _ rfl) (judges_lastWords .xq 1)
  case vbcast =>
    cases h
    rw [List.append_assoc]
    exact judgesNeeds_dst rfl (by simpa [vecNames_within] using hn _ _ rfl) (judges_index (fun _ => judges_lastSrc _) _)
  case vslup | vsldn =>
    cases h
    rw [List.append_assoc]
    exact judgesNeeds_dst rfl (by simpa [vecNames_within, and_assoc] using hn _ _ rfl) (judges_index (fun _ => judges_lastSrcs _ _) _)
  case vcompr =>
    cases h
    rw [List.append_assoc]
    exact judgesNeeds_dst rfl (by simpa [vecNames_within] using hn _ _ rfl) (judges_cqRoomIf (judges_lastSrc _) _)
  case vextr =>
    cases h
    exact judgesNeeds_landing rfl (by simpa [namesWithin_eq] using hn _ _ rfl) (judges_cqRoom (judges_index (fun _ => judges_lastSrc _) _))
  case vins d j m t =>
    cases j <;> cases h <;>
      exact judgesNeeds_landing rfl (by simpa [namesWithin_eq] using hn _ _ rfl) (judges_lastWords .xq _)
  case mpop | mfirst =>
    cases h
    exact judgesNeeds_landing rfl (by simpa [namesWithin_eq] using hn _ _ rfl) (judges_cqRoom (judges_nil s _))
  case mset d mode =>
    cases mode <;> cases h
    exact judgesNeeds_landing rfl (by simpa [namesWithin_eq] using hn _ _ rfl) (judges_lastWords .xq 1)
  case vsetmode mode =>
    cases mode <;> cases h
    exact ⟨_, rfl, judges_lastWords .xq 1⟩
  case tcfg =>
    cases h
    exact judgesNeeds_V rfl (by simpa [namesWithin_eq] using hn _ _ rfl) (judges_lastWords .xq 1)
  case vtrd d t j m | vtcd d t j m | vtwr d t j m | vtwc d t j m =>
    cases j <;> cases h
    exact judgesNeeds_landing rfl (by simpa [namesWithin_eq, and_assoc] using hn _ _ rfl) (judges_sliceWord fun _ => judges_nil s _)
  all_goals cases h

end

end Sys2Proof
end

section
/-! SEND and RECV on the word queues (R134). -/

namespace Sys2Proof

open Machine

/-! ### SEND and RECV (R134) -/

/-- What RECV of `d` does with the word that it pops. -/
def receivesWord (s : State) (d : BitVec 6) (q : RecvQ) (l : List W64) : Attempt :=
  .ok (s.modHere fun b => (b.popWords (recvWordQ q) 1).send .S 1 [.sreg d (l.headD 0)])

section
variable {s : State} (hs : CanIssue s .S)
include hs

theorem exec_send {a : BitVec 6} (q : SendQ) (ha : s.here.hasS [a] = true) : exec (.send q a) s = .next (conclude .S
    (wordRoom s (sendWordQ q) (.ok (s.modHere fun b =>
      (b.reserveWord (sendWordQ q)).sendQ 1 [.word (sendWordQ q) b.nextId (b.sreg a)])))) :=
  show execSend q a s = _ by rw [execSend, declared_ok ha, landingRoom_ok hs.2]

theorem exec_recv {d : BitVec 6} (q : RecvQ) (hd : s.here.hasS [d] = true) :
    exec (.recv d q) s = .next (conclude .S (withWords s (recvWordQ q) 1 (receivesWord s d q))) :=
  show execRecv d q s = _ by
    rw [execRecv, declared_ok hd, landingRoom_ok hs.2]
    rfl

end

theorem halting_setWordQ (b : Bank) (q : WordQ) (l : List WordEntry) : (b.setWordQ q l).halting = b.halting := by cases q <;> rfl

theorem popWords_one {b : Bank} {q : WordQ} {e : WordEntry} {r : List WordEntry} (h : b.wordQ q = e :: r) :
    b.popWords q 1 = b.setWordQ q r := by
  rw [Bank.popWords, h]
  rfl

/-- The words of a queue have not come while its oldest entry is absent or unfilled. -/
theorem not_wordsCome_one {l : List WordEntry} (h : l.head?.bind WordEntry.val = none) : ¬ wordsCome l 1 := by
  rintro ⟨hlen, hall⟩
  cases l with
  | nil => exact absurd hlen (by decide)
  | cons e r =>
    have he : e.val.isSome = true := hall e List.mem_cons_self
    rw [show e.val = none from h] at he
    cases he

theorem wordsCome_one {e : WordEntry} {r : List WordEntry} {w : W64} (hv : e.val = some w) : wordsCome (e :: r) 1 :=
  ⟨Nat.succ_le_succ (Nat.zero_le _), by simp [hv]⟩

/-- Settles O9: the needs of every instruction are judged in their order, and SEND and RECV are their queue's two rules each. -/
theorem dataQueues : Obligations.DataQueues := by
  refine ⟨fun i s l r x h hw hn hs hl => ?_, fun s hs => ⟨fun q a ha => ⟨fun hroom => ?_, fun hfull => ?_⟩, fun d q hd =>
    ⟨fun e r w hq hv he => ?_, fun e r w x hq hv he => ?_, fun hq hfeed => ?_, fun hq hfeed => ?_⟩⟩⟩
  · obtain ⟨k, hk, hj⟩ := judgesNeeds_of_needsOf h hn hw hs
    obtain ⟨hwait, hfault⟩ := hj.at hl
    exact ⟨fun hx => issuesTo_of_stall (hwait hx ▸ hk) rfl, fun f hf => hk.trans (by rw [hfault f hf]; rfl)⟩
  · refine issuesTo_of_ok _ ((exec_send hs q ha).trans (by rw [wordRoom_ok hroom])) ?_
    cases q <;> rfl
  · exact issuesTo_of_stall ((exec_send hs q ha).trans (by rw [wordRoom_full hfull])) rfl
  · refine issuesTo_of_ok _ ((exec_recv hs q hd).trans (by rw [withWords_one hq hv he, receivesWord])) ?_
    rw [popWords_one hq, issued_send_one ((halting_setWordQ ..).trans hs.1)]
    rfl
  · refine (exec_recv hs q hd).trans ?_
    rw [withWords_bad (l := []) (r := []) (hq ▸ wordsCome_one hv) (by rw [hq]; rfl) (by simp) he]
    rfl
  · exact issuesTo_of_stall ((exec_recv hs q hd).trans (by rw [withWords_stall (not_wordsCome_one hq) hfeed])) rfl
  · exact (exec_recv hs q hd).trans (by rw [withWords_unbound (not_wordsCome_one hq) hfeed]; rfl)

end Sys2Proof
end

section
/-! Reductions: the fixed tree over a list and over its positions, the sum of an integer VRSUM, and where the result goes (R169, R208,
R209). -/

namespace Sys2Proof

open Machine

/-! ### The fixed tree (R169) -/

/-- A level of the tree over the values `x` combines position `i` with the one half the length away. -/
theorem reduceLevel_range {β : Type} (f : β → β → β) (k : Nat) (x : Nat → β) :
    reduceLevel f ((List.range (2 ^ (k + 1))).map x) = (List.range (2 ^ k)).map fun i => f (x i) (x (i + 2 ^ k)) := by
  have hsplit : (List.range (2 ^ (k + 1))).map x =
      (List.range (2 ^ k)).map x ++ (List.range (2 ^ k)).map fun i => x (i + 2 ^ k) := by
    rw [pow_succ, Nat.mul_two, List.range_add, List.map_append, List.map_map]
    simp [Function.comp_def, Nat.add_comm]
  have hhalf : ((List.range (2 ^ (k + 1))).map x).length / 2 = ((List.range (2 ^ k)).map x).length := by
    simp [pow_succ]
  rw [reduceLevel, hhalf, hsplit, List.take_left, List.drop_left, List.zipWith_map, List.zipWith_self]

theorem reduceTree_range {β : Type} (f : β → β → β) : ∀ (k : Nat) (x : Nat → β),
    reduceTree f k ((List.range (2 ^ k)).map x) = [treeOf f k x]
  | 0, _ => rfl
  | k + 1, x => by rw [reduceTree, reduceLevel_range, reduceTree_range f k, treeOf]

/-- A map that carries one operation to another carries the tree of the one to the tree of the other. -/
theorem map_treeOf {β γ : Type} {f : β → β → β} {g : γ → γ → γ} {h : β → γ} (hfg : ∀ p q, h (f p q) = g (h p) (h q)) :
    ∀ (k : Nat) (x : Nat → β), h (treeOf f k x) = treeOf g k fun i => h (x i)
  | 0, _ => rfl
  | k + 1, x => by simp only [treeOf, map_treeOf hfg k, hfg]

/-- The tree of exact additions gives the sum. -/
theorem treeOf_add : ∀ (k : Nat) (x : Nat → Int), treeOf (· + ·) k x = ((List.range (2 ^ k)).map x).sum
  | 0, x => by simp [treeOf]
  | k + 1, x => by
    rw [treeOf, treeOf_add k, List.sum_map_add, pow_succ, Nat.mul_two, List.range_add, List.map_append, List.sum_append, List.map_map]
    simp [Function.comp_def, Nat.add_comm]

theorem wrapTo_add (w : Nat) (p q : Int) : wrapTo w (p + q) = (wrapTo w p + wrapTo w q) % 2 ^ w := by
  simp only [wrapTo_eq, BitVec.ofInt_add, BitVec.toNat_add]

/-- An integer sum modulo 2^w may be taken modulo 2^w at each combine (R208). -/
theorem treeOf_wrapTo (w k : Nat) (x : Nat → Int) :
    treeOf (fun p q => (p + q) % 2 ^ w) k (fun i => wrapTo w (x i)) =
      (BitVec.ofInt w ((List.range (2 ^ k)).map x).sum).toNat := by
  rw [← map_treeOf (wrapTo_add w), treeOf_add, wrapTo_eq]

/-- The tree of R169 is full: every type has a power of two of element positions. -/
theorem two_pow_log2_count (t : ElemType) : 2 ^ t.count.log2 = t.count := by cases t <;> decide

theorem signed_of_float (t : ElemType) : t.isInt = false → t.signed = false := by cases t <;> decide

/-! ### The destination (R209) -/

theorem redNames_ok {s : State} {d : RedDst} (h : reductionRoom s d) : s.here.hasV (redRegs d) = true := by
  cases d with
  | reg n => simpa [Bank.hasV, redRegs, reductionRoom] using h
  | regCq n => simpa [Bank.hasV, redRegs] using h.1
  | cq => rfl

theorem redCqRoom_ok {s : State} {d : RedDst} (h : reductionRoom s d) (k : Attempt) : cqRoom s (redCq d) k = k := by
  cases d with
  | reg n => rfl
  | regCq n => exact cq_ok h.2 k
  | cq => exact cq_ok h k

theorem putRed_issued {s : State} {c : Bank} (hc : c.headEntry .V = s.here.headEntry .V) (d : RedDst) {w : Nat} (hw : 0 < w)
    (hw64 : w ≤ 64) (code : Nat) (signed : Bool) :
    (c.putRed d w code signed).issued .V = ReductionTo s c d w signed (code % 2 ^ w) := by
  have hreg : ∀ n, physReg (c.headEntry .V).rb n = physical s n := fun n => by rw [hc, physical_eq]
  have hword := codeWord_eq signed hw (Nat.mod_lt code (Nat.two_pow_pos w)) hw64
  cases d <;>
    simp only [Bank.putRed, ReductionTo, Bank.putCq, Bank.sendQ, Bank.send, CqTo, WithFlight, hreg, hword, List.cons_ne_nil, if_false] <;>
    rfl

/-! ### A reduction (R208) -/

/-- The tree combines the prepared elements of the active positions and the value supplied at the others. -/
theorem reduceTree_inputs (s : State) (m : BitVec 6) (t : ElemType) (v : VWord) (pre : Nat → Nat) (sup : Nat) (g : Nat → Nat → Nat) :
    (reduceTree g t.count.log2
        (List.zipWith (fun c on => if on = true then pre c else sup) (elems t v) (activeOf (s.here.mreg m) t.count))).headD 0 =
      treeOf g t.count.log2 fun j => if governs s m j then pre (elemAt t.width v j) else sup := by
  have hinputs : List.zipWith (fun c on => if on = true then pre c else sup) (elems t v) (activeOf (s.here.mreg m) t.count) =
      (List.range (2 ^ t.count.log2)).map fun j => if governs s m j then pre (elemAt t.width v j) else sup := by
    rw [elems, activeOf, List.zipWith_map, List.zipWith_self, two_pow_log2_count]
    rfl
  rw [hinputs, reduceTree_range, List.headD_cons]

section
variable {s : State} {i : Instr} {d : RedDst} {a : VSrc} {m : BitVec 6} {t : ElemType} {v : VWord} {w r : Nat} {signed : Bool}
  (hs : CanIssue s .V) (hm : s.here.hasM [m] = true) (ha : s.here.hasSrc a = true) (hv : sourceValue s a = some v)
  (hd : reductionRoom s d)
include hs hm ha hv hd

theorem issuesTo_reduce {sup : Nat} {pre : Nat → Nat} {f : Mode → Nat → Nat → Nat}
    (h : exec i s = vReduce s d a m t w signed sup pre f) (hw : 0 < w) (hw64 : w ≤ 64)
    (hr : treeOf (f s.here.mode) t.count.log2 (fun j => if governs s m j then pre (elemAt t.width v j) else sup) = r) :
    IssuesTo i s (ReductionTo s (Popped s.here [a]) d w signed (r % 2 ^ w)) := by
  rw [vReduce, vIssue, declared_ok (by rw [redNames_ok hd, ha, hm]; rfl), landingRoom_ok hs.2, redCqRoom_ok hd, withSrc_ok hv] at h
  refine issuesTo_of_ok _ h ?_
  dsimp only
  rw [reduceTree_inputs, hr, putRed_issued (headEntry_popSrc _ _) d hw hw64, popped_one]

/-- VRSUM: f32 additions for a floating type, the sum modulo 2^32 for an integer type. -/
theorem issuesTo_vrsum (hr : reduction s.here.mode t (elemAt t.width v) (governs s m) (.vrsum d a m t) = some (w, signed, r)) :
    IssuesTo (.vrsum d a m t) s (ReductionTo s (Popped s.here [a]) d w signed (r % 2 ^ w)) := by
  have h : exec (.vrsum d a m t) s = execVrsum d a m t s := rfl
  simp only [reduction, reduction.tree, Option.some.injEq, Prod.mk.injEq] at hr
  obtain ⟨rfl, rfl, rfl⟩ := hr
  by_cases ht : t.isInt = true
  · rw [execVrsum, if_pos ht] at h
    refine issuesTo_reduce hs hm ha hv hd h (by decide) (by decide) ?_
    have hin : ∀ j, (if governs s m j then wrapTo 32 (intOf t (elemAt t.width v j)) else 0) =
        wrapTo 32 (if governs s m j then intOf t (elemAt t.width v j) else 0) := fun j => by split <;> rfl
    simp only [hin]
    rw [treeOf_wrapTo, two_pow_log2_count, if_pos ht]
  · rw [execVrsum, if_neg ht] at h
    rw [signed_of_float t (Bool.eq_false_iff.mpr ht), if_neg ht]
    exact issuesTo_reduce hs hm ha hv hd h (by decide) (by decide) rfl

/-- VRMAX and VRMIN: the choice of R181 at every combine, with `e` supplied for an integer type. -/
theorem issuesTo_choice {mx : Bool} {e : Int}
    (h : exec i s = vReduce s d a m t t.width t.signed (if t.isInt then wrapTo t.width e else nanCode t) (slotCode t)
      fun _ x y => chooseElem t mx x y)
    (hr : treeOf (chosen t mx) t.count.log2 (fun j => if governs s m j then elemAt t.width v j % 2 ^ keptBits t
      else if t.isInt then (BitVec.ofInt t.width e).toNat else nanCode t) = r) :
    IssuesTo i s (ReductionTo s (Popped s.here [a]) d t.width t.signed (r % 2 ^ t.width)) :=
  issuesTo_reduce hs hm ha hv hd h (Machine.width_pos t) (width_le t) (by simpa only [choose_table, slot_kept', wrapTo_eq] using hr)

/-- VRAMAX: the largest magnitude. -/
theorem issuesTo_vramax (hr : reduction s.here.mode t (elemAt t.width v) (governs s m) (.vramax d a m t) = some (w, signed, r)) :
    IssuesTo (.vramax d a m t) s (ReductionTo s (Popped s.here [a]) d w signed (r % 2 ^ w)) := by
  have h : exec (.vramax d a m t) s = execVramax d a m t s := rfl
  simp only [reduction, reduction.tree, Option.some.injEq, Prod.mk.injEq] at hr
  obtain ⟨rfl, rfl, rfl⟩ := hr
  by_cases ht : t.isInt = true
  · rw [execVramax, if_pos ht] at h
    rw [if_pos ht]
    exact issuesTo_reduce hs hm ha hv hd h (Machine.width_pos t) (width_le t) rfl
  · rw [execVramax, if_neg ht] at h
    rw [if_neg ht]
    refine issuesTo_reduce hs hm ha hv hd h (Machine.width_pos t) (width_le t) ?_
    simp only [choose_table, elemAbs, finish_float (Bool.eq_false_iff.mpr ht), dec]

end

/-- Settles O25: the tree over the list of inputs is the tree of R169 over the positions, and each instruction combines as R208 says. -/
theorem reductions : Obligations.Reductions := by
  rintro s i d a m t v w signed r (rfl | rfl | rfl | rfl) hr hs hm ha hv hd
  case inl => exact issuesTo_vrsum hs hm ha hv hd hr
  case inr.inr.inr => exact issuesTo_vramax hs hm ha hv hd hr
  all_goals
    simp only [reduction, reduction.tree, Option.some.injEq, Prod.mk.injEq] at hr
    obtain ⟨rfl, rfl, hr⟩ := hr
  · exact issuesTo_choice hs hm ha hv hd (show exec (.vrmax d a m t) s = execVrmax d a m t s from rfl) hr
  · exact issuesTo_choice hs hm ha hv hd (show exec (.vrmin d a m t) s = execVrmin d a m t s from rfl) hr

end Sys2Proof
end

section
/-! The elementwise vector instructions: the model's operation on one element is the table's, and each instruction maps it over the active
elements of its sources (R172 to R182, R194, R197, R210). -/

namespace Sys2Proof

open Machine

/-! ### Arithmetic (R178 to R180) -/

theorem elemAdd_table (t : ElemType) (md : Mode) (x y : Nat) : elemAdd t md x y =
    if t.isInt then elementwise.wrap t (intOf t x + intOf t y) else roundElem t md ((dec t x).add md.rm (dec t y)) :=
  fin_tab fun ht => (holdsInt_dec ht x).add _ (holdsInt_dec ht y)

theorem elemSub_table (t : ElemType) (md : Mode) (x y : Nat) : elemSub t md x y =
    if t.isInt then elementwise.wrap t (intOf t x - intOf t y) else roundElem t md ((dec t x).add md.rm (dec t y).neg) :=
  fin_tab fun ht => (holdsInt_dec ht x).add _ (holdsInt_dec ht y).neg

theorem elemMul_table (t : ElemType) (md : Mode) (x y : Nat) : elemMul t md x y =
    if t.isInt then elementwise.wrap t (intOf t x * intOf t y) else roundElem t md ((dec t x).mul (dec t y)) :=
  fin_tab fun ht => (holdsInt_dec ht x).mul (holdsInt_dec ht y)

theorem elemNeg_table (t : ElemType) (x : Nat) : elemNeg t x =
    if t.isInt then elementwise.wrap t (-intOf t x) else roundElem t Mode.rne (dec t x).neg :=
  fin_tab fun ht => (holdsInt_dec ht x).neg

theorem elemAbs_table (t : ElemType) (x : Nat) : elemAbs t x =
    if t.isInt then elementwise.wrap t |intOf t x| else roundElem t Mode.rne (dec t x).abs :=
  fin_tab fun ht => (holdsInt_dec ht x).abs

/-- A product, an addend, and their signs: an integer type wraps the exact integer, a floating type rounds once (R179). -/
theorem elemFma_table (t : ElemType) (negP negC : Bool) (md : Mode) (x y z : Nat) : elemFma t negP negC md x y z =
    if t.isInt then elementwise.wrap t
      ((if negP then -(intOf t x * intOf t y) else intOf t x * intOf t y) + (if negC then -intOf t z else intOf t z))
    else roundElem t md ((if negP then ((dec t x).mul (dec t y)).neg else (dec t x).mul (dec t y)).add md.rm
      (if negC then (dec t z).neg else dec t z)) := by
  refine fin_tab fun ht => ?_
  have hp := (holdsInt_dec ht x).mul (holdsInt_dec ht y)
  have hc := holdsInt_dec ht z
  refine HoldsInt.add md.rm ?_ ?_
  · cases negP
    · exact hp
    · exact hp.neg
  · cases negC
    · exact hc
    · exact hc.neg


/-! ### Shifts (R181) -/

theorem shlElem_table (w x c : Nat) : shlElem w x c = (BitVec.ofNat w x <<< c).toNat := by
  rw [BitVec.toNat_shiftLeft, BitVec.toNat_ofNat, Nat.shiftLeft_eq, Nat.mod_mul_mod, shlElem]
  split
  case isTrue hc => exact (Nat.mod_eq_zero_of_dvd (Dvd.dvd.mul_left (pow_dvd_pow 2 hc) x)).symm
  case isFalse => rfl

theorem shrElem_table {w x : Nat} (hx : x < 2 ^ w) (c : Nat) : shrElem w x c = (BitVec.ofNat w x >>> c).toNat := by
  rw [BitVec.toNat_ushiftRight, BitVec.toNat_ofNat, Nat.shiftRight_eq_div_pow, Nat.mod_eq_of_lt hx, shrElem]
  split
  case isTrue hc => exact (Nat.div_eq_of_lt (hx.trans_le (Nat.pow_le_pow_right (by decide) hc))).symm
  case isFalse => rfl

/-- A shift by at least the width leaves copies of the sign alone. -/
theorem ediv_two_pow_of_small {w c : Nat} {i : Int} (hlow : -2 ^ w ≤ i) (hhigh : i < 2 ^ w) (hc : w ≤ c) :
    i / 2 ^ c = if i < 0 then -1 else 0 := by
  have hpow : (2 : Int) ^ w ≤ 2 ^ c := pow_le_pow_right₀ (by decide) hc
  split
  case isTrue hneg => exact Int.ediv_eq_neg_one_of_neg_of_le hneg (by omega)
  case isFalse hpos => exact Int.ediv_eq_zero_of_lt (by omega) (by omega)

theorem sarElem_table {w x : Nat} (hw : 0 < w) (hx : x < 2 ^ w) (c : Nat) :
    sarElem w x c = ((BitVec.ofNat w x).sshiftRight c).toNat := by
  have hdiv : (BitVec.ofNat w x).toInt / 2 ^ min c w = (BitVec.ofNat w x).toInt / 2 ^ c := by
    rcases le_total c w with hc | hc
    · rw [min_eq_left hc]
    · have hhalf : (2 : Int) ^ (w - 1) ≤ 2 ^ w := pow_le_pow_right₀ (by decide) (Nat.sub_le w 1)
      have hlow := BitVec.le_toInt (BitVec.ofNat w x)
      have hhigh := BitVec.toInt_lt (x := BitVec.ofNat w x)
      rw [min_eq_right hc, ediv_two_pow_of_small (by omega) (by omega) le_rfl, ediv_two_pow_of_small (by omega) (by omega) hc]
  rw [sarElem, signedOf_toInt hw hx, hdiv, wrapTo_eq, BitVec.sshiftRight, Int.shiftRight_eq_div_pow]
  norm_cast

/-! ### Raw bits (R178, R180) and the exponent of VSCALE (R194) -/

theorem toNat_bitsOfElem {t : ElemType} {x : Nat} (hx : x < 2 ^ t.width) : (bitsOfElem t x).toNat = x := by
  rw [bitsOfElem, BitVec.toNat_ofNat, Nat.mod_eq_of_lt hx]

section
variable {t : ElemType} {x y : Nat} (hx : x < 2 ^ t.width) (hy : y < 2 ^ t.width)
include hx

theorem not_table : 2 ^ t.width - 1 - x = (~~~bitsOfElem t x).toNat := by rw [BitVec.toNat_not, toNat_bitsOfElem hx]

include hy

theorem and_table : x &&& y = (bitsOfElem t x &&& bitsOfElem t y).toNat := by
  rw [BitVec.toNat_and, toNat_bitsOfElem hx, toNat_bitsOfElem hy]

theorem or_table : x ||| y = (bitsOfElem t x ||| bitsOfElem t y).toNat := by
  rw [BitVec.toNat_or, toNat_bitsOfElem hx, toNat_bitsOfElem hy]

theorem xor_table : x ^^^ y = (bitsOfElem t x ^^^ bitsOfElem t y).toNat := by
  rw [BitVec.toNat_xor, toNat_bitsOfElem hx, toNat_bitsOfElem hy]

theorem andNot_table : x &&& (2 ^ t.width - 1 - y) = (bitsOfElem t x &&& ~~~bitsOfElem t y).toNat := by
  rw [BitVec.toNat_and, toNat_bitsOfElem hx, not_table hy]

end

theorem scaleExp_table {t : ElemType} {y : Nat} (hy : y < 2 ^ t.width) :
    scaleExp t y = signedOf (keptBits t) (y % 2 ^ keptBits t) := by
  rw [scaleExp, keptBits]
  split
  · rfl
  · rw [Nat.mod_eq_of_lt hy]

/-! ### Elementwise instructions (R176) -/

/-- The instruction sends the table's result of each active element (R172, R176). -/
def SendsElements (i : Instr) (s : State) (e : Elementwise) (vals : List VWord) : Prop :=
  SendsTo i s (Popped s.here e.srcs) e.lat e.d e.t.width e.t.count (governs s e.m)
    fun j => e.f s.here.mode (vals.map fun v => elemAt e.t.width v j) % 2 ^ keptBits e.t

section
variable {i : Instr} {s : State} {d : VDst} {a b : VSrc} {c : BitVec 8} {m : BitVec 6} {t : ElemType} {lat : Nat} {vals : List VWord}

/-- Each source gives one value. -/
theorem Ready.length_vals {srcs : List VSrc} (h : Ready s d srcs m vals) : vals.length = srcs.length := by
  obtain ⟨-, -, -, -, hvals⟩ := h
  simpa using (congrArg List.length hvals).symm

theorem sendsElements_one {f F : Mode → Nat → Nat} (h : exec i s = vMap1 s d a m t lat f) (hr : Ready s d [a] m vals)
    (hf : ∀ md x, x < 2 ^ t.width → f md x = F md x) : SendsElements i s ⟨d, [a], m, t, lat, elementwise.one F⟩ vals := by
  obtain ⟨v, rfl⟩ : ∃ v, vals = [v] := List.length_eq_one_iff.mp hr.length_vals
  exact vMap1_ok (F := fun x => F s.here.mode x % 2 ^ keptBits t) h hr fun x hx => by rw [slotCode_mod, hf _ x hx]

theorem sendsElements_two {f F : Mode → Nat → Nat → Nat} (h : exec i s = vMap2 s d a b m t lat f) (hr : Ready s d [a, b] m vals)
    (hf : ∀ md x y, x < 2 ^ t.width → y < 2 ^ t.width → f md x y = F md x y) :
    SendsElements i s ⟨d, [a, b], m, t, lat, elementwise.two F⟩ vals := by
  obtain ⟨v, w, rfl⟩ : ∃ v w, vals = [v, w] := List.length_eq_two.mp hr.length_vals
  exact vMap2_ok (F := fun x y => F s.here.mode x y % 2 ^ keptBits t) h hr fun x y hx hy => by rw [slotCode_mod, hf _ x y hx hy]

theorem sendsElements_three {f F : Mode → Nat → Nat → Nat → Nat} (h : exec i s = vMap3 s d a b c m t lat f)
    (hr : Ready s d [a, b, .reg c] m vals) (hf : ∀ md x y z, f md x y z = F md x y z) :
    SendsElements i s ⟨d, [a, b, .reg c], m, t, lat, elementwise.three F⟩ vals := by
  obtain ⟨v, w, z, rfl⟩ : ∃ v w z, vals = [v, w, z] := List.length_eq_three.mp hr.length_vals
  exact vMap3_ok (F := fun x y z => F s.here.mode x y z % 2 ^ keptBits t) h hr fun x y z => by rw [slotCode_mod, hf]

/-- A special function of f32 is rounded once in VMODE (R210). -/
theorem sendsElements_special {g : XVal → XVal} (h : exec i s = vSpecial s d a m g) (hr : Ready s d [a] m vals) :
    SendsElements i s ⟨d, [a], m, .f32, 12, elementwise.one fun md x => roundElem .f32 md (g (dec .f32 x))⟩ vals :=
  sendsElements_one (f := fun md x => roundElem .f32 md (g (dec .f32 x))) h hr fun _ _ _ => rfl

/-- An integer operation wraps its exact result (R182). -/
theorem sendsElements_intMap {g : Int → Int → Int} (h : exec i s = intMap2 s d a b m t lat g) (hr : Ready s d [a, b] m vals) :
    SendsElements i s ⟨d, [a, b], m, t, lat, elementwise.two fun _ x y => elementwise.wrap t (g (intOf t x) (intOf t y))⟩ vals :=
  sendsElements_two (f := fun _ x y => wrapTo t.width (g (intOf t x) (intOf t y))) h hr fun _ _ _ _ _ => wrapTo_eq _ _

/-- A shift takes its count from the immediate or from the elements of its second source (R181). -/
theorem sendsElements_shift {n : ShiftCount} {f : Nat → Nat → Nat → Nat} {F : Nat → Nat → Nat}
    (h : exec i s = vShift s d a n m t f) (hr : Ready s d (a :: countSrcs n) m vals)
    (hf : ∀ x c, x < 2 ^ t.width → f t.width x c = F x c) :
    SendsElements i s ⟨d, a :: countSrcs n, m, t, 2, fun _ l => F (l.headD 0) (countFrom n l.tail)⟩ vals := by
  cases n with
  | imm c =>
    have hone : exec i s = vMap1 s d a m t 2 fun _ x => f t.width x c.toNat := h
    exact sendsElements_one (F := fun _ x => F x c.toNat) hone hr fun _ x => hf x c.toNat
  | src b =>
    have htwo : exec i s = vMap2 s d a b m t 2 fun _ x c => f t.width x c := h
    exact sendsElements_two (F := fun _ x c => F x c) htwo hr fun _ x c hx _ => hf x c hx

end

/-- Settles O16: each instruction is a map over the elements of its sources, of the operation that the table gives. -/
theorem vectorElementwise : Obligations.VectorElementwise := by
  rintro i s e vals he - hr
  show SendsElements i s e vals
  cases i
  case vadd => cases he; exact sendsElements_two rfl hr fun md x y _ _ => elemAdd_table _ md x y
  case vsub => cases he; exact sendsElements_two rfl hr fun md x y _ _ => elemSub_table _ md x y
  case vmul => cases he; exact sendsElements_two rfl hr fun md x y _ _ => elemMul_table _ md x y
  case vfma => cases he; exact sendsElements_three rfl hr (elemFma_table _ false false)
  case vfms => cases he; exact sendsElements_three rfl hr (elemFma_table _ false true)
  case vfnma => cases he; exact sendsElements_three rfl hr (elemFma_table _ true false)
  case vneg d a m t => cases he; exact sendsElements_one (f := fun _ => elemNeg t) rfl hr fun _ x _ => elemNeg_table t x
  case vabs d a m t => cases he; exact sendsElements_one (f := fun _ => elemAbs t) rfl hr fun _ x _ => elemAbs_table t x
  case vmin d a b m t =>
    cases he
    exact sendsElements_two (f := fun _ => chooseElem t false) rfl hr fun _ x y _ _ => choose_table t false x y
  case vmax d a b m t =>
    cases he
    exact sendsElements_two (f := fun _ => chooseElem t true) rfl hr fun _ x y _ _ => choose_table t true x y
  case vadds d a b m t => cases he; exact sendsElements_intMap (g := fun x y => clampTo t (x + y)) rfl hr
  case vsubs d a b m t => cases he; exact sendsElements_intMap (g := fun x y => clampTo t (x - y)) rfl hr
  case vmulh d a b m t => cases he; exact sendsElements_intMap (g := fun x y => x * y / 2 ^ t.width) rfl hr
  case vavg => cases he; exact sendsElements_intMap (g := fun x y => (x + y + 1) / 2) rfl hr
  case vshl => cases he; exact sendsElements_shift rfl hr fun x c _ => shlElem_table _ x c
  case vshr => cases he; exact sendsElements_shift rfl hr fun _ c hx => shrElem_table hx c
  case vsar => cases he; exact sendsElements_shift rfl hr fun _ c hx => sarElem_table (Machine.width_pos _) hx c
  case vand => cases he; exact sendsElements_two (f := fun _ x y => x &&& y) rfl hr fun _ _ _ hx hy => and_table hx hy
  case vor => cases he; exact sendsElements_two (f := fun _ x y => x ||| y) rfl hr fun _ _ _ hx hy => or_table hx hy
  case vxor => cases he; exact sendsElements_two (f := fun _ x y => x ^^^ y) rfl hr fun _ _ _ hx hy => xor_table hx hy
  case vandn d a b m t =>
    cases he
    exact sendsElements_two (f := fun _ x y => x &&& (2 ^ t.width - 1 - y)) rfl hr fun _ _ _ hx hy => andNot_table hx hy
  case vnot d a m t => cases he; exact sendsElements_one (f := fun _ x => 2 ^ t.width - 1 - x) rfl hr fun _ x hx => not_table hx
  case vclz d a m t => cases he; exact sendsElements_one (f := fun _ => clzOf t.width) rfl hr fun _ x hx => clz_eq _ x hx
  case vpopc d a m t => cases he; exact sendsElements_one (f := fun _ => onesIn t.width) rfl hr fun _ x _ => onesIn_eq _ x
  case vscale d a b m t =>
    cases he
    exact sendsElements_two (f := fun md x y => roundElem t md ((dec t x).scale (scaleExp t y))) rfl hr fun _ _ _ _ hy => by
      rw [scaleExp_table hy]
  case vmov => cases he; exact sendsElements_one (f := fun _ x => x) rfl hr fun _ _ _ => rfl
  case vexp2 => cases he; exact sendsElements_special (g := exp2X) rfl hr
  case vlog2 => cases he; exact sendsElements_special (g := log2X) rfl hr
  case vrcp => cases he; exact sendsElements_special (g := rcpX) rfl hr
  case vrsq => cases he; exact sendsElements_special (g := rsqrtX) rfl hr
  case vsqrt => cases he; exact sendsElements_special (g := sqrtX) rfl hr
  case vtanh => cases he; exact sendsElements_special (g := tanhX) rfl hr
  case vsigm => cases he; exact sendsElements_special (g := sigmX) rfl hr
  case vexpm => cases he; exact sendsElements_special (g := expm1X) rfl hr
  all_goals cases he

end Sys2Proof
end

section
/-! The widening instructions, comparisons, mask instructions and conversions (R183 to R193). -/

namespace Sys2Proof

open Machine

/-! ### Widening (R183, R184) -/

theorem exec_of_widening {i : Instr} {x : Widening} (h : widening i = some x) (s : State) :
    exec i s = vWiden s x.d x.a x.b x.m x.t x.quad fun md => x.flt md.rm := by
  cases i
  case vwadd | vwmul | vwfma => cases h; rfl
  all_goals cases h

/-- On integers, the exact result of a widening instruction is the integer that the table names. -/
theorem holdsInt_widening {i : Instr} {x : Widening} (h : widening i = some x) (rm : Rm) {p q o : XVal} {a b c : Int}
    (hp : HoldsInt p a) (hq : HoldsInt q b) (ho : HoldsInt o c) : HoldsInt (x.flt rm p q o) (x.int a b c) := by
  cases i
  case vwadd => cases h; exact hp.add rm hq
  case vwmul => cases h; exact hp.mul hq
  case vwfma => cases h; exact (hp.mul hq).add rm ho
  all_goals cases h

/-- A widening result is finished in its type as R176 says. -/
theorem finish_widening {i : Instr} {x : Widening} {r : ElemType} (h : widening i = some x) (hr : x.t.widened x.quad = some r) (md : Mode)
    (p q o : Nat) : finish r md (x.flt md.rm (dec x.t p) (dec x.t q) (dec r o)) = x.result r md p q o := by
  refine fin_tab fun hint => ?_
  have ht : x.t.isInt = true := (widen_kinds hr).2.trans hint
  exact holdsInt_widening h md.rm (holdsInt_dec ht p) (holdsInt_dec ht q) (holdsInt_dec hint o)

/-- Settles O17: a widening instruction interleaves the finished results over its group. -/
theorem wideningInstructions : Obligations.WideningInstructions := by
  intro i s x r v w h hr k hc hd hm ha hb hv hw
  exact vWiden_ok (F := fun p q o => x.result r s.here.mode p q o % 2 ^ r.width) (exec_of_widening h s) hr hc hd hm ha hb hv hw
    fun p q o => by rw [finish_widening h hr]

/-! ### Comparisons and classes (R186, R187) -/

/-- Settles O18: the bits sent are those of the active elements below the element count. -/
theorem comparisonsAndClasses : Obligations.ComparisonsAndClasses := by
  intro s d m a t v hc hm ha hv
  refine ⟨fun cls => ?_, fun b w p hb hw => ?_⟩
  · have h : exec (.vclass d a m t cls) s = execVclass d a m t cls s := rfl
    rw [execVclass, vIssue, declared_ok (by rw [hm, ha]; rfl), landingRoom_ok hc.2, withSrc_ok hv] at h
    refine mask_send _ h (by rw [popped_one]) (count_le t) (by rw [List.length_map, length_elems]) fun j hj => ?_
    simp [elems, hj, class_eq]
  · have h : exec (.vcmp d a b m t p) s = execVcmp d a b m t p s := rfl
    rw [execVcmp, vIssue, declared_ok (by rw [hm, ha, hb]; rfl), landingRoom_ok hc.2, withSrcs, withSrc_ok hv, withSrc_ok hw] at h
    refine mask_send _ h (by rw [popped_two]) (count_le t) (by simp [length_elems]) fun j hj => ?_
    simp [elems, hj, List.getD_eq_getElem?_getD, compares_eq]

/-! ### Mask instructions (R188 to R190) -/

/-- Every mask instruction of the table writes all bits of its result. -/
theorem exec_of_maskLogic {i : Instr} {s : State} {d : BitVec 6} {src : List (BitVec 6)} {v : MWord}
    (h : maskLogic s.here i = some (d, src, v)) : ∃ f, exec i s = maskWrite s d src f ∧ f s.here = v := by
  cases i
  case mand | mor | mxor | mandn | mnot | mmov => cases h; exact ⟨_, rfl, rfl⟩
  case mset d mode =>
    cases mode with
    | zero | ones => cases h; exact ⟨_, rfl, rfl⟩
    | xq => cases h
  all_goals cases h

theorem issuesTo_maskWrite {i : Instr} {s : State} {d : BitVec 6} {src : List (BitVec 6)} {f : Bank → MWord}
    (h : exec i s = maskWrite s d src f) (hc : CanIssue s .V) (hm : s.here.hasM (d :: src) = true) :
    IssuesTo i s (MaskTo s.here d (f s.here) (BitVec.allOnes 1024)) := by
  rw [maskWrite, vIssue, declared_ok hm, landingRoom_ok hc.2] at h
  exact issuesTo_of_ok _ h rfl

theorem issuesTo_mset_xq {s : State} {d : BitVec 6} {w : W64} {r : List WordEntry} (hc : CanIssue s .V) (hd : s.here.hasM [d] = true)
    (hx : xqHead s w r) : IssuesTo (.mset d .xq) s (MaskTo { s.here with xq := r } d (tailMask w) (BitVec.allOnes 1024)) := by
  have h : exec (.mset d .xq) s = execMset d .xq s := rfl
  rw [execMset, vIssue, declared_ok hd, landingRoom_ok hc.2, xq_ok hx] at h
  exact issuesTo_of_ok _ h (by rw [xq_pop hx]; rfl)

/-- The places of the set bits below the element count of a type. -/
def setPlaces (b : Bank) (a : BitVec 6) (t : ElemType) : List Nat := (List.range t.count).filter fun j => (b.mreg a).getLsbD j

theorem testBit_maskBits (b : Bank) (a : BitVec 6) (t : ElemType) (j : Nat) :
    (maskBits b a t).testBit j = (decide (j < t.count) && (b.mreg a).getLsbD j) := by
  rw [maskBits, Nat.testBit_mod_two_pow, BitVec.testBit_toNat]

theorem filter_range_below {n l : Nat} (h : n ≤ l) (p : Nat → Bool) :
    (List.range l).filter (fun j => decide (j < n) && p j) = (List.range n).filter p := by
  obtain ⟨k, rfl⟩ := Nat.exists_eq_add_of_le h
  have hlow : (List.range n).filter (fun j => decide (j < n) && p j) = (List.range n).filter p :=
    List.filter_congr fun j hj => by simp [List.mem_range.mp hj]
  have hhigh : ((List.range k).map (n + ·)).filter (fun j => decide (j < n) && p j) = [] :=
    List.filter_eq_nil_iff.mpr fun j hj => by
      obtain ⟨i, -, rfl⟩ := List.mem_map.mp hj
      simp
  rw [List.range_add, List.filter_append, hlow, hhigh, List.append_nil]

theorem filter_maskBits (b : Bank) (a : BitVec 6) (t : ElemType) :
    (List.range 1024).filter (fun j => (maskBits b a t).testBit j) = setPlaces b a t := by
  simp only [testBit_maskBits]
  exact filter_range_below (count_le t) _

theorem onesIn_maskBits (b : Bank) (a : BitVec 6) (t : ElemType) : onesIn 1024 (maskBits b a t) = (setPlaces b a t).length := by
  rw [onesIn_eq, List.count_eq_countP, List.countP_map, List.countP_eq_length_filter, ← filter_maskBits]
  simp [Function.comp_def]

theorem maskBits_of_noPlace {b : Bank} {a : BitVec 6} {t : ElemType} (h : setPlaces b a t = []) : maskBits b a t = 0 := by
  refine Nat.eq_of_testBit_eq fun j => ?_
  rw [testBit_maskBits, Nat.zero_testBit]
  by_cases hj : j < t.count
  · simpa using fun _ => List.filter_eq_nil_iff.mp h j (List.mem_range.mpr hj)
  · simp [hj]

section
variable {b : Bank} {a : BitVec 6} {t : ElemType} {j : Nat} {r : List Nat} (h : setPlaces b a t = j :: r)
include h

theorem ctzFrom_maskBits : ctzFrom 1024 (maskBits b a t) = j :=
  ctz_filter 1024 _ _ (fun _ _ => rfl) j r ((filter_maskBits b a t).trans h)

theorem maskBits_ne_zero : maskBits b a t ≠ 0 := fun h0 => by
  have hnone := filter_maskBits b a t
  simp [h0, h] at hnone

end

theorem issuesTo_maskToCq {i : Instr} {s : State} {a : BitVec 6} {t : ElemType} {f : Nat → W64} (h : exec i s = maskToCq s a t f)
    (hc : CanIssue s .V) (ha : s.here.hasM [a] = true) (hroom : s.here.cq.length < 16) :
    IssuesTo i s (CqTo s.here 2 (f (maskBits s.here a t))) := by
  rw [maskToCq, vIssue, declared_ok ha, landingRoom_ok hc.2, cq_ok hroom] at h
  exact issuesTo_of_ok _ h rfl

/-- Settles O19: the words of MPOP and MFIRST are those of the places of the set bits below the element count. -/
theorem maskInstructions : Obligations.MaskInstructions := by
  intro s hc
  refine ⟨fun i d src v h hm => ?_, fun d w r hd hx => ⟨_, issuesTo_mset_xq hc hd hx, fun j hj => tailMask_bit w j hj⟩,
    fun a t ha hroom => ⟨?_, ?_⟩⟩
  · obtain ⟨f, hexec, rfl⟩ := exec_of_maskLogic h
    exact issuesTo_maskWrite hexec hc hm
  · have h := issuesTo_maskToCq (show exec (.mpop a t) s = execMpop a t s from rfl) hc ha hroom
    rw [onesIn_maskBits] at h
    exact h
  · have h := issuesTo_maskToCq (show exec (.mfirst a t) s = execMfirst a t s from rfl) hc ha hroom
    split
    next hset =>
      rw [maskBits_of_noPlace hset, if_pos rfl] at h
      exact h
    next hset =>
      rw [if_neg (maskBits_ne_zero hset), ctzFrom_maskBits hset] at h
      exact h

/-! ### Conversions (R191 to R193) -/

/-- Settles O20: VCVT pops no word of xq and VCVTS one, whose low half is the scale. -/
theorem conversions : Obligations.Conversions := by
  rintro s i d a m t src c f v hwf (⟨sat, rfl, rfl, rfl⟩ | ⟨rfl, w, r, hx, rfl, rfl⟩) hc hm hd ha hv
  · have h : exec (.vcvt d a m t src sat) s = execVcvt d a m t src sat s := rfl
    obtain ⟨hok, -⟩ := Bool.and_eq_true_iff.mp hwf
    exact conv_ok h hok (ws := []) (fun _ => rfl) rfl (fun _ => rfl) hc hm hd ha hv rfl
  · have h : exec (.vcvts d a m t src) s = execVcvts d a m t src s := rfl
    exact conv_ok h hwf (xq_ok hx) (xq_pop hx) (fun _ => rfl) hc hm hd ha hv rfl

end Sys2Proof
end

section
/-! Moves of raw elements, permutes, slides, the reversal, VCOMPR and VEXPND (R195 to R203). -/

namespace Sys2Proof

open Machine

/-! ### Attempts whose operands are declared (R33, R106) -/

section
variable {s : State} {ok : Bool} {k : Attempt}

theorem vIssue_landing (hok : ok = true) : vIssue (declared s ok (landingRoom s .V k)) = .next (conclude .V k) := by
  rw [declared_ok hok, landingRoom_ok (by simp), vIssue]

theorem vIssue_dst {d : VDst} (hok : ok = true) (hd : canTake s d) :
    vIssue (declared s ok (landingRoom s .V (dstRoom s d k))) = .next (conclude .V k) := by
  rw [vIssue_landing hok, dstRoom_ok hd]

end

/-! ### Raw elements (R195) -/

theorem elemOr0_mod (t : ElemType) (v : VWord) (j : Nat) : elemOr0 t v j % 2 ^ t.width = rawElem t v j := by
  rw [elemOr0_eq, raw_mod]

theorem slotCode_elemAt {t : ElemType} {v : VWord} {j : Nat} (hj : j < t.count) : slotCode t (elemAt t.width v j) = rawElem t v j := by
  rw [slot_kept', rawElem, if_pos hj]

theorem ite_mod {c : Prop} [Decidable c] {x y p q n : Nat} (hx : x % n = p) (hy : y % n = q) :
    (if c then x else y) % n = if c then p else q := by
  split <;> assumption

/-! ### Results for every element of a destination -/

section
variable {i : Instr} {s : State} {c : Bank} {lat : Nat} {d : VDst} {t : ElemType} {m : BitVec 6} {F : Nat → Nat}

/-- An instruction that puts one value for each element of the type, under its mask. -/
theorem sendsTo_elems {vals : List Nat} (g : Bank → Bank) (h : exec i s = .next (conclude .V (.ok (s.modHere g))))
    (hg : g s.here = c.putDst lat d t.width vals (activeOf (s.here.mreg m) t.count)) (hlen : vals.length = t.count)
    (hf : ∀ j < t.count, vals.getD j 0 % 2 ^ t.width = F j) : SendsTo i s c lat d t.width t.count (governs s m) F :=
  sendsTo_putDst g h hg (width_count t) (width4_count t) hlen hf

/-- The same where the value is a function of the element's place. -/
theorem sendsTo_fromIndex {f : Nat → Nat} (g : Bank → Bank) (h : exec i s = .next (conclude .V (.ok (s.modHere g))))
    (hg : g s.here = c.putDst lat d t.width (fromIndex t f) (activeOf (s.here.mreg m) t.count))
    (hf : ∀ j < t.count, f j % 2 ^ t.width = F j) : SendsTo i s c lat d t.width t.count (governs s m) F :=
  sendsTo_elems g h hg (fromIndex_len t f) fun j hj => by rw [fromIndex_get hj, hf j hj]

end

/-! ### Moves (R197, R198) -/

section
variable {s : State} {d : VDst} {a b : VSrc} {m : BitVec 6} {t : ElemType} {v w : VWord} {x : IndexSrc} {j : Nat} {c : Bank}
  {word : W64} {r : List WordEntry}

theorem sendsTo_vsel {sel : BitVec 6} (hd : canTake s d) (hm : s.here.hasM [sel, m] = true) (ha : s.here.hasSrc a = true)
    (hb : s.here.hasSrc b = true) (hv : sourceValue s a = some v) (hw : sourceValue s b = some w) :
    SendsTo (.vsel d a b sel m t) s (Popped s.here [a, b]) 2 d t.width t.count (governs s m)
      fun j => rawElem t (if governs s sel j then v else w) j := by
  have h : exec (.vsel d a b sel m t) s = execVsel d a b sel m t s := rfl
  rw [execVsel, vIssue_dst (by rw [hasDst_ok hd, ha, hb, hm]; rfl) hd, withSrcs, withSrc_ok hv, withSrc_ok hw] at h
  have hpick : List.zipWith (fun (p : Nat × Nat) c => slotCode t (if c = true then p.1 else p.2)) (List.zip (elems t v) (elems t w))
      (activeOf (s.here.mreg sel) t.count) =
        fromIndex t fun j => slotCode t (elemAt t.width (if governs s sel j then v else w) j) := by
    rw [elems, elems, activeOf, List.zip_map', List.zipWith_map, List.zipWith_self, fromIndex]
    exact List.map_congr_left fun j _ => congrArg _ (apply_ite (elemAt t.width · j) _ v w).symm
  refine sendsTo_fromIndex _ h (by dsimp only; rw [hpick, popped_two]) fun j hj => ?_
  rw [slotCode_elemAt hj, raw_mod]

theorem sendsTo_vbcast (hd : canTake s d) (hm : s.here.hasM [m] = true) (ha : s.here.hasSrc a = true) (hv : sourceValue s a = some v)
    (hx : indexGives s x j c) :
    SendsTo (.vbcast d a x m t) s (Popped c [a]) 3 d t.width t.count (governs s m) fun _ => rawElem t v j := by
  have h : exec (.vbcast d a x m t) s = execVbcast d a x m t s := rfl
  rw [execVbcast, vIssue_dst (by rw [hasDst_ok hd, ha, hm]; rfl) hd, index_ok hx, withSrc_ok hv] at h
  exact sendsTo_fromIndex _ h (by rw [index_pop hx, popped_one]) fun _ _ => elemOr0_mod t v j

theorem sendsTo_vsplat (hd : canTake s d) (hm : s.here.hasM [m] = true) (hx : xqHead s word r) :
    SendsTo (.vsplat d m t) s { s.here with xq := r } 2 d t.width t.count (governs s m) fun _ => word.toNat % 2 ^ keptBits t := by
  have h : exec (.vsplat d m t) s = execVsplat d m t s := rfl
  rw [execVsplat, vIssue_dst (by rw [hasDst_ok hd, hm]; rfl) hd, xq_ok hx] at h
  exact sendsTo_fromIndex (f := fun _ => slotCode t word.toNat) _ h (by rw [xq_pop hx]; rfl) fun _ _ => slotCode_mod t word.toNat

theorem issuesTo_vextr (ha : s.here.hasSrc a = true) (hv : sourceValue s a = some v) (hroom : s.here.cq.length < 16)
    (hx : indexGives s x j c) :
    IssuesTo (.vextr a x t) s (CqTo (Popped c [a]) 3 (elemWord t.signed t.width (rawElem t v j))) := by
  have h : exec (.vextr a x t) s = execVextr a x t s := rfl
  rw [execVextr, vIssue_landing ha, cq_ok hroom, index_ok hx, withSrc_ok hv] at h
  refine issuesTo_of_ok _ h ?_
  rw [index_pop hx, elemOr0_eq, codeWord_eq _ (Machine.width_pos t) (raw_lt t v j) (width_le t), popped_one]
  rfl

/-- The words that VINS pops: the index, if it comes from xq, and behind it the value (R198). -/
theorem insertWords {e : WordEntry} (hx : indexGives s x j c) (hq : c.xq = e :: r) (hval : e.val = some word) (herr : e.err = none) :
    ∃ l, (∀ k, withXq s (indexPops x + 1) k = k l) ∧ l.getLastD 0 = word ∧
      s.here.popWords .xq (indexPops x + 1) = { c with xq := r } ∧
      (∀ n, x = .imm n → n.toNat = j) ∧ (x = .xq → (l.headD 0).toNat = j) := by
  cases x with
  | imm n =>
    obtain ⟨rfl, rfl⟩ := hx
    have hhead : xqHead s word r := ⟨e, hq, hval, herr⟩
    exact ⟨[word], xq_ok hhead, rfl, xq_pop hhead, fun _ h => by cases h; rfl, nofun⟩
  | xq =>
    obtain ⟨index, rest, ⟨e0, hq0, hval0, herr0⟩, rfl, rfl⟩ := hx
    have hq2 : s.here.xq = e0 :: e :: r := by rw [hq0]; exact congrArg _ hq
    refine ⟨[index, word], fun k => withWords_two (q := .xq) hq2 hval0 herr0 hval herr, rfl, ?_, nofun, fun _ => rfl⟩
    simp [Bank.popWords, Bank.wordQ, Bank.setWordQ, indexPops, hq2]

/-- What VINS comes to when its operands are ready. -/
theorem exec_vins {d : BitVec 8} {e : WordEntry} (hd : d.toNat < s.here.decl.v) (hm : s.here.hasM [m] = true)
    (hx : indexGives s x j c) (hq : c.xq = e :: r) (hval : e.val = some word) (herr : e.err = none) :
    ∃ g : Bank → Bank, exec (.vins d x m t) s = .next (conclude .V (.ok (s.modHere g))) ∧
      g s.here = Bank.putDst { c with xq := r } 3 (.reg d) t.width (fromIndex t fun _ => slotCode t word.toNat)
        ((List.range t.count).map fun k => decide (k = j) && governs s m k) := by
  have h : exec (.vins d x m t) s = execVins d x m t s := rfl
  obtain ⟨l, hl, hlast, hpop, himm, hxq⟩ := insertWords hx hq hval herr
  rw [execVins, vIssue_landing (by rw [hm]; simpa [Bank.hasV] using hd), hl] at h
  refine ⟨_, h, ?_⟩
  cases x with
  | imm n => rw [hpop, hlast, ← himm n rfl]; rfl
  | xq => rw [hpop, hlast, ← hxq rfl]; rfl

theorem sendsTo_vins {d : BitVec 8} {e : WordEntry} (hd : d.toNat < s.here.decl.v) (hm : s.here.hasM [m] = true)
    (hx : indexGives s x j c) (hq : c.xq = e :: r) (hval : e.val = some word) (herr : e.err = none) :
    SendsTo (.vins d x m t) s { c with xq := r } 3 (.reg d) t.width t.count (fun e => decide (e = j) && governs s m e)
      fun _ => word.toNat % 2 ^ keptBits t := by
  obtain ⟨g, h, hg⟩ := exec_vins (t := t) hd hm hx hq hval herr
  exact sendsTo_act g h hg (width_count t) (width4_count t) (fromIndex_len t _) (by simp) (fun k hk => by simp [hk])
    fun k hk _ => by rw [fromIndex_get hk, slotCode_mod]

theorem sendsTo_vldi {n : BitVec 7} (hd : canTake s d) (hm : s.here.hasM [m] = true) :
    SendsTo (.vldi d n m t) s s.here 2 d t.width t.count (governs s m) fun _ =>
      (if t.isInt then (BitVec.ofInt t.width n.toInt).toNat else roundElem t s.here.mode (XVal.ofInt n.toInt)) % 2 ^ keptBits t := by
  have h : exec (.vldi d n m t) s = execVldi d n m t s := rfl
  rw [execVldi, vIssue_dst (by rw [hasDst_ok hd, hm]; rfl) hd] at h
  refine sendsTo_fromIndex _ h rfl fun _ _ => ?_
  rw [slotCode_mod, fin_tab fun _ => holdsInt_ofInt n.toInt]

end

/-- Settles O21: each move puts the raw elements that its index, its selector or its word of xq names. -/
theorem moves : Obligations.Moves := by
  intro s _
  refine ⟨fun d a b sel m t v w => sendsTo_vsel, fun d a x m t v j c => sendsTo_vbcast, fun d m t w r => sendsTo_vsplat,
    fun a x t v j c => issuesTo_vextr, fun d x m t j c w r hd hm hx ⟨e, hq, hval, herr⟩ => sendsTo_vins hd hm hx hq hval herr,
    fun d n m t => sendsTo_vldi⟩

/-! ### Permutes (R199) -/

section
variable {i : Instr} {s : State} {d : VDst} {a b : VSrc} {m : BitVec 6} {t : ElemType} {v w : VWord} {cs : List Nat}
  {f : VWord → Bank → Nat → Nat} {F : Nat → Nat}

theorem permIndexType_of_group {t : ElemType} (h : 1 < t.indexGroup) :
    permIndexType t = .z16 ∧ t.indexGroup * (permIndexType t).count = t.count := by
  revert h
  cases t <;> decide

theorem permIndexType_of_one {t : ElemType} (h : t.indexGroup = 1) :
    (permIndexType t).width = (if t.width = 32 then 32 else 16) ∧ (permIndexType t).count = t.count := by
  revert h
  cases t <;> decide

/-- A permute whose indices come from a group of registers. -/
theorem sendsTo_vPermute_group {n : BitVec 8} (h : exec i s = vPermute s d a (.reg n) cs m t f) (hk : 1 < t.indexGroup)
    (hd : canTake s d) (hm : s.here.hasM [m] = true) (ha : s.here.hasSrc a = true) (hcs : s.here.hasV cs = true)
    (hn : declares s n.toNat t.indexGroup) (hv : sourceValue s a = some v)
    (hf : ∀ e, f v s.here e % 2 ^ t.width = F e) :
    SendsTo i s (Popped s.here [a, .reg n]) 3 d t.width t.count (governs s m) fun j => F (groupElem s 16 n.toNat t.indexGroup j) := by
  obtain ⟨htype, hcount⟩ := permIndexType_of_group hk
  have hsrc : sourceValue s (.reg n) = some (s.here.vreg (physical s n.toNat)) := rfl
  rw [vPermute] at h
  simp only [VSrc.regNum, if_neg (Nat.ne_of_gt hk)] at h
  rw [vIssue_dst (by rw [hasDst_ok hd, ha, hasV_names hn, hcs, hm]; rfl) hd, withSrcs, withSrc_ok hv, withSrc_ok hsrc] at h
  have hlen : (s.here.readInterleaved n.toNat t.indexGroup (permIndexType t)).length = t.count := by
    rw [Bank.readInterleaved, weave_len _ _ (by simp [length_elems]), List.length_map, List.length_range, hcount]
  refine sendsTo_elems _ h (by rw [popped_two]) (by rw [List.length_map, hlen]) fun j hj => ?_
  rw [List.getD_eq_getElem?_getD, List.getElem?_map, readInter (by omega) (by omega), htype]
  exact hf _

/-- A permute whose indices come from one source. -/
theorem sendsTo_vPermute_one (h : exec i s = vPermute s d a b cs m t f) (hk : t.indexGroup = 1) (hd : canTake s d)
    (hm : s.here.hasM [m] = true) (ha : s.here.hasSrc a = true) (hcs : s.here.hasV cs = true) (hb : s.here.hasSrc b = true)
    (hv : sourceValue s a = some v) (hw : sourceValue s b = some w) (hf : ∀ e, f v s.here e % 2 ^ t.width = F e) :
    SendsTo i s (Popped s.here [a, b]) 3 d t.width t.count (governs s m)
      fun j => F (elemAt (if t.width = 32 then 32 else 16) w j) := by
  obtain ⟨hwidth, hcount⟩ := permIndexType_of_one hk
  rw [vPermute] at h
  simp only [if_pos hk] at h
  rw [vIssue_dst (by rw [hasDst_ok hd, ha, hb, hcs, hm]; rfl) hd, withSrcs, withSrc_ok hv, withSrc_ok hw] at h
  refine sendsTo_elems _ h (by rw [popped_two]) (by rw [List.length_map, length_elems, hcount]) fun j hj => ?_
  rw [List.getD_eq_getElem?_getD, List.getElem?_map, elems, hwidth, hcount, List.getElem?_map, List.getElem?_range hj]
  exact hf _

/-- The element that VPERME takes for index `e`: of the source, or beyond its last element of the third register (R199). -/
def permeElem (t : ElemType) (v y : VWord) (e : Nat) : Nat := if e < t.count then rawElem t v e else rawElem t y (e - t.count)

theorem permeElem_mod {c : BitVec 8} {y : VWord} (hy : sourceValue s (.reg c) = some y) (e : Nat) :
    (if e < t.count then elemOr0 t v e else elemOr0 t (s.here.vreg (physReg (s.here.headEntry .V).rb c.toNat)) (e - t.count)) %
      2 ^ t.width = permeElem t v y e := by
  rw [physical_eq, Option.some.inj hy]
  exact ite_mod (elemOr0_mod t v e) (elemOr0_mod t y _)

/-! ### Slides and the reversal (R200, R201) -/

theorem sendsTo_vSlide {x : IndexSrc} {count : Nat} {k : Bank} {g : VWord → VWord → Nat → Nat → Nat}
    (h : exec i s = vSlide s d a b x m t g)
    (hd : canTake s d) (hm : s.here.hasM [m] = true) (ha : s.here.hasSrc a = true) (hb : s.here.hasSrc b = true)
    (hv : sourceValue s a = some v) (hw : sourceValue s b = some w) (hx : indexGives s x count k)
    (hf : ∀ j < t.count, g v w (min count t.count) j % 2 ^ t.width = F j) :
    SendsTo i s (Popped k [a, b]) 3 d t.width t.count (governs s m) F := by
  rw [vSlide, vIssue_dst (by rw [hasDst_ok hd, ha, hb, hm]; rfl) hd, index_ok hx, withSrcs, withSrc_ok hv, withSrc_ok hw] at h
  exact sendsTo_fromIndex _ h (by rw [index_pop hx, popped_two]) hf

theorem sendsTo_vslup {x : IndexSrc} {count : Nat} {k : Bank} (hd : canTake s d) (hm : s.here.hasM [m] = true)
    (ha : s.here.hasSrc a = true) (hb : s.here.hasSrc b = true) (hv : sourceValue s a = some v) (hw : sourceValue s b = some w)
    (hx : indexGives s x count k) :
    SendsTo (.vslup d a b x m t) s (Popped k [a, b]) 3 d t.width t.count (governs s m) fun j =>
      if min count t.count ≤ j then rawElem t v (j - min count t.count) else rawElem t w (t.count - min count t.count + j) := by
  have h : exec (.vslup d a b x m t) s = execVslup d a b x m t s := rfl
  rw [execVslup] at h
  exact sendsTo_vSlide h hd hm ha hb hv hw hx fun j _ => ite_mod (elemOr0_mod t v _) (elemOr0_mod t w _)

theorem sendsTo_vsldn {x : IndexSrc} {count : Nat} {k : Bank} (hd : canTake s d) (hm : s.here.hasM [m] = true)
    (ha : s.here.hasSrc a = true) (hb : s.here.hasSrc b = true) (hv : sourceValue s a = some v) (hw : sourceValue s b = some w)
    (hx : indexGives s x count k) :
    SendsTo (.vsldn d a b x m t) s (Popped k [a, b]) 3 d t.width t.count (governs s m) fun j =>
      if j + min count t.count < t.count then rawElem t v (j + min count t.count)
      else rawElem t w (j + min count t.count - t.count) := by
  have h : exec (.vsldn d a b x m t) s = execVsldn d a b x m t s := rfl
  rw [execVsldn] at h
  exact sendsTo_vSlide h hd hm ha hb hv hw hx fun j _ => ite_mod (elemOr0_mod t v _) (elemOr0_mod t w _)

theorem sendsTo_vrev (hd : canTake s d) (hm : s.here.hasM [m] = true) (ha : s.here.hasSrc a = true) (hv : sourceValue s a = some v) :
    SendsTo (.vrev d a m t) s (Popped s.here [a]) 3 d t.width t.count (governs s m) fun j => rawElem t v (t.count - 1 - j) := by
  have h : exec (.vrev d a m t) s = execVrev d a m t s := rfl
  rw [execVrev, vIssue_dst (by rw [hasDst_ok hd, ha, hm]; rfl) hd, withSrc_ok hv] at h
  exact sendsTo_fromIndex _ h (by rw [popped_one]) fun _ _ => elemOr0_mod t v _

end

/-! ### VCOMPR (R202) -/

/-- The places that a mask register selects among the elements of a type. -/
def selectedPlaces (s : State) (m : BitVec 6) (t : ElemType) : List Nat := (List.range t.count).filter (governs s m)

/-- Element `j` of the selected elements packed to the front, or the zero element behind them (R202). -/
def packedElem (s : State) (m : BitVec 6) (t : ElemType) (v : VWord) (j : Nat) : Nat :=
  match (selectedPlaces s m t)[j]? with
  | some q => rawElem t v q
  | none => 0

/-- The members of a mapped list that a mapped condition selects are the images of those that it selects. -/
theorem selected_map {α β : Type} (f : α → β) (p : α → Bool) (l : List α) : selected (l.map f) (l.map p) = (l.filter p).map f := by
  induction l with
  | nil => rfl
  | cons x l ih =>
    rw [List.filter_cons]
    cases hx : p x <;> simpa [selected, hx] using ih

section
variable {s : State} {d : VDst} {a : VSrc} {m : BitVec 6} {t : ElemType} {v : VWord}

theorem selected_elems :
    (selected (elems t v) (activeOf (s.here.mreg m) t.count)).map (slotCode t) = (selectedPlaces s m t).map (rawElem t v) := by
  rw [elems, activeOf, selected_map, List.map_map]
  refine List.map_congr_left fun q hq => ?_
  exact slotCode_elemAt (List.mem_range.mp (List.mem_of_mem_filter hq))

theorem length_selectedPlaces_le : (selectedPlaces s m t).length ≤ t.count := by
  simpa [selectedPlaces] using List.length_filter_le (governs s m) (List.range t.count)

/-- The values that VCOMPR puts. -/
def packedVals (s : State) (m : BitVec 6) (t : ElemType) (v : VWord) : List Nat :=
  (selectedPlaces s m t).map (rawElem t v) ++ List.replicate (t.count - (selectedPlaces s m t).length) 0

theorem length_packedVals : (packedVals s m t v).length = t.count := by
  have hle := length_selectedPlaces_le (s := s) (m := m) (t := t)
  rw [packedVals, List.length_append, List.length_map, List.length_replicate]
  omega

theorem getD_packedVals (j : Nat) : (packedVals s m t v).getD j 0 = packedElem s m t v j := by
  rw [packedElem, packedVals, List.getD_eq_getElem?_getD]
  by_cases hj : j < (selectedPlaces s m t).length
  · rw [List.getElem?_append_left (by simpa using hj), List.getElem?_map, List.getElem?_eq_getElem hj]
    rfl
  · rw [List.getElem?_append_right (by simpa using hj), List.getElem?_eq_none (Nat.not_lt.mp hj), List.getElem?_replicate]
    split <;> rfl

theorem packedElem_mod (j : Nat) : packedElem s m t v j % 2 ^ t.width = packedElem s m t v j := by
  rw [packedElem]
  split
  · exact raw_mod t v _
  · rfl

/-- What VCOMPR comes to when its operands are ready. -/
theorem exec_vcompr {cq : Bool} (hd : canTake s d) (hm : s.here.hasM [m] = true) (ha : s.here.hasSrc a = true)
    (hv : sourceValue s a = some v) (hroom : ∀ k, cqRoom s cq k = k) :
    ∃ g : Bank → Bank, exec (.vcompr d a m t cq) s = .next (conclude .V (.ok (s.modHere g))) ∧
      ∃ b, b = (Popped s.here [a]).putDst 3 d t.width (packedVals s m t v) (List.replicate t.count true) ∧
        g s.here = if cq = true then b.putCq 3 (.ofNat 64 (selectedPlaces s m t).length) else b := by
  have h : exec (.vcompr d a m t cq) s = execVcompr d a m t cq s := rfl
  rw [execVcompr, vIssue_dst (by rw [hasDst_ok hd, ha, hm]; rfl) hd, hroom, withSrc_ok hv] at h
  refine ⟨_, h, _, rfl, ?_⟩
  dsimp only
  rw [selected_elems, List.length_map, popped_one, packedVals]

theorem sendsTo_vcompr (hd : canTake s d) (hm : s.here.hasM [m] = true) (ha : s.here.hasSrc a = true) (hv : sourceValue s a = some v) :
    SendsTo (.vcompr d a m t false) s (Popped s.here [a]) 3 d t.width t.count (fun _ => true) (packedElem s m t v) := by
  obtain ⟨g, h, b, rfl, hg⟩ := exec_vcompr (t := t) (cq := false) hd hm ha hv fun _ => rfl
  exact sendsTo_act g h hg (width_count t) (width4_count t) length_packedVals (by simp) (fun j hj => by simp [hj])
    fun j _ _ => by rw [getD_packedVals, packedElem_mod]

theorem issuesTo_vcompr_cq (hd : canTake s d) (hm : s.here.hasM [m] = true) (ha : s.here.hasSrc a = true) (hv : sourceValue s a = some v)
    (hroom : s.here.cq.length < 16) :
    ∃ data en nib, Carries d t.width t.count (fun _ => true) (packedElem s m t v) data en nib ∧
      IssuesTo (.vcompr d a m t true) s
        (CqTo (Sending (Popped s.here [a]) 3 d data en nib) 3 (.ofNat 64 (selectedPlaces s m t).length)) := by
  obtain ⟨g, h, b, rfl, hg⟩ := exec_vcompr (t := t) hd hm ha hv (cq_ok hroom)
  have hcarries := carries_packed (d := d) (f := packedElem s m t v) (act := List.replicate t.count true) (width_count t)
    (width4_count t) (by simp) length_packedVals (fun j _ _ => by rw [getD_packedVals, packedElem_mod]) rfl
  obtain ⟨hon, -, hbits, hnibs⟩ := hcarries
  have hall : ∀ j < t.count, (List.replicate t.count true).getD j false = true := fun j hj => by simp [hj]
  refine ⟨_, _, _, ⟨fun j hj _ => hon j hj (hall j hj), fun _ _ _ hoff => by simp at hoff,
    fun j hj k hk => (hbits j hj k hk).trans (hall j hj), fun j hj k hk => (hnibs j hj k hk).trans (hall j hj)⟩,
    issuesTo_of_ok g h ?_⟩
  rw [hg, if_pos rfl, putDst_sending]
  rfl

end

/-! ### VEXPND (R203) -/

/-- The member handed out to an active place is that of the number of active places before it. -/
theorem getD_expandOver : ∀ (act : List Bool) (l : List Nat) (j : Nat), act.getD j false = true →
    (expandOver l act).getD j 0 = l.getD ((act.take j).count true) 0
  | [], l, j, h => by simp at h
  | false :: r, l, 0, h => by simp at h
  | true :: r, [], 0, _ => rfl
  | true :: r, x :: l, 0, _ => rfl
  | false :: r, l, j + 1, h => by simpa [expandOver] using getD_expandOver r l j h
  | true :: r, [], j + 1, h => by simpa [expandOver] using getD_expandOver r [] j h
  | true :: r, x :: l, j + 1, h => by simpa [expandOver] using getD_expandOver r l j h

theorem length_expandOver : ∀ (act : List Bool) (l : List Nat), (expandOver l act).length = act.length
  | [], l => by cases l <;> rfl
  | false :: r, l => by simp [expandOver, length_expandOver r l]
  | true :: r, [] => by simp [expandOver, length_expandOver r []]
  | true :: r, x :: l => by simp [expandOver, length_expandOver r l]

theorem count_take_activeOf (s : State) (m : BitVec 6) {n j : Nat} (hj : j ≤ n) :
    ((activeOf (s.here.mreg m) n).take j).count true = ((List.range j).filter (governs s m)).length := by
  rw [activeOf, ← List.map_take, List.take_range, Nat.min_eq_left hj, List.count_eq_countP, List.countP_map,
    List.countP_eq_length_filter]
  exact congrArg List.length (List.filter_congr fun k _ => by simp [governs])

theorem sendsTo_vexpnd {s : State} {d : BitVec 8} {a : VSrc} {m : BitVec 6} {t : ElemType} {v : VWord} (hd : d.toNat < s.here.decl.v)
    (hm : s.here.hasM [m] = true) (ha : s.here.hasSrc a = true) (hv : sourceValue s a = some v) :
    SendsTo (.vexpnd d a m t) s (Popped s.here [a]) 3 (.reg d) t.width t.count (governs s m)
      fun j => rawElem t v ((List.range j).filter (governs s m)).length := by
  have h : exec (.vexpnd d a m t) s = execVexpnd d a m t s := rfl
  rw [execVexpnd, vIssue_landing (by rw [ha, hm]; simpa [Bank.hasV] using hd), withSrc_ok hv] at h
  refine sendsTo_act _ h (by rw [popped_one]; rfl) (width_count t) (width4_count t) (by rw [length_expandOver, length_activeOf])
    (length_activeOf _ _) (fun j hj => getD_activeOf hj _) fun j hj hact => ?_
  have hrank : ((List.range j).filter (governs s m)).length < t.count :=
    Nat.lt_of_le_of_lt (by simpa using List.length_filter_le (governs s m) (List.range j)) hj
  rw [getD_expandOver _ _ _ ((getD_activeOf hj _).trans hact), count_take_activeOf s m (Nat.le_of_lt hj)]
  simp [elems, hrank, slotCode_elemAt, raw_mod]

/-- Settles O22: a permute looks its indices up in the source, a slide shifts by at most the element count, VCOMPR packs the selected
elements and VEXPND hands elements out to the active places. -/
theorem permutes : Obligations.Permutes := by
  intro s a v t _ ha hv
  refine ⟨fun d m hd hm => ⟨fun b hk n hb hn => ?_, fun b w hb hw => ⟨fun hk => ?_, fun x count k hx => ?_⟩,
    sendsTo_vrev hd hm ha hv, sendsTo_vcompr hd hm ha hv, issuesTo_vcompr_cq hd hm ha hv⟩,
    fun d m hd hm => sendsTo_vexpnd hd hm ha hv⟩
  · subst hb
    refine ⟨sendsTo_vPermute_group (cs := []) rfl hk hd hm ha rfl hn hv (elemOr0_mod t v), fun c hc y hy => ?_⟩
    exact sendsTo_vPermute_group (cs := [c.toNat]) (F := permeElem t v y) rfl hk hd hm ha hc hn hv (permeElem_mod hy)
  · refine ⟨sendsTo_vPermute_one (cs := []) rfl hk hd hm ha rfl hb hv hw (elemOr0_mod t v), fun c hc y hy => ?_⟩
    exact sendsTo_vPermute_one (cs := [c.toNat]) (F := permeElem t v y) rfl hk hd hm ha hc hb hv hw (permeElem_mod hy)
  · exact ⟨sendsTo_vslup hd hm ha hb hv hw hx, sendsTo_vsldn hd hm ha hb hv hw hx⟩

end Sys2Proof
end

section
/-! Interleaves, de-interleaves, and the packing of nibbles (R204 to R207). -/

namespace Sys2Proof

open Machine

/-! ### Lists of lists of one length -/

section
variable {α : Type} {n : Nat}

/-- The flattening of lists of length `n` holds member `i` of list `j` at place `n * j + i`. -/
theorem getElem?_flatten_uniform {i : Nat} (hi : i < n) : ∀ (ls : List (List α)) (j : Nat), (∀ l ∈ ls, l.length = n) →
    ls.flatten[n * j + i]? = ls[j]?.bind fun l => l[i]?
  | [], _, _ => rfl
  | l :: ls, 0, h => by
    rw [List.flatten_cons, Nat.mul_zero, Nat.zero_add, List.getElem?_append_left (by rw [h l (by simp)]; exact hi)]
    rfl
  | l :: ls, j + 1, h => by
    have hl : l.length = n := h l List.mem_cons_self
    rw [List.flatten_cons, List.getElem?_append_right (by rw [hl, Nat.mul_succ]; omega),
      show n * (j + 1) + i - l.length = n * j + i by rw [hl, Nat.mul_succ]; omega,
      getElem?_flatten_uniform hi ls j fun x hx => h x (List.mem_cons_of_mem _ hx), List.getElem?_cons_succ]

theorem getElem?_cutInto : ∀ {k j : Nat} (l : List α), j < k → (cutInto k n l)[j]? = some ((l.drop (n * j)).take n)
  | k + 1, 0, l, _ => by simp [cutInto]
  | k + 1, j + 1, l, h => by
    rw [cutInto, List.getElem?_cons_succ, getElem?_cutInto (l.drop n) (by omega), List.drop_drop, Nat.mul_succ, Nat.add_comm]

theorem length_cutInto : ∀ (k : Nat) (l : List α), (cutInto k n l).length = k
  | 0, _ => rfl
  | k + 1, l => by rw [cutInto, List.length_cons, length_cutInto k]

theorem length_le_of_mem_cutInto : ∀ {k : Nat} {l x : List α}, x ∈ cutInto k n l → x.length ≤ n
  | k + 1, l, x, h => by
    rcases List.mem_cons.mp h with rfl | h
    · exact List.length_take_le n l
    · exact length_le_of_mem_cutInto h

end

/-! ### Groups of whole registers (R204) -/

section
variable {s : State} {d a : BitVec 8} {t : ElemType} {k : Nat}

/-- Element `i` of register `j` of the source group as a moved element. -/
def sourceElem (s : State) (a : BitVec 8) (t : ElemType) (j i : Nat) : Nat := rawElem t (s.here.vreg (physical s (a.toNat + j))) i

theorem length_readGroup : (s.here.readGroup a.toNat k t).length = k := by simp [Bank.readGroup]

theorem length_of_mem_readGroup {l : List Nat} (h : l ∈ s.here.readGroup a.toNat k t) : l.length = t.count := by
  obtain ⟨j, -, rfl⟩ := List.mem_map.mp h
  rw [List.length_map, length_elems]

theorem getElem?_readGroup {j i : Nat} (hj : j < k) (hi : i < t.count) :
    ((s.here.readGroup a.toNat k t)[j]?.bind fun l => l[i]?) = some (sourceElem s a t j i) := by
  simp [Bank.readGroup, elems, hj, hi, sourceElem, slotCode_elemAt, physical_eq]

/-- The place of element `i` of register `j` of an interleaved group falls in one of its `k` registers. -/
theorem interleavedPlace_lt {n j i : Nat} (hj : j < k) (hi : i < n) : (k * i + j) / n < k := by
  have hle : k * (i + 1) ≤ k * n := Nat.mul_le_mul_left k hi
  rw [Nat.mul_succ] at hle
  exact (Nat.div_lt_iff_lt_mul (Nat.zero_lt_of_lt hi)).mpr (by omega)

/-- The result for register `j` of the destination group: all of it, with the elements of list `j`. -/
def wholeRegister (s : State) (d : BitVec 8) (t : ElemType) (ls : List (List Nat)) (j : Nat) : Result :=
  .vreg (physical s (d.toNat + j)) (ofElems t.width (ls.getD j [])) (BitVec.allOnes 4096)

/-- Whole registers are sent as one result for each register of the group. -/
theorem putGroup_issued {ls : List (List Nat)} (hk : 0 < k) (hlen : ls.length = k) :
    (s.here.putGroup 3 d.toNat t.width ls).issued .V =
      GroupTo s s.here 3 d.toNat k (fun j => ofElems t.width (ls.getD j [])) fun _ => BitVec.allOnes 4096 := by
  have hres : (ls.zipIdx.map fun p => Result.vreg (physReg (s.here.headEntry .V).rb (d.toNat + p.2)) (ofElems t.width p.1)
      (BitVec.allOnes 4096)) = (List.range k).map (wholeRegister s d t ls) := by
    refine List.ext_getElem (by simp [hlen]) fun j hj _ => ?_
    have hj : j < ls.length := by simpa using hj
    simp only [List.getElem_map, List.getElem_zipIdx, List.getElem_range, Nat.zero_add, physical_eq, wholeRegister,
      List.getD_eq_getElem _ _ hj]
  have hne : (List.range k).map (wholeRegister s d t ls) ≠ [] := by simpa using Nat.ne_of_gt hk
  rw [Bank.putGroup, hres, Bank.send, if_neg hne]
  rfl

/-- An instruction that turns the sources' elements into the destinations' (R204). -/
theorem issuesTo_vZip {i : Instr} {f : List (List Nat) → List (List Nat)} (h : exec i s = vZip s d a t k f) (hk : 0 < k)
    (hd : declares s d.toNat k) (ha : declares s a.toNat k) (hlen : (f (s.here.readGroup a.toNat k t)).length = k)
    (hcount : ∀ l ∈ f (s.here.readGroup a.toNat k t), l.length ≤ t.count) :
    ∃ data, IssuesTo i s (GroupTo s s.here 3 d.toNat k data fun _ => BitVec.allOnes 4096) ∧
      ∀ q e x, ((f (s.here.readGroup a.toNat k t))[q]?.bind fun l => l[e]?) = some x → elemAt t.width (data q) e = x % 2 ^ t.width := by
  rw [vZip, vIssue_landing (by rw [hasV_names hd, hasV_names ha]; rfl)] at h
  refine ⟨_, issuesTo_of_ok _ h (putGroup_issued hk hlen), fun q e x hx => ?_⟩
  obtain ⟨l, hl, he⟩ := Option.bind_eq_some_iff.mp hx
  have hfits : t.width * l.length ≤ 4096 := by
    rw [← width_count t]
    exact Nat.mul_le_mul_left _ (hcount l (List.mem_of_getElem? hl))
  rw [List.getD_eq_getElem?_getD, hl, Option.getD_some, elemAt_ofElems hfits, List.getD_eq_getElem?_getD, he, Option.getD_some]

/-! ### VZIPk and VUNZIPk (R205) -/

theorem getElem?_zipGroup {j i : Nat} (hj : j < k) (hi : i < t.count) :
    ((zipGroup k t.count (s.here.readGroup a.toNat k t))[(k * i + j) / t.count]?.bind fun l => l[(k * i + j) % t.count]?) =
      some (sourceElem s a t j i) := by
  have hpos : 0 < t.count := Nat.zero_lt_of_lt hi
  have hwoven := weave_get t.count (s.here.readGroup a.toNat k t) (fun l => length_of_mem_readGroup) i j hi (by rwa [length_readGroup])
  rw [zipGroup, getElem?_cutInto _ (interleavedPlace_lt hj hi), Option.bind_some, List.getElem?_take_of_lt (Nat.mod_lt _ hpos),
    List.getElem?_drop, Nat.div_add_mod]
  rw [length_readGroup] at hwoven
  rw [hwoven, getElem?_readGroup hj hi]

theorem getElem?_unzipGroup {j i : Nat} (hj : j < k) (hi : i < t.count) :
    ((unzipGroup k (s.here.readGroup a.toNat k t))[j]?.bind fun l => l[i]?) =
      some (sourceElem s a t ((k * i + j) / t.count) ((k * i + j) % t.count)) := by
  have hpos : 0 < t.count := Nat.zero_lt_of_lt hi
  have hflat := getElem?_flatten_uniform (Nat.mod_lt (k * i + j) hpos) (s.here.readGroup a.toNat k t) ((k * i + j) / t.count)
    fun l => length_of_mem_readGroup
  rw [Nat.div_add_mod, getElem?_readGroup (interleavedPlace_lt hj hi) (Nat.mod_lt _ hpos)] at hflat
  rw [unzipGroup, List.getElem?_map, List.getElem?_range hj, Option.map_some, Option.bind_some, strided,
    strideFrom_get k (Nat.zero_lt_of_lt hj), Nat.add_comm, hflat]

theorem length_le_of_mem_unzipGroup {l : List Nat} (hk : 0 < k) (h : l ∈ unzipGroup k (s.here.readGroup a.toNat k t)) :
    l.length ≤ t.count := by
  obtain ⟨j, -, rfl⟩ := List.mem_map.mp h
  refine strided_len hk ?_
  rw [List.length_flatten, List.map_congr_left fun l => length_of_mem_readGroup]
  simp [length_readGroup]

theorem vzip_elems {zip : Instr} (h : exec zip s = vZip s d a t k (zipGroup k t.count)) (hk : 0 < k) (hd : declares s d.toNat k)
    (ha : declares s a.toNat k) : ∃ data, IssuesTo zip s (GroupTo s s.here 3 d.toNat k data fun _ => BitVec.allOnes 4096) ∧
      ∀ j < k, ∀ i < t.count, elemAt t.width (data ((k * i + j) / t.count)) ((k * i + j) % t.count) = sourceElem s a t j i := by
  obtain ⟨data, hissue, hdata⟩ := issuesTo_vZip h hk hd ha (length_cutInto _ _) fun l => length_le_of_mem_cutInto
  exact ⟨data, hissue, fun j hj i hi => by rw [hdata _ _ _ (getElem?_zipGroup hj hi), sourceElem, raw_mod]⟩

theorem vunzip_elems {unzip : Instr} (h : exec unzip s = vZip s d a t k (unzipGroup k)) (hk : 0 < k) (hd : declares s d.toNat k)
    (ha : declares s a.toNat k) : ∃ data, IssuesTo unzip s (GroupTo s s.here 3 d.toNat k data fun _ => BitVec.allOnes 4096) ∧
      ∀ j < k, ∀ i < t.count, elemAt t.width (data j) i = sourceElem s a t ((k * i + j) / t.count) ((k * i + j) % t.count) := by
  obtain ⟨data, hissue, hdata⟩ := issuesTo_vZip h hk hd ha (by simp [unzipGroup]) fun l => length_le_of_mem_unzipGroup hk
  exact ⟨data, hissue, fun j hj i hi => by rw [hdata _ _ _ (getElem?_unzipGroup hj hi), sourceElem, raw_mod]⟩

end

/-- Settles O23: the interleave cuts the woven elements into registers, the de-interleave takes every `k`-th element of the
registers laid end to end. -/
theorem interleaves : Obligations.Interleaves := by
  rintro s d a t k zip unzip - (⟨rfl, rfl, rfl⟩ | ⟨rfl, rfl, rfl⟩ | ⟨rfl, rfl, rfl⟩) hd ha
  all_goals exact ⟨vzip_elems rfl (by decide) hd ha, vunzip_elems rfl (by decide) hd ha⟩

/-! ### VUNPK4 (R206) -/

theorem unpackIndex_eq {n : Nat} (hn : n < 4) (j : Nat) : unpackIndex n j = [j, 512 + j, 2 * j, 2 * j + 1].getD n 0 := by
  interval_cases n <;> rfl

/-- A nibble widened to 8 bits: by its sign for s4, with zeros for z4. -/
theorem widenNibble {t : ElemType} (ht : t = .s4 ∨ t = .z4) {x : Nat} (hx : x < 16) :
    wrapTo 8 (intOf t x) = if t = .s4 then ((BitVec.ofNat 4 x).signExtend 8).toNat else (BitVec.ofNat 4 x).toNat := by
  rw [wrapTo_eq]
  rcases ht with rfl | rfl
  · have hint : intOf .s4 x = (BitVec.ofNat 4 x).toInt := signedOf_toInt (by decide) hx
    rw [hint, if_pos rfl, BitVec.signExtend]
  · have hint : intOf .z4 x = (x : Int) := rfl
    rw [hint, if_neg (by decide), BitVec.ofInt_natCast, BitVec.toNat_ofNat, BitVec.toNat_ofNat]
    omega

section
variable {s : State} {d : VDst} {a b : VSrc} {m : BitVec 6} {t : ElemType} {v w : VWord}

theorem sendsTo_vunpk4 (ht : t = .s4 ∨ t = .z4) (hd : canTake s d) (hm : s.here.hasM [m] = true) (ha : s.here.hasSrc a = true)
    (hv : sourceValue s a = some v) (mode : BitVec 2) :
    SendsTo (.vunpk4 d a m t mode) s (Popped s.here [a]) 3 d 8 512 (governs s m) fun j =>
      let x := BitVec.ofNat 4 (elemAt 4 v ([j, 512 + j, 2 * j, 2 * j + 1].getD mode.toNat 0))
      if t = .s4 then (x.signExtend 8).toNat else x.toNat := by
  have h : exec (.vunpk4 d a m t mode) s = execVunpk4 d a m t mode s := rfl
  rw [execVunpk4, vIssue_dst (by rw [hasDst_ok hd, ha, hm]; rfl) hd, withSrc_ok hv] at h
  refine sendsTo_putDst _ h (by rw [popped_one]) rfl rfl (by simp) fun j hj => ?_
  have hnibble : elemAt 4 v (unpackIndex mode.toNat j) < 16 := Nat.mod_lt _ (by decide)
  have hwide : wrapTo 8 (intOf t (elemAt 4 v (unpackIndex mode.toNat j))) < 2 ^ 8 := by
    rw [wrapTo_eq]
    exact BitVec.isLt _
  simp only [List.getD_eq_getElem?_getD, List.getElem?_map, List.getElem?_range hj, Option.map_some, Option.getD_some]
  rw [Nat.mod_eq_of_lt hwide, widenNibble ht hnibble, unpackIndex_eq mode.isLt, List.getD_eq_getElem?_getD]

/-! ### VPACK4 (R207) -/

theorem clamp_s4 (i : Int) : clampTo .s4 i = max (-8) (min 7 i) := rfl

theorem clamp_z4 (x : Nat) : clampTo .z4 x = min 15 (x : Int) := by
  have h : clampTo .z4 x = max 0 (min 15 (x : Int)) := rfl
  omega

theorem packNibble_eq (ht : t = .s4 ∨ t = .z4) (sat : Bool) {x : Nat} (hx : x < 256) :
    packNibble t sat x =
      let y : Int := if t = .s4 then (BitVec.ofNat 8 x).toInt else x
      (BitVec.ofInt 4 (if sat then (if t = .s4 then max (-8) (min 7 y) else min 15 y) else y)).toNat := by
  have hsigned : signedOf 8 x = (BitVec.ofNat 8 x).toInt := signedOf_toInt (by decide) hx
  rw [packNibble, wrapTo_eq, hsigned]
  rcases ht with rfl | rfl
  · simp only [if_true, clamp_s4]
  · simp only [reduceCtorEq, if_false, clamp_z4]

/-- The 8-bit source element of result nibble `j` (R207). -/
def packSource (inter : Bool) (v w : VWord) (j : Nat) : Nat :=
  if inter then elemAt 8 (if j % 2 = 0 then v else w) (j / 2) else elemAt 8 (if j < 512 then v else w) (j % 512)

theorem packSource_lt (inter : Bool) (v w : VWord) (j : Nat) : packSource inter v w j < 256 := by
  rw [packSource]
  split <;> exact Nat.mod_lt _ (by decide)

theorem length_byteElems (v : VWord) : (elems .z8 v).length = 512 := length_elems .z8 v

/-- The nibbles of two registers, alternating or the one after the other. -/
def packed (inter : Bool) (v w : VWord) (f : Nat → Nat) : List Nat :=
  if inter then weave 512 [(elems .z8 v).map f, (elems .z8 w).map f] else (elems .z8 v).map f ++ (elems .z8 w).map f

theorem length_packed (inter : Bool) (v w : VWord) (f : Nat → Nat) : (packed inter v w f).length = 1024 := by
  cases inter with
  | true => rw [packed, if_pos rfl, weave_len 512 _ (by simp [length_byteElems]), List.length_cons, List.length_singleton]
  | false => rw [packed, if_neg Bool.false_ne_true, List.length_append, List.length_map, List.length_map, length_byteElems, length_byteElems]

theorem getElem?_packed (inter : Bool) (v w : VWord) (f : Nat → Nat) {j : Nat} (hj : j < 1024) :
    (packed inter v w f)[j]? = some (f (packSource inter v w j)) := by
  have hget : ∀ (u : VWord) {e : Nat}, e < 512 → ((elems .z8 u).map f)[e]? = some (f (elemAt 8 u e)) := fun u e he => by
    rw [List.getElem?_map, elems, List.getElem?_map, List.getElem?_range (show e < ElemType.z8.count from he)]
    rfl
  cases inter with
  | true =>
    have hwoven := weave_get 512 [(elems .z8 v).map f, (elems .z8 w).map f] (by simp [length_byteElems]) (j / 2) (j % 2) (by omega)
      (Nat.mod_lt j (by decide))
    rw [show [(elems .z8 v).map f, (elems .z8 w).map f].length = 2 from rfl, Nat.div_add_mod] at hwoven
    rw [packed, if_pos rfl, hwoven, packSource, if_pos rfl]
    rcases Nat.mod_two_eq_zero_or_one j with h0 | h1
    · rw [h0]; exact hget v (by omega)
    · rw [h1]; exact hget w (by omega)
  | false =>
    rw [packed, if_neg Bool.false_ne_true, packSource, if_neg Bool.false_ne_true]
    by_cases hlow : j < 512
    · rw [List.getElem?_append_left (by rwa [List.length_map, length_byteElems]), hget v hlow, if_pos hlow, Nat.mod_eq_of_lt hlow]
    · rw [List.getElem?_append_right (by rw [List.length_map, length_byteElems]; omega), List.length_map, length_byteElems,
        hget w (by omega), if_neg hlow, show j % 512 = j - 512 by omega]

theorem sendsTo_vpack4 (hd : canTake s d) (hm : s.here.hasM [m] = true) (ha : s.here.hasSrc a = true)
    (hb : s.here.hasSrc b = true) (hv : sourceValue s a = some v) (hw : sourceValue s b = some w) (inter sat : Bool) :
    SendsTo (.vpack4 d a b m t inter sat) s (Popped s.here [a, b]) 3 d 4 1024 (governs s m)
      fun j => packNibble t sat (packSource inter v w j) := by
  have h : exec (.vpack4 d a b m t inter sat) s = execVpack4 d a b m t inter sat s := rfl
  rw [execVpack4, vIssue_dst (by rw [hasDst_ok hd, ha, hb, hm]; rfl) hd, withSrcs, withSrc_ok hv, withSrc_ok hw] at h
  refine sendsTo_putDst (vals := packed inter v w (packNibble t sat)) _ h (by rw [popped_two]; rfl) rfl rfl
    (length_packed inter v w _) fun j hj => ?_
  have hlt : packNibble t sat (packSource inter v w j) < 2 ^ 4 := by
    rw [packNibble, wrapTo_eq]
    exact BitVec.isLt _
  rw [List.getD_eq_getElem?_getD, getElem?_packed inter v w _ hj, Option.getD_some, Nat.mod_eq_of_lt hlt]

end

/-- Settles O24: VUNPK4 by the nibble that its mode names, VPACK4 by the source element of each nibble. -/
theorem nibbles : Obligations.Nibbles := by
  intro s d a m t v _ hd hm ha hv ht
  refine ⟨sendsTo_vunpk4 ht hd hm ha hv, fun b w inter sat hb hw => ?_⟩
  have h := sendsTo_vpack4 (t := t) hd hm ha hb hv hw inter sat
  simp only [packNibble_eq ht sat (packSource_lt inter v w _)] at h
  exact h

end Sys2Proof
end

section
/-! VSETMODE and VDISC (R211, R212). -/

namespace Sys2Proof

open Machine

/-! ### VSETMODE (R161, R211) -/

/-- VMODE holds the rounding mode below F8SAT, and zeros above (R161). -/
theorem vmodeOf_fields {rm : Nat} (hrm : rm < 8) (sat : Bool) :
    vmodeOf rm sat = (0 : BitVec 60) ++ BitVec.ofBool sat ++ BitVec.ofNat 3 rm := by
  interval_cases rm <;> cases sat <;> rfl

theorem rmCode_lt (rm : Rm) : rm.code < 8 := by cases rm <;> decide

theorem extract_f8sat (w : W64) : w.extractLsb' 3 1 = BitVec.ofBool (decide (w.toNat / 8 % 2 = 1)) := by
  refine BitVec.eq_of_toNat_eq ?_
  rw [BitVec.extractLsb'_toNat, Nat.shiftRight_eq_div_pow]
  rcases Nat.mod_two_eq_zero_or_one (w.toNat / 8) with h | h <;> simp [h]

/-- Codes 5 to 7 name no rounding mode, and are taken as 0 (R211). -/
theorem legal_rm (w : W64) :
    BitVec.ofNat 3 (if w.toNat % 8 ≤ 4 then w.toNat % 8 else 0) = if (w.setWidth 3).toNat ≤ 4 then w.setWidth 3 else 0 := by
  have hcode : (w.setWidth 3).toNat = w.toNat % 8 := BitVec.toNat_setWidth 3 w
  rw [hcode]
  split
  · rw [← hcode, BitVec.ofNat_toNat, BitVec.setWidth_eq]
  · rfl

/-- VMODE of a word of xq (R161, R211). -/
theorem vmodeOf_word (w : W64) :
    vmodeOf (if w.toNat % 8 ≤ 4 then w.toNat % 8 else 0) (decide (w.toNat / 8 % 2 = 1)) =
      (0 : BitVec 60) ++ w.extractLsb' 3 1 ++ (if (w.setWidth 3).toNat ≤ 4 then w.setWidth 3 else 0) := by
  have hlt : (if w.toNat % 8 ≤ 4 then w.toNat % 8 else 0) < 8 := by split <;> omega
  rw [vmodeOf_fields hlt, extract_f8sat, legal_rm]

section
variable {s : State}

theorem issuesTo_vsetmode_imm (rm : Rm) (sat : Bool) : IssuesTo (.vsetmode (.imm rm sat)) s
    (Bank.issued { s.here with vmode := (0 : BitVec 60) ++ BitVec.ofBool sat ++ BitVec.ofNat 3 rm.code } .V) := by
  have h : exec (.vsetmode (.imm rm sat)) s = execVsetmode (.imm rm sat) s := rfl
  refine issuesTo_of_ok _ h ?_
  rw [vmodeOf_fields (rmCode_lt rm)]

theorem issuesTo_vsetmode_xq {w : W64} {r : List WordEntry} (hx : xqHead s w r) : IssuesTo (.vsetmode .xq) s
    (Bank.issued { s.here with
      xq := r
      vmode := (0 : BitVec 60) ++ w.extractLsb' 3 1 ++ (if (w.setWidth 3).toNat ≤ 4 then w.setWidth 3 else 0) } .V) := by
  have h : exec (.vsetmode .xq) s = execVsetmode .xq s := rfl
  rw [execVsetmode, xq_ok hx, vIssue] at h
  refine issuesTo_of_ok _ h ?_
  rw [xq_pop hx, ← vmodeOf_word]
  rfl

/-! ### VDISC (R105, R107, R212) -/

variable {q n : BitVec 3}

section
variable {e : VEntry} {r : List VEntry} (hq : s.here.loadQ q = e :: r)
include hq

theorem popLq_cons : popLq s.here q = s.here.setLoadQ q r := by rw [popLq, hq, List.tail_cons]

variable (hval : e.val.isSome = true)
include hval

theorem headVec_filled : headVec (s.here.loadQ q) = some e := by rw [hq, headVec, if_pos hval]

theorem issuesTo_vdisc_last (hlast : s.here.disc = n.toNat) :
    IssuesTo (.vdisc q n) s (Bank.issued { s.here.setLoadQ q r with disc := 0 } .V) := by
  have h : exec (.vdisc q n) s = execVdisc q n s := rfl
  have hleft : n.toNat + 1 - s.here.disc ≤ 1 := by omega
  simp only [execVdisc, headVec_filled hq hval, hleft, if_true] at h
  exact issuesTo_of_ok _ h (by rw [popLq_cons hq])

theorem issuesTo_vdisc_more (hmore : s.here.disc < n.toNat) :
    IssuesTo (.vdisc q n) s (Bank.stalled { s.here.setLoadQ q r with disc := s.here.disc + 1 } .V false) := by
  have h : exec (.vdisc q n) s = execVdisc q n s := rfl
  have hleft : ¬ n.toNat + 1 - s.here.disc ≤ 1 := by omega
  simp only [execVdisc, headVec_filled hq hval, hleft, if_false] at h
  exact issuesTo_of_wait_mod _ h (by rw [popLq_cons hq])

end

theorem headVec_eq_none {l : List VEntry} (h : l.head?.bind VEntry.val = none) : headVec l = none := by
  cases l with
  | nil => rfl
  | cons e r =>
    have hval : e.val = none := h
    rw [headVec, hval]
    rfl

section
variable (hq : (s.here.loadQ q).head?.bind VEntry.val = none) (hheld : heldStream s.here q = none)
include hq hheld

theorem issuesTo_vdisc_empty (hfeed : s.here.pendingFeed (.lq q) = true) : IssuesTo (.vdisc q n) s (s.here.stalled .V true) := by
  have h : exec (.vdisc q n) s = execVdisc q n s := rfl
  simp only [execVdisc, headVec_eq_none hq, hheld, hfeed, if_true] at h
  exact issuesTo_of_stall h rfl

theorem vdisc_traps (hfeed : s.here.pendingFeed (.lq q) = false) :
    TrapsWith (.vdisc q n) s .V { causeAt 0x05 0 with aux := .ofNat 32 (n.toNat + 1 - s.here.disc) } := by
  have h : exec (.vdisc q n) s = execVdisc q n s := rfl
  simp only [execVdisc, headVec_eq_none hq, hheld, hfeed, Bool.false_eq_true, if_false] at h
  exact h

end

end

/-- Settles O26: VSETMODE by the fields of its word, VDISC by whether its queue has a filled head and how many entries it has popped. -/
theorem vectorControl : Obligations.VectorControl := fun _ =>
  ⟨issuesTo_vsetmode_imm, fun _ _ => issuesTo_vsetmode_xq, fun _ _ _ =>
    ⟨fun _ _ hq hval => ⟨issuesTo_vdisc_last hq hval, issuesTo_vdisc_more hq hval⟩,
      fun hq hheld => ⟨issuesTo_vdisc_empty hq hheld, vdisc_traps hq hheld⟩⟩⟩

end Sys2Proof
end

section
/-! Slice moves between tiles and vector registers, TCFG, TZERO and TREL (R213 to R217). -/

namespace Sys2Proof

open Machine

/-! ### The stalls of a tile (R103, R213, R217, R245) -/

section
variable {s : State} {t : BitVec 6}

theorem hasT_ok (h : t.toNat < s.here.decl.t) : s.here.hasT t = true := decide_eq_true h

theorem tileBusy_eq_false (h : ∀ x ∈ s.here.mx, t ∉ x.tiles) : s.here.tileBusy t = false := by
  rw [Bank.tileBusy, List.any_eq_false]
  exact fun x hx => by simpa using h x hx

theorem extentGone_eq_false {b : Bank} {c : TileCfg} (h : present b c) : extentGone b c = false := by
  rw [extentGone, Bool.and_eq_false_iff, List.any_eq_false]
  exact .inr fun g hg => by simp [h g hg]

section
variable (hmx : ∀ x ∈ s.here.mx, t ∉ x.tiles)
include hmx

theorem withTile_absent {c : TileCfg} (htile : s.here.tile t.toNat = .absent c) (k : Tile → Attempt) :
    withTile s t k = .wait (restoreTile s s.cur t.toNat) := by
  simp only [withTile, tileBusy_eq_false hmx, htile, Bool.false_eq_true, if_false]

theorem withTile_configured {c : TileCfg} (htile : s.here.tile t.toNat = .configured c) (hpresent : present s.here c) (k : Tile → Attempt) :
    withTile s t k = k (.configured c) := by
  simp only [withTile, tileBusy_eq_false hmx, htile, extentGone_eq_false hpresent, Bool.false_eq_true, if_false]

theorem withTile_unconfigured (htile : s.here.tile t.toNat = .unconfigured) (k : Tile → Attempt) :
    withTile s t k = k .unconfigured := by
  simp only [withTile, tileBusy_eq_false hmx, htile, Bool.false_eq_true, if_false]

/-- A tile that is not absent, and present where it is configured, does not hold an instruction up. -/
theorem withTile_ready (habsent : ∀ c, s.here.tile t.toNat ≠ .absent c)
    (hpresent : ∀ c, s.here.tile t.toNat = .configured c → present s.here c) (k : Tile → Attempt) :
    withTile s t k = k (s.here.tile t.toNat) := by
  cases htile : s.here.tile t.toNat with
  | unconfigured => exact withTile_unconfigured hmx htile k
  | configured c => exact withTile_configured hmx htile (hpresent c htile) k
  | absent c => exact absurd htile (habsent c)

end

/-! ### The slice index (R214) -/

theorem slice_ok {x : SliceIdx} {j : Nat} {k : Bank} (h : sliceGives s x j k) (f : Nat → Attempt) : withSlice s x f = f j := by
  cases x with
  | imm n => obtain ⟨rfl, -⟩ := h; rfl
  | xq => obtain ⟨w, r, hx, rfl, -⟩ := h; rw [withSlice, xq_ok hx]; rfl

theorem slice_pop {x : SliceIdx} {j : Nat} {k : Bank} (h : sliceGives s x j k) : s.here.popWords .xq (slicePops x) = k := by
  cases x with
  | imm n => obtain ⟨-, rfl⟩ := h; simp [slicePops, Bank.popWords, Bank.wordQ, Bank.setWordQ]
  | xq => obtain ⟨w, r, hx, -, rfl⟩ := h; exact xq_pop hx

/-- Reading the index changes xq only. -/
theorem slice_keeps {x : SliceIdx} {j : Nat} {k : Bank} (h : sliceGives s x j k) : k = { s.here with xq := k.xq } := by
  cases x with
  | imm n => obtain ⟨-, rfl⟩ := h; rfl
  | xq => obtain ⟨w, r, -, -, rfl⟩ := h; rfl

end

/-! ### Elements of a tile (R213, R215) -/

theorem tileSize_cases (t : ElemType) : tileSize t = 2 ∨ tileSize t = 4 := by
  rw [tileSize]
  split
  · exact .inl rfl
  · exact .inr rfl

/-- A register holds a whole number of tile elements. -/
theorem tileSize_count (t : ElemType) : 8 * tileSize t * (512 / tileSize t) = 4096 := by
  rcases tileSize_cases t with h | h <;> rw [h]

theorem slot_lt (t : ElemType) (q : Nat) : q % (512 / tileSize t) < 512 / tileSize t := by
  rcases tileSize_cases t with h | h <;> rw [h] <;> exact Nat.mod_lt q (by decide)

theorem sliceAt_eq (col : Bool) (c : TileCfg) (i j : Nat) : sliceAt col c i j = sliceOffset col c i j := by cases col <;> rfl

theorem accElem_eq (b : Bank) (c : TileCfg) (off : Nat) : accElem b (tileElemSize c.ty) off = halfElem b c off := by
  rw [accElem, halfElem, Store.getRun, tileElemSize]
  split
  · simp [List.range_succ, ofBytes, zeroByte]
  · simp [List.range_succ, ofBytes, zeroByte]
    omega

theorem halfElem_lt (b : Bank) (c : TileCfg) (off : Nat) : halfElem b c off < 2 ^ (8 * tileSize c.ty) := by
  have hbyte : ∀ o, (b.acc.get 0 o).toNat < 256 := fun o => (b.acc.get 0 o).isLt
  have h0 := hbyte off
  have h1 := hbyte (off + 1)
  have h2 := hbyte (off + 2)
  have h3 := hbyte (off + 3)
  rw [halfElem, tileSize]
  split <;> omega

/-! ### A slice read (R215, R217) -/

section
variable {s : State} {col : Bool} {c : TileCfg} {m : BitVec 6} {n : BitVec 8} {j : Nat}

/-- The value of register `r` of a slice read. -/
def sliceData (b : Bank) (col : Bool) (c : TileCfg) (i r : Nat) : VWord :=
  ofElems (8 * tileSize c.ty) ((List.range (512 / tileSize c.ty)).map fun k =>
    if 512 / tileSize c.ty * r + k < lengthOf col c then halfElem b c (sliceOffset col c i (512 / tileSize c.ty * r + k)) else 0)

/-- The enabled bits of register `r` of a slice read. -/
def sliceEnable (col : Bool) (c : TileCfg) (m : MWord) (r : Nat) : VWord :=
  enableBits (8 * tileSize c.ty) ((List.range (512 / tileSize c.ty)).map fun k =>
    decide (512 / tileSize c.ty * r + k < lengthOf col c) && m.getLsbD (512 / tileSize c.ty * r + k))

theorem sliceReadReg_eq (b : Bank) (col : Bool) (c : TileCfg) (m : MWord) (d i r : Nat) :
    sliceReadReg b col c m d i r = { b with
      flightV := b.flightV ++ [⟨6, [.vreg (physReg (b.headEntry .V).rb (d + r)) (sliceData b col c i r) (sliceEnable col c m r)]⟩] } := by
  rw [sliceReadReg, List.map_map, List.map_map]
  simp only [Function.comp_def, accElem_eq, sliceAt_eq]
  rfl

/-- The registers of a slice read are sent one after the other. -/
theorem foldl_sliceReadReg (b : Bank) (col : Bool) (c : TileCfg) (m : BitVec 6) (d i : Nat) : ∀ R : Nat,
    (List.range R).foldl (fun b r => sliceReadReg b col c (b.mreg m) d i r) b = { b with
      flightV := b.flightV ++ (List.range R).map fun r =>
        ⟨6, [.vreg (physReg (b.headEntry .V).rb (d + r)) (sliceData b col c i r) (sliceEnable col c (b.mreg m) r)]⟩ }
  | 0 => by rw [List.range_zero, List.map_nil, List.append_nil, List.foldl_nil]
  | R + 1 => by
    rw [List.range_succ, List.foldl_append, foldl_sliceReadReg b col c m d i R, List.foldl_cons, List.foldl_nil, sliceReadReg_eq,
      List.map_append, ← List.append_assoc]
    rfl

theorem elemAt_sliceData {q : Nat} (b : Bank) (i : Nat) (hq : q < lengthOf col c) :
    elemAt (8 * tileSize c.ty) (sliceData b col c i (q / (512 / tileSize c.ty))) (q % (512 / tileSize c.ty)) =
      halfElem b c (sliceOffset col c i q) := by
  have hslot := slot_lt c.ty q
  rw [sliceData, elemAt_ofElems (by rw [List.length_map, List.length_range, tileSize_count]), List.getD_eq_getElem?_getD,
    List.getElem?_map, List.getElem?_range hslot, Option.map_some, Option.getD_some, Nat.div_add_mod, if_pos hq]
  exact Nat.mod_eq_of_lt (halfElem_lt b c _)

theorem getLsbD_sliceEnable (col : Bool) (c : TileCfg) (m : MWord) (q : Nat) {b : Nat} (hb : b < 8 * tileSize c.ty) :
    (sliceEnable col c m (q / (512 / tileSize c.ty))).getLsbD (8 * tileSize c.ty * (q % (512 / tileSize c.ty)) + b) =
      (decide (q < lengthOf col c) && m.getLsbD q) := by
  have hslot := slot_lt c.ty q
  rw [sliceEnable, enableBits_bit (by rw [List.length_map, List.length_range, tileSize_count])
    (by rwa [List.length_map, List.length_range]) hb, List.getD_eq_getElem?_getD, List.getElem?_map, List.getElem?_range hslot,
    Option.map_some, Option.getD_some, Nat.div_add_mod]

theorem sliceBad_of_sound (col : Bool) (c : TileCfg) (m : MWord) (i : Nat) (h : s.here.accBad = []) :
    sliceBad s.here col c m i = false := by
  rw [sliceBad, h]
  rfl

section
variable {i : Instr} {t : BitVec 6} {x : SliceIdx} {k : Bank} (hm : s.here.hasM [m] = true) (ht : tileReady s t c)
  (hx : sliceGives s x j k) (hj : j < slicesOf col c) (hn : n.toNat < s.here.decl.v)
  (hregs : n.toNat + registersOf col c ≤ s.here.decl.v)

include hregs hj in
/-- The checks of R217 pass. -/
theorem sliceChecked_ok (f : TileCfg → Attempt) : sliceChecked s col n j (.configured c) f = f c := by
  have hindex : ¬ sliceCount col c ≤ j := Nat.not_le.mpr hj
  have hsecond : ¬ (sliceRegs col c = 2 ∧ s.here.decl.v ≤ n.toNat + 1) := fun ⟨h2, hv⟩ => by
    have h2 : registersOf col c = 2 := h2
    omega
  simp only [sliceChecked, Tile.cfg, if_neg hindex, if_neg hsecond]

include hm ht hn in
theorem sliceNames_ok : (s.here.hasV [n.toNat] && s.here.hasM [m] && s.here.hasT t) = true := by
  obtain ⟨hdecl, -⟩ := ht
  rw [hm, hasT_ok hdecl]
  simpa [Bank.hasV] using hn

include hm ht hx hj hn hregs

theorem issuesTo_sliceRead (h : exec i s = sliceRead s col n t x m) (hsound : s.here.accBad = []) :
    IssuesTo i s (Bank.issued { k with
      flightV := k.flightV ++ (List.range (registersOf col c)).map fun r =>
        ⟨6, [.vreg (physical s (n.toNat + r)) (sliceData s.here col c j r) (sliceEnable col c (s.here.mreg m) r)]⟩ } .V) := by
  have hnames := sliceNames_ok hm ht hn
  obtain ⟨-, hmx, htile, hpresent⟩ := ht
  rw [sliceRead, vIssue_landing hnames, slice_ok hx, withTile_configured hmx htile hpresent, sliceChecked_ok hj hregs,
    if_neg (by rw [sliceBad_of_sound col c _ j hsound]; exact Bool.false_ne_true)] at h
  refine issuesTo_of_ok _ h ?_
  rw [slice_pop hx, foldl_sliceReadReg, slice_keeps hx]
  rfl

theorem issuesTo_sliceWrite (h : exec i s = sliceWrite s col t n x m) :
    IssuesTo i s (Bank.issued { k with
      flightQ := k.flightQ ++ [⟨6, [.tile (sliceBytes s.here col c (s.here.mreg m) n.toNat j)]⟩] } .V) := by
  have hnames := sliceNames_ok hm ht hn
  obtain ⟨-, hmx, htile, hpresent⟩ := ht
  rw [sliceWrite, vIssue_landing hnames, slice_ok hx, withTile_configured hmx htile hpresent, sliceChecked_ok hj hregs] at h
  refine issuesTo_of_ok _ h ?_
  rw [slice_pop hx]
  rfl

end

/-! ### The bytes of a slice write (R215) -/

/-- The bytes of a value, each at its place from an offset on. -/
theorem mem_placedBytes (size value base o : Nat) (v : Byte) :
    (o, v) ∈ ((toBytes size value).zipIdx.map fun p => (base + p.2, p.1)) ↔
      ∃ b < size, o = base + b ∧ v = .ofNat 8 (value / 256 ^ b) := by
  simp only [List.mem_map, Prod.exists, Prod.mk.injEq, List.mem_zipIdx_iff_getElem?]
  constructor
  · rintro ⟨x, b, hget, rfl, rfl⟩
    have hb : b < size := by
      rw [← toBytes_len size value]
      exact (List.getElem?_eq_some_iff.mp hget).1
    rw [toBytes_get size value b hb] at hget
    exact ⟨b, hb, rfl, (Option.some.inj hget).symm⟩
  · rintro ⟨b, hb, rfl, rfl⟩
    exact ⟨_, b, toBytes_get size value b hb, rfl, rfl⟩

theorem mem_sliceBytes (a : Nat) (o : Nat) (v : Byte) :
    (o, v) ∈ sliceBytes s.here col c (s.here.mreg m) a j ↔
      ∃ q < lengthOf col c, governs s m q = true ∧ ∃ b < tileSize c.ty, o = sliceOffset col c j q + b ∧
        v = .ofNat 8 (elemAt (8 * tileSize c.ty) (s.here.vreg (physical s (a + q / (512 / tileSize c.ty))))
          (q % (512 / tileSize c.ty)) / 256 ^ b) := by
  rw [sliceBytes, List.mem_flatMap]
  refine exists_congr fun q => and_congr List.mem_range ?_
  by_cases hq : (s.here.mreg m).getLsbD q = true
  · rw [if_pos hq, sliceAt_eq]
    exact (mem_placedBytes _ _ _ _ _).trans (and_iff_right hq).symm
  · rw [if_neg hq]
    exact ⟨fun h => absurd h List.not_mem_nil, fun h => absurd h.1 hq⟩

end

/-- A slice move is a read or a write of its row or column. -/
theorem exec_of_sliceMove {i : Instr} {s : State} {col wr : Bool} {t m : BitVec 6} {n : BitVec 8} {x : SliceIdx}
    (h : sliceMove i = some (col, wr, t, n, x, m)) :
    exec i s = if wr = true then sliceWrite s col t n x m else sliceRead s col n t x m := by
  cases i
  case vtrd | vtcd | vtwr | vtwc => cases h; rfl
  all_goals cases h

/-- Settles O27: a read sends each register's elements and enables, a write the bytes of the active elements. -/
theorem tileSlices : Obligations.TileSlices := by
  intro s i col wr t m n x c j k hi _ hm ht hx hj hn hregs _ _
  have h := exec_of_sliceMove (s := s) hi
  refine ⟨fun hwr hsound => ?_, fun hwr => ?_⟩
  · rw [hwr, if_neg Bool.false_ne_true] at h
    exact ⟨_, _, issuesTo_sliceRead hm ht hx hj hn hregs h hsound, fun q hq _ => elemAt_sliceData s.here j hq,
      fun q _ b hb => getLsbD_sliceEnable col c (s.here.mreg m) q hb⟩
  · rw [hwr, if_pos rfl] at h
    exact ⟨_, issuesTo_sliceWrite hm ht hx hj hn hregs h, mem_sliceBytes n.toNat⟩

/-! ### The bytes of TZERO (R216) -/

theorem mem_zeroExtent {c : TileCfg} {o : Nat} {v : Byte} :
    (o, v) ∈ zeroExtent c ↔ v = 0 ∧ c.base ≤ o ∧ o < c.base + c.rows * c.cols * tileSize c.ty := by
  have hbytes : c.bytes = c.rows * c.cols * tileSize c.ty := rfl
  simp only [zeroExtent, List.mem_map, List.mem_range, Prod.mk.injEq, hbytes]
  constructor
  · rintro ⟨i, hi, rfl, rfl⟩
    exact ⟨rfl, by omega, by omega⟩
  · rintro ⟨rfl, hlow, hhigh⟩
    exact ⟨o - c.base, by omega, by omega, rfl⟩

/-! ### TCFG (R216, R217) -/

theorem tileCfgOk_iff (w : W64) : tileCfgOk w = true ↔ configLegal w := by
  have hzero : bitsOf w.toNat 31 21 = w.toNat / 2 ^ 21 % 2 ^ 11 := rfl
  have htype : bitsOf w.toNat 20 16 = w.toNat / 2 ^ 16 % 32 := rfl
  simp only [tileCfgOk, configLegal, hzero, htype, Bool.and_eq_true, Bool.or_eq_true, decide_eq_true_eq, and_assoc, List.mem_cons,
    List.not_mem_nil, or_false]
  exact and_congr_right' (and_congr_right' (by omega))

theorem ofWord_eq {w : W64} (h : configLegal w) : TileCfg.ofWord w.toNat = configOf w := by
  obtain ⟨-, -, htype⟩ := h
  have hcode : (ElemType.ofCode (bitsOf w.toNat 20 16)).getD .f32 =
      if w.toNat / 2 ^ 16 % 32 = 4 then .s32 else if w.toNat / 2 ^ 16 % 32 = 12 then .bf16 else .f32 := by
    rw [show bitsOf w.toNat 20 16 = w.toNat / 2 ^ 16 % 32 from rfl]
    simp only [List.mem_cons, List.not_mem_nil, or_false] at htype
    rcases htype with h | h | h <;> rw [h] <;> rfl
  rw [TileCfg.ofWord, configOf, hcode]
  simp only [bitsOf, pow_zero, Nat.div_one]
  rfl

section
variable {s : State} {t : BitVec 6} (ht : t.toNat < s.here.decl.t)
include ht

section
variable {w : W64} {r : List WordEntry} (hx : xqHead s w r)
include hx

theorem tcfg_absent (hmx : ∀ x ∈ s.here.mx, t ∉ x.tiles) {c : TileCfg} (htile : s.here.tile t.toNat = .absent c) :
    exec (.tcfg t) s = .next (conclude .V (.wait (restoreTile s s.cur t.toNat))) := by
  have h : exec (.tcfg t) s = execTcfg t s := rfl
  rw [h, execTcfg, declared_ok (hasT_ok ht), xq_ok hx, withTile_absent hmx htile, vIssue]

variable (hready : ∀ k, withTile s t k = k (s.here.tile t.toNat))
include hready

/-- What TCFG comes to once its word and its tile are there. -/
theorem exec_tcfg : exec (.tcfg t) s = .next (conclude .V (
    if tileCfgOk w = true then
      if s.here.decl.acc < (TileCfg.ofWord w.toNat).stop then trapWith s 0x03
      else .ok (s.modHere fun b => (b.popWords .xq 1).setTile t.toNat (.configured (TileCfg.ofWord w.toNat)))
    else trapWith s 0x02)) := by
  have h : exec (.tcfg t) s = execTcfg t s := rfl
  rw [h, execTcfg, declared_ok (hasT_ok ht), xq_ok hx, hready, vIssue]
  cases hw : tileCfgOk w <;> simp [hw]

theorem tcfg_illegal (hw : ¬ configLegal w) : TrapsWith (.tcfg t) s .V (causeAt 0x02 0) := by
  have h := exec_tcfg ht hx hready
  rw [if_neg (mt (tileCfgOk_iff w).mp hw)] at h
  exact h

variable (hw : configLegal w)
include hw

theorem tcfg_beyond (hstop : s.here.decl.acc < (configOf w).stop) : TrapsWith (.tcfg t) s .V (causeAt 0x03 0) := by
  have h := exec_tcfg ht hx hready
  rw [if_pos ((tileCfgOk_iff w).mpr hw), ofWord_eq hw, if_pos hstop] at h
  exact h

theorem issuesTo_tcfg (hstop : (configOf w).stop ≤ s.here.decl.acc) :
    IssuesTo (.tcfg t) s ((Bank.setTile { s.here with xq := r } t.toNat (.configured (configOf w))).issued .V) := by
  have h := exec_tcfg ht hx hready
  rw [if_pos ((tileCfgOk_iff w).mpr hw), ofWord_eq hw, if_neg (Nat.not_lt.mpr hstop)] at h
  exact issuesTo_of_ok _ h (by rw [xq_pop hx])

end

/-! ### TZERO and TREL (R216, R217) -/

section
variable (hmx : ∀ x ∈ s.here.mx, t ∉ x.tiles)
include hmx

theorem tzero_absent {c : TileCfg} (htile : s.here.tile t.toNat = .absent c) :
    exec (.tzero t) s = .next (conclude .V (.wait (restoreTile s s.cur t.toNat))) := by
  have h : exec (.tzero t) s = execTzero t s := rfl
  rw [h, execTzero, vIssue_landing (hasT_ok ht), withTile_absent hmx htile]

theorem tzero_unconfigured (htile : s.here.tile t.toNat = .unconfigured) : TrapsWith (.tzero t) s .V (causeAt 0x0B 0) := by
  have h : exec (.tzero t) s = execTzero t s := rfl
  rw [execTzero, vIssue_landing (hasT_ok ht), withTile_unconfigured hmx htile] at h
  exact h

theorem issuesTo_tzero {c : TileCfg} (htile : s.here.tile t.toNat = .configured c) (hpresent : present s.here c) :
    IssuesTo (.tzero t) s (Bank.issued { s.here with flightQ := s.here.flightQ ++ [⟨6, [.tile (zeroExtent c)]⟩] } .V) := by
  have h : exec (.tzero t) s = execTzero t s := rfl
  rw [execTzero, vIssue_landing (hasT_ok ht), withTile_configured hmx htile hpresent] at h
  exact issuesTo_of_ok _ h rfl

theorem issuesTo_trel : IssuesTo (.trel t) s ((s.here.setTile t.toNat .unconfigured).issued .V) := by
  have h : exec (.trel t) s = execTrel t s := rfl
  rw [execTrel, declared_ok (hasT_ok ht), if_neg (by rw [tileBusy_eq_false hmx]; exact Bool.false_ne_true), vIssue] at h
  exact issuesTo_of_ok _ h rfl

end

end

/-- Settles O28: TREL at once, TCFG by its word, TZERO by its tile, and both wait for an absent tile. -/
theorem tileConfiguration : Obligations.TileConfiguration := by
  intro s t ht hmx
  refine ⟨issuesTo_trel ht hmx, fun c htile => ⟨fun _ => tzero_absent ht hmx htile, fun w r hx => tcfg_absent ht hx hmx htile⟩,
    fun habsent hpresent => ⟨fun w r hx => ?_, fun _ => ⟨tzero_unconfigured ht hmx, fun c htile => ?_⟩⟩⟩
  · have hready := withTile_ready hmx habsent hpresent
    exact ⟨tcfg_illegal ht hx hready, fun hw => ⟨tcfg_beyond ht hx hready hw, issuesTo_tcfg ht hx hready hw⟩⟩
  · exact ⟨_, issuesTo_tzero ht hmx htile (hpresent c htile), fun o v => mem_zeroExtent⟩

end Sys2Proof
end
